-- ==== Sys2Proof/Word.lean ====
section
/-! DEFINITION. The word types of the GT-1 (R2, R35). -/

namespace Sys2Proof

abbrev Byte := BitVec 8
abbrev Word16 := BitVec 16
abbrev Word32 := BitVec 32
abbrev Word64 := BitVec 64
/-- A Vamer instruction word (R35); also one accumulator element (R97). -/
abbrev Word96 := BitVec 96

end Sys2Proof
end

