-- ==== Sys2Proof/Syntax.lean ====
section
/-! DEFINITION. Syntax of the GT-1: Vamer operands and modifiers (R35 to R58), the dray instructions (R283, R286),
and the events of spec/opcode_table.json. One constructor of `Instr` per row of that table. -/

namespace Sys2Proof

/-! ### Operands (R43, R46) -/

/-- A decoded operand field. `unused` is the all-zero pattern of a field the instruction does not use (R43). -/
inductive Operand where
  | unused
  | v (i : BitVec 9)
  | s (i : BitVec 10)
  | k (n : BitVec 8) (draw : Bool)
  | tile (n : BitVec 6)
  | yoke (n : BitVec 4)
  | pred (n : BitVec 4)
  | sr (n : BitVec 5)
  | imm (x : BitVec 9)
  | tail
  | zero
deriving DecidableEq, Repr, Inhabited

/-- The name of an operand space, as the operand tables of the class chapters list them. -/
inductive Space where
  | v | s | k | tile | yoke | pred | sr | imm | tail | zero
deriving DecidableEq, Repr

/-- Field identifiers of ILLEGAL and BAD_OPERAND (R58). -/
inductive Field where
  | opc | guard | a | b | c | mod | tail | d | xmod
deriving DecidableEq, Repr

/-- The parts of a word that every Vamer instruction has (R35): guard, hints, operand fields and TAIL.
`tail` holds TAIL in forms I and O, `xmod` holds XMOD in form D (R37); the other one is zero. -/
structure Args where
  gn : Bool
  gp : BitVec 4
  ret : BitVec 2
  yld : Bool
  a : Operand
  b : Operand
  c : Operand
  d : Operand
  tail : Word32
  xmod : BitVec 20
deriving DecidableEq, Repr, Inhabited

/-! ### Modifiers -/

/-- Operating width of class 0x0 (R67); `wide` is `.w`. -/
inductive IntW where
  | w32 | w64 | wide
deriving DecidableEq, Repr, Inhabited

/-- Flag output of class 0x0 (R69). -/
inductive FlagOut where
  | none | carry | ov
deriving DecidableEq, Repr, Inhabited

/-- Modifiers of class 0x0 (R67, R69). -/
structure IntMod where
  w : IntW
  u : Bool
  sat : Bool
  po : FlagOut
  pd : BitVec 4
deriving DecidableEq, Repr, Inhabited

/-- Conditions of CMP (R86). -/
inductive ICond where
  | eq | ne | lt | le | gt | ge | tst | ntst
deriving DecidableEq, Repr, Inhabited

/-- Rounding modes (R98). -/
inductive RMode where
  | rn | rz | rd | ru | rna | sr
deriving DecidableEq, Repr, Inhabited

/-- Floating-point formats: the codes FC of R104, and AF96 (R97). -/
inductive Fmt where
  | fp64 | fp32 | fp16 | bf16 | e4m3 | e5m2 | e2m1 | e8m0 | af96
deriving DecidableEq, Repr, Inhabited

/-- Integer widths IW of R104. -/
inductive IWidth where
  | i8 | i16 | i32 | i64
deriving DecidableEq, Repr, Inhabited

/-- Element type T of class 0x2 (R120). -/
inductive FType where
  | f32 | f64 | f16x2 | bf16x2
deriving DecidableEq, Repr, Inhabited

/-- Modifiers of class 0x2 (R120). -/
structure FMod where
  t : FType
  rm : RMode
  ftz : Bool
  sat : Bool
deriving DecidableEq, Repr, Inhabited

/-- Sign modes of FSGN (R128). -/
inductive SgnMode where
  | copy | neg | xor
deriving DecidableEq, Repr, Inhabited

/-- Conditions of FCMP (R129). -/
inductive FCond where
  | eq | ne | lt | le | gt | ge | un | ord
deriving DecidableEq, Repr, Inhabited

/-- The special functions of class 0x3 (R135). -/
inductive SFun where
  | rcp | rsq | sqrt | exp2 | log2 | sin | cos | tanh | sigm
deriving DecidableEq, Repr, Inhabited

/-- Modes of SHFL (R171, R175). -/
inductive ShflMode where
  | at | rot | bfly | rev
deriving DecidableEq, Repr, Inhabited

/-- Votes (R171, R176). -/
inductive VoteOp where
  | ballot | any | all | eq
deriving DecidableEq, Repr, Inhabited

/-- Reduction operations of REDUX and SCAN (R172). -/
inductive ROp where
  | add | umin | umax | smin | smax | and | or | xor | fadd | fmin | fmax
deriving DecidableEq, Repr, Inhabited

/-- Access sizes of class 0x6 (R205). -/
inductive MSize where
  | b8 | b16 | b32 | b64 | b128
deriving DecidableEq, Repr, Inhabited

/-- Scopes (R199, R205). -/
inductive Scope where
  | cl | pt | sy
deriving DecidableEq, Repr, Inhabited

/-- Replacement hints of class 0x6 (R205). -/
inductive CacheHint where
  | dflt | ev | kp
deriving DecidableEq, Repr, Inhabited

/-- Modifiers of the loads and stores (R205). `ord` is `.acq` on a load and `.rel` on a store. -/
structure MemMod where
  sz : MSize
  sx : Bool
  ord : Bool
  sc : Scope
  ch : CacheHint
deriving DecidableEq, Repr, Inhabited

/-- Ordering of FENCE (R215). -/
inductive FenceOrd where
  | full | acq | rel
deriving DecidableEq, Repr, Inhabited

/-- Ordering of atomics (R222, R225). -/
inductive AOrd where
  | relaxed | acq | rel | ar
deriving DecidableEq, Repr, Inhabited

/-- Atomic operations (R226). -/
inductive AOp where
  | add | umin | umax | smin | smax | and | or | xor | exch | fadd | fmin | fmax | incm | decf
deriving DecidableEq, Repr, Inhabited

/-- Modifiers of class 0x7 (R225); `w64` is `.64`. -/
structure AtomMod where
  w64 : Bool
  op : AOp
  ord : AOrd
  sc : Scope
deriving DecidableEq, Repr, Inhabited

/-- Gather operations of casks (R239). -/
inductive GOp where
  | add | smin | smax | umin | umax | and | or | fadd | fmin | fmax
deriving DecidableEq, Repr, Inhabited

/-- Copy kinds of the register form CPY (R257, R274). -/
inductive CpyKind where
  | g2s | s2g | c2s | s2x
deriving DecidableEq, Repr, Inhabited

/-- Matrix operand formats FA and FB (R292). -/
inductive MFmt where
  | e4m3 | e5m2 | f16 | bf16 | e2m1 | s8 | u8
deriving DecidableEq, Repr, Inhabited

/-- Modifiers of MMA, MMAG and MMAW (R302). -/
structure MmaMod where
  fa : MFmt
  fb : MFmt
  sc : Bool
  z : Bool
deriving DecidableEq, Repr, Inhabited

/-- Kinds of access (R366, ACCESS). -/
inductive Access where
  | load | store | atomic | fetch | copyRead | copyWrite | other | none
deriving DecidableEq, Repr, Inhabited

/-! ### Names of places -/

/-- A coach of a train, or its spine. -/
inductive CoachId where
  | spine
  | coach (n : Nat)
deriving DecidableEq, Repr, Inhabited

/-- A fragment: the model's train number, the coach, and %frag. -/
structure FragRef where
  train : Nat
  coach : CoachId
  frag : Nat
deriving DecidableEq, Repr, Inhabited

/-- A place of a queue: a ring position (free-running index) or a reserved entry (R325). -/
inductive Place where
  | ring (i : Nat)
  | entry (c : Nat)
deriving DecidableEq, Repr, Inhabited

/-- The three token buckets (R368). -/
inductive Bucket where
  | time | mem | ext
deriving DecidableEq, Repr, Inhabited

/-- Registers of a queue block (R324, R441). -/
inductive QReg where
  | cfg | ringl | ringh | head | tail | rsv
deriving DecidableEq, Repr, Inhabited

/-! ### Drays: RV32IMC and Zicsr (R283) -/

inductive RvAlu where
  | add | sub | sll | slt | sltu | xor | srl | sra | or | and
deriving DecidableEq, Repr, Inhabited

inductive RvMul where
  | mul | mulh | mulhsu | mulhu | div | divu | rem | remu
deriving DecidableEq, Repr, Inhabited

inductive RvCond where
  | beq | bne | blt | bge | bltu | bgeu
deriving DecidableEq, Repr, Inhabited

inductive RvLoad where
  | lb | lh | lw | lbu | lhu
deriving DecidableEq, Repr, Inhabited

inductive RvStore where
  | sb | sh | sw
deriving DecidableEq, Repr, Inhabited

inductive RvCsr where
  | rw | rs | rc
deriving DecidableEq, Repr, Inhabited

/-- Base RV32IM and Zicsr instructions; a compressed one is the base instruction it expands to.
`illegal` is every encoding that RV32IMC, Zicsr and Xdray do not define (R283). -/
inductive Rv where
  | lui (rd : BitVec 5) (imm : BitVec 20)
  | auipc (rd : BitVec 5) (imm : BitVec 20)
  | jal (rd : BitVec 5) (off : Word32)
  | jalr (rd rs1 : BitVec 5) (off : Word32)
  | branch (c : RvCond) (rs1 rs2 : BitVec 5) (off : Word32)
  | load (k : RvLoad) (rd rs1 : BitVec 5) (off : Word32)
  | store (k : RvStore) (rs1 rs2 : BitVec 5) (off : Word32)
  | opImm (k : RvAlu) (rd rs1 : BitVec 5) (imm : Word32)
  | op (k : RvAlu) (rd rs1 rs2 : BitVec 5)
  | mul (k : RvMul) (rd rs1 rs2 : BitVec 5)
  | fence
  | ecall
  | ebreak
  | mret
  | csr (k : RvCsr) (rd : BitVec 5) (num : BitVec 12) (imm : Bool) (src : BitVec 5)
  | illegal (w : Word32)
deriving DecidableEq, Repr, Inhabited

/-! ### Instructions and events -/

/-- The arguments of an event: what the constructor of `Instr` says each field means. -/
structure Ev where
  i : Nat
  j : Nat
  k : Nat
  l : Nat
  p : Bool
  x : Word64
  frag : FragRef
  cs : List CoachId
  place : Place
  acc : Access
  bucket : Bucket
  qreg : QReg
  bytes : List Byte
deriving DecidableEq, Repr, Inhabited

/-- The operations and events of spec/opcode_table.json, one constructor per row. A Vamer or dray instruction carries its
operands; an event takes its arguments from the `Ev` in turn, which the state holds (log 3). -/
inductive Instr where
  -- class 0x0 (R57, R67 to R90)
  | ztrap (w : Word96)
  | onesWord (w : Word96)
  | add (m : IntMod) (x : Args)
  | sub (m : IntMod) (x : Args)
  | addc (w64 : Bool) (cp : BitVec 4) (x : Args)
  | subb (w64 : Bool) (cp : BitVec 4) (x : Args)
  | mul (m : IntMod) (x : Args)
  | mulh (m : IntMod) (x : Args)
  | mad (m : IntMod) (x : Args)
  | div (m : IntMod) (x : Args)
  | rem (m : IntMod) (x : Args)
  | min (m : IntMod) (x : Args)
  | max (m : IntMod) (x : Args)
  | abs (m : IntMod) (x : Args)
  | and (m : IntMod) (x : Args)
  | or (m : IntMod) (x : Args)
  | xor (m : IntMod) (x : Args)
  | not (m : IntMod) (x : Args)
  | shl (m : IntMod) (x : Args)
  | shr (m : IntMod) (x : Args)
  | sar (m : IntMod) (x : Args)
  | rot (m : IntMod) (x : Args)
  | bfx (m : IntMod) (x : Args)
  | bfi (m : IntMod) (x : Args)
  | popc (m : IntMod) (x : Args)
  | clz (m : IntMod) (x : Args)
  | ctz (m : IntMod) (x : Args)
  | brev (m : IntMod) (x : Args)
  | sel (w64 : Bool) (neg : Bool) (sp : BitVec 4) (x : Args)
  | cmp (w64 : Bool) (u : Bool) (cond : ICond) (x : Args)
  | plop (m : IntMod) (x : Args)
  | mov (m : IntMod) (x : Args)
  | lea (m : IntMod) (x : Args)
  | srseedWrite (m : IntMod) (x : Args)
  | predsWrite (m : IntMod) (x : Args)
  -- class 0x1 (R103 to R118)
  | cvt (df sf : Fmt) (rm : RMode) (sat : Bool) (x : Args)
  | f2i (sf : Fmt) (iw : IWidth) (u : Bool) (rm : RMode) (x : Args)
  | i2f (df : Fmt) (iw : IWidth) (u : Bool) (rm : RMode) (sat : Bool) (x : Args)
  | i2i (dw : IWidth) (du : Bool) (sw : IWidth) (su : Bool) (sat : Bool) (x : Args)
  | pack (df : Fmt) (pos : BitVec 3) (rm : RMode) (sat : Bool) (x : Args)
  | unpk (sf : Fmt) (pos : BitVec 3) (x : Args)
  | qnt (df : Fmt) (pos : BitVec 3) (rm : RMode) (fs : Bool) (x : Args)
  | dqnt (sf : Fmt) (pos : BitVec 3) (rm : RMode) (fs : Bool) (x : Args)
  | bscale (df : Fmt) (x : Args)
  | bmax (g : BitVec 3) (x : Args)
  | bytx (x : Args)
  | srstep (x : Args)
  -- class 0x2 (R120 to R133)
  | fadd (m : FMod) (x : Args)
  | fsub (m : FMod) (x : Args)
  | fmul (m : FMod) (x : Args)
  | ffma (m : FMod) (x : Args)
  | ffms (m : FMod) (x : Args)
  | fnma (m : FMod) (x : Args)
  | fdp2 (m : FMod) (x : Args)
  | fdiv (m : FMod) (x : Args)
  | fmin (m : FMod) (nan : Bool) (x : Args)
  | fmax (m : FMod) (nan : Bool) (x : Args)
  | fabs (m : FMod) (x : Args)
  | fneg (m : FMod) (x : Args)
  | fsgn (m : FMod) (sm : SgnMode) (x : Args)
  | fcmp (m : FMod) (cond : FCond) (x : Args)
  | fclass (m : FMod) (x : Args)
  | frint (m : FMod) (x : Args)
  | fscale (m : FMod) (x : Args)
  | fgetx (m : FMod) (x : Args)
  | fgetm (m : FMod) (x : Args)
  | fsel (w64 : Bool) (sp : BitVec 4) (neg : Bool) (x : Args)
  -- class 0x3 (R134 to R138)
  | rcp (rm : RMode) (ftz : Bool) (x : Args)
  | rsq (ftz : Bool) (x : Args)
  | sqrt (rm : RMode) (ftz : Bool) (x : Args)
  | exp2 (ftz : Bool) (x : Args)
  | log2 (ftz : Bool) (x : Args)
  | sin (ftz : Bool) (x : Args)
  | cos (ftz : Bool) (x : Args)
  | sincos (ftz : Bool) (x : Args)
  | tanh (ftz : Bool) (x : Args)
  | sigm (ftz : Bool) (x : Args)
  -- class 0x4 (R153 to R167)
  | nop (x : Args)
  | bra (x : Args)
  | brx (x : Args)
  | call (x : Args)
  | callx (x : Args)
  | ret (x : Args)
  | jtab (x : Args)
  | loop (x : Args)
  | brany (x : Args)
  | brall (x : Args)
  | fork (pv : Bool) (pd : BitVec 4) (x : Args)
  | end_ (x : Args)
  | exit (x : Args)
  | rcvMark (x : Args)
  | rcvWait (rg : Bool) (x : Args)
  | yield (x : Args)
  | nap (x : Args)
  | icinv (x : Args)
  -- class 0x5 (R169 to R176)
  | shfl (w64 msk : Bool) (mode : ShflMode) (seg : BitVec 3) (x : Args)
  | vote (msk : Bool) (op : VoteOp) (x : Args)
  | redux (w64 msk : Bool) (op : ROp) (x : Args)
  | scan (w64 msk : Bool) (op : ROp) (excl : Bool) (x : Args)
  | match_ (w64 msk : Bool) (all : Bool) (x : Args)
  | bcast (w64 msk : Bool) (x : Args)
  | cmpct (msk : Bool) (x : Args)
  | lperm (w64 msk : Bool) (x : Args)
  -- class 0x6 (R205 to R218)
  | ld (m : MemMod) (x : Args)
  | st (m : MemMod) (x : Args)
  | ldu (m : MemMod) (x : Args)
  | lds (m : MemMod) (x : Args)
  | sts (m : MemMod) (x : Args)
  | ldx (m : MemMod) (x : Args)
  | stx (m : MemMod) (x : Args)
  | ldw (m : MemMod) (x : Args)
  | ldb (m : MemMod) (x : Args)
  | stb (m : MemMod) (x : Args)
  | pref (x : Args)
  | prefc (x : Args)
  | cinv (x : Args)
  | cwb (x : Args)
  | cdisc (x : Args)
  | fence (o : FenceOrd) (sc : Scope) (x : Args)
  | ochOpen (n : BitVec 3) (x : Args)
  | ochSt (sz : MSize) (n : BitVec 3) (x : Args)
  | ochClose (n : BitVec 3) (x : Args)
  | mdie (x : Args)
  -- class 0x7 (R225 to R230)
  | atom (m : AtomMod) (x : Args)
  | atomc (m : AtomMod) (x : Args)
  | red (m : AtomMod) (x : Args)
  | atomu (m : AtomMod) (x : Args)
  | atoms (m : AtomMod) (x : Args)
  | atomsc (m : AtomMod) (x : Args)
  | reds (m : AtomMod) (x : Args)
  | redu (m : AtomMod) (x : Args)
  -- class 0x8 (R231 to R254)
  | ckfill (w64 : Bool) (n : Byte) (x : Args)
  | ckdraw (w64 : Bool) (x : Args)
  | ckpeek (w64 : Bool) (x : Args)
  | cktry (w64 obs : Bool) (pd : BitVec 4) (x : Args)
  | ckseed (op : GOp) (x : Args)
  | ckred (op : GOp) (w64 : Bool) (x : Args)
  | ckclr (x : Args)
  | ckstat (x : Args)
  | bar (sc : Scope) (n : BitVec 4) (x : Args)
  | bara (sc : Scope) (n : BitVec 4) (x : Args)
  | barw (sc : Scope) (n : BitVec 4) (x : Args)
  | bart (sc : Scope) (n : BitVec 4) (x : Args)
  | gbar (sy nw : Bool) (x : Args)
  | gbart (sy : Bool) (x : Args)
  | mbinit (x : Args)
  | mbarr (sc : Scope) (u : Bool) (x : Args)
  | mbexp (sc : Scope) (arr : Bool) (x : Args)
  | mbwait (sc : Scope) (x : Args)
  | mbtry (sc : Scope) (x : Args)
  | mbtw (sc : Scope) (x : Args)
  | yokeDecl (x : Args)
  | yokeRst (x : Args)
  -- class 0x9 and its engines (R257 to R281)
  | cpy (kind : CpyKind) (xe : Bool) (x : Args)
  | cpyl (x : Args)
  | cpyf (xe : Bool) (x : Args)
  | cpyp (x : Args)
  | cpyq (x : Args)
  | cpwait (sc : Scope) (x : Args)
  | xcpy (dirIn ls xe kr : Bool) (x : Args)
  | xcpyl (x : Args)
  | xstat (x : Args)
  -- Xdray (R286)
  | dcpy (rd rs1 : BitVec 5)
  | dkick (rd rs1 rs2 : BitVec 5)
  | dstat (rd : BitVec 5)
  | dck (hi draw : Bool) (rd rs1 : BitVec 5)
  | darr (rd rs1 : BitVec 5)
  | dexp (arr : Bool) (rd rs1 rs2 : BitVec 5)
  | dwait (rs1 rs2 : BitVec 5)
  | dtry (rd rs1 rs2 : BitVec 5)
  /-- A Zicsr instruction naming CSR dfault (R283). -/
  | dfaultWrite (k : RvCsr) (rd : BitVec 5) (imm : Bool) (src : BitVec 5)
  -- class 0xA (R289 to R310)
  | mma (m : MmaMod) (x : Args)
  | mmag (m : MmaMod) (x : Args)
  | mmaw (m : MmaMod) (g : Bool) (x : Args)
  | mscl (x : Args)
  | aclr (x : Args)
  | ald (x : Args)
  | ast (x : Args)
  | amov (x : Args)
  | acvt (df : Fmt) (int : Bool) (rm : RMode) (sat : Bool) (x : Args)
  | aadd (int : Bool) (x : Args)
  | await (x : Args)
  | adrop (x : Args)
  -- class 0xB and the scheduler (R315 to R350)
  | qclaim (x : Args)
  | qpubRsv (x : Args)
  | qpub (x : Args)
  | qstat (x : Args)
  | enq (x : Args)
  | enqt (x : Args)
  | spawn (x : Args)
  | sjoin (x : Args)
  | lvwait (t : Bool) (x : Args)
  | lvrd (st : Bool) (x : Args)
  | lvinc (x : Args)
  | cancel (x : Args)
  | cancelClr (x : Args)
  | cfill (x : Args)
  -- class 0xC and the firmware (R352 to R395)
  | ctxNew (x : Args)
  | ctxGrant (x : Args)
  | ctxRevoke (drain : Bool) (x : Args)
  | ctxRun (x : Args)
  | ctxStopNow (x : Args)
  | ctxStopDrain (x : Args)
  | ctxStopReset (x : Args)
  | ctxBudget (x : Args)
  | ctxBudgetRd (x : Args)
  | ctxReflectMask (x : Args)
  | ctxReflectDown (x : Args)
  | ctxReflectUp (x : Args)
  | ctxReflectRet (x : Args)
  | gateNew (x : Args)
  | gateNewDel (x : Args)
  | gateAcl (post take : Bool) (x : Args)
  | gpost (pd : BitVec 4) (x : Args)
  | gtake (t : Bool) (pd : BitVec 4) (x : Args)
  | gpeek (x : Args)
  | tlbi (x : Args)
  | replay (x : Args)
  | replayAll (x : Args)
  | hcall (x : Args)
  -- class 0xD (R405, R421)
  | trap (x : Args)
  | tret (x : Args)
  | assert (x : Args)
  | bkpt (x : Args)
  | srd (w64 : Bool) (x : Args)
  | swr (w64 : Bool) (x : Args)
  | tfrd (x : Args)
  | tfwr (x : Args)
  | fbpop (x : Args)
  | fbstat (clr : Bool) (x : Args)
  | mark (x : Args)
  | watch (r w : Bool) (n : BitVec 2) (x : Args)
  | unassignedOpc (w : Word96)
  /-- One base RV32IMC or Zicsr instruction; `len` is its length in bytes (2 or 4). -/
  | rv32imcInstruction (i : Rv) (len : Nat)
  -- events: arguments in the `Ev` in turn
  /-- Event: train `i`, coaches `cs`, PC `x`: the rejoin there is tested and released (R147, R164). -/
  | rejoinRelease
  /-- Event: fragment `frag` (R166). -/
  | napDeadline
  /-- Event: the reply of the pending write numbered `i` arrives (R59). -/
  | loadReply
  /-- Event: cluster `i`, word at machine address `j` (R192). -/
  | l1WriteBack
  /-- Event: cluster `i`, line at machine address `j` (R192). -/
  | l1Eviction
  /-- Event: cluster `i`; core `j` when `p`; context `k`, virtual address `x`, access `acc` (R358). -/
  | translationWalk
  /-- Event: the home retires up to `j` queued steps of the word at machine address `i` (R221). -/
  | homeAtomic
  /-- Event: cluster `i`, cask `j` (R233). -/
  | caskRetry
  /-- Event: fragment `frag` (R244). -/
  | timedWaitDeadline
  /-- Event: core `i`, slot `j` (R264). -/
  | listEntryAccept
  /-- Event: core `i`, slot `j`: up to `k` chunks move (R260). -/
  | copyChunkTransfer
  /-- Event: core `i`, slot `j`: `k` bytes arrive (R252). -/
  | byteArrival
  /-- Event: core `i`, slot `j` (R261). -/
  | copyRetire
  /-- Event: core `i`, slot `j`: the remote side acknowledges `k` chunks, or refuses when not `p` (R273). -/
  | remoteAck
  /-- WFI of a dray (R283). -/
  | drayWfi
  /-- Event: train `i`, core rank `j`, position `k` of its list of received MMAs (R299). -/
  | mmaPerform
  /-- Event: queue `i` (R326). -/
  | enqueueAccept
  /-- Event: queue `i`, place `place` (R328). -/
  | cardAdmission
  /-- Event: queue `i`, place `place` (R328). -/
  | cardReady
  /-- Event: C-die `i`, queue `j`, context `k` (R335, R453). -/
  | trainPlacement
  /-- Event: train `i` (R337). -/
  | trainRetire
  /-- Event: train `i` (R338). -/
  | trainSuspend
  /-- Event: train `i` (R338). -/
  | trainResume
  /-- Event: partition `i` (R340). -/
  | fillStart
  /-- Event: partition `i` (R340). -/
  | fillComplete
  /-- Event: core `i`: `j` degrees Celsius, `k` millivolts of droop (R334). -/
  | sensorClassUpdate
  /-- Event: core `i`, record `x` (R333). -/
  | sltBindWrite
  /-- Event: queue `i`, register `qreg`, value `x` (R324). -/
  | qcRegisterWrite
  /-- Event: child `i` (R373). -/
  | revokeComplete
  /-- Event: child `i` (R372). -/
  | stopComplete
  /-- Event: child `i` (R375). -/
  | drainDeadline
  /-- Event: no argument (R368). -/
  | budgetRefill
  /-- Event: context `i`, bucket `bucket` (R370). -/
  | bucketEmpty
  /-- Event: core `i` (R371). -/
  | sliceEnd
  /-- Event: context `i` (R365). -/
  | faultReportDeliver
  /-- Event: context `i`, counter `j`, value `x` (R422). -/
  | cntSelWrite
  /-- Event: C-die `i` (R16). -/
  | cellarRefreshWindowEnd
  /-- Event: context `i` (R429). -/
  | timeSeriesTick
  /-- Event: context `i` (R425). -/
  | counterPolicyTick
  /-- Event: context `i`, register `j` (R427). -/
  | sysregLoRead
  /-- Event: context `i`, with the rights of context `k`, register `j`, half `p` (1 is the high one), value `x` (R427). -/
  | sysregHostWrite
  /-- Event: structure `i`, die `j`, address `k`, syndrome `l`, uncorrected when `p`, value `x` (R435). -/
  | errorDetected
  /-- Event: mailbox `i` (R445). -/
  | resync
  /-- Event: mailbox `i` (R445). -/
  | rootfq
  /-- Event: mailbox `i` (R445). -/
  | errring
  /-- Event: mailbox `i` (R445). -/
  | bindvf
  /-- Event: mailbox `i` (R445). -/
  | endpoint
  /-- Event: mailbox `i` (R445). -/
  | hdm
  /-- Event: mailbox `i` (R445, R446). -/
  | migrateOut
  /-- Event: mailbox `i` (R445, R446). -/
  | migrateIn
  /-- Event: mailbox `i` (R445). -/
  | retire
  /-- Event: mailbox `i` (R445, R450). -/
  | attest
  /-- Event: mailbox `i` (R445). -/
  | power
  /-- Event: mailbox `i` (R445, R447). -/
  | enqueue
  /-- Event: mailbox `i` (R445, R447). -/
  | hcopy
  /-- Event: mailbox `i` (R445). -/
  | rootctx
  /-- Event: mailbox `i` (R444). -/
  | mailboxUnknownOp
  /-- Event: mailbox `i`, command word `x` (R444). -/
  | mailboxOrun
  /-- Event: mailbox `i` (R444). -/
  | mailboxCommandComplete
  /-- Event: X-die `i`, function `j`, BAR0 offset `k`, `l` bytes, value `x` (R439). -/
  | mmioRegisterWrite
  /-- Event: machine address `i`, `j` bytes (R22, R439). -/
  | hostMmioError
  /-- Event: machine address `i`, bytes `bytes` (R442). -/
  | cxlMemWrite
  /-- Event: machine address `i`, `j` bytes (R442). -/
  | cxlMemRead
  /-- Event: X-die `i`, function `j` (R440). -/
  | functionLevelReset
  /-- Event: port `i`, core `j`, slot `k` (R443). -/
  | bolharFlitCrcError
  /-- Event: no argument (R448). -/
  | powerUp
  /-- Event: `i` millivolts (R451). -/
  | inputVoltageOutOfRange
  /-- Event: C-die `i`, `j` steps of 1/32 (R451). -/
  | throttleAdjust
  /-- Event: the pending store numbered `i` (R200). -/
  | storePerformedAtHome
  /-- Event: no argument (R442). -/
  | backInvalidateComplete
  /-- Event: endpoint `i`, offset `j`, a write of `bytes` when `p` (R273). -/
  | bolharPeerRequest
  /-- Event: port `i`, up when `p` (R443). -/
  | bolharLinkChange
  /-- Event: X-die `i`, `j` lanes, FLIT mode when `p` (R438). -/
  | pcieLinkChange
  /-- Event: core `i`, slot `j`, success when `p` (R271). -/
  | priResponse
deriving DecidableEq, Repr

end Sys2Proof
end

