-- ==== Sys2Proof/Machine/Shape.lean ====
section
/-! DEFINITION. What each Vamer instruction's operand fields may hold and how it uses its TAIL: the operand tables of
the class chapters (R70, R105, R122, R154, R170, R207, R228, R255, R275, R304, R342, R387, R405, R421), the TAIL forms
(R37), and which instructions the spine refuses (R13). -/

namespace Sys2Proof

/-- What one operand field may name: the spaces, the width in bits of the value, and, for a cask target, that the
draw form is not accepted (R237). -/
structure Role where
  spaces : List Space
  bits : Nat
  noDraw : Bool
  dest : Bool
deriving DecidableEq, Repr, Inhabited

/-- TAIL forms (R37); form I is split into an immediate read through space 110 and a displacement (R206). -/
inductive TailForm where
  | n | i | disp | o | d
deriving DecidableEq, Repr, Inhabited

/-- Roles of the four operand fields (`none` is unused, R43) and the TAIL form. -/
structure Shape where
  form : TailForm
  a : Option Role
  b : Option Role
  c : Option Role
  d : Option Role
deriving DecidableEq, Repr, Inhabited

def srcRole (sp : List Space) (bits : Nat) : Option Role := some ⟨sp, bits, false, false⟩
def dstRole (sp : List Space) (bits : Nat) : Option Role := some ⟨sp, bits, false, true⟩
/-- Destination in V, S or literal zero. -/
def dst (bits : Nat) : Option Role := dstRole [.v, .s, .zero] bits
def dstP (bits : Nat) : Option Role := dstRole [.v, .s, .zero, .pred] bits
/-- Sources of class 0x0 and 0x1 (R70, R105). -/
def srcInt (bits : Nat) : Option Role := srcRole [.v, .s, .k, .imm, .tail, .zero, .pred, .sr] bits
/-- A narrow floating-point source: no space 101 (R105). -/
def srcNarrow : Option Role := srcRole [.v, .s, .k, .tail, .zero, .pred, .sr] 32
/-- Sources of classes 0x2 and 0x3 (R122). -/
def srcF (bits : Nat) : Option Role := srcRole [.v, .s, .k, .imm, .tail, .zero] bits
/-- Offsets, counts, data and the like: V, S, K, space 101, literal zero. -/
def srcO (bits : Nat) : Option Role := srcRole [.v, .s, .k, .imm, .zero] bits
/-- As `srcO`, with space 110 where the TAIL is in form I without displacement. -/
def srcT (bits : Nat) : Option Role := srcRole [.v, .s, .k, .imm, .tail, .zero] bits
/-- A 64-bit address, target or argument: V pair, S pair, K, literal zero. -/
def addr64 : Option Role := srcRole [.v, .s, .k, .zero] 64
def predSrc : Option Role := srcRole [.pred] 32
def tileRole : Option Role := srcRole [.tile] 32
def yokeRole : Option Role := srcRole [.yoke] 32
/-- Target cask of a cask instruction (R237). -/
def caskTarget : Option Role := some ⟨[.k], 32, true, false⟩
/-- Offset of a matrix instruction: no K, no space 110 (R304). -/
def matOff : Option Role := srcRole [.v, .s, .imm, .zero] 32
def gatherRole : Option Role := srcRole [.v] 32

def IntW.bits : IntW → Nat
  | .w32 => 32
  | _ => 64

def wbits (w64 : Bool) : Nat := if w64 then 64 else 32

def FType.bits : FType → Nat
  | .f64 => 64
  | _ => 32

def MSize.bytes : MSize → Nat
  | .b8 => 1
  | .b16 => 2
  | .b32 => 4
  | .b64 => 8
  | .b128 => 16

/-- Register bits that a value of the access size takes (R207). -/
def MSize.regBits : MSize → Nat
  | .b64 => 64
  | .b128 => 128
  | _ => 32

def IWidth.bits : IWidth → Nat
  | .i8 => 8
  | .i16 => 16
  | .i32 => 32
  | .i64 => 64

def IWidth.regBits : IWidth → Nat
  | .i64 => 64
  | _ => 32

def Fmt.regBits : Fmt → Nat
  | .fp64 => 64
  | _ => 32

/-- Source role of a value of a format (R105): FP32 and FP64 follow R47, the narrower ones take no space 101. -/
def srcFmt : Fmt → Option Role
  | .fp64 => srcInt 64
  | .fp32 => srcInt 32
  | _ => srcNarrow

def sh (form : TailForm) (a b c : Option Role) (d : Option Role := none) : Shape := ⟨form, a, b, c, d⟩

/-- Three-operand class-0x0 shape A, B, C in form I. -/
def shInt (w : IntW) : Shape := sh .i (dst w.bits) (srcInt w.bits) (srcInt w.bits)
/-- Class-0x0 shape with C unused. -/
def shInt1 (w : IntW) (dbits : Nat) : Shape := sh .i (dst dbits) (srcInt w.bits) none
/-- MUL: with `.w` the sources are 32 bits and the result a pair (R75). -/
def mulSrcBits : IntW → Nat
  | .w64 => 64
  | _ => 32

def memDst (m : MemMod) : Option Role := dst m.sz.regBits
/-- Data of a store (R207): `.128` in V or S only. -/
def memData (sz : MSize) : Option Role :=
  if sz = .b128 then srcRole [.v, .s] 128 else srcO sz.regBits

/-- Membership mask of class 0x5 (R170). -/
def mskRole (msk : Bool) : Option Role := if msk then srcRole [.v, .s, .k, .imm] 32 else none

/-- The shape of a Vamer instruction; `none` for an event or a dray instruction. -/
def Instr.shape : Instr → Option Shape
  | .add m _ | .sub m _ | .div m _ | .rem m _ | .min m _ | .max m _ | .mulh m _
  | .and m _ | .or m _ | .xor m _ => some (shInt m.w)
  | .addc w _ _ | .subb w _ _ => some (sh .i (dst (wbits w)) (srcInt (wbits w)) (srcInt (wbits w)))
  | .mul m _ => some (sh .i (dst m.w.bits) (srcInt (mulSrcBits m.w)) (srcInt (mulSrcBits m.w)))
  | .mad m _ => some (sh .d (dst m.w.bits) (srcInt (mulSrcBits m.w)) (srcInt (mulSrcBits m.w)) (srcInt m.w.bits))
  | .abs m _ | .not m _ | .brev m _ => some (shInt1 m.w m.w.bits)
  | .shl m _ | .shr m _ | .sar m _ | .rot m _ | .bfx m _ =>
    some (sh .i (dst m.w.bits) (srcInt m.w.bits) (srcInt 32))
  | .bfi m x => some (sh .d (dst m.w.bits) (srcInt m.w.bits) (srcInt m.w.bits)
      (if x.xmod.getLsbD 19 then srcRole [.zero] 32 else srcInt 32))
  | .popc m _ | .clz m _ | .ctz m _ => some (shInt1 m.w 32)
  | .sel w _ _ _ => some (sh .i (dst (wbits w)) (srcInt (wbits w)) (srcInt (wbits w)))
  | .cmp w _ _ _ => some (sh .i (dstP 32) (srcInt (wbits w)) (srcInt (wbits w)))
  | .plop _ _ => some (sh .d (dstP 32) predSrc predSrc predSrc)
  | .mov m _ => some (sh .i (dstP m.w.bits) (srcInt m.w.bits) none)
  | .srseedWrite m _ | .predsWrite m _ =>
    some (sh .i (dstRole (if m.w = .w32 then [.sr] else []) 32) (srcInt m.w.bits) none)
  | .lea m _ => some (sh .d (dst m.w.bits) (srcInt m.w.bits) (srcInt 32) (srcInt 32))
  -- class 0x1
  | .cvt df sf _ _ _ => some (sh .i (dst df.regBits) (srcFmt sf) none)
  | .f2i sf iw _ _ _ => some (sh .i (dst iw.regBits) (srcFmt sf) none)
  | .i2f df iw _ _ _ _ => some (sh .i (dst df.regBits) (srcInt iw.regBits) none)
  | .i2i dw _ sw _ _ _ => some (sh .i (dst dw.regBits) (srcInt sw.regBits) none)
  | .pack .. => some (sh .i (dstRole [.v, .s] 32) (srcInt 32) (srcInt 32))
  | .unpk .. => some (sh .i (dst 32) srcNarrow none)
  | .qnt _ _ _ fs _ => some (sh .i (dstRole [.v, .s] 32) (srcInt 32) (if fs then srcInt 32 else srcNarrow))
  | .dqnt _ _ _ fs _ => some (sh .i (dst 32) srcNarrow (if fs then srcInt 32 else srcNarrow))
  | .bscale .. => some (sh .i (dst 32) (srcInt 32) none)
  | .bmax .. => some (sh .i (dst 32) (srcInt 32) (srcInt 32))
  | .bytx x => some (sh .d (dst 32) (srcInt 32) (srcInt 32)
      (if x.xmod.getLsbD 19 then srcRole [.zero] 32 else srcInt 32))
  | .srstep _ => some (sh .n (dst 32) none none)
  -- class 0x2
  | .fadd m _ | .fsub m _ | .fmul m _ | .fdiv m _ | .fmin m _ _ | .fmax m _ _ | .fsgn m _ _ =>
    some (sh .i (dst m.t.bits) (srcF m.t.bits) (srcF m.t.bits))
  | .ffma m _ | .ffms m _ | .fnma m _ =>
    some (sh .d (dst m.t.bits) (srcF m.t.bits) (srcF m.t.bits) (srcF m.t.bits))
  | .fdp2 _ _ => some (sh .d (dst 32) (srcF 32) (srcF 32) (srcF 32))
  | .fabs m _ | .fneg m _ | .frint m _ | .fgetm m _ => some (sh .i (dst m.t.bits) (srcF m.t.bits) none)
  | .fcmp m _ _ => some (sh .i (if m.t = .f32 ∨ m.t = .f64 then dstP 32 else dst 32) (srcF m.t.bits) (srcF m.t.bits))
  | .fclass m _ => some (sh .i (if m.t = .f32 ∨ m.t = .f64 then dstP 32 else dst 32) (srcF m.t.bits) (srcF 32))
  | .fscale m _ => some (sh .i (dst m.t.bits) (srcF m.t.bits) (srcF 32))
  | .fgetx m _ => some (sh .i (dst 32) (srcF m.t.bits) none)
  | .fsel w _ _ _ => some (sh .i (dst (wbits w)) (srcF (wbits w)) (srcF (wbits w)))
  -- class 0x3
  | .rcp .. | .rsq .. | .sqrt .. | .exp2 .. | .log2 .. | .sin .. | .cos .. | .tanh .. | .sigm .. =>
    some (sh .i (dst 32) (srcF 32) none)
  | .sincos .. => some (sh .d (dst 32) (srcF 32) none (dst 32))
  -- class 0x4
  | .nop _ | .end_ _ | .exit _ | .yield _ => some (sh .n none none none)
  | .bra _ => some (sh .o none none none)
  | .brx _ | .ret _ => some (sh .n none addr64 none)
  | .call _ => some (sh .o (dstRole [.v, .s] 64) none none)
  | .callx _ => some (sh .n (dstRole [.v, .s] 64) addr64 none)
  | .jtab _ => some (sh .o none (srcO 32) (srcO 32))
  | .loop _ => some (sh .o (dstRole [.v, .s] 32) none none)
  | .brany _ | .brall _ => some (sh .o none predSrc none)
  | .fork _ _ _ => some (sh .o (dst 32) addr64 none)
  | .rcvMark _ => some (sh .n (dstRole [.v, .s] 32) none none)
  | .rcvWait rg _ => some (sh .n none (srcRole (if rg then [.v] else [.v, .s, .k]) 32) none)
  | .nap _ => some (sh .i none (srcT 32) none)
  | .icinv _ => some (sh .i none addr64 (srcT 32))
  -- class 0x5
  | .shfl w msk mode _ _ => some (sh .d (dst (wbits w))
      (srcRole [.v, .s, .k, .imm, .zero, .pred, .sr] (wbits w)) (if mode = .rev then none else srcO 32) (mskRole msk))
  | .vote msk op _ => some (sh .d (if op = .ballot then dstRole [.v, .s] 32 else dstP 32) predSrc none (mskRole msk))
  | .redux w msk _ _ | .scan w msk _ _ _ | .bcast w msk _ => some (sh .d (dst (wbits w))
      (srcRole [.v, .s, .k, .imm, .zero, .pred, .sr] (wbits w)) none (mskRole msk))
  | .match_ w msk all _ => some (sh .d (if all then dstP 32 else dst 32)
      (srcRole [.v, .s, .k, .imm, .zero, .pred, .sr] (wbits w)) none (mskRole msk))
  | .cmpct msk _ => some (sh .d (dst 32) predSrc none (mskRole msk))
  | .lperm w msk _ => some (sh .d (dst (wbits w))
      (srcRole [.v, .s, .k, .imm, .zero, .pred, .sr] (wbits w)) (srcO 32) (mskRole msk))
  -- class 0x6
  | .ld m _ | .ldb m _ => some (sh .disp (memDst m) addr64 none)
  | .st m _ | .stb m _ => some (sh .disp none addr64 (memData m.sz))
  | .ldu m _ => some (sh .disp (dstRole [.s, .zero] m.sz.regBits) addr64 none)
  | .lds m _ | .ldw m _ => some (sh .disp (memDst m) (srcO 32) none)
  | .sts m _ => some (sh .disp none (srcO 32) (memData m.sz))
  | .ldx m _ => some (sh .d (memDst m) (srcO 32) none (srcO 32))
  | .stx m _ => some (sh .d none (srcO 32) (memData m.sz) (srcO 32))
  | .pref _ | .prefc _ => some (sh .disp none addr64 none)
  | .cinv _ | .cwb _ | .cdisc _ => some (sh .n none addr64 (srcO 32))
  | .fence .. => some (sh .n none none none)
  | .ochOpen .. | .ochClose .. => some (sh .n none (srcO 32) none)
  | .ochSt sz _ _ => some (sh .disp none addr64 (memData sz))
  | .mdie _ => some (sh .disp (dst 32) addr64 none)
  -- class 0x7
  | .atom m _ => some (sh .disp (dst (wbits m.w64)) addr64 (srcO (wbits m.w64)))
  | .atomu m _ => some (sh .disp (dstRole [.s, .zero] (wbits m.w64)) addr64 (srcO (wbits m.w64)))
  | .atomc m _ => some (sh .d (dst (wbits m.w64)) addr64 (srcO (wbits m.w64)) (srcO (wbits m.w64)))
  | .red m _ | .redu m _ => some (sh .disp none addr64 (srcO (wbits m.w64)))
  | .atoms m _ => some (sh .disp (dst (wbits m.w64)) (srcO 32) (srcO (wbits m.w64)))
  | .atomsc m _ => some (sh .d (dst (wbits m.w64)) (srcO 32) (srcO (wbits m.w64)) (srcO (wbits m.w64)))
  | .reds m _ => some (sh .disp none (srcO 32) (srcO (wbits m.w64)))
  -- class 0x8
  | .ckfill w _ _ => some (sh .i none caskTarget (srcT (wbits w)))
  | .ckdraw w _ | .ckpeek w _ | .cktry w _ _ _ => some (sh .i (dst (wbits w)) caskTarget none)
  | .ckseed _ _ => some (sh .d none caskTarget (srcO 32))
  | .ckred _ w _ => some (sh .i none caskTarget (srcT (wbits w)))
  | .ckclr _ => some (sh .n none caskTarget none)
  | .ckstat _ => some (sh .n (dst 32) caskTarget none)
  | .bar .. | .bara .. => some (sh .i (dst 32) none (srcT 32))
  | .barw .. => some (sh .i none (srcT 32) none)
  | .bart .. => some (sh .i (dstP 32) (srcT 32) (srcT 32))
  | .gbar .. => some (sh .n (dst 32) none none)
  | .gbart .. => some (sh .i (dstP 32) (srcT 32) (srcT 32))
  | .mbinit _ => some (sh .disp none (srcO 32) (srcO 32))
  | .mbarr .. => some (sh .disp (dst 32) (srcO 32) none)
  | .mbexp _ arr _ => some (sh .disp (if arr then dst 32 else dstRole [.zero] 32) (srcO 32) (srcO 32))
  | .mbwait .. => some (sh .disp none (srcO 32) (srcO 32))
  | .mbtry .. => some (sh .disp (dstP 32) (srcO 32) (srcO 32))
  | .mbtw .. => some (sh .d (dstP 32) (srcO 32) (srcO 32) (srcO 32))
  | .yokeDecl _ => some (sh .i none yokeRole (srcT 32))
  | .yokeRst _ => some (sh .n none yokeRole none)
  -- class 0x9
  | .cpy kind _ _ => some (sh .d (srcO 32) (if kind = .g2s then addr64 else srcO 32)
      (if kind = .s2g then addr64 else srcO 32) (srcO 32))
  | .cpyl _ | .xcpyl _ => some (sh .n none (srcO 32) (srcO 32))
  | .cpyf _ _ => some (sh .d (srcO 32) (srcO 32) (srcO 32) (srcO 32))
  | .cpyp _ => some (sh .disp none (srcO 32) none)
  | .cpyq _ => some (sh .n (dst 32) none none)
  | .cpwait .. => some (sh .i none none (srcT 32))
  | .xcpy _ ls _ _ _ => some (sh .d (srcO 32) (if ls then srcO 32 else addr64) addr64 (srcO 32))
  | .xstat _ => some (sh .i (dst 32) (srcT 32) none)
  -- class 0xA
  | .mma .. => some (sh .d tileRole matOff matOff yokeRole)
  | .mmag .. => some (sh .d tileRole gatherRole matOff yokeRole)
  | .mmaw _ g _ => some (sh .d tileRole (if g then gatherRole else matOff) matOff yokeRole)
  | .mscl _ => some (sh .n tileRole gatherRole none)
  | .aclr _ | .adrop _ => some (sh .n tileRole none none)
  | .ald _ | .ast _ | .acvt .. => some (sh .disp tileRole matOff none)
  | .amov _ | .aadd .. => some (sh .n tileRole tileRole none)
  | .await _ => some (sh .n (srcRole [.tile, .zero] 32) none none)
  -- class 0xB
  | .qclaim _ => some (sh .n (dst 64) none none)
  | .qpubRsv _ => some (sh .i (dst 32) (srcT 32) none)
  | .qpub _ => some (sh .i (dst 32) (srcT 32) (srcT 32))
  | .qstat _ => some (sh .i (dst 64) (srcT 32) none)
  | .enq _ | .spawn _ | .cfill _ => some (sh .i (dst 32) (srcT 32) addr64)
  | .enqt _ => some (sh .d (dst 32) (srcO 32) addr64 (srcO 32))
  | .sjoin _ => some (sh .i none (srcT 32) none)
  | .lvwait t _ => some (sh .i (dstP 32) (srcT 32) (if t then srcT 32 else none))
  | .lvrd .. => some (sh .i (dst 32) (srcT 32) none)
  | .lvinc _ => some (sh .i (dst 32) (srcT 32) (srcT 32))
  | .cancel _ | .cancelClr _ => some (sh .i (dstP 32) (srcT 32) none)
  -- class 0xC
  | .ctxNew _ => some (sh .n (dst 32) addr64 none)
  | .ctxGrant _ | .ctxRevoke .. | .ctxBudget _ | .ctxBudgetRd _ => some (sh .n (dst 32) (srcO 32) addr64)
  | .ctxRun _ => some (sh .d (dst 32) (srcO 32) addr64 (srcO 32))
  | .ctxStopNow _ | .ctxStopDrain _ | .ctxStopReset _ => some (sh .n (dst 32) (srcO 32) none)
  | .ctxReflectMask _ => some (sh .d (dst 32) (srcO 32) (srcO 32))
  | .ctxReflectDown _ => some (sh .d (dst 32) (srcO 32) addr64)
  | .ctxReflectUp _ => some (sh .d (dst 32) none addr64)
  | .ctxReflectRet _ => some (sh .d (dst 32) (srcO 32) (srcO 32) (srcRole [.v, .s, .zero] 64))
  | .gateNew _ => some (sh .i (dst 32) (srcT 32) addr64)
  | .gateNewDel _ => some (sh .i (dst 32) (srcT 32) none)
  | .gateAcl .. => some (sh .i (dst 32) (srcT 32) (srcT 32))
  | .gpost .. => some (sh .i (dst 32) (srcT 32) (srcO 64))
  | .gtake t _ _ => some (sh .i (dst 64) (srcT 32) (if t then srcT 32 else none))
  | .gpeek _ => some (sh .i (dst 32) (srcT 32) none)
  | .tlbi _ => some (sh .d none addr64 (srcO 32) (srcO 32))
  | .replay _ => some (sh .n none addr64 none)
  | .replayAll _ => some (sh .i none (srcT 32) none)
  | .hcall _ => some (sh .d (dst 64) (srcO 32) addr64)
  -- class 0xD
  | .trap _ => some (sh .i none none (srcT 32))
  | .tret _ => some (sh .n none none none)
  | .assert _ => some (sh .n none predSrc addr64)
  | .bkpt _ => some (sh .i none none (srcRole [.imm, .tail] 32))
  | .srd w _ => some (sh .i (dst (wbits w)) (srcT 32) none)
  | .swr w _ => some (sh .i none (srcT 32) (if w then srcO 64 else srcT 32))
  | .tfrd _ => some (sh .i (dst 32) (srcT 32) none)
  | .tfwr _ => some (sh .i none (srcT 32) (srcT 32))
  | .fbpop _ => some (sh .d (dst 32) (srcO 32) (srcO 32) addr64)
  | .fbstat .. => some (sh .i (dst 32) (srcT 32) (srcT 32))
  | .mark _ => some (sh .i none none (srcT 32))
  | .watch .. => some (sh .n none addr64 (srcO 32))
  | _ => none

/-- The operand part of a Vamer instruction. -/
def Instr.args : Instr → Option Args
  | .add _ x | .sub _ x | .addc _ _ x | .subb _ _ x | .mul _ x | .mulh _ x | .mad _ x | .div _ x | .rem _ x
  | .min _ x | .max _ x | .abs _ x | .and _ x | .or _ x | .xor _ x | .not _ x | .shl _ x | .shr _ x | .sar _ x
  | .rot _ x | .bfx _ x | .bfi _ x | .popc _ x | .clz _ x | .ctz _ x | .brev _ x | .sel _ _ _ x | .cmp _ _ _ x
  | .plop _ x | .mov _ x | .lea _ x | .srseedWrite _ x | .predsWrite _ x
  | .cvt _ _ _ _ x | .f2i _ _ _ _ x | .i2f _ _ _ _ _ x | .i2i _ _ _ _ _ x | .pack _ _ _ _ x | .unpk _ _ x
  | .qnt _ _ _ _ x | .dqnt _ _ _ _ x | .bscale _ x | .bmax _ x | .bytx x | .srstep x
  | .fadd _ x | .fsub _ x | .fmul _ x | .ffma _ x | .ffms _ x | .fnma _ x | .fdp2 _ x | .fdiv _ x | .fmin _ _ x
  | .fmax _ _ x | .fabs _ x | .fneg _ x | .fsgn _ _ x | .fcmp _ _ x | .fclass _ x | .frint _ x | .fscale _ x
  | .fgetx _ x | .fgetm _ x | .fsel _ _ _ x
  | .rcp _ _ x | .rsq _ x | .sqrt _ _ x | .exp2 _ x | .log2 _ x | .sin _ x | .cos _ x | .sincos _ x | .tanh _ x
  | .sigm _ x
  | .nop x | .bra x | .brx x | .call x | .callx x | .ret x | .jtab x | .loop x | .brany x | .brall x | .fork _ _ x
  | .end_ x | .exit x | .rcvMark x | .rcvWait _ x | .yield x | .nap x | .icinv x
  | .shfl _ _ _ _ x | .vote _ _ x | .redux _ _ _ x | .scan _ _ _ _ x | .match_ _ _ _ x | .bcast _ _ x
  | .cmpct _ x | .lperm _ _ x
  | .ld _ x | .st _ x | .ldu _ x | .lds _ x | .sts _ x | .ldx _ x | .stx _ x | .ldw _ x | .ldb _ x | .stb _ x
  | .pref x | .prefc x | .cinv x | .cwb x | .cdisc x | .fence _ _ x | .ochOpen _ x | .ochSt _ _ x | .ochClose _ x
  | .mdie x
  | .atom _ x | .atomc _ x | .red _ x | .atomu _ x | .atoms _ x | .atomsc _ x | .reds _ x | .redu _ x
  | .ckfill _ _ x | .ckdraw _ x | .ckpeek _ x | .cktry _ _ _ x | .ckseed _ x | .ckred _ _ x | .ckclr x | .ckstat x
  | .bar _ _ x | .bara _ _ x | .barw _ _ x | .bart _ _ x | .gbar _ _ x | .gbart _ x | .mbinit x | .mbarr _ _ x
  | .mbexp _ _ x | .mbwait _ x | .mbtry _ x | .mbtw _ x | .yokeDecl x | .yokeRst x
  | .cpy _ _ x | .cpyl x | .cpyf _ x | .cpyp x | .cpyq x | .cpwait _ x | .xcpy _ _ _ _ x | .xcpyl x | .xstat x
  | .mma _ x | .mmag _ x | .mmaw _ _ x | .mscl x | .aclr x | .ald x | .ast x | .amov x | .acvt _ _ _ _ x
  | .aadd _ x | .await x | .adrop x
  | .qclaim x | .qpubRsv x | .qpub x | .qstat x | .enq x | .enqt x | .spawn x | .sjoin x | .lvwait _ x | .lvrd _ x
  | .lvinc x | .cancel x | .cancelClr x | .cfill x
  | .ctxNew x | .ctxGrant x | .ctxRevoke _ x | .ctxRun x | .ctxStopNow x | .ctxStopDrain x | .ctxStopReset x
  | .ctxBudget x | .ctxBudgetRd x | .ctxReflectMask x | .ctxReflectDown x | .ctxReflectUp x | .ctxReflectRet x
  | .gateNew x | .gateNewDel x | .gateAcl _ _ x | .gpost _ x | .gtake _ _ x | .gpeek x | .tlbi x | .replay x
  | .replayAll x | .hcall x
  | .trap x | .tret x | .assert x | .bkpt x | .srd _ x | .swr _ x | .tfrd x | .tfwr x | .fbpop x | .fbstat _ x
  | .mark x | .watch _ _ _ x => some x
  | _ => none

/-- The OPC values that raise ILLEGAL with field OPC on the spine (R13). -/
def vectorOpc (opc : Nat) : Bool :=
  opc / 64 = 0x5 || opc / 64 = 0xA || (0x182 ≤ opc && opc ≤ 0x186) || (0x1C3 ≤ opc && opc ≤ 0x1C6) ||
  (0x20E ≤ opc && opc ≤ 0x213) || (0x240 ≤ opc && opc ≤ 0x247)

def Operand.space : Operand → Option Space
  | .unused => none
  | .v _ => some .v
  | .s _ => some .s
  | .k _ _ => some .k
  | .tile _ => some .tile
  | .yoke _ => some .yoke
  | .pred _ => some .pred
  | .sr _ => some .sr
  | .imm _ => some .imm
  | .tail => some .tail
  | .zero => some .zero

/-- Index alignment of a pair or quad (R44, R207). -/
def alignOk (bits i : Nat) : Bool :=
  if bits = 64 then i % 2 = 0 else if bits = 128 then i % 4 = 0 else true

/-- Special registers a program may write: %srseed and %preds (R51). -/
def srWritable (n : BitVec 5) : Bool := n = 0x0D ∨ n = 0x0F

/-- One operand field against its role (step 6 of R39): the space, the alignment of a pair, a read-only special
register as destination, a draw where none is accepted, and S, tiles and yokes on the spine (R13). -/
def roleOk (spine : Bool) (form : TailForm) (r : Option Role) (o : Operand) : Bool :=
  match r with
  | none => o = .unused
  | some r =>
    match o.space with
    | none => false
    | some sp =>
      r.spaces.contains sp &&
      (match o with
       | .v i => alignOk r.bits i.toNat
       | .s i => alignOk r.bits i.toNat && !spine
       | .k _ d => !(d && r.noDraw)
       | .sr n => !r.dest || srWritable n
       | .tile _ | .yoke _ => !spine
       | .tail => form = .i
       | _ => true)

/-- XMOD of class 0x5 (R169): PV only where R171 marks it, PD zero without PV. -/
def lxXmodOk (pvOk : Bool) (y : BitVec 20) : Bool :=
  y >>> 5 = 0 && (if y.getLsbD 4 then pvOk else y = 0)

/-- The XMOD values each form-D instruction accepts (step 5 of R39). -/
def Instr.xmodOk : Instr → Bool
  | .bfi _ x => if x.xmod.getLsbD 19 then x.xmod.extractLsb' 16 3 = 0 else x.xmod = 0
  | .bytx x => x.xmod.getLsbD 19 || x.xmod = 0
  | .plop _ x => x.xmod >>> 8 = 0
  | .lea _ x => x.xmod >>> 4 = 0
  | .shfl _ _ _ _ x | .lperm _ _ x => lxXmodOk true x.xmod
  | .match_ _ _ all x => lxXmodOk all x.xmod
  | .vote _ _ x | .redux _ _ _ x | .scan _ _ _ _ x | .bcast _ _ x | .cmpct _ x => lxXmodOk false x.xmod
  | .ldx _ _ | .stx _ _ | .atomc _ _ | .atomsc _ _ | .mbtw _ _ => true
  | .ckseed _ x => x.xmod >>> 8 = 0
  | .cpy _ _ x => x.xmod >>> 4 = 0
  | .mma m x | .mmag m x | .mmaw m _ x => if m.sc then !x.xmod.getLsbD 19 else x.xmod = 0
  | i => match i.args with
    | some x => x.xmod = 0
    | none => true

/-- The number of operand fields of an instruction that name TAIL (space 110). -/
def Args.namesTail (x : Args) : Bool := x.a = .tail || x.b = .tail || x.c = .tail || x.d = .tail

/-- TAIL against its form (step 5 of R39, R37); TAIL of form D is checked by `Instr.xmodOk`. -/
def tailOk (f : TailForm) (x : Args) : Bool :=
  match f with
  | .n => x.tail = 0
  | .i => x.namesTail || x.tail = 0
  | .disp | .o => true
  | .d => x.tail = 0

end Sys2Proof
end

