-- ==== Sys2Proof/Machine/Codes.lean ====
section
/-! DEFINITION. The codes of modifier fields and the OPC and MOD of every Vamer instruction (R55, and the encoding tables
of the class chapters), with the inverse, `decodeMod`. -/

namespace Sys2Proof

def b1 (b : Bool) : BitVec 1 := BitVec.ofBool b

def IntW.code : IntW → BitVec 2
  | .w32 => 0 | .w64 => 1 | .wide => 2
def IntW.ofCode (c : BitVec 2) : Option IntW :=
  if c = 0 then some .w32 else if c = 1 then some .w64 else if c = 2 then some .wide else none

def FlagOut.code : FlagOut → BitVec 2
  | .none => 0 | .carry => 1 | .ov => 2
def FlagOut.ofCode (c : BitVec 2) : Option FlagOut :=
  if c = 0 then some .none else if c = 1 then some .carry else if c = 2 then some .ov else Option.none

def ICond.code : ICond → BitVec 3
  | .eq => 0 | .ne => 1 | .lt => 2 | .le => 3 | .gt => 4 | .ge => 5 | .tst => 6 | .ntst => 7
def ICond.ofCode (c : BitVec 3) : ICond :=
  if c = 0 then .eq else if c = 1 then .ne else if c = 2 then .lt else if c = 3 then .le
  else if c = 4 then .gt else if c = 5 then .ge else if c = 6 then .tst else .ntst

/-- Rounding-mode codes (R98). -/
def RMode.code : RMode → BitVec 3
  | .rn => 0 | .rz => 1 | .rd => 2 | .ru => 3 | .rna => 4 | .sr => 5
def RMode.ofCode (c : BitVec 3) : Option RMode :=
  if c = 0 then some .rn else if c = 1 then some .rz else if c = 2 then some .rd else if c = 3 then some .ru
  else if c = 4 then some .rna else if c = 5 then some .sr else none

/-- Format codes FC (R104); AF96 has none and takes 0. -/
def Fmt.code : Fmt → BitVec 3
  | .fp64 => 0 | .fp32 => 1 | .fp16 => 2 | .bf16 => 3 | .e4m3 => 4 | .e5m2 => 5 | .e2m1 => 6 | .e8m0 => 7 | .af96 => 0
def Fmt.ofCode (c : BitVec 3) : Fmt :=
  if c = 0 then .fp64 else if c = 1 then .fp32 else if c = 2 then .fp16 else if c = 3 then .bf16
  else if c = 4 then .e4m3 else if c = 5 then .e5m2 else if c = 6 then .e2m1 else .e8m0

def IWidth.code : IWidth → BitVec 2
  | .i8 => 0 | .i16 => 1 | .i32 => 2 | .i64 => 3
def IWidth.ofCode (c : BitVec 2) : IWidth :=
  if c = 0 then .i8 else if c = 1 then .i16 else if c = 2 then .i32 else .i64

def FType.code : FType → BitVec 2
  | .f32 => 0 | .f64 => 1 | .f16x2 => 2 | .bf16x2 => 3
def FType.ofCode (c : BitVec 2) : FType :=
  if c = 0 then .f32 else if c = 1 then .f64 else if c = 2 then .f16x2 else .bf16x2

def SgnMode.code : SgnMode → BitVec 3
  | .copy => 0 | .neg => 1 | .xor => 2
def SgnMode.ofCode (c : BitVec 3) : Option SgnMode :=
  if c = 0 then some .copy else if c = 1 then some .neg else if c = 2 then some .xor else none

def FCond.code : FCond → BitVec 3
  | .eq => 0 | .ne => 1 | .lt => 2 | .le => 3 | .gt => 4 | .ge => 5 | .un => 6 | .ord => 7
def FCond.ofCode (c : BitVec 3) : FCond :=
  if c = 0 then .eq else if c = 1 then .ne else if c = 2 then .lt else if c = 3 then .le
  else if c = 4 then .gt else if c = 5 then .ge else if c = 6 then .un else .ord

def ShflMode.code : ShflMode → BitVec 2
  | .at => 0 | .rot => 1 | .bfly => 2 | .rev => 3
def ShflMode.ofCode (c : BitVec 2) : ShflMode :=
  if c = 0 then .at else if c = 1 then .rot else if c = 2 then .bfly else .rev

def VoteOp.code : VoteOp → BitVec 2
  | .ballot => 0 | .any => 1 | .all => 2 | .eq => 3
def VoteOp.ofCode (c : BitVec 2) : VoteOp :=
  if c = 0 then .ballot else if c = 1 then .any else if c = 2 then .all else .eq

def ROp.code : ROp → BitVec 4
  | .add => 0 | .umin => 1 | .umax => 2 | .smin => 3 | .smax => 4 | .and => 5 | .or => 6 | .xor => 7
  | .fadd => 8 | .fmin => 9 | .fmax => 10
def ROp.ofCode (c : BitVec 4) : Option ROp :=
  if c = 0 then some .add else if c = 1 then some .umin else if c = 2 then some .umax
  else if c = 3 then some .smin else if c = 4 then some .smax else if c = 5 then some .and
  else if c = 6 then some .or else if c = 7 then some .xor else if c = 8 then some .fadd
  else if c = 9 then some .fmin else if c = 10 then some .fmax else none
def ROp.isFp : ROp → Bool
  | .fadd | .fmin | .fmax => true
  | _ => false

def MSize.code : MSize → BitVec 3
  | .b8 => 0 | .b16 => 1 | .b32 => 2 | .b64 => 3 | .b128 => 4
def MSize.ofCode (c : BitVec 3) : Option MSize :=
  if c = 0 then some .b8 else if c = 1 then some .b16 else if c = 2 then some .b32
  else if c = 3 then some .b64 else if c = 4 then some .b128 else none

def Scope.code : Scope → BitVec 2
  | .cl => 0 | .pt => 1 | .sy => 2
def Scope.ofCode (c : BitVec 2) : Option Scope :=
  if c = 0 then some .cl else if c = 1 then some .pt else if c = 2 then some .sy else none

def CacheHint.code : CacheHint → BitVec 2
  | .dflt => 0 | .ev => 1 | .kp => 2
def CacheHint.ofCode (c : BitVec 2) : Option CacheHint :=
  if c = 0 then some .dflt else if c = 1 then some .ev else if c = 2 then some .kp else none

def FenceOrd.code : FenceOrd → BitVec 2
  | .full => 0 | .acq => 1 | .rel => 2
def FenceOrd.ofCode (c : BitVec 2) : Option FenceOrd :=
  if c = 0 then some .full else if c = 1 then some .acq else if c = 2 then some .rel else none

def AOrd.code : AOrd → BitVec 2
  | .relaxed => 0 | .acq => 1 | .rel => 2 | .ar => 3
def AOrd.ofCode (c : BitVec 2) : AOrd :=
  if c = 0 then .relaxed else if c = 1 then .acq else if c = 2 then .rel else .ar

def AOp.code : AOp → BitVec 4
  | .add => 0 | .umin => 1 | .umax => 2 | .smin => 3 | .smax => 4 | .and => 5 | .or => 6 | .xor => 7
  | .exch => 8 | .fadd => 9 | .fmin => 10 | .fmax => 11 | .incm => 12 | .decf => 13
def AOp.ofCode (c : BitVec 4) : Option AOp :=
  if c = 0 then some .add else if c = 1 then some .umin else if c = 2 then some .umax
  else if c = 3 then some .smin else if c = 4 then some .smax else if c = 5 then some .and
  else if c = 6 then some .or else if c = 7 then some .xor else if c = 8 then some .exch
  else if c = 9 then some .fadd else if c = 10 then some .fmin else if c = 11 then some .fmax
  else if c = 12 then some .incm else if c = 13 then some .decf else none

def GOp.code : GOp → BitVec 4
  | .add => 0 | .smin => 1 | .smax => 2 | .umin => 3 | .umax => 4 | .and => 5 | .or => 6
  | .fadd => 8 | .fmin => 9 | .fmax => 10
def GOp.ofCode (c : BitVec 4) : Option GOp :=
  if c = 0 then some .add else if c = 1 then some .smin else if c = 2 then some .smax
  else if c = 3 then some .umin else if c = 4 then some .umax else if c = 5 then some .and
  else if c = 6 then some .or else if c = 8 then some .fadd else if c = 9 then some .fmin
  else if c = 10 then some .fmax else none
def GOp.isFp : GOp → Bool
  | .fadd | .fmin | .fmax => true
  | _ => false

def CpyKind.code : CpyKind → BitVec 3
  | .g2s => 0 | .s2g => 1 | .c2s => 2 | .s2x => 3
def CpyKind.ofCode (c : BitVec 3) : Option CpyKind :=
  if c = 0 then some .g2s else if c = 1 then some .s2g else if c = 2 then some .c2s
  else if c = 3 then some .s2x else none

def MFmt.code : MFmt → BitVec 3
  | .e4m3 => 0 | .e5m2 => 1 | .f16 => 2 | .bf16 => 3 | .e2m1 => 4 | .s8 => 5 | .u8 => 6
def MFmt.ofCode (c : BitVec 3) : Option MFmt :=
  if c = 0 then some .e4m3 else if c = 1 then some .e5m2 else if c = 2 then some .f16
  else if c = 3 then some .bf16 else if c = 4 then some .e2m1 else if c = 5 then some .s8
  else if c = 6 then some .u8 else none

/-! ### Composite MOD layouts -/

/-- MOD of class 0x0 (R67). -/
def IntMod.code (m : IntMod) : BitVec 10 := m.w.code ++ b1 m.u ++ b1 m.sat ++ m.po.code ++ m.pd
def IntMod.ofCode (c : BitVec 10) : Option IntMod := do
  let w ← IntW.ofCode (c.extractLsb' 8 2)
  let po ← FlagOut.ofCode (c.extractLsb' 4 2)
  some ⟨w, c.getLsbD 7, c.getLsbD 6, po, c.extractLsb' 0 4⟩

/-- MOD of class 0x2 (R120), with OPX given apart. -/
def FMod.code (m : FMod) (opx : BitVec 3) : BitVec 10 := m.t.code ++ m.rm.code ++ b1 m.ftz ++ b1 m.sat ++ opx
def FMod.ofCode (c : BitVec 10) : Option FMod := do
  let rm ← RMode.ofCode (c.extractLsb' 5 3)
  some ⟨FType.ofCode (c.extractLsb' 8 2), rm, c.getLsbD 4, c.getLsbD 3⟩

/-- MOD of class 0x6 (R205). -/
def MemMod.code (m : MemMod) : BitVec 10 :=
  m.sz.code ++ b1 m.sx ++ (0 : BitVec 1) ++ b1 m.ord ++ m.sc.code ++ m.ch.code
def MemMod.ofCode (c : BitVec 10) : Option MemMod := do
  let sz ← MSize.ofCode (c.extractLsb' 7 3)
  let sc ← Scope.ofCode (c.extractLsb' 2 2)
  let ch ← CacheHint.ofCode (c.extractLsb' 0 2)
  if c.getLsbD 5 then none else some ⟨sz, c.getLsbD 6, c.getLsbD 4, sc, ch⟩

/-- MOD of class 0x7 (R225). -/
def AtomMod.code (m : AtomMod) : BitVec 10 := (0 : BitVec 1) ++ b1 m.w64 ++ m.op.code ++ m.ord.code ++ m.sc.code
def AtomMod.ofCode (c : BitVec 10) : Option AtomMod := do
  let op ← AOp.ofCode (c.extractLsb' 4 4)
  let sc ← Scope.ofCode (c.extractLsb' 0 2)
  if c.getLsbD 9 then none else some ⟨c.getLsbD 8, op, AOrd.ofCode (c.extractLsb' 2 2), sc⟩

/-- MOD of MMA, MMAG and MMAW (R302), with G given apart. -/
def MmaMod.code (m : MmaMod) (g : Bool) : BitVec 10 :=
  m.fa.code ++ m.fb.code ++ b1 m.sc ++ b1 m.z ++ b1 g ++ (0 : BitVec 1)
def MmaMod.ofCode (c : BitVec 10) : Option MmaMod := do
  let fa ← MFmt.ofCode (c.extractLsb' 7 3)
  let fb ← MFmt.ofCode (c.extractLsb' 4 3)
  if c.getLsbD 0 then none else some ⟨fa, fb, c.getLsbD 3, c.getLsbD 2⟩

/-! ### Which modifier values each instruction accepts -/

/-- Floating-point accumulation pairs and integer pairs of R292. -/
def mmaPairOk (m : MmaMod) : Bool :=
  (match m.fa, m.fb with
   | .e4m3, .e4m3 | .e4m3, .e5m2 | .e5m2, .e4m3 | .e5m2, .e5m2 => true
   | .s8, .s8 | .s8, .u8 | .u8, .s8 | .u8, .u8 => true
   | .f16, .f16 | .bf16, .bf16 | .e2m1, .e2m1 => true
   | _, _ => false) &&
  (!m.sc || ((m.fa = .e4m3 || m.fa = .e5m2) && (m.fb = .e4m3 || m.fb = .e5m2)))

/-- Row of R68: W, U, SAT and OPX. -/
def intModOk (m : IntMod) (wide uOk satOk : Bool) (carry ov : Bool) : Bool :=
  (m.w ≠ .wide || wide) && (!m.u || uOk) && (!m.sat || (satOk && m.w ≠ .wide)) &&
  (match m.po with
   | .none => m.pd = 0
   | .carry => carry
   | .ov => ov) &&
  (m.w ≠ .wide || m.po = .none)

/-- Row of R121: T, RM, FTZ, SAT. -/
def fModOk (m : FMod) (f32 pair rm ftz sat : Bool) : Bool :=
  ((m.t = .f32 || m.t = .f64) && f32 || (m.t = .f16x2 || m.t = .bf16x2) && pair) &&
  (m.rm = .rn || rm) && (!m.ftz || ftz) && (!m.sat || sat)

/-- Elements of a narrow format in a 32-bit register (R96). -/
def Fmt.perReg : Fmt → Nat
  | .fp16 | .bf16 => 2
  | .e4m3 | .e5m2 | .e8m0 => 4
  | .e2m1 => 8
  | _ => 0

/-- The values POS accepts in PACK (R111). -/
def packPosOk (df : Fmt) (pos : BitVec 3) : Bool :=
  match df with
  | .fp16 | .bf16 => pos = 0
  | .e4m3 | .e5m2 => pos < 2
  | .e2m1 => pos < 4
  | _ => false

/-- Row of R206 for a load or store. -/
def memModOk (m : MemMod) (wideOnly sxOk scOk chOk ordOk : Bool) : Bool :=
  (!wideOnly || m.sz = .b32 || m.sz = .b64 || m.sz = .b128) &&
  (!m.sx || (sxOk && (m.sz = .b8 || m.sz = .b16))) &&
  (m.sc = .cl || (scOk && m.ord)) && (m.ch = .dflt || chOk) && (!m.ord || ordOk)

/-- Row of R227 for an atomic. -/
def atomModOk (m : AtomMod) (red single scr : Bool) : Bool :=
  (m.sc = .cl || (m.ord ≠ .relaxed && !scr)) &&
  (!red || (m.op ≠ .exch && m.op ≠ .incm && m.op ≠ .decf)) && (!single || m.op = .add)

def ropWOk (op : ROp) (w64 : Bool) : Bool := !(op.isFp && w64)

def qntFmt (f : Fmt) : Bool := f = .e4m3 || f = .e5m2 || f = .e2m1

/-- ACVT's rows (R310). -/
def acvtOk (df : Fmt) (int : Bool) (rm : RMode) : Bool :=
  if int then (df = .fp64 && rm = .rn) || df = .fp32 else df ≠ .e8m0 && df ≠ .af96

/-- The modifier values that a Vamer instruction accepts; what this refuses is ILLEGAL with field MOD (step 4 of R39). -/
def Instr.modOk : Instr → Bool
  | .add m _ | .sub m _ => intModOk m false m.sat true true true
  | .mul m _ | .mad m _ => intModOk m true true true false true
  | .mulh m _ | .min m _ | .max m _ | .bfx m _ | .lea m _ => intModOk m false true false false false
  | .div m _ | .rem m _ => intModOk m false true false true true
  | .abs m _ => intModOk m false false true false true
  | .and m _ | .or m _ | .xor m _ | .not m _ | .shl m _ | .shr m _ | .sar m _ | .rot m _ | .bfi m _
  | .popc m _ | .clz m _ | .ctz m _ | .brev m _ | .mov m _ | .srseedWrite m _ | .predsWrite m _ =>
    intModOk m false false false false false
  | .plop m _ => intModOk m false false false false false && m.w = .w32
  | .cmp _ u c _ => !u || (c = .lt || c = .le || c = .gt || c = .ge)
  | .cvt df sf _ _ _ => df ≠ .e8m0 && df ≠ .af96 && sf ≠ .af96
  | .f2i sf _ _ rm _ => (sf = .fp64 || sf = .fp32 || sf = .fp16 || sf = .bf16) && rm ≠ .sr
  | .i2f df _ _ _ _ _ => df ≠ .e8m0 && df ≠ .af96
  | .pack df pos _ _ _ => packPosOk df pos
  | .unpk sf pos _ => pos.toNat < sf.perReg
  | .qnt df pos _ _ _ | .dqnt df pos _ _ _ => qntFmt df && pos.toNat < df.perReg
  | .bscale df _ => qntFmt df
  | .bmax g _ => g < 6
  | .fadd m _ | .fsub m _ | .fmul m _ | .ffma m _ | .ffms m _ | .fnma m _ => fModOk m true true true true true
  | .fdp2 m _ => fModOk m false true true true true
  | .fdiv m _ | .fscale m _ => fModOk m true false true true true
  | .fmin m _ _ | .fmax m _ _ | .fcmp m _ _ => fModOk m true true false true false
  | .fabs m _ | .fneg m _ | .fsgn m _ _ | .fclass m _ => fModOk m true true false false false
  | .frint m _ => fModOk m true true true true false
  | .fgetx m _ | .fgetm m _ => fModOk m true false false true false
  | .fork pv pd _ => pv || pd = 0
  | .shfl _ _ _ seg _ => seg < 6
  | .redux w _ op _ | .scan w _ op _ _ => ropWOk op w
  | .mbexp sc arr _ => arr || sc = .cl
  | .ld m _ => memModOk m false true true true true
  | .st m _ => memModOk m false false true true true
  | .ldu m _ => memModOk m true false true true true
  | .lds m _ | .ldx m _ => memModOk m false true false false true
  | .sts m _ | .stx m _ => memModOk m false false false false true
  | .ldw m _ => memModOk m true false false false false
  | .ldb m _ => memModOk m false true true false true
  | .stb m _ => memModOk m false false true false true
  | .atom m _ | .atomu m _ => atomModOk m false false false
  | .atomc m _ => atomModOk m false true false
  | .red m _ | .redu m _ => atomModOk m true false false
  | .atoms m _ => atomModOk m false false true
  | .atomsc m _ => atomModOk m false true true
  | .reds m _ => atomModOk m true false true
  | .ckred op w _ => !(op.isFp && w)
  | .mma m _ | .mmag m _ | .mmaw m _ _ => mmaPairOk m
  | .acvt df int rm _ _ => acvtOk df int rm
  | .watch r w _ _ => r || w
  | _ => true

/-! ### OPC and MOD of an instruction -/

/-- OPC of a Vamer instruction (R55). -/
def Instr.opc : Instr → Nat
  | .add .. => 0x001 | .sub .. => 0x002 | .addc .. => 0x003 | .subb .. => 0x004 | .mul .. => 0x005
  | .mulh .. => 0x006 | .mad .. => 0x007 | .div .. => 0x008 | .rem .. => 0x009 | .min .. => 0x00A
  | .max .. => 0x00B | .abs .. => 0x00C | .and .. => 0x00D | .or .. => 0x00E | .xor .. => 0x00F
  | .not .. => 0x010 | .shl .. => 0x011 | .shr .. => 0x012 | .sar .. => 0x013 | .rot .. => 0x014
  | .bfx .. => 0x015 | .bfi .. => 0x016 | .popc .. => 0x017 | .clz .. => 0x018 | .ctz .. => 0x019
  | .brev .. => 0x01A | .sel .. => 0x01B | .cmp .. => 0x01C | .plop .. => 0x01D
  | .mov .. | .srseedWrite .. | .predsWrite .. => 0x01E | .lea .. => 0x01F
  | .cvt .. => 0x040 | .f2i .. => 0x041 | .i2f .. => 0x042 | .i2i .. => 0x043 | .pack .. => 0x044
  | .unpk .. => 0x045 | .qnt .. => 0x046 | .dqnt .. => 0x047 | .bscale .. => 0x048 | .bmax .. => 0x049
  | .bytx .. => 0x04A | .srstep .. => 0x04B
  | .fadd .. => 0x080 | .fsub .. => 0x081 | .fmul .. => 0x082 | .ffma .. => 0x083 | .ffms .. => 0x084
  | .fnma .. => 0x085 | .fmin .. => 0x086 | .fmax .. => 0x087 | .fabs .. => 0x088 | .fneg .. => 0x089
  | .fsgn .. => 0x08A | .fcmp .. => 0x08B | .fclass .. => 0x08C | .frint .. => 0x08D | .fscale .. => 0x08E
  | .fgetx .. => 0x08F | .fgetm .. => 0x090 | .fdiv .. => 0x091 | .fsel .. => 0x092 | .fdp2 .. => 0x093
  | .rcp .. => 0x0C0 | .rsq .. => 0x0C1 | .sqrt .. => 0x0C2 | .exp2 .. => 0x0C3 | .log2 .. => 0x0C4
  | .sin .. => 0x0C5 | .cos .. => 0x0C6 | .sincos .. => 0x0C7 | .tanh .. => 0x0C8 | .sigm .. => 0x0C9
  | .nop .. => 0x100 | .bra .. => 0x101 | .brx .. => 0x102 | .call .. => 0x103 | .callx .. => 0x104
  | .ret .. => 0x105 | .jtab .. => 0x106 | .loop .. => 0x107 | .brany .. => 0x108 | .brall .. => 0x109
  | .fork .. => 0x10A | .end_ .. => 0x10B | .exit .. => 0x10C | .rcvMark .. => 0x10D | .rcvWait .. => 0x10E
  | .yield .. => 0x10F | .nap .. => 0x110 | .icinv .. => 0x111
  | .shfl .. => 0x140 | .vote .. => 0x141 | .redux .. => 0x142 | .scan .. => 0x143 | .match_ .. => 0x144
  | .bcast .. => 0x145 | .cmpct .. => 0x146 | .lperm .. => 0x147
  | .ld .. => 0x180 | .st .. => 0x181 | .ldu .. => 0x182 | .lds .. => 0x183 | .sts .. => 0x184
  | .ldx .. => 0x185 | .stx .. => 0x186 | .ldw .. => 0x187 | .ldb .. => 0x188 | .stb .. => 0x189
  | .pref .. => 0x18A | .prefc .. => 0x18B | .cinv .. => 0x18C | .cwb .. => 0x18D | .cdisc .. => 0x18E
  | .fence .. => 0x18F | .ochOpen .. => 0x190 | .ochSt .. => 0x191 | .ochClose .. => 0x192 | .mdie .. => 0x193
  | .atom .. => 0x1C0 | .atomc .. => 0x1C1 | .red .. => 0x1C2 | .atomu .. => 0x1C3 | .atoms .. => 0x1C4
  | .atomsc .. => 0x1C5 | .reds .. => 0x1C6 | .redu .. => 0x1C7
  | .ckfill .. => 0x200 | .ckdraw .. => 0x201 | .ckpeek .. => 0x202 | .cktry .. => 0x203 | .ckseed .. => 0x204
  | .ckred .. => 0x205 | .ckclr .. => 0x206 | .ckstat .. => 0x207 | .bar .. => 0x208 | .bara .. => 0x209
  | .barw .. => 0x20A | .bart .. => 0x20B | .gbar .. => 0x20C | .gbart .. => 0x20D | .mbinit .. => 0x20E
  | .mbarr .. => 0x20F | .mbexp .. => 0x210 | .mbwait .. => 0x211 | .mbtry .. => 0x212 | .mbtw .. => 0x213
  | .yokeDecl .. => 0x214 | .yokeRst .. => 0x215
  | .cpy .. => 0x240 | .cpyl .. => 0x241 | .cpyf .. => 0x242 | .cpyp .. => 0x243 | .cpyq .. => 0x244
  | .cpwait .. => 0x245 | .xcpy .. => 0x246 | .xcpyl .. => 0x247 | .xstat .. => 0x248
  | .mma .. => 0x280 | .mmag .. => 0x281 | .mmaw .. => 0x282 | .mscl .. => 0x283 | .aclr .. => 0x284
  | .ald .. => 0x285 | .ast .. => 0x286 | .amov .. => 0x287 | .acvt .. => 0x288 | .aadd .. => 0x289
  | .await .. => 0x28A | .adrop .. => 0x28B
  | .qclaim .. => 0x2C0 | .qpubRsv .. | .qpub .. => 0x2C1 | .qstat .. => 0x2C2 | .enq .. => 0x2C3
  | .enqt .. => 0x2C4 | .spawn .. => 0x2C5 | .sjoin .. => 0x2C6 | .lvwait .. => 0x2C7 | .lvrd .. => 0x2C8
  | .lvinc .. => 0x2C9 | .cancel .. | .cancelClr .. => 0x2CA | .cfill .. => 0x2CB
  | .ctxNew .. => 0x300 | .ctxGrant .. => 0x301 | .ctxRevoke .. => 0x302 | .ctxRun .. => 0x303
  | .ctxStopNow .. | .ctxStopDrain .. | .ctxStopReset .. => 0x304 | .ctxBudget .. | .ctxBudgetRd .. => 0x305
  | .ctxReflectMask .. | .ctxReflectDown .. | .ctxReflectUp .. | .ctxReflectRet .. => 0x306
  | .gateNew .. | .gateNewDel .. => 0x307 | .gateAcl .. => 0x308 | .gpost .. => 0x309 | .gtake .. => 0x30A
  | .gpeek .. => 0x30B | .tlbi .. => 0x30C | .replay .. => 0x30D | .replayAll .. => 0x30E | .hcall .. => 0x30F
  | .trap .. => 0x340 | .tret .. => 0x341 | .assert .. => 0x342 | .bkpt .. => 0x343 | .srd .. => 0x344
  | .swr .. => 0x345 | .tfrd .. => 0x346 | .tfwr .. => 0x347 | .fbpop .. => 0x348 | .fbstat .. => 0x349
  | .mark .. => 0x34A | .watch .. => 0x34B
  | .onesWord .. => 0x3FF
  | _ => 0

def zx (b : Bool) : BitVec 10 := BitVec.zeroExtend 10 (b1 b)

/-- MOD of a Vamer instruction. -/
def Instr.modBits : Instr → BitVec 10
  | .add m _ | .sub m _ | .mul m _ | .mulh m _ | .mad m _ | .div m _ | .rem m _ | .min m _ | .max m _
  | .abs m _ | .and m _ | .or m _ | .xor m _ | .not m _ | .shl m _ | .shr m _ | .sar m _ | .rot m _
  | .bfx m _ | .bfi m _ | .popc m _ | .clz m _ | .ctz m _ | .brev m _ | .plop m _ | .mov m _ | .lea m _
  | .srseedWrite m _ | .predsWrite m _ => m.code
  | .addc w cp _ | .subb w cp _ => (0 : BitVec 1) ++ b1 w ++ (0 : BitVec 4) ++ cp
  | .sel w n sp _ => (0 : BitVec 1) ++ b1 w ++ (0 : BitVec 3) ++ b1 n ++ sp
  | .cmp w u c _ => (0 : BitVec 1) ++ b1 w ++ b1 u ++ (0 : BitVec 1) ++ c.code ++ (0 : BitVec 3)
  | .cvt df sf rm sat _ => df.code ++ sf.code ++ rm.code ++ b1 sat
  | .f2i sf iw u rm _ => sf.code ++ iw.code ++ b1 u ++ rm.code ++ (0 : BitVec 1)
  | .i2f df iw u rm sat _ => df.code ++ iw.code ++ b1 u ++ rm.code ++ b1 sat
  | .i2i dw du sw su sat _ => dw.code ++ b1 du ++ sw.code ++ b1 su ++ b1 sat ++ (0 : BitVec 3)
  | .pack df pos rm sat _ => df.code ++ pos ++ rm.code ++ b1 sat
  | .unpk sf pos _ => sf.code ++ pos ++ (0 : BitVec 4)
  | .qnt df pos rm fs _ | .dqnt df pos rm fs _ => df.code ++ pos ++ rm.code ++ b1 fs
  | .bscale df _ => df.code ++ (0 : BitVec 7)
  | .bmax g _ => g ++ (0 : BitVec 7)
  | .fadd m _ | .fsub m _ | .fmul m _ | .ffma m _ | .ffms m _ | .fnma m _ | .fdp2 m _ | .fdiv m _ | .fabs m _
  | .fneg m _ | .fclass m _ | .frint m _ | .fscale m _ | .fgetx m _ | .fgetm m _ => m.code 0
  | .fmin m n _ | .fmax m n _ => m.code ((0 : BitVec 2) ++ b1 n)
  | .fsgn m sm _ => m.code sm.code
  | .fcmp m c _ => m.code c.code
  | .fsel w sp n _ => (0 : BitVec 1) ++ b1 w ++ sp ++ b1 n ++ (0 : BitVec 3)
  | .rcp rm ftz _ | .sqrt rm ftz _ => (0 : BitVec 2) ++ rm.code ++ b1 ftz ++ (0 : BitVec 4)
  | .rsq ftz _ | .exp2 ftz _ | .log2 ftz _ | .sin ftz _ | .cos ftz _ | .sincos ftz _ | .tanh ftz _
  | .sigm ftz _ => (0 : BitVec 5) ++ b1 ftz ++ (0 : BitVec 4)
  | .fork pv pd _ => (0 : BitVec 5) ++ b1 pv ++ pd
  | .rcvWait rg _ => zx rg
  | .shfl w m md seg _ => (0 : BitVec 1) ++ b1 w ++ b1 m ++ md.code ++ (0 : BitVec 2) ++ seg
  | .vote m op _ => (0 : BitVec 2) ++ b1 m ++ op.code ++ (0 : BitVec 5)
  | .redux w m op _ => (0 : BitVec 1) ++ b1 w ++ b1 m ++ op.code ++ (0 : BitVec 3)
  | .scan w m op e _ => (0 : BitVec 1) ++ b1 w ++ b1 m ++ op.code ++ b1 e ++ (0 : BitVec 2)
  | .match_ w m all _ => (0 : BitVec 1) ++ b1 w ++ b1 m ++ (0 : BitVec 1) ++ b1 all ++ (0 : BitVec 5)
  | .bcast w m _ | .lperm w m _ => (0 : BitVec 1) ++ b1 w ++ b1 m ++ (0 : BitVec 7)
  | .cmpct m _ => (0 : BitVec 2) ++ b1 m ++ (0 : BitVec 7)
  | .ld m _ | .st m _ | .ldu m _ | .lds m _ | .sts m _ | .ldx m _ | .stx m _ | .ldw m _ | .ldb m _ | .stb m _ =>
    m.code
  | .fence o sc _ => (0 : BitVec 4) ++ o.code ++ sc.code ++ (0 : BitVec 2)
  | .ochOpen n _ | .ochClose n _ => (0 : BitVec 7) ++ n
  | .ochSt sz n _ => sz.code ++ (0 : BitVec 4) ++ n
  | .atom m _ | .atomc m _ | .red m _ | .atomu m _ | .atoms m _ | .atomsc m _ | .reds m _ | .redu m _ => m.code
  | .ckfill w n _ => (0 : BitVec 1) ++ b1 w ++ n
  | .ckdraw w _ | .ckpeek w _ => (0 : BitVec 1) ++ b1 w ++ (0 : BitVec 8)
  | .cktry w obs pd _ => (0 : BitVec 1) ++ b1 w ++ b1 obs ++ (0 : BitVec 3) ++ pd
  | .ckseed op _ => op.code ++ (0 : BitVec 6)
  | .ckred op w _ => op.code ++ (0 : BitVec 1) ++ b1 w ++ (0 : BitVec 4)
  | .bar sc n _ | .bara sc n _ | .barw sc n _ | .bart sc n _ => (0 : BitVec 4) ++ sc.code ++ n
  | .gbar sy nw _ => (0 : BitVec 4) ++ b1 sy ++ (0 : BitVec 4) ++ b1 nw
  | .gbart sy _ => (0 : BitVec 4) ++ b1 sy ++ (0 : BitVec 5)
  | .mbarr sc u _ => (0 : BitVec 4) ++ sc.code ++ b1 u ++ (0 : BitVec 3)
  | .mbexp sc arr _ => (0 : BitVec 4) ++ sc.code ++ b1 arr ++ (0 : BitVec 3)
  | .mbwait sc _ | .mbtry sc _ | .mbtw sc _ => (0 : BitVec 4) ++ sc.code ++ (0 : BitVec 4)
  | .cpy k xe _ => k.code ++ b1 xe ++ (0 : BitVec 6)
  | .cpyf xe _ => (0 : BitVec 3) ++ b1 xe ++ (0 : BitVec 6)
  | .cpwait sc _ => (0 : BitVec 6) ++ sc.code ++ (0 : BitVec 2)
  | .xcpy d ls xe kr _ => b1 d ++ b1 ls ++ b1 xe ++ b1 kr ++ (0 : BitVec 6)
  | .mma m _ | .mmag m _ => m.code false
  | .mmaw m g _ => m.code g
  | .acvt df i rm sat _ => df.code ++ b1 i ++ rm.code ++ b1 sat ++ (0 : BitVec 2)
  | .aadd i _ => (0 : BitVec 3) ++ b1 i ++ (0 : BitVec 6)
  | .qpubRsv _ => 1
  | .lvwait t _ => zx t
  | .lvrd b _ => zx b
  | .cancelClr _ => 1
  | .ctxRevoke d _ => zx d
  | .ctxStopDrain _ => 1 | .ctxStopReset _ => 2 | .ctxBudgetRd _ => 1
  | .ctxReflectDown _ => 1 | .ctxReflectUp _ => 2 | .ctxReflectRet _ => 3
  | .gateNewDel _ => 1
  | .gateAcl p t _ => (0 : BitVec 8) ++ b1 p ++ b1 t
  | .gpost pd _ => (0 : BitVec 6) ++ pd
  | .gtake t pd _ => (0 : BitVec 5) ++ b1 t ++ pd
  | .srd w _ | .swr w _ => (0 : BitVec 1) ++ b1 w ++ (0 : BitVec 8)
  | .fbstat clr _ => zx clr
  | .watch r w n _ => (0 : BitVec 6) ++ b1 w ++ b1 r ++ n
  | _ => 0

/-! ### The inverse -/

/-- Bits `lo` to `lo + n - 1` of MOD are zero. -/
def mz (c : BitVec 10) (lo n : Nat) : Bool := c.extractLsb' lo n = 0

def intI (c : BitVec 10) (f : IntMod → Instr) : Option Instr := (IntMod.ofCode c).map f
def fpI (c : BitVec 10) (f : FMod → Instr) : Option Instr := if mz c 0 3 then (FMod.ofCode c).map f else none
def memI (c : BitVec 10) (f : MemMod → Instr) : Option Instr := (MemMod.ofCode c).map f
def atI (c : BitVec 10) (f : AtomMod → Instr) : Option Instr := (AtomMod.ofCode c).map f
/-- MOD must be 0 (R56). -/
def zI (c : BitVec 10) (i : Instr) : Option Instr := if c = 0 then some i else none
def when' (b : Bool) (i : Instr) : Option Instr := if b then some i else none
def sfI (c : BitVec 10) (f : Bool → Instr) : Option Instr := when' (mz c 5 5 && mz c 0 4) (f (c.getLsbD 4))
def sfRmI (c : BitVec 10) (f : RMode → Bool → Instr) : Option Instr :=
  if mz c 8 2 && mz c 0 4 then (RMode.ofCode (c.extractLsb' 5 3)).map (f · (c.getLsbD 4)) else none
/-- MOD [9:6] and [3:0] zero, SC in [5:4]. -/
def scI (c : BitVec 10) (f : Scope → Instr) : Option Instr :=
  if mz c 6 4 then (Scope.ofCode (c.extractLsb' 4 2)).map f else none

def intInstr (minor : Nat) (c : BitVec 10) (x : Args) : Option Instr :=
  let w := c.getLsbD 8
  match minor with
  | 0x01 => intI c (.add · x) | 0x02 => intI c (.sub · x)
  | 0x03 => when' (mz c 9 1 && mz c 4 4) (.addc w (c.extractLsb' 0 4) x)
  | 0x04 => when' (mz c 9 1 && mz c 4 4) (.subb w (c.extractLsb' 0 4) x)
  | 0x05 => intI c (.mul · x) | 0x06 => intI c (.mulh · x) | 0x07 => intI c (.mad · x)
  | 0x08 => intI c (.div · x) | 0x09 => intI c (.rem · x) | 0x0A => intI c (.min · x) | 0x0B => intI c (.max · x)
  | 0x0C => intI c (.abs · x) | 0x0D => intI c (.and · x) | 0x0E => intI c (.or · x) | 0x0F => intI c (.xor · x)
  | 0x10 => intI c (.not · x) | 0x11 => intI c (.shl · x) | 0x12 => intI c (.shr · x) | 0x13 => intI c (.sar · x)
  | 0x14 => intI c (.rot · x) | 0x15 => intI c (.bfx · x) | 0x16 => intI c (.bfi · x) | 0x17 => intI c (.popc · x)
  | 0x18 => intI c (.clz · x) | 0x19 => intI c (.ctz · x) | 0x1A => intI c (.brev · x)
  | 0x1B => when' (mz c 9 1 && mz c 5 3) (.sel w (c.getLsbD 4) (c.extractLsb' 0 4) x)
  | 0x1C => when' (mz c 9 1 && mz c 6 1 && mz c 0 3) (.cmp w (c.getLsbD 7) (ICond.ofCode (c.extractLsb' 3 3)) x)
  | 0x1D => intI c (.plop · x) | 0x1E => intI c (.mov · x) | 0x1F => intI c (.lea · x)
  | _ => none

def fmtInstr (minor : Nat) (c : BitVec 10) (x : Args) : Option Instr :=
  let f1 := Fmt.ofCode (c.extractLsb' 7 3)
  let pos := c.extractLsb' 4 3
  let rm := RMode.ofCode (c.extractLsb' 1 3)
  let lo := c.getLsbD 0
  match minor with
  | 0x00 => rm.map (.cvt f1 (Fmt.ofCode pos) · lo x)
  | 0x01 => if lo then none else rm.map (.f2i f1 (IWidth.ofCode (c.extractLsb' 5 2)) (c.getLsbD 4) · x)
  | 0x02 => rm.map (.i2f f1 (IWidth.ofCode (c.extractLsb' 5 2)) (c.getLsbD 4) · lo x)
  | 0x03 => when' (mz c 0 3) (.i2i (IWidth.ofCode (c.extractLsb' 8 2)) (c.getLsbD 7)
      (IWidth.ofCode (c.extractLsb' 5 2)) (c.getLsbD 4) (c.getLsbD 3) x)
  | 0x04 => rm.map (.pack f1 pos · lo x)
  | 0x05 => when' (mz c 0 4) (.unpk f1 pos x)
  | 0x06 => rm.map (.qnt f1 pos · lo x)
  | 0x07 => rm.map (.dqnt f1 pos · lo x)
  | 0x08 => when' (mz c 0 7) (.bscale f1 x)
  | 0x09 => when' (mz c 0 7) (.bmax (c.extractLsb' 7 3) x)
  | 0x0A => zI c (.bytx x)
  | 0x0B => zI c (.srstep x)
  | _ => none

def fpInstr (minor : Nat) (c : BitVec 10) (x : Args) : Option Instr :=
  match minor with
  | 0x00 => fpI c (.fadd · x) | 0x01 => fpI c (.fsub · x) | 0x02 => fpI c (.fmul · x)
  | 0x03 => fpI c (.ffma · x) | 0x04 => fpI c (.ffms · x) | 0x05 => fpI c (.fnma · x)
  | 0x06 => if mz c 1 2 then (FMod.ofCode c).map (.fmin · (c.getLsbD 0) x) else none
  | 0x07 => if mz c 1 2 then (FMod.ofCode c).map (.fmax · (c.getLsbD 0) x) else none
  | 0x08 => fpI c (.fabs · x) | 0x09 => fpI c (.fneg · x)
  | 0x0A => do
    let m ← FMod.ofCode c
    let sm ← SgnMode.ofCode (c.extractLsb' 0 3)
    some (.fsgn m sm x)
  | 0x0B => (FMod.ofCode c).map (.fcmp · (FCond.ofCode (c.extractLsb' 0 3)) x)
  | 0x0C => fpI c (.fclass · x) | 0x0D => fpI c (.frint · x) | 0x0E => fpI c (.fscale · x)
  | 0x0F => fpI c (.fgetx · x) | 0x10 => fpI c (.fgetm · x) | 0x11 => fpI c (.fdiv · x)
  | 0x12 => when' (mz c 9 1 && mz c 0 3) (.fsel (c.getLsbD 8) (c.extractLsb' 4 4) (c.getLsbD 3) x)
  | 0x13 => fpI c (.fdp2 · x)
  | _ => none

def sfInstr (minor : Nat) (c : BitVec 10) (x : Args) : Option Instr :=
  match minor with
  | 0x00 => sfRmI c (.rcp · · x) | 0x01 => sfI c (.rsq · x) | 0x02 => sfRmI c (.sqrt · · x)
  | 0x03 => sfI c (.exp2 · x) | 0x04 => sfI c (.log2 · x) | 0x05 => sfI c (.sin · x) | 0x06 => sfI c (.cos · x)
  | 0x07 => sfI c (.sincos · x) | 0x08 => sfI c (.tanh · x) | 0x09 => sfI c (.sigm · x)
  | _ => none

def ctlInstr (minor : Nat) (c : BitVec 10) (x : Args) : Option Instr :=
  match minor with
  | 0x00 => zI c (.nop x) | 0x01 => zI c (.bra x) | 0x02 => zI c (.brx x) | 0x03 => zI c (.call x)
  | 0x04 => zI c (.callx x) | 0x05 => zI c (.ret x) | 0x06 => zI c (.jtab x) | 0x07 => zI c (.loop x)
  | 0x08 => zI c (.brany x) | 0x09 => zI c (.brall x)
  | 0x0A => when' (mz c 5 5) (.fork (c.getLsbD 4) (c.extractLsb' 0 4) x)
  | 0x0B => zI c (.end_ x) | 0x0C => zI c (.exit x) | 0x0D => zI c (.rcvMark x)
  | 0x0E => when' (mz c 1 9) (.rcvWait (c.getLsbD 0) x)
  | 0x0F => zI c (.yield x) | 0x10 => zI c (.nap x) | 0x11 => zI c (.icinv x)
  | _ => none

def laneInstr (minor : Nat) (c : BitVec 10) (x : Args) : Option Instr :=
  let w := c.getLsbD 8
  let m := c.getLsbD 7
  if c.getLsbD 9 then none else
  match minor with
  | 0x00 => when' (mz c 3 2) (.shfl w m (ShflMode.ofCode (c.extractLsb' 5 2)) (c.extractLsb' 0 3) x)
  | 0x01 => when' (mz c 0 5 && !w) (.vote m (VoteOp.ofCode (c.extractLsb' 5 2)) x)
  | 0x02 => if mz c 0 3 then (ROp.ofCode (c.extractLsb' 3 4)).map (.redux w m · x) else none
  | 0x03 => if mz c 0 2 then (ROp.ofCode (c.extractLsb' 3 4)).map (.scan w m · (c.getLsbD 2) x) else none
  | 0x04 => when' (mz c 0 5 && mz c 6 1) (.match_ w m (c.getLsbD 5) x)
  | 0x05 => when' (mz c 0 7) (.bcast w m x)
  | 0x06 => when' (mz c 0 7 && !w) (.cmpct m x)
  | 0x07 => when' (mz c 0 7) (.lperm w m x)
  | _ => none

def memInstr (minor : Nat) (c : BitVec 10) (x : Args) : Option Instr :=
  match minor with
  | 0x00 => memI c (.ld · x) | 0x01 => memI c (.st · x) | 0x02 => memI c (.ldu · x) | 0x03 => memI c (.lds · x)
  | 0x04 => memI c (.sts · x) | 0x05 => memI c (.ldx · x) | 0x06 => memI c (.stx · x) | 0x07 => memI c (.ldw · x)
  | 0x08 => memI c (.ldb · x) | 0x09 => memI c (.stb · x)
  | 0x0A => zI c (.pref x) | 0x0B => zI c (.prefc x) | 0x0C => zI c (.cinv x) | 0x0D => zI c (.cwb x)
  | 0x0E => zI c (.cdisc x)
  | 0x0F => if mz c 6 4 && mz c 0 2 then do
      let o ← FenceOrd.ofCode (c.extractLsb' 4 2)
      let sc ← Scope.ofCode (c.extractLsb' 2 2)
      some (.fence o sc x) else none
  | 0x10 => when' (mz c 3 7) (.ochOpen (c.extractLsb' 0 3) x)
  | 0x11 => if mz c 3 4 then (MSize.ofCode (c.extractLsb' 7 3)).map (.ochSt · (c.extractLsb' 0 3) x) else none
  | 0x12 => when' (mz c 3 7) (.ochClose (c.extractLsb' 0 3) x)
  | 0x13 => zI c (.mdie x)
  | _ => none

def atomInstr (minor : Nat) (c : BitVec 10) (x : Args) : Option Instr :=
  match minor with
  | 0x00 => atI c (.atom · x) | 0x01 => atI c (.atomc · x) | 0x02 => atI c (.red · x) | 0x03 => atI c (.atomu · x)
  | 0x04 => atI c (.atoms · x) | 0x05 => atI c (.atomsc · x) | 0x06 => atI c (.reds · x) | 0x07 => atI c (.redu · x)
  | _ => none

def syncInstr (minor : Nat) (c : BitVec 10) (x : Args) : Option Instr :=
  let w := c.getLsbD 8
  let n := c.extractLsb' 0 4
  let sc := Scope.ofCode (c.extractLsb' 4 2)
  match minor with
  | 0x00 => when' (mz c 9 1) (.ckfill w (c.extractLsb' 0 8) x)
  | 0x01 => when' (mz c 9 1 && mz c 0 8) (.ckdraw w x)
  | 0x02 => when' (mz c 9 1 && mz c 0 8) (.ckpeek w x)
  | 0x03 => when' (mz c 9 1 && mz c 4 3) (.cktry w (c.getLsbD 7) n x)
  | 0x04 => if mz c 0 6 then (GOp.ofCode (c.extractLsb' 6 4)).map (.ckseed · x) else none
  | 0x05 => if mz c 5 1 && mz c 0 4 then (GOp.ofCode (c.extractLsb' 6 4)).map (.ckred · (c.getLsbD 4) x) else none
  | 0x06 => zI c (.ckclr x) | 0x07 => zI c (.ckstat x)
  | 0x08 => if mz c 6 4 then sc.map (.bar · n x) else none
  | 0x09 => if mz c 6 4 then sc.map (.bara · n x) else none
  | 0x0A => if mz c 6 4 then sc.map (.barw · n x) else none
  | 0x0B => if mz c 6 4 then sc.map (.bart · n x) else none
  | 0x0C => when' (mz c 6 4 && mz c 1 4) (.gbar (c.getLsbD 5) (c.getLsbD 0) x)
  | 0x0D => when' (mz c 6 4 && mz c 0 5) (.gbart (c.getLsbD 5) x)
  | 0x0E => zI c (.mbinit x)
  | 0x0F => if mz c 0 3 then scI c (.mbarr · (c.getLsbD 3) x) else none
  | 0x10 => if mz c 0 3 && (c.getLsbD 3 || mz c 4 2) then scI c (.mbexp · (c.getLsbD 3) x) else none
  | 0x11 => if mz c 0 4 then scI c (.mbwait · x) else none
  | 0x12 => if mz c 0 4 then scI c (.mbtry · x) else none
  | 0x13 => if mz c 0 4 then scI c (.mbtw · x) else none
  | 0x14 => zI c (.yokeDecl x) | 0x15 => zI c (.yokeRst x)
  | _ => none

def copyInstr (minor : Nat) (c : BitVec 10) (x : Args) : Option Instr :=
  match minor with
  | 0x00 => if mz c 0 6 then (CpyKind.ofCode (c.extractLsb' 7 3)).map (.cpy · (c.getLsbD 6) x) else none
  | 0x01 => zI c (.cpyl x)
  | 0x02 => when' (mz c 0 6 && mz c 7 3) (.cpyf (c.getLsbD 6) x)
  | 0x03 => zI c (.cpyp x) | 0x04 => zI c (.cpyq x)
  | 0x05 => if mz c 4 6 && mz c 0 2 then (Scope.ofCode (c.extractLsb' 2 2)).map (.cpwait · x) else none
  | 0x06 => when' (mz c 0 6) (.xcpy (c.getLsbD 9) (c.getLsbD 8) (c.getLsbD 7) (c.getLsbD 6) x)
  | 0x07 => zI c (.xcpyl x) | 0x08 => zI c (.xstat x)
  | _ => none

def matInstr (minor : Nat) (c : BitVec 10) (x : Args) : Option Instr :=
  match minor with
  | 0x00 => if mz c 1 1 then (MmaMod.ofCode c).map (.mma · x) else none
  | 0x01 => if mz c 1 1 then (MmaMod.ofCode c).map (.mmag · x) else none
  | 0x02 => (MmaMod.ofCode c).map (.mmaw · (c.getLsbD 1) x)
  | 0x03 => zI c (.mscl x) | 0x04 => zI c (.aclr x) | 0x05 => zI c (.ald x) | 0x06 => zI c (.ast x)
  | 0x07 => zI c (.amov x)
  | 0x08 => if mz c 0 2 then (RMode.ofCode (c.extractLsb' 3 3)).map
      (.acvt (Fmt.ofCode (c.extractLsb' 7 3)) (c.getLsbD 6) · (c.getLsbD 2) x) else none
  | 0x09 => when' (mz c 7 3 && mz c 0 6) (.aadd (c.getLsbD 6) x)
  | 0x0A => zI c (.await x) | 0x0B => zI c (.adrop x)
  | _ => none

def taskInstr (minor : Nat) (c : BitVec 10) (x : Args) : Option Instr :=
  match minor with
  | 0x00 => zI c (.qclaim x)
  | 0x01 => when' (mz c 1 9) (if c.getLsbD 0 then .qpubRsv x else .qpub x)
  | 0x02 => zI c (.qstat x) | 0x03 => zI c (.enq x) | 0x04 => zI c (.enqt x) | 0x05 => zI c (.spawn x)
  | 0x06 => zI c (.sjoin x)
  | 0x07 => when' (mz c 1 9) (.lvwait (c.getLsbD 0) x)
  | 0x08 => when' (mz c 1 9) (.lvrd (c.getLsbD 0) x)
  | 0x09 => zI c (.lvinc x)
  | 0x0A => when' (mz c 1 9) (if c.getLsbD 0 then .cancelClr x else .cancel x)
  | 0x0B => zI c (.cfill x)
  | _ => none

def ctxInstr (minor : Nat) (c : BitVec 10) (x : Args) : Option Instr :=
  match minor with
  | 0x00 => zI c (.ctxNew x) | 0x01 => zI c (.ctxGrant x)
  | 0x02 => when' (mz c 1 9) (.ctxRevoke (c.getLsbD 0) x)
  | 0x03 => zI c (.ctxRun x)
  | 0x04 => if c = 0 then some (.ctxStopNow x) else if c = 1 then some (.ctxStopDrain x)
    else if c = 2 then some (.ctxStopReset x) else none
  | 0x05 => if c = 0 then some (.ctxBudget x) else if c = 1 then some (.ctxBudgetRd x) else none
  | 0x06 => if c = 0 then some (.ctxReflectMask x) else if c = 1 then some (.ctxReflectDown x)
    else if c = 2 then some (.ctxReflectUp x) else if c = 3 then some (.ctxReflectRet x) else none
  | 0x07 => if c = 0 then some (.gateNew x) else if c = 1 then some (.gateNewDel x) else none
  | 0x08 => when' (mz c 2 8) (.gateAcl (c.getLsbD 1) (c.getLsbD 0) x)
  | 0x09 => when' (mz c 4 6) (.gpost (c.extractLsb' 0 4) x)
  | 0x0A => when' (mz c 5 5) (.gtake (c.getLsbD 4) (c.extractLsb' 0 4) x)
  | 0x0B => zI c (.gpeek x) | 0x0C => zI c (.tlbi x) | 0x0D => zI c (.replay x) | 0x0E => zI c (.replayAll x)
  | 0x0F => zI c (.hcall x)
  | _ => none

def trapInstr (minor : Nat) (c : BitVec 10) (x : Args) : Option Instr :=
  match minor with
  | 0x00 => zI c (.trap x) | 0x01 => zI c (.tret x) | 0x02 => zI c (.assert x) | 0x03 => zI c (.bkpt x)
  | 0x04 => when' (mz c 9 1 && mz c 0 8) (.srd (c.getLsbD 8) x)
  | 0x05 => when' (mz c 9 1 && mz c 0 8) (.swr (c.getLsbD 8) x)
  | 0x06 => zI c (.tfrd x) | 0x07 => zI c (.tfwr x) | 0x08 => zI c (.fbpop x)
  | 0x09 => when' (mz c 1 9) (.fbstat (c.getLsbD 0) x)
  | 0x0A => zI c (.mark x)
  | 0x0B => when' (mz c 4 6) (.watch (c.getLsbD 2) (c.getLsbD 3) (c.extractLsb' 0 2) x)
  | _ => none

/-- The number of assigned minors of each class (R54): minors 0 to this number less one. -/
def classMinors (cls : Nat) : Nat :=
  match cls with
  | 0x0 => 0x20 | 0x1 => 0x0C | 0x2 => 0x14 | 0x3 => 0x0A | 0x4 => 0x12 | 0x5 => 0x08 | 0x6 => 0x14
  | 0x7 => 0x08 | 0x8 => 0x16 | 0x9 => 0x09 | 0xA => 0x0C | 0xB => 0x0C | 0xC => 0x10 | 0xD => 0x0C
  | _ => 0

/-- OPC is assigned (R55). -/
def opcAssigned (opc : Nat) : Bool := opc % 64 < classMinors (opc / 64)

/-- The instruction of an OPC and a MOD, before `Instr.modOk`; `none` for a reserved field code. -/
def rawMod (opc : Nat) (c : BitVec 10) (x : Args) : Option Instr :=
  let minor := opc % 64
  match opc / 64 with
  | 0x0 => intInstr minor c x
  | 0x1 => fmtInstr minor c x
  | 0x2 => fpInstr minor c x
  | 0x3 => sfInstr minor c x
  | 0x4 => ctlInstr minor c x
  | 0x5 => laneInstr minor c x
  | 0x6 => memInstr minor c x
  | 0x7 => atomInstr minor c x
  | 0x8 => syncInstr minor c x
  | 0x9 => copyInstr minor c x
  | 0xA => matInstr minor c x
  | 0xB => taskInstr minor c x
  | 0xC => ctxInstr minor c x
  | 0xD => trapInstr minor c x
  | _ => none

/-- The instruction of an OPC and a MOD (step 4 of R39). -/
def decodeMod (opc : Nat) (c : BitVec 10) (x : Args) : Option Instr :=
  match rawMod opc c x with
  | some i => if i.modOk then some i else none
  | none => none

end Sys2Proof
end

