-- ==== Sys2Proof/WellFormed.lean ====
section
/-! DEFINITION. Which instructions have a word: the checks of R39 that depend on the word and on the executing core,
said of the instruction as syntax. -/

namespace Sys2Proof

/-- R38: `GN = 1` with `GP = 15` is ILLEGAL. -/
def Args.guardOk (x : Args) : Bool := !(x.gn && x.gp = 15)

def Operand.isDraw : Operand → Bool
  | .k _ true => true
  | _ => false

/-- At most one operand field names the draw form (R48). -/
def Args.oneDraw (x : Args) : Bool :=
  !((x.a.isDraw && (x.b.isDraw || x.c.isDraw || x.d.isDraw)) || (x.b.isDraw && (x.c.isDraw || x.d.isDraw)) ||
    (x.c.isDraw && x.d.isDraw))

/-- Two operands name one register. -/
def Operand.sameReg : Operand → Operand → Bool
  | .v i, .v j => i = j
  | .s i, .s j => i = j
  | _, _ => false

/-- Destination fields that name the same register (R49): D of SINCOS, and the predicate of MATCH.all. -/
def Instr.dupDest : Instr → Option Field
  | .sincos _ x => if x.a.sameReg x.d then some .d else none
  | .match_ _ _ true x =>
    if x.xmod.getLsbD 4 && x.a = .pred (x.xmod.extractLsb' 0 4) then some .xmod else none
  | _ => none

/-- MOV writes no special register; its forms that do are instructions of their own (R89). -/
def Instr.srOk : Instr → Bool
  | .srseedWrite _ x => x.a = .sr 0x0D
  | .predsWrite _ x => x.a = .sr 0x0F
  | _ => true

/-- A Vamer word exists for this operand part under this shape. -/
def Args.fits (spine : Bool) (sh : Shape) (x : Args) : Bool :=
  x.guardOk && x.oneDraw && tailOk sh.form x && (sh.form = .d || (x.xmod = 0 && x.d = .unused)) &&
  roleOk spine sh.form sh.a x.a && roleOk spine sh.form sh.b x.b && roleOk spine sh.form sh.c x.c &&
  (sh.form ≠ .d || roleOk spine sh.form sh.d x.d)

/-- Field ranges of a base RV32 instruction: offsets its 32-bit encoding holds. -/
def sfits (w : Word32) (n : Nat) : Bool := (w.extractLsb' 0 n).signExtend 32 = w

def Rv.wf : Rv → Bool
  | .jal _ o => sfits o 21 && !o.getLsbD 0
  | .jalr _ _ o => sfits o 12
  | .branch _ _ _ o => sfits o 13 && !o.getLsbD 0
  | .load _ _ _ o => sfits o 12
  | .store _ _ _ o => sfits o 12
  | .opImm k _ _ i =>
    match k with
    | .sll | .srl | .sra => i < 32
    | .sub => false
    | _ => sfits i 12
  | .csr _ _ n _ _ => n ≠ 0x7C0
  | .illegal _ => false
  | _ => true

/-- The instruction is one that its word can hold, on a SIMT core or (`spine`) on a spine. -/
def Instr.wf (spine : Bool) : Instr → Bool
  | .ztrap w => w.extractLsb' 86 10 = 0
  | .onesWord w => w.extractLsb' 86 10 = 0x3FF
  | .unassignedOpc w =>
    !opcAssigned (w.extractLsb' 86 10).toNat && w.extractLsb' 86 10 ≠ 0 && w.extractLsb' 86 10 ≠ 0x3FF
  | .rv32imcInstruction i len => i.wf && len = 4
  | i =>
    match i.shape, i.args with
    | some sh, some x =>
      !(spine && vectorOpc i.opc) && i.modOk && i.xmodOk && x.fits spine sh && i.dupDest = none && i.srOk
    | _, _ => true

end Sys2Proof
end

