-- ==== Sys2Proof/Decode.lean ====
section
/-! DEFINITION. Decoding of Vamer words (R35 to R58) with the checks of R39 in their order, and of the dray's RV32IMC,
Zicsr and Xdray words (R283, R286); then the encoders, from the same tables. -/

namespace Sys2Proof

/-! ### Operand fields -/

/-- A 12-bit operand field (R43, R46); `none` is a reserved sub-space or index. -/
def rawOperand (x : BitVec 12) : Option Operand :=
  let i := x.extractLsb' 0 9
  let n6 := x.extractLsb' 0 6
  match (x.extractLsb' 9 3).toNat with
  | 0 => some (.v i)
  | 1 => some (.s ((0 : BitVec 1) ++ i))
  | 2 => some (.s ((1 : BitVec 1) ++ i))
  | 3 => some (.k (x.extractLsb' 0 8) (x.getLsbD 8))
  | 4 =>
    match (x.extractLsb' 6 3).toNat with
    | 0 => some (.tile n6)
    | 1 => if n6 < 16 then some (.yoke (x.extractLsb' 0 4)) else none
    | 2 => if n6 < 16 then some (.pred (x.extractLsb' 0 4)) else none
    | 3 => if n6 < 32 then some (.sr (x.extractLsb' 0 5)) else none
    | _ => none
  | 5 => some (.imm i)
  | 6 => if i = 0 then some .tail else none
  | _ => if i = 0 then some .zero else none

/-- The field of an operand (R43). -/
def Operand.bits : Operand → BitVec 12
  | .unused => 0
  | .v i => (0 : BitVec 3) ++ i
  | .s i => (if i.getLsbD 9 then (2 : BitVec 3) else 1) ++ i.extractLsb' 0 9
  | .k n d => (3 : BitVec 3) ++ b1 d ++ n
  | .tile n => (0x20 : BitVec 6) ++ n
  | .yoke n => (0x84 : BitVec 8) ++ n
  | .pred n => (0x88 : BitVec 8) ++ n
  | .sr n => (0x46 : BitVec 7) ++ n
  | .imm i => (5 : BitVec 3) ++ i
  | .tail => 0xC00
  | .zero => 0xE00

/-- One operand field against its role (step 6 of R39). -/
def decodeField (spine : Bool) (form : TailForm) (r : Option Role) (x : BitVec 12) : Option Operand :=
  match r with
  | none => if x = 0 then some .unused else none
  | some _ =>
    match rawOperand x with
    | some o => if roleOk spine form r o then some o else none
    | none => none

/-- As `decodeField`, with the field that fails; `drew` says that an earlier field of the word names the draw form,
so that a second one fails (R48). -/
def fieldAt (spine : Bool) (form : TailForm) (f : Field) (r : Option Role) (drew : Bool) (x : BitVec 12) :
    Except Field Operand :=
  match decodeField spine form r x with
  | some o => if drew && o.isDraw then .error f else .ok o
  | none => .error f

/-- A raw field names space 110. -/
def rawTail (x : BitVec 12) : Bool := x.extractLsb' 9 3 = 6

/-! ### Vamer words -/

def wordOpc (w : Word96) : Nat := (w.extractLsb' 86 10).toNat
def wordMod (w : Word96) : BitVec 10 := w.extractLsb' 35 10

/-- The operand part of a word before its fields are decoded. -/
def rawArgs (w : Word96) : Args where
  gn := w.getLsbD 85
  gp := w.extractLsb' 81 4
  ret := w.extractLsb' 33 2
  yld := w.getLsbD 32
  a := .unused
  b := .unused
  c := .unused
  d := .unused
  tail := 0
  xmod := w.extractLsb' 0 20

/-- TAIL and XMOD against the form (step 5 of R39). -/
def tailCheck (i : Instr) (form : TailForm) (w : Word96) : Except Field Unit :=
  let tail : Word32 := w.extractLsb' 0 32
  match form with
  | .n => if tail = 0 then .ok () else .error .tail
  | .i =>
    if tail = 0 || rawTail (w.extractLsb' 69 12) || rawTail (w.extractLsb' 57 12) || rawTail (w.extractLsb' 45 12)
    then .ok () else .error .tail
  | .disp | .o => .ok ()
  | .d => if i.xmodOk then .ok () else .error .xmod

/-- The fields A to D in order (step 6 of R39). -/
def decodeArgs (spine : Bool) (sh : Shape) (w : Word96) : Except Field Args := do
  let r := rawArgs w
  let a ← fieldAt spine sh.form .a sh.a false (w.extractLsb' 69 12)
  let b ← fieldAt spine sh.form .b sh.b a.isDraw (w.extractLsb' 57 12)
  let c ← fieldAt spine sh.form .c sh.c (a.isDraw || b.isDraw) (w.extractLsb' 45 12)
  if sh.form = .d then
    let d ← fieldAt spine sh.form .d sh.d (a.isDraw || b.isDraw || c.isDraw) (w.extractLsb' 20 12)
    .ok { r with a, b, c, d }
  else
    .ok { r with a, b, c, tail := w.extractLsb' 0 32, xmod := 0 }

/-- MOV to a writable special register is SRSEED_WRITE or PREDS_WRITE (R89, R101, R50). -/
def retarget (w : Word96) : Instr → Instr
  | .mov m x =>
    if w.extractLsb' 69 12 = 0x8CD then .srseedWrite m x
    else if w.extractLsb' 69 12 = 0x8CF then .predsWrite m x
    else .mov m x
  | i => i

/-- Decode one Vamer word on a SIMT core or on the spine: the instruction, or the field of the ILLEGAL trap.
The order is that of R39; step 1 and an unassigned OPC are instructions of their own here, since they trap by name. -/
def decodeVamer (spine : Bool) (w : Word96) : Except Field Instr :=
  let opc := wordOpc w
  if opc = 0 then .ok (.ztrap w)
  else if opc = 0x3FF then .ok (.onesWord w)
  else if !opcAssigned opc then .ok (.unassignedOpc w)
  else if spine && vectorOpc opc then .error .opc
  else if !(rawArgs w).guardOk then .error .guard
  else
    match decodeMod opc (wordMod w) (rawArgs w) with
    | none => .error .mod
    | some i0 =>
      let i0 := retarget w i0
      match i0.shape with
      | none => .error .opc
      | some sh => do
        tailCheck i0 sh.form w
        let x ← decodeArgs spine sh w
        match decodeMod opc (wordMod w) x with
        | none => .error .mod
        | some i =>
          let i := retarget w i
          match i.dupDest with
          | some f => .error f
          | none => .ok i

/-! ### Dray words (R283, R286) -/

def sx (n : Nat) (x : BitVec n) : Word32 := x.signExtend 32

/-- Zicsr and the system instructions (opcode 1110011). -/
def decodeSystem (w : Word32) : Instr :=
  let rd := w.extractLsb' 7 5
  let rs1 := w.extractLsb' 15 5
  let f3 := (w.extractLsb' 12 3).toNat
  let num := w.extractLsb' 20 12
  let csr (k : RvCsr) (imm : Bool) : Instr :=
    if num = 0x7C0 then .dfaultWrite k rd imm rs1 else .rv32imcInstruction (.csr k rd num imm rs1) 4
  match f3 with
  | 0 =>
    if w = 0x00000073 then .rv32imcInstruction .ecall 4
    else if w = 0x00100073 then .rv32imcInstruction .ebreak 4
    else if w = 0x30200073 then .rv32imcInstruction .mret 4
    else if w = 0x10500073 then .drayWfi
    else .rv32imcInstruction (.illegal w) 4
  | 1 => csr .rw false
  | 2 => csr .rs false
  | 3 => csr .rc false
  | 5 => csr .rw true
  | 6 => csr .rs true
  | 7 => csr .rc true
  | _ => .rv32imcInstruction (.illegal w) 4

/-- custom-0 and custom-1 (R286). -/
def decodeXdray (w : Word32) : Instr :=
  let rd := w.extractLsb' 7 5
  let rs1 := w.extractLsb' 15 5
  let rs2 := w.extractLsb' 20 5
  let f3 := (w.extractLsb' 12 3).toNat
  let f7 := w.extractLsb' 25 7
  let bad : Instr := .rv32imcInstruction (.illegal w) 4
  if w.extractLsb' 0 7 = 0x0B then
    match f3 with
    | 0 => if f7 = 0 && rs2 = 0 then .dcpy rd rs1 else bad
    | 1 => if f7 = 0 then .dkick rd rs1 rs2 else bad
    | 2 => if f7 = 0 && rs2 = 0 && rs1 = 0 then .dstat rd else bad
    | 3 => if f7 < 4 && rs2 = 0 then .dck (w.getLsbD 26) (w.getLsbD 25) rd rs1 else bad
    | _ => bad
  else
    match f3 with
    | 0 => if f7 = 0 && rs2 = 0 then .darr rd rs1 else bad
    | 1 => if f7 < 2 then .dexp (w.getLsbD 25) rd rs1 rs2 else bad
    | 2 => if f7 = 0 && rd = 0 then .dwait rs1 rs2 else bad
    | 3 => if f7 = 0 then .dtry rd rs1 rs2 else bad
    | _ => bad

def rvAluOf (f3 : Nat) (alt : Bool) : RvAlu :=
  match f3 with
  | 0 => if alt then .sub else .add
  | 1 => .sll
  | 2 => .slt
  | 3 => .sltu
  | 4 => .xor
  | 5 => if alt then .sra else .srl
  | 6 => .or
  | _ => .and

def rvMulOf (f3 : Nat) : RvMul :=
  match f3 with
  | 0 => .mul
  | 1 => .mulh
  | 2 => .mulhsu
  | 3 => .mulhu
  | 4 => .div
  | 5 => .divu
  | 6 => .rem
  | _ => .remu

/-- A 32-bit dray instruction. -/
def decodeDray32 (w : Word32) : Instr :=
  let rd := w.extractLsb' 7 5
  let rs1 := w.extractLsb' 15 5
  let rs2 := w.extractLsb' 20 5
  let f3 := (w.extractLsb' 12 3).toNat
  let f7 := w.extractLsb' 25 7
  let immI := sx 12 (w.extractLsb' 20 12)
  let immS := sx 12 (w.extractLsb' 25 7 ++ w.extractLsb' 7 5)
  let immB := sx 13 (w.extractLsb' 31 1 ++ w.extractLsb' 7 1 ++ w.extractLsb' 25 6 ++ w.extractLsb' 8 4 ++ (0 : BitVec 1))
  let immJ := sx 21 (w.extractLsb' 31 1 ++ w.extractLsb' 12 8 ++ w.extractLsb' 20 1 ++ w.extractLsb' 21 10 ++ (0 : BitVec 1))
  let bad : Instr := .rv32imcInstruction (.illegal w) 4
  let ok (i : Rv) : Instr := .rv32imcInstruction i 4
  match (w.extractLsb' 0 7).toNat with
  | 0x37 => ok (.lui rd (w.extractLsb' 12 20))
  | 0x17 => ok (.auipc rd (w.extractLsb' 12 20))
  | 0x6F => ok (.jal rd immJ)
  | 0x67 => if f3 = 0 then ok (.jalr rd rs1 immI) else bad
  | 0x63 =>
    match f3 with
    | 0 => ok (.branch .beq rs1 rs2 immB)
    | 1 => ok (.branch .bne rs1 rs2 immB)
    | 4 => ok (.branch .blt rs1 rs2 immB)
    | 5 => ok (.branch .bge rs1 rs2 immB)
    | 6 => ok (.branch .bltu rs1 rs2 immB)
    | 7 => ok (.branch .bgeu rs1 rs2 immB)
    | _ => bad
  | 0x03 =>
    match f3 with
    | 0 => ok (.load .lb rd rs1 immI)
    | 1 => ok (.load .lh rd rs1 immI)
    | 2 => ok (.load .lw rd rs1 immI)
    | 4 => ok (.load .lbu rd rs1 immI)
    | 5 => ok (.load .lhu rd rs1 immI)
    | _ => bad
  | 0x23 =>
    match f3 with
    | 0 => ok (.store .sb rs1 rs2 immS)
    | 1 => ok (.store .sh rs1 rs2 immS)
    | 2 => ok (.store .sw rs1 rs2 immS)
    | _ => bad
  | 0x13 =>
    match f3 with
    | 1 => if f7 = 0 then ok (.opImm .sll rd rs1 (rs2.setWidth 32)) else bad
    | 5 => if f7 = 0 then ok (.opImm .srl rd rs1 (rs2.setWidth 32))
      else if f7 = 0x20 then ok (.opImm .sra rd rs1 (rs2.setWidth 32)) else bad
    | _ => ok (.opImm (rvAluOf f3 false) rd rs1 immI)
  | 0x33 =>
    if f7 = 0 then ok (.op (rvAluOf f3 false) rd rs1 rs2)
    else if f7 = 1 then ok (.mul (rvMulOf f3) rd rs1 rs2)
    else if f7 = 0x20 && (f3 = 0 || f3 = 5) then ok (.op (rvAluOf f3 true) rd rs1 rs2)
    else bad
  | 0x0F => if f3 = 0 then ok .fence else bad
  | 0x73 => decodeSystem w
  | 0x0B => decodeXdray w
  | 0x2B => decodeXdray w
  | _ => bad

/-- x8 to x15 of a compressed register field. -/
def rvc (x : BitVec 3) : BitVec 5 := (1 : BitVec 2) ++ x

/-- A 16-bit dray instruction, as the base instruction it expands to. -/
def decodeDray16 (h : Word16) : Instr :=
  let bad : Instr := .rv32imcInstruction (.illegal (h.setWidth 32)) 2
  let ok (i : Rv) : Instr := .rv32imcInstruction i 2
  let f3 := (h.extractLsb' 13 3).toNat
  let rd := h.extractLsb' 7 5
  let rs2 := h.extractLsb' 2 5
  let ra := rvc (h.extractLsb' 7 3)
  let rb := rvc (h.extractLsb' 2 3)
  let imm6 : BitVec 6 := h.extractLsb' 12 1 ++ h.extractLsb' 2 5
  let offW : BitVec 7 := h.extractLsb' 5 1 ++ h.extractLsb' 10 3 ++ h.extractLsb' 6 1 ++ (0 : BitVec 2)
  let offJ : BitVec 12 := h.extractLsb' 12 1 ++ h.extractLsb' 8 1 ++ h.extractLsb' 9 2 ++ h.extractLsb' 6 1 ++
    h.extractLsb' 7 1 ++ h.extractLsb' 2 1 ++ h.extractLsb' 11 1 ++ h.extractLsb' 3 3 ++ (0 : BitVec 1)
  let offB : BitVec 9 := h.extractLsb' 12 1 ++ h.extractLsb' 5 2 ++ h.extractLsb' 2 1 ++ h.extractLsb' 10 2 ++
    h.extractLsb' 3 2 ++ (0 : BitVec 1)
  match (h.extractLsb' 0 2).toNat, f3 with
  | 0, 0 =>
    let imm : BitVec 10 := h.extractLsb' 7 4 ++ h.extractLsb' 11 2 ++ h.extractLsb' 5 1 ++ h.extractLsb' 6 1 ++ (0 : BitVec 2)
    if imm = 0 then bad else ok (.opImm .add rb 2 (imm.setWidth 32))
  | 0, 2 => ok (.load .lw rb ra (offW.setWidth 32))
  | 0, 6 => ok (.store .sw ra rb (offW.setWidth 32))
  | 1, 0 => ok (.opImm .add rd rd (sx 6 imm6))
  | 1, 1 => ok (.jal 1 (sx 12 offJ))
  | 1, 2 => ok (.opImm .add rd 0 (sx 6 imm6))
  | 1, 3 =>
    if imm6 = 0 then bad
    else if rd = 2 then
      let imm : BitVec 10 := h.extractLsb' 12 1 ++ h.extractLsb' 3 2 ++ h.extractLsb' 5 1 ++ h.extractLsb' 2 1 ++
        h.extractLsb' 6 1 ++ (0 : BitVec 4)
      ok (.opImm .add 2 2 (sx 10 imm))
    else ok (.lui rd (imm6.signExtend 20))
  | 1, 4 =>
    match (h.extractLsb' 10 2).toNat with
    | 0 => if h.getLsbD 12 then bad else ok (.opImm .srl ra ra (rs2.setWidth 32))
    | 1 => if h.getLsbD 12 then bad else ok (.opImm .sra ra ra (rs2.setWidth 32))
    | 2 => ok (.opImm .and ra ra (sx 6 imm6))
    | _ =>
      if h.getLsbD 12 then bad
      else match (h.extractLsb' 5 2).toNat with
        | 0 => ok (.op .sub ra ra rb)
        | 1 => ok (.op .xor ra ra rb)
        | 2 => ok (.op .or ra ra rb)
        | _ => ok (.op .and ra ra rb)
  | 1, 5 => ok (.jal 0 (sx 12 offJ))
  | 1, 6 => ok (.branch .beq ra 0 (sx 9 offB))
  | 1, 7 => ok (.branch .bne ra 0 (sx 9 offB))
  | 2, 0 => if h.getLsbD 12 then bad else ok (.opImm .sll rd rd (rs2.setWidth 32))
  | 2, 2 =>
    let off : BitVec 8 := h.extractLsb' 2 2 ++ h.extractLsb' 12 1 ++ h.extractLsb' 4 3 ++ (0 : BitVec 2)
    if rd = 0 then bad else ok (.load .lw rd 2 (off.setWidth 32))
  | 2, 4 =>
    if h.getLsbD 12 then
      if rs2 = 0 then (if rd = 0 then ok .ebreak else ok (.jalr 1 rd 0)) else ok (.op .add rd rd rs2)
    else
      if rs2 = 0 then (if rd = 0 then bad else ok (.jalr 0 rd 0)) else ok (.op .add rd 0 rs2)
  | 2, 6 =>
    let off : BitVec 8 := h.extractLsb' 7 2 ++ h.extractLsb' 9 4 ++ (0 : BitVec 2)
    ok (.store .sw 2 rs2 (off.setWidth 32))
  | _, _ => bad

/-- The dray instruction in 32 fetched bits: a 16-bit one when the low two bits are not 11. -/
def decodeDray (w : Word32) : Instr :=
  if w.extractLsb' 0 2 = 3 then decodeDray32 w else decodeDray16 (w.setWidth 16)

/-- The instruction the decoder reads from a word whose bits spec/opcode_table.json numbers: 96-bit Vamer words,
32-bit dray words. -/
def decodeTableWord (nbits w : Nat) : Option Instr :=
  if nbits = 32 then
    match decodeDray (BitVec.ofNat 32 w) with
    | .rv32imcInstruction (.illegal _) _ => none
    | i => some i
  else
    match decodeVamer false (BitVec.ofNat 96 w) with
    | .ok i => some i
    | .error _ => none

/-! ### Encoders -/

/-- The word of a Vamer instruction. -/
def encodeVamer (i : Instr) : Word96 :=
  match i with
  | .ztrap w => w
  | .onesWord w => w
  | .unassignedOpc w => w
  | i =>
    match i.shape, i.args with
    | some sh, some x =>
      let tail : Word32 := if sh.form = .d then x.d.bits ++ x.xmod else x.tail
      BitVec.ofNat 10 i.opc ++ b1 x.gn ++ x.gp ++ x.a.bits ++ x.b.bits ++ x.c.bits ++ i.modBits ++ x.ret ++ b1 x.yld ++ tail
    | _, _ => 0

def RvAlu.f3 : RvAlu → BitVec 3
  | .add => 0 | .sub => 0 | .sll => 1 | .slt => 2 | .sltu => 3 | .xor => 4 | .srl => 5 | .sra => 5 | .or => 6 | .and => 7
def RvAlu.f7 : RvAlu → BitVec 7
  | .sub | .sra => 0x20
  | _ => 0
def RvMul.f3 : RvMul → BitVec 3
  | .mul => 0 | .mulh => 1 | .mulhsu => 2 | .mulhu => 3 | .div => 4 | .divu => 5 | .rem => 6 | .remu => 7
def RvCond.f3 : RvCond → BitVec 3
  | .beq => 0 | .bne => 1 | .blt => 4 | .bge => 5 | .bltu => 6 | .bgeu => 7
def RvLoad.f3 : RvLoad → BitVec 3
  | .lb => 0 | .lh => 1 | .lw => 2 | .lbu => 4 | .lhu => 5
def RvStore.f3 : RvStore → BitVec 3
  | .sb => 0 | .sh => 1 | .sw => 2
def RvCsr.f3 (k : RvCsr) (imm : Bool) : BitVec 3 :=
  b1 imm ++ (match k with | .rw => (1 : BitVec 2) | .rs => 2 | .rc => 3)

/-- The 32-bit encoding of a base RV32IM or Zicsr instruction. -/
def Rv.encode : Rv → Word32
  | .lui rd i => i ++ rd ++ (0x37 : BitVec 7)
  | .auipc rd i => i ++ rd ++ (0x17 : BitVec 7)
  | .jal rd o => o.extractLsb' 20 1 ++ o.extractLsb' 1 10 ++ o.extractLsb' 11 1 ++ o.extractLsb' 12 8 ++ rd ++ (0x6F : BitVec 7)
  | .jalr rd rs1 o => o.extractLsb' 0 12 ++ rs1 ++ (0 : BitVec 3) ++ rd ++ (0x67 : BitVec 7)
  | .branch c rs1 rs2 o => o.extractLsb' 12 1 ++ o.extractLsb' 5 6 ++ rs2 ++ rs1 ++ c.f3 ++ o.extractLsb' 1 4 ++
      o.extractLsb' 11 1 ++ (0x63 : BitVec 7)
  | .load k rd rs1 o => o.extractLsb' 0 12 ++ rs1 ++ k.f3 ++ rd ++ (0x03 : BitVec 7)
  | .store k rs1 rs2 o => o.extractLsb' 5 7 ++ rs2 ++ rs1 ++ k.f3 ++ o.extractLsb' 0 5 ++ (0x23 : BitVec 7)
  | .opImm k rd rs1 i =>
    (match k with
     | .sll | .srl | .sra => k.f7 ++ i.extractLsb' 0 5
     | _ => i.extractLsb' 0 12) ++ rs1 ++ k.f3 ++ rd ++ (0x13 : BitVec 7)
  | .op k rd rs1 rs2 => k.f7 ++ rs2 ++ rs1 ++ k.f3 ++ rd ++ (0x33 : BitVec 7)
  | .mul k rd rs1 rs2 => (1 : BitVec 7) ++ rs2 ++ rs1 ++ k.f3 ++ rd ++ (0x33 : BitVec 7)
  | .fence => 0x0FF0000F
  | .ecall => 0x00000073
  | .ebreak => 0x00100073
  | .mret => 0x30200073
  | .csr k rd n imm src => n ++ src ++ k.f3 imm ++ rd ++ (0x73 : BitVec 7)
  | .illegal w => w

def rType (f7 : BitVec 7) (rs2 rs1 : BitVec 5) (f3 : BitVec 3) (rd : BitVec 5) (op : BitVec 7) : Word32 :=
  f7 ++ rs2 ++ rs1 ++ f3 ++ rd ++ op

/-- The 32-bit word of a dray instruction (R286). -/
def encodeDray : Instr → Word32
  | .dcpy rd rs1 => rType 0 0 rs1 0 rd 0x0B
  | .dkick rd rs1 rs2 => rType 0 rs2 rs1 1 rd 0x0B
  | .dstat rd => rType 0 0 0 2 rd 0x0B
  | .dck hi draw rd rs1 => rType ((0 : BitVec 5) ++ b1 hi ++ b1 draw) 0 rs1 3 rd 0x0B
  | .darr rd rs1 => rType 0 0 rs1 0 rd 0x2B
  | .dexp arr rd rs1 rs2 => rType ((0 : BitVec 6) ++ b1 arr) rs2 rs1 1 rd 0x2B
  | .dwait rs1 rs2 => rType 0 rs2 rs1 2 0 0x2B
  | .dtry rd rs1 rs2 => rType 0 rs2 rs1 3 rd 0x2B
  | .dfaultWrite k rd imm src => (0x7C0 : BitVec 12) ++ src ++ k.f3 imm ++ rd ++ (0x73 : BitVec 7)
  | .drayWfi => 0x10500073
  | .rv32imcInstruction i _ => i.encode
  | _ => 0

def Instr.isDray : Instr → Bool
  | .dcpy .. | .dkick .. | .dstat .. | .dck .. | .darr .. | .dexp .. | .dwait .. | .dtry .. | .dfaultWrite ..
  | .drayWfi | .rv32imcInstruction .. => true
  | _ => false

/-- The bytes of a value, lowest first (R2). -/
def leBytes (n v : Nat) : List Byte :=
  match n with
  | 0 => []
  | n + 1 => BitVec.ofNat 8 v :: leBytes n (v / 256)

/-- The bytes of a well-formed instruction as memory holds them, lowest address first (R2, R35). -/
def encode (i : Instr) : List Byte :=
  if i.isDray then leBytes 4 (encodeDray i).toNat else leBytes 12 (encodeVamer i).toNat

end Sys2Proof
end

