-- ==== Sys2Proof/Config.lean ====
section
/-! DEFINITION. What an implementation fixes and the spec leaves open: constants without a body, so that no proof can see
their value (log 6), and the figures of the part that the manual gives as constants. -/

namespace Sys2Proof

/-- A special function whose exact result lies strictly between two neighbouring FP32 values delivers the upper one when
this is true (R135: either neighbour is allowed). Operands: the function and the FP32 operand, for SIN and COS the fraction f of a
turn that R138 reduces it to. Log 7. -/
opaque Config.sfUp : SFun → Word32 → Bool

/-- A byte of an untagged frame read under another key than it was last written under (R361): the stored key, the
reader's key, the machine address and the 16 plaintext bytes of its block. Log 6. -/
opaque Config.crossKeyByte : Byte → Byte → Nat → List Byte → Byte

/-- The line that a full cluster L1 evicts, by the counter `fresh` (R192: any line, at any time). Log 6. -/
opaque Config.victim : Nat → Nat

/-- The C-die of a partition that serves a cellar read of a DMA engine, by the counter `fresh` (R195: the firmware chooses). Log 6. -/
opaque Config.servingDie : Nat → Nat

/-- Which of the values that its slot has held an ended anchor's register supplies (R298). Argument: the counter `fresh`. Log 6. -/
opaque Config.anchorPick : Nat → Nat

/-- An element of a tile whose MMA read an operand that was written early (R300). Argument: the counter `fresh`. Log 6. -/
opaque Config.freeTile : Nat → Word96

/-- A request at the home finds its line in the home cache (R194, R423). Argument: the counter `fresh`. Log 6. -/
opaque Config.homeHit : Nat → Bool

/-- A register whose value the spec leaves open: the destination of a dray load or AMO of poisoned bytes. Argument: the counter `fresh`. Log 6. -/
opaque Config.freeReg : Nat → Word32

/-- The ECC syndrome of a detected error (R435). Log 6. -/
opaque Config.syndrome : Nat → Word16

/-- Bytes of the firmware measurement, SHAKE256 of the image to 64 bytes (R448). Log 6. -/
opaque Config.measurement : Nat → Byte

/-- Bytes of the Ed448 signature of a byte string, and of the device's public key (R449, R450). Log 6. -/
opaque Config.ed448Sign : List Byte → Nat → Byte
opaque Config.ed448Public : Nat → Byte

/-- Bytes of SHAKE256 of a byte string (R450). Log 6. -/
opaque Config.shake256 : List Byte → Nat → Byte

/-- The context and the virtual base of the window that an endpoint exports to a Bolhar peer (R271, R273). Log 6. -/
opaque Config.exportWindow : Nat → Nat × Nat

/-- Bytes that a read of host memory returns where the model holds none, by host bus address. Log 11. -/
opaque Config.hostByte : Nat → Byte

/-- Bytes that a Bolhar peer supplies (R273). Argument: the counter `fresh`. Log 6. -/
opaque Config.peerByte : Nat → Byte

/-- Fabric router flits of a request at home, less one (R423). Argument: the counter `fresh`. Log 6. -/
opaque Config.fabricFlits : Nat → Nat

/-- The mode of a port in the shipped configuration record: 0 PCI Express, 1 CXL (R448). Log 6. -/
opaque Config.portMode : Nat → Nat

/-- Bytes of a core's scratchpad that lie in no allocation and that the host has not written (R190). Argument: the counter `fresh`. Log 6. -/
opaque Config.padByte : Nat → Byte

/-- Structures of a save area whose layout the spec leaves to the firmware (R414, R415). -/
inductive SaveSect where
  | header | coach | fibre | vector | pad | yoke | board | dray | context | directory | buffer
deriving DecidableEq, Repr, Inhabited

/-- Bytes of such a structure: what it holds, as numbers, and the byte's position. Log 14. -/
opaque Config.saveByte : SaveSect → List Nat → Nat → Byte

/-- Bytes of a dray image that cannot be read at placement (R285). Argument: the counter `fresh`. Log 6. -/
opaque Config.imageByte : Nat → Byte

end Sys2Proof
end

