-- ==== Sys2Proof/Machine/State.lean ====
section
/-! DEFINITION. The state of the GT-1 package as plain data, the reasons a step can stop, and the state after reset.
INVENTORY.md lists every field with the rule that names it. Clusters are numbered 12 × die + j and SIMT cores
4 × cluster + i over the whole package; contexts see relative numbers (R452). -/

namespace Sys2Proof.Machine

open Sys2Proof

/-! ### Sorted maps: keys strictly rising, an unlisted key reads as the default -/

abbrev SMap (α : Type) := List (Nat × α)

def mget {α : Type} : SMap α → Nat → Option α
  | [], _ => none
  | (a, v) :: t, k => if a = k then some v else mget t k

def mset {α : Type} : SMap α → Nat → α → SMap α
  | [], k, v => [(k, v)]
  | (a, w) :: t, k, v => if k < a then (k, v) :: (a, w) :: t else if k = a then (k, v) :: t else (a, w) :: mset t k v

def mdel {α : Type} (m : SMap α) (k : Nat) : SMap α := m.filter fun e => e.1 ≠ k

def mgetD {α : Type} (m : SMap α) (k : Nat) (d : α) : α := (mget m k).getD d

/-- Keys strictly rising. -/
def keysRise {α : Type} : SMap α → Bool
  | [] => true
  | [_] => true
  | (a, _) :: (b, w) :: t => a < b && keysRise ((b, w) :: t)

/-- A map whose default is `d`: no entry equals it. -/
def mput {α : Type} [DecidableEq α] (d : α) (m : SMap α) (k : Nat) (v : α) : SMap α :=
  if v = d then mdel m k else mset m k v

/-- Bytes by address; an unlisted address reads as 0 (log 1). -/
abbrev Memory := List Host.Cell

/-- The canonical form: addresses strictly rising, no entry equal to what an unlisted address reads as. -/
def Memory.wf (m : Memory) : Bool := keysRise m && m.all (fun c => c.2 ≠ 0)

def Memory.read (m : Memory) (a : Nat) : Byte := mgetD m a 0
def Memory.write (m : Memory) (a : Nat) (b : Byte) : Memory := mput 0 m a b

/-! ### Fibres, fragments, coaches (R139 to R152) -/

/-- What a report names (R366); LANES and identities are filled when it is written. -/
structure Report where
  pc : Word64
  aux : Word64
  cpa : Word64
  va : Word64
  lanes : Word32
  launch : Word32
  train : Word32
  seq : Word32
  queue : Word16
  ty : BitVec 4
  origin : BitVec 12
  depth : BitVec 4
  owner : BitVec 12
  code : Word16
  key : Byte
  engine : BitVec 4
  level : BitVec 4
  refault : Bool
  fmt : Bool
  reflected : Bool
  access : BitVec 3
  frag : Byte
  rank : Byte
deriving DecidableEq, Repr, Inhabited

/-- Why a fragment is parked (R146, R398). -/
inductive ParkWhy where
  | fault     -- page or grant fault with its own entry or report, or a dropped entry (R364, R407)
  | behind    -- behind a fault mark (R408): only REPLAY.ALL releases it
  | reflected -- a reflected trap (R398)
deriving DecidableEq, Repr, Inhabited

structure Park where
  why : ParkWhy
  /-- PC of the report that REPLAY names. -/
  rpc : Word64
  /-- Pages of the marks that the fragment is behind. -/
  pages : List Nat
deriving DecidableEq, Repr, Inhabited

/-- A trap: its code, the field identifier of R58 (0xFF if none) and the detail words of R404. -/
structure Trap where
  code : Word16
  field : Byte
  d0 : Word64
  d1 : Word64
deriving DecidableEq, Repr, Inhabited

/-- A kind-A trap that waits for a free frame slot: the trap, the instruction's address and its word (R400). -/
structure Due where
  trap : Trap
  tpc : Word64
  word : Word96
deriving DecidableEq, Repr, Inhabited

/-- What the cask unit must find in a cask for an operation to be accepted (R234). -/
inductive Need where
  | empty | gathering | full
deriving DecidableEq, Repr, Inhabited

/-- What an instruction that waits at issue waits for (R61). -/
inductive WaitOn where
  | cask (cluster : Nat) (needs : List (Nat × Need))
  /-- Room for a card of a depth (R326). -/
  | queue (q depth : Nat)
  | gate (g : Nat)
  /-- The gate that a take waited on has been deleted (R385). -/
  | gateGone
  | slots (core : Nat)
  /-- SJOIN on a level (R338). -/
  | sjoin (level : Nat)
  | frames
  | other
deriving DecidableEq, Repr, Inhabited

/-- What releases with a rejoin: RCV.WAIT, its regrouping form with its V register, or a lane exchange (R163, R164, R171). -/
inductive JoinKind where
  | plain
  | regroup (v : BitVec 9)
  | exchange
deriving DecidableEq, Repr, Inhabited

/-- An arrival at a rejoin: the mask supplied, and whether the rejoin has released (R147). -/
structure Join where
  mask : Word32
  kind : JoinKind
  released : Bool
deriving DecidableEq, Repr, Inhabited

/-- An HCALL that has issued and waits for its answer (R395): its number, destination, lanes and word. -/
structure HWait where
  seq : Nat
  dst : Operand
  lanes : Word32
  word : Word96
deriving DecidableEq, Repr, Inhabited

structure Frag where
  mask : Word32
  pc : Word64
  /-- The fragment it was split from, if a split formed it (R401). -/
  pfrag : Option Nat
  park : Option Park
  /-- The wait of its next instruction, with its number in the order in which waits began (R233, R326, R381). -/
  wait : Option (Nat × WaitOn)
  /-- Deadline of a timed wait that has begun (R247). -/
  deadline : Option Nat
  /-- NAP deadline (R166). -/
  nap : Option Nat
  /-- Arrived at the rejoin at `pc` (R147). -/
  joined : Option Join
  /-- The token of a BAR or GBAR on which the fragment waits (R246, R248): launch-wide, barrier, token, scope. -/
  bar : Option (Bool × Nat × Word32 × Scope)
  /-- The HCALL that the fragment waits for (R395). -/
  hcall : Option HWait
  /-- Set by REPLAY: the next attempt walks afresh and ignores marks (R410). -/
  replay : Bool
  /-- A trap that the fragment takes before its next instruction. -/
  due : Option Due
  /-- cc for which the fragment has been eligible without issuing (R150). -/
  age : Nat
deriving DecidableEq, Repr, Inhabited

/-- A live fibre in its lane slot (R139, R50, R243, R410). -/
structure Lane where
  fid : Word32
  preds : BitVec 15
  rfc : BitVec 4
  /-- Arrived bits of b0 to b15, and of the launch-wide barrier in bit 16. -/
  arrived : BitVec 17
  v : SMap Word32
  /-- Vector registers that an uncorrectable error has poisoned (R197). -/
  bad : List Nat
deriving DecidableEq, Repr, Inhabited

/-- Where a load reads from. -/
inductive Loc where
  /-- Machine address through the L1 of a cluster, plain or bypass, under a key (R192, R361). -/
  | glob (cluster ma : Nat) (bypass : Bool) (key : Byte)
  /-- Byte offset in the allocation of a train's core rank. -/
  | scr (train rank off : Nat)
  /-- Byte offset in the cellar that a die holds (R195). -/
  | cellar (die off : Nat)
  /-- The old value that an atomic has delivered, once it has. -/
  | val (x : Option Word64)
  /-- The location of an atomic is poisoned (R198). -/
  | bad
deriving DecidableEq, Repr, Inhabited

/-- An instruction of a fragment whose register writes are pending (R59, R404). -/
structure Pend where
  id : Nat
  word : Word96
  pc : Word64
  dst : Operand
  bytes : Nat
  sx : Bool
  /-- The lane whose value an S destination takes (R45). -/
  first : Nat
  /-- Lanes whose writes have not arrived, with the location each reads; 32 is added to a lane whose fibre has ended while a
  uniform register or nothing waits for its reply. -/
  reads : List (Nat × Loc)
  /-- A write destined for v0 to v3 lands in this frame slot (R404). -/
  frame : Option Nat
  /-- DISCARD took effect (R406). -/
  drop : Bool
  /-- Lanes that have read poisoned bytes (R198). -/
  bad : Word32
deriving DecidableEq, Repr, Inhabited

/-- One replay-queue entry of a frame (R404). -/
structure RqEntry where
  id : Nat
  word : Word96
  pc : Word64
  landed : Bool
  discard : Bool
  inframe : Bool
  lanes : Word32
deriving DecidableEq, Repr, Inhabited

/-- A trap frame (R403). -/
structure Frame where
  tpc : Word64
  rpc : Word64
  word : Word96
  lanes : Word32
  code : Word16
  field : Byte
  frag : Byte
  pfrag : Byte
  sibs : Word32
  detail0 : Word64
  detail1 : Word64
  /-- Predicate words, by lane. -/
  preds : SMap Word16
  rq : List RqEntry
  /-- DISCARD bits of the replay entries that are not in use (R403). -/
  spare : Word16
  /-- v0 to v3 of lane L at 4 L + i. -/
  savedv : SMap Word32
deriving DecidableEq, Repr, Inhabited

/-- A lane that passed a rejoin with its guard false (R147): the instruction's address, and the masks whose rejoins there have released
with it (log 86). -/
structure Pass where
  pc : Word64
  lane : Nat
  used : List Word32
deriving DecidableEq, Repr, Inhabited

/-- A coach, or the one-lane spine of a train (R13, R178). -/
structure Coach where
  gen : Word32
  step : Bool
  sregs : SMap Word32
  /-- Uniform registers that an uncorrectable error has poisoned (R197). -/
  sbad : List Nat
  /-- Fragments by %frag. -/
  frags : SMap Frag
  /-- Live fibres by lane. -/
  lanes : SMap Lane
  pend : List Pend
  /-- Frames held, by frame slot of the core or spine (R400). -/
  frames : SMap Frame
  passed : List Pass
  /-- Return-address predictor of the spine, newest first (R179). -/
  ras : List Word64
  /-- Vector registers that the fibre that last ended in a lane slot left there (R298). -/
  left : SMap (SMap Word32)
deriving DecidableEq, Repr, Inhabited

/-! ### Trains -/

structure Barrier where
  ph : Word32
  cnt : Nat
  narr : Nat
deriving DecidableEq, Repr, Inhabited

/-- What the operand latch of a matrix unit holds for a train (R295): FA and the 16 row offsets, with the bytes latched at
each row and the offset of the block scales of contiguous rows. -/
structure Latch where
  fa : MFmt
  offs : List Nat
  bytes : Nat
  scales : Option Nat
deriving DecidableEq, Repr, Inhabited

/-- A yoke of a core rank (R253, R296). -/
structure Yoke where
  /-- Declared count; 0 is undeclared. -/
  count : Nat
  /-- Signers of the unissued MMA by %fid, each with the register values that it held when it signed (R300). -/
  signed : SMap (List Word32)
  /-- Address of the MMA that is being signed, and its tile. -/
  addr : Word64
  tile : Nat
  /-- Coach and lane of the signer with the lowest %fid (R298). -/
  anchor : Nat × Nat
  /-- V registers of the scalar operands, each with the values that the anchor's slot has held since the anchor ended (R298). -/
  past : SMap (List Word32)
  /-- Scratchpad ranges that signers have written since they signed (R300). -/
  writes : List (Nat × Nat)
deriving DecidableEq, Repr, Inhabited

/-- An MMA that has issued and that the matrix unit has received (R298, R299), with its register operands. -/
structure MmaRec where
  m : MmaMod
  tile : Nat
  /-- Scratchpad offsets of the 16 rows of A, and the offset of their block scales when A is contiguous. -/
  rows : List Nat
  aScales : Option Nat
  /-- Offset of B, in the cellar or the scratchpad. -/
  bo : Nat
  cellar : Bool
  rowScale : List Word32
  tileScale : Word32
  /-- A value failed R291 when it was checked again at issue (R299). -/
  bad : Bool
  /-- Such a value is no slot's whose fibre has ended, so that the MMA counts in CNT_MMABAD (R298, R299). -/
  counts : Bool
  /-- ADROP has taken its tile away (R307). -/
  drop : Bool
  /-- An operand was written early (R300). -/
  early : Bool
  /-- RET 01: A stays in the operand latch (R295). -/
  keep : Bool
  /-- Acceptances on the core's copy engine before it issued. -/
  copies : Nat
deriving DecidableEq, Repr, Inhabited

/-- A dray's machine state (R283, R285). -/
structure Dray where
  pc : Word32
  x : SMap Word32
  mtvec : Word32
  mscratch : Word32
  mepc : Word32
  mcause : Word32
  mtval : Word32
  minstret : Nat
  /-- cc count of its die at placement. -/
  cycBase : Nat
  drth : Word32
  priv : Memory
  store : Memory
  halted : Bool
  wait : Option (Nat × WaitOn)
deriving DecidableEq, Repr, Inhabited

/-- An entry of the range scoreboard that is saved with a train: rank, engine slot and hull (R269, R415). -/
structure SavedHull where
  rank : Nat
  slot : Nat
  lo : Nat
  hi : Nat
deriving DecidableEq, Repr, Inhabited

inductive Residence where
  | resident
  | stopped    -- saved, to be restored when its context runs (R413)
  | suspended  -- SJOIN (R338)
deriving DecidableEq, Repr, Inhabited

structure Train where
  ctx : Nat
  queue : Word16
  launch : Word32
  graph : Word32
  phase : Word32
  job : Word32
  argbase : Word64
  first : Word32
  count : Word32
  num : Word32
  nest : Nat
  /-- Command sequence number: the publication number of the card. -/
  pub : Nat
  /-- Records claimed, with QCLAIM chunks (R317). -/
  claimed : Nat
  entry : Word64
  window : Nat
  scratch : Nat
  acc : Nat
  yokes : Nat
  nfib : Nat
  ncoach : Nat
  gbar : Bool
  /-- Cores by rank (absolute numbers); kept while the train is saved as the ranks of its image. -/
  cores : List Nat
  /-- Rank of each coach. -/
  rankOf : List Nat
  /-- Scratchpad base by rank. -/
  sbase : List Nat
  coaches : SMap Coach
  spined : Bool
  spine : Option Coach
  /-- Cluster of the spine. -/
  spineCl : Nat
  fidNext : Nat
  bars : SMap Barrier
  /-- Ordered channels open: 8 × M-die + n (R216). -/
  och : List Nat
  /-- Scratchpad bytes, tiles and yokes by rank. -/
  scr : SMap Memory
  scrPoison : SMap (List Nat)
  /-- Element 256 × tile + 16 m + n by rank. -/
  tiles : SMap (SMap Word96)
  tilePoison : SMap (List Nat)
  yk : SMap (SMap Yoke)
  /-- MMAs received and not yet performed, by rank, oldest first. -/
  mmas : SMap (List MmaRec)
  /-- The operand latch of each rank's matrix unit, while it is this train's and valid. -/
  latch : SMap Latch
  /-- Drays: 2 × rank + hart. -/
  drays : SMap Dray
  dimg : List (Word64 × Nat)
  res : Residence
  /-- Suspended, and a level on which one of its fragments waits has reached 0 (R338). -/
  ready : Bool
  /-- Order of placement on its cores (R150). -/
  placed : Nat
  /-- Held by a kind-Q trap or a command break, with the report's PC (R399, R433). -/
  held : Bool
  /-- Faults of copies to be taken at restore (R269). -/
  lateFaults : List Report
  /-- Directory entry and offset of each rank's image in the context's save area, while the train is saved (R414). -/
  img : List (Nat × Nat)
  /-- The images hold what the train holds (R413, R269). -/
  saved : Bool
  board : List SavedHull
deriving DecidableEq, Repr, Inhabited

/-! ### Clusters and cores -/

/-- One word of a cluster L1 (R191). -/
structure L1Word where
  val : Word32
  owned : Bool
  dirty : BitVec 4
  poison : BitVec 4
  /-- The context whose store last dirtied it; its write-back is a request of that context (R370). -/
  ctx : Nat
deriving DecidableEq, Repr, Inhabited

/-- A cask (R231). -/
structure Cask where
  value : Word64
  f : Bool
  g : Bool
  gop : GOp
  pend : Nat
  rc : Nat
  /-- It holds poisoned bytes (R198). -/
  poison : Bool
deriving DecidableEq, Repr, Inhabited

/-- A cached translation of one 64 KiB page (R183, R363). -/
structure Tlb where
  ctx : Nat
  vpn : Nat
  cpage : Nat
  mpage : Nat
  r : Bool
  w : Bool
  x : Bool
  key : Byte
  /-- Writes and fetches that the composite map permits (R360). -/
  gw : Bool
  gx : Bool
deriving DecidableEq, Repr, Inhabited

/-- A fault mark (R408): context, page, and the context-physical addresses that its walk read and reached (R363). -/
structure Mark where
  ctx : Nat
  vpn : Nat
  cps : List Nat
deriving DecidableEq, Repr, Inhabited

structure Cluster where
  l1 : SMap L1Word
  casks : SMap Cask
  /-- Bytes that the instruction caches hold, by 2^55 × context + virtual address (log 12). -/
  icache : SMap Byte
  tlb : List Tlb
  marks : List Mark
deriving DecidableEq, Repr, Inhabited

/-- A bind record (R333). -/
structure Bind where
  valid : Bool
  ctx : BitVec 12
  queue : Word16
  slice : BitVec 24
  gen : Byte
deriving DecidableEq, Repr, Inhabited

/-- A copy descriptor (R258). -/
structure Desc where
  kind : BitVec 3
  xe : Bool
  ls : Bool
  kr : Bool
  rank : BitVec 4
  mb : Word32
  ds3 : Word32
  ss3 : Word32
  ds2 : Word32
  ss2 : Word32
  ds1 : Word32
  ss1 : Word32
  n3 : Word16
  n2 : Word16
  n1 : Word16
  x0 : Word32
  dst : Word64
  src : Word64
  /-- A reserved field is not zero (reason 0x7). -/
  rsvd : Bool
deriving DecidableEq, Repr, Inhabited

/-- The work of an engine slot: a copy or package-boundary request, or a request list (R257, R270). -/
inductive Work where
  | copy (d : Desc)
  | list (off cnt next : Nat) (xl : Bool)
deriving DecidableEq, Repr, Inhabited

structure Slot where
  work : Work
  train : Nat
  ctx : Nat
  rank : Nat
  /-- Order of acceptance on the engine. -/
  seq : Nat
  /-- Chunks of the loop order of R260 below this one have been performed; so have those of `ahead`, ascending. -/
  done : Nat
  ahead : List Nat
  /-- Bytes counted on the barrier object. -/
  counted : Nat
  /-- Chunks that the remote side has acknowledged (R273). -/
  acked : Nat
  /-- Entry of a list: the list's slot number and the index; none for a single copy. -/
  entry : Option (Nat × Nat)
  xl : Bool
  /-- Held at a faulting chunk until REPLAY.ALL (R266). -/
  fault : Bool
  refault : Bool
deriving DecidableEq, Repr, Inhabited

/-- The operand buffer of a port (R40): the fragment, the field and the register it names, with the values read, by lane. -/
structure Kept where
  frag : FragRef
  field : Field
  op : Operand
  bits : Nat
  vals : List (Nat × Nat)
deriving DecidableEq, Repr

/-- An issue port (R40, R150). -/
structure Port where
  last : Option FragRef
  /-- Where the fragment that issued last stood in the port order. -/
  pos : List Nat
  /-- Instructions of the run of consecutive issues; 0 once the run has ended. -/
  run : Nat
  kept : Option Kept
deriving DecidableEq, Repr, Inhabited

structure Core where
  tlb : List Tlb
  bind : Bind
  skip : Nat
  cls : Nat
  slots : SMap Slot
  slotSeq : Nat
  kick : Word32
  /-- Context whose slice it is, and the rt at which it ends (R371). -/
  slice : Option (Nat × Option Nat)
  /-- Queue last claimed from, by soft context (R453). -/
  lastQ : SMap Nat
  /-- The fragment that issued most recently (R434). -/
  last : Option FragRef
  /-- Scratchpad bytes outside every allocation that came through its window (R190). -/
  pad : SMap Byte
deriving DecidableEq, Repr, Inhabited

/-! ### Queues and levels (R315 to R340) -/

/-- A job card (R320). -/
structure Card where
  entry : Word64
  spentry : Word64
  argbase : Word64
  argsize : Word32
  argcount : Word32
  minchunk : Word16
  divisor : Byte
  fixed : Bool
  gbar : Bool
  vchk : Bool
  kind : BitVec 2
  claimers : Word16
  coaches : Word16
  window : Word16
  scratch : Word32
  acc : Byte
  yokes : Byte
  launch : Word32
  graph : Word32
  phase : Word32
  job : Word32
  after0 : Word32
  after1 : Word32
  expvint : Word32
  nest : Byte
  d0img : Word64
  d1img : Word64
  d0len : Word32
  d1len : Word32
  /-- A reserved field is not zero. -/
  rsvd : Bool
deriving DecidableEq, Repr, Inhabited

inductive CardSt where
  | reserved (train : Nat)
  | admitting
  | wait
  | ready
  | filling
  | gone
deriving DecidableEq, Repr, Inhabited

structure QCard where
  card : Card
  /-- The context that enqueued it. -/
  ctx : Nat
  st : CardSt
  left : Nat
  claims : Nat
  pub : Nat
deriving DecidableEq, Repr, Inhabited

structure Queue where
  en : Bool
  size : BitVec 4
  group : Byte
  owner : BitVec 12
  ringl : Word32
  ringh : Word32
  head : Word32
  tail : Word32
  ring : SMap QCard
  rsv : SMap QCard
  pubs : Nat
deriving DecidableEq, Repr, Inhabited

/-- A held level record (R316). -/
structure Level where
  count : Word32
  up : Word32
  cancel : Bool
  code : Byte
  /-- The context whose record's write-back waits for the frame's key (R362). -/
  back : Option Nat
deriving DecidableEq, Repr, Inhabited

/-- The launch-wide barrier of a flagged launch: its phase and the trains that have arrived (R248). -/
structure LBar where
  ph : Word32
  arrived : List Nat
deriving DecidableEq, Repr, Inhabited

/-- A cellar fill that has started (R340). -/
structure Fill where
  queue : Nat
  place : Place
  ctx : Nat
  card : Card
deriving DecidableEq, Repr, Inhabited

/-! ### Contexts and gates (R352 to R395) -/

inductive CtxSt where
  | created | running | stopping | stopped | migrating
deriving DecidableEq, Repr, Inhabited

/-- A grant-map entry (R359). -/
structure Grant where
  base : Nat
  target : Nat
  pages : Nat
  wr : Bool
  nx : Bool
  shared : Bool
deriving DecidableEq, Repr, Inhabited

structure BucketSt where
  rate : Nat
  depth : Nat
  tok : Nat
deriving DecidableEq, Repr, Inhabited

/-- A fault buffer (R407, R412). -/
structure FaultBuf where
  die : Nat
  /-- Entries, oldest first, each with the cluster whose mark it belongs to. -/
  entries : List (Nat × Report)
  dropped : Bool
  drops : Nat
  written : Nat
deriving DecidableEq, Repr, Inhabited

/-- System registers of a context that are its own (R420). -/
structure SysRegs where
  tvec : Word64
  drainDl : Word32
  bkq : Word32
  bkseq : Word32
  trbase : Word64
  trlen : Word32
  trptr : Word32
  tsctl : Word32
  tsbase : Word64
  tslen : Word32
  tsptr : Word32
  cntPol : Word32
  lost : Word32
  cntSel : SMap Word32
  cntVal : SMap (BitVec 48)
  cntOvf : List Nat
  clamps : BitVec 48
  deny : BitVec 48
  mmabad : BitVec 48
  whit : Word64
  wlanes : Word32
  /-- Values latched at the multiples of 2^k rt, newest first, by 32 × counter + k (R425). -/
  latched : SMap (List (BitVec 48))
  hiLatch : Word32
  hiReg : Option Nat
deriving DecidableEq, Repr, Inhabited

/-- A watch range (R432). -/
structure Watch where
  addr : Word64
  len : Nat
  r : Bool
  w : Bool
deriving DecidableEq, Repr, Inhabited

/-- A CTX.STOP, CTX.REVOKE or migration under way on a context (R372 to R377). -/
inductive OpKind where
  | stopNow | stopDrain | stopReset | revoke (all drain : Bool) (desc : List Word64) | migrate | assert
deriving DecidableEq, Repr, Inhabited

structure CtxOp where
  kind : OpKind
  issuer : Nat
  ticket : Nat
  deadline : Option Nat
  /-- Trains that the operation stops. -/
  trains : List Nat
  /-- State before the operation began. -/
  was : CtxSt
deriving DecidableEq, Repr, Inhabited

/-- An endpoint of a context's table (R271, R445). -/
structure Endpoint where
  port : Nat
  peer : Word64
  peerEp : Word64
  /-- The number under which the parent names it (R356). -/
  src : Nat
  err : Byte
deriving DecidableEq, Repr, Inhabited

structure Ctx where
  parent : Nat
  depth : Nat
  st : CtxSt
  s1root : Option Nat
  lvbase : Nat
  lvlen : Nat
  fqbase : Option Nat
  fqsize : Nat
  fqcard : Word64
  fqqueue : Word16
  save : Nat
  savelen : Nat
  /-- The core of each core region of the save area, in order (R414). -/
  regions : List Nat
  reflect : Word32
  gmap : List Grant
  /-- Die position, relative cluster and relative core to the physical unit (R452). -/
  dies : SMap Nat
  clusters : SMap Nat
  cores : SMap Nat
  /-- Slice of each CORES grant, by physical core (R356). -/
  slices : SMap Nat
  /-- Cask base and count by physical cluster (R232). -/
  casks : SMap (Nat × Nat)
  keys : List Nat
  endpoints : SMap Endpoint
  engines : Nat
  time : BucketSt
  mem : BucketSt
  ext : BucketSt
  /-- Operations counted for tickets, and the ticket last completed (R388, R436). -/
  ticket : Nat
  tickDone : Nat
  op : Option CtxOp
  fqTail : Nat
  /-- Reports waiting for room (R365). -/
  fqWait : List Report
  fqNotify : Bool
  bufs : List FaultBuf
  hcallSeq : Nat
  /-- HCALL answers not yet taken, by sequence number. -/
  answers : SMap Word64
  /-- Numbers of the waiting HCALLs by the SEQ of their reports. -/
  hcalls : SMap Nat
  /-- Addresses whose key conflict has been reported (R362). -/
  conflicts : List Nat
  sys : SysRegs
  watch : SMap Watch
deriving DecidableEq, Repr, Inhabited

structure AclEntry where
  ctx : Nat
  post : Bool
  take : Bool
deriving DecidableEq, Repr, Inhabited

/-- A gate (R378). -/
structure Gate where
  owner : Nat
  acl : List AclEntry
  rwin : Nat
  rlim : Nat
  /-- Window number and accepted posts, by poster. -/
  counts : SMap (Nat × Nat)
  values : List Word64
  /-- Machine ranges: start and length. -/
  window : List (Nat × Nat)
  frozen : Bool
deriving DecidableEq, Repr, Inhabited

/-- What a migration moves (R377): the contexts of the subtree, the top one first in `top`, their queues, and the gates owned in
it, each with its window as ranges of its owner's space. -/
structure Moved where
  top : Nat
  ctxs : SMap Ctx
  queues : SMap Queue
  gates : SMap Gate
  /-- Held level records: context, identifier, record. -/
  levels : List (Nat × Nat × Level)
deriving DecidableEq, Repr, Inhabited

/-- The bytes of a migration buffer, whose layout the spec leaves to the firmware (R445), and what bytes that another package wrote
stand for; bytes that this one wrote are known by `HostSide.images` (log 27). -/
opaque migEncode : Moved → List Byte
opaque migDecode : List Byte → Option Moved

/-! ### Host interface (R435 to R451) -/

/-- A mailbox (R444). -/
structure Mbox where
  op : Byte
  tag : Word16
  busy : Bool
  orun : Bool
  rtag : Word16
  res : Word32
  arg0 : Word64
  arg1 : Word64
  arg2 : Word64
  arg3 : Word64
  /-- RES that completion will write. -/
  next : Word32
  /-- Wait number and deadline of an ENQUEUE that waits for room (R447). -/
  wait : Option (Nat × Nat)
  /-- Units of 16 bytes that an HCOPY has moved; 1 once a migration has begun. -/
  done : Nat
  /-- The command has been performed; completion is still to be signalled. -/
  ended : Bool
deriving DecidableEq, Repr, Inhabited

/-- The configuration record in boot flash (R448). -/
structure BootRec where
  serial : Word64
  /-- By X-die: 0 PCI Express, 1 CXL. -/
  portModes : SMap Nat
  /-- Steps of 1/32 by which the clock ceiling lies below 1.05 GHz. -/
  clockSteps : Nat
  powerCeil : Nat
  thr : List Nat
  sigOk : Bool
deriving DecidableEq, Repr, Inhabited

/-- Bytes of a configuration record in flash, whose layout the spec does not give (R448, R450; log 6). -/
opaque recordBytes : BootRec → List Byte

/-- The error ring and its counters (R435). -/
structure ErrRing where
  base : Option Nat
  bytes : Nat
  vector : Nat
  head : Word32
  tail : Word32
  /-- Corrected and uncorrected errors, by (65,536 × DKIND + DIE) × 65,536 + STRUCT. -/
  counts : SMap (Nat × Nat)
  /-- Period, host address and COUNT of the last record of a corrected error, by the same key. -/
  recent : SMap (Nat × Nat × Nat)
deriving DecidableEq, Repr, Inhabited

structure HostSide where
  boot : Nat
  /-- What this package has written into migration buffers, newest first (log 27). -/
  images : List Moved
  mbox : SMap Mbox
  /-- Mailboxes whose commands wait, in the order in which they reached the management core (R444). -/
  mq : List Nat
  config : BootRec
  /-- Context bound to a function, by 65,536 × X-die + function (R440). -/
  vf : SMap Nat
  rootVec : Option Nat
  /-- MSI-X messages sent: function and vector, oldest first. -/
  msix : List (Nat × Nat)
  err : ErrRing
  hdm : SMap (Nat × Nat)
  retired : List Nat
  /-- Host power limit in watts; 0 for none. -/
  powerLimit : Nat
  heldVolt : Bool
  links : SMap Bool
  pcie : SMap (Nat × Bool)
  /-- Host bus bytes that the device has written or the host supplied (log 11). -/
  mem : SMap Byte
  /-- Host bus bytes that carry a poison mark (R197). -/
  memBad : List Nat
  /-- Host writes in flight through CXL.mem: address and byte (R202). -/
  cxlIn : List (Nat × Byte)
  /-- Lines whose back-invalidation is outstanding (R202). -/
  backInv : List Nat
  /-- Error completions logged: machine address (R22). -/
  errComp : List Nat
  /-- Bytes last returned to a host or peer read. -/
  reply : List Byte
  /-- A byte of it is poisoned (R197). -/
  replyBad : Bool
  /-- Requests refused with an MMIO error are counted here. -/
  rsvw : BitVec 48
deriving DecidableEq, Repr, Inhabited

/-! ### The package -/

/-- The agent that issues (R139, R283). -/
inductive Agent where
  | frag (f : FragRef)
  | dray (train rank hart : Nat)
deriving DecidableEq, Repr, Inhabited

/-- What happens next (log 3): an agent issues, its accesses performed at once or left pending; an event; or one rt
passes. -/
inductive Turn where
  | issue (a : Agent) (defer : Bool)
  | event (i : Instr) (e : Ev)
  | tick
deriving DecidableEq, Repr

/-- The arithmetic clock of a C-die: cc counted, in units of 1/64 cc, up to the rt `since`, and its slow-down (R451). -/
structure DieClock where
  base : Nat
  since : Nat
  steps : Nat
deriving DecidableEq, Repr, Inhabited

/-- A store on its way to the home (R192, R200). -/
structure PStore where
  id : Nat
  who : Agent
  cluster : Nat
  ma : Nat
  bytes : List Byte
  key : Byte
  /-- The registration of a word of a plain store that the L1 already holds. -/
  reg : Bool
  chan : Option Nat
  /-- Bytes are poisoned. -/
  poison : Bool
  /-- The number of the first store of its line in its instruction, whose request it shares (R182). -/
  grp : Nat
  lane : Nat
deriving DecidableEq, Repr, Inhabited

/-- An atomic step queued at its home (R220, R221). -/
structure AStep where
  id : Nat
  who : Agent
  cluster : Nat
  ma : Nat
  w64 : Bool
  key : Byte
  op : AOp
  /-- Compare value of ATOMC. -/
  cmp : Option Word64
  arg : Word64
  lane : Nat
  /-- The number of the first step of its line in its instruction, whose request it shares (R182). -/
  grp : Nat
  /-- Pending write that receives the old value. -/
  reply : Option Nat
  pc : Word64
  word : Word96
deriving DecidableEq, Repr, Inhabited

/-- What falls due at an rt and has not happened yet (R368, R425, R428). -/
inductive Timer where
  | refill
  /-- A context's series record as latched at its tick. -/
  | series (ctx : Nat) (record : List Byte)
  /-- The time of a policy tick and a context's counters at it. -/
  | policy (ctx t : Nat) (vals : SMap (BitVec 48))
deriving DecidableEq, Repr, Inhabited

structure State where
  /-- Turns to come, the agent in turn and its options, the event in turn (log 3, 5). -/
  agenda : List Turn
  cur : Option Agent
  defer : Bool
  /-- The instruction in turn waits at issue (R61). -/
  stalled : Bool
  ev : Ev
  /-- Instructions issued since the last rt when the agenda is empty (log 4). -/
  beat : Nat
  /-- Counter of free values (log 6), of pending accesses and of waits. -/
  fresh : Nat
  nextId : Nat
  waitSeq : Nat
  rtime : Nat
  timers : List Timer
  clocks : SMap DieClock
  /-- Counts of the units of R423 for the root's series (R428): 65,536 × event code + unit. -/
  units : SMap (BitVec 48)
  /-- Offset of each C-die's refresh sequence at reset, in rt, 0 to 12,799 (log 2). -/
  crefPhase : SMap Nat
  /-- HBM4 at home by machine address, its poison, its frames' key tags, the key under which a block of 16
  bytes is stored (by address ÷ 16; an unlisted one under key 0), ownership of words. -/
  mem : Memory
  poison : List Nat
  tags : SMap Byte
  enc : SMap Byte
  owner : SMap Nat
  stores : List PStore
  steps : List AStep
  /-- Cellar contents and vintage by depth-1 context, 0 for the root (R15, R339); poison by C-die (R435). -/
  cellar : SMap Memory
  cellarPoison : SMap (List Nat)
  vintage : SMap Nat
  clusters : SMap Cluster
  cores : SMap Core
  ports : SMap Port
  trains : SMap Train
  trainNext : Nat
  placeSeq : Nat
  queues : SMap Queue
  levels : SMap Level
  /-- By 2^32 × queue + publication number of the launch's card. -/
  lbars : SMap LBar
  fills : SMap Fill
  /-- Dispatcher pointers by C-die, queue and context (R335, R453). -/
  pointers : SMap Nat
  ctxs : SMap Ctx
  gates : SMap Gate
  host : HostSide
deriving DecidableEq, Repr

/-! ### Reasons to stop -/

/-- Stops of the model; the spec's own traps are next states. -/
inductive Fault where
  /-- Raised by a Vamer or dray meaning when no agent of its kind is in turn (log 3). Safe: the machine has no such
  step. -/
  | noIssuer
deriving DecidableEq, Repr

inductive Refusal where
  /-- Raised by an arm of `exec` whose instruction has no meaning yet. Safe: the model stops. -/
  | notModelled (mnemonic : String)
deriving DecidableEq, Repr

/-! ### Reset -/

def FragRef.none' : FragRef := ⟨0, .spine, 0⟩

def Ev.none : Ev where
  i := 0
  j := 0
  k := 0
  l := 0
  p := false
  x := 0
  frag := FragRef.none'
  cs := []
  place := .ring 0
  acc := .none
  bucket := .time
  qreg := .cfg
  bytes := []

def Cluster.init : Cluster := ⟨[], [], [], [], []⟩
/-- An empty cask (R231, R232). -/
def Cask.init : Cask := ⟨0, false, false, .add, 0, 0, false⟩
/-- Reset values of a bind record (R333). -/
def Bind.init : Bind := ⟨false, 0xFFF, 0, 0, 0⟩
def Core.init : Core := ⟨[], Bind.init, 0, 0, [], 0, 0, none, [], none, []⟩
def Port.init : Port := ⟨none, [], 0, none⟩
def DieClock.init : DieClock := ⟨0, 0, 0⟩
/-- Reset values of queue `q`'s registers (R324). -/
def Queue.init (q : Nat) : Queue := ⟨false, 0, 0, 0xFFF, 0, BitVec.ofNat 32 (0x100 * (q % 4)), 0, 0, [], [], 0⟩
def Level.init : Level := ⟨0, 0, false, 0, none⟩
/-- Reset values of the system registers (R420). -/
def SysRegs.init : SysRegs where
  tvec := 0
  drainDl := 1000000
  bkq := 0
  bkseq := 0
  trbase := 0
  trlen := 0
  trptr := 0
  tsctl := 0
  tsbase := 0
  tslen := 0
  tsptr := 0
  cntPol := 0
  lost := 0
  cntSel := []
  cntVal := []
  cntOvf := []
  clamps := 0
  deny := 0
  mmabad := 0
  whit := 0
  wlanes := 0
  latched := []
  hiLatch := 0
  hiReg := none

def countUp (n : Nat) : List Nat := List.range n

/-- The root as the firmware makes it (R30, R232, R362, R368, R452); what ROOTCTX and ROOTFQ set is not set yet (log 16). -/
def Ctx.root : Ctx where
  parent := 0
  depth := 0
  st := .running
  s1root := none
  lvbase := 0
  lvlen := 0
  fqbase := none
  fqsize := 0
  fqcard := 0
  fqqueue := 0
  save := 0
  savelen := 0
  reflect := 0
  gmap := []
  dies := (countUp 16).map fun d => (d, d)
  clusters := []
  cores := []
  slices := []
  casks := []
  keys := []
  endpoints := []
  engines := 16
  time := ⟨786432, 0, 0⟩
  mem := ⟨983040, 0, 0⟩
  ext := ⟨65536, 0, 0⟩
  ticket := 0
  tickDone := 0
  op := none
  fqTail := 0
  fqWait := []
  fqNotify := false
  bufs := (countUp 16).map fun d => ⟨d, [], false, 0, 0⟩
  hcallSeq := 0
  answers := []
  hcalls := []
  conflicts := []
  sys := SysRegs.init
  watch := []
  regions := []

def Mbox.init : Mbox := ⟨0, 0, false, false, 0, 0, 0, 0, 0, 0, 0, none, 0, false⟩

/-- The record that ships with the module (R448); its serial number is DESIGN CHOICE 0 (log 22). -/
def BootRec.init : BootRec := ⟨0, [], 0, 3400, [85, 95, 105, 30, 50, 70], true⟩

def HostSide.init : HostSide where
  boot := 0
  images := []
  mbox := []
  mq := []
  config := BootRec.init
  vf := []
  rootVec := none
  msix := []
  err := ⟨none, 0, 0, 0, 0, [], []⟩
  hdm := []
  retired := []
  powerLimit := 0
  heldVolt := false
  links := []
  pcie := []
  mem := []
  memBad := []
  cxlIn := []
  backInv := []
  errComp := []
  reply := []
  replyBad := false
  rsvw := 0

/-- The package right after reset: nothing resident, nothing listed in memory, XMB_BOOT STATE 0 (R448). -/
def State.reset : State where
  agenda := []
  cur := none
  defer := false
  stalled := false
  ev := Ev.none
  beat := 0
  fresh := 0
  nextId := 0
  waitSeq := 0
  rtime := 0
  timers := []
  clocks := []
  units := []
  crefPhase := []
  mem := []
  poison := []
  tags := []
  enc := []
  owner := []
  stores := []
  steps := []
  cellar := []
  cellarPoison := []
  vintage := []
  clusters := []
  cores := []
  ports := []
  trains := []
  trainNext := 0
  placeSeq := 0
  queues := []
  levels := []
  lbars := []
  fills := []
  pointers := []
  ctxs := [(0, Ctx.root)]
  gates := []
  host := HostSide.init

end Sys2Proof.Machine
end

