-- ==== Sys2Proof/Machine/Bits.lean ====
section
/-! DEFINITION. Bit, byte-order and list helpers of the meanings (R2, R20, R65). -/

namespace Sys2Proof.Machine

open Sys2Proof

/-- Bits `lo` to `lo + n - 1` of a number. -/
def nbits (x lo n : Nat) : Nat := x / 2 ^ lo % 2 ^ n
def nbit (x i : Nat) : Bool := x.testBit i

/-- Signed value of an N-bit pattern. -/
def sval (n x : Nat) : Int := if nbit x (n - 1) then (x % 2 ^ n : Nat) - (2 ^ n : Nat) else (x % 2 ^ n : Nat)
/-- N-bit pattern of an integer. -/
def pat (n : Nat) (i : Int) : Nat := (i % (2 ^ n : Nat)).toNat

def w32 (n : Nat) : Word32 := BitVec.ofNat 32 n
def w64 (n : Nat) : Word64 := BitVec.ofNat 64 n

/-- Sign-extend an n-bit pattern to 64 bits. -/
def sext64 (n x : Nat) : Word64 := w64 (pat 64 (sval n x))

/-- Little-endian value of bytes, lowest address first (R2). -/
def leVal : List Byte → Nat
  | [] => 0
  | b :: t => b.toNat + 256 * leVal t

/-- A 64-bit address is canonical (R20). -/
def canonical (a : Nat) : Bool := nbits a 54 10 = 0 || nbits a 54 10 = 0x3FF
/-- The 55 bits of a virtual address. -/
def va55 (a : Nat) : Nat := nbits a 0 55

/-- Lanes of a mask, ascending. -/
def lanesOf (m : Word32) : List Nat := (List.range 32).filter fun i => m.getLsbD i
def maskOf (ls : List Nat) : Word32 := ls.foldl (fun m i => m ||| (1#32 <<< i)) 0
def bitOf (i : Nat) : Word32 := 1#32 <<< i
def lowest (m : Word32) : Nat := ((lanesOf m).head?).getD 0

def ceilDiv (a b : Nat) : Nat := if b = 0 then 0 else (a + b - 1) / b

/-- Two half-open ranges overlap. -/
def overlap (a n b m : Nat) : Bool := a < b + m && b < a + n

/-- Saturating minimum used by timed waits (R166, R247). -/
def rtCap (n : Nat) : Nat := min n 1000000

/-- Numbers in ascending order. -/
def insertNat (a : Nat) : List Nat → List Nat
  | [] => [a]
  | b :: t => if a ≤ b then a :: b :: t else b :: insertNat a t
def sortNat (l : List Nat) : List Nat := l.foldr insertNat []

end Sys2Proof.Machine
end

