-- ==== Sys2Proof/Machine/Access.lean ====
section
/-! DEFINITION. Reading and updating the parts of the state: contexts, clusters, cores, trains, coaches, fragments and
lanes; where a fragment runs; the relative numbers of R452. -/

namespace Sys2Proof.Machine

open Sys2Proof

/-! ### Parts of the package -/

def State.ctx (s : State) (c : Nat) : Ctx := mgetD s.ctxs c Ctx.root
def State.hasCtx (s : State) (c : Nat) : Bool := (mget s.ctxs c).isSome
def modCtx (s : State) (c : Nat) (f : Ctx → Ctx) : State :=
  match mget s.ctxs c with
  | some x => { s with ctxs := mset s.ctxs c (f x) }
  | none => s
def modSys (s : State) (c : Nat) (f : SysRegs → SysRegs) : State := modCtx s c fun x => { x with sys := f x.sys }

def State.cluster (s : State) (n : Nat) : Cluster := mgetD s.clusters n Cluster.init
def modCluster (s : State) (n : Nat) (f : Cluster → Cluster) : State :=
  { s with clusters := mset s.clusters n (f (s.cluster n)) }

def State.core (s : State) (n : Nat) : Core := mgetD s.cores n Core.init
def modCore (s : State) (n : Nat) (f : Core → Core) : State := { s with cores := mset s.cores n (f (s.core n)) }

def State.port (s : State) (n : Nat) : Port := mgetD s.ports n Port.init
def State.queue (s : State) (q : Nat) : Queue := mgetD s.queues q (Queue.init q)
def setQueue (s : State) (q : Nat) (x : Queue) : State := { s with queues := mset s.queues q x }

def setTrain (s : State) (t : Nat) (x : Train) : State := { s with trains := mset s.trains t x }
def modTrain (s : State) (t : Nat) (f : Train → Train) : State :=
  match mget s.trains t with
  | some x => setTrain s t (f x)
  | none => s

def State.mbox (s : State) (x : Nat) : Mbox := mgetD s.host.mbox x Mbox.init
def modMbox (s : State) (x : Nat) (f : Mbox → Mbox) : State :=
  { s with host := { s.host with mbox := mset s.host.mbox x (f (s.mbox x)) } }
def modHost (s : State) (f : HostSide → HostSide) : State := { s with host := f s.host }

/-- Append turns to the agenda (log 3). -/
def push (s : State) (ts : List Turn) : State := { s with agenda := s.agenda ++ ts }
def pushEv (s : State) (i : Instr) (e : Ev) : State := push s [.event i e]

/-! ### Coaches, fragments, lanes -/

def Train.coach? (t : Train) : CoachId → Option Coach
  | .spine => t.spine
  | .coach n => mget t.coaches n

def Train.setCoach (t : Train) (c : CoachId) (x : Coach) : Train :=
  match c with
  | .spine => { t with spine := some x }
  | .coach n => { t with coaches := mset t.coaches n x }

def modCoach (s : State) (t : Nat) (c : CoachId) (f : Coach → Coach) : State :=
  modTrain s t fun tr =>
    match tr.coach? c with
    | some x => tr.setCoach c (f x)
    | none => tr

def modFrag (s : State) (r : FragRef) (f : Frag → Frag) : State :=
  modCoach s r.train r.coach fun co =>
    match mget co.frags r.frag with
    | some x => { co with frags := mset co.frags r.frag (f x) }
    | none => co

def State.frag? (s : State) (r : FragRef) : Option Frag := do
  let t ← mget s.trains r.train
  let co ← t.coach? r.coach
  mget co.frags r.frag

/-- All coaches of a train, the spine first. -/
def Train.coachIds (t : Train) : List CoachId :=
  (if t.spine.isSome then [CoachId.spine] else []) ++ t.coaches.map fun c => CoachId.coach c.1

/-- All fragments of a train. -/
def Train.fragRefs (n : Nat) (t : Train) : List FragRef :=
  t.coachIds.flatMap fun c =>
    match t.coach? c with
    | some co => co.frags.map fun f => ⟨n, c, f.1⟩
    | none => []

/-- A fresh fragment of `mask` at `pc`. -/
def Frag.fresh (mask : Word32) (pc : Word64) (pf : Option Nat) : Frag where
  mask := mask
  pc := pc
  pfrag := pf
  park := none
  wait := none
  deadline := none
  nap := none
  joined := none
  bar := none
  hcall := none
  replay := false
  due := none
  age := 0

def Lane.init (fid : Word32) : Lane := ⟨fid, 0, 0, 0, [], []⟩

/-- p15 reads as 1 (R50). -/
def Lane.pred (l : Lane) (i : BitVec 4) : Bool := if i = 15 then true else l.preds.getLsbD i.toNat
/-- Writes of p15 are discarded (R50). -/
def Lane.setPred (l : Lane) (i : BitVec 4) (b : Bool) : Lane :=
  if i = 15 then l else
    let m : BitVec 15 := 1#15 <<< i.toNat
    { l with preds := if b then l.preds ||| m else l.preds &&& ~~~m }

def Lane.reg (l : Lane) (i : Nat) : Word32 := mgetD l.v i 0
def Lane.setReg (l : Lane) (i : Nat) (x : Word32) : Lane := { l with v := mput 0 l.v i x, bad := l.bad.filter (· ≠ i) }

def modLane (co : Coach) (i : Nat) (f : Lane → Lane) : Coach :=
  match mget co.lanes i with
  | some l => { co with lanes := mset co.lanes i (f l) }
  | none => co

def Coach.sreg (co : Coach) (i : Nat) : Word32 := mgetD co.sregs i 0
def Coach.setSreg (co : Coach) (i : Nat) (x : Word32) : Coach := { co with sregs := mput 0 co.sregs i x, sbad := co.sbad.filter (· ≠ i) }

/-- Registers 0 upwards from index `i`, low one first. -/
def regs64 (rd : Nat → Word32) (i : Nat) : Word64 := rd (i + 1) ++ rd i

/-! ### Where a fragment runs -/

/-- The issuing fragment with what it stands in. -/
structure Ix where
  ref : FragRef
  tr : Train
  co : Coach
  fr : Frag
  spine : Bool
  rank : Nat
  core : Nat
  cluster : Nat
  window : Nat
deriving Repr

def Ix.die (x : Ix) : Nat := x.cluster / 12
def Ix.ctx (x : Ix) : Nat := x.tr.ctx

def ixOf (s : State) (r : FragRef) : Option Ix := do
  let tr ← mget s.trains r.train
  let co ← tr.coach? r.coach
  let fr ← mget co.frags r.frag
  match r.coach with
  | .spine => some ⟨r, tr, co, fr, true, 0, 4 * tr.spineCl, tr.spineCl, 512⟩
  | .coach n =>
    let rank := tr.rankOf.getD n 0
    let core := tr.cores.getD rank 0
    some ⟨r, tr, co, fr, false, rank, core, core / 4, tr.window⟩

/-- The core TLB serves SIMT cores only; the spine uses the cluster's (R183). -/
def Ix.coreTlb (x : Ix) : Option Nat := if x.spine then none else some x.core

/-- Lanes of the fragment whose guard holds (R38). -/
def enabled (x : Ix) (a : Args) : List Nat :=
  (lanesOf x.fr.mask).filter fun i =>
    match mget x.co.lanes i with
    | some l => l.pred a.gp != a.gn
    | none => false

/-! ### Relative numbers (R452) -/

/-- Position of the first entry of a map with a value. -/
def keyOf (m : SMap Nat) (v : Nat) : Option Nat := (m.find? fun e => e.2 = v).map (·.1)

/-- %cluster of a physical cluster in a context. -/
def relCluster (s : State) (c : Nat) (cl : Nat) : Option Nat :=
  let x := s.ctx c
  if x.depth ≤ 1 then (keyOf x.dies (cl / 12)).map fun p => 12 * p + cl % 12 else keyOf x.clusters cl

/-- %core of a physical core in a context. -/
def relCore (s : State) (c : Nat) (k : Nat) : Option Nat :=
  let x := s.ctx c
  if x.depth ≤ 2 then (relCluster s c (k / 4)).map fun p => 4 * p + k % 4 else keyOf x.cores k

def absCluster (s : State) (c n : Nat) : Option Nat :=
  let x := s.ctx c
  if x.depth ≤ 1 then (mget x.dies (n / 12)).map fun d => 12 * d + n % 12 else mget x.clusters n

def absCore (s : State) (c n : Nat) : Option Nat :=
  let x := s.ctx c
  if x.depth ≤ 2 then (absCluster s c (n / 4)).map fun k => 4 * k + n % 4 else mget x.cores n

/-- The physical cores a context holds. -/
def heldCores (s : State) (c : Nat) : List Nat :=
  let x := s.ctx c
  if x.depth ≤ 1 then x.dies.flatMap fun d => (List.range 48).map fun i => 48 * d.2 + i
  else if x.depth = 2 then x.clusters.flatMap fun k => (List.range 4).map fun i => 4 * k.2 + i
  else x.cores.map (·.2)

/-- Ancestors of a context from itself to the root. -/
def pathUp (s : State) : Nat → Nat → List Nat
  | 0, c => [c]
  | n + 1, c => if c = 0 then [0] else c :: pathUp s n (s.ctx c).parent

def ancestors (s : State) (c : Nat) : List Nat := pathUp s 7 c
/-- `c` is `a` or one of its descendants. -/
def inSubtree (s : State) (a c : Nat) : Bool := (ancestors s c).contains a
/-- The depth-1 partition of a context; 0 for the root. -/
def partitionOf (s : State) (c : Nat) : Nat :=
  ((ancestors s c).find? fun a => (s.ctx a).depth = 1).getD 0
def children (s : State) (c : Nat) : List Nat :=
  (s.ctxs.filter fun e => e.1 ≠ 0 && e.2.parent = c).map (·.1)
def subtree (s : State) (c : Nat) : List Nat := (s.ctxs.filter fun e => inSubtree s c e.1).map (·.1)
/-- An operation under way that drains lets resident trains run (R418). -/
def CtxOp.drains (o : CtxOp) : Bool :=
  match o.kind with
  | .stopDrain | .migrate => true
  | .revoke _ d _ => d
  | _ => false

def Ctx.draining (c : Ctx) : Bool :=
  (c.st = .stopping || c.st = .migrating) && (match c.op with | some o => o.drains | none => false)

/-- A context's resident trains run only while it and every ancestor is RUNNING (R352) or drains (R418). -/
def ctxRuns (s : State) (c : Nat) : Bool := (ancestors s c).all fun a => (s.ctx a).st = .running || (s.ctx a).draining

/-- New trains of a context may be placed: it and every ancestor is RUNNING (R352, R418). -/
def ctxPlaces (s : State) (c : Nat) : Bool := (ancestors s c).all fun a => (s.ctx a).st = .running

/-! ### Budgets (R368, R370) -/

def Ctx.bucket (c : Ctx) : Bucket → BucketSt
  | .time => c.time
  | .mem => c.mem
  | .ext => c.ext
def Ctx.setBucket (c : Ctx) (k : Bucket) (b : BucketSt) : Ctx :=
  match k with
  | .time => { c with time := b }
  | .mem => { c with mem := b }
  | .ext => { c with ext := b }

/-- The nearest metered bucket, the context's own or an ancestor's below the root (R368). -/
def payer (s : State) (c : Nat) (k : Bucket) : Option Nat :=
  (ancestors s c).find? fun a => a ≠ 0 && ((s.ctx a).bucket k).depth ≠ 0

/-- The bucket that pays is empty (R370). -/
def outOf (s : State) (c : Nat) (k : Bucket) : Bool :=
  match payer s c k with
  | some a => ((s.ctx a).bucket k).tok = 0
  | none => false

def charge (s : State) (c : Nat) (k : Bucket) (n : Nat) : State :=
  match payer s c k with
  | some a => modCtx s a fun x => x.setBucket k { x.bucket k with tok := (x.bucket k).tok - n }
  | none => s

/-- The context for which an agent acts. -/
def agentCtx (s : State) (a : Agent) : Nat :=
  match a with
  | .frag f => ((mget s.trains f.train).map (·.ctx)).getD 0
  | .dray t _ _ => ((mget s.trains t).map (·.ctx)).getD 0

/-- cc counted on a C-die (R51, R451): 10.5 cc per rt at full speed, less 1/32 per throttle step. -/
def cycOf (s : State) (die : Nat) : Nat :=
  let k := mgetD s.clocks die DieClock.init
  (k.base + (s.rtime - k.since) * 21 * (32 - k.steps)) / 64

/-- Refresh bank and rt left in its window on a die (R16). -/
def crefOf (s : State) (die : Nat) : Nat × Nat :=
  let t := (s.rtime + mgetD s.crefPhase die 0) % 12800
  (t / 200, 200 - t % 200)

/-- Count an event of R423: the unit's own count, under its physical number, and every counter of the context, or of an
ancestor with SUB, that selects the event and the unit by its relative number. -/
def countEvent (s : State) (c code phys : Nat) (unit : Nat → Option Nat) (n : Nat) : State :=
  let s := { s with units :=
    if n = 0 then s.units else mset s.units (65536 * code + phys) (BitVec.ofNat 48 ((mgetD s.units (65536 * code + phys) 0).toNat + n)) }
  (ancestors s c).foldl (fun s a =>
    let x := s.ctx a
    if x.sys.cntSel.isEmpty then s
    else
      (List.range 8).foldl (fun s i =>
        let sel := (mgetD x.sys.cntSel i 0).toNat
        if nbit sel 31 && nbits sel 0 12 = code && unit a = some (nbits sel 16 12) && (a = c || nbit sel 30) then
          modSys s a fun y =>
            let v := (mgetD y.cntVal i 0).toNat + n
            { y with
              cntVal := mset y.cntVal i (BitVec.ofNat 48 v)
              cntOvf := if v ≥ 2 ^ 48 then i :: y.cntOvf.filter (· ≠ i) else y.cntOvf }
        else s) s) s

end Sys2Proof.Machine
end

