-- ==== Sys2Proof/Machine/Memory.lean ====
section
/-! DEFINITION. The home, the word-ownership registry and the cluster L1 (R17, R191 to R194, R197, R361), and the events
that change them; the accesses that are still on their way. -/

namespace Sys2Proof.Machine

open Sys2Proof

/-! ### Regions of the machine address space (R21, R22) -/

def maRegion (ma : Nat) : Nat := nbits ma 42 2
def maDie (ma : Nat) : Nat := nbits ma 40 2
def maOff (ma : Nat) : Nat := nbits ma 0 40
/-- Backed HBM4 (R22). -/
def isHbm (ma : Nat) : Bool := ma < 2 ^ 44 && maRegion ma = 0 && maOff ma < 0x2CB4178000
/-- The cellar range of region 01. -/
def isCellar (ma : Nat) : Bool := maRegion ma = 1 && maDie ma = 0 && nbits ma 30 10 = 0 && ma < 2 ^ 44
def isMmio (ma : Nat) : Bool := maRegion ma = 1 && maDie ma = 2 && ma < 2 ^ 44
/-- Host memory, region 10. -/
def isHost (ma : Nat) : Bool := maRegion ma = 2 && ma < 2 ^ 44
/-- Slot-table blocks of the MMIO sub-region (R441): blocks 0x20 to 0x2F. -/
def isSltBlock (ma : Nat) : Bool := isMmio ma && 0x20 ≤ nbits ma 28 12 && nbits ma 28 12 ≤ 0x2F
/-- What no access of the root reaches and no grant covers (R22); region 10 apart. -/
def isRefused (ma : Nat) : Bool := !(isHbm ma || isCellar ma || (isMmio ma && !isSltBlock ma) || isHost ma)

/-- A unit that RETIRE has taken out of service: kind 0 HBM4 page, 1 cluster, 2 home-cache way (R445). -/
def isRetired (s : State) (kind unit : Nat) : Bool := s.host.retired.contains (2 ^ 48 * kind + unit)

/-! ### Home -/

/-- The key under which the block of a byte is stored (R19). -/
def encKey (s : State) (ma : Nat) : Byte := mgetD s.enc (ma / 16) 0

/-- A home byte as a reader under `key` gets it (R19, R361). -/
def homeByte (s : State) (ma : Nat) (key : Byte) : Byte :=
  let raw := Memory.read s.mem ma
  if encKey s ma = key then raw
  else Config.crossKeyByte (encKey s ma) key ma ((List.range 16).map fun i => Memory.read s.mem (ma / 16 * 16 + i))

def isPoison (s : State) (ma : Nat) : Bool := s.poison.contains ma

/-- The first write after claiming tags the frame (R361). -/
def tagFrame (s : State) (ma : Nat) (key : Byte) : State :=
  match mget s.tags (ma / 65536) with
  | some _ => s
  | none => { s with tags := mset s.tags (ma / 65536) key }

/-- The key under which a write to a block is encrypted: its frame's tag, which the write has set. -/
def frameKey (s : State) (ma : Nat) : Byte := (mget s.tags (ma / 65536)).getD (encKey s ma)

/-- A block is encrypted again under `key`, its bytes being what a reader under that key gets (R19; log 6). -/
def rekey (s : State) (b : Nat) (key : Byte) : State :=
  if mgetD s.enc b 0 = key then s
  else
    let bs := (List.range 16).map fun i => homeByte s (16 * b + i) key
    { s with
      mem := (List.range 16).foldl (fun m i => Memory.write m (16 * b + i) (bs.getD i 0)) s.mem
      enc := mput 0 s.enc b key }

/-- The blocks of 16 bytes that `n` bytes at an address touch. -/
def blocksOf (ma n : Nat) : List Nat :=
  if n = 0 then [] else (List.range ((ma + n - 1) / 16 - ma / 16 + 1)).map fun i => ma / 16 + i

/-- Bytes written at home, with their poison; new bytes clear poison (R197). -/
def homePut (s : State) (ma : Nat) (bs : List Byte) (poison : Bool) : State :=
  let s := (blocksOf ma bs.length).foldl (fun s b => rekey s b (frameKey s (16 * b))) s
  { s with
    mem := (List.range bs.length).foldl (fun m i => Memory.write m (ma + i) (bs.getD i 0)) s.mem
    poison :=
      let l := s.poison.filter fun a => a < ma || ma + bs.length ≤ a
      if poison then (List.range bs.length).map (ma + ·) ++ l else l }

/-- A byte lies in a range that the host manages (R442). -/
def isHdm (s : State) (ma : Nat) : Bool := s.host.hdm.any fun e => e.1 ≤ ma && ma < e.1 + e.2.1

/-- Lines of host-managed memory that the host may cache and that a write makes stale (R202, R442). -/
def noteBackInv (s : State) (ma n : Nat) : State :=
  if s.host.hdm.isEmpty then s
  else
    let ls := ((List.range n).filterMap fun i => if isHdm s (ma + i) then some ((ma + i) / 128) else none).eraseDups
    { s with host := { s.host with backInv := s.host.backInv ++ ls.filter fun l => !s.host.backInv.contains l } }

/-- A write of the device at home. -/
def homeWrite (s : State) (ma : Nat) (bs : List Byte) (poison : Bool) : State := noteBackInv (homePut s ma bs poison) ma bs.length

/-- A frame is tagged with another key (R361); cellar and MMIO are exempt. -/
def keyConflict (s : State) (ma : Nat) (key : Byte) : Bool :=
  isHbm ma &&
  match mget s.tags (ma / 65536) with
  | some k => k ≠ key
  | none => false

/-- Requests performed at home, counted as home-cache hits or misses (R423) and paid from the MEM bucket (R370). Which
they are is not modelled, so it is a free value (log 6). -/
def homeAccess (s : State) (ctx ma n : Nat) : State :=
  let m := maDie ma
  let unit (_ : Nat) : Option Nat := some m
  let hit := Config.homeHit s.fresh
  let s := { s with fresh := s.fresh + 1 }
  let s := charge s ctx .mem n
  let s := countEvent s ctx 0x090 0 (fun _ => some 0) (Config.fabricFlits s.fresh + 1)
  countEvent (countEvent s ctx (if hit then 0x060 else 0x061) m unit n) ctx 0x070 m unit (if hit then 0 else n)

/-! ### L1 words -/

def l1Get (s : State) (cl wa : Nat) : Option L1Word := mget (s.cluster cl).l1 wa
def l1Set (s : State) (cl wa : Nat) (w : L1Word) : State := modCluster s cl fun c => { c with l1 := mset c.l1 wa w }
def l1Del (s : State) (cl wa : Nat) : State := modCluster s cl fun c => { c with l1 := mdel c.l1 wa }

def byteOf (w : Word32) (i : Nat) : Byte := w.extractLsb' (8 * i) 8
def setByte (w : Word32) (i : Nat) (b : Byte) : Word32 :=
  let m : Word32 := 0xFF#32 <<< (8 * i)
  (w &&& ~~~m) ||| ((b.setWidth 32) <<< (8 * i))

/-- A dirty word of a cluster whose write-back, or the one that its registration forces, is held at its home, the MEM bucket of its
context being empty (R370). -/
def wbHeld (s : State) (cl wa : Nat) : Bool :=
  match l1Get s cl wa with
  | some w => w.dirty ≠ 0 && (outOf s w.ctx .mem ||
    match mget s.owner wa with
    | some o => o ≠ cl && (match l1Get s o wa with | some v => v.dirty ≠ 0 && outOf s v.ctx .mem | none => false)
    | none => false)
  | none => false

/-- Another cluster owns the word and its write-back is held. -/
def ownerHeld (s : State) (cl wa : Nat) : Bool :=
  match mget s.owner wa with
  | some o => o ≠ cl && wbHeld s o wa
  | none => false

/-- The request of a write-back (R370). -/
def payBack (s : State) (cl wa : Nat) : State :=
  match l1Get s cl wa with
  | some w => if w.dirty = 0 then s else homeAccess s w.ctx (4 * wa) 1
  | none => s

/-- Merge the dirty bytes of an L1 word into the home (R191). -/
def mergeDirty (s : State) (cl wa : Nat) : State :=
  match l1Get s cl wa with
  | none => s
  | some w =>
    if w.dirty = 0 then s
    else
      let s := (List.range 4).foldl (fun s i =>
        if w.dirty.getLsbD i then homeWrite s (4 * wa + i) [byteOf w.val i] (w.poison.getLsbD i) else s) s
      l1Set s cl wa { w with dirty := 0 }

/-- The previous owner of a word writes back and clears its owned bit, its copy staying valid (R192). -/
def dropOwner (s : State) (wa : Nat) : State :=
  match mget s.owner wa with
  | none => s
  | some o =>
    let s := mergeDirty (payBack s o wa) o wa
    let s := match l1Get s o wa with
      | some w => l1Set s o wa { w with owned := false }
      | none => s
    { s with owner := mdel s.owner wa }

/-- Registrations of a word by a cluster that are still on their way. -/
def regsOf (s : State) (cl wa : Nat) : List PStore := s.stores.filter fun p => p.reg && p.cluster = cl && p.ma / 4 = wa

/-- Registration of a word by a cluster (R192); registrations of it on their way are acknowledged with it. -/
def register (s : State) (cl wa : Nat) : State :=
  let s := if (regsOf s cl wa).isEmpty then s
    else { s with stores := s.stores.filter fun p => !(p.reg && p.cluster = cl && p.ma / 4 = wa) }
  if mget s.owner wa = some cl then s
  else
    let s := dropOwner s wa
    let s := { s with owner := mset s.owner wa cl }
    match l1Get s cl wa with
    | some w => l1Set s cl wa { w with owned := true }
    | none => s

/-- The dirty bytes of a word reach the home without a request of their own; a registration on its way goes first. -/
def writeBack' (s : State) (cl wa : Nat) : State :=
  match l1Get s cl wa with
  | some w => if w.dirty = 0 then s else mergeDirty (register s cl wa) cl wa
  | none => s

/-- Write-back event of a word (R192); a store whose registration is still on its way registers first. -/
def writeBack (s : State) (cl wa : Nat) : State :=
  match l1Get s cl wa with
  | some w => if w.dirty = 0 then s else writeBack' (payBack s cl wa) cl wa
  | none => s

/-- The home value of a word as a fetch delivers it. -/
def homeWord (s : State) (wa : Nat) (key : Byte) : L1Word where
  val := BitVec.ofNat 32 (leVal ((List.range 4).map fun i => homeByte s (4 * wa + i) key))
  owned := false
  dirty := 0
  ctx := 0
  poison := BitVec.ofNat 4 (((List.range 4).filter fun i => isPoison s (4 * wa + i)).foldl (fun a i => a + 2 ^ i) 0)

/-- Invalidate a word after its write-back, ownership returning to the home (CINV, eviction; R192, R214). -/
def evictWord (s : State) (cl wa : Nat) : State :=
  match l1Get s cl wa with
  | none => s
  | some _ =>
    let s := writeBack s cl wa
    let s := if mget s.owner wa = some cl then { s with owner := mdel s.owner wa } else s
    l1Del s cl wa

/-- Lines that a cluster L1 of 2 MiB holds (R11, R180). -/
def l1Lines : Nat := 16384

/-- Before a line comes in: a full L1 evicts a line that no held write-back keeps (R180, R192). Which one is free (log 6). -/
def makeRoom (s : State) (cl la : Nat) : State :=
  let l1 := (s.cluster cl).l1
  if l1.length < l1Lines then s
  else
    let ls := (l1.map fun e => e.1 / 32).eraseDups
    let out := ls.filter fun l => !(List.range 32).any fun i => wbHeld s cl (32 * l + i)
    if ls.length < l1Lines || ls.contains la then s
    else match out[Config.victim s.fresh % out.length]? with
      | some v => (List.range 32).foldl (fun s i => evictWord s cl (32 * v + i)) { s with fresh := s.fresh + 1 }
      | none => s

/-- Fetch of a line: each invalid word takes its home value, valid words keep theirs (R192). -/
def fetchLine (s : State) (cl la : Nat) (key : Byte) : State :=
  let s := makeRoom s cl la
  modCluster s cl fun c =>
    { c with l1 := (List.range 32).foldl (fun l i =>
        let wa := 32 * la + i
        match mget l wa with
        | some _ => l
        | none => mset l wa (homeWord s wa key)) c.l1 }

/-- The words that n bytes at an address touch. -/
def wordsOf (ma n : Nat) : List Nat :=
  if n = 0 then [] else (List.range ((ma + n - 1) / 4 - ma / 4 + 1)).map fun i => ma / 4 + i

/-- Bytes with their poison. -/
structure Got where
  bytes : List Byte
  poison : Bool
deriving DecidableEq, Repr

/-- Plain load through the L1 (R192). -/
def loadPlain (s : State) (cl ma n : Nat) (key : Byte) : Got × State :=
  let s := (wordsOf ma n).foldl (fun s wa => if (l1Get s cl wa).isSome then s else fetchLine s cl (wa / 32) key) s
  let at_ (a : Nat) : Byte × Bool :=
    match l1Get s cl (a / 4) with
    | some w => (byteOf w.val (a % 4), w.poison.getLsbD (a % 4))
    | none => (0, false)
  let l := (List.range n).map fun i => at_ (ma + i)
  (⟨l.map (·.1), l.any (·.2)⟩, s)

/-- Plain store of a context into the L1, poison of the stored bytes cleared (R192, R197). `reg` registers the words at once.
Bytes of an invalid word that the store does not write take their home value as it is at that instant (log 79). -/
def storePlain (s : State) (cl ctx ma : Nat) (bs : List Byte) (key : Byte) (poison reg : Bool) : State :=
  let s := tagFrame s ma key
  (wordsOf ma bs.length).foldl (fun s wa =>
    let s := if (l1Get s cl wa).isSome then s else makeRoom s cl (wa / 32)
    let s := if reg then register s cl wa else s
    let w := (l1Get s cl wa).getD (homeWord s wa key)
    let w := (List.range 4).foldl (fun (w : L1Word) i =>
      let a := 4 * wa + i
      if ma ≤ a && a < ma + bs.length then
        let m : BitVec 4 := 1#4 <<< i
        { w with
          val := setByte w.val i (bs.getD (a - ma) 0)
          dirty := w.dirty ||| m
          poison := if poison then w.poison ||| m else w.poison &&& ~~~m }
      else w) w
    l1Set s cl wa { w with owned := mget s.owner wa = some cl, ctx := ctx }) s

/-- Bypass load (R192). -/
def loadBypass (s : State) (cl ma n : Nat) (key : Byte) : Got × State :=
  let s := (wordsOf ma n).foldl (fun s wa =>
    let s := writeBack s cl wa
    match l1Get s cl wa with
    | some w => if w.owned then s else l1Del s cl wa
    | none => s) s
  (⟨(List.range n).map fun i => homeByte s (ma + i) key, (List.range n).any fun i => isPoison s (ma + i)⟩, s)

/-- Bypass store (R192): the home owns the word afterwards; a present copy takes the bytes, clean and not owned. -/
def storeBypass (s : State) (cl ma : Nat) (bs : List Byte) (key : Byte) (poison : Bool) : State :=
  let s := tagFrame s ma key
  let s := (wordsOf ma bs.length).foldl (fun s wa => dropOwner (writeBack s cl wa) wa) s
  let s := homeWrite s ma bs poison
  (wordsOf ma bs.length).foldl (fun s wa =>
    match l1Get s cl wa with
    | some w =>
      let w := (List.range 4).foldl (fun (w : L1Word) i =>
        let a := 4 * wa + i
        if ma ≤ a && a < ma + bs.length then
          let m : BitVec 4 := 1#4 <<< i
          { w with
            val := setByte w.val i (bs.getD (a - ma) 0)
            poison := if poison then w.poison ||| m else w.poison &&& ~~~m }
        else w) w
      l1Set s cl wa { w with owned := false }
    | none => s) s

/-- CDISC: dirty bytes are discarded, and registrations of them that are on their way (R214). -/
def discardWord (s : State) (cl wa : Nat) : State :=
  match l1Get s cl wa with
  | none => s
  | some _ =>
    let s := { s with stores := s.stores.filter fun p => !(p.reg && p.cluster = cl && p.ma / 4 = wa) }
    let s := if mget s.owner wa = some cl then { s with owner := mdel s.owner wa } else s
    l1Del s cl wa

/-! ### Accesses on their way to the home -/

/-- The coaches and spine that pending accesses belong to. -/
def sameCoach : Agent → Agent → Bool
  | .frag f, .frag g => f.train = g.train && f.coach = g.coach
  | a, b => a = b

def locBypass : Loc → Bool
  | .glob _ _ b _ => b
  | _ => false

def pendBypass (p : Pend) : Bool := p.reads.any fun e => locBypass e.2

def coachOf (s : State) (t : Nat) (c : CoachId) : Option Coach := do
  let tr ← mget s.trains t
  tr.coach? c

/-- A bypass access of the fibre in a lane, numbered before `id`, is not performed yet (R200 item 4). -/
def bypassPending (s : State) (who : Agent) (lane id : Nat) : Bool :=
  (s.stores.any fun p => !p.reg && p.lane = lane && p.grp < id && sameCoach who p.who) ||
  (s.steps.any fun a => a.lane = lane && a.id < id && sameCoach who a.who) ||
  match who with
  | .frag f => match coachOf s f.train f.coach with
    | some co => co.pend.any fun p => p.id < id && p.reads.any fun e => e.1 = lane && locBypass e.2
    | none => false
  | .dray .. => false

/-- A write-back that an access of some bytes forces is held at its home. -/
def wordsHeld (s : State) (cl ma n : Nat) : Bool := (wordsOf ma n).any fun wa => wbHeld s cl wa || ownerHeld s cl wa

/-- The core that an agent issues on, by its ports. -/
def agentCore (s : State) (a : Agent) : Nat :=
  let at_ (t : Train) (r : Nat) : Nat := t.cores.getD r 0
  match a with
  | .frag f => match mget s.trains f.train with
    | some t => match f.coach with
      | .coach n => at_ t (t.rankOf.getD n 0)
      | .spine => 1024 + t.spineCl
    | none => 0
  | .dray t r _ => ((mget s.trains t).map fun t => at_ t r).getD 0

/-- Stores of the same channel from the same core, sent before (R217). -/
def chanBefore (s : State) (p : PStore) : List PStore :=
  s.stores.filter fun q => q.chan = p.chan && p.chan.isSome && agentCore s q.who = agentCore s p.who && q.id < p.id

/-- A store on its way may reach the home: the write-backs that it forces are not held, and it follows the fibre's earlier bypass
accesses and the channel's earlier stores (R200 items 4 and 5). -/
def storeFree (s : State) (p : PStore) : Bool :=
  !wordsHeld s p.cluster p.ma p.bytes.length && !bypassPending s p.who p.lane p.grp && (chanBefore s p).isEmpty

/-- The stores that reach the home with one: those of its request (R182); a store of a channel goes alone, since a channel keeps
the lanes' order (R217). -/
def withStore (s : State) (p : PStore) : List PStore :=
  if p.chan.isSome then [p] else s.stores.filter fun q => q.grp = p.grp && !q.reg

/-- It pays for the request (R370). -/
def paysFor (p : PStore) : Bool := p.id = p.grp || p.chan.isNone

/-- A registration or store on its way may reach the home; a request waits while its context's MEM bucket is empty (R370). A
registration carries no bytes and so costs nothing (log 80). -/
def storeReady (s : State) (p : PStore) : Bool :=
  if p.reg then !ownerHeld s p.cluster (p.ma / 4)
  else !(paysFor p && outOf s (agentCtx s p.who) .mem) && (withStore s p).all (storeFree s)

/-- One store is written at its home. -/
def putStore (s : State) (p : PStore) : State :=
  storeBypass { s with stores := s.stores.filter fun q => q.id ≠ p.id } p.cluster p.ma p.bytes p.key p.poison

/-- One registration or store reaches the home (R192, R200) with the others of its request, which the MEM bucket pays for. -/
def performStore (s : State) (p : PStore) : State :=
  if p.reg then register { s with stores := s.stores.filter fun q => q.id ≠ p.id } p.cluster (p.ma / 4)
  else (withStore s p).foldl putStore (if paysFor p then homeAccess s (agentCtx s p.who) p.ma 1 else s)

/-- A store that cannot reach its home yet stays on its way. -/
def tryStore (s : State) (p : PStore) : State :=
  if s.stores.any (fun q => q.id = p.id) && storeReady s p then performStore s p else s

/-- Every registration in flight from a cluster reaches the home, oldest first. -/
def drainRegs (s : State) (cl : Nat) : State :=
  (s.stores.filter fun p => p.reg && p.cluster = cl).foldl tryStore s

/-- The line and the context of a dirty word's write-back. -/
def backKey (e : Nat × L1Word) : Nat × Nat := (e.1 / 32, e.2.ctx)

/-- The dirty words among `ws` of one line that one context has dirtied are written back in one request (R182, R370), but for those
that wait at a home. -/
def writeBackLine (s : State) (cl : Nat) (ws : List Nat) (k : Nat × Nat) : State :=
  let l := ((s.cluster cl).l1.filter fun e => e.2.dirty ≠ 0 && ws.contains e.1 && backKey e = k && !wbHeld s cl e.1).map (·.1)
  if l.isEmpty then s else l.foldl (fun s wa => writeBack' s cl wa) (homeAccess s k.2 (128 * k.1) 1)

/-- Every dirty word among `ws` is written back, as far as the home takes it. -/
def backWords (s : State) (cl : Nat) (ws : List Nat) : State :=
  ((((s.cluster cl).l1.filter fun e => e.2.dirty ≠ 0 && ws.contains e.1).map backKey).eraseDups).foldl
    (fun s k => writeBackLine s cl ws k) s

/-- Release event of R192: every dirty byte of the cluster is written back, after every registration in flight. What the home holds
(R370) stays dirty or on its way. -/
def releaseEvent (s : State) (cl : Nat) : State :=
  let s := drainRegs s cl
  backWords s cl ((s.cluster cl).l1.map (·.1))

/-- The release event has come to its end: no registration and no write-back of the cluster is outstanding. -/
def releasedAll (s : State) (cl : Nat) : Bool :=
  !s.stores.any (fun p => p.reg && p.cluster = cl) && !(s.cluster cl).l1.any fun e => e.2.dirty ≠ 0

/-- Acquire event of R192: every valid word that the cluster does not own becomes invalid. -/
def acquireEvent (s : State) (cl : Nat) : State :=
  modCluster s cl fun c => { c with l1 := c.l1.filter fun e => e.2.owned || e.2.dirty ≠ 0 }

/-! ### The cellar -/

/-- Bytes of a cellar as a die holds them: every die of a partition holds the same (R15). -/
def cellarOf (s : State) (part : Nat) : Memory := mgetD s.cellar part []
/-- The depth-1 context that holds a C-die; 0 for the root. -/
def partOfDie (s : State) (die : Nat) : Nat :=
  ((s.ctxs.find? fun e => e.2.depth = 1 && (keyOf e.2.dies die).isSome).map (·.1)).getD 0
/-- C-dies of a partition: of a depth-1 context, or those that no depth-1 context holds. -/
def partDies (s : State) (part : Nat) : List Nat := (List.range 16).filter fun d => partOfDie s d = part
def cellarRead (s : State) (die off n : Nat) : Got :=
  let p := partOfDie s die
  let m := cellarOf s p
  let bad := mgetD s.cellarPoison die []
  ⟨(List.range n).map fun i => Memory.read m (off + i), (List.range n).any fun i => bad.contains (off + i)⟩

/-! ### The scratchpad (R187 to R189) -/

def scrGet (t : Train) (rank off n : Nat) : Got :=
  let m := mgetD t.scr rank []
  let bad := mgetD t.scrPoison rank []
  ⟨(List.range n).map fun i => Memory.read m (off + i), (List.range n).any fun i => bad.contains (off + i)⟩

/-- A byte of the range is latched (R295). -/
def Latch.meets (l : Latch) (off n : Nat) : Bool :=
  (l.offs.any fun o => overlap off n o l.bytes) || (match l.scales with | some o => overlap off n o 64 | none => false)

def scrPut (t : Train) (rank off : Nat) (bs : List Byte) (poison : Bool) : Train :=
  let m := (List.range bs.length).foldl (fun m i => Memory.write m (off + i) (bs.getD i 0)) (mgetD t.scr rank [])
  let bad := (mgetD t.scrPoison rank []).filter fun a => a < off || off + bs.length ≤ a
  { t with
    scr := mput [] t.scr rank m
    scrPoison := mput [] t.scrPoison rank (if poison then (List.range bs.length).map (off + ·) ++ bad else bad)
    latch := match mget t.latch rank with
      | some l => if l.meets off bs.length then mdel t.latch rank else t.latch
      | none => t.latch }

/-- Scratchpad bank-queue conflicts of one instruction on a core (R188, R423): the chunks of 16 bytes that it touches beyond one for each
bank (log 90). -/
def countBanks (s : State) (ctx core base n : Nat) (offs : List Nat) : State :=
  let chunks := (offs.flatMap fun o => blocksOf (base + o) n).eraseDups
  countEvent s ctx 0x030 core (fun c => relCore s c core) (chunks.length - ((chunks.map (· % 64)).eraseDups).length)

/-! ### Writes of MMA operands before their MMA performs (R300) -/

/-- A range meets the scratchpad operands of a received MMA. -/
def mmaMeets (r : MmaRec) (off n : Nat) : Bool :=
  let a := if r.m.fa = .e2m1 && r.aScales.isNone then 68 else 64
  let b := if r.m.fb = .e2m1 then 1088 else 1024
  (r.rows.any fun o => overlap off n o a) || (match r.aScales with | some o => overlap off n o 64 | none => false) ||
    (!r.cellar && overlap off n r.bo b)

/-- `n` bytes at an offset have been written by the fibres `fids`, or by another agent: received MMAs that read them, and
that `late` says the write follows, and yokes that a writer has signed, take note (R300). -/
def noteScr (t : Train) (rank off n : Nat) (fids : List Nat) (late : MmaRec → Bool) : Train :=
  let t := match mget t.mmas rank with
    | none => t
    | some rs => { t with mmas := mset t.mmas rank (rs.map fun r => if late r && mmaMeets r off n then { r with early := true } else r) }
  match mget t.yk rank with
  | none => t
  | some ys =>
    { t with yk := mset t.yk rank (ys.map fun y =>
        (y.1, if fids.any fun f => (mget y.2.signed f).isSome then { y.2 with writes := (off, n) :: y.2.writes } else y.2)) }

/-- A store of a fibre or dray to the scratchpad. -/
def scrStore (t : Train) (rank off : Nat) (bs : List Byte) (poison : Bool) (fids : List Nat) : Train :=
  noteScr (scrPut t rank off bs poison) rank off bs.length fids fun _ => true

end Sys2Proof.Machine
end

