-- ==== Sys2Proof/Machine/Translate.lean ====
section
/-! DEFINITION. Composed translation (R20, R357 to R364): the stage-1 walk, the composite grant map, the TLBs, and who
owns a grant fault. -/

namespace Sys2Proof.Machine

open Sys2Proof

def accNeedsR : Access → Bool
  | .load | .atomic | .copyRead => true
  | _ => false
def accNeedsW : Access → Bool
  | .store | .atomic | .copyWrite => true
  | _ => false
def accNeedsX : Access → Bool
  | .fetch => true
  | _ => false

/-- ACCESS codes of a report (R366). -/
def accCode : Access → BitVec 3
  | .load => 0 | .store => 1 | .atomic => 2 | .fetch => 3 | .copyRead => 4 | .copyWrite => 5 | .other => 6 | .none => 7

def Grant.covers (g : Grant) (x : Nat) : Bool := g.base ≤ x && x < g.base + 65536 * g.pages

/-- A range of its own space that a context has granted to a child (R356, R360). -/
def grantedAway (s : State) (c x : Nat) : Bool :=
  s.ctxs.any fun e => e.1 ≠ 0 && e.2.parent = c &&
    e.2.gmap.any fun g => g.target ≤ x && x < g.target + 65536 * g.pages

/-- The machine address through the grant maps of the path, or the first context whose map fails and the address in
its space (R360, R364). -/
def lookupUp (s : State) (w f : Bool) : Nat → Nat → Nat → Except (Nat × Nat) Nat
  | 0, c, x => .error (c, x)
  | n + 1, c, x =>
    if c = 0 then (if isRefused x || isRetired s 0 (x / 65536) then .error (0, x) else .ok x)
    else
      match (s.ctx c).gmap.find? fun g => g.covers x && (!w || g.wr) && !(f && g.nx) with
      | none => .error (c, x)
      | some g => lookupUp s w f n (s.ctx c).parent (g.target + (x - g.base))

/-- Lookup in the composite map of a context: the machine address, or the owner of the grant fault and OPA (R364). -/
def lookup (s : State) (c x : Nat) (w f : Bool) : Except (Nat × Nat) Nat :=
  if grantedAway s c x then .error (c, x)
  else
    match lookupUp s w f 8 c x with
    | .ok ma => .ok ma
    | .error (k, a) => .error (if k = 0 then 0 else (s.ctx k).parent, a)

/-- A context holds key 0 and the keys granted to it; the root holds all (R362). -/
def holdsKey (s : State) (c : Nat) (k : Byte) : Bool := k = 0 || c = 0 || (s.ctx c).keys.contains k.toNat

/-- What a translation gives. -/
inductive Xl where
  | ok (ma : Nat) (key : Byte)
  /-- Page fault: walk level or 0 for a permission fault, FMT, CPA, leaf KEY (R407, R409). -/
  | page (level : Nat) (fmt : Bool) (cpa : Nat) (key : Byte)
  /-- The page carries a fault mark in the cluster (R408). -/
  | behind
  /-- The walk's fetches are held at the home, the MEM bucket being empty (R370; log 80). -/
  | held
  /-- Grant fault: level, owner, OPA, CPA, key (R364). -/
  | grant (level owner opa cpa : Nat) (key : Byte)
deriving DecidableEq, Repr

/-- The 13-bit index of a level (R20). -/
def vaIndex (va level : Nat) : Nat := nbits va (if level = 1 then 42 else if level = 2 then 29 else 16) 13

/-- A table entry that keeps every "must" of R357 at its level. -/
def pteOk (e level : Nat) : Bool :=
  nbits e 44 20 = 0 && nbits e 5 3 = 0 &&
  (if level = 1 then !nbit e 1 else if level = 2 then !nbit e 1 || nbits e 16 13 = 0 else nbit e 1) &&
  (nbit e 1 || nbits e 8 8 = 0)

/-- One table fetch: a bypass load at home under key 0 (R358, R362), a request of the context (R370). -/
def fetchPte (s : State) (cl c tab va level : Nat) : Except Xl Nat × State :=
  let x := tab + 8 * vaIndex va level
  match lookup s c x false false with
  | .error (o, a) => (.error (.grant level o a x 0), s)
  | .ok ma =>
    if !isHbm ma then (.error (.page level true 0 0), s)
    else if keyConflict s ma 0 then (.error (.page level true 0 0), s)
    else
      let (g, s) := loadBypass s cl ma 8 0
      let s := homeAccess s c ma 1
      let e := leVal g.bytes
      if !nbit e 0 then (.error (.page level false 0 0), s)
      else if !pteOk e level then (.error (.page level true 0 (if nbit e 1 then BitVec.ofNat 8 (nbits e 8 8) else 0)), s)
      else if nbit e 1 && !holdsKey s c (BitVec.ofNat 8 (nbits e 8 8)) then
        (.error (.page level true 0 (BitVec.ofNat 8 (nbits e 8 8))), s)
      else (.ok e, s)

/-- The leaf of an address and its context-physical address. -/
structure LeafAt where
  e : Nat
  cpa : Nat
deriving DecidableEq, Repr

/-- The walk from a table at a level (R358). -/
def walkFrom (cl c va : Nat) : Nat → Nat → Nat → State → Except Xl LeafAt × State
  | 0, level, _, s => (.error (.page level false 0 0), s)
  | n + 1, level, tab, s =>
    match fetchPte s cl c tab va level with
    | (.error x, s) => (.error x, s)
    | (.ok e, s) =>
      if nbit e 1 then
        let off := if level = 2 then nbits va 0 29 else nbits va 0 16
        (.ok ⟨e, 65536 * nbits e 16 28 + off⟩, s)
      else walkFrom cl c va n (level + 1) (65536 * nbits e 16 28) s

/-- The walk of R358. A context without a stage-1 table takes a page fault at level 1 (log 16). -/
def walk (s : State) (cl c va : Nat) : Except Xl LeafAt × State :=
  match (s.ctx c).s1root with
  | none => (.error (.page 1 false 0 0), s)
  | some r => walkFrom cl c va 3 1 r s

/-- Context-physical addresses that a walk from a table reads, and the page that it reaches. -/
def touchFrom (s : State) (cl c va : Nat) : Nat → Nat → Nat → List Nat
  | 0, _, _ => []
  | n + 1, level, tab =>
    (tab + 8 * vaIndex va level) :: match (fetchPte s cl c tab va level).1 with
      | .error _ => []
      | .ok e => if nbit e 1 then [65536 * nbits e 16 28 + (if level = 2 then nbits va 16 13 * 65536 else 0)]
        else touchFrom s cl c va n (level + 1) (65536 * nbits e 16 28)

def walkTouch (s : State) (cl c va : Nat) : List Nat :=
  match (s.ctx c).s1root with
  | none => []
  | some r => touchFrom s cl c va 3 1 r

/-- Leaf permission for an access (R357). -/
def leafPermits (e : Nat) (acc : Access) : Bool :=
  (!accNeedsR acc || nbit e 2) && (!accNeedsW acc || nbit e 3) && (!accNeedsX acc || nbit e 4)

def Tlb.permits (t : Tlb) (acc : Access) : Bool :=
  (!accNeedsR acc || t.r) && (!accNeedsW acc || (t.w && t.gw)) && (!accNeedsX acc || (t.x && t.gx))

def lookupBoth (s : State) (c x : Nat) (w f : Bool) : Bool :=
  match lookup s c x w f with
  | .ok _ => true
  | .error _ => false

/-- The walk and the lookup, with the entry they leave in the TLBs (R183, R363). `host` permits region 10 (R23). -/
def walkLookup (s : State) (cl : Nat) (core : Option Nat) (c va : Nat) (acc : Access) (host : Bool) : Xl × State :=
  if outOf s c .mem then (.held, s)
  else
  let s := countEvent s c 0x050 cl (fun a => relCluster s a cl) 1
  match walk s cl c va with
  | (.error x, s) => (x, s)
  | (.ok l, s) =>
    let key : Byte := BitVec.ofNat 8 (nbits l.e 8 8)
    if !leafPermits l.e acc then (.page 0 false l.cpa key, s)
    else
      match lookup s c l.cpa (accNeedsW acc) (accNeedsX acc) with
      | .error (o, a) => (.grant 0 o a l.cpa key, s)
      | .ok ma =>
        if isHost ma && !host then
          (.grant 0 (if c = 0 then 0 else (s.ctx c).parent) (if c = 0 then ma else l.cpa) l.cpa key, s)
        else
          let t : Tlb := ⟨c, va / 65536, l.cpa / 65536, ma / 65536, nbit l.e 2, nbit l.e 3, nbit l.e 4, key,
            lookupBoth s c l.cpa true false, lookupBoth s c l.cpa false true⟩
          let s := modCluster s cl fun k => { k with tlb := (t :: k.tlb.filter fun u => !(u.ctx = c && u.vpn = t.vpn)).take 2048 }
          let s := match core with
            | some n => modCore s n fun k => { k with tlb := (t :: k.tlb.filter fun u => !(u.ctx = c && u.vpn = t.vpn)).take 64 }
            | none => s
          (.ok ma key, s)

/-- The page of HBM4 whose upper half is not backed (R22). -/
def isSplitPage (ma : Nat) : Bool := ma < 2 ^ 44 && maRegion ma = 0 && maOff ma / 65536 = 0x2CB4178000 / 65536

/-- Translate one address: a cached entry that permits the access is used (R363); otherwise the fault mark, unless the
lane was replayed (R408, R410); otherwise the walk. -/
def xlate (s : State) (cl : Nat) (core : Option Nat) (c va0 : Nat) (acc : Access) (replay host : Bool) : Xl × State :=
  let va := va55 va0
  let vpn := va / 65536
  let hit (l : List Tlb) : Option Tlb := l.find? fun t => t.ctx = c && t.vpn = vpn && t.permits acc
  let cached : Option Tlb :=
    match core with
    | some n => match hit (s.core n).tlb with
      | some t => some t
      | none => hit (s.cluster cl).tlb
    | none => hit (s.cluster cl).tlb
  match cached with
  | some t =>
    if isHost (65536 * t.mpage) && !host then
      (.grant 0 (if c = 0 then 0 else (s.ctx c).parent)
        (if c = 0 then 65536 * t.mpage + va % 65536 else 65536 * t.cpage + va % 65536)
        (65536 * t.cpage + va % 65536) t.key, s)
    else if isRefused (65536 * t.mpage + va % 65536) then
      (.grant 0 0 (65536 * t.mpage + va % 65536) (65536 * t.cpage + va % 65536) t.key, s)
    else (.ok (65536 * t.mpage + va % 65536) t.key, s)
  | none =>
    if !replay && ((s.cluster cl).marks.any fun m => m.ctx = c && m.vpn = vpn) then (.behind, s)
    else walkLookup s cl core c va acc host

end Sys2Proof.Machine
end

