-- ==== Sys2Proof/Machine/Ops.lean ====
section
/-! DEFINITION. Operations that the meanings share: fault reports (R364 to R367), parking and page faults (R146, R184,
R407 to R410), taking a trap and returning from one (R398 to R406), how a fragment goes on after an instruction
(R144), and waiting at issue (R61). -/

namespace Sys2Proof.Machine

open Sys2Proof

/-! ### Trap codes (R397) -/

def trapOf (code : Nat) : Trap := ⟨BitVec.ofNat 16 code, 0xFF, 0, 0⟩
def trapAt (code : Nat) (bad : Word32) (addr : Word64) : Trap :=
  ⟨BitVec.ofNat 16 code, 0xFF, bad.setWidth 64, addr⟩
/-- Field identifiers of R58. -/
def fieldCode : Field → Byte
  | .opc => 0 | .guard => 1 | .a => 2 | .b => 3 | .c => 4 | .mod => 5 | .tail => 6 | .d => 7 | .xmod => 8
def Trap.onField (t : Trap) (f : Field) : Trap := { t with field := fieldCode f }
def Trap.cls (t : Trap) : Nat := nbits t.code.toNat 8 7

def cZERO_WORD : Nat := 0x0101
def cONES_WORD : Nat := 0x0102
def cILLEGAL : Nat := 0x0103
def cBAD_OPERAND : Nat := 0x0104
def cBAD_TARGET : Nat := 0x0201
def cMASK_DISAGREE : Nat := 0x0202
def cFRAME_STATE : Nat := 0x0203
def cMEM_ALIGN : Nat := 0x0301
def cMEM_RANGE : Nat := 0x0302
def cCELLAR_STORE : Nat := 0x0303
def cCHANNEL_CLOSED : Nat := 0x0304
def cKEY_CONFLICT : Nat := 0x0305
def cPAGE_FAULT : Nat := 0x0401
def cFAULT_LIVELOCK : Nat := 0x0402
def cDATA_POISON : Nat := 0x0501
def cCASK_RANGE : Nat := 0x0601
def cCASK_MISMATCH : Nat := 0x0602
def cCASK_COUNT : Nat := 0x0603
def cBAR_COUNT : Nat := 0x0604
def cLAUNCH_BARRIER : Nat := 0x0605
def cMB_STATE : Nat := 0x0606
def cYOKE_STATE : Nat := 0x0701
def cYOKE_OVER : Nat := 0x0702
def cYOKE_COUNT : Nat := 0x0703
def cCOPY_DESC : Nat := 0x0801
def cCOPY_FAULT : Nat := 0x0802
def cLEVEL_RANGE : Nat := 0x0901
def cCTX_DENIED : Nat := 0x0A01
def cASSERT : Nat := 0x0C01
def cSTEP : Nat := 0x0D01
def cBKPT : Nat := 0x0D02
def cWATCH : Nat := 0x0D03
def cCMD_BREAK : Nat := 0x0D04

/-! ### Fault reports -/

/-- A report of a context in which no train takes part (R366). -/
def Report.blank (s : State) (ctx : Nat) : Report where
  pc := 0
  aux := 0
  cpa := 0
  va := 0
  lanes := 0
  launch := 0
  train := 0
  seq := 0
  queue := 0
  ty := 0
  origin := BitVec.ofNat 12 ctx
  depth := BitVec.ofNat 4 (s.ctx ctx).depth
  owner := BitVec.ofNat 12 ctx
  code := 0
  key := 0
  engine := 6
  level := 15
  refault := false
  fmt := false
  reflected := false
  access := 7
  frag := 0
  rank := 0

/-- A report of a train (R366). -/
def reportTrain (s : State) (t : Train) : Report :=
  { Report.blank s t.ctx with launch := t.launch, train := t.num, queue := t.queue }

/-- A report of a fragment at an instruction. -/
def reportFrag (s : State) (x : Ix) (pc : Word64) (lanes : Word32) (frag : Nat) : Report :=
  { reportTrain s x.tr with
    pc := pc
    lanes := lanes
    engine := if x.spine then 1 else 0
    frag := BitVec.ofNat 8 frag
    rank := BitVec.ofNat 8 x.rank }

def parentOf (s : State) (c : Nat) : Nat := if c = 0 then 0 else (s.ctx c).parent

/-- A report goes to a context's fault queue; FAULT_REPORT_DELIVER writes it (R365). -/
def sendReport (s : State) (owner : Nat) (r : Report) : State :=
  modCtx s owner fun c => { c with fqWait := c.fqWait ++ [{ r with owner := BitVec.ofNat 12 owner }] }

/-- The reflect mask has bit c = 1; only bits 1 to 13 count (R398). -/
def reflects (s : State) (ctx cls : Nat) : Bool := 1 ≤ cls && cls ≤ 13 && (s.ctx ctx).reflect.getLsbD cls

/-! ### Waiting at issue (R61) -/

/-- The instruction in turn has not started; its wait takes a number when it begins (R233, R326, R381). -/
def stall (s : State) (r : FragRef) (w : WaitOn) : State :=
  let s := { s with stalled := true }
  match s.frag? r with
  | some f =>
    if f.wait.map (·.2) = some w then s
    else { modFrag s r (fun f => { f with wait := some (s.waitSeq, w) }) with waitSeq := s.waitSeq + 1 }
  | none => s

/-! ### Trap frames (R400 to R404) -/

/-- Frame slots in use on the fragment's core, or on its spine. -/
def usedSlots (s : State) (x : Ix) : List Nat :=
  if x.spine then x.co.frames.map (·.1)
  else s.trains.flatMap fun e =>
    if e.2.res = .resident then
      e.2.coaches.flatMap fun c =>
        if e.2.cores[e.2.rankOf.getD c.1 0]? = some x.core then c.2.frames.map (·.1) else []
    else []

def freeSlot (s : State) (x : Ix) : Option Nat :=
  let used := usedSlots s x
  (List.range (if x.spine then 1 else 8)).find? fun i => !used.contains i

/-- The frame that a fragment made of these lanes holds (R400). -/
def Coach.frameOf (co : Coach) (m : Word32) : Option (Nat × Frame) :=
  co.frames.find? fun e => m &&& ~~~e.2.lanes = 0

def laneOfReads (ls : List (Nat × Loc)) (m : Word32) : List (Nat × Loc) := ls.filter fun e => m.getLsbD e.1

/-- A destination has a register among v0 to v3. -/
def inV03 (o : Operand) : Bool :=
  match o with
  | .v i => i < 4
  | _ => false

/-- The replay queue at a trap of the lanes `m` (R404). -/
def replayQueue (co : Coach) (m : Word32) : List RqEntry :=
  co.pend.filterMap fun p =>
    let ls := laneOfReads p.reads m
    if ls.isEmpty || p.drop || p.dst = .unused then none
    else some ⟨p.id, p.word, p.pc, false, false, inV03 p.dst, maskOf (ls.map (·.1))⟩

/-- Pending writes of the lanes `m` at a trap, apart from those of other lanes: those destined for v0 to v3 land in frame `slot`, and
DISCARD acts on them alone (R404, R406). -/
def redirect (ps : List Pend) (m : Word32) (slot : Nat) : List Pend :=
  ps.flatMap fun p =>
    let inside := laneOfReads p.reads m
    let outside := p.reads.filter fun e => !m.getLsbD e.1
    if inside.isEmpty then [p]
    else (if outside.isEmpty then [] else [{ p with reads := outside, bad := p.bad &&& ~~~m }]) ++
      [{ p with
        reads := inside
        bad := if outside.isEmpty then p.bad else p.bad &&& m
        frame := if inV03 p.dst then some slot else p.frame }]

/-- The predicate word as %preds reads it (R50). -/
def Lane.predWord (l : Lane) : Word16 := (1 : BitVec 1) ++ l.preds

/-- The frame of a trap (R401, R403). -/
def frameFor (x : Ix) (t : Trap) (tpc rpc : Word64) (word : Word96) : Frame where
  tpc := tpc
  rpc := rpc
  word := word
  lanes := x.fr.mask
  code := t.code
  field := t.field
  frag := BitVec.ofNat 8 x.ref.frag
  pfrag := BitVec.ofNat 8 (x.fr.pfrag.getD x.ref.frag)
  sibs := (x.co.frags.filter fun f => f.1 ≠ x.ref.frag).foldl (fun m f => m ||| f.2.mask) 0
  detail0 := t.d0
  detail1 := t.d1
  preds := (lanesOf x.fr.mask).filterMap fun i => (mget x.co.lanes i).map fun l => (i, l.predWord)
  rq := replayQueue x.co x.fr.mask
  spare := 0
  savedv := (lanesOf x.fr.mask).flatMap fun i =>
    match mget x.co.lanes i with
    | some l => (List.range 4).map fun j => (4 * i + j, l.reg j)
    | none => []

/-- Entry into the handler (R400); a deadline that a NAP has recorded stays (R166). -/
def enterHandler (s : State) (x : Ix) (slot : Nat) (t : Trap) (tpc rpc : Word64) (word : Word96) (tvec : Word64) : State :=
  let co := x.co
  let f := frameFor x t tpc rpc word
  let lanes := (lanesOf x.fr.mask).foldl (fun m i =>
    match mget m i with
    | some l => mset m i { l with preds := 0 }
    | none => m) co.lanes
  modCoach s x.ref.train x.ref.coach fun _ =>
    { co with
      frames := mset co.frames slot f
      pend := redirect co.pend x.fr.mask slot
      lanes := lanes
      frags := mset co.frags x.ref.frag { Frag.fresh x.fr.mask tvec x.fr.pfrag with bar := x.fr.bar, nap := x.fr.nap } }

/-- A trap in this fragment would be reflected (R398, R402). -/
def isReflected (s : State) (x : Ix) (t : Trap) : Bool :=
  (x.co.frameOf x.fr.mask).isSome || reflects s x.ctx t.cls || (s.ctx x.ctx).sys.tvec = 0

/-- The fragment parks and the parent is told (R398, R402). -/
def reflectTrap (s : State) (x : Ix) (t : Trap) (tpc rpc : Word64) : State :=
  let nest := (x.co.frameOf x.fr.mask).isSome
  let s := modFrag s x.ref fun _ =>
    { Frag.fresh x.fr.mask rpc x.fr.pfrag with park := some ⟨.reflected, tpc, []⟩, bar := x.fr.bar, nap := x.fr.nap }
  sendReport s (parentOf s x.ctx)
    { reportFrag s x tpc x.fr.mask x.ref.frag with
      code := if nest then t.code ||| 0x8000 else t.code
      aux := t.d0
      va := t.d1 }

/-- Taking a trap of kind B (`b`) or A in a fragment: `tpc` is the instruction's address and `word` its word; the
fragment resumes at `tpc` for kind B and at its own PC for kind A. While no frame slot is free, a kind-B instruction
has not issued, and a kind-A trap is due before the fragment's next instruction (R398 to R402); so is one of an instruction that
still waits at a barrier (R430). -/
def takeTrap (s : State) (r : FragRef) (t : Trap) (b : Bool) (tpc : Word64) (word : Word96) : State :=
  match ixOf s r with
  | none => s
  | some x =>
    let rpc := if b then tpc else x.fr.pc
    if !b && x.fr.bar.isSome then modFrag s r fun f => { f with due := some ⟨t, tpc, word⟩ }
    else if isReflected s x t then reflectTrap s x t tpc rpc
    else
      match freeSlot s x with
      | some slot => enterHandler s x slot t tpc rpc word (s.ctx x.ctx).sys.tvec
      | none =>
        if b then stall s r .frames
        else modFrag s r fun f => { f with due := some ⟨t, tpc, word⟩ }

/-- A kind-B trap of the instruction that the fragment stands at. -/
def trapB (s : State) (x : Ix) (t : Trap) (word : Word96) : State := takeTrap s x.ref t true x.fr.pc word

/-- A control-transfer target is a multiple of 4 and canonical (R36). -/
def targetOk (pc : Word64) : Bool := pc.toNat % 4 = 0 && canonical pc.toNat

/-- Return from the handler (R406): the frame's registers and predicates come back, pending writes return to the live
registers, and the fragment goes on at RPC. -/
def trapReturn (s : State) (x : Ix) (word : Word96) : State :=
  match x.co.frameOf x.fr.mask with
  | none => trapB s x (trapOf cFRAME_STATE) word
  | some (slot, f) =>
    if f.lanes ≠ x.fr.mask then trapB s x (trapOf cFRAME_STATE) word
    else if !targetOk f.rpc then trapB s x (trapAt cBAD_TARGET x.fr.mask f.rpc) word
    else
      let co := x.co
      let lanes := (lanesOf f.lanes).foldl (fun m i =>
        match mget m i with
        | some l =>
          let l := { l with preds := (mgetD f.preds i 0).extractLsb' 0 15, rfc := 0 }
          mset m i ((List.range 4).foldl (fun l j => l.setReg j (mgetD f.savedv (4 * i + j) 0)) l)
        | none => m) co.lanes
      let dropped (p : Pend) : Bool := f.rq.any fun e => e.id = p.id && e.discard
      let pend := co.pend.map fun p =>
        if (laneOfReads p.reads f.lanes).isEmpty then p
        else { p with
          frame := if p.frame = some slot then none else p.frame
          drop := p.drop || dropped p }
      modCoach s x.ref.train x.ref.coach fun _ =>
        { co with
          lanes := lanes
          pend := pend
          frames := mdel co.frames slot
          frags := mset co.frags x.ref.frag (Frag.fresh x.fr.mask f.rpc x.fr.pfrag) }

/-! ### How the fragment goes on (R144) -/

/-- What a lane does after the instruction. -/
inductive Move where
  | go (pc : Word64)
  | ended
  | park (p : Park)
  | livelock (t : Trap)
deriving DecidableEq, Repr

def Move.isGo : Move → Bool
  | .go _ => true
  | _ => false

def moveOf (ms : List (Nat × Move)) (pc : Word64) (l : Nat) : Move :=
  ((ms.find? fun e => e.1 = l).map (·.2)).getD (.go (pc + 12))

def addGroup (m : Move) (l : Nat) : List (Move × Word32) → List (Move × Word32)
  | [] => [(m, bitOf l)]
  | (n, k) :: t => if n = m then (n, k ||| bitOf l) :: t else (n, k) :: addGroup m l t

/-- The fragment's lanes grouped by what they do next. -/
def groups (ms : List (Nat × Move)) (pc : Word64) (mask : Word32) : List (Move × Word32) :=
  (lanesOf mask).foldl (fun g l => addGroup (moveOf ms pc l) l g) []

/-- A pending reply that goes to no register of a fibre: to a uniform register, or to none. -/
def Pend.ofCoach (p : Pend) : Bool :=
  match p.dst with
  | .s _ | .unused => true
  | _ => false

/-- Replies that a coach waits for no longer belong to lanes that end (R141). -/
def Pend.leave (p : Pend) (m : Word32) : Pend :=
  if p.ofCoach then
    { p with
      reads := p.reads.map fun e => if m.getLsbD e.1 then (e.1 + 32, e.2) else e
      first := if m.getLsbD p.first then p.first + 32 else p.first
      bad := p.bad &&& ~~~m }
  else p

/-- Lanes of `m` end (R141); a frame none of whose lanes lives is free. -/
def endLanes (co : Coach) (m : Word32) : Coach :=
  let lanes := (lanesOf m).foldl (fun k i => mdel k i) co.lanes
  { co with
    lanes := lanes
    pend := co.pend.map fun p => p.leave m
    passed := co.passed.filter fun e => !m.getLsbD e.lane
    left := (lanesOf m).foldl (fun k i => match mget co.lanes i with | some l => mset k i l.v | none => k) co.left
    frames := co.frames.filter fun e => (lanesOf e.2.lanes).any fun i => (mget lanes i).isSome }

/-- What is left of a due trap for some lanes: DATA_POISON is due in those that read poisoned bytes (R198). -/
def Due.within (d : Option Due) (m : Word32) : Option Due :=
  match d with
  | none => none
  | some d =>
    let l := d.trap.d0.setWidth 32 &&& m
    if l = 0 then none else some { d with trap := { d.trap with d0 := l.setWidth 64 } }

/-- The fragment is replaced by one fragment per group; `keep` gives those that go on what the instruction leaves them. -/
def regroup (s : State) (x : Ix) (pc : Word64) (gs : List (Move × Word32)) (keep : Frag → Frag) : State :=
  let live := gs.filter fun g => g.1 ≠ .ended
  let pf := if live.length ≤ 1 then x.fr.pfrag else some x.ref.frag
  modCoach s x.ref.train x.ref.coach fun co =>
    let due := (mget co.frags x.ref.frag).bind (·.due)
    let co := { co with frags := mdel co.frags x.ref.frag }
    gs.foldl (fun co g =>
      match g.1 with
      | .ended => endLanes co g.2
      | .go p =>
        let lanes := (lanesOf g.2).foldl (fun m i =>
          match mget m i with
          | some l => if l.rfc = 0 then m else mset m i { l with rfc := 0 }
          | none => m) co.lanes
        { co with lanes := lanes, frags := mset co.frags (lowest g.2) { keep (Frag.fresh g.2 p pf) with due := Due.within due g.2 } }
      | .park p => { co with frags := mset co.frags (lowest g.2) { Frag.fresh g.2 pc pf with park := some p, due := Due.within due g.2 } }
      | .livelock _ => { co with frags := mset co.frags (lowest g.2) { Frag.fresh g.2 pc pf with due := Due.within due g.2, replay := x.fr.replay } }) co

/-! ### Arrivals at train and launch barriers (R243 to R248) -/

def Train.barrier (t : Train) (b : Nat) : Barrier := mgetD t.bars b ⟨0, 0, 0⟩

/-- Every live fibre of the train, its spine's among them, has arrived bit `b` set. -/
def Train.allArrived (t : Train) (b : Nat) : Bool :=
  let ok (co : Coach) : Bool := co.lanes.all fun l => l.2.arrived.getLsbD b
  (match t.spine with | some co => ok co | none => true) && t.coaches.all fun c => ok c.2

def Train.mapLanes (t : Train) (f : Lane → Lane) : Train :=
  let g (co : Coach) : Coach := { co with lanes := co.lanes.map fun l => (l.1, f l.2) }
  { t with spine := t.spine.map g, coaches := t.coaches.map fun c => (c.1, g c.2) }

def Lane.clearArrived (b : Nat) (l : Lane) : Lane := { l with arrived := l.arrived &&& ~~~(1#17 <<< b) }

/-- Barrier `b` completes its phase when every expected arrival has come (R244). -/
def Train.testBar (t : Train) (b : Nat) : Train :=
  let r := t.barrier b
  if r.narr > 0 && (if r.cnt = 0 then t.allArrived b else r.narr = r.cnt) then
    { t.mapLanes (Lane.clearArrived b) with bars := mset t.bars b ⟨r.ph + 1, 0, 0⟩ }
  else t

/-- The launch of a train: its queue and its card's publication number. -/
def lbarKey (t : Train) : Nat := 2 ^ 32 * t.queue.toNat + t.pub
def lbarOf (s : State) (k : Nat) : LBar := mgetD s.lbars k ⟨0, []⟩

/-- A train whose live fibres have all arrived at its launch's barrier arrives there (R248). -/
def arriveLaunch (s : State) (t : Nat) : State :=
  match mget s.trains t with
  | none => s
  | some tr =>
    let l := lbarOf s (lbarKey tr)
    let live := (match tr.spine with | some co => !co.lanes.isEmpty | none => false) || tr.coaches.any fun c => !c.2.lanes.isEmpty
    if live && tr.allArrived 16 && !l.arrived.contains t then
      { s with lbars := mset s.lbars (lbarKey tr) { l with arrived := t :: l.arrived } }
    else s

/-- Trains of a train's launch are still to be placed: its card has records left. -/
def launchOpen (s : State) (t : Train) : Bool :=
  let q := s.queue t.queue.toNat
  (q.ring ++ q.rsv).any fun c => c.2.pub = t.pub && c.2.st ≠ .gone && c.2.left ≠ 0

/-- The launch's phase completes when every train of the launch has arrived or retired (R248). -/
def testLaunch (s : State) (k : Nat) : State :=
  let l := lbarOf s k
  let ts := s.trains.filter fun e => e.2.gbar && lbarKey e.2 = k
  if !l.arrived.isEmpty && ts.all fun e => l.arrived.contains e.1 && !launchOpen s e.2 then
    { s with
      trains := s.trains.map fun e => if e.2.gbar && lbarKey e.2 = k then (e.1, e.2.mapLanes (Lane.clearArrived 16)) else e
      lbars := mset s.lbars k ⟨l.ph + 1, []⟩ }
  else s

/-- Phases that complete because fibres of the train have ended (R244, R248). -/
def barsAfterEnd (s : State) (t : Nat) : State :=
  let s := modTrain s t fun tr => (List.range 16).foldl Train.testBar tr
  match mget s.trains t with
  | some tr => if tr.gbar then testLaunch (arriveLaunch s t) (lbarKey tr) else s
  | none => s

/-- After an instruction: fragments form, FAULT_LIVELOCK is raised on its lanes, then a kind-A trap of the instruction,
or STEP (R430), in the fragments that go on. -/
def finish (s : State) (x : Ix) (word : Word96) (ms : List (Nat × Move)) (after : Option Trap) (keep : Frag → Frag) : State :=
  let pc := x.fr.pc
  let gs := groups ms pc x.fr.mask
  let s := regroup s x pc gs keep
  let s := if gs.any fun g => g.1 = .ended then barsAfterEnd s x.ref.train else s
  let step := x.co.step && (x.co.frameOf x.fr.mask).isNone
  let after := match after with
    | some t => some t
    | none => if step then some (trapOf cSTEP) else none
  gs.foldl (fun s g =>
    let r : FragRef := { x.ref with frag := lowest g.2 }
    match g.1 with
    | .livelock t => takeTrap s r t true pc word
    | .go _ =>
      match after with
      | some t => takeTrap s r t false pc word
      | none => s
    | _ => s) s

/-- A kind-A trap of the instruction would need a frame slot and none is free, so it has not issued (R400). -/
def lacksFrame (s : State) (x : Ix) (after : Option Trap) : Bool :=
  let step := x.co.step && (x.co.frameOf x.fr.mask).isNone
  let t := match after with
    | some t => some t
    | none => if step then some (trapOf cSTEP) else none
  match t with
  | some t => !isReflected s x t && (freeSlot s x).isNone
  | none => false

/-! ### Page faults and grant faults of lanes (R184, R364, R407 to R410) -/

/-- Buffer of a context for a C-die. -/
def bufIndex (c : Ctx) (die : Nat) : Nat := (c.bufs.findIdx? fun b => b.die = die).getD 0

/-- One entry into a fault buffer: DROPPED when it holds 8, a notice when it held none (R407, R408). -/
def bufferEntry (s : State) (ctx die cluster : Nat) (r : Report) : State :=
  let c := s.ctx ctx
  let bi := bufIndex c die
  match c.bufs[bi]? with
  | none => s
  | some b =>
    if b.entries.length ≥ 8 then
      modCtx s ctx fun c => { c with bufs := c.bufs.set bi { b with dropped := true, drops := min (b.drops + 1) 0xFFFF } }
    else
      let r := { r with aux := BitVec.ofNat 64 bi, seq := BitVec.ofNat 32 b.written }
      let s := modCtx s ctx fun c =>
        { c with bufs := c.bufs.set bi { b with entries := b.entries ++ [(cluster, r)], written := b.written + 1 } }
      let s := if cluster < 192 then countEvent s ctx 0x051 cluster (fun c => relCluster s c cluster) 1 else s
      if b.entries.isEmpty then
        let tgt := if reflects s ctx 4 then parentOf s ctx else ctx
        sendReport s tgt { r with code := 0x0400, aux := BitVec.ofNat 64 bi }
      else s

def addMark (s : State) (cl ctx vpn : Nat) : State :=
  if (s.cluster cl).marks.any fun m => m.ctx = ctx && m.vpn = vpn then s
  else modCluster s cl fun k => { k with marks := k.marks ++ [⟨ctx, vpn, walkTouch s cl ctx (65536 * vpn)⟩] }

/-- A page of lanes whose translation failed: its lanes, the address of the lowest, and the failure. -/
structure PageFail where
  lanes : Word32
  vpn : Nat
  va : Word64
  xl : Xl
deriving DecidableEq, Repr

/-- Lanes of failed pages that the marks hold back. -/
def behindMask (fs : List PageFail) : Word32 :=
  fs.foldl (fun m f => match f.xl with | .behind => m ||| f.lanes | _ => m) 0

/-- Lanes with RFC 15 whose replayed walk faults again (R410). -/
def livelocked (x : Ix) (fs : List PageFail) : Word32 :=
  if x.fr.replay then
    fs.foldl (fun m f =>
      match f.xl with
      | .page .. => m ||| maskOf ((lanesOf f.lanes).filter fun i => ((mget x.co.lanes i).map (·.rfc)) = some 15)
      | _ => m) 0
  else 0

/-- The faulting lanes park: those behind marks as one fragment, the others as one, and every page with a fault of its
own is reported once (log 24). The moves of the lanes are answered with the state. -/
def parkLanes (s : State) (x : Ix) (acc : Access) (fs : List PageFail) : State × List (Nat × Move) :=
  let pc := x.fr.pc
  let behind := behindMask fs
  let live := livelocked x fs
  let own := fs.foldl (fun m f => m ||| f.lanes) 0 &&& ~~~behind &&& ~~~live
  let re := x.fr.replay
  let s := fs.foldl (fun s f =>
    let ls := f.lanes &&& ~~~live
    if ls = 0 then s
    else
      let base := { reportFrag s x pc ls (lowest own) with va := f.va, access := accCode acc, refault := re }
      match f.xl with
      | .page level fmt cpa key =>
        let s := addMark s x.cluster x.ctx f.vpn
        bufferEntry s x.ctx x.die x.cluster
          { base with code := BitVec.ofNat 16 cPAGE_FAULT, cpa := w64 cpa, level := BitVec.ofNat 4 level, fmt := fmt, key := key }
      | .grant level owner opa cpa key =>
        sendReport s owner { base with ty := 1, aux := w64 opa, cpa := w64 cpa, level := BitVec.ofNat 4 level, key := key }
      | .behind => countEvent s x.ctx 0x051 x.cluster (fun c => relCluster s c x.cluster) 1
      | _ => s) s
  let s := if re then
      modCoach s x.ref.train x.ref.coach fun co => fs.foldl (fun co f =>
        match f.xl with
        | .page .. => (lanesOf (f.lanes &&& ~~~live)).foldl (fun co i => modLane co i fun l => { l with rfc := l.rfc + 1 }) co
        | _ => co) co
    else s
  let pages := fs.filterMap fun f => match f.xl with | .behind => some f.vpn | _ => none
  let lv : Trap := ⟨BitVec.ofNat 16 cFAULT_LIVELOCK, 0xFF, live.setWidth 64,
    ((fs.find? fun f => f.lanes &&& live ≠ 0).map (·.va)).getD 0⟩
  (s, (lanesOf own).map (fun i => (i, Move.park ⟨.fault, pc, []⟩)) ++
    (lanesOf behind).map (fun i => (i, Move.park ⟨.behind, pc, pages⟩)) ++
    (lanesOf live).map fun i => (i, Move.livelock lv))

end Sys2Proof.Machine
end

