-- ==== Sys2Proof/Machine/Levels.lean ====
section
/-! DEFINITION. Level records (R315 to R319): where a record lies, the held copy, the changes of COUNT with their
propagation, and the cancel state that %cancel reads (R53). -/

namespace Sys2Proof.Machine

open Sys2Proof

/-- The machine address of level record `id` of a context; none for "no level" and for an invalid identifier (R315). -/
def levelAddr (s : State) (ctx id : Nat) : Option Nat :=
  let c := s.ctx ctx
  if id = 0 || id ≥ c.lvlen || id ≥ 2 ^ 20 then none
  else
    match lookup s ctx (c.lvbase + 32 * id) true false with
    | .ok ma => if isHbm ma then some ma else none
    | .error _ => none

def levelValid (s : State) (ctx id : Nat) : Bool := (levelAddr s ctx id).isSome

def homeVal (s : State) (ma n : Nat) (key : Byte) : Nat := leVal ((List.range n).map fun i => homeByte s (ma + i) key)

/-- The record: the held copy, or what memory holds of UP and CODE while COUNT is 0 (R316). -/
def levelAt (s : State) (ma : Nat) : Level :=
  match mget s.levels ma with
  | some l => l
  | none =>
    if keyConflict s ma 0 then Level.init
    else ⟨0, w32 (homeVal s (ma + 4) 4 0), false, BitVec.ofNat 8 (homeVal s (ma + 8) 1 0), none⟩

/-- A frame with another key stops a device access under key 0: the structure's parent is told, once while the operation
waits (R362). -/
def structConflict (s : State) (ctx addr engine : Nat) : State :=
  if (s.ctx ctx).conflicts.contains addr then s
  else
    sendReport (modCtx s ctx fun c => { c with conflicts := addr :: c.conflicts }) (parentOf s ctx) { Report.blank s ctx with
      code := BitVec.ofNat 16 cKEY_CONFLICT, cpa := w64 addr, engine := BitVec.ofNat 4 engine }

/-- The operation that waited for a structure has gone on. -/
def structClear (s : State) (ctx addr : Nat) : State :=
  if (s.ctx ctx).conflicts.contains addr then modCtx s ctx fun c => { c with conflicts := c.conflicts.filter (· ≠ addr) } else s

/-- A record is held while COUNT ≠ 0 or CANCEL is set (R316), or while its write-back waits. -/
def keepLevel (s : State) (ma : Nat) (l : Level) : State :=
  { s with levels := if l.count ≠ 0 || l.cancel || l.back.isSome then mset s.levels ma l else mdel s.levels ma }

/-- Write a record back to memory under key 0, its reserved bytes as zeros (R316; log 83); where the frame carries another key the
write-back waits and the record stays held (R362). -/
def levelWriteBack (s : State) (ctx ma : Nat) (l : Level) : State :=
  if keyConflict s ma 0 then keepLevel (structConflict s ctx ma 5) ma { l with back := some ctx }
  else
    let w2 := (if l.cancel then 2 ^ 31 else 0) + l.code.toNat
    let s := (wordsOf ma 32).foldl (fun s wa => dropOwner s wa) (structClear s ctx ma)
    keepLevel (homeWrite (tagFrame s ma 0) ma
      (leBytes 4 l.count.toNat ++ leBytes 4 l.up.toNat ++ leBytes 4 w2 ++ List.replicate 20 0) false) ma { l with back := none }

/-- Write-backs that wait for a frame's key are tried again. -/
def retryLevels (s : State) : State :=
  s.levels.foldl (fun s e => match e.2.back with | some c => levelWriteBack s c e.1 e.2 | none => s) s

/-- Suspended trains with a fragment in SJOIN on the record become ready to resume (R338). -/
def wakeJoins (s : State) (ma : Nat) : State :=
  { s with trains := s.trains.map fun e =>
      if e.2.res = .suspended && (e.2.coachIds.any fun c => match e.2.coach? c with
          | some co => co.frags.any fun f => match f.2.wait with | some (_, .sjoin l) => levelAddr s e.2.ctx l = some ma | _ => false
          | none => false) then (e.1, { e.2 with ready := true }) else e }

/-- Store a changed record; written back when `wb`, or when it is no longer held (R316). -/
def levelPut (s : State) (ctx ma : Nat) (l : Level) (wb : Bool) : State :=
  let s := if (levelAt s ma).count ≠ 0 && l.count = 0 then wakeJoins s ma else s
  let s := keepLevel s ma l
  if wb || l.back.isSome || !(l.count ≠ 0 || l.cancel) then levelWriteBack s ctx ma l else s

/-- COUNT of the record `id` changes by `d`; a change from 0 takes UP from `ups`, the enclosing levels that the card
names, or leaves UP when there is none (LVINC); a change from or to 0 is passed on to UP (R317). None where COUNT
would leave its range. -/
def levelAdd (ctx : Nat) : Nat → State → Nat → Int → Option (List Word32) → Option State
  | 0, s, _, _, _ => some s
  | n + 1, s, id, d, ups =>
    match levelAddr s ctx id with
    | none => some s
    | some ma =>
      let l := levelAt s ma
      let c : Int := l.count.toNat + d
      if c < 0 || c ≥ 2 ^ 32 then none
      else
        let fresh := l.count = 0 && c ≠ 0
        let up := if fresh then (match ups with | some u => u.head?.getD 0 | none => l.up) else l.up
        let s := levelPut s ctx ma { l with count := w32 c.toNat, up := up } (l.count ≠ 0 && c = 0)
        if fresh && up ≠ 0 then levelAdd ctx n s up.toNat 1 (ups.map (·.drop 1))
        else if l.count ≠ 0 && c = 0 && up ≠ 0 then levelAdd ctx n s up.toNat (-1) none
        else some s

def levelFuel : Nat := 1048576

/-- COUNT of the record `id` decreases by `n` for records that retire or are dropped, which is never refused (R317): at 0 it stays,
where an LVINC has taken away what was added (log 84). A change to 0 is passed on to UP. -/
def levelLess (ctx : Nat) : Nat → State → Nat → Nat → State
  | 0, s, _, _ => s
  | f + 1, s, id, n =>
    match levelAddr s ctx id with
    | none => s
    | some ma =>
      let l := levelAt s ma
      let c := l.count.toNat - n
      let s := levelPut s ctx ma { l with count := w32 c } (l.count ≠ 0 && c = 0)
      if l.count ≠ 0 && c = 0 && l.up ≠ 0 then levelLess ctx f s l.up.toNat 1 else s

/-- Records retire or are dropped (R317). -/
def levelSub (s : State) (ctx id n : Nat) : State := if n = 0 then s else levelLess ctx levelFuel s id n

def levelGet (s : State) (ctx id : Nat) : Level :=
  match levelAddr s ctx id with
  | some ma => levelAt s ma
  | none => Level.init

def levelCode (s : State) (ctx id code : Nat) : State :=
  match levelAddr s ctx id with
  | some ma => levelPut s ctx ma { levelAt s ma with code := BitVec.ofNat 8 code } false
  | none => s

/-- %cancel (R53). -/
def cancelWord (s : State) (t : Train) : Nat :=
  let b (id : Word32) (i : Nat) : Nat := if (levelGet s t.ctx id.toNat).cancel then 2 ^ i else 0
  let m := b t.launch 1 + b t.graph 2 + b t.phase 3 + b t.job 4
  if m = 0 then 0 else m + 1

end Sys2Proof.Machine
end

