-- ==== Sys2Proof/Machine/Float.lean ====
section
/-! DEFINITION. Floating-point values, exact arithmetic on them, Round and Sat (R92 to R99), the zero and NaN rules of
R124, comparison, and the special functions of R135 to R138. -/

namespace Sys2Proof.Machine

open Sys2Proof

/-- An exact value: NaN, an infinity, or (−1)^neg × (n ÷ d) × 2^e with d > 0. -/
inductive FVal where
  | nan
  | inf (neg : Bool)
  | fin (neg : Bool) (n d : Nat) (e : Int)
deriving DecidableEq, Repr

/-- The layout of a format (R92, R93): fraction bits, bias, width, the code of the largest finite value, the canonical
NaN, whether it has infinities and whether it has NaN. -/
structure FFmt where
  w : Nat
  f : Nat
  bias : Nat
  maxCode : Nat
  nan : Nat
  hasInf : Bool
  hasNan : Bool
deriving DecidableEq, Repr

def ffmt : Fmt → FFmt
  | .fp64 => ⟨64, 52, 1023, 0x7FEFFFFFFFFFFFFF, 0x7FF8000000000000, true, true⟩
  | .fp32 => ⟨32, 23, 127, 0x7F7FFFFF, 0x7FC00000, true, true⟩
  | .fp16 => ⟨16, 10, 15, 0x7BFF, 0x7E00, true, true⟩
  | .bf16 => ⟨16, 7, 127, 0x7F7F, 0x7FC0, true, true⟩
  | .e4m3 => ⟨8, 3, 7, 0x7E, 0x7F, false, true⟩
  | .e5m2 => ⟨8, 2, 15, 0x7B, 0x7E, true, true⟩
  | .e2m1 => ⟨4, 1, 1, 0x7, 0, false, false⟩
  | .e8m0 => ⟨8, 0, 127, 0xFE, 0xFF, false, true⟩
  | .af96 => ⟨96, 80, 16383, 0x7FFEFFFFFFFFFFFFFFFFFFFF, 0x7FFF80000000000000000000, true, true⟩

def FFmt.signBit (t : FFmt) : Nat := 2 ^ (t.w - 1)
def FFmt.infCode (t : FFmt) : Nat := t.maxCode + 1

/-- The value of a code (R92 to R94); bits above the format's width are ignored (R96). -/
def fval (fm : Fmt) (x0 : Nat) : FVal :=
  let t := ffmt fm
  let x := x0 % 2 ^ t.w
  if fm = .e8m0 then (if x = 0xFF then .nan else .fin false 1 1 ((x : Int) - 127))
  else
    let neg := nbit x (t.w - 1)
    let m := x % t.signBit
    if m > t.maxCode then (if t.hasInf && m = t.infCode then .inf neg else .nan)
    else
      let ex := m / 2 ^ t.f
      let fr := m % 2 ^ t.f
      if ex = 0 then .fin neg fr 1 (1 - (t.bias : Int) - t.f)
      else .fin neg (fr + 2 ^ t.f) 1 ((ex : Int) - t.bias - t.f)

/-- A code of a non-zero subnormal. -/
def isSubnormal (fm : Fmt) (x : Nat) : Bool :=
  let m := x % (ffmt fm).signBit
  m ≠ 0 && m < 2 ^ (ffmt fm).f

/-- The zero of the same sign (R124). -/
def flushCode (fm : Fmt) (ftz : Bool) (x : Nat) : Nat :=
  if ftz && isSubnormal fm x then (if nbit x ((ffmt fm).w - 1) then (ffmt fm).signBit else 0) else x

/-- A source value, flushed when FTZ = 1. -/
def fsrc (fm : Fmt) (ftz : Bool) (x : Nat) : FVal := fval fm (flushCode fm ftz (x % 2 ^ (ffmt fm).w))

def FVal.isZero : FVal → Bool
  | .fin _ 0 _ _ => true
  | _ => false
def FVal.isNan : FVal → Bool
  | .nan => true
  | _ => false
def FVal.neg? : FVal → Bool
  | .nan => false
  | .inf s => s
  | .fin s _ _ _ => s
def FVal.negate : FVal → FVal
  | .nan => .nan
  | .inf s => .inf (!s)
  | .fin s n d e => .fin (!s) n d e
def FVal.abs : FVal → FVal
  | .nan => .nan
  | .inf _ => .inf false
  | .fin _ n d e => .fin false n d e

def fzero (neg : Bool) : FVal := .fin neg 0 1 0
def fint (i : Int) : FVal := .fin (decide (i < 0)) i.natAbs 1 0

/-- Product: infinity × 0 is NaN; signs combine (R124). -/
def fmulV : FVal → FVal → FVal
  | .nan, _ => .nan
  | _, .nan => .nan
  | .inf s, .inf t => .inf (s != t)
  | .inf s, .fin t n _ _ => if n = 0 then .nan else .inf (s != t)
  | .fin s n _ _, .inf t => if n = 0 then .nan else .inf (s != t)
  | .fin s n d e, .fin t m c g => .fin (s != t) (n * m) (d * c) (e + g)

/-- Quotient (R126). -/
def fdivV : FVal → FVal → FVal
  | .nan, _ => .nan
  | _, .nan => .nan
  | .inf _, .inf _ => .nan
  | .inf s, .fin t _ _ _ => .inf (s != t)
  | .fin s _ _ _, .inf t => fzero (s != t)
  | .fin s n d e, .fin t m c g =>
    if m = 0 then (if n = 0 then .nan else .inf (s != t))
    else if n = 0 then fzero (s != t) else .fin (s != t) (n * c) (d * m) (e - g)

/-- Two finite terms over a common denominator and exponent. -/
def faddFin (s : Bool) (n d : Nat) (e : Int) (t : Bool) (m c : Nat) (g : Int) : Int × Nat × Int :=
  let k := if e ≤ g then e else g
  let a : Nat := n * c * 2 ^ (e - k).toNat
  let b : Nat := m * d * 2 ^ (g - k).toNat
  ((if s then -(a : Int) else a) + (if t then -(b : Int) else b), d * c, k)

/-- Sum of two values, the sign of an exact zero left positive unless both terms are negative zeros. -/
def faddV : FVal → FVal → FVal
  | .nan, _ => .nan
  | _, .nan => .nan
  | .inf s, .inf t => if s = t then .inf s else .nan
  | .inf s, .fin .. => .inf s
  | .fin .., .inf t => .inf t
  | .fin s n d e, .fin t m c g =>
    if n = 0 then (if m = 0 then fzero (s && t) else .fin t m c g)
    else if m = 0 then .fin s n d e
    else
      let r := faddFin s n d e t m c g
      .fin (decide (r.1 < 0)) r.1.natAbs r.2.1 r.2.2

/-- An exact sum of terms with the zero rule of R124. -/
def fsumV (rm : RMode) (ts : List FVal) : FVal :=
  match ts with
  | [] => fzero false
  | t :: r =>
    let x := r.foldl faddV t
    if x.isZero then
      if ts.all (fun y => y.isZero && y.neg?) then fzero true
      else if ts.all (fun y => y.isZero && !y.neg?) then fzero false
      else fzero (rm = .rd)
    else x

/-- ⌊log2 (n ÷ d)⌋ for n, d > 0. -/
def flog2 (n d : Nat) : Int :=
  let a : Int := (Nat.log2 n : Int) - Nat.log2 d
  if n * 2 ^ (-a).toNat < d * 2 ^ a.toNat then a - 1 else a

/-- The two neighbours of a magnitude (step 4 of R98): lo as a multiple of 2^k, the remainder and its divisor, and k. -/
structure Near where
  m : Nat
  r : Nat
  dv : Nat
  k : Int
  ex : Int
deriving Repr

def near (t : FFmt) (n d : Nat) (e : Int) : Near :=
  let ex0 := flog2 n d + e
  let q : Int := 1 - (t.bias : Int)
  let ex := if ex0 < q then q else ex0
  let k := ex - t.f
  let sft := e - k
  let a := n * 2 ^ sft.toNat
  let b := d * 2 ^ (-sft).toNat
  ⟨a / b, a % b, b, k, ex⟩

/-- The magnitude code of m × 2^k. -/
def Near.code (t : FFmt) (x : Near) (m : Nat) : Nat :=
  if m < 2 ^ t.f then m else (x.ex + t.bias).toNat * 2 ^ t.f + (m - 2 ^ t.f)

/-- Whether the mode takes hi (step 4 of R98). -/
def takesHi (rm : RMode) (neg : Bool) (rnd : Nat) (x : Near) : Bool :=
  if x.r = 0 then false
  else
    match rm with
    | .rn => 2 * x.r > x.dv || (2 * x.r = x.dv && x.m % 2 = 1)
    | .rz => false
    | .rd => neg
    | .ru => !neg
    | .rna => 2 * x.r ≥ x.dv
    | .sr => 65536 * x.r / x.dv + rnd ≥ 65536

def withSign (t : FFmt) (neg : Bool) (m : Nat) : Nat := if neg then m + t.signBit else m

/-- What an infinity becomes in a format (step 2 of R98). -/
def infOf (t : FFmt) (neg : Bool) : Nat :=
  if t.hasInf then withSign t neg t.infCode else if t.hasNan then t.nan else withSign t neg t.maxCode

/-- Step 5 of R98. -/
def overflowOf (t : FFmt) (rm : RMode) (neg : Bool) : Nat :=
  match rm with
  | .rz => withSign t neg t.maxCode
  | .rd => if neg then infOf t true else withSign t false t.maxCode
  | .ru => if neg then withSign t true t.maxCode else infOf t false
  | _ => infOf t neg

/-- Round (R98): the code of the result; `rnd` is the generator's 16 bits for sr. -/
def fround (fm : Fmt) (rm : RMode) (rnd : Nat) (x : FVal) : Nat :=
  let t := ffmt fm
  match x with
  | .nan => t.nan
  | .inf s => infOf t s
  | .fin s n d e =>
    if n = 0 then withSign t s 0
    else
      let y := near t n d e
      let c := y.code t (if takesHi rm s rnd y then y.m + 1 else y.m)
      if c > t.maxCode then overflowOf t rm s else withSign t s c

/-- |x| compared with |y| of finite values. -/
def magLe (n d : Nat) (e : Int) (m c : Nat) (g : Int) : Bool :=
  let k := if e ≤ g then e else g
  n * c * 2 ^ (e - k).toNat ≤ m * d * 2 ^ (g - k).toNat

/-- Sat (R99), as a value; a NaN stays NaN (Round makes it canonical). -/
def fsat (fm : Fmt) (x : FVal) : FVal :=
  match fval fm (ffmt fm).maxCode with
  | .fin _ n d e =>
    match x with
    | .nan => .nan
    | .inf s => .fin s n d e
    | .fin s m c g => if magLe m c g n d e then x else .fin s n d e
  | _ => x

def fsatIf (b : Bool) (fm : Fmt) (x : FVal) : FVal := if b then fsat fm x else x

/-- An integer selected by the mode with spacing 1 and no overflow step (R108, R131). -/
def fintegral (rm : RMode) (rnd : Nat) (s : Bool) (n d : Nat) (e : Int) : Int :=
  let a := n * 2 ^ e.toNat
  let b := d * 2 ^ (-e).toNat
  let y : Near := ⟨a / b, a % b, b, 0, 0⟩
  let m : Nat := if takesHi rm s rnd y then y.m + 1 else y.m
  if s then -(m : Int) else m

/-- Order of two values that are not NaN, zeros of either sign equal: −1, 0 or 1. -/
def fcmpV : FVal → FVal → Int
  | .inf s, .inf t => if s = t then 0 else if s then -1 else 1
  | .inf s, _ => if s then -1 else 1
  | _, .inf t => if t then 1 else -1
  | .fin s n d e, .fin t m c g =>
    let r := (faddFin s n d e (!t) m c g).1
    if r < 0 then -1 else if r = 0 then 0 else 1
  | _, _ => 0

/-- −0 orders below +0 (R127). -/
def fltMin (x y : FVal) : Bool :=
  let c := fcmpV x y
  if c < 0 then true else if c > 0 then false else x.neg? && !y.neg?

/-- FMIN or FMAX on codes (R127). -/
def fminmax (fm : Fmt) (isMax nanMode ftz : Bool) (b0 c0 : Nat) : Nat :=
  let t := ffmt fm
  let b := flushCode fm ftz (b0 % 2 ^ t.w)
  let c := flushCode fm ftz (c0 % 2 ^ t.w)
  let x := fval fm b
  let y := fval fm c
  if x.isNan || y.isNan then
    if nanMode || (x.isNan && y.isNan) then t.nan else if x.isNan then c else b
  else if isMax then (if fltMin x y then c else b) else if fltMin y x then c else b

/-- One step of the generator (R100). -/
def srNext (g : Word32) : Word32 :=
  let g := g ^^^ (g <<< 13)
  let g := g ^^^ (g >>> 17)
  g ^^^ (g <<< 5)
/-- The 16 bits that sr uses (R98). -/
def srRnd (g : Word32) : Nat := (g >>> 16).toNat

/-! ### FP32 addition in rn, for reductions (R173) -/

def fadd32 (a b : Nat) : Nat := fround .fp32 .rn 0 (fsumV .rn [fval .fp32 a, fval .fp32 b])

/-- The tree of R173 over lane values, absent ones none, with its step `f`. -/
def ftreeStep (f : Nat → Nat → Nat) : List (Option Nat) → List (Option Nat)
  | a :: b :: t =>
    (match a, b with
     | some x, some y => some (f x y)
     | some x, none => some x
     | none, y => y) :: ftreeStep f t
  | l => l

def ftree (f : Nat → Nat → Nat) (l : List (Option Nat)) : Option Nat :=
  ((ftreeStep f (ftreeStep f (ftreeStep f (ftreeStep f (ftreeStep f l))))).head?).getD none

/-! ### Special functions (R135 to R138), in fixed point with 512 fraction bits (log 8) -/

def fxOne : Nat := 2 ^ 512
/-- ⌊π × 2^512⌋ -/
def fxPi : Nat :=
  42121870893450636219446821484559388105255997313489254605594685088103805782276098919793885372247726346443771296916333485327292916625599161542353774203832599
/-- ⌊ln 2 × 2^512⌋ -/
def fxLn2 : Nat :=
  9293584264128987901384440660653081117630633404975079641076009770578364573633075645167623918067512986930843040596952636663673675798576024949780480621393957

def isqrtGo : Nat → Nat → Nat → Nat
  | 0, _, r => r
  | i + 1, n, r =>
    let c := r + 2 ^ i
    isqrtGo i n (if c * c ≤ n then c else r)
/-- ⌊√n⌋ -/
def isqrt (n : Nat) : Nat := isqrtGo (Nat.log2 n / 2 + 1) n 0

/-- √ of n × 2^e: exact, or a value strictly between the same neighbours. -/
def fsqrtV (n : Nat) (e : Int) : FVal :=
  let odd := e % 2 ≠ 0
  let n := 2 ^ 256 * (if odd then 2 * n else n)
  let e := (if odd then e - 1 else e) / 2 - 128
  let r := isqrt n
  if r * r = n then .fin false r 1 e else .fin false (2 * r + 1) 1 (e - 1)

/-- 1 ÷ √ of n × 2^e: exact, or a value strictly between the same neighbours. -/
def frsqV (n : Nat) (e : Int) : FVal :=
  let odd := e % 2 ≠ 0
  let n := if odd then 2 * n else n
  let e := (if odd then e - 1 else e) / 2
  let r := isqrt (2 ^ 512 / n)
  if r * r * n = 2 ^ 512 then .fin false r 1 (-256 - e) else .fin false (2 * r + 1) 1 (-257 - e)

def expGo (x : Nat) : Nat → Nat → Nat → Nat → Nat
  | 0, _, _, acc => acc
  | i + 1, k, t, acc =>
    let t := t * x / fxOne / k
    expGo x i (k + 1) t (acc + t)
/-- e^x for a fixed-point x below 1. -/
def fxExp (x : Nat) : Nat := expGo x 120 1 fxOne fxOne

/-- e^x = a × 2^n for a fixed-point x. -/
def fxExpBig (x : Nat) : Nat × Nat := (fxExp (x % fxLn2), x / fxLn2)

def atanhGo (z2 : Nat) : Nat → Nat → Nat → Nat → Nat
  | 0, _, _, acc => acc
  | i + 1, k, t, acc =>
    let t := t * z2 / fxOne
    atanhGo z2 i (k + 2) t (acc + t / k)
/-- ln m for m = n ÷ 2^l in [1, 2). -/
def fxLn (n l : Nat) : Nat :=
  let z := (n - 2 ^ l) * fxOne / (n + 2 ^ l)
  2 * atanhGo (z * z / fxOne) 180 3 z z

def sinGo (x2 : Nat) : Nat → Nat → Bool → Nat → Int → Int
  | 0, _, _, _, acc => acc
  | i + 1, k, s, t, acc =>
    let t := t * x2 / fxOne / (k * (k + 1))
    sinGo x2 i (k + 2) (!s) t (if s then acc - t else acc + t)
/-- sin and cos of a fixed-point x below 2. -/
def fxSin (x : Nat) : Nat := (sinGo (x * x / fxOne) 70 2 true x x).toNat
def fxCos (x : Nat) : Nat := (sinGo (x * x / fxOne) 70 1 true fxOne fxOne).toNat

/-- A faithful FP32 result (R135) of ± (a ÷ 2^512) × 2^n, where a is known to within 2^32 units: lo or hi by the part's
own choice; a neighbour of the format that lies inside the interval is delivered itself. -/
def faithful (f : SFun) (src : Word32) (neg : Bool) (a : Nat) (n : Int) : Nat :=
  let t := ffmt .fp32
  let x := near t a 1 (n - 512)
  let m1 := (near t (a - 2 ^ 32) 1 (n - 512)).m
  let lo := if (a - 2 ^ 32) = 0 then 0 else if flog2 (a - 2 ^ 32) 1 = flog2 a 1 then m1 else x.m
  let sft := n - 512 - x.k
  let m2 := (a + 2 ^ 32) * 2 ^ sft.toNat / 2 ^ (-sft).toNat
  let m := if lo = m2 then (if Config.sfUp f src then x.m + 1 else x.m) else m2
  let c := x.code t m
  if c > t.maxCode then infOf t neg else withSign t neg c

/-- Faithful result of an exact proxy value. -/
def faithfulV (f : SFun) (src : Word32) (x : FVal) : Nat :=
  let t := ffmt .fp32
  match x with
  | .fin s n d e =>
    let y := near t n d e
    let c := y.code t (if y.r ≠ 0 && Config.sfUp f src then y.m + 1 else y.m)
    if c > t.maxCode then infOf t s else withSign t s c
  | _ => t.nan

def f32Nan : Nat := 0x7FC00000
def f32Inf (neg : Bool) : Nat := if neg then 0xFF800000 else 0x7F800000
def f32Zero (neg : Bool) : Nat := if neg then 0x80000000 else 0
def f32One : Nat := 0x3F800000

/-- Sine of an eighth of a turn (R138). -/
def sinEighth : Nat → Nat
  | 0 => 0 | 1 => 0x3F3504F3 | 2 => 0x3F800000 | 3 => 0x3F3504F3
  | 4 => 0 | 5 => 0xBF3504F3 | 6 => 0xBF800000 | _ => 0xBF3504F3

/-- Fixed-point fraction of a turn in [0, 1) of a finite value. -/
def turnOf (s : Bool) (n : Nat) (e : Int) : Nat :=
  let a : Nat := n * 2 ^ (e + 512).toNat
  ((if s then -(a : Int) else a) % (fxOne : Int)).toNat

/-- The reduced argument f of R138 as an FP32 code, which is exact: a turn's fraction, less 1 from a half on. The choice between
neighbours depends on it alone. -/
def turnCode (u : Nat) : Word32 :=
  BitVec.ofNat 32 (fround .fp32 .rn 0 (if 2 * u < fxOne then .fin false u 1 (-512) else .fin true (fxOne - u) 1 (-512)))

/-- sin(2π × u ÷ 2^512). -/
def sinTurn (f : SFun) (src : Word32) (u : Nat) : Nat :=
  if u * 8 % fxOne = 0 then sinEighth (u * 8 / fxOne)
  else
    let q := u * 4 / fxOne
    let g := u % (fxOne / 4)
    let x := 2 * fxPi * g / fxOne
    faithful f src (q ≥ 2) (if q % 2 = 0 then fxSin x else fxCos x) 0

/-- One special function on an FP32 code already flushed. -/
def sfun (f : SFun) (rm : RMode) (rnd : Nat) (code : Nat) : Nat :=
  let src := BitVec.ofNat 32 code
  match fval .fp32 code with
  | .nan => f32Nan
  | .inf s =>
    match f with
    | .rcp => f32Zero s
    | .rsq => if s then f32Nan else 0
    | .sqrt => if s then f32Nan else f32Inf false
    | .exp2 => if s then 0 else f32Inf false
    | .log2 => if s then f32Nan else f32Inf false
    | .sin | .cos => f32Nan
    | .tanh => if s then 0xBF800000 else f32One
    | .sigm => if s then 0 else f32One
  | .fin s 0 _ _ =>
    match f with
    | .rcp | .rsq => f32Inf s
    | .sqrt | .sin | .tanh => f32Zero s
    | .exp2 | .cos => f32One
    | .log2 => f32Inf true
    | .sigm => 0x3F000000
  | .fin s n d e =>
    match f with
    | .rcp => fround .fp32 rm rnd (.fin s d n (-e))
    | .sqrt => if s then f32Nan else fround .fp32 rm rnd (fsqrtV n e)
    | .rsq => if s then f32Nan else faithfulV f src (frsqV n e)
    | .exp2 =>
      if !s && magLe 128 1 0 n 1 e then f32Inf false
      else if s && magLe 150 1 0 n 1 e then 0
      else
        let a : Nat := n * 2 ^ (e + 512).toNat
        let v : Int := if s then -(a : Int) else a
        let k := v / (fxOne : Int)
        let fr := (v % (fxOne : Int)).toNat
        if fr = 0 then fround .fp32 .rn 0 (.fin false 1 1 k)
        else faithful f src false (fxExp (fr * fxLn2 / fxOne)) k
    | .log2 =>
      if s then f32Nan
      else
        let l := Nat.log2 n
        let w : Int := e + l
        if n = 2 ^ l then fround .fp32 .rn 0 (fint w)
        else
          let v : Int := w * (fxOne : Int) + (fxLn n l * fxOne / fxLn2 : Nat)
          faithful f src (decide (v < 0)) v.natAbs 0
    | .sin => sinTurn f (turnCode (turnOf s n e)) (turnOf s n e)
    | .cos => sinTurn f (turnCode (turnOf s n e)) ((turnOf s n e + fxOne / 4) % fxOne)
    | .tanh =>
      if magLe 10 1 0 n 1 e then (if s then 0xBF800000 else f32One)
      else if !magLe 1 1 (-12) n 1 e then code
      else
        let ek := fxExpBig (2 * n * 2 ^ (e + 512).toNat)
        let p := ek.1 * 2 ^ ek.2
        faithful f src s ((p - fxOne) * fxOne / (p + fxOne)) 0
    | .sigm =>
      if !s && magLe 18 1 0 n 1 e then f32One
      else if s && magLe 104 1 0 n 1 e then 0
      else
        let ek := fxExpBig (n * 2 ^ (e + 512).toNat)
        let p := ek.1 * 2 ^ ek.2
        faithful f src false (if s then fxOne * fxOne / (p + fxOne) else p * fxOne / (p + fxOne)) 0

end Sys2Proof.Machine
end

