-- ==== Sys2Proof/Machine/Pending.lean ====
section
/-! DEFINITION. Accesses that have issued and are not performed yet (R59, R200, R221): atomic steps at the home, replies to
registers, and the settling of a coach's accesses before a release. -/

namespace Sys2Proof.Machine

open Sys2Proof

/-- The new value of an atomic location (R226). -/
def aopApply (op : AOp) (w64 : Bool) (old c : Nat) : Nat :=
  let n := if w64 then 64 else 32
  let fm : Fmt := if w64 then .fp64 else .fp32
  match op with
  | .add => (old + c) % 2 ^ n
  | .umin => min old c
  | .umax => max old c
  | .smin => if sval n old ≤ sval n c then old else c
  | .smax => if sval n old ≤ sval n c then c else old
  | .and => old &&& c
  | .or => old ||| c
  | .xor => old ^^^ c
  | .exch => c
  | .fadd => fround fm .rn 0 (fsumV .rn [fval fm old, fval fm c])
  | .fmin => fminmax fm false false false old c
  | .fmax => fminmax fm true false false old c
  | .incm => if c = 0 then (old + 1) % 2 ^ n else (old + 1) % c
  | .decf => if old > c then old - 1 else old

/-- One atomic step on a value: ATOMC and ATOMSC compare, the others apply their operation (R229). -/
def stepValue (op : AOp) (w64 : Bool) (cmp : Option Nat) (old arg : Nat) : Nat :=
  match cmp with
  | some c => if old = c then arg else old
  | none => aopApply op w64 old arg

/-- One atomic step at the home (R222): the old value, or none where the location is poisoned. -/
def homeStep (s : State) (cl ma : Nat) (w64 : Bool) (key : Byte) (op : AOp) (cmp : Option Nat) (arg : Nat) : Option Nat × State :=
  let n := if w64 then 8 else 4
  let s := (wordsOf ma n).foldl (fun s wa => dropOwner (writeBack s cl wa) wa) s
  if (List.range n).any fun i => isPoison s (ma + i) then (none, s)
  else
    let old := leVal ((List.range n).map fun i => homeByte s (ma + i) key)
    let s := tagFrame s ma key
    let s := homeWrite s ma (leBytes n (stepValue op w64 cmp old arg)) false
    let s := (wordsOf ma n).foldl (fun s wa =>
      match l1Get s cl wa with
      | some w => if w.owned then s else l1Del s cl wa
      | none => s) s
    (some old, s)

/-- The fragment of a coach that holds a lane. -/
def fragOfLane (co : Coach) (i : Nat) : Option Nat := (co.frags.find? fun f => f.2.mask.getLsbD i).map (·.1)

/-- DATA_POISON of an instruction whose replies arrive late is due in the fragments that hold its lanes (R198). -/
def duePoison (s : State) (r : FragRef) (pc : Word64) (word : Word96) (bad : Word32) : State :=
  if bad = 0 then s
  else
    modCoach s r.train r.coach fun co =>
      { co with frags := co.frags.map fun f =>
          if f.2.mask &&& bad ≠ 0 && f.2.due.isNone then
            (f.1, { f.2 with due := some ⟨trapAt cDATA_POISON (f.2.mask &&& bad) 0, pc, word⟩ })
          else f }

/-- The register value of loaded bytes (R207): `.8` and `.16` are extended to 32 bits. -/
def loadValue (bytes : List Byte) (sx : Bool) : Nat :=
  let n := 8 * bytes.length
  let x := leVal bytes
  if sx && n < 32 then pat 32 (sval n x) else x

/-- Write `n` 32-bit registers from index `i` of a lane, low one first. -/
def setRegs (l : Lane) (i n x : Nat) : Lane :=
  (List.range n).foldl (fun l j => l.setReg (i + j) (w32 (x / 2 ^ (32 * j)))) l

def setSregs (co : Coach) (i n x : Nat) : Coach :=
  (List.range n).foldl (fun co j => co.setSreg (i + j) (w32 (x / 2 ^ (32 * j)))) co

/-- A loaded value reaches its destination, the frame for v0 to v3 of a trapped fragment (R404). A uniform register is the coach's,
whether or not the fibre lives (R139, R141). -/
def writeLoaded (co : Coach) (p : Pend) (lane x : Nat) : Coach :=
  let n := if p.bytes ≤ 4 then 1 else p.bytes / 4
  if p.drop || !(p.ofCoach || (mget co.lanes lane).isSome) then co
  else
    match p.dst with
    | .v i =>
      match p.frame with
      | some slot =>
        match mget co.frames slot with
        | some f =>
          { co with frames := mset co.frames slot { f with
              savedv := (List.range n).foldl (fun m j => mset m (4 * lane + i.toNat + j) (w32 (x / 2 ^ (32 * j)))) f.savedv } }
        | none => co
      | none => modLane co lane fun l => setRegs l i.toNat n x
    | .s i => if lane = p.first then setSregs co i.toNat n x else co
    | _ => co

/-- A plain or bypass load of a cluster for a context; none while the home holds its requests or the write-backs that they force
(R370). `paid` says that the instruction has sent the request for the line before (R182). -/
def loadGlob (s : State) (ctx cl ma n : Nat) (bypass : Bool) (key : Byte) (paid : Bool) : Option (Got × State) :=
  let ws := wordsOf ma n
  let lines := ((ws.filter fun wa => (l1Get s cl wa).isNone).map (· / 32)).eraseDups.length
  if ((bypass || lines ≠ 0) && !paid && outOf s ctx .mem) || (bypass && ws.any (wbHeld s cl)) then none
  else if bypass then
    let r := loadBypass s cl ma n key
    some (r.1, if paid then r.2 else homeAccess r.2 ctx ma 1)
  else
    let r := loadPlain s cl ma n key
    let s := if paid then r.2
      else if lines = 0 then countEvent r.2 ctx 0x040 cl (fun c => relCluster s c cl) 1
      else homeAccess (countEvent r.2 ctx 0x041 cl (fun c => relCluster s c cl) lines) ctx ma lines
    some (r.1, s)

/-- The line that a lane reads at home or through the L1. -/
def Loc.line : Loc → Option Nat
  | .glob _ ma _ _ => some (ma / 128)
  | _ => none

/-- A lane's line is among those requested. -/
def Loc.among (l : Loc) (seen : List Nat) : Bool :=
  match l.line with
  | some n => seen.contains n
  | none => false

/-- The value that a pending lane reads now; none while it cannot be read (a refreshing cellar bank, R196; a request held
at its home, R370; a reply that the home has not sent). `seen` holds the lines that the instruction has requested (R182). -/
def readLoc (s : State) (ctx n : Nat) (l : Loc) (seen : List Nat) : Option (Got × State) :=
  match l with
  | .glob cl ma bypass key => loadGlob s ctx cl ma n bypass key (l.among seen)
  | .scr t rank off =>
    match mget s.trains t with
    | some tr => some (scrGet tr rank off n, s)
    | none => some (⟨[], false⟩, s)
  | .cellar die off => if nbits off 24 6 = (crefOf s die).1 then none else some (cellarRead s die off n, s)
  | .val (some x) => some (⟨leBytes n x.toNat, false⟩, s)
  | .val none => none
  | .bad => some (⟨[], true⟩, s)

/-- The reply of lane `i` has come: it leaves the instruction's list, `poison` saying that its bytes were poisoned, and the frames
that wait for it (R404). -/
def tookReply (co : Coach) (id i : Nat) (poison : Bool) : Coach :=
  { co with
    pend := co.pend.map fun q =>
      if q.id = id && q.reads.any (fun f => f.1 = i) then
        { q with reads := q.reads.filter fun f => f.1 ≠ i, bad := if poison then q.bad ||| bitOf i else q.bad }
      else q
    frames := co.frames.map fun f => (f.1, { f.2 with rq := f.2.rq.map fun q =>
      if q.id = id then
        { q with lanes := q.lanes &&& ~~~bitOf (i % 32), landed := q.lanes &&& ~~~bitOf (i % 32) = 0 } else q }) }

/-- The reply of one lane arrives, if it can: a bypass access after the earlier ones of its fibre (R200 item 4). -/
def replyLane (s : State) (t : Nat) (c : CoachId) (p : Pend) (e : Nat × Loc) (seen : List Nat) : Option State :=
  if locBypass e.2 && bypassPending s (.frag ⟨t, c, 0⟩) e.1 p.id then none
  else match readLoc s (agentCtx s (.frag ⟨t, c, 0⟩)) p.bytes e.2 seen with
    | none => none
    | some (g, s) => some (modCoach s t c fun co =>
        tookReply (if g.poison then co else writeLoaded co p e.1 (loadValue g.bytes p.sx)) p.id e.1 g.poison)

def replyLanes (t : Nat) (c : CoachId) (p : Pend) : List (Nat × Loc) → List Nat → State → State
  | [], _, s => s
  | e :: r, seen, s =>
    match replyLane s t c p e seen with
    | none => replyLanes t c p r seen s
    | some s => replyLanes t c p r (seen ++ e.2.line.toList) s

/-- Once every lane has replied the instruction is no longer pending, and DATA_POISON is due in the lanes that read poisoned bytes
(R198). -/
def closePend (s : State) (t : Nat) (c : CoachId) (p : Pend) : State :=
  match coachOf s t c with
  | none => s
  | some co =>
    let mine := co.pend.filter fun q => q.id = p.id
    if mine.any fun q => !q.reads.isEmpty then s
    else
      duePoison (modCoach s t c fun co => { co with pend := co.pend.filter fun q => q.id ≠ p.id }) ⟨t, c, 0⟩ p.pc p.word
        (mine.foldl (fun m q => m ||| q.bad) 0)

/-- The reply of a pending write arrives (LOAD_REPLY). -/
def replyPend (s : State) (t : Nat) (c : CoachId) (p : Pend) : State :=
  closePend (replyLanes t c p p.reads [] s) t c p

/-- Every pending reply of a coach that can arrive does. -/
def replyAll (s : State) (t : Nat) (c : CoachId) : State :=
  match coachOf s t c with
  | some co => co.pend.foldl (fun s p => replyPend s t c p) s
  | none => s

/-- The old value of a step, or the poison of its location, goes to the instruction that waits for it. -/
def stepReply (s : State) (a : AStep) (l : Loc) : State :=
  match a.who, a.reply with
  | .frag r, some id => modCoach s r.train r.coach fun co =>
      { co with pend := co.pend.map fun q =>
          if q.id = id then { q with reads := q.reads.map fun f => if f.1 % 32 = a.lane then (f.1, l) else f } else q }
  | _, _ => s

/-- A step is performed at its home; its old value goes to the pending write (R221, R222). -/
def performStep (s : State) (a : AStep) : State :=
  let r := homeStep s a.cluster a.ma a.w64 a.key a.op (a.cmp.map (·.toNat)) a.arg.toNat
  stepReply r.2 a (match r.1 with | some v => .val (some (w64 v)) | none => .bad)

/-- A step has come to the head of its location's queue (R220), after the earlier bypass accesses of its fibre (R200 item 4); its
request has been paid for, or can be (R370), and no write-back that it forces is held. -/
def stepReady (s : State) (a : AStep) : Bool :=
  let n (q : AStep) : Nat := if q.w64 then 8 else 4
  !((s.steps.takeWhile fun q => q.id ≠ a.id).any fun q => overlap a.ma (n a) q.ma (n q)) &&
  !bypassPending s a.who a.lane a.id && !wordsHeld s a.cluster a.ma (n a) &&
  (if a.id = a.grp then !outOf s (agentCtx s a.who) .mem else !s.steps.any fun q => q.id = a.grp)

/-- A step that may not be performed yet stays in its queue. -/
def tryStep (s : State) (a : AStep) : State :=
  if s.steps.any (fun b => b.id = a.id) && stepReady s a then
    let u := { s with steps := s.steps.filter fun b => b.id ≠ a.id }
    performStep (if a.id = a.grp then homeAccess u (agentCtx s a.who) a.ma 1 else u) a
  else s

/-- The pending access of a coach with a number: a store, an atomic step, or a reply. -/
def performId (t : Nat) (c : CoachId) (s : State) (id : Nat) : State :=
  match s.stores.find? fun p => p.id = id with
  | some p => tryStore s p
  | none =>
    match s.steps.find? fun a => a.id = id with
    | some a => tryStep s a
    | none =>
      match (coachOf s t c).bind fun co => co.pend.find? fun p => p.id = id with
      | some p => replyPend s t c p
      | none => s

/-- Numbers of the pending accesses of a coach, ascending: of the bypass accesses and atomics only, or of all. -/
def pendingIds (s : State) (t : Nat) (c : CoachId) (all : Bool) : List Nat :=
  let who : Agent := .frag ⟨t, c, 0⟩
  let ps := match coachOf s t c with
    | some co => co.pend.filterMap fun p => if all || pendBypass p then some p.id else none
    | none => []
  sortNat ((s.stores.filterMap fun p => if sameCoach who p.who && (all || !p.reg) then some p.id else none) ++
    (s.steps.filterMap fun a => if sameCoach who a.who then some a.id else none) ++ ps)

/-- Every access of a coach that has issued is performed, as far as it can be, in program order (R200). -/
def settle (s : State) (t : Nat) (c : CoachId) : State :=
  replyAll ((pendingIds s t c true).foldl (performId t c) s) t c

/-- No access of the coach is still to be performed. -/
def settled (s : State) (t : Nat) (c : CoachId) : Bool :=
  (match coachOf s t c with
   | some co => co.pend.isEmpty
   | none => true) &&
  !s.stores.any (fun p => sameCoach (.frag ⟨t, c, 0⟩) p.who) && !s.steps.any fun a => sameCoach (.frag ⟨t, c, 0⟩) a.who

end Sys2Proof.Machine
end

