-- ==== Sys2Proof/Machine/Operands.lean ====
section
/-! DEFINITION. Operand forms (R43 to R53, R71, R122): reading a source, writing a destination, casks as operands
(R235); and how a Vamer instruction issues (R38, R39, R59 to R61). -/

namespace Sys2Proof.Machine

open Sys2Proof

/-! ### Casks as operands (R231 to R235) -/

/-- The cask of a cluster that number `n` names for a context; none is CASK_RANGE (R232). -/
def caskIndex (s : State) (ctx cl n : Nat) : Option Nat :=
  let r := if ctx = 0 then (0, 256) else mgetD (s.ctx ctx).casks cl (0, 0)
  if n ≥ r.2 then none
  else
    let k := r.1 + n
    if (children s ctx).any fun c =>
        match mget (s.ctx c).casks cl with
        | some g => g.1 ≤ k && k < g.1 + g.2
        | none => false
    then none else some k

def caskGet (s : State) (cl k : Nat) : Cask := mgetD (s.cluster cl).casks k Cask.init
def caskPut (s : State) (cl k : Nat) (c : Cask) : State :=
  modCluster s cl fun x => { x with casks := mput Cask.init x.casks k c }

def Cask.meets (c : Cask) : Need → Bool
  | .empty => !c.f && !c.g
  | .gathering => c.g
  | .full => c.f

/-- Every need is met by the casks of a cluster. -/
def needsMet (s : State) (cl : Nat) (ns : List (Nat × Need)) : Bool := ns.all fun n => (caskGet s cl n.1).meets n.2

/-- Waits that began before number `w` on a cask of `ns`, whose own needs are met now (R233). -/
def earlierCask (s : State) (cl w : Nat) (ns : List (Nat × Need)) : Bool :=
  let hit (o : Option (Nat × WaitOn)) : Bool :=
    match o with
    | some (n, .cask c ms) => c = cl && n < w && ms.any (fun m => ns.any fun k => k.1 = m.1) && needsMet s cl ms
    | _ => false
  s.trains.any fun e => e.2.res = .resident && !e.2.held && ctxRuns s e.2.ctx && (
    (e.2.coachIds.any fun c => match e.2.coach? c with
      | some co => co.frags.any fun f => f.2.park.isNone && hit f.2.wait
      | none => false) ||
    e.2.drays.any fun d => hit d.2.wait)

/-- The number of a fragment's wait, or one after every other. -/
def waitNo (s : State) (x : Ix) (w : WaitOn) : Nat :=
  match x.fr.wait with
  | some (n, v) => if v = w then n else s.waitSeq
  | none => s.waitSeq

/-- A cask operation may be performed now: its needs are met and no earlier waiter is passed over (R233). -/
def caskReady (s : State) (x : Ix) (ns : List (Nat × Need)) : Bool :=
  needsMet s x.cluster ns && !earlierCask s x.cluster (waitNo s x (.cask x.cluster ns)) ns

/-- Draw from a full cask (R234). -/
def Cask.draw (c : Cask) : Cask :=
  if c.rc = 0 then c else { c with rc := c.rc - 1, f := c.rc ≠ 1 }

/-- One of the casks holds poisoned bytes (R198). -/
def casksBad (s : State) (cl : Nat) (ns : List (Nat × Need)) : Bool := ns.any fun n => (caskGet s cl n.1).poison

/-! ### Sources -/

/-- How an immediate is read (R47, R122). -/
inductive SrcKind where
  | int
  | fp (f : Fmt)
  | pair (f : Fmt)
deriving DecidableEq, Repr

/-- Space 101 at an operand's width and format (R47, R122). -/
def immVal (bits : Nat) (k : SrcKind) (i : BitVec 9) : Nat :=
  match k with
  | .int => pat bits i.toInt
  | .fp f => fround f .rn 0 (fint i.toInt)
  | .pair f => let e := fround f .rn 0 (fint i.toInt); 65536 * e + e

/-- Space 110 at an operand's width and format (R47). -/
def tailVal (bits : Nat) (k : SrcKind) (t : Word32) : Nat :=
  match k with
  | .int => pat bits t.toInt
  | .fp .fp64 => fround .fp64 .rn 0 (fval .fp32 t.toNat)
  | _ => t.toNat

/-- The value of a special register for a lane, before the operand's width is applied (R51, R52). -/
def srVal (s : State) (x : Ix) (lane : Nat) (n : BitVec 5) : Nat :=
  let l := mget x.co.lanes lane
  match n.toNat with
  | 0x00 => match l with | some l => l.fid.toNat | none => 0
  | 0x01 => lane
  | 0x02 => match x.ref.coach with | .coach c => c | .spine => 0xFFFFFFFF
  | 0x03 => x.tr.num.toNat
  | 0x04 => if x.spine then 0xFFFFFFFF else (relCore s x.ctx x.core).getD 0xFFFFFFFF
  | 0x05 => (relCluster s x.ctx x.cluster).getD 0xFFFFFFFF
  | 0x06 => x.ctx
  | 0x07 => (s.ctx x.ctx).depth
  | 0x08 => cycOf s x.die
  | 0x09 => s.rtime
  | 0x0A => mgetD s.vintage (partitionOf s x.ctx) 0
  | 0x0B => let c := crefOf s x.die; 256 * c.1 + c.2
  | 0x0C => cancelWord s x.tr
  | 0x0D => x.co.gen.toNat
  | 0x0E => 0x0101
  | 0x0F => match l with | some l => l.predWord.toNat | none => 0
  | 0x10 => x.tr.nfib
  | 0x11 => x.tr.ncoach
  | 0x12 => x.window
  | 0x13 => x.fr.mask.toNat
  | 0x14 => x.ref.frag
  | 0x15 => x.tr.queue.toNat
  | 0x16 => x.tr.launch.toNat
  | 0x17 => x.tr.graph.toNat
  | 0x18 => x.tr.phase.toNat
  | 0x19 => x.tr.job.toNat
  | 0x1A => x.tr.argbase.toNat
  | 0x1B => x.tr.first.toNat
  | 0x1C => x.tr.count.toNat
  | 0x1D => x.tr.nest
  | 0x1E => if x.spine then 1 else 0
  | _ => if x.spine then 0 else x.tr.sbase.getD x.rank 0

/-- `bits` ÷ 32 registers from index `i`, low one first. -/
def regsVal (rd : Nat → Word32) (i bits : Nat) : Nat :=
  (List.range (bits / 32)).foldr (fun j v => (rd (i + j)).toNat + 2 ^ 32 * v) 0

/-- Src(F, L) (R65): the value of an operand field for a lane, read at issue. -/
def src (s : State) (x : Ix) (a : Args) (bits : Nat) (k : SrcKind) (o : Operand) (lane : Nat) : Nat :=
  match o with
  | .v i => match mget x.co.lanes lane with | some l => regsVal l.reg i.toNat bits | none => 0
  | .s i => regsVal x.co.sreg i.toNat bits
  | .k n _ =>
    match caskIndex s x.ctx x.cluster n.toNat with
    | some c => (caskGet s x.cluster c).value.toNat % 2 ^ bits
    | none => 0
  | .pred p => match mget x.co.lanes lane with | some l => if l.pred p then 1 else 0 | none => 0
  | .sr n => srVal s x lane n % 2 ^ bits
  | .imm i => immVal bits k i
  | .tail => tailVal bits k a.tail
  | _ => 0

/-- A predicate of a lane. -/
def predOf (x : Ix) (lane : Nat) (p : BitVec 4) : Bool :=
  match mget x.co.lanes lane with
  | some l => l.pred p
  | none => false

/-! ### Destinations (R45 to R49) -/

def setLane (co : Coach) (o : Operand) (bits lane val : Nat) : Coach :=
  match o with
  | .v i => modLane co lane fun l => setRegs l i.toNat (bits / 32) val
  | .pred p => modLane co lane fun l => l.setPred p (val % 2 = 1)
  | .sr n =>
    if n = 0x0F then modLane co lane fun l => { l with preds := BitVec.ofNat 15 val }
    else if n = 0x0D then { co with gen := if val % 2 ^ 32 = 0 then 1 else w32 val }
    else co
  | _ => co

/-- Dst(F, L) ← v for a list of lanes, ascending: an S destination keeps the lowest one's value (R45), literal zero
discards, %srseed keeps the last one's. -/
def putDst (co : Coach) (o : Operand) (bits : Nat) (rs : List (Nat × Nat)) : Coach :=
  match o with
  | .s i =>
    match rs with
    | [] => co
    | r :: _ => setSregs co i.toNat (bits / 32) r.2
  | _ => rs.foldl (fun co r => setLane co o bits r.1 r.2) co

def putPred (co : Coach) (p : BitVec 4) (rs : List (Nat × Bool)) : Coach :=
  rs.foldl (fun co r => modLane co r.1 fun l => l.setPred p r.2) co

/-- Write a destination of the issuing fragment. -/
def wr (s : State) (x : Ix) (o : Operand) (bits : Nat) (rs : List (Nat × Nat)) : State :=
  modCoach s x.ref.train x.ref.coach fun co => putDst co o bits rs
/-- Write the results of some of the enabled lanes: an S destination takes that of the lowest enabled lane, or keeps its value where
it has none (R45). -/
def wrFirst (s : State) (x : Ix) (o : Operand) (bits first : Nat) (rs : List (Nat × Nat)) : State :=
  let rs := match o with
    | .s _ => rs.filter fun r => r.1 = first
    | _ => rs
  if rs.isEmpty then s else wr s x o bits rs
def wrPred (s : State) (x : Ix) (p : BitVec 4) (rs : List (Nat × Bool)) : State :=
  modCoach s x.ref.train x.ref.coach fun co => putPred co p rs

/-! ### Checks at issue -/

/-- The operand fields with their names, in the order of R39. -/
def fieldsOf (i : Instr) (a : Args) : List (Field × Operand × Nat) :=
  match i.shape with
  | none => []
  | some sh =>
    let b (r : Option Role) : Nat := match r with | some r => r.bits | none => 32
    [(.a, a.a, b sh.a), (.b, a.b, b sh.b), (.c, a.c, b sh.c), (.d, a.d, b sh.d)]

/-- A vector register that an instruction names in XMOD: the row scales of an MMA (R302). -/
def xmodV : Instr → Option Nat
  | .mma m x | .mmag m x | .mmaw m _ x => if m.sc then some (x.xmod.extractLsb' 10 9).toNat else none
  | _ => none

/-- Step 7 of R39: an index outside the window, the train's tiles or its yokes (R44, R289). -/
def windowCheck (i : Instr) (x : Ix) (a : Args) : Option Field :=
  let bad (o : Operand) (bits : Nat) : Bool :=
    match o with
    | .v n => n.toNat + bits / 32 > x.window
    | .tile n => n.toNat ≥ x.tr.acc
    | .yoke n => n.toNat ≥ x.tr.yokes
    | _ => false
  match (fieldsOf i a).find? fun f => bad f.2.1 f.2.2 with
  | some f => some f.1
  | none => match xmodV i with
    | some n => if n ≥ x.window then some .xmod else none
    | none => none

/-- The uniform register that an MMA names in XMOD: its tile scale (R302). -/
def xmodS : Instr → Option Nat
  | .mma m x | .mmag m x | .mmaw m _ x => if m.sc then some (x.xmod.extractLsb' 0 10).toNat else none
  | _ => none

/-- Registers that an operand covers: the space (false V, true S), first index and count. -/
def regSpan (o : Operand) (bits : Nat) : Option (Bool × Nat × Nat) :=
  match o with
  | .v i => some (false, i.toNat, bits / 32)
  | .s i => some (true, i.toNat, bits / 32)
  | _ => none

/-- An earlier instruction has a write pending to a register that this one reads or writes (R59). The spine waits for every reply,
since a late DATA_POISON would come after later instructions (R179, log 81). -/
def hazard (i : Instr) (x : Ix) (a : Args) : Bool :=
  if x.co.pend.isEmpty then false
  else if x.spine then true
  else
    let spans := (fieldsOf i a).filterMap (fun f => regSpan f.2.1 f.2.2) ++
      (match xmodV i with | some n => [(false, n, 1)] | none => []) ++
      (match xmodS i with | some n => [(true, n, 1)] | none => [])
    x.co.pend.any fun p =>
      !p.drop &&
      match regSpan p.dst (if p.bytes ≤ 4 then 32 else 8 * p.bytes) with
      | none => false
      | some (sp, b, n) =>
        spans.any fun t => t.1 = sp && overlap t.2.1 t.2.2 b n && (sp || p.reads.any fun e => x.fr.mask.getLsbD e.1)

/-- Instructions whose register write may stay pending (R59, R404). -/
def pends : Instr → Bool
  | .ld .. | .ldu .. | .lds .. | .ldx .. | .ldw .. | .ldb .. | .atom .. | .atomc .. | .atomu .. | .atoms .. | .atomsc .. => true
  | _ => false

/-- The fragment already has 16 instructions with writes pending (R404). -/
def pendFull (i : Instr) (x : Ix) : Bool :=
  pends i && (x.co.pend.filter fun p => p.dst ≠ .unused && p.reads.any fun e => x.fr.mask.getLsbD e.1).length ≥ 16

/-- The target of a cask instruction stands in field B (R237). -/
def caskTarget (i : Instr) (f : Field) : Bool := i.opc / 64 = 8 && i.opc % 64 < 8 && f = .b

/-- The casks that the operand fields name, with their fields and draw bits; the target among them when `all` (R232, R237). -/
def caskFields (i : Instr) (a : Args) (all : Bool) : List (Field × BitVec 8 × Bool) :=
  (fieldsOf i a).filterMap fun f =>
    match f.2.1 with
    | .k n d => if caskTarget i f.1 && !all then none else some (f.1, n, d)
    | _ => none

/-! ### Issue -/

/-- What the meaning of an instruction answers once it has passed its checks. -/
inductive Res where
  /-- Performed: the state, the lanes that do not fall through, and a kind-A trap of the instruction. -/
  | done (s : State) (ms : List (Nat × Move)) (after : Option Trap)
  /-- Performed, every lane falling through: what it leaves to the fragment that goes on, and whether it yields. -/
  | goOn (s : State) (yld : Bool) (keep : Frag → Frag)
  /-- It waits at issue (R61); the function records what a wait records. -/
  | wait (w : WaitOn) (f : State → State)
  /-- A precise trap (kind B). -/
  | trap (t : Trap)
  /-- The meaning has moved the fragment itself. -/
  | own (s : State)

def addrTrapB (x : Ix) (next : Word64) (lanes : List Nat) : Trap :=
  trapAt cBAD_TARGET (maskOf (lanes.filter fun l => x.fr.mask.getLsbD l)) next

/-- A register of a lane slot as an MMA reads it: that of the live fibre, else what the last fibre left there, else 0
(R298). -/
def slotReg (co : Coach) (lane n : Nat) : Word32 :=
  match mget co.lanes lane with
  | some l => l.reg n
  | none => mgetD (mgetD co.left lane []) n 0

/-- The fibre with a number among the coaches of a rank: its coach and lane. -/
def findFibre (t : Train) (rank fid : Nat) : Option (Nat × Nat) :=
  t.coaches.findSome? fun c =>
    if t.rankOf.getD c.1 0 = rank then (c.2.lanes.find? fun l => l.2.fid.toNat = fid).map fun l => (c.1, l.1) else none

/-- A yoke whose anchor has ended notes the values that the anchor's slot holds (R298). -/
def Yoke.noteAnchor (t : Train) (rank : Nat) (y : Yoke) : Yoke :=
  match y.signed.head?, mget t.coaches y.anchor.1 with
  | some f, some co =>
    if (findFibre t rank f.1).isSome then y
    else { y with past := y.past.map fun e =>
        let v := slotReg co y.anchor.2 e.1
        (e.1, if e.2.contains v then e.2 else e.2 ++ [v]) }
  | _, _ => y

/-- After an instruction on a core, its yokes note what the slots of ended anchors hold. -/
def noteAnchors (s : State) (x : Ix) : State :=
  modTrain s x.ref.train fun t =>
    { t with yk := t.yk.map fun r => (r.1, if r.1 = x.rank then r.2.map fun y => (y.1, y.2.noteAnchor t x.rank) else r.2) }

/-- The source field that RET names, its operand and its width, where it holds a register (R40, R42); none in the matrix class, whose
latch is another (R295). -/
def retained (i : Instr) (a : Args) : Option (Field × Operand × Nat) :=
  if i.opc / 64 = 10 || a.ret = 0 then none
  else ((fieldsOf i a)[a.ret.toNat]?).bind fun f => if (regSpan f.2.1 f.2.2).isSome then some f else none

/-- The value of a register operand for a lane of a coach. -/
def regOf (co : Coach) (o : Operand) (bits lane : Nat) : Nat :=
  match o with
  | .v i => match mget co.lanes lane with | some l => regsVal l.reg i.toNat bits | none => 0
  | .s i => regsVal co.sreg i.toNat bits
  | _ => 0

/-- A kept operand still stands in its register: no write has changed it (R40). -/
def Kept.stands (s : State) (k : Kept) : Bool :=
  match coachOf s k.frag.train k.frag.coach with
  | some co => k.vals.all fun e => regOf co k.op k.bits e.1 = e.2
  | none => false

/-- What the operand buffer of a port holds after an instruction: what the instruction retains, else what it held, unless the
instruction was served by it or a write has voided it (R40). -/
def keptAfter (s : State) (x : Ix) (i : Instr) (a : Args) (k : Option Kept) : Option Kept :=
  match retained i a with
  | some (f, o, b) => some ⟨x.ref, f, o, b, (enabled x a).map fun l => (l, regOf x.co o b l)⟩
  | none => match k with
    | some k =>
      if !k.stands s || (k.frag = x.ref && (fieldsOf i a).any fun f => f.1 = k.field && f.2.1 = k.op) then none else some k
    | none => none

/-- The place of a fragment in the port order (R150). -/
def portPos (t : Train) (coach frag : Nat) : List Nat := [t.placed, t.ctx, t.launch.toNat, t.num.toNat, coach, frag]

/-- Port bookkeeping (R40, R41, R150): the fragment that issued last, how often in a row, what the buffer keeps. -/
def noteIssue (s : State) (x : Ix) (i : Instr) (a : Args) (yld : Bool) : State :=
  match x.ref.coach with
  | .spine => s
  | .coach n =>
    let k := 4 * x.core + n % 4
    let p := s.port k
    let run := if p.last = some x.ref && p.run ≠ 0 then p.run + 1 else 1
    let s := { s with
      ports := mset s.ports k ⟨some x.ref, portPos x.tr n x.ref.frag, if yld then 0 else run, keptAfter s x i a p.kept⟩
      cores := mset s.cores x.core { s.core x.core with last := some x.ref } }
    countEvent (noteAnchors s x) x.ctx 0x001 k (fun c => (relCore s c x.core).map fun r => 4 * r + n % 4) 1

/-- The instruction has been performed: sequential advance past the last canonical address traps before any effect
(R36), and so does the lack of a frame slot (R400). -/
def commit (s0 : State) (x : Ix) (a : Args) (i : Instr) (yld : Bool) (s : State) (ms : List (Nat × Move))
    (after : Option Trap) (keep : Frag → Frag) : State :=
  let word := encodeVamer i
  let next := x.fr.pc + 12
  let seq := (lanesOf x.fr.mask).filter fun l => moveOf ms x.fr.pc l = .go next && !ms.any (fun m => m.1 = l)
  if !canonical next.toNat && !seq.isEmpty then trapB s0 x (addrTrapB x next seq) word
  else if lacksFrame s x after then stall s0 x.ref .frames
  else noteIssue (finish s x word ms after keep) x i a yld

/-- How a Vamer instruction issues: step 7 of R39, the scoreboard (R59), the guard (R38), its K operands (R232, R235; a poisoned one
leaves it unperformed but for its draw, R198, log 92), then its body on the enabled lanes. `whole` bodies run with no lane enabled too (a rejoin, R147). -/
def issue (i : Instr) (a : Args) (whole : Bool) (body : Ix → List Nat → State → Res) (x : Ix) (s : State) : State :=
  let word := encodeVamer i
  match windowCheck i x a with
  | some f => trapB s x ((trapOf cBAD_OPERAND).onField f) word
  | none =>
    if hazard i x a || pendFull i x then stall s x.ref .other
    else
      let ls := enabled x a
      if ls.isEmpty && !whole then commit s x a i a.yld s [] none id
      else
        let ks := if ls.isEmpty then [] else caskFields i a false
        match (if ls.isEmpty then [] else caskFields i a true).find? fun k => (caskIndex s x.ctx x.cluster k.2.1.toNat).isNone with
        | some k => trapB s x ((trapOf cCASK_RANGE).onField k.1) word
        | none =>
          let ns := ks.filterMap fun k => (caskIndex s x.ctx x.cluster k.2.1.toNat).map fun c => (c, Need.full)
          if !ns.isEmpty && !caskReady s x ns then stall s x.ref (.cask x.cluster ns)
          else
            let s1 := ks.foldl (fun s k =>
              if k.2.2 then
                match caskIndex s x.ctx x.cluster k.2.1.toNat with
                | some c => caskPut s x.cluster c (caskGet s x.cluster c).draw
                | none => s
              else s) s
            if casksBad s x.cluster ns then commit s x a i a.yld s1 [] (some (trapAt cDATA_POISON (maskOf ls) 0)) id
            else match body x ls s1 with
            | .done s' ms after => commit s x a i a.yld s' ms after id
            | .goOn s' yld keep => commit s x a i (a.yld || yld) s' [] none keep
            | .wait w f => stall (f s) x.ref w
            | .trap t => trapB s x t word
            | .own s' => s'

/-- The meaning of a Vamer instruction for the fragment in turn (log 3). -/
def vamer (i : Instr) (a : Args) (whole : Bool) (body : Ix → List Nat → State → Res) (s : State) :
    Host.Outcome State Fault Refusal :=
  match s.cur with
  | some (.frag r) =>
    match ixOf s r with
    | some x => .next (issue i a whole body x s)
    | none => .fault .noIssuer
  | _ => .fault .noIssuer

/-- An ILLEGAL word: the trap with the failing field (R39). -/
def issueIllegal (s : State) (r : FragRef) (word : Word96) (f : Field) : State :=
  match ixOf s r with
  | some x => trapB s x ((trapOf cILLEGAL).onField f) word
  | none => s

/-- A body that writes one result per lane. -/
def lanewise (o : Operand) (bits : Nat) (f : State → Ix → Nat → Nat) : Ix → List Nat → State → Res :=
  fun x ls s => .done (wr s x o bits (ls.map fun l => (l, f s x l))) [] none

/-- A body that writes a result and a predicate per lane. -/
def lanewiseP (o : Operand) (bits : Nat) (pd : Option (BitVec 4)) (f : State → Ix → Nat → Nat × Bool) :
    Ix → List Nat → State → Res :=
  fun x ls s =>
    let rs := ls.map fun l => (l, f s x l)
    let s := wr s x o bits (rs.map fun r => (r.1, r.2.1))
    .done (match pd with | some p => wrPred s x p (rs.map fun r => (r.1, r.2.2)) | none => s) [] none

end Sys2Proof.Machine
end

