-- ==== Sys2Proof/Machine/DrayOps.lean ====
section
/-! DEFINITION. The machine of a dray (R283 to R285): its state in a train, exceptions, loads and stores. -/

namespace Sys2Proof.Machine

open Sys2Proof

def modDray (s : State) (t k : Nat) (f : Dray → Dray) : State :=
  modTrain s t fun tr =>
    match mget tr.drays k with
    | some d => { tr with drays := mset tr.drays k (f d) }
    | none => tr

def Dray.reg (d : Dray) (i : BitVec 5) : Word32 := if i = 0 then 0 else mgetD d.x i.toNat 0
def Dray.setReg (d : Dray) (i : BitVec 5) (v : Word32) : Dray := if i = 0 then d else { d with x := mput 0 d.x i.toNat v }

/-- An exception goes to mtvec with its mcause code (R283; log 10). -/
def Dray.raise (d : Dray) (cause : Nat) (tval : Word32) : Dray :=
  { d with mepc := d.pc, mcause := w32 cause, mtval := tval, pc := d.mtvec, wait := none }

/-- The dray in turn with its train, its key 2 × rank + hart and its core. -/
structure Dx where
  t : Nat
  rank : Nat
  hart : Nat
  tr : Train
  d : Dray
  core : Nat

def Dx.key (x : Dx) : Nat := 2 * x.rank + x.hart
def Dx.cluster (x : Dx) : Nat := x.core / 4
def Dx.die (x : Dx) : Nat := x.core / 48

def dxOf (s : State) (t rank hart : Nat) : Option Dx := do
  let tr ← mget s.trains t
  let d ← mget tr.drays (2 * rank + hart)
  let core ← tr.cores[rank]?
  some ⟨t, rank, hart, tr, d, core⟩

/-- The word at the dray's PC, of 2 or 4 bytes, its upper half zero for 2; or the exception (R284). -/
def Dray.fetch (d : Dray) : Except (Nat × Word32) Word32 :=
  let pc := d.pc.toNat
  let b (i : Nat) : Nat := (Memory.read d.store (pc + i)).toNat
  if pc + 2 > 0x8000 then .error (1, d.pc)
  else if b 0 % 4 = 3 then
    (if pc + 4 > 0x8000 then .error (1, d.pc + 2)
     else .ok (w32 (b 0 + 256 * b 1 + 65536 * b 2 + 16777216 * b 3)))
  else .ok (w32 (b 0 + 256 * b 1))

end Sys2Proof.Machine
end

