-- ==== Sys2Proof/Machine/Order.lean ====
section
/-! DEFINITION. Scopes, releases and acquires (R34, R199 to R203), and rejoins of fragments (R147, R148). -/

namespace Sys2Proof.Machine

open Sys2Proof

/-! ### Releases and acquires -/

/-- `.sy` below the root acts as `.pt` (R34, R203). -/
def clampScope (ctx : Nat) (sc : Scope) : Scope := if sc = .sy && ctx ≠ 0 then .pt else sc

/-- CTX_CLAMPS counts a clamped instruction once (R203). -/
def countClamp (s : State) (ctx : Nat) (sc : Scope) : State :=
  if sc = .sy && ctx ≠ 0 then modSys s ctx fun y => { y with clamps := y.clamps + 1 } else s

/-- Earlier accesses of the coach are performed, as far as they can be. -/
def settleX (x : Ix) (s : State) : State := settle s x.ref.train x.ref.coach

/-- The release event of R192 at `.pt` and `.sy` (R201). -/
def releaseAt (x : Ix) (sc : Scope) (s : State) : State := if sc = .cl then s else releaseEvent s x.cluster
/-- The acquire event (R201). -/
def acquireAt (x : Ix) (sc : Scope) (s : State) : State := if sc = .cl then s else acquireEvent s x.cluster

/-- What follows once every earlier access of the coach is performed. -/
def whenSettled (x : Ix) (s : State) (k : State → Res) : Res :=
  let s1 := settleX x s
  if !settled s1 x.ref.train x.ref.coach then .wait .other (settleX x) else k s1

/-- A release is performed only after every earlier access at its scope, and at `.sy` by the root after the
back-invalidations (R200 item 3, R202). -/
def withRelease (x : Ix) (sc0 : Scope) (s : State) (k : State → Res) : Res :=
  let sc := clampScope x.ctx sc0
  whenSettled x s fun s1 =>
    let s2 := releaseAt x sc s1
    if (sc = .sy && !s2.host.backInv.isEmpty) || (sc ≠ .cl && !releasedAll s2 x.cluster) then
      .wait .other fun s => releaseAt x sc (settleX x s)
    else k s2

/-- An acquire is performed after every earlier load, and at `.sy` by the root once every host write in flight is merged
(R200 item 2, R202, R215). -/
def withAcquire (x : Ix) (sc0 : Scope) (s : State) (k : State → Res) : Res :=
  let sc := clampScope x.ctx sc0
  whenSettled x s fun s1 =>
    if sc = .sy && !s1.host.cxlIn.isEmpty then .wait .other (settleX x) else k (acquireAt x sc s1)

/-- An acquiring load or atomic: performed before every later access of the fragment, whatever the earlier ones (R200
item 2, R202). It is performed as a whole: while one of its lanes could not be, it waits at issue. -/
def withAcquireLoad (x : Ix) (sc0 : Scope) (s : State) (k : State → Res) : Res :=
  let sc := clampScope x.ctx sc0
  if sc = .sy && !s.host.cxlIn.isEmpty then .wait .other id
  else
    match k (acquireAt x sc s) with
    | .done s' ms t => if (pendingIds s' x.ref.train x.ref.coach true).any (s.nextId ≤ ·) then .wait .other id else .done s' ms t
    | r => r

/-! ### Rejoins -/

/-- Lanes that have arrived at the rejoin (P, M): those that passed with their guard false, each once for a mask (log 86), and those
that stand there with that mask. -/
def arrivedLanes (co : Coach) (p : Word64) (m : Word32) : Word32 :=
  let passed := maskOf ((co.passed.filter fun e => e.pc = p && !e.used.contains m).map (·.lane))
  co.frags.foldl (fun k f =>
    if f.2.park.isNone && f.2.pc = p && f.2.joined.map (·.mask) = some m then k ||| f.2.mask else k) passed

/-- The rejoin releases: every live lane of M has arrived (R147). -/
def rejoinReady (co : Coach) (p : Word64) (m : Word32) : Bool :=
  (lanesOf m).all fun i => (mget co.lanes i).isNone || (arrivedLanes co p m).getLsbD i

/-- The fragments that a release joins have no more than 16 instructions with register writes pending (R404). -/
def joinFits (co : Coach) (p : Word64) (m : Word32) : Bool :=
  let k := co.frags.foldl (fun k f => if f.2.park.isNone && f.2.pc = p && f.2.joined.map (·.mask) = some m then k ||| f.2.mask else k) 0
  ((co.pend.filter fun q => q.dst ≠ .unused && q.reads.any fun e => k.getLsbD e.1).map (·.id)).eraseDups.length ≤ 16

def waitsAt (p : Word64) (m : Word32) (f : Frag) : Bool :=
  f.park.isNone && f.pc = p && f.joined.map (·.mask) = some m

/-- The waiting fragments of (P, M) become one (R147). -/
def mergeRejoin (co : Coach) (p : Word64) (j : Join) : Coach :=
  let ws := co.frags.filter fun f => waitsAt p j.mask f.2
  if ws.isEmpty then co
  else
    let m := ws.foldl (fun k f => k ||| f.2.mask) 0
    { co with
      frags := mset (co.frags.filter fun f => !waitsAt p j.mask f.2) (lowest m)
        { Frag.fresh m p none with joined := some { j with released := true }, due := ws.findSome? fun f => f.2.due }
      passed := co.passed.map fun e => if e.pc = p && j.mask.getLsbD e.lane then { e with used := e.used ++ [j.mask] } else e }

/-- Every rejoin at P of a coach that can release does. -/
def releaseRejoins (co : Coach) (p : Word64) : Coach :=
  let js := co.frags.filterMap fun f => if f.2.pc = p && f.2.park.isNone then f.2.joined else none
  js.foldl (fun co j => if !j.released && rejoinReady co p j.mask && joinFits co p j.mask then mergeRejoin co p j else co) co

/-- The two lanes and masks that MASK_DISAGREE reports (R148, R404). -/
def disagree (lo hi : Nat) (m1 m2 : Word32) : Trap :=
  ⟨BitVec.ofNat 16 cMASK_DISAGREE, 0xFF, m2 ++ m1, w64 (256 * hi + lo)⟩

/-- The masks that the enabled lanes supply, checked as R148 says. -/
def maskCheck (x : Ix) (ms : List (Nat × Word32)) : Option Trap :=
  match ms with
  | [] => none
  | (lo, m) :: _ =>
    match (ms.filter fun e => e.2 ≠ m).getLast? with
    | some e => some (disagree lo e.1 m e.2)
    | none =>
      let others := x.co.frags.filter fun f =>
        f.1 ≠ x.ref.frag && f.2.park.isNone && f.2.pc = x.fr.pc && f.2.mask &&& m ≠ 0 &&
          (match f.2.joined with | some j => j.mask ≠ m | none => false)
      let lanes := others.foldl (fun k f => k ||| (f.2.mask &&& m)) 0
      match (lanesOf lanes).getLast? with
      | none => none
      | some h =>
        match others.find? fun f => f.2.mask.getLsbD h with
        | some f => some (disagree lo h m ((f.2.joined.map (·.mask)).getD 0))
        | none => none

/-- The passes of lanes at P are forgotten. -/
def Coach.unpass (co : Coach) (p : Word64) (m : Word32) : Coach :=
  { co with passed := co.passed.filter fun e => !(e.pc = p && m.getLsbD e.lane) }

/-- Lanes that pass P with their guard false are recorded as arrived until they issue the instruction at P again or end (R147, log
86). -/
def notePassed (s : State) (x : Ix) (m : Word32) : State :=
  if m = 0 then s
  else modCoach s x.ref.train x.ref.coach fun co =>
    let co := co.unpass x.fr.pc m
    { co with passed := co.passed ++ (lanesOf m).map fun l => ⟨x.fr.pc, l, []⟩ }

/-- The lanes `stay` stand at P with their mask; the others of the fragment go on (R147, R148), as one fragment (log 86). -/
def arrive (x : Ix) (word : Word96) (stay off : Word32) (j : Join) (s : State) : State :=
  let s := notePassed s x off
  let pass := x.fr.mask &&& ~~~stay
  let pf := if pass = 0 then x.fr.pfrag else some x.ref.frag
  let s := modCoach s x.ref.train x.ref.coach fun co =>
    let co := co.unpass x.fr.pc stay
    let fs := mset (mdel co.frags x.ref.frag) (lowest stay)
      { x.fr with mask := stay, pfrag := pf, joined := some j, wait := none }
    { co with frags := if pass = 0 then fs else mset fs (lowest pass) (Frag.fresh pass (x.fr.pc + 12) pf) }
  if pass ≠ 0 && x.co.step && (x.co.frameOf x.fr.mask).isNone then
    takeTrap s { x.ref with frag := lowest pass } (trapOf cSTEP) false x.fr.pc word
  else s

/-- Release, unless the turn defers it to REJOIN_RELEASE, at P in the coaches given. -/
def tryRejoins (s : State) (t : Nat) (cs : List CoachId) (p : Word64) : State :=
  if s.defer then s else cs.foldl (fun s c => modCoach s t c fun co => releaseRejoins co p) s

/-- The fragment of a coach that holds lane `l` and has been released at P. -/
def releasedOf (s : State) (t : Nat) (c : CoachId) (p : Word64) (l : Nat) : Option Ix :=
  match coachOf s t c with
  | none => none
  | some co =>
    match co.frags.find? fun f => f.2.mask.getLsbD l && f.2.pc = p && (f.2.joined.map (·.released)) = some true with
    | some f => ixOf s ⟨t, c, f.1⟩
    | none => none

/-- An instruction that arrives at the rejoin (its address, mask) and performs on the fragment that the release makes
(R147, R163, R171). `masks` reads the mask of a lane, `group` lists the coaches that release together, and `perform` acts
for the merged fragment. -/
def rejoinBody (i : Instr) (a : Args) (kind : JoinKind) (masks : State → Ix → Nat → Word32)
    (group : Ix → List CoachId) (perform : Ix → List Nat → State → Res) : Ix → List Nat → State → Res :=
  fun x ls s =>
    let word := encodeVamer i
    let p := x.fr.pc
    let act (s0 s : State) (l : Nat) (back : State → State) : Res :=
      let s := tryRejoins s x.ref.train (group x) p
      match releasedOf s x.ref.train x.ref.coach p l with
      | none => .wait .other back
      | some y =>
        match perform y (lanesOf y.fr.mask) s with
        | .done s' ms after => .own (commit s0 y a i a.yld s' ms after id)
        | r => r
    match x.fr.joined with
    | some _ => act s s (lowest x.fr.mask) id
    | none =>
      let ms := ls.map fun l => (l, masks s x l)
      match maskCheck x ms with
      | some t => .trap t
      | none =>
        let m := (ms.head?.map (·.2)).getD 0
        let stay := maskOf (ls.filter fun l => m.getLsbD l)
        let off := x.fr.mask &&& ~~~maskOf ls
        if stay = 0 then .done (notePassed s x off) [] none
        else if !canonical (p + 12).toNat then .trap (addrTrapB x (p + 12) (lanesOf x.fr.mask))
        else
          let go := arrive x word stay off ⟨m, kind, false⟩
          act s (go s) (lowest stay) go

end Sys2Proof.Machine
end

