-- ==== Sys2Proof/Machine/Fetch.lean ====
section
/-! DEFINITION. Fetching the next instruction of a fragment (R36, R183, R361) or of a dray (R284), and the order in which
the ports choose (R150). -/

namespace Sys2Proof.Machine

open Sys2Proof

/-- What an agent in turn does first: nothing (it may not issue), a state reached without an instruction, or the
instruction to execute. -/
inductive Fetched where
  | idle
  | moved (s : State)
  | ready (i : Instr) (s : State)

/-- A fragment may take a turn: its train is resident and not held, and it is not parked or napping (R146, R150, R399). -/
def mayIssue (s : State) (x : Ix) : Bool :=
  x.tr.res = .resident && !x.tr.held && x.fr.park.isNone && x.fr.nap.isNone && ctxRuns s x.ctx

def icKey (ctx va : Nat) : Nat := 2 ^ 55 * ctx + va

/-- 12 bytes held by the instruction caches. -/
def icacheBytes (s : State) (cl ctx va : Nat) : Option (List Byte) :=
  (List.range 12).mapM fun i => mget (s.cluster cl).icache (icKey ctx (va55 (va + i)))

/-- Instruction bytes through the cluster L1 or the cellar of the die; none while their bank refreshes (R16) or the home holds the
request (R370). -/
def fetchBytes (s : State) (x : Ix) (ma n : Nat) (key : Byte) : Option (List Byte × State) :=
  if n = 0 then some ([], s)
  else (readLoc s x.ctx n (if isHbm ma then .glob x.cluster ma false key else .cellar x.die (nbits ma 0 30)) []).map fun r => (r.1.bytes, r.2)

/-- The whole fragment parks at a fetch that faults (R184, R407). -/
def parkFetch (s : State) (x : Ix) (va : Nat) (xl : Xl) : State :=
  let r := parkLanes s x .fetch [⟨x.fr.mask, va55 va / 65536, w64 va, xl⟩]
  finish r.1 x 0 r.2 none id

/-- Fetch of 12 bytes at the fragment's PC; both pages are translated (R36). -/
def fetchWord (s : State) (x : Ix) : Except State (Word96 × State) :=
  let pc := x.fr.pc.toNat
  match xlate s x.cluster x.coreTlb x.ctx pc .fetch x.fr.replay false with
  | (.ok m1 k1, s) =>
    let split := pc / 65536 ≠ (pc + 11) / 65536
    let second : Except (State) (Nat × Byte × State) :=
      if split || isRefused (m1 + 11) then
        let va := if split then 65536 * ((pc + 11) / 65536) else pc + 11
        match xlate s x.cluster x.coreTlb x.ctx va .fetch x.fr.replay false with
        | (.ok m2 k2, s) => .ok (m2, k2, s)
        | (.held, s) => .error (stall s x.ref .other)
        | (xl, s) => .error (parkFetch s x va xl)
      else .ok (m1, k1, s)
    match second with
    | .error s => .error s
    | .ok (m2, k2, s) =>
      let n1 := if split then 65536 - pc % 65536 else 12
      if keyConflict s m1 k1 || (split && keyConflict s m2 k2) then
        .error (trapB s x (trapAt cKEY_CONFLICT x.fr.mask x.fr.pc) 0)
      else if isMmio m1 || (split && isMmio m2) then .error (trapB s x (trapAt cMEM_ALIGN x.fr.mask x.fr.pc) 0)
      else
        match icacheBytes s x.cluster x.ctx pc with
        | some bs => .ok (BitVec.ofNat 96 (leVal bs), s)
        | none =>
          match (fetchBytes s x m1 n1 k1).bind fun r => (fetchBytes r.2 x m2 (12 - n1) k2).map fun q => (r.1 ++ q.1, q.2) with
          | none => .error (stall s x.ref .other)
          | some (bs, s) =>
            let s := modCluster s x.cluster fun c =>
              { c with icache := (List.range 12).foldl (fun m i => mset m (icKey x.ctx (va55 (pc + i))) (bs.getD i 0)) c.icache }
            .ok (BitVec.ofNat 96 (leVal bs), s)
  | (.held, s) => .error (stall s x.ref .other)
  | (xl, s) => .error (parkFetch s x pc xl)

/-- The wait of a BAR or GBAR: over when the phase has left the token, with an acquire at its scope (R245, R246); none
while it goes on. -/
def barWait (s : State) (x : Ix) : Option State :=
  match x.fr.bar with
  | none => some s
  | some (launch, b, token, sc0) =>
    let sc := clampScope x.ctx sc0
    let ph := if launch then (lbarOf s (lbarKey x.tr)).ph else (x.tr.barrier b).ph
    if ph = token || (sc = .sy && !s.host.cxlIn.isEmpty) then none
    else some (acquireAt x sc (modFrag s x.ref fun f => { f with bar := none }))

/-- A fragment that waits for the answer of its HCALL: it idles, or takes the answer and goes on (R395). -/
def hcallWait (s : State) (x : Ix) (h : HWait) : Option State :=
  match mget (s.ctx x.ctx).answers h.seq with
  | none => none
  | some v =>
    let s := modCtx (wr s x h.dst 64 ((lanesOf h.lanes).map fun l => (l, v.toNat))) x.ctx fun y => { y with answers := mdel y.answers h.seq }
    some (finish s x h.word [] none id)

/-- A trap that is due first (R400), then the instruction at the fragment's PC. -/
def fetchNext (s : State) (x : Ix) : Fetched :=
  match x.fr.due with
  | some d =>
    if !isReflected s x d.trap && (freeSlot s x).isNone then .moved (stall s x.ref .frames)
    else .moved (takeTrap (modFrag s x.ref fun f => { f with due := none }) x.ref d.trap false d.tpc d.word)
  | none =>
    match fetchWord s x with
    | .error s => .moved s
    | .ok (w, s) =>
      match decodeVamer x.spine w with
      | .ok i => .ready i s
      | .error f => .moved (issueIllegal s x.ref w f)

/-- The turn of a fragment. -/
def fetchFrag (s : State) (r : FragRef) : Fetched :=
  match ixOf s r with
  | none => .idle
  | some x =>
    if !mayIssue s x then .idle
    else
      match barWait s x with
      | none => .idle
      | some s =>
        match ixOf s r with
        | none => .idle
        | some x => match x.fr.hcall with
          | none => fetchNext s x
          | some h => match hcallWait s x h with
            | none => .idle
            | some s => .moved s

/-- The turn of a dray: it runs while its train is resident (R14). -/
def fetchDray (s : State) (t rank hart : Nat) : Fetched :=
  match dxOf s t rank hart with
  | none => .idle
  | some x =>
    if x.tr.res ≠ .resident || x.d.halted || !ctxRuns s x.tr.ctx then .idle
    else
      match x.d.fetch with
      | .error (c, v) => .moved (modDray s t x.key fun d => d.raise c v)
      | .ok w => .ready (decodeDray w) s

def fetchAgent (s : State) (a : Agent) : Fetched :=
  match a with
  | .frag r => fetchFrag s r
  | .dray t rank hart => fetchDray s t rank hart

/-! ### Which agent issues when the agenda is empty (R150; log 3) -/

/-- Agents of one issue port in port order, with whether they are aged. -/
structure OnPort where
  port : Nat
  key : List Nat
  ref : FragRef
  age : Nat

/-- Fragments resident on the ports of the cores, with their port order (R150). -/
def onPorts (s : State) : List OnPort :=
  s.trains.flatMap fun e =>
    let t := e.2
    if t.res ≠ .resident then []
    else
      t.coaches.flatMap fun c =>
        let core := t.cores.getD (t.rankOf.getD c.1 0) 0
        c.2.frags.map fun f => ⟨4 * core + c.1 % 4, portPos t c.1 f.1, ⟨e.1, .coach c.1, f.1⟩, f.2.age⟩

def lexLt : List Nat → List Nat → Bool
  | a :: t, b :: u => a < b || (a = b && lexLt t u)
  | [], _ :: _ => true
  | _, _ => false

/-- A sort that keeps the order of equals. -/
def insertBy {α : Type} (lt : α → α → Bool) (a : α) : List α → List α
  | [] => [a]
  | b :: t => if lt b a then b :: insertBy lt a t else a :: b :: t
def sortBy {α : Type} (lt : α → α → Bool) (l : List α) : List α := l.foldr (insertBy lt) []

/-- The fragments of one port in the order in which the port tries them (R150): aged ones, the one that issued last while its run goes
on, then cyclic port order after it. -/
def portChoice (s : State) (k : Nat) (l : List OnPort) : List Agent :=
  let l := sortBy (fun a b => lexLt a.key b.key) l
  let p := s.port k
  let aged := sortBy (fun a b => decide (a.age > b.age)) (l.filter fun f => f.age ≥ 64)
  let again := if 1 ≤ p.run && p.run < 8 then l.filter fun f => some f.ref = p.last else []
  (aged ++ again ++ l.filter (fun f => lexLt p.pos f.key) ++ l.filter fun f => !lexLt p.pos f.key).map fun f => .frag f.ref

def rotate {α : Type} (n : Nat) (l : List α) : List α := if l.length = 0 then l else l.drop (n % l.length) ++ l.take (n % l.length)

/-- Every agent that could issue: ports, spines and drays, starting at a port that moves with the beat. -/
def agentOrder (s : State) : List Agent :=
  let fs := onPorts s
  let ports := (fs.map (·.port)).eraseDups
  let perPort := ports.map fun k => portChoice s k (fs.filter fun f => f.port = k)
  let spines := s.trains.filterMap fun e =>
    if e.2.res = .resident then
      match e.2.spine with
      | some co => if co.frags.isEmpty then none else some (co.frags.map fun f => Agent.frag ⟨e.1, .spine, f.1⟩)
      | none => none
    else none
  let drays := s.trains.flatMap fun e =>
    if e.2.res = .resident then e.2.drays.map fun d => [Agent.dray e.1 (d.1 / 2) (d.1 % 2)] else []
  (rotate s.beat (perPort ++ spines ++ drays)).flatten

end Sys2Proof.Machine
end

