-- ==== Sys2Proof/Machine/Place.lean ====
section
/-! DEFINITION. An instruction word placed where the next step fetches it (log 9). -/

namespace Sys2Proof.Machine

open Sys2Proof

/-- A coach with all 32 lanes live, standing at address 0. -/
def Coach.oneFrag (lanes : Nat) (gen : Word32) (spine : Bool) : Coach where
  gen := gen
  step := false
  sregs := []
  sbad := []
  frags := [(0, Frag.fresh (maskOf (List.range lanes)) 0 none)]
  lanes := (List.range lanes).map fun i => (i, Lane.init (if spine then 0xFFFFFFFF else BitVec.ofNat 32 i))
  pend := []
  frames := []
  passed := []
  ras := []
  left := []

def Dray.init (store : Memory) : Dray where
  pc := 0
  x := []
  mtvec := 0
  mscratch := 0
  mepc := 0
  mcause := 0
  mtval := 0
  minstret := 0
  cycBase := 0
  drth := 0
  priv := []
  store := store
  halted := false
  wait := none

/-- A train of the root on core 0 of the package: one coach, all 512 registers of its window, all of the scratchpad that
fits, 64 tiles, 16 yokes. -/
def Train.probe (store : Memory) (dray : Bool) : Train where
  ctx := 0
  queue := 0
  launch := 1
  graph := 0
  phase := 0
  job := 0
  argbase := 0
  first := 0
  count := 1
  num := 0
  nest := 0
  pub := 0
  claimed := 1
  entry := 0
  window := 512
  scratch := 65536
  acc := 64
  yokes := 16
  nfib := 32
  ncoach := 1
  gbar := false
  cores := [0]
  rankOf := [0]
  sbase := [0]
  coaches := [(0, Coach.oneFrag 32 0x9E3779B9 false)]
  spined := false
  spine := none
  spineCl := 0
  fidNext := 32
  bars := []
  och := []
  scr := []
  scrPoison := []
  tiles := []
  tilePoison := []
  yk := []
  mmas := []
  latch := []
  drays := if dray then [(0, Dray.init store)] else []
  dimg := []
  res := .resident
  ready := false
  placed := 0
  held := false
  lateFaults := []
  img := []
  saved := false
  board := []

def bytesAt (a : Nat) (bs : List Byte) : Memory :=
  (List.range bs.length).foldl (fun m i => Memory.write m (a + i) (bs.getD i 0)) []

/-- The word placed as the next instruction of a train that stands in no one's way: a 96-bit word at virtual address 0 of
the root, held by the instruction cache and translated by the cluster's TLB; a 32-bit word at address 0 of a dray. -/
def placeWord (s : State) (nbits w : Nat) : State :=
  if nbits = 32 then
    { s with
      agenda := .issue (.dray 0 0 0) false :: s.agenda
      trainNext := Nat.max s.trainNext 1
      trains := mset s.trains 0 (Train.probe (bytesAt 0 (leBytes 4 w)) true) }
  else
    let bs := leBytes 12 w
    let t : Tlb := ⟨0, 0, 0, 0, true, true, true, 0, true, true⟩
    { s with
      agenda := .issue (.frag ⟨0, .coach 0, 0⟩) false :: s.agenda
      trainNext := Nat.max s.trainNext 1
      trains := mset s.trains 0 (Train.probe [] false)
      clusters := mset s.clusters 0 { s.cluster 0 with
        tlb := t :: (s.cluster 0).tlb
        icache := (List.range 12).foldl (fun m i => mset m i (bs.getD i 0)) (s.cluster 0).icache } }

end Sys2Proof.Machine
end

