-- ==== Sys2Proof/Machine/Control.lean ====
section
/-! DEFINITION. Class 0x4: control flow, fibres, rejoins, naps and the instruction caches (R153 to R167), with the
events of rejoins and naps. -/

namespace Sys2Proof.Machine

open Sys2Proof

/-- The lanes transfer, each to its own target; a bad target traps for the whole fragment (R155). -/
def transfer (ts : List (Nat × Word64)) (s : State) : Res :=
  match ts.filter fun e => !targetOk e.2 with
  | [] => .done s (ts.map fun e => (e.1, Move.go e.2)) none
  | (l, t) :: r => .trap (trapAt cBAD_TARGET (maskOf (l :: r.map (·.1))) t)

/-- The target of a form-O transfer (R155). -/
def formO (x : Ix) (a : Args) : Word64 := x.fr.pc + 12 + a.tail.signExtend 64

/-- NOP (R165). -/
def execNop (x : Args) (s : State) : Host.Outcome State Fault Refusal :=
  vamer (.nop x) x false (fun _ _ s => .done s [] none) s

/-- BRA (R156). -/
def execBra (x : Args) (s : State) : Host.Outcome State Fault Refusal :=
  vamer (.bra x) x false (fun ix ls s => transfer (ls.map fun l => (l, formO ix x)) s) s

/-- Every enabled lane transfers to its own 64-bit target. -/
def indirect (x : Args) (ix : Ix) (ls : List Nat) (s : State) : List (Nat × Word64) :=
  ls.map fun l => (l, w64 (src s ix x 64 .int x.b l))

/-- BRX (R156). -/
def execBrx (x : Args) (s : State) : Host.Outcome State Fault Refusal :=
  vamer (.brx x) x false (fun ix ls s => transfer (indirect x ix ls s) s) s

/-- The spine's return-address predictor, 16 entries (R179): a call pushes, RET pops. -/
def rasPush (s : State) (ix : Ix) : State :=
  if ix.spine then modCoach s ix.ref.train ix.ref.coach fun co => { co with ras := ((ix.fr.pc + 12) :: co.ras).take 16 }
  else s
def rasPop (s : State) (ix : Ix) : State :=
  if ix.spine then modCoach s ix.ref.train ix.ref.coach fun co => { co with ras := co.ras.drop 1 } else s

/-- RET (R156). -/
def execRet (x : Args) (s : State) : Host.Outcome State Fault Refusal :=
  vamer (.ret x) x false (fun ix ls s => transfer (indirect x ix ls s) (rasPop s ix)) s

/-- CALL and CALLX write the link, then transfer (R156). -/
def callTo (x : Args) (ix : Ix) (ts : List (Nat × Word64)) (s : State) : Res :=
  transfer ts (rasPush (wr s ix x.a 64 (ts.map fun e => (e.1, (ix.fr.pc + 12).toNat))) ix)

def execCall (x : Args) (s : State) : Host.Outcome State Fault Refusal :=
  vamer (.call x) x false (fun ix ls s => callTo x ix (ls.map fun l => (l, formO ix x)) s) s
def execCallx (x : Args) (s : State) : Host.Outcome State Fault Refusal :=
  vamer (.callx x) x false (fun ix ls s => callTo x ix (indirect x ix ls s) s) s

/-- JTAB (R157). -/
def execJtab (x : Args) (s : State) : Host.Outcome State Fault Refusal :=
  vamer (.jtab x) x false (fun ix ls s =>
    let ts := ls.filterMap fun l =>
      let b := src s ix x 32 .int x.b l
      if b < src s ix x 32 .int x.c l then some (l, formO ix x + 12 * w64 b) else none
    transfer ts s) s

/-- A count less 1, modulo 2^32 (R158). -/
def lessOne (n : Nat) : Nat := (n + 2 ^ 32 - 1) % 2 ^ 32

/-- LOOP (R158). -/
def execLoop (x : Args) (s : State) : Host.Outcome State Fault Refusal :=
  vamer (.loop x) x false (fun ix ls s =>
    let ns := ls.map fun l => (l, lessOne (src s ix x 32 .int x.a l))
    transfer ((ns.filter fun e => e.2 ≠ 0).map fun e => (e.1, formO ix x)) (wr s ix x.a 32 ns)) s

/-- BRANY and BRALL move every active lane (R159). -/
def wholeBranch (take : Bool) (x : Args) (ix : Ix) (s : State) : Res :=
  if take then transfer ((lanesOf ix.fr.mask).map fun l => (l, formO ix x)) s else .done s [] none

def voteOf (x : Args) (ix : Ix) (l : Nat) : Bool :=
  match x.b with
  | .pred p => predOf ix l p
  | _ => false

def execBrany (x : Args) (s : State) : Host.Outcome State Fault Refusal :=
  vamer (.brany x) x false (fun ix ls s => wholeBranch (ls.any (voteOf x ix)) x ix s) s
def execBrall (x : Args) (s : State) : Host.Outcome State Fault Refusal :=
  vamer (.brall x) x false (fun ix ls s => wholeBranch (ls.all (voteOf x ix)) x ix s) s

/-! ### Fibres -/

/-- A lane slot holds no fibre and no reply to one is pending (R141). -/
def slotFree (co : Coach) (i : Nat) : Bool :=
  (mget co.lanes i).isNone && !co.pend.any fun p => p.reads.any fun e => e.1 = i

/-- Free slots of a train on the core of rank `rank`, lowest coach first (R160). -/
def freeSlots (t : Train) (rank : Nat) : List (Nat × Nat) :=
  (t.coaches.filter fun c => t.rankOf.getD c.1 0 = rank).flatMap fun c =>
    ((List.range 32).filter fun i => slotFree c.2 i).map fun i => (c.1, i)

/-- A child made by FORK (R160). -/
def childLane (id parent : Word32) (arg : Nat) : Lane :=
  (setRegs (Lane.init id) 0 2 arg).setReg 2 parent

/-- The children that FORK makes: parent lane, slot, identifier. -/
def forkPairs : List Nat → List (Nat × Nat) → Nat → List (Nat × (Nat × Nat) × Nat)
  | l :: ls, sl :: sls, id => if id < 0xFFFFFFFF then (l, sl, id) :: forkPairs ls sls (id + 1) else []
  | _, _, _ => []

/-- Place the children; those of one coach form one fragment at the target (R143). -/
def placeChildren (s : State) (x : Ix) (a : Args) (target : Word64) (ks : List (Nat × (Nat × Nat) × Nat)) : State :=
  let s1 := ks.foldl (fun s1 k =>
    let lane := childLane (w32 k.2.2) (w32 (srVal s x k.1 0)) (src s x a 64 .int a.b k.1)
    modCoach s1 x.ref.train (.coach k.2.1.1) fun co => { co with lanes := mset co.lanes k.2.1.2 lane }) s
  let s2 := (ks.map (fun k => k.2.1.1)).eraseDups.foldl (fun s c =>
    let m := maskOf ((ks.filter fun k => k.2.1.1 = c).map fun k => k.2.1.2)
    modCoach s x.ref.train (.coach c) fun co => { co with frags := mset co.frags (lowest m) (Frag.fresh m target none) }) s1
  modTrain s2 x.ref.train fun t => { t with fidNext := t.fidNext + ks.length }

/-- FORK (R160): creates a child for as many enabled lanes as there are free slots; on the spine every lane fails. -/
def execFork (pv : Bool) (pd : BitVec 4) (x : Args) (s : State) : Host.Outcome State Fault Refusal :=
  vamer (.fork pv pd x) x false (fun ix ls s =>
    let target := formO ix x
    if !targetOk target then .trap (trapAt cBAD_TARGET (maskOf ls) target)
    else
      let ks := if ix.spine then [] else forkPairs ls (freeSlots ix.tr ix.rank) ix.tr.fidNext
      let made (l : Nat) : Option Nat := (ks.find? fun k => k.1 = l).map fun k => k.2.2
      let s := placeChildren s ix x target ks
      let s := wr s ix x.a 32 (ls.map fun l => (l, (made l).getD 0xFFFFFFFF))
      .done (if pv then wrPred s ix pd (ls.map fun l => (l, (made l).isSome)) else s) [] none) s

/-- END (R161). -/
def execEnd_ (x : Args) (s : State) : Host.Outcome State Fault Refusal :=
  vamer (.end_ x) x false (fun _ ls s => .done s (ls.map fun l => (l, Move.ended)) none) s

/-- EXIT: a release at `.pt`, then END (R161). -/
def execExit (x : Args) (s : State) : Host.Outcome State Fault Refusal :=
  vamer (.exit x) x false (fun ix ls s => withRelease ix .pt s fun s => .done s (ls.map fun l => (l, Move.ended)) none) s

/-! ### Rejoins -/

/-- RCV.MARK (R162). -/
def execRcvMark (x : Args) (s : State) : Host.Outcome State Fault Refusal :=
  vamer (.rcvMark x) x false (fun ix ls s => .done (wr s ix x.a 32 (ls.map fun l => (l, (maskOf ls).toNat))) [] none) s

/-- The coaches of a train on one core. -/
def coachesAt (t : Train) (rank : Nat) : List CoachId :=
  (t.coaches.filter fun c => t.rankOf.getD c.1 0 = rank).map fun c => .coach c.1

/-- Fragments of a core that released for regrouping at P: coach and fragment. -/
def regroupSet (t : Train) (rank : Nat) (p : Word64) : List (Nat × Frag) :=
  (t.coaches.filter fun c => t.rankOf.getD c.1 0 = rank).flatMap fun c =>
    (c.2.frags.filter fun f => f.2.pc = p && f.2.park.isNone &&
      (match f.2.joined with | some ⟨_, .regroup _, true⟩ => true | _ => false)).map fun f => (c.1, f.2)

def heldSlots (fs : List (Nat × Frag)) : List (Nat × Nat) := fs.flatMap fun f => (lanesOf f.2.mask).map fun i => (f.1, i)

/-- Fibres in ascending %fid order. -/
def byFid (ls : List Lane) : List Lane :=
  ls.foldr (fun l acc => (acc.takeWhile fun k => k.fid < l.fid) ++ [l] ++ (acc.dropWhile fun k => k.fid < l.fid)) []

/-- The packing of R164: each fibre with the slot it takes, fibres in ascending %fid order into the slots of the core that
are free or held, in ascending (coach, lane) order. -/
def packing (t : Train) (rank : Nat) (held : List (Nat × Nat)) : List ((Nat × Nat) × Lane) :=
  let fibres := held.filterMap fun h => do
    let co ← mget t.coaches h.1
    mget co.lanes h.2
  let slots := (t.coaches.filter fun c => t.rankOf.getD c.1 0 = rank).flatMap fun c =>
    ((List.range 32).filter fun i => held.contains (c.1, i) || slotFree c.2 i).map fun i => (c.1, i)
  slots.zip (byFid fibres)

def maskAt (put : List ((Nat × Nat) × Lane)) (c : Nat) : Word32 :=
  maskOf (put.filterMap fun e => if e.1.1 = c then some e.1.2 else none)

/-- One coach after the packing: its fibres moved out and in, each with its B, and one new fragment. -/
def packCoach (c : Nat) (co : Coach) (held : List (Nat × Nat)) (put : List ((Nat × Nat) × Lane)) (v : Nat) (next : Word64) :
    Coach :=
  let m := maskAt put c
  let out := held.filterMap fun h => if h.1 = c then some h.2 else none
  let gone := out.foldl (fun k i => mdel k i) co.lanes
  let frags := co.frags.filter fun f => !out.any fun i => f.2.mask.getLsbD i
  { co with
    passed := co.passed.filter fun e => !out.contains e.lane
    left := out.foldl (fun k i => match mget co.lanes i with | some l => mset k i l.v | none => k) co.left
    lanes := put.foldl (fun k e =>
      if e.1.1 = c then mset k e.1.2 (Lane.setReg { e.2 with rfc := 0 } v m) else k) gone
    frags := if m = 0 then frags else mset frags (lowest m) (Frag.fresh m next none) }

/-- A reply to a fibre that the regrouping at `x` moves is pending. -/
def regroupWaits (x : Ix) (s : State) : Bool :=
  match mget s.trains x.ref.train with
  | none => false
  | some tr => (heldSlots (regroupSet tr x.rank x.fr.pc)).any fun h => match mget tr.coaches h.1 with
    | some co => co.pend.any fun p => p.reads.any fun e => e.1 = h.2
    | none => false

/-- The slots that the fibres moved by the regrouping at `x` take. -/
def regroupPacking (x : Ix) (s : State) : List ((Nat × Nat) × Lane) :=
  match mget s.trains x.ref.train with
  | none => []
  | some tr => packing tr x.rank (heldSlots (regroupSet tr x.rank x.fr.pc))

/-- The anchor of a yoke moves with its fibre (R298). -/
def Yoke.moved (t : Train) (put : List ((Nat × Nat) × Lane)) (y : Yoke) : Yoke :=
  match (mget t.coaches y.anchor.1).bind fun co => mget co.lanes y.anchor.2 with
  | none => y
  | some l => match put.find? fun e => e.2.fid = l.fid with
    | some e => if (y.signed.head?.map (·.1)) = some l.fid.toNat then { y with anchor := e.1 } else y
    | none => y

/-- The core after the regrouping at `x`, each moved fibre with its B in register `v` (R164). -/
def regrouped (x : Ix) (v : Nat) (s : State) : State :=
  match mget s.trains x.ref.train with
  | none => s
  | some tr =>
    let held := heldSlots (regroupSet tr x.rank x.fr.pc)
    modTrain s x.ref.train fun u =>
      { u with
        coaches := u.coaches.map fun c =>
          if u.rankOf.getD c.1 0 = x.rank then (c.1, packCoach c.1 c.2 held (regroupPacking x s) v (x.fr.pc + 12)) else c
        yk := match mget u.yk x.rank with
          | some ys => mset u.yk x.rank (ys.map fun y => (y.1, y.2.moved tr (regroupPacking x s)))
          | none => u.yk }

/-- The regrouping completes for every fragment of the core that released with this one (R164); STEP is then taken in
each fragment that results (R430). -/
def regroupRelease (x : Ix) (v : Nat) (word : Word96) (s0 : State) : Res :=
  let t := x.ref.train
  let replies (s : State) : State := (coachesAt x.tr x.rank).foldl (fun s c => replyAll s t c) s
  let s := replies s0
  if regroupWaits x s then .wait .other replies
  else
    let u := regrouped x v s
    let put := regroupPacking x s
    if x.co.step && (x.co.frameOf x.fr.mask).isNone then
      .own ((put.map (fun e => e.1.1)).eraseDups.foldl (fun s c =>
        takeTrap s ⟨t, .coach c, lowest (maskAt put c)⟩ (trapOf cSTEP) false x.fr.pc word) u)
    else .own u

/-- RCV.WAIT and RCV.WAIT.rg (R163, R164); the spine never regroups (R178). -/
def execRcvWait (rg : Bool) (x : Args) (s : State) : Host.Outcome State Fault Refusal :=
  let i : Instr := .rcvWait rg x
  let v : BitVec 9 := match x.b with | .v n => n | _ => 0
  vamer i x true (rejoinBody i x (if rg then .regroup v else .plain)
    (fun s ix l => w32 (src s ix x 32 .int x.b l))
    (fun ix => if rg && !ix.spine then coachesAt ix.tr ix.rank else [ix.ref.coach])
    (fun ix _ s =>
      if !rg || ix.spine then .done s [] none
      else
        match regroupRelease ix v.toNat (encodeVamer i) s with
        | .own s => .own (noteIssue s ix i x x.yld)
        | r => r)) s

/-- REJOIN_RELEASE (R147, R164): the rejoins at `x` that can release in the coaches `cs` of train `i` do, together; the
merged fragments stand there and complete when they issue. -/
def execRejoinRelease (s : State) : Host.Outcome State Fault Refusal :=
  .next (s.ev.cs.foldl (fun t c => modCoach t s.ev.i c fun co => releaseRejoins co s.ev.x) s)

/-! ### Hints and code -/

/-- YIELD ends the run of consecutive issues (R165). -/
def execYield (x : Args) (s : State) : Host.Outcome State Fault Refusal :=
  vamer (.yield x) x false (fun _ _ s => .goOn s true id) s

/-- NAP (R166): the fragment that goes on naps until the deadline that its lowest enabled lane gives. -/
def execNap (x : Args) (s : State) : Host.Outcome State Fault Refusal :=
  vamer (.nap x) x false (fun ix ls s =>
    let n := rtCap (src s ix x 32 .int x.b (ls.headD 0))
    .goOn s (n = 0) fun f => if n = 0 then f else { f with nap := some (s.rtime + n) }) s

/-- NAP_DEADLINE (R166): the deadline of fragment `frag` has been reached. -/
def execNapDeadline (s : State) : Host.Outcome State Fault Refusal :=
  .next (modFrag s s.ev.frag fun f =>
    match f.nap with
    | some d => if d ≤ s.rtime then { f with nap := none } else f
    | none => f)

/-- The lines of the instruction caches that overlap a range are invalid afterwards; all of them for length 0 (R167). -/
def icInvalidate (s : State) (cl ctx b n : Nat) : State :=
  modCluster s cl fun c =>
    { c with icache := if n = 0 then [] else c.icache.filter fun e =>
        let va := e.1 % 2 ^ 55
        !(e.1 / 2 ^ 55 = ctx && overlap (128 * (va / 128)) 128 (va55 b) n) }

/-- ICINV (R167): waits for the earlier stores, then invalidates. -/
def execIcinv (x : Args) (s : State) : Host.Outcome State Fault Refusal :=
  vamer (.icinv x) x false (fun ix ls s =>
    let b := src s ix x 64 .int x.b (ls.headD 0)
    let n := src s ix x 32 .int x.c (ls.headD 0)
    whenSettled ix s fun s => .done (icInvalidate s ix.cluster ix.ctx b n) [] none) s

end Sys2Proof.Machine
end

