-- ==== Sys2Proof/Machine/Flags.lean ====
section
/-! DEFINITION. Integer arithmetic with its flags: exact results, ranges, saturation, carry, borrow and overflow
(R69, R72 to R79), shifts and bit fields (R81 to R85). N is the operating width, 32 or 64. -/

namespace Sys2Proof.Machine

open Sys2Proof

def maxU (n : Nat) : Int := 2 ^ n - 1
def minS (n : Nat) : Int := -(2 ^ (n - 1) : Nat)
def maxS (n : Nat) : Int := 2 ^ (n - 1) - 1

/-- An operand as an exact integer (R72). -/
def opInt (u : Bool) (n x : Nat) : Int := if u then (x : Int) else sval n x

/-- The range of the operating width. -/
def inRange (u : Bool) (n : Nat) (e : Int) : Bool := if u then 0 ≤ e && e ≤ maxU n else minS n ≤ e && e ≤ maxS n

def clampTo (u : Bool) (n : Nat) (e : Int) : Int :=
  if u then min (max e 0) (maxU n) else min (max e (minS n)) (maxS n)

/-- The carry or borrow of ADD and SUB: the unsigned result leaves the range (R73). -/
def carryFlag (n : Nat) (eu : Int) : Bool := eu < 0 || eu > maxU n
/-- The overflow flag: the exact result leaves the range. -/
def ovFlag (u : Bool) (n : Nat) (e : Int) : Bool := !inRange u n e

/-- The flag that PO selects (R69). -/
def flagOf (po : FlagOut) (carry ov : Bool) : Bool :=
  match po with
  | .none => false
  | .carry => carry
  | .ov => ov
/-- The predicate that PO writes. -/
def flagPd (po : FlagOut) (pd : BitVec 4) : Option (BitVec 4) :=
  match po with
  | .none => none
  | _ => some pd

/-- ADD and SUB (R73): result and flag. -/
def addSub (sub : Bool) (m : IntMod) (n b c : Nat) : Nat × Bool :=
  let eu : Int := if sub then (b : Int) - c else (b : Int) + c
  let es : Int := if sub then sval n b - sval n c else sval n b + sval n c
  let r := if m.sat then pat n (clampTo m.u n (if m.u then eu else es)) else pat n eu
  (r, flagOf m.po (carryFlag n eu) (ovFlag false n es))

/-- ADDC and SUBB (R74): result and carry. -/
def addCarry (sub : Bool) (n b c : Nat) (carry : Bool) : Nat × Bool :=
  let k : Int := if carry then 1 else 0
  let e : Int := if sub then (b : Int) - c - k else (b : Int) + c + k
  (pat n e, carryFlag n e)

/-- A product, with the addend of MAD, reduced, widened or saturated (R75, R76). `n` is the width of the result and
`k` that of the factors. -/
def mulAdd (m : IntMod) (k n b c : Nat) (d : Option Nat) : Nat × Bool :=
  let p := opInt m.u k b * opInt m.u k c
  let e := match d with
    | some d => p + opInt m.u n d
    | none => p
  (if m.sat then pat n (clampTo m.u n e) else pat n e, flagOf m.po false (ovFlag m.u n e))

/-- MULH (R75). -/
def mulHigh (u : Bool) (n b c : Nat) : Nat := pat (2 * n) (opInt u n b * opInt u n c) / 2 ^ n

/-- The signed overflow of division (R77). -/
def divOv (u : Bool) (n b c : Nat) : Bool := !u && sval n b = minS n && sval n c = -1

/-- Quotient and remainder (R77). -/
def divRem (u : Bool) (n b c : Nat) : Nat × Nat :=
  if c = 0 then (2 ^ n - 1, b)
  else if divOv u n b c then (b, 0)
  else if u then (b / c, b % c)
  else (pat n ((sval n b).tdiv (sval n c)), pat n ((sval n b).tmod (sval n c)))

def divFlag (m : IntMod) (n b c : Nat) : Bool := flagOf m.po (c = 0) (divOv m.u n b c)

/-- MIN and MAX (R78). -/
def minMax (mx u : Bool) (n b c : Nat) : Nat :=
  let le := opInt u n b ≤ opInt u n c
  if mx then (if le then c else b) else (if le then b else c)

/-- ABS (R79). -/
def absVal (sat : Bool) (n b : Nat) : Nat :=
  if sval n b = minS n then (if sat then pat n (maxS n) else b) else (sval n b).natAbs

/-- NOT (R80). -/
def notVal (n b : Nat) : Nat := 2 ^ n - 1 - b % 2 ^ n

/-- Shifts by the whole of C (R81). -/
def shlVal (n b s : Nat) : Nat := if s < n then b * 2 ^ s % 2 ^ n else 0
def shrVal (n b s : Nat) : Nat := if s < n then b / 2 ^ s else 0
def sarVal (n b s : Nat) : Nat := if s < n then pat n (sval n b / (2 ^ s : Nat)) else if nbit b (n - 1) then 2 ^ n - 1 else 0
def rotVal (n b s : Nat) : Nat :=
  let s := s % n
  (b * 2 ^ s + b / 2 ^ (n - s)) % 2 ^ n

/-- BFX (R82, R83): bits above the source read as its sign, or as zero with `.u`. -/
def bfxVal (u : Bool) (n b ctl : Nat) : Nat :=
  let pos := nbits ctl 0 8
  let len := min (nbits ctl 8 8) n
  if len = 0 then 0
  else
    let f := if u then b / 2 ^ pos % 2 ^ len else pat len (sval n b / (2 ^ pos : Nat))
    if u then f else pat n (sval len f)

/-- BFI (R84): inserted bits at or above bit N are dropped. -/
def bfiVal (n b c ctl : Nat) : Nat :=
  let pos := nbits ctl 0 8
  let len := min (nbits ctl 8 8) n
  let mask := (2 ^ len - 1) * 2 ^ pos % 2 ^ n
  let ins := c % 2 ^ len * 2 ^ pos % 2 ^ n
  (b &&& (2 ^ n - 1 - mask)) ||| ins

/-- POPC, CLZ, CTZ and BREV (R85). -/
def popc (n b : Nat) : Nat := ((List.range n).filter fun i => nbit b i).length
def clz (n b : Nat) : Nat := if b = 0 then n else n - 1 - Nat.log2 b
def ctz (n b : Nat) : Nat := ((List.range n).find? fun i => nbit b i).getD n
def brev (n b : Nat) : Nat := (List.range n).foldl (fun a i => if nbit b (n - 1 - i) then a + 2 ^ i else a) 0

/-- CMP (R86). -/
def icond (k : ICond) (u : Bool) (n b c : Nat) : Bool :=
  let x := opInt u n b
  let y := opInt u n c
  match k with
  | .eq => b = c
  | .ne => b ≠ c
  | .lt => x < y
  | .le => x ≤ y
  | .gt => x > y
  | .ge => x ≥ y
  | .tst => b &&& c ≠ 0
  | .ntst => b &&& c = 0

/-- LEA (R90). -/
def leaVal (u : Bool) (n sh b c d : Nat) : Nat :=
  let x : Nat := if u then c else pat n (sval 32 c)
  (b + x * 2 ^ sh + pat n (sval 32 d)) % 2 ^ n

end Sys2Proof.Machine
end

