-- ==== Sys2Proof/Machine/Lanes.lean ====
section
/-! DEFINITION. Class 0x5: lane exchange among the participants of a fragment, or of the fragment that a rejoin makes
(R169 to R176). -/

namespace Sys2Proof.Machine

open Sys2Proof

/-- What each participant receives: a value and a predicate. -/
abbrev Exch := State → Ix → List Nat → List (Nat × Nat × Bool)

/-- A lane exchange (R171): `f` maps the participants to their results; with a membership mask it arrives at its rejoin
first. -/
def exchange (i : Instr) (a : Args) (msk : Bool) (bits : Nat) (f : Exch) (s : State) : Host.Outcome State Fault Refusal :=
  let perform : Ix → List Nat → State → Res := fun x ls s =>
    let rs := f s x ls
    let s := wr s x a.a bits (rs.map fun r => (r.1, r.2.1))
    let pv := a.xmod.getLsbD 4
    .done (if pv then wrPred s x (a.xmod.extractLsb' 0 4) (rs.map fun r => (r.1, r.2.2)) else s) [] none
  if msk then
    vamer i a true (rejoinBody i a .exchange (fun s x l => w32 (src s x a 32 .int a.d l)) (fun x => [x.ref.coach]) perform) s
  else vamer i a false perform s

/-- Source B of every participant. -/
def srcsB (s : State) (x : Ix) (a : Args) (bits : Nat) (ls : List Nat) : List (Nat × Nat) :=
  ls.map fun l => (l, src s x a bits .int a.b l)

def valAt (bs : List (Nat × Nat)) (l : Nat) : Option Nat := (bs.find? fun e => e.1 = l).map (·.2)

/-- The source lane of SHFL and whether it does not wrap (R175). -/
def shflFrom (mode : ShflMode) (w l c : Nat) : Nat × Bool :=
  let base := l - l % w
  let i := l - base
  match mode with
  | .at => (base + c % w, true)
  | .rot => (base + (i + c) % w, i + c % w < w)
  | .bfly => (base + (i ^^^ (c % w)), true)
  | .rev => (base + (w - 1 - i), true)

/-- SHFL (R175). -/
def execShfl (w64 msk : Bool) (mode : ShflMode) (seg : BitVec 3) (x : Args) (s : State) : Host.Outcome State Fault Refusal :=
  exchange (.shfl w64 msk mode seg x) x msk (wbits w64) (fun s ix ls =>
    let bs := srcsB s ix x (wbits w64) ls
    bs.map fun e =>
      let j := shflFrom mode (32 / 2 ^ seg.toNat) e.1 (src s ix x 32 .int x.c e.1)
      match valAt bs j.1 with
      | some v => (e.1, v, j.2)
      | none => (e.1, e.2, false)) s

/-- The predicates b(J) of the participants. -/
def predsB (ix : Ix) (x : Args) (ls : List Nat) : List (Nat × Bool) := ls.map fun l => (l, voteOf x ix l)

/-- VOTE (R176). -/
def voteVal (op : VoteOp) (bs : List (Nat × Bool)) : Nat :=
  match op with
  | .ballot => (maskOf ((bs.filter (·.2)).map (·.1))).toNat
  | .any => if bs.any (·.2) then 1 else 0
  | .all => if bs.all (·.2) then 1 else 0
  | .eq => if bs.all (·.2) || bs.all (fun b => !b.2) then 1 else 0

def execVote (msk : Bool) (op : VoteOp) (x : Args) (s : State) : Host.Outcome State Fault Refusal :=
  exchange (.vote msk op x) x msk 32 (fun _ ix ls =>
    let v := voteVal op (predsB ix x ls)
    ls.map fun l => (l, v, false)) s

/-- One step of a reduction at N bits (R172). -/
def ropApply (op : ROp) (n a b : Nat) : Nat :=
  match op with
  | .add => (a + b) % 2 ^ n
  | .umin => minMax false true n a b
  | .umax => minMax true true n a b
  | .smin => minMax false false n a b
  | .smax => minMax true false n a b
  | .and => a &&& b
  | .or => a ||| b
  | .xor => a ^^^ b
  | .fadd => fadd32 a b
  | .fmin => fminmax .fp32 false false false a b
  | .fmax => fminmax .fp32 true false false a b

/-- The identities of exclusive SCAN (R172). -/
def ropIdentity (op : ROp) (n : Nat) : Nat :=
  match op with
  | .add | .umax | .or | .xor => 0
  | .umin | .and => 2 ^ n - 1
  | .smin => 2 ^ (n - 1) - 1
  | .smax => 2 ^ (n - 1)
  | .fadd => 0x80000000
  | .fmin => f32Inf false
  | .fmax => f32Inf true

def ropFloat : ROp → Bool
  | .fadd | .fmin | .fmax => true
  | _ => false

/-- A NaN result is canonical (R95). -/
def ropCanon (op : ROp) (v : Nat) : Nat := if ropFloat op && (fval .fp32 v).isNan then f32Nan else v

/-- REDUX over the participants (R173). -/
def reduxVal (op : ROp) (n : Nat) (bs : List (Nat × Nat)) : Nat :=
  ropCanon op (if op = .fadd then (ftree fadd32 ((List.range 32).map fun i => valAt bs i)).getD 0
    else match bs with
      | [] => 0
      | b :: t => t.foldl (fun v e => ropApply op n v e.2) b.2)

def execRedux (w64 msk : Bool) (op : ROp) (x : Args) (s : State) : Host.Outcome State Fault Refusal :=
  exchange (.redux w64 msk op x) x msk (wbits w64) (fun s ix ls =>
    let v := reduxVal op (wbits w64) (srcsB s ix x (wbits w64) ls)
    ls.map fun l => (l, v, false)) s

/-- SCAN in ascending lane order (R174); `run` is the value so far, none before the first participant. -/
def scanGo (op : ROp) (n : Nat) (excl : Bool) : Option Nat → List (Nat × Nat) → List (Nat × Nat)
  | _, [] => []
  | run, (l, b) :: t =>
    let v := match run with | some r => ropApply op n r b | none => b
    (l, ropCanon op (if excl then run.getD (ropIdentity op n) else v)) :: scanGo op n excl (some v) t

def scanVals (op : ROp) (n : Nat) (excl : Bool) (bs : List (Nat × Nat)) : List (Nat × Nat) :=
  scanGo op n excl (if excl then some (ropIdentity op n) else none) bs

def execScan (w64 msk : Bool) (op : ROp) (excl : Bool) (x : Args) (s : State) : Host.Outcome State Fault Refusal :=
  exchange (.scan w64 msk op excl x) x msk (wbits w64) (fun s ix ls =>
    (scanVals op (wbits w64) excl (srcsB s ix x (wbits w64) ls)).map fun r => (r.1, r.2, false)) s

/-- MATCH (R176). -/
def execMatch_ (w64 msk all : Bool) (x : Args) (s : State) : Host.Outcome State Fault Refusal :=
  exchange (.match_ w64 msk all x) x msk 32 (fun s ix ls =>
    let bs := srcsB s ix x (wbits w64) ls
    let eq := bs.all fun e => some e.2 = bs.head?.map (·.2)
    bs.map fun e =>
      if all then (e.1, (if eq then (maskOf ls).toNat else 0), eq)
      else (e.1, (maskOf ((bs.filter fun f => f.2 = e.2).map (·.1))).toNat, false)) s

/-- BCAST (R176). -/
def execBcast (w64 msk : Bool) (x : Args) (s : State) : Host.Outcome State Fault Refusal :=
  exchange (.bcast w64 msk x) x msk (wbits w64) (fun s ix ls =>
    let v := ((srcsB s ix x (wbits w64) ls).head?.map (·.2)).getD 0
    ls.map fun l => (l, v, false)) s

/-- CMPCT (R176). -/
def execCmpct (msk : Bool) (x : Args) (s : State) : Host.Outcome State Fault Refusal :=
  exchange (.cmpct msk x) x msk 32 (fun _ ix ls =>
    let bs := predsB ix x ls
    ls.map fun l => (l, (bs.filter fun b => b.1 < l && b.2).length, false)) s

/-- LPERM (R176). -/
def execLperm (w64 msk : Bool) (x : Args) (s : State) : Host.Outcome State Fault Refusal :=
  exchange (.lperm w64 msk x) x msk (wbits w64) (fun s ix ls =>
    let bs := srcsB s ix x (wbits w64) ls
    let cs := ls.map fun l => (l, src s ix x 32 .int x.c l)
    bs.map fun e =>
      match (cs.filter fun c => c.2 = e.1).getLast? with
      | some c => (e.1, (valAt bs c.1).getD e.2, true)
      | none => (e.1, e.2, false)) s

end Sys2Proof.Machine
end

