-- ==== Sys2Proof/Machine/CopyOps.lean ====
section
/-! DEFINITION. Shared parts of the copy engines (R257 to R270): descriptors, their checks, hulls and the range
scoreboard, slots and acceptance, barrier objects (R249, R250), and kind-Q reports (R399). -/

namespace Sys2Proof.Machine

open Sys2Proof

/-! ### Barrier objects (R249, R250) -/

structure MbObj where
  expb : Nat
  arrb : Nat
  left : Nat
  init : Nat
  /-- Bytes [15:12]: OVR, reserved bits and PH. -/
  top : Nat
deriving DecidableEq, Repr

def MbObj.ph (o : MbObj) : Nat := o.top % 65536
def MbObj.over (o : MbObj) : MbObj := if nbit o.top 31 then o else { o with top := o.top + 2 ^ 31 }

def mbGet (t : Train) (rank off : Nat) : MbObj :=
  let w (i : Nat) : Nat := leVal (scrGet t rank (off + i) 4).bytes
  ⟨w 0, w 4, w 8 % 65536, w 8 / 65536, w 12⟩

def mbPoison (t : Train) (rank off : Nat) : Bool := (scrGet t rank off 16).poison

def mbBytesOf (o : MbObj) : List Byte :=
  leBytes 4 o.expb ++ leBytes 4 o.arrb ++ leBytes 4 (o.left + 65536 * o.init) ++ leBytes 4 o.top

def mbPut (t : Train) (rank off : Nat) (o : MbObj) : Train := scrPut t rank off (mbBytesOf o) false

/-- The phase completes when LEFT = 0 and ARRB ≥ EXPB. -/
def MbObj.complete (o : MbObj) : MbObj :=
  if o.left = 0 && o.arrb ≥ o.expb then
    let o := if o.arrb > o.expb then o.over else o
    { o with expb := 0, arrb := 0, left := o.init, top := o.top - o.ph + (o.ph + 1) % 65536 }
  else o

/-- `n` arrivals: those in excess of LEFT are dropped and set OVR. -/
def MbObj.arrive (o : MbObj) (n : Nat) : MbObj :=
  let p := { o with left := o.left - n }
  (if n > o.left then p.over else p).complete

/-- EXPB grows, saturating. -/
def MbObj.expect (o : MbObj) (n : Nat) : MbObj :=
  if o.expb + n ≥ 2 ^ 32 then MbObj.over { o with expb := 2 ^ 32 - 1 } else { o with expb := o.expb + n }

/-- Bytes arrive, saturating. -/
def MbObj.bytesIn (o : MbObj) (n : Nat) : MbObj :=
  (if o.arrb + n ≥ 2 ^ 32 then MbObj.over { o with arrb := 2 ^ 32 - 1 } else { o with arrb := o.arrb + n }).complete

/-- An operation on an object; one that holds poisoned bytes stays as it is (R198). -/
def modMb (s : State) (t rank off : Nat) (f : MbObj → MbObj) : State :=
  modTrain s t fun tr => if mbPoison tr rank off then tr else mbPut tr rank off (f (mbGet tr rank off))

/-! ### Descriptors (R258) -/

def descOf (bs : List Byte) : Desc :=
  let v := leVal bs
  let w (i : Nat) : Word32 := w32 (v / 2 ^ (8 * i))
  let h (i : Nat) : Word16 := BitVec.ofNat 16 (v / 2 ^ (8 * i))
  let c := (w 56).toNat
  { kind := BitVec.ofNat 3 (nbits c 8 3), xe := nbit c 7, ls := nbit c 6, kr := nbit c 5, rank := BitVec.ofNat 4 c
    mb := w 52, ds3 := w 48, ss3 := w 44, ds2 := w 40, ss2 := w 36, ds1 := w 32, ss1 := w 28
    n3 := h 26, n2 := h 24, n1 := h 22, x0 := w 16, dst := w64 (v / 2 ^ 64), src := w64 v
    rsvd := nbits c 11 21 ≠ 0 || nbit c 4 || w 60 ≠ 0 || h 20 ≠ 0 }

/-- The descriptor of a register form: counts 1, strides 0 (R258). -/
def Desc.simple (kind : Nat) (xe ls kr : Bool) (rank mb x0 dst src : Nat) : Desc :=
  { kind := BitVec.ofNat 3 kind, xe := xe, ls := ls, kr := kr, rank := BitVec.ofNat 4 rank
    mb := w32 mb, ds3 := 0, ss3 := 0, ds2 := 0, ss2 := 0, ds1 := 0, ss1 := 0
    n3 := 1, n2 := 1, n1 := 1, x0 := w32 x0, dst := w64 dst, src := w64 src, rsvd := false }

/-- What stands on a side of a copy. -/
inductive Side where
  | glob | scr | far | cellar | pattern | remote | none
deriving DecidableEq, Repr

/-- Source and destination of a kind (R257). -/
def Desc.sides (d : Desc) : Side × Side :=
  match d.kind.toNat with
  | 0 => (.glob, .scr)
  | 1 => (.scr, .glob)
  | 2 => (.cellar, .scr)
  | 3 => (.scr, .far)
  | 4 => (.pattern, .scr)
  | 5 => (if d.ls then .scr else .glob, .remote)
  | 6 => (.remote, if d.ls then .scr else .glob)
  | _ => (.none, .none)

def Desc.total (d : Desc) : Nat := d.x0.toNat * d.n1.toNat * d.n2.toNat * d.n3.toNat
def Desc.chunks (d : Desc) : Nat := d.total / 16

/-- Offset from a side's base of chunk `k` in the loop order of R260. -/
def Desc.offset (d : Desc) (dst : Bool) (k : Nat) : Int :=
  let per := d.x0.toNat / 16
  let j := k % per
  let i1 := k / per % d.n1.toNat
  let i2 := k / per / d.n1.toNat % d.n2.toNat
  let i3 := k / per / d.n1.toNat / d.n2.toNat
  let st (a b : Word32) : Int := if dst then a.toInt else b.toInt
  16 * (j : Int) + i1 * st d.ds1 d.ss1 + i2 * st d.ds2 d.ss2 + i3 * st d.ds3 d.ss3

/-- The hull of a side: first byte and first byte past it (R258). -/
def Desc.hull (d : Desc) (dst : Bool) : Int × Int :=
  let base : Int := if dst then d.dst.toNat else d.src.toNat
  let ext (n : Word16) (st : Word32) : Int := ((n.toNat : Int) - 1) * st.toInt
  let e := if dst then [ext d.n1 d.ds1, ext d.n2 d.ds2, ext d.n3 d.ds3] else [ext d.n1 d.ss1, ext d.n2 d.ss2, ext d.n3 d.ss3]
  (base + (e.filter (· < 0)).foldl (· + ·) 0, base + (e.filter (· > 0)).foldl (· + ·) 0 + d.x0.toNat)

/-- The scratchpad hulls of a copy, with whether each lies on the target rank of S2X. -/
def Desc.scrHulls (d : Desc) : List (Bool × Int × Int) :=
  let s := d.sides
  (if s.1 = .scr then [(false, d.hull false)] else []) ++
  (if s.2 = .scr then [(false, d.hull true)] else if s.2 = .far then [(true, d.hull true)] else [])

/-- The rank whose allocation holds the barrier object (R262). -/
def Desc.mbRank (d : Desc) (rank : Nat) : Nat := if d.kind = 3 then d.rank.toNat else rank
def Desc.hasMb (d : Desc) : Bool := d.mb ≠ 0xFFFFFFFF

def hullOverlap (a b : Int × Int) : Bool := a.1 < b.2 && b.1 < a.2

/-- The lowest reason of R259 that fails at issue, 0 for none; `kinds` are accepted where the descriptor stands. -/
def Desc.check (d : Desc) (t : Train) (rank : Nat) (kinds : List Nat) : Nat :=
  let size : Int := t.scratch
  let hs := d.scrHulls
  let k := d.kind.toNat
  let strides := [d.ds1, d.ds2, d.ds3, d.ss1, d.ss2, d.ss3]
  if d.x0 = 0 || d.n1 = 0 || d.n2 = 0 || d.n3 = 0 || d.x0.toNat % 16 ≠ 0 || d.total > 2 ^ 22 then 1
  else if d.dst.toNat % 16 ≠ 0 || (k ≠ 4 && d.src.toNat % 16 ≠ 0) || strides.any (fun v => v.toNat % 16 ≠ 0) then 2
  else if hs.any fun h => h.2.1 < 0 || h.2.2 > size then 3
  else if d.hasMb && (d.mb.toNat % 16 ≠ 0 || d.mb.toNat + 16 > t.scratch ||
      hs.any fun h => (h.1 || d.kind ≠ 3 || d.rank.toNat = rank) && hullOverlap (d.mb.toNat, d.mb.toNat + 16) h.2) then 4
  else if (if k = 3 then d.rank.toNat ≥ t.cores.length else d.rank ≠ 0) then 5
  else if !kinds.contains k then 6
  else if d.rsvd || ((d.ls || d.kr) && k ≠ 5 && k ≠ 6) || (k = 4 && d.src.toNat ≥ 2 ^ 32) then 7
  else if k = 2 && ((d.hull false).1 < 0 || (d.hull false).2 > 2 ^ 30) then 8
  else 0

/-! ### Slots and the range scoreboard -/

/-- The hull that a slot records on its own core (R265). -/
def Slot.hull (sl : Slot) : Option (Int × Int) :=
  match sl.work with
  | .copy d => (d.scrHulls.find? fun h => !h.1).map (·.2)
  | .list off cnt _ _ => some (off, off + 64 * cnt)

/-- A scratchpad access of a train on a core overlaps a recorded hull and stalls (R265). -/
def rangeBusy (s : State) (core train off n : Nat) : Bool :=
  (s.core core).slots.any fun e => e.2.train = train &&
    match e.2.hull with
    | some h => hullOverlap (off, off + n) h
    | none => false

/-- The lowest free slot of a core's 32 (R257). -/
def freeEngineSlot (s : State) (core : Nat) : Option Nat :=
  let c := s.core core
  (List.range 32).find? fun i => (mget c.slots i).isNone

/-- Work is accepted into a slot; XE adds the total to EXPB of its barrier object (R261). -/
def acceptWork (s : State) (core slot train ctx rank : Nat) (w : Work) (entry : Option (Nat × Nat)) (xl : Bool) : State :=
  let s := modCore s core fun c =>
    { c with
      slots := mset c.slots slot ⟨w, train, ctx, rank, c.slotSeq, 0, [], 0, 0, entry, xl, false, false⟩
      slotSeq := c.slotSeq + 1 }
  match w with
  | .copy d => if d.xe && d.hasMb then modMb s train (d.mbRank rank) d.mb.toNat fun o => o.expect d.total else s
  | .list .. => s

/-- The engine-state word of CPYQ and DSTAT (R278). -/
def engineWord (s : State) (core train : Nat) : Nat :=
  let sl := (s.core core).slots
  let mine := sl.filter fun e => e.2.train = train
  let x := mine.filter fun e => match e.2.work with
    | .copy d => d.kind = 5 || d.kind = 6
    | .list _ _ _ xl => xl
  65536 * sl.length + 256 * x.length + mine.length

/-- Slots of a train on a core (MINE). -/
def mineSlots (s : State) (core train : Nat) : Nat := ((s.core core).slots.filter fun e => e.2.train = train).length

/-! ### Kind-Q traps (R399) -/

/-- Every fragment of the train parks before its next instruction and the report goes out; for a train that is not resident
it is kept until its restore (R269). -/
def trapQ (s : State) (t : Nat) (r : Report) : State :=
  match mget s.trains t with
  | none => s
  | some tr =>
    if tr.res ≠ .resident then setTrain s t { tr with lateFaults := tr.lateFaults ++ [r] }
    else
      let s := setTrain s t { tr with held := true }
      sendReport s (if reflects s tr.ctx (nbits r.code.toNat 8 7) then parentOf s tr.ctx else tr.ctx) r

/-- The report of COPY_FAULT (R399). -/
def copyFaultReport (s : State) (tr : Train) (rank reason index counted va engine acc : Nat) : Report :=
  { reportTrain s tr with
    code := BitVec.ofNat 16 cCOPY_FAULT
    aux := w64 (2 ^ 56 * reason + 2 ^ 40 * (index % 65536) + counted % 2 ^ 32)
    va := w64 va
    frag := 0xFF
    rank := BitVec.ofNat 8 rank
    engine := BitVec.ofNat 4 engine
    access := BitVec.ofNat 3 acc }

/-- LASTERR of the endpoint that a peer request names (R281). -/
def noteEndpoint (s : State) (ctx reason : Nat) (d : Desc) : State :=
  if d.kr && (d.kind = 5 || d.kind = 6) then
    let a := if d.kind = 5 then d.dst.toNat else d.src.toNat
    let n := nbits a 48 12
    modCtx s ctx fun c =>
      match mget c.endpoints n with
      | some e => { c with endpoints := mset c.endpoints n { e with err := BitVec.ofNat 8 reason } }
      | none => c
  else s

/-- Chunks that a slot's copy has performed. -/
def Slot.moved (sl : Slot) : Nat := sl.done + sl.ahead.length

/-- A slot's work ends with COPY_FAULT (R267): the slot is freed; for an entry of a list, the list and every later entry
that has moved nothing are dropped. -/
def endCopyFault (s : State) (core slot reason va acc : Nat) : State :=
  match mget (s.core core).slots slot with
  | none => s
  | some sl =>
    let index := match sl.entry with | some e => e.2 | none => 0xFFFF
    let drop (e : Nat × Slot) : Bool :=
      match sl.entry with
      | none => false
      | some (l, i) =>
        (match e.2.entry with | some (m, j) => m = l && j > i && e.2.moved = 0 | none => false) ||
        (match e.2.work with | .list .. => e.2.seq = l && e.2.train = sl.train | _ => false)
    let s := modCore s core fun c => { c with slots := (mdel c.slots slot).filter fun e => !drop e }
    let s := match sl.work with | .copy d => noteEndpoint s sl.ctx reason d | _ => s
    match mget s.trains sl.train with
    | none => s
    | some tr =>
      let dma := match sl.work with | .copy d => d.kind = 5 || d.kind = 6 | .list _ _ _ xl => xl
      trapQ s sl.train (copyFaultReport s tr sl.rank reason index sl.counted va (if dma then 4 else 2) acc)

/-! ### Hand-over (R261, R270) -/

/-- Checks of a request list at hand-over: 0 or the reason. -/
def listCheck (t : Train) (off cnt : Nat) : Nat :=
  if cnt = 0 || cnt > 1024 then 1 else if off % 16 ≠ 0 then 2 else if off + 64 * cnt > t.scratch then 3 else 0

/-- The kick register is written and the list takes a slot (R270). -/
def acceptList (s : State) (core slot train ctx rank off cnt : Nat) (xl : Bool) : State :=
  let s := modCore s core fun c => { c with kick := w32 ((if xl then 2 ^ 31 else 0) + 1024 * (off / 16) + (cnt - 1)) }
  acceptWork s core slot train ctx rank (.list off cnt 0 xl) none xl

/-- A kind of work with a global local side releases at `.pt` (R261). -/
def Desc.globalLocal (d : Desc) : Bool := (d.kind = 5 || d.kind = 6) && !d.ls

end Sys2Proof.Machine
end

