-- ==== Sys2Proof/Machine/Sysreg.lean ====
section
/-! DEFINITION. System registers (R419 to R427): who may read and write each, ranges, the counter policy, and the halves
that the host and MMIO accesses see. -/

namespace Sys2Proof.Machine

open Sys2Proof

/-- Numbers that name a register (R420). -/
def sysExists (n : Nat) : Bool := n ≤ 0x0E || (0x10 ≤ n && n ≤ 0x2B) || n = 0x30 || n = 0x31

def sysBits (n : Nat) : Nat :=
  if n = 0 || n = 5 || n = 9 || n = 0x30 then 64
  else if (0x18 ≤ n && n ≤ 0x1F) || (0x28 ≤ n && n ≤ 0x2B) then 48 else 32

/-- The Writer column of R420; the root has no parent. -/
def sysWriter (s : State) (issuer target n : Nat) (other : Bool) : Bool :=
  if n = 0x0C then target ≠ 0 && (s.ctx target).parent = issuer
  else if n = 0x02 then !other
  else if n = 0x07 || n = 0x0B || n = 0x0D || (0x28 ≤ n && n ≤ 0x2B) || n = 0x30 || n = 0x31 then false
  else issuer = target

/-! ### Counters -/

def selCode (v : Word32) : Nat := (v.extractLsb' 0 12).toNat
def selUnit (v : Word32) : Nat := (v.extractLsb' 16 12).toNat

/-- Shared events of R423. -/
def eventShared (code : Nat) : Bool := [0x060, 0x061, 0x070, 0x080, 0x081, 0x0B0].contains code

/-- The event is in the set and the context holds the unit (R423). -/
def unitHeld (s : State) (c code unit : Nat) : Bool :=
  match code with
  | 0x001 | 0x002 => (absCore s c (unit / 4)).isSome
  | 0x010 | 0x011 | 0x020 | 0x021 | 0x030 => (absCore s c unit).isSome
  | 0x040 | 0x041 | 0x050 | 0x051 | 0x0A0 => (absCluster s c unit).isSome
  | 0x060 | 0x061 | 0x070 => unit < 4
  | 0x080 => (mget (s.ctx c).endpoints unit).isSome
  | 0x081 | 0x090 => unit = 0
  | 0x0B0 => (s.queue unit).owner.toNat = c
  | _ => false

/-- Effective Q, D and KP: the maxima over the path (R425). -/
def effPol (s : State) (c : Nat) : Nat × Nat × Nat :=
  (ancestors s c).foldl (fun (p : Nat × Nat × Nat) a =>
    let v := (s.ctx a).sys.cntPol.toNat
    (Nat.max p.1 (nbits v 0 5), Nat.max p.2.1 (nbits v 8 8), Nat.max p.2.2 (nbits v 16 5))) (0, 0, 0)

def cntSel (s : State) (c i : Nat) : Word32 := mgetD (s.ctx c).sys.cntSel i 0

/-- The selection of a counter has been written; until then CNT_STAT reads its reset value (R420). -/
def cntPicked (s : State) (c i : Nat) : Bool := (mget (s.ctx c).sys.cntSel i).isSome

def cntAbsent (s : State) (c i : Nat) : Bool := !unitHeld s c (selCode (cntSel s c i)) (selUnit (cntSel s c i))

/-- A counter as every reader gets it (R425, R426). -/
def cntRead (s : State) (c i : Nat) : Nat :=
  if cntAbsent s c i then 0
  else
    let code := selCode (cntSel s c i)
    let live := (mgetD (s.ctx c).sys.cntVal i 0).toNat
    if code = 0x090 && c ≠ 0 then 0
    else if !eventShared code then live
    else
      let p := effPol s c
      let v := if p.2.1 = 0 then live else ((mgetD (s.ctx c).sys.latched (32 * i + p.2.2) []).getD (p.2.1 - 1) 0).toNat
      v / 2 ^ p.1 * 2 ^ p.1

/-- CNT_STAT (R426). -/
def cntStat (s : State) (c i : Nat) : Nat :=
  let p := effPol s c
  (if cntPicked s c i && cntAbsent s c i then 2 ^ 31 else 0) + (if (s.ctx c).sys.cntOvf.contains i then 2 ^ 30 else 0) +
    (if eventShared (selCode (cntSel s c i)) && (p.1 ≠ 0 || p.2.1 ≠ 0) then 2 ^ 29 else 0)

/-! ### Reading and writing -/

/-- A register's value; STEP belongs to a coach and is read elsewhere. -/
def sysGet (s : State) (c n : Nat) : Nat :=
  let y := (s.ctx c).sys
  match n with
  | 0x00 => y.tvec.toNat
  | 0x01 => y.drainDl.toNat
  | 0x03 => y.bkq.toNat
  | 0x04 => y.bkseq.toNat
  | 0x05 => y.trbase.toNat
  | 0x06 => y.trlen.toNat
  | 0x07 => y.trptr.toNat
  | 0x08 => y.tsctl.toNat
  | 0x09 => y.tsbase.toNat
  | 0x0A => y.tslen.toNat
  | 0x0B => y.tsptr.toNat
  | 0x0C => y.cntPol.toNat
  | 0x0D => 1
  | 0x0E => y.lost.toNat
  | 0x28 => y.clamps.toNat
  | 0x29 => y.deny.toNat
  | 0x2A => y.mmabad.toNat
  | 0x2B => s.host.rsvw.toNat
  | 0x30 => y.whit.toNat
  | 0x31 => y.wlanes.toNat
  | _ =>
    if 0x10 ≤ n && n ≤ 0x17 then (cntSel s c (n - 0x10)).toNat
    else if 0x18 ≤ n && n ≤ 0x1F then cntRead s c (n - 0x18)
    else if 0x20 ≤ n && n ≤ 0x27 then cntStat s c (n - 0x20)
    else 0

/-- Values in a register's stated range, with its reserved bits zero (R419, R420, R422); K of TSCTL is 10 to 24 whether or not the series
runs (log 25). -/
def sysRange (n v : Nat) : Bool :=
  v < 2 ^ sysBits n &&
  match n with
  | 0x00 => v % 4 = 0
  | 0x01 => 1 ≤ v && v ≤ 2 ^ 30
  | 0x02 => v ≤ 1
  | 0x03 => nbits v 16 15 = 0
  | 0x05 | 0x06 => v % 32 = 0
  | 0x08 => nbits v 5 25 = 0 && 10 ≤ nbits v 0 5 && nbits v 0 5 ≤ 24
  | 0x09 | 0x0A => v % 64 = 0
  | 0x0C => nbits v 21 11 = 0 && nbits v 5 3 = 0 &&
      (if nbits v 8 8 = 0 then nbits v 16 5 = 0 else 10 ≤ nbits v 16 5 && nbits v 16 5 ≤ 24)
  | 0x0E => v = 0
  | _ =>
    if 0x10 ≤ n && n ≤ 0x17 then nbits v 28 2 = 0 && nbits v 12 4 = 0
    else if 0x18 ≤ n && n ≤ 0x1F then v = 0
    else if 0x20 ≤ n && n ≤ 0x27 then nbits v 0 29 = 0
    else true

/-- Counter `i` of a context is cleared: no tick before counts for it (R425). -/
def SysRegs.clear (y : SysRegs) (i : Nat) : SysRegs :=
  { y with cntVal := mdel y.cntVal i, latched := y.latched.filter fun e => e.1 / 32 ≠ i }

def clearTicks (c i : Nat) : Timer → Timer
  | .policy k t v => .policy k t (if k = c then mdel v i else v)
  | x => x

/-- A write in range (R420, R422): the counter selection clears its counter, a status bit written 1 is cleared. -/
def sysSet (s : State) (c n v : Nat) : State :=
  let s := if 0x10 ≤ n && n ≤ 0x1F then { s with timers := s.timers.map (clearTicks c (n % 8)) } else s
  modSys s c fun y =>
    match n with
    | 0x00 => { y with tvec := w64 v }
    | 0x01 => { y with drainDl := w32 v }
    | 0x03 => { y with bkq := w32 v }
    | 0x04 => { y with bkseq := w32 v }
    | 0x05 => { y with trbase := w64 v }
    | 0x06 => { y with trlen := w32 v }
    | 0x08 => { y with tsctl := w32 v }
    | 0x09 => { y with tsbase := w64 v }
    | 0x0A => { y with tslen := w32 v }
    | 0x0C => { y with cntPol := w32 v }
    | 0x0E => { y with lost := w32 v }
    | _ =>
      if 0x10 ≤ n && n ≤ 0x17 then
        let i := n - 0x10
        { y.clear i with cntSel := mset y.cntSel i (w32 v), cntOvf := y.cntOvf.filter (· ≠ i) }
      else if 0x18 ≤ n && n ≤ 0x1F then
        y.clear (n - 0x18)
      else if 0x20 ≤ n && n ≤ 0x27 then
        if nbit v 30 then { y with cntOvf := y.cntOvf.filter (· ≠ n - 0x20) } else y
      else y

/-! ### MMIO halves (R427) -/

/-- CNT_RSVW counts a discarded write (R5). -/
def countRsvw (s : State) : State := modHost s fun h => { h with rsvw := h.rsvw + 1 }

/-- A 32-bit read of a half; LO of a wide register latches HI. Numbers that name no register read all ones. -/
def sysHalfRead (s : State) (c n : Nat) (hi : Bool) : Nat × State :=
  if !sysExists n || !s.hasCtx c || (n = 0x2B && c ≠ 0) then (0xFFFFFFFF, s)
  else
    let v := sysGet s c n
    if hi then
      let y := (s.ctx c).sys
      (if sysBits n > 32 then (if y.hiReg = some n then y.hiLatch.toNat else v / 2 ^ 32) else 0, s)
    else
      (v % 2 ^ 32, modSys s c fun y =>
        { y with hiReg := some n, hiLatch := if sysBits n > 32 then w32 (v / 2 ^ 32) else y.hiLatch })

/-- A register that may be written only with 0. -/
def zeroOnly (n : Nat) : Bool := n = 0x0E || (0x18 ≤ n && n ≤ 0x1F)

/-- Reserved bits of a register (R420, R422, R426). -/
def sysRsvd (n : Nat) : Nat :=
  if n = 0x03 then 0x7FFF0000
  else if n = 0x08 then 0x3FFFFFE0
  else if n = 0x0C then 0xFFE000E0
  else if 0x10 ≤ n && n ≤ 0x17 then 0x3000F000
  else if 0x20 ≤ n && n ≤ 0x27 then 0x1FFFFFFF
  else 0

/-- A 32-bit write of a half with the rights of context `by_` (R427). -/
def sysHalfWrite (s : State) (by_ c n : Nat) (hi : Bool) (v : Nat) : State :=
  if !sysExists n || !s.hasCtx c || n = 0x02 || !sysWriter s by_ c n (by_ ≠ c) then countRsvw s
  else
    let w := if zeroOnly n || (0x20 ≤ n && n ≤ 0x27) then (if hi then 2 ^ 32 * v else v)
      else if hi then sysGet s c n % 2 ^ 32 + 2 ^ 32 * v
      else 2 ^ 32 * (sysGet s c n / 2 ^ 32) + v
    let s := if w &&& sysRsvd n ≠ 0 then countRsvw s else s
    let w := w &&& (2 ^ 64 - 1 - sysRsvd n)
    if sysRange n w then sysSet s c n w else countRsvw s

end Sys2Proof.Machine
end

