-- ==== Sys2Proof/Machine/Mmio.lean ====
section
/-! DEFINITION. The MMIO sub-region (R441): mailboxes (R444), queue registers (R324), slot tables (R333, R334) and the
halves of system registers (R427). -/

namespace Sys2Proof.Machine

open Sys2Proof

/-- High and low words of a 64-bit register. -/
def hiHalf (v : Word64) : Nat := v.toNat / 2 ^ 32
def loHalf (v : Word64) : Nat := v.toNat % 2 ^ 32
def setHalf (v : Word64) (hi : Bool) (x : Nat) : Word64 :=
  if hi then w64 (loHalf v + 2 ^ 32 * x) else w64 (2 ^ 32 * hiHalf v + x)
def halfOf (v : Word64) (hi : Bool) : Nat := if hi then hiHalf v else loHalf v

/-! ### Queue registers -/

/-- The queue holds cards: a ring position between HEAD and TAIL, or a reserved entry. -/
def queueHolds (q : Queue) : Bool := q.head ≠ q.tail || !q.rsv.isEmpty

def rsvMap (q : Queue) : Nat := q.rsv.foldl (fun m e => m + 2 ^ e.1) 0

def qcRead (q : Queue) (off : Nat) : Nat :=
  match off with
  | 0 => (if q.en then 2 ^ 31 else 0) + 2 ^ 24 * q.size.toNat + 2 ^ 16 * q.group.toNat + q.owner.toNat
  | 4 => q.ringl.toNat
  | 8 => q.ringh.toNat
  | 12 => q.head.toNat
  | 16 => q.tail.toNat
  | 20 => rsvMap q
  | _ => 0xFFFFFFFF

/-- What is left of a written value without the reserved bits `mask`; a write that sets some of them is counted once, however many reserved
fields it sets (R5; log 87). -/
def dropRsvd (s : State) (mask v : Nat) : Nat × State := (v &&& (2 ^ 64 - 1 - mask), if v &&& mask ≠ 0 then countRsvw s else s)

/-- A write of a queue register (R324): while the queue holds cards, and where QC_RINGH names another M-die, it is
discarded and counted; HEAD, TAIL and RSV are read-only. -/
def qcWrite (s : State) (n : Nat) (off v : Nat) : State :=
  let q := s.queue n
  if queueHolds q then countRsvw s
  else
    match off with
    | 0 =>
      let r := dropRsvd s 0x7000F000 v
      setQueue r.2 n { q with
        en := nbit v 31
        size := BitVec.ofNat 4 (nbits v 24 4)
        group := BitVec.ofNat 8 (nbits v 16 8)
        owner := BitVec.ofNat 12 v }
    | 4 => let r := dropRsvd s 0x7F v; setQueue r.2 n { q with ringl := w32 r.1 }
    | 8 =>
      if nbits v 8 4 ≠ n % 4 then countRsvw s
      else let r := dropRsvd s 0xFFFFF000 v; setQueue r.2 n { q with ringh := w32 r.1 }
    | 20 => (dropRsvd s 0xFFFF0000 v).2
    | _ => s

/-! ### Slot tables -/

def bindWord (b : Bind) : Nat :=
  (if b.valid then 2 ^ 63 else 0) + 2 ^ 48 * b.ctx.toNat + 2 ^ 32 * b.queue.toNat + 2 ^ 8 * b.slice.toNat + b.gen.toNat

def bindOf (v : Nat) : Bind :=
  ⟨nbit v 63, BitVec.ofNat 12 (nbits v 48 12), BitVec.ofNat 16 (nbits v 32 16), BitVec.ofNat 24 (nbits v 8 24), BitVec.ofNat 8 v⟩

/-- Resident coaches of a core (R334). -/
def residentCoaches (s : State) (core : Nat) : Nat :=
  s.trains.foldl (fun n e =>
    if e.2.res = .resident then
      n + (e.2.rankOf.filter fun r => e.2.cores[r]? = some core).length
    else n) 0

def sltRead (s : State) (die off : Nat) : Nat :=
  if off < 0x180 then halfOf (w64 (bindWord (s.core (48 * die + off / 8)).bind)) (off % 8 = 4)
  else if 0x200 ≤ off && off < 0x200 + 192 then
    let k := 48 * die + (off - 0x200) / 4
    let c := s.core k
    2 ^ 12 * residentCoaches s k + 4 * c.skip + c.cls
  else 0xFFFFFFFF

/-! ### Mailboxes -/

def mboxRead (s : State) (x off : Nat) : Nat :=
  let m := s.mbox x
  match off with
  | 0x00 => 0
  | 0x08 => loHalf m.arg0
  | 0x0C => hiHalf m.arg0
  | 0x10 => loHalf m.arg1
  | 0x14 => hiHalf m.arg1
  | 0x18 => loHalf m.arg2
  | 0x1C => hiHalf m.arg2
  | 0x20 => loHalf m.arg3
  | 0x24 => hiHalf m.arg3
  | 0x28 => (if m.busy then 2 ^ 31 else 0) + (if m.orun then 2 ^ 30 else 0) + 256 * m.rtag.toNat + m.res.toNat % 256
  | 0x30 => 2 ^ 28 * s.host.boot
  | 0x34 => s.host.err.head.toNat
  | 0x38 => s.host.err.tail.toNat
  | _ =>
    if 0x40 ≤ off && off < 0x80 then
      (if s.host.boot < 3 || s.host.boot = 15 then 0
       else leVal ((List.range 4).map fun i => Config.measurement (off - 0x40 + i)))
    else 0xFFFFFFFF

/-- A write of XMB_CMD (R444): starts the command, or sets ORUN while one is in progress. -/
def mboxCmd (s : State) (x v : Nat) : State :=
  let s := (dropRsvd s 0xFF000000 v).2
  if (s.mbox x).busy then modMbox s x fun m => { m with orun := true }
  else
    let s := modMbox s x fun m => { m with
      busy := true, op := BitVec.ofNat 8 v, tag := BitVec.ofNat 16 (nbits v 8 16), wait := none, done := 0, ended := false }
    modHost s fun h => { h with mq := h.mq ++ [x] }

def mboxWrite (s : State) (x off v : Nat) : State :=
  match off with
  | 0x00 => mboxCmd s x v
  | 0x08 | 0x0C => modMbox s x fun m => { m with arg0 := setHalf m.arg0 (off = 0x0C) v }
  | 0x10 | 0x14 => modMbox s x fun m => { m with arg1 := setHalf m.arg1 (off = 0x14) v }
  | 0x18 | 0x1C => modMbox s x fun m => { m with arg2 := setHalf m.arg2 (off = 0x1C) v }
  | 0x20 | 0x24 => modMbox s x fun m => { m with arg3 := setHalf m.arg3 (off = 0x24) v }
  | 0x28 =>
    let s := (dropRsvd s 0x3F000000 v).2
    if nbit v 30 then modMbox s x fun m => { m with orun := false } else s
  | 0x30 => (dropRsvd s 0x0FFFFFFF v).2
  | 0x34 => modHost s fun h => { h with err := { h.err with head := w32 v } }
  | _ => s

/-! ### Words of the sub-region -/

def mmioBlock (off : Nat) : Nat := nbits off 28 12
def mmioIn (off : Nat) : Nat := off % 2 ^ 28

/-- The aligned word at an offset (R441). -/
def mmioWordRead (s : State) (off : Nat) : Nat × State :=
  let b := mmioBlock off
  let o := mmioIn off
  if b ≤ 1 then (mboxRead s b o, s)
  else if b = 0x10 && o < 64 * 65536 then (qcRead (s.queue (o / 64)) (o % 64), s)
  else if 0x20 ≤ b && b ≤ 0x2F then (sltRead s (b - 0x20) o, s)
  else if b = 0x40 && o < 2048 * 4096 then sysHalfRead s (o / 2048) (o % 2048 / 8) (o % 8 = 4)
  else (0xFFFFFFFF, s)

/-- A write of an aligned word with the rights of context `by_` (R427, R441). -/
def mmioWordWrite (s : State) (by_ off v : Nat) : State :=
  let b := mmioBlock off
  let o := mmioIn off
  if b ≤ 1 then mboxWrite s b o v
  else if b = 0x10 && o < 64 * 65536 then qcWrite s (o / 64) (o % 64) v
  else if 0x20 ≤ b && b ≤ 0x2F then countRsvw s
  else if b = 0x40 && o < 2048 * 4096 then sysHalfWrite s by_ (o / 2048) (o % 2048 / 8) (o % 8 = 4) v
  else s

/-- A read of 4 or 8 aligned bytes, low word first. -/
def mmioRead (s : State) (off n : Nat) : Nat × State :=
  let (lo, s) := mmioWordRead s off
  if n = 8 then
    let (hi, s) := mmioWordRead s (off + 4)
    (lo + 2 ^ 32 * hi, s)
  else (lo, s)

/-- One write of 8 bytes to a slot table is discarded, and counted, once. -/
def mmioWrite (s : State) (by_ off n v : Nat) : State :=
  let s := mmioWordWrite s by_ off (v % 2 ^ 32)
  if n = 8 && !(0x20 ≤ mmioBlock off && mmioBlock off ≤ 0x2F) then mmioWordWrite s by_ (off + 4) (v / 2 ^ 32 % 2 ^ 32) else s

/-- Offset of a machine address in the sub-region. -/
def mmioOff (ma : Nat) : Nat := ma % 2 ^ 40

end Sys2Proof.Machine
end

