-- ==== Sys2Proof/Machine/MemInstr.lean ====
section
/-! DEFINITION. Class 0x6: loads, stores, prefetch, cache control, fences and ordered channels (R205 to R218), and the
events of the memory system. -/

namespace Sys2Proof.Machine

open Sys2Proof

/-! ### Addresses and their checks (R208) -/

/-- One lane's access: its virtual address, machine address and key. -/
structure LAcc where
  lane : Nat
  va : Nat
  ma : Nat
  key : Byte

/-- The address of a global form. -/
def globVa (s : State) (x : Ix) (a : Args) (l : Nat) : Nat :=
  (src s x a 64 .int a.b l + (a.tail.signExtend 64).toNat) % 2 ^ 64
/-- The offset of a scratchpad or cellar form; the displacement is TAIL, or XMOD in form D. -/
def offVa (s : State) (x : Ix) (a : Args) (form : TailForm) (l : Nat) : Nat :=
  let d : Word32 := if form = .d then a.xmod.signExtend 32 else a.tail
  (src s x a 32 .int a.b l + d.toNat) % 2 ^ 32

/-- A trap of the lanes that offend, with the address of the lowest (R404). -/
def lanesTrap (code : Nat) (bad : List (Nat × Nat)) : Option Trap :=
  match bad with
  | [] => none
  | (_, va) :: _ => some (trapAt code (maskOf (bad.map (·.1))) (w64 va))

def orTrap (a b : Option Trap) : Option Trap :=
  match a with
  | some t => some t
  | none => b

/-- A trap of the pseudocode of R208, which names field B. -/
def memTrap (code : Nat) (bad : List (Nat × Nat)) : Option Trap := (lanesTrap code bad).map fun t => t.onField .b

/-- Alignment before range (R208). -/
def preCheck (as : List (Nat × Nat)) (n : Nat) (inRange : Nat → Bool) : Option Trap :=
  orTrap (memTrap cMEM_ALIGN (as.filter fun e => e.2 % n ≠ 0)) (memTrap cMEM_RANGE (as.filter fun e => !inRange e.2))

/-- A lane may take the translation that another lane of its page has got: not in the page that is backed in part (R22). -/
def shares : Xl → Bool
  | .ok ma _ => !isSplitPage ma
  | .grant _ _ opa _ _ => !isSplitPage opa
  | _ => true

/-- One lookup per page that the lanes touch, in lane order; lanes of one page share its result (R183). -/
def xlateLanes (x : Ix) (acc : Access) : List (Nat × Nat) → List (Nat × Xl) → State → List (Nat × Nat × Xl) × State
  | [], _, s => ([], s)
  | (l, va) :: t, seen, s =>
    let vpn := va55 va / 65536
    match seen.find? fun e => e.1 = vpn && shares e.2 with
    | some e =>
      let r := xlateLanes x acc t seen s
      ((l, va, e.2) :: r.1, r.2)
    | none =>
      let (xl, s) := xlate s x.cluster x.coreTlb x.ctx va acc x.fr.replay false
      let r := xlateLanes x acc t ((vpn, xl) :: seen) s
      ((l, va, xl) :: r.1, r.2)

/-- The lanes whose translation succeeded; a page's machine address serves all its lanes. -/
def okLanes (rs : List (Nat × Nat × Xl)) : List LAcc :=
  rs.filterMap fun e =>
    match e.2.2 with
    | .ok ma key => some ⟨e.1, e.2.1, 65536 * (ma / 65536) + e.2.1 % 65536, key⟩
    | _ => none

/-- A walk of some lane is held at the home (R370). -/
def walkHeld (rs : List (Nat × Nat × Xl)) : Bool := rs.any fun e => e.2.2 = .held

/-- The pages whose translation failed, each with its lanes. -/
def failPages (rs : List (Nat × Nat × Xl)) : List PageFail :=
  rs.foldl (fun ps e =>
    match e.2.2 with
    | .ok .. => ps
    | xl =>
      let vpn := va55 e.2.1 / 65536
      if ps.any fun p => p.vpn = vpn then
        ps.map fun p => if p.vpn = vpn then { p with lanes := p.lanes ||| bitOf e.1 } else p
      else ps ++ [⟨bitOf e.1, vpn, w64 e.2.1, xl⟩]) []

/-- The checks after translation, in the order of R208. `hbmOnly` for atomics and channel stores; `closed` is the channel
check of OCH.ST. -/
def postCheck (s : State) (n : Nat) (writes hbmOnly : Bool) (closed : LAcc → Bool) (as : List LAcc) : Option Trap :=
  let bad (p : LAcc → Bool) : List (Nat × Nat) := (as.filter p).map fun a => (a.lane, a.va)
  orTrap (memTrap cCELLAR_STORE (bad fun a => writes && isCellar a.ma))
    (orTrap (memTrap cMEM_RANGE (bad fun a => hbmOnly && !isHbm a.ma))
      (orTrap (memTrap cMEM_ALIGN (bad fun a => isMmio a.ma && n ≠ 4 && n ≠ 8))
        (orTrap (memTrap cCHANNEL_CLOSED (bad closed))
          (memTrap cKEY_CONFLICT (bad fun a => keyConflict s a.ma a.key)))))

/-! ### Order of a coach's accesses (R200) -/

/-- Accesses of the coach to some of the machine bytes are still to be performed. -/
def pendingOverlap (s : State) (x : Ix) (as : List LAcc) (n : Nat) : Bool :=
  let who : Agent := .frag x.ref
  as.any fun a =>
    (s.stores.any fun p => !p.reg && sameCoach who p.who && overlap a.ma n p.ma p.bytes.length) ||
    (s.steps.any fun p => sameCoach who p.who && overlap a.ma n p.ma (if p.w64 then 8 else 4)) ||
    (match coachOf s x.ref.train x.ref.coach with
      | some co => co.pend.any fun p => p.reads.any fun e =>
          match e.2 with
          | .glob _ ma _ _ => overlap a.ma n ma p.bytes
          | _ => false
      | none => false)

/-- The coach has bypass accesses that are not performed yet. -/
def pendingBypass (s : State) (x : Ix) : Bool :=
  !(pendingIds s x.ref.train x.ref.coach false).isEmpty

/-- An access at once must wait for earlier ones: those to the same bytes, and for `bypass` every bypass access (R200 items 1 and
4). -/
def mustFollow (s : State) (x : Ix) (as : List LAcc) (n : Nat) (bypass : Bool) : Bool :=
  pendingOverlap s x as n || (bypass && pendingBypass s x)

/-- Earlier accesses that must be performed first are, as far as the home takes them. -/
def orderFirst (s : State) (x : Ix) (as : List LAcc) (n : Nat) (bypass : Bool) : State :=
  if mustFollow s x as n bypass then settleX x s else s

/-- An access is a bypass access that the turn does not leave pending: an MMIO access always (R194). -/
def bypassNow (s : State) (as : List LAcc) (bypass : Bool) : Bool := (bypass && !s.defer) || as.any fun a => isMmio a.ma

/-- A global access (R208): checks, translation, checks; the lanes that translate are performed and the others park
(R184). It waits while an access that it must follow cannot be performed. -/
def globalAccess (x : Ix) (acc : Access) (n : Nat) (writes hbmOnly bypass : Bool) (closed : State → LAcc → Bool)
    (as : List (Nat × Nat)) (perform : State → List LAcc → State × Option Trap) (s : State) : Res :=
  match preCheck as n canonical with
  | some t => .trap t
  | none =>
    let r := xlateLanes x acc as [] s
    let ok := okLanes r.1
    if walkHeld r.1 then .wait .other id
    else
      match postCheck r.2 n writes hbmOnly (closed r.2) ok with
      | some t => .trap t
      | none =>
        let now := bypassNow r.2 ok bypass
        let u := orderFirst r.2 x ok n now
        if mustFollow u x ok n now then .wait .other (settleX x)
        else
          let p := perform u ok
          let fails := failPages r.1
          if fails.isEmpty then .done p.1 [] p.2
          else
            let q := parkLanes p.1 x acc fails
            .done q.1 q.2 p.2

/-! ### Watch ranges (R432) -/

def watchHit (w : Watch) (load store : Bool) (va n : Nat) : Bool :=
  ((load && w.r) || (store && w.w)) && overlap va n w.addr.toNat w.len

/-- WHIT and WLANES, and the trap WATCH, when a lane touches an armed range. -/
def watchAfter (s : State) (x : Ix) (load store : Bool) (n : Nat) (as : List LAcc) : State × Option Trap :=
  let hit := as.filter fun a => (s.ctx x.ctx).watch.any fun w => watchHit w.2 load store a.va n
  match hit with
  | [] => (s, none)
  | h :: _ =>
    (modSys s x.ctx fun y => { y with whit := w64 h.va, wlanes := maskOf (hit.map (·.lane)) }, some (trapOf cWATCH))

/-! ### Loads -/

/-- Where a lane's load reads: the cellar of the executing die, or the home through the L1. -/
def locOf (x : Ix) (bypass : Bool) (a : LAcc) : Loc :=
  if isCellar a.ma then .cellar x.die (nbits a.ma 0 30) else .glob x.cluster a.ma bypass a.key

structure LoadIn where
  word : Word96
  dst : Operand
  bytes : Nat
  sx : Bool

/-- What has been read so far: values by lane, poisoned lanes, lanes still pending. -/
structure LoadOut where
  vals : List (Nat × Nat)
  bad : List Nat
  left : List (Nat × Loc)

/-- Read the lanes in ascending order; those that cannot be read now stay pending (R196, R370), all of them when `defer`. The lanes
of one line share a request (R182). -/
def readLanes (ctx n : Nat) (sx defer : Bool) : List (Nat × Loc) → List Nat → State → LoadOut × State
  | [], _, s => (⟨[], [], []⟩, s)
  | (l, loc) :: t, seen, s =>
    match (if defer then none else readLoc s ctx n loc seen) with
    | none =>
      let r := readLanes ctx n sx defer t seen s
      ({ r.1 with left := (l, loc) :: r.1.left }, r.2)
    | some (g, s) =>
      let r := readLanes ctx n sx defer t (seen ++ loc.line.toList) s
      (if g.poison then { r.1 with bad := l :: r.1.bad }
       else { r.1 with vals := (l, loadValue g.bytes sx) :: r.1.vals }, r.2)

/-- Write what has been read, leave the rest pending, and answer the trap of poisoned lanes when all have been read (R198). `first`
is the lowest enabled lane. -/
def finishLoad (s : State) (x : Ix) (k : LoadIn) (first : Nat) (o : LoadOut) : State × Option Trap :=
  let bits := if k.bytes ≤ 4 then 32 else 8 * k.bytes
  let s := wrFirst s x k.dst bits first o.vals
  if o.left.isEmpty then (s, if o.bad.isEmpty then none else some (trapAt cDATA_POISON (maskOf o.bad) 0))
  else
    let p : Pend := ⟨s.nextId, k.word, x.fr.pc, k.dst, k.bytes, k.sx, first, o.left, none, false, maskOf o.bad⟩
    (modCoach { s with nextId := s.nextId + 1 } x.ref.train x.ref.coach fun co => { co with pend := co.pend ++ [p] }, none)

/-- The load of lanes at given places. -/
def loadPlaces (s : State) (x : Ix) (k : LoadIn) (defer : Bool) (ls : List (Nat × Loc)) : State × Option Trap :=
  let r := readLanes x.ctx k.bytes k.sx defer ls [] s
  finishLoad r.2 x k ((ls.head?.map (·.1)).getD 0) r.1

/-- MMIO lanes read at once; their values join as delivered ones. -/
def mmioLanes : List LAcc → Nat → State → List (Nat × Nat) × State
  | [], _, s => ([], s)
  | a :: t, n, s =>
    let (v, s) := mmioRead s (mmioOff a.ma) n
    let r := mmioLanes t n s
    ((a.lane, v) :: r.1, r.2)

/-- The load of translated lanes, with the watch ranges. -/
def loadLanes (s : State) (x : Ix) (k : LoadIn) (bypass : Bool) (as : List LAcc) (first : Nat) : State × Option Trap :=
  let m := mmioLanes (as.filter fun a => isMmio a.ma) k.bytes s
  let r := readLanes x.ctx k.bytes k.sx s.defer ((as.filter fun a => !isMmio a.ma).map fun a => (a.lane, locOf x bypass a)) [] m.2
  let o := { r.1 with vals := m.1 ++ r.1.vals }
  let p := finishLoad r.2 x k first o
  let w := watchAfter p.1 x true false k.bytes as
  (w.1, orTrap p.2 w.2)

/-- A global load (R209, R212). -/
def loadGlobal (i : Instr) (m : MemMod) (a : Args) (byp : Bool) (x : Ix) (ls : List Nat) (s : State) : Res :=
  let sc := clampScope x.ctx m.sc
  let bypass := byp || (m.ord && sc ≠ .cl)
  let k : LoadIn := ⟨encodeVamer i, a.a, m.sz.bytes, m.sx⟩
  let body (s : State) : Res :=
    globalAccess x .load k.bytes false false bypass (fun _ _ => false) (ls.map fun l => (l, globVa s x a l))
      (fun s as => loadLanes s x k bypass as (ls.headD 0)) s
  if m.ord then withAcquireLoad x m.sc (countClamp { s with defer := false } x.ctx m.sc) body else body s

/-- LD (R209). -/
def execLd (m : MemMod) (x : Args) (s : State) : Host.Outcome State Fault Refusal :=
  vamer (.ld m x) x false (loadGlobal (.ld m x) m x false) s
/-- LDB (R212). -/
def execLdb (m : MemMod) (x : Args) (s : State) : Host.Outcome State Fault Refusal :=
  vamer (.ldb m x) x false (loadGlobal (.ldb m x) m x true) s

/-- LDU (R209): one access, the lowest enabled lane's; a fault parks every enabled lane. -/
def lduBody (m : MemMod) (a : Args) (x : Ix) (ls : List Nat) (s : State) : Res :=
  let sc := clampScope x.ctx m.sc
  let bypass := m.ord && sc ≠ .cl
  let l := ls.headD 0
  let k : LoadIn := ⟨encodeVamer (.ldu m a), a.a, m.sz.bytes, false⟩
  let body (s : State) : Res :=
    match globalAccess x .load k.bytes false false bypass (fun _ _ => false) [(l, globVa s x a l)]
      (fun s as => loadLanes s x k bypass as l) s with
    | .done s ms t =>
      match ms with
      | (_, m) :: _ => .done s (ls.map fun j => (j, m)) t
      | [] => .done s [] t
    | r => r
  if m.ord then withAcquireLoad x m.sc (countClamp { s with defer := false } x.ctx m.sc) body else body s

def execLdu (m : MemMod) (x : Args) (s : State) : Host.Outcome State Fault Refusal :=
  vamer (.ldu m x) x false (lduBody m x) s

/-- Loads of the coach from bytes of the scratchpad at a rank are still to be performed. -/
def scrPending (s : State) (x : Ix) (rank n : Nat) (as : List (Nat × Nat)) : Bool :=
  match coachOf s x.ref.train x.ref.coach with
  | some co => co.pend.any fun p => p.reads.any fun e =>
      match e.2 with
      | .scr _ r off => r = rank && as.any fun b => overlap off p.bytes b.2 n
      | _ => false
  | none => false

/-- An access to the scratchpad follows the earlier ones to the same bytes (R200 item 1). -/
def afterScr (x : Ix) (rank n : Nat) (as : List (Nat × Nat)) (s : State) (k : State → Res) : Res :=
  let u := if scrPending s x rank n as then settleX x s else s
  if scrPending u x rank n as then .wait .other (settleX x) else k u

/-- The bank conflicts of an instruction on a rank's core. -/
def countRank (s : State) (x : Ix) (rank n : Nat) (as : List (Nat × Nat)) : State :=
  countBanks s x.ctx (x.tr.cores.getD rank 0) (x.tr.sbase.getD rank 0) n (as.map (·.2))

/-- A scratchpad load at a rank: offsets checked, the range scoreboard consulted when `score` (R188, R189, R265). -/
def loadScratch (i : Instr) (m : MemMod) (a : Args) (rank : Nat) (score : Bool) (as : List (Nat × Nat)) (x : Ix) (s : State) :
    Res :=
  let n := m.sz.bytes
  match preCheck as n fun o => o + n ≤ x.tr.scratch with
  | some t => .trap t
  | none =>
    if score && as.any fun e => rangeBusy s x.core x.ref.train e.2 n then .wait .other id
    else
      let go (s : State) : Res := afterScr x rank n as s fun s =>
        let p := loadPlaces (countRank s x rank n as) x ⟨encodeVamer i, a.a, n, m.sx⟩ s.defer (as.map fun e => (e.1, .scr x.ref.train rank e.2))
        .done p.1 [] p.2
      if m.ord then withAcquireLoad x .cl { s with defer := false } go else go s

def execLds (m : MemMod) (x : Args) (s : State) : Host.Outcome State Fault Refusal :=
  vamer (.lds m x) x false (fun ix ls s =>
    loadScratch (.lds m x) m x ix.rank true (ls.map fun l => (l, offVa s ix x .disp l)) ix s) s

/-- The rank of LDX and STX, from the lowest enabled lane; MEM_RANGE where the train has no such core (R208, R210). -/
def rankTrap (x : Ix) (rank : Nat) (as : List (Nat × Nat)) : Option Trap :=
  if rank ≥ x.tr.cores.length then memTrap cMEM_RANGE as else none

def execLdx (m : MemMod) (x : Args) (s : State) : Host.Outcome State Fault Refusal :=
  vamer (.ldx m x) x false (fun ix ls s =>
    let as := ls.map fun l => (l, offVa s ix x .d l)
    let k := src s ix x 32 .int x.d (ls.headD 0)
    match orTrap (memTrap cMEM_ALIGN (as.filter fun e => e.2 % m.sz.bytes ≠ 0)) (rankTrap ix k as) with
    | some t => .trap t
    | none => loadScratch (.ldx m x) m x k false as ix s) s

/-- LDW (R211): waits at issue while the bank of the lowest enabled lane is refreshing (R196). -/
def execLdw (m : MemMod) (x : Args) (s : State) : Host.Outcome State Fault Refusal :=
  vamer (.ldw m x) x false (fun ix ls s =>
    let n := m.sz.bytes
    let as := ls.map fun l => (l, offVa s ix x .disp l)
    match preCheck as n fun o => o + n ≤ 2 ^ 30 with
    | some t => .trap t
    | none =>
      if nbits ((as.headD (0, 0)).2) 24 6 = (crefOf s ix.die).1 then .wait .other id
      else
        let p := loadPlaces s ix ⟨encodeVamer (.ldw m x), x.a, n, false⟩ s.defer (as.map fun e => (e.1, .cellar ix.die e.2))
        .done p.1 [] p.2) s

/-! ### Stores -/

/-- The bytes that a lane stores (R207). -/
def storeBytes (s : State) (x : Ix) (a : Args) (sz : MSize) (l : Nat) : List Byte :=
  leBytes sz.bytes (src s x a sz.regBits .int a.c l)

/-- The stores that remain of an instruction's lanes: at each address the highest lane's (R185). Accesses of one size are aligned, so
they overlap only at one address; MMIO accesses are all performed. -/
def lastLanes : List LAcc → List LAcc
  | [] => []
  | a :: t => if !isMmio a.ma && t.any (fun b => b.ma = a.ma) then lastLanes t else a :: lastLanes t

/-- The stores of lanes on their way to the home, numbered from `id`; those of one line share a request (R182). -/
def newStores (x : Ix) (id : Nat) (chan : LAcc → Option Nat) (ks : List (LAcc × List Byte)) : List PStore :=
  ks.zipIdx.map fun e =>
    { id := id + e.2, who := .frag x.ref, cluster := x.cluster, ma := e.1.1.ma, bytes := e.1.2, key := e.1.1.key, reg := false
      chan := chan e.1.1, poison := false, lane := e.1.1.lane
      grp := id + (ks.findIdx fun k => k.1.ma / 128 = e.1.1.ma / 128) }

/-- Stores go on their way; unless the turn leaves them there, each reaches the home if it can. -/
def sendStores (s : State) (ps : List PStore) : State :=
  let u := { s with stores := s.stores ++ ps, nextId := s.nextId + ps.length }
  if s.defer then u else ps.foldl tryStore u

/-- The registrations of the words of a plain store that the cluster does not own (R192). -/
def newRegs (s : State) (x : Ix) (k : LAcc × List Byte) : List PStore :=
  ((wordsOf k.1.ma k.2.length).filter fun wa => mget s.owner wa ≠ some x.cluster).zipIdx.map fun e =>
    { id := s.nextId + e.2, who := .frag x.ref, cluster := x.cluster, ma := 4 * e.1, bytes := [], key := k.1.key, reg := true
      chan := none, poison := false, lane := k.1.lane, grp := s.nextId + e.2 }

/-- One lane's plain store: written into the L1, its words registered at once, or on their way where the turn leaves them there or
the previous owner's write-back is held (R192). -/
def storeThrough (x : Ix) (s : State) (k : LAcc × List Byte) : State :=
  let rs := newRegs s x k
  let later := s.defer || rs.any fun p => !storeReady s p
  let u := storePlain s x.cluster x.ctx k.1.ma k.2 k.1.key false !later
  if later then { u with stores := u.stores ++ rs, nextId := u.nextId + rs.length } else u

/-- The store of translated lanes: an MMIO access at once, a bypass store to the home, a plain store into the L1 (R185, R192, R194,
R200). -/
def storeLanes (s : State) (x : Ix) (bypass : Bool) (chan : LAcc → Option Nat) (n : Nat) (data : Nat → List Byte)
    (as : List LAcc) : State × Option Trap :=
  let ks := (lastLanes as).map fun a => (a, data a.lane)
  let mm := ks.filter fun k => isMmio k.1.ma
  let mem := ks.filter fun k => !isMmio k.1.ma
  let s := mm.foldl (fun s k => mmioWrite s x.ctx (mmioOff k.1.ma) k.2.length (leVal k.2)) s
  let s := if bypass then sendStores s (newStores x s.nextId chan mem) else mem.foldl (storeThrough x) s
  watchAfter s x false true n as

/-- A global store (R209, R212). -/
def storeGlobal (m : MemMod) (a : Args) (byp : Bool) (x : Ix) (ls : List Nat) (s : State) : Res :=
  let sc := clampScope x.ctx m.sc
  let bypass := byp || (m.ord && sc ≠ .cl)
  let n := m.sz.bytes
  let body (s : State) : Res :=
    globalAccess x .store n true false bypass (fun _ _ => false) (ls.map fun l => (l, globVa s x a l))
      (fun t as => storeLanes t x bypass (fun _ => none) n (storeBytes s x a m.sz) as) s
  if m.ord then withRelease x m.sc (countClamp s x.ctx m.sc) body else body s

/-- ST (R209). -/
def execSt (m : MemMod) (x : Args) (s : State) : Host.Outcome State Fault Refusal :=
  vamer (.st m x) x false (storeGlobal m x false) s
/-- STB (R212). -/
def execStb (m : MemMod) (x : Args) (s : State) : Host.Outcome State Fault Refusal :=
  vamer (.stb m x) x false (storeGlobal m x true) s

/-- The fibres in some lanes of the fragment. -/
def fidsOf (x : Ix) (ls : List Nat) : List Nat := ls.filterMap fun l => (mget x.co.lanes l).map (·.fid.toNat)

/-- A scratchpad store at a rank (R189). -/
def storeScratch (m : MemMod) (a : Args) (rank : Nat) (score : Bool) (as : List (Nat × Nat)) (x : Ix) (s : State) : Res :=
  let n := m.sz.bytes
  match preCheck as n fun o => o + n ≤ x.tr.scratch with
  | some t => .trap t
  | none =>
    if score && as.any fun e => rangeBusy s x.core x.ref.train e.2 n then .wait .other id
    else
      let go (s : State) : Res := afterScr x rank n as s fun s =>
        .done (modTrain (countRank s x rank n as) x.ref.train fun t =>
          as.foldl (fun t e => scrStore t rank e.2 (storeBytes s x a m.sz e.1) false (fidsOf x [e.1])) t) [] none
      if m.ord then withRelease x .cl s go else go s

def execSts (m : MemMod) (x : Args) (s : State) : Host.Outcome State Fault Refusal :=
  vamer (.sts m x) x false (fun ix ls s =>
    storeScratch m x ix.rank true (ls.map fun l => (l, offVa s ix x .disp l)) ix s) s

def execStx (m : MemMod) (x : Args) (s : State) : Host.Outcome State Fault Refusal :=
  vamer (.stx m x) x false (fun ix ls s =>
    let as := ls.map fun l => (l, offVa s ix x .d l)
    let k := src s ix x 32 .int x.d (ls.headD 0)
    match orTrap (memTrap cMEM_ALIGN (as.filter fun e => e.2 % m.sz.bytes ≠ 0)) (rankTrap ix k as) with
    | some t => .trap t
    | none => storeScratch m x k false as ix s) s

/-! ### Prefetch and cache control -/

/-- The machine address and key of a page that has a valid translation, whatever its leaf permits (R214); `stores` asks
that the leaf and the map permit stores. -/
def pageOf (s : State) (x : Ix) (va : Nat) (stores : Bool) : Option (Nat × Byte) × State :=
  match walk s x.cluster x.ctx (va55 va) with
  | (.error _, s) => (none, s)
  | (.ok l, s) =>
    match lookup s x.ctx l.cpa stores false with
    | .error _ => (none, s)
    | .ok ma => (if stores && !nbit l.e 3 then none else some (ma, BitVec.ofNat 8 (nbits l.e 8 8)), s)

/-- PREF starts a fetch of the lane's line (R213). -/
def prefLine (x : Ix) (s : State) (va : Nat) : State :=
  if !canonical va then s
  else
    match pageOf s x va false with
    | (some (ma, key), s) =>
      if isHbm ma && !keyConflict s ma key && (List.range 32).any fun i => (l1Get s x.cluster (ma / 128 * 32 + i)).isNone then
        fetchLine (homeAccess s x.ctx ma 1) x.cluster (ma / 128) key
      else s
    | (none, s) => s

def execPref (x : Args) (s : State) : Host.Outcome State Fault Refusal :=
  vamer (.pref x) x false (fun ix ls s =>
    .done (if outOf s ix.ctx .mem then s else (ls.map fun l => globVa s ix x l).foldl (prefLine ix) s) [] none) s

/-- PREFC fetches into the home cache, which is transparent (R194, R213). -/
def execPrefc (x : Args) (s : State) : Host.Outcome State Fault Refusal :=
  vamer (.prefc x) x false (fun ix ls s =>
    .done ((ls.map fun l => globVa s ix x l).foldl (fun s va =>
      if !canonical va then s
      else match pageOf s ix va false with
        | (some (ma, key), s) => if isHbm ma && !keyConflict s ma key then homeAccess s ix.ctx ma 1 else s
        | (none, s) => s) s) [] none) s

/-- The pages that a byte range overlaps. -/
def pagesOf (b n : Nat) : List Nat := if n = 0 then [] else (List.range ((b + n - 1) / 65536 - b / 65536 + 1)).map (b / 65536 + ·)

/-- The words of the range that the cluster's L1 holds and a page translates (R214); a page whose addresses are not canonical has no
translation. -/
def rangeWords (x : Ix) (b n : Nat) (stores : Bool) : List Nat → State → List Nat × State
  | [], s => ([], s)
  | p :: t, s =>
    let (r, s) := if canonical (65536 * p) then pageOf s x (65536 * p) stores else (none, s)
    let mine := match r with
      | none => []
      | some (ma, _) =>
        ((s.cluster x.cluster).l1.filter fun e =>
          e.1 / 16384 = ma / 65536 && overlap (65536 * p + 4 * e.1 % 65536) 4 b n).map (·.1)
    let rest := rangeWords x b n stores t s
    (mine ++ rest.1, rest.2)

/-- CINV, CWB and CDISC (R214): range from the lowest enabled lane, the whole L1 for a count of 0 when `all`. `f` acts on the words;
the instruction waits while one of those words has dirty bytes left, its write-back being held (R370). -/
def cacheOp (a : Args) (all stores : Bool) (f : State → Nat → List Nat → State) (x : Ix) (ls : List Nat) (s : State) : Res :=
  let s := settleX x s
  let b := src s x a 64 .int a.b (ls.headD 0)
  let n := src s x a 32 .int a.c (ls.headD 0)
  if n ≠ 0 && outOf s x.ctx .mem then .wait .other id
  else
    let r := if n = 0 then (if all then (s.cluster x.cluster).l1.map (·.1) else [], s)
      else rangeWords x b n stores (pagesOf b n) s
    let act (s : State) : State := f s x.cluster r.1
    let u := act r.2
    if (u.cluster x.cluster).l1.any fun e => e.2.dirty ≠ 0 && r.1.contains e.1 then .wait .other act else .done u [] none

/-- Words are written back, then invalid. -/
def evictWords (s : State) (cl : Nat) (ws : List Nat) : State :=
  let s := backWords s cl ws
  ws.foldl (fun s wa => if wbHeld s cl wa then s else evictWord s cl wa) s

def discardWords (s : State) (cl : Nat) (ws : List Nat) : State := ws.foldl (fun s wa => discardWord s cl wa) s

def execCinv (x : Args) (s : State) : Host.Outcome State Fault Refusal :=
  vamer (.cinv x) x false (cacheOp x true false evictWords) s
def execCwb (x : Args) (s : State) : Host.Outcome State Fault Refusal :=
  vamer (.cwb x) x false (cacheOp x true false backWords) s
def execCdisc (x : Args) (s : State) : Host.Outcome State Fault Refusal :=
  vamer (.cdisc x) x false (cacheOp x false true discardWords) s

/-! ### Fences -/

/-- FENCE (R215): release part first. -/
def execFence (o : FenceOrd) (sc : Scope) (x : Args) (s : State) : Host.Outcome State Fault Refusal :=
  vamer (.fence o sc x) x false (fun ix _ s =>
    let s := countClamp s ix.ctx sc
    let fin (s : State) : Res := .done s [] none
    match o with
    | .full => withRelease ix sc s fun s => withAcquire ix sc s fin
    | .rel => withRelease ix sc s fin
    | .acq => withAcquire ix sc s fin) s

/-! ### Ordered channels -/

/-- The channel named by an operand and a number: 8 × M-die + n (R216). -/
def chanOf (s : State) (x : Ix) (a : Args) (n : BitVec 3) (ls : List Nat) : Nat :=
  8 * (src s x a 32 .int a.b (ls.headD 0) % 4) + n.toNat

def execOchOpen (n : BitVec 3) (x : Args) (s : State) : Host.Outcome State Fault Refusal :=
  vamer (.ochOpen n x) x false (fun ix ls s =>
    let c := chanOf s ix x n ls
    .done (modTrain s ix.ref.train fun t => { t with och := if t.och.contains c then t.och else t.och ++ [c] }) [] none) s

/-- Stores of a train in a channel that are still on their way, performed in order. -/
def drainChan (s : State) (t c : Nat) : State :=
  (s.stores.filter fun p => p.chan = some c && (match p.who with | .frag f => f.train = t | .dray u _ _ => u = t)).foldl tryStore s
def chanEmpty (s : State) (t c : Nat) : Bool :=
  !s.stores.any fun p => p.chan = some c && (match p.who with | .frag f => f.train = t | .dray u _ _ => u = t)

def execOchClose (n : BitVec 3) (x : Args) (s : State) : Host.Outcome State Fault Refusal :=
  vamer (.ochClose n x) x false (fun ix ls s =>
    let c := chanOf s ix x n ls
    let s1 := drainChan s ix.ref.train c
    if !chanEmpty s1 ix.ref.train c then .wait .other fun s => drainChan s ix.ref.train c
    else .done (modTrain s1 ix.ref.train fun t => { t with och := t.och.filter (· ≠ c) }) [] none) s

/-- OCH.ST (R217). -/
def execOchSt (sz : MSize) (n : BitVec 3) (x : Args) (s : State) : Host.Outcome State Fault Refusal :=
  vamer (.ochSt sz n x) x false (fun ix ls s =>
    let chan (a : LAcc) : Nat := 8 * maDie a.ma + n.toNat
    globalAccess ix .store sz.bytes true true true (fun _ a => !ix.tr.och.contains (chan a)) (ls.map fun l => (l, globVa s ix x l))
      (fun t as => storeLanes t ix true (fun a => some (chan a)) sz.bytes (storeBytes s ix x sz) as) s) s

/-- MDIE (R218): checks and translates as a `.8` load and accesses nothing. -/
def execMdie (x : Args) (s : State) : Host.Outcome State Fault Refusal :=
  vamer (.mdie x) x false (fun ix ls s =>
    let as := ls.map fun l => (l, globVa s ix x l)
    match preCheck as 1 canonical with
    | some t => .trap t
    | none =>
      let r := xlateLanes ix .load as [] s
      let ok := okLanes r.1
      if walkHeld r.1 then .wait .other id
      else match postCheck r.2 1 false false (fun _ => false) ok with
      | some t => .trap t
      | none =>
        let s := wrFirst r.2 ix x.a 32 (ls.headD 0) (ok.map fun a => (a.lane, if isHbm a.ma then maDie a.ma else 0xFFFFFFFF))
        let fails := failPages r.1
        if fails.isEmpty then .done s [] none
        else
          let q := parkLanes s ix .load fails
          .done q.1 q.2 none) s

/-! ### Events -/

/-- The pending write numbered `id`. -/
def pendOf (s : State) (id : Nat) : Option (Nat × CoachId × Pend) :=
  s.trains.findSome? fun e => e.2.coachIds.findSome? fun c =>
    match e.2.coach? c with
    | some co => (co.pend.find? fun p => p.id = id).map fun p => (e.1, c, p)
    | none => none

/-- LOAD_REPLY (R59): the replies of pending write `i` arrive. -/
def execLoadReply (s : State) : Host.Outcome State Fault Refusal :=
  match pendOf s s.ev.i with
  | none => .next s
  | some (t, c, p) =>
    .next (replyPend s t c p)

/-- STORE_PERFORMED_AT_HOME (R200): the pending store numbered `i`, if those that go before it have been performed. -/
def execStorePerformedAtHome (s : State) : Host.Outcome State Fault Refusal :=
  match s.stores.find? fun p => p.id = s.ev.i with
  | none => .next s
  | some p => .next (tryStore s p)

/-- L1_WRITE_BACK (R192): cluster `i`, word at machine address `j`, unless it is held (R370). -/
def execL1WriteBack (s : State) : Host.Outcome State Fault Refusal := .next (backWords s s.ev.i [s.ev.j / 4])

/-- L1_EVICTION (R192): cluster `i`, line at machine address `j`, but for words whose write-back is held (R370). -/
def execL1Eviction (s : State) : Host.Outcome State Fault Refusal :=
  .next (evictWords s s.ev.i ((List.range 32).map fun k => s.ev.j / 128 * 32 + k))

/-- TRANSLATION_WALK (R358): a walk and lookup for an access, leaving its entry in the TLBs; a fault of it is reported by
the access that needs it. -/
def execTranslationWalk (s : State) : Host.Outcome State Fault Refusal :=
  let core := if s.ev.p then some s.ev.j else none
  .next (walkLookup s s.ev.i core s.ev.k (va55 s.ev.x.toNat) s.ev.acc (s.ev.acc = .other)).2

end Sys2Proof.Machine
end

