-- ==== Sys2Proof/Machine/Atomics.lean ====
section
/-! DEFINITION. Class 0x7: atomics at the home and in the scratchpad (R220 to R230), and the home's retiring of queued
steps. -/

namespace Sys2Proof.Machine

open Sys2Proof

def ordAcquires : AOrd → Bool
  | .acq | .ar => true
  | _ => false
def ordReleases : AOrd → Bool
  | .rel | .ar => true
  | _ => false

/-- The address of a global atomic: the displacement is TAIL, or XMOD in form D (R227). -/
def atomVa (s : State) (x : Ix) (a : Args) (form : TailForm) (l : Nat) : Nat :=
  if form = .d then (src s x a 64 .int a.b l + (a.xmod.signExtend 64).toNat) % 2 ^ 64 else globVa s x a l

/-- One lane's step: compare value and operand. -/
structure LStep where
  lane : Nat
  cmp : Option Nat
  arg : Nat

/-- The operands of a lane (R229). -/
def laneStep (s : State) (x : Ix) (a : Args) (bits : Nat) (cas : Bool) (l : Nat) : LStep :=
  let c := src s x a bits .int a.c l
  if cas then ⟨l, some c, src s x a bits .int a.d l⟩ else ⟨l, none, c⟩

/-- The lines of an instruction's lanes. -/
def linesOf (as : List LAcc) : List Nat := (as.map fun a => a.ma / 128).eraseDups

/-- The context can pay for `n` requests now (R370). -/
def affords (s : State) (c n : Nat) : Bool :=
  match payer s c .mem with
  | some a => n ≤ (s.ctx a).mem.tok
  | none => true

/-- Steps performed at once, in ascending lane order, the lanes of one line sharing a request (R182): old values and poisoned
lanes. -/
def stepsNow (x : Ix) (m : AtomMod) : List (LAcc × LStep) → List Nat → State → List (Nat × Nat) × List Nat × State
  | [], _, s => ([], [], s)
  | (a, k) :: t, seen, s =>
    let s := if seen.contains (a.ma / 128) then s else homeAccess s x.ctx a.ma 1
    let seen := seen ++ [a.ma / 128]
    match homeStep s x.cluster a.ma m.w64 a.key m.op k.cmp k.arg with
    | (some old, s) => let r := stepsNow x m t seen s; ((a.lane, old) :: r.1, r.2.1, r.2.2)
    | (none, s) => let r := stepsNow x m t seen s; (r.1, a.lane :: r.2.1, r.2.2)

/-- Steps to be queued, numbered from `id + 1`; those of one line share a request (R182). -/
def newSteps (x : Ix) (m : AtomMod) (word : Word96) (id : Nat) (ks : List (LAcc × LStep)) : List AStep :=
  ks.zipIdx.map fun e =>
    { id := id + 1 + e.2, who := .frag x.ref, cluster := x.cluster, ma := e.1.1.ma, w64 := m.w64, key := e.1.1.key, op := m.op
      cmp := e.1.2.cmp.map w64, arg := w64 e.1.2.arg, lane := e.1.1.lane, reply := some id, pc := x.fr.pc, word := word
      grp := id + 1 + (ks.findIdx fun k => k.1.ma / 128 = e.1.1.ma / 128) }

/-- Steps queued at their homes, their replies pending (R221, R223); RED and REDU wait for acknowledgements alone. `first` is the
lowest enabled lane. -/
def stepsLater (x : Ix) (m : AtomMod) (word : Word96) (dst : Option Operand) (first : Nat) (ks : List (LAcc × LStep)) (s : State) :
    State :=
  if ks.isEmpty then s
  else
    let id := s.nextId
    let p : Pend := ⟨id, word, x.fr.pc, dst.getD .unused, if m.w64 then 8 else 4, false, first,
      ks.map (fun e => (e.1.lane, Loc.val none)), none, false, 0⟩
    let steps := newSteps x m word id ks
    let u := modCoach { s with steps := s.steps ++ steps, nextId := id + 1 + ks.length } x.ref.train x.ref.coach fun co =>
      { co with pend := co.pend ++ [p] }
    if s.defer then u
    else performId x.ref.train x.ref.coach (steps.foldl tryStep u) id

/-- Steps queued at the locations of an instruction's lanes. -/
def queuedAt (s : State) (as : List LAcc) (n : Nat) : List AStep :=
  s.steps.filter fun q => as.any fun a => overlap a.ma n q.ma (if q.w64 then 8 else 4)

/-- The steps of some lanes can all be performed now: no queue stands at their locations, their requests can be paid for and no
write-back that they force is held (R221, R370). -/
def stepsFree (s : State) (x : Ix) (as : List LAcc) (n : Nat) : Bool :=
  !s.defer && (queuedAt s as n).isEmpty && affords s x.ctx (linesOf as).length && as.all fun a => !wordsHeld s x.cluster a.ma n

/-- The steps of translated lanes, at once or later; the steps in their locations' queues go first (R221). `first` is the lowest
enabled lane. -/
def atomLanes (x : Ix) (m : AtomMod) (word : Word96) (dst : Option Operand) (first : Nat) (lane : Nat → LStep) (s : State)
    (as : List LAcc) : State × Option Trap :=
  let n := if m.w64 then 8 else 4
  let s := if s.defer then s else (queuedAt s as n).foldl tryStep s
  let ks := as.map fun a => (a, lane a.lane)
  let r := if !stepsFree s x as n then (stepsLater x m word dst first ks s, (none : Option Trap))
    else
      let p := stepsNow x m ks [] s
      let s := match dst with
        | some o => wrFirst p.2.2 x o (8 * n) first p.1
        | none => p.2.2
      (s, if p.2.1.isEmpty then none else some (trapAt cDATA_POISON (maskOf p.2.1) 0))
  let w := watchAfter r.1 x true true n as
  (w.1, orTrap r.2 w.2)

/-- The ordering of an atomic: release part first (R222). -/
def atomOrder (x : Ix) (m : AtomMod) (s : State) (body : State → Res) : Res :=
  let acq (s : State) : Res := if ordAcquires m.ord then withAcquireLoad x m.sc { s with defer := false } body else body s
  let s := if m.ord = .relaxed then s else countClamp s x.ctx m.sc
  if ordReleases m.ord then withRelease x m.sc s acq else acq s

/-- ATOM, ATOMC and RED (R229). -/
def atomBody (i : Instr) (m : AtomMod) (a : Args) (cas : Bool) (dst : Option Operand) (x : Ix) (ls : List Nat) (s : State) : Res :=
  let n := if m.w64 then 8 else 4
  let form : TailForm := if cas then .d else .disp
  atomOrder x m s fun s =>
    globalAccess x .atomic n true true true (fun _ _ => false) (ls.map fun l => (l, atomVa s x a form l))
      (fun t as => atomLanes x m (encodeVamer i) dst (ls.headD 0) (laneStep s x a (8 * n) cas) t as) s

def execAtom (m : AtomMod) (x : Args) (s : State) : Host.Outcome State Fault Refusal :=
  vamer (.atom m x) x false (atomBody (.atom m x) m x false (some x.a)) s
def execAtomc (m : AtomMod) (x : Args) (s : State) : Host.Outcome State Fault Refusal :=
  vamer (.atomc m x) x false (atomBody (.atomc m x) m x true (some x.a)) s
def execRed (m : AtomMod) (x : Args) (s : State) : Host.Outcome State Fault Refusal :=
  vamer (.red m x) x false (atomBody (.red m x) m x false none) s

/-- ATOMU and REDU: one step at the address of the lowest enabled lane; a fault parks every enabled lane (R230). -/
def atomOne (i : Instr) (m : AtomMod) (a : Args) (dst : Option Operand) (val : State → Nat) (x : Ix) (ls : List Nat) (s : State) :
    Res :=
  let n := if m.w64 then 8 else 4
  let l := ls.headD 0
  let v := val s
  atomOrder x m s fun s =>
    match globalAccess x .atomic n true true true (fun _ _ => false) [(l, globVa s x a l)]
      (fun t as => atomLanes x m (encodeVamer i) dst l (fun l => ⟨l, none, v⟩) t as) s with
    | .done s ms t =>
      match ms with
      | (_, m) :: _ => .done s (ls.map fun j => (j, m)) t
      | [] => .done s [] t
    | r => r

def execAtomu (m : AtomMod) (x : Args) (s : State) : Host.Outcome State Fault Refusal :=
  vamer (.atomu m x) x false (fun ix ls s =>
    atomOne (.atomu m x) m x (some x.a) (fun s => src s ix x (if m.w64 then 64 else 32) .int x.c (ls.headD 0)) ix ls s) s

/-- REDU's reduction over the enabled lanes (R230): the fixed tree for the FP operations. -/
def reduVal (op : AOp) (w64 : Bool) (bs : List (Nat × Nat)) : Nat :=
  match op with
  | .fadd | .fmin | .fmax => (ftree (aopApply op w64) ((List.range 32).map fun i => valAt bs i)).getD 0
  | _ => match bs with
    | [] => 0
    | b :: t => t.foldl (fun v e => aopApply op w64 v e.2) b.2

def execRedu (m : AtomMod) (x : Args) (s : State) : Host.Outcome State Fault Refusal :=
  vamer (.redu m x) x false (fun ix ls s =>
    let n := if m.w64 then 64 else 32
    atomOne (.redu m x) m x none (fun s => reduVal m.op m.w64 (ls.map fun l => (l, src s ix x n .int x.c l))) ix ls s) s

/-! ### Scratchpad atomics (R224) -/

/-- One step at a scratchpad location; none where it is poisoned. -/
def scrStep (t : Train) (x : Ix) (m : AtomMod) (off : Nat) (k : LStep) : Option Nat × Train :=
  let n := if m.w64 then 8 else 4
  let g := scrGet t x.rank off n
  if g.poison then (none, t)
  else
    let old := leVal g.bytes
    (some old, scrStore t x.rank off (leBytes n (stepValue m.op m.w64 k.cmp old k.arg)) false (fidsOf x [k.lane]))

def scrSteps (x : Ix) (m : AtomMod) : List (Nat × LStep) → Train → List (Nat × Nat) × List Nat × Train
  | [], t => ([], [], t)
  | (off, k) :: r, t =>
    match scrStep t x m off k with
    | (some old, t) => let q := scrSteps x m r t; ((k.lane, old) :: q.1, q.2.1, q.2.2)
    | (none, t) => let q := scrSteps x m r t; (q.1, k.lane :: q.2.1, q.2.2)

/-- The old values and poisoned lanes, and the train afterwards. -/
def scrAtomics (s : State) (x : Ix) (m : AtomMod) (ks : List (Nat × LStep)) : List (Nat × Nat) × List Nat × State :=
  match mget s.trains x.ref.train with
  | none => ([], [], s)
  | some t => let r := scrSteps x m ks t; (r.1, r.2.1, setTrain s x.ref.train r.2.2)

/-- ATOMS, ATOMSC and REDS (R224, R229). -/
def atomScratch (m : AtomMod) (a : Args) (cas : Bool) (dst : Option Operand) (x : Ix) (ls : List Nat) (s : State) : Res :=
  let n := if m.w64 then 8 else 4
  let as := ls.map fun l => (l, offVa s x a (if cas then .d else .disp) l)
  match preCheck as n fun o => o + n ≤ x.tr.scratch with
  | some t => .trap t
  | none =>
    if as.any fun e => rangeBusy s x.core x.ref.train e.2 n then .wait .other id
    else
      let ks := as.map fun e => (e.2, laneStep s x a (8 * n) cas e.1)
      let go (s : State) : Res := afterScr x x.rank n as s fun s =>
        let r := scrAtomics (countRank s x x.rank n as) x m ks
        let s := match dst with
          | some o => wrFirst r.2.2 x o (8 * n) (ls.headD 0) r.1
          | none => r.2.2
        .done s [] (if r.2.1.isEmpty then none else some (trapAt cDATA_POISON (maskOf r.2.1) 0))
      if ordReleases m.ord then withRelease x .cl s go else go s

def execAtoms (m : AtomMod) (x : Args) (s : State) : Host.Outcome State Fault Refusal :=
  vamer (.atoms m x) x false (atomScratch m x false (some x.a)) s
def execAtomsc (m : AtomMod) (x : Args) (s : State) : Host.Outcome State Fault Refusal :=
  vamer (.atomsc m x) x false (atomScratch m x true (some x.a)) s
def execReds (m : AtomMod) (x : Args) (s : State) : Host.Outcome State Fault Refusal :=
  vamer (.reds m x) x false (atomScratch m x false none) s

/-! ### The home's queue -/

/-- A step that the adder tree takes (R221). -/
def treeStep (op : AOp) (a : AStep) : Bool := a.cmp.isNone && a.op = op && (op = .add || op = .fadd)

/-- The steps that the home retires together: a run of tree steps of one operation and width at the head of the queue,
at most 8; otherwise the head alone. -/
def retireRun : List AStep → List AStep
  | [] => []
  | a :: t =>
    if treeStep a.op a then ((a :: t).takeWhile fun b => treeStep a.op b && b.w64 = a.w64).take 8 else [a]

/-- HOME_ATOMIC (R221): the home of the word at machine address `i` retires at most `j` steps at the head of its queue. -/
def execHomeAtomic (s : State) : Host.Outcome State Fault Refusal :=
  let q := s.steps.filter fun a => overlap a.ma (if a.w64 then 8 else 4) (s.ev.i / 4 * 4) 4
  .next (((retireRun q).take s.ev.j).foldl tryStep s)

end Sys2Proof.Machine
end

