-- ==== Sys2Proof/Machine/Barriers.lean ====
section
/-! DEFINITION. Train and launch barriers (R243 to R248), barrier objects (R249 to R252) and yoke declarations (R253). -/

namespace Sys2Proof.Machine

open Sys2Proof

/-! ### Timed waits (R247) -/

/-- A timed wait: `fin` is what the instruction does with its result; the condition is tested before the deadline. -/
def timedWait (x : Ix) (n : Nat) (cond : Bool) (fin : Bool → Res) (s : State) : Res :=
  if cond then fin true
  else
    let d := x.fr.deadline.getD (s.rtime + rtCap n)
    if s.rtime ≥ d then fin false
    else .wait .other fun s => modFrag s x.ref fun f => { f with deadline := some d }

/-- TIMED_WAIT_DEADLINE (R247): fragment `frag`, whose deadline has been reached, takes the next turn. -/
def execTimedWaitDeadline (s : State) : Host.Outcome State Fault Refusal :=
  .next (match (s.frag? s.ev.frag).bind (·.deadline) with
    | some d => if d ≤ s.rtime then { s with agenda := .issue (.frag s.ev.frag) false :: s.agenda } else s
    | none => s)

/-! ### Train barriers -/

/-- The checks of an arrival with count `c` (R244). -/
def barCheck (x : Ix) (b c : Nat) (ls : List Nat) : Bool :=
  let r := x.tr.barrier b
  c ≤ 65537 && (r.narr = 0 || c = r.cnt) &&
    (if c = 0 then ls.all fun l => !((mget x.co.lanes l).map (·.arrived.getLsbD b)).getD false
     else r.narr + ls.length ≤ c)

def setArrived (b : Nat) (ls : List Nat) (co : Coach) : Coach :=
  ls.foldl (fun co l => modLane co l fun k => { k with arrived := k.arrived ||| (1#17 <<< b) }) co

/-- The arrival itself (R244). -/
def barArrive (s : State) (x : Ix) (b c : Nat) (ls : List Nat) : State :=
  let s := if c = 0 then modCoach s x.ref.train x.ref.coach (setArrived b ls) else s
  modTrain s x.ref.train fun t =>
    let r := t.barrier b
    Train.testBar { t with bars := mset t.bars b ⟨r.ph, c, r.narr + ls.length⟩ } b

/-- BAR and BARA (R246): the token goes to every enabled lane; `stay` makes the fragment wait on it. -/
def barBody (a : Args) (sc : Scope) (b : Nat) (stay : Bool) (x : Ix) (ls : List Nat) (s : State) : Res :=
  let c := src s x a 32 .int a.c (ls.headD 0)
  if !barCheck x b c ls then .trap (trapOf cBAR_COUNT)
  else
    withRelease x sc (countClamp s x.ctx sc) fun s =>
      let token := (x.tr.barrier b).ph
      let s := wr (barArrive s x b c ls) x a.a 32 (ls.map fun l => (l, token.toNat))
      .goOn s false fun f => if stay then { f with bar := some (false, b, token, sc) } else f

def execBar (sc : Scope) (n : BitVec 4) (x : Args) (s : State) : Host.Outcome State Fault Refusal :=
  vamer (.bar sc n x) x false (barBody x sc n.toNat true) s
def execBara (sc : Scope) (n : BitVec 4) (x : Args) (s : State) : Host.Outcome State Fault Refusal :=
  vamer (.bara sc n x) x false (barBody x sc n.toNat false) s

/-- PH differs from the token of every enabled lane. -/
def phaseLeft (s : State) (x : Ix) (a : Args) (o : Operand) (bits ph : Nat) (ls : List Nat) : Bool :=
  ls.all fun l => ph % 2 ^ bits ≠ src s x a 32 .int o l % 2 ^ bits

def execBarw (sc : Scope) (n : BitVec 4) (x : Args) (s : State) : Host.Outcome State Fault Refusal :=
  vamer (.barw sc n x) x false (fun ix ls s =>
    if phaseLeft s ix x x.b 32 (ix.tr.barrier n.toNat).ph.toNat ls then
      withAcquireLoad ix sc (countClamp s ix.ctx sc) fun s => .done s [] none
    else .wait .other id) s

/-- A timed wait writes its result to every enabled lane, and acquires when it is 1 (R247). -/
def timedResult (a : Args) (sc : Scope) (n : Nat) (cond : Bool) (x : Ix) (ls : List Nat) (s : State) : Res :=
  timedWait x n cond (fun r =>
    let fin (s : State) : Res := .done (wr s x a.a 32 (ls.map fun l => (l, if r then 1 else 0))) [] none
    let s := countClamp s x.ctx sc
    if r then withAcquireLoad x sc s fin else fin s) s

def execBart (sc : Scope) (n : BitVec 4) (x : Args) (s : State) : Host.Outcome State Fault Refusal :=
  vamer (.bart sc n x) x false (fun ix ls s =>
    timedResult x sc (src s ix x 32 .int x.c (ls.headD 0)) (phaseLeft s ix x x.b 32 (ix.tr.barrier n.toNat).ph.toNat ls) ix ls s) s

/-! ### The launch-wide barrier -/

def gbarScope (sy : Bool) : Scope := if sy then .sy else .pt

/-- GBAR (R248). -/
def execGbar (sy nw : Bool) (x : Args) (s : State) : Host.Outcome State Fault Refusal :=
  vamer (.gbar sy nw x) x false (fun ix ls s =>
    let sc := gbarScope sy
    if !ix.tr.gbar then .trap (trapOf cLAUNCH_BARRIER)
    else if ls.any fun l => ((mget ix.co.lanes l).map (·.arrived.getLsbD 16)).getD false then .trap (trapOf cBAR_COUNT)
    else
      withRelease ix sc (countClamp s ix.ctx sc) fun s =>
        let k := lbarKey ix.tr
        let token := (lbarOf s k).ph
        let s := modCoach s ix.ref.train ix.ref.coach (setArrived 16 ls)
        let s := testLaunch (arriveLaunch s ix.ref.train) k
        let s := wr s ix x.a 32 (ls.map fun l => (l, token.toNat))
        .goOn s false fun f => if nw then f else { f with bar := some (true, 0, token, sc) }) s

/-- GBART (R248). -/
def execGbart (sy : Bool) (x : Args) (s : State) : Host.Outcome State Fault Refusal :=
  vamer (.gbart sy x) x false (fun ix ls s =>
    if !ix.tr.gbar then .trap (trapOf cLAUNCH_BARRIER)
    else
      timedResult x (gbarScope sy) (src s ix x 32 .int x.c (ls.headD 0))
        (phaseLeft s ix x x.b 32 (lbarOf s (lbarKey ix.tr)).ph.toNat ls) ix ls s) s

/-! ### Barrier objects -/

/-- The object's offset, from the lowest enabled lane, after its checks; the object must not be poisoned (R251). -/
def onObject (a : Args) (form : TailForm) (x : Ix) (ls : List Nat) (s : State) (f : Nat → MbObj → Res) : Res :=
  let l := ls.headD 0
  let o := offVa s x a form l
  match orTrap (if o % 16 ≠ 0 then some (trapAt cMEM_ALIGN (bitOf l) (w64 o)) else none)
      (if o + 16 > x.tr.scratch then some (trapAt cMEM_RANGE (bitOf l) (w64 o)) else none) with
  | some t => .trap t
  | none =>
    if mbPoison x.tr x.rank o then .done s [] (some (trapAt cDATA_POISON (bitOf l) 0)) else f o (mbGet x.tr x.rank o)

/-- MBINIT (R251); it writes the object whole, poison and all. -/
def execMbinit (x : Args) (s : State) : Host.Outcome State Fault Refusal :=
  vamer (.mbinit x) x false (fun ix ls s =>
    let l := ls.headD 0
    let o := offVa s ix x .disp l
    let c := src s ix x 32 .int x.c l
    if o % 16 ≠ 0 then .trap (trapAt cMEM_ALIGN (bitOf l) (w64 o))
    else if o + 16 > ix.tr.scratch then .trap (trapAt cMEM_RANGE (bitOf l) (w64 o))
    else if c = 0 || c > 65535 then .trap (trapOf cMB_STATE)
    else .done (modTrain (settleX ix s) ix.ref.train fun t => mbPut t ix.rank o ⟨0, 0, c, c, 0⟩) [] none) s

/-- The phase count goes to every enabled lane as a token. -/
def giveToken (s : State) (x : Ix) (o : Operand) (ph : Nat) (ls : List Nat) : State := wr s x o 32 (ls.map fun l => (l, ph))

/-- MBARR (R251). -/
def execMbarr (sc : Scope) (u : Bool) (x : Args) (s : State) : Host.Outcome State Fault Refusal :=
  vamer (.mbarr sc u x) x false (fun ix ls s =>
    onObject x .disp ix ls s fun o b =>
      if b.init = 0 then .trap (trapOf cMB_STATE)
      else
        withRelease ix sc (countClamp s ix.ctx sc) fun s =>
          let s := modMb s ix.ref.train ix.rank o fun b => b.arrive (if u then 1 else ls.length)
          .done (giveToken s ix x.a b.ph ls) [] none) s

/-- MBEXP (R251). -/
def execMbexp (sc : Scope) (arr : Bool) (x : Args) (s : State) : Host.Outcome State Fault Refusal :=
  vamer (.mbexp sc arr x) x false (fun ix ls s =>
    onObject x .disp ix ls s fun o b =>
      let n := src s ix x 32 .int x.c (ls.headD 0)
      if !arr then .done (modMb (settleX ix s) ix.ref.train ix.rank o fun b => b.expect n) [] none
      else if b.init = 0 then .trap (trapOf cMB_STATE)
      else
        withRelease ix sc (countClamp s ix.ctx sc) fun s =>
          let s := modMb s ix.ref.train ix.rank o fun b => (b.expect n).arrive 1
          .done (giveToken s ix x.a b.ph ls) [] none) s

/-- MBWAIT (R251, R252). -/
def execMbwait (sc : Scope) (x : Args) (s : State) : Host.Outcome State Fault Refusal :=
  vamer (.mbwait sc x) x false (fun ix ls s =>
    onObject x .disp ix ls s fun _ b =>
      if phaseLeft s ix x x.c 16 b.ph ls then withAcquireLoad ix sc (countClamp s ix.ctx sc) fun s => .done s [] none
      else .wait .other id) s

/-- MBTRY (R251): PH is sampled once; each lane has its own result. -/
def execMbtry (sc : Scope) (x : Args) (s : State) : Host.Outcome State Fault Refusal :=
  vamer (.mbtry sc x) x false (fun ix ls s =>
    onObject x .disp ix ls s fun _ b =>
      let rs := ls.map fun l => (l, if phaseLeft s ix x x.c 16 b.ph [l] then 1 else 0)
      let fin (s : State) : Res := .done (wr s ix x.a 32 rs) [] none
      let s := countClamp s ix.ctx sc
      if rs.any fun r => r.2 = 1 then withAcquireLoad ix sc s fin else fin s) s

/-- MBTW (R251). -/
def execMbtw (sc : Scope) (x : Args) (s : State) : Host.Outcome State Fault Refusal :=
  vamer (.mbtw sc x) x false (fun ix ls s =>
    onObject x .d ix ls s fun _ b =>
      timedResult x sc (src s ix x 32 .int x.d (ls.headD 0)) (phaseLeft s ix x x.c 16 b.ph ls) ix ls s) s

/-! ### Yokes -/

def Yoke.init : Yoke := ⟨0, [], 0, 0, (0, 0), [], []⟩

/-- A yoke of a train's core rank; count 0 is undeclared. -/
def Train.yoke (t : Train) (rank n : Nat) : Yoke := mgetD (mgetD t.yk rank []) n Yoke.init
def Train.setYoke (t : Train) (rank n : Nat) (y : Yoke) : Train := { t with yk := mset t.yk rank (mset (mgetD t.yk rank []) n y) }

def yokeNo : Operand → Nat
  | .yoke n => n.toNat
  | _ => 0

/-- YOKE.DECL (R253). -/
def execYokeDecl (x : Args) (s : State) : Host.Outcome State Fault Refusal :=
  vamer (.yokeDecl x) x false (fun ix ls s =>
    let n := yokeNo x.b
    let c := src s ix x 32 .int x.c (ls.headD 0)
    if c = 0 || c > 4096 then .trap (trapOf cYOKE_COUNT)
    else if !(ix.tr.yoke ix.rank n).signed.isEmpty then .wait .other id
    else .done (modTrain s ix.ref.train fun t => t.setYoke ix.rank n { t.yoke ix.rank n with count := c }) [] none) s

/-- YOKE.RST (R253): the signatures are discarded and the yoke is undeclared. -/
def execYokeRst (x : Args) (s : State) : Host.Outcome State Fault Refusal :=
  vamer (.yokeRst x) x false (fun ix _ s =>
    .done (modTrain s ix.ref.train fun t => t.setYoke ix.rank (yokeNo x.b) Yoke.init) [] none) s

end Sys2Proof.Machine
end

