-- ==== Sys2Proof/Machine/Casks.lean ====
section
/-! DEFINITION. Cask instructions (R231 to R242), and the retry of a waiting cask operation (R233). -/

namespace Sys2Proof.Machine

open Sys2Proof

/-- Codes of the gather operations (R239). -/
def gopCode : GOp → Nat
  | .add => 0 | .smin => 1 | .smax => 2 | .umin => 3 | .umax => 4 | .and => 5 | .or => 6 | .fadd => 8 | .fmin => 9 | .fmax => 10

def gopFloat : GOp → Bool
  | .fadd | .fmin | .fmax => true
  | _ => false

/-- Combine of R239 on the 64-bit value. -/
def gopApply (op : GOp) (x v : Nat) : Nat :=
  match op with
  | .add => (x + v) % 2 ^ 64
  | .smin => if sval 64 x ≤ sval 64 v then x else v
  | .smax => if sval 64 x ≤ sval 64 v then v else x
  | .umin => min x v
  | .umax => max x v
  | .and => x &&& v
  | .or => x ||| v
  | .fadd => fadd32 (x % 2 ^ 32) (v % 2 ^ 32)
  | .fmin => fminmax .fp32 false false false (x % 2 ^ 32) (v % 2 ^ 32)
  | .fmax => fminmax .fp32 true false false (x % 2 ^ 32) (v % 2 ^ 32)

def gopIdentity : GOp → Nat
  | .add | .umax | .or => 0
  | .smin => 0x7FFFFFFFFFFFFFFF
  | .smax => 0x8000000000000000
  | .umin | .and => 0xFFFFFFFFFFFFFFFF
  | .fadd => 0x80000000
  | .fmin => 0x7F800000
  | .fmax => 0xFF800000

/-! ### State changes (R234) -/

def Cask.fill (c : Cask) (v n : Nat) : Cask := { c with value := w64 v, f := true, rc := n, poison := false }
def Cask.seed (c : Cask) (op : GOp) (m n : Nat) : Cask :=
  { c with value := w64 (gopIdentity op), gop := op, pend := m, rc := n, g := m ≠ 0, f := m = 0, poison := false }
def Cask.contribute (c : Cask) (v : Nat) : Cask :=
  { c with value := w64 (gopApply c.gop c.value.toNat v), pend := c.pend - 1, g := c.pend ≠ 1, f := c.pend = 1 }

/-- The target's number on the cluster (R237). -/
def targetOf (s : State) (x : Ix) (a : Args) : Option Nat :=
  match a.b with
  | .k n _ => caskIndex s x.ctx x.cluster n.toNat
  | _ => none

/-- An operation on the target that waits while its need is not met (R233, R234). -/
def onTarget (a : Args) (need : Need) (x : Ix) (s : State) (f : Nat → Cask → State → Res) : Res :=
  match targetOf s x a with
  | none => .trap ((trapOf cCASK_RANGE).onField .b)
  | some k => if caskReady s x [(k, need)] then f k (caskGet s x.cluster k) s else .wait (.cask x.cluster [(k, need)]) id

/-- A reading of the target by the enabled lanes: a poisoned one leaves the destinations unchanged (R198, log 92). -/
def caskRead (c : Cask) (ls : List Nat) (s s' : State) : Res :=
  if c.poison then .done s [] (some (trapAt cDATA_POISON (maskOf ls) 0)) else .done s' [] none

/-- A change of an empty target, which is a release at `.cl` (R236). -/
def releasing (a : Args) (x : Ix) (s : State) (f : Cask → Cask) : Res :=
  onTarget a .empty x s fun k c s => withRelease x .cl s fun s => .done (caskPut s x.cluster k (f c)) [] none

def execCkfill (w64 : Bool) (n : Byte) (x : Args) (s : State) : Host.Outcome State Fault Refusal :=
  vamer (.ckfill w64 n x) x false (fun ix ls s =>
    let v := src s ix x (wbits w64) .int x.c (ls.headD 0)
    releasing x ix s fun c => c.fill v n.toNat) s

/-- The cask's value at the width of the instruction, to every enabled lane. -/
def spread (w64 : Bool) (c : Cask) (ls : List Nat) : List (Nat × Nat) := ls.map fun l => (l, c.value.toNat % 2 ^ wbits w64)

def execCkdraw (w64 : Bool) (x : Args) (s : State) : Host.Outcome State Fault Refusal :=
  vamer (.ckdraw w64 x) x false (fun ix ls s =>
    onTarget x .full ix s fun k c s =>
      let s := caskPut s ix.cluster k c.draw
      caskRead c ls s (wr s ix x.a (wbits w64) (spread w64 c ls))) s

def execCkpeek (w64 : Bool) (x : Args) (s : State) : Host.Outcome State Fault Refusal :=
  vamer (.ckpeek w64 x) x false (fun ix ls s =>
    onTarget x .full ix s fun _ c s => caskRead c ls s (wr s ix x.a (wbits w64) (spread w64 c ls))) s

/-- CKTRY (R238). Its turn goes by while an operation that waited earlier is to be accepted first (R233). -/
def execCktry (w64 obs : Bool) (pd : BitVec 4) (x : Args) (s : State) : Host.Outcome State Fault Refusal :=
  vamer (.cktry w64 obs pd x) x false (fun ix ls s =>
    match targetOf s ix x with
    | none => .trap ((trapOf cCASK_RANGE).onField .b)
    | some k =>
      let c := caskGet s ix.cluster k
      if !c.f then .done (wrPred s ix pd (ls.map fun l => (l, false))) [] none
      else if !caskReady s ix [(k, .full)] then .wait .other id
      else
        let s := if obs then s else caskPut s ix.cluster k c.draw
        caskRead c ls s (wrPred (wr s ix x.a (wbits w64) (spread w64 c ls)) ix pd (ls.map fun l => (l, true)))) s

def execCkseed (op : GOp) (x : Args) (s : State) : Host.Outcome State Fault Refusal :=
  vamer (.ckseed op x) x false (fun ix ls s =>
    let m := src s ix x 32 .int x.c (ls.headD 0)
    if m > 255 then .trap (trapOf cCASK_COUNT)
    else releasing x ix s fun c => c.seed op m (x.xmod.extractLsb' 0 8).toNat) s

/-- The contribution of an issue (R241). -/
def ckredVal (op : GOp) (w64 : Bool) (bs : List (Nat × Nat)) : Nat :=
  if gopFloat op then (ftree (gopApply op) ((List.range 32).map fun i => valAt bs i)).getD 0
  else
    let ext (v : Nat) : Nat :=
      match op with
      | .add | .smin | .smax => if w64 then v else pat 64 (sval 32 v)
      | _ => v
    match bs with
    | [] => 0
    | b :: t => t.foldl (fun v e => gopApply op v (ext e.2)) (ext b.2)

def execCkred (op : GOp) (w64 : Bool) (x : Args) (s : State) : Host.Outcome State Fault Refusal :=
  vamer (.ckred op w64 x) x false (fun ix ls s =>
    let v := ckredVal op w64 (ls.map fun l => (l, src s ix x (wbits w64) .int x.c l))
    onTarget x .gathering ix s fun k c s =>
      if c.gop ≠ op then .trap (trapOf cCASK_MISMATCH)
      else withRelease ix .cl s fun s => caskRead c ls s (caskPut s ix.cluster k (c.contribute v))) s

def execCkclr (x : Args) (s : State) : Host.Outcome State Fault Refusal :=
  vamer (.ckclr x) x false (fun ix _ s =>
    match targetOf s ix x with
    | none => .trap ((trapOf cCASK_RANGE).onField .b)
    | some k =>
      .done (caskPut s ix.cluster k { caskGet s ix.cluster k with f := false, g := false, pend := 0, rc := 0, value := 0, poison := false }) [] none) s

/-- The state word (R242). -/
def ckstatVal (c : Cask) : Nat :=
  (if c.f then 2 ^ 31 else 0) + (if c.g then 2 ^ 30 + 2 ^ 26 * gopCode c.gop + 2 ^ 16 * c.pend else 0) + 2 ^ 8 * c.rc

def execCkstat (x : Args) (s : State) : Host.Outcome State Fault Refusal :=
  vamer (.ckstat x) x false (fun ix ls s =>
    match targetOf s ix x with
    | none => .trap ((trapOf cCASK_RANGE).onField .b)
    | some k => .done (wr s ix x.a 32 (ls.map fun l => (l, ckstatVal (caskGet s ix.cluster k)))) [] none) s

/-! ### Retry -/

/-- Agents that wait on casks of a cluster, with the numbers of their waits and their needs. -/
def caskWaiters (s : State) (cl : Nat) : List (Nat × Agent × List (Nat × Need)) :=
  let hit (a : Agent) (o : Option (Nat × WaitOn)) : Option (Nat × Agent × List (Nat × Need)) :=
    match o with
    | some (n, .cask c ms) => if c = cl then some (n, a, ms) else none
    | _ => none
  s.trains.flatMap fun e =>
    if e.2.res = .resident && !e.2.held && ctxRuns s e.2.ctx then
      ((e.2.fragRefs e.1).filterMap fun r => (s.frag? r).bind fun f => if f.park.isNone then hit (.frag r) f.wait else none) ++
      e.2.drays.filterMap fun d => hit (.dray e.1 (d.1 / 2) (d.1 % 2)) d.2.wait
    else []

/-- CASK_RETRY (R233): of the operations that wait on cask `j` of cluster `i` and can be accepted, the one that waited first
takes the next turn. -/
def execCaskRetry (s : State) : Host.Outcome State Fault Refusal :=
  let ws := (caskWaiters s s.ev.i).filter fun w => w.2.2.any (fun m => m.1 = s.ev.j) && needsMet s s.ev.i w.2.2
  let first := ws.foldl (fun (b : Option (Nat × Agent)) w =>
    match b with
    | some (n, _) => if w.1 < n then some (w.1, w.2.1) else b
    | none => some (w.1, w.2.1)) none
  .next (match first with
    | some (_, a) => { s with agenda := .issue a false :: s.agenda }
    | none => s)

end Sys2Proof.Machine
end

