-- ==== Sys2Proof/Machine/Copy.lean ====
section
/-! DEFINITION. Class 0x9 and the copy and DMA engines (R257 to R281), with the events of copies in flight. -/

namespace Sys2Proof.Machine

open Sys2Proof

/-! ### Host memory (R271; log 11) -/

def hostRead (s : State) (bus n : Nat) : List Byte :=
  (List.range n).map fun i => (mget s.host.mem (bus + i)).getD (Config.hostByte (bus + i))
def hostWrite (s : State) (bus : Nat) (bs : List Byte) : State :=
  modHost s fun h => { h with
    mem := (List.range bs.length).foldl (fun m i => mset m (bus + i) (bs.getD i 0)) h.mem
    memBad := h.memBad.filter fun a => a < bus || bus + bs.length ≤ a }
/-- Marks of poison follow their bytes into host memory (R197). -/
def hostPoison (s : State) (bus : Nat) (bad : List Nat) : State :=
  if bad.isEmpty then s else modHost s fun h => { h with memBad := bad.map (bus + ·) ++ h.memBad }
/-- Marked bytes among `n` of host memory. -/
def hostBad (s : State) (bus n : Nat) : List Nat := (List.range n).filter fun i => s.host.memBad.contains (bus + i)
/-- An X-die's port has a link (R438). -/
def portUp (s : State) (x : Nat) : Bool := (mget s.host.pcie x).isSome
/-- Host bus address of a machine address of region 10 (R21). -/
def busOf (ma : Nat) : Nat := nbits ma 0 42

/-! ### Hand-over -/

/-- A train waits while all 32 slots of its core are occupied (R261). -/
def withSlot (x : Ix) (s : State) (f : Nat → Res) : Res :=
  match freeEngineSlot s x.core with
  | none => .wait (.slots x.core) fun s =>
    match x.fr.wait with
    | some (_, .slots _) => s
    | _ => countEvent s x.ctx 0x021 x.core (fun c => relCore s c x.core) 1
  | some k => f k

/-- COPY_DESC with its reason (R259, R404). -/
def descTrap (reason : Nat) : Trap := { trapOf cCOPY_DESC with d0 := w64 reason }

/-- One copy is checked and accepted (R276, R280). -/
def handCopy (d : Desc) (kinds : List Nat) (x : Ix) (s : State) : Res :=
  let reason := d.check x.tr x.rank kinds
  if reason ≠ 0 then .trap (descTrap reason)
  else
    withSlot x s fun k =>
      withRelease x (if d.globalLocal then .pt else .cl) s fun s =>
        .done (acceptWork s x.core k x.ref.train x.ctx x.rank (.copy d) none false) [] none

def cpyCode : CpyKind → Nat
  | .g2s => 0 | .s2g => 1 | .c2s => 2 | .s2x => 3

/-- CPY (R276): a global side is a 64-bit pair. -/
def execCpy (kind : CpyKind) (xe : Bool) (x : Args) (s : State) : Host.Outcome State Fault Refusal :=
  vamer (.cpy kind xe x) x false (fun ix ls s =>
    let l := ls.headD 0
    let v (o : Operand) (wide : Bool) : Nat := src s ix x (if wide then 64 else 32) .int o l
    handCopy (Desc.simple (cpyCode kind) xe false false (nbits x.xmod.toNat 0 4) (v x.a false) (v x.d false)
      (v x.c (kind = .s2g)) (v x.b (kind = .g2s))) [0, 1, 2, 3, 4] ix s) s

/-- CPYF (R276). -/
def execCpyf (xe : Bool) (x : Args) (s : State) : Host.Outcome State Fault Refusal :=
  vamer (.cpyf xe x) x false (fun ix ls s =>
    let l := ls.headD 0
    let v (o : Operand) : Nat := src s ix x 32 .int o l
    handCopy (Desc.simple 4 xe false false 0 (v x.a) (v x.d) (v x.b) (v x.c)) [0, 1, 2, 3, 4] ix s) s

/-- CPYP (R276): the descriptor read is a scratchpad load. -/
def execCpyp (x : Args) (s : State) : Host.Outcome State Fault Refusal :=
  vamer (.cpyp x) x false (fun ix ls s =>
    let l := ls.headD 0
    let o := offVa s ix x .disp l
    if o % 16 ≠ 0 then .trap (trapAt cMEM_ALIGN (bitOf l) (w64 o))
    else if o + 64 > ix.tr.scratch then .trap (trapAt cMEM_RANGE (bitOf l) (w64 o))
    else if rangeBusy s ix.core ix.ref.train o 64 then .wait .other id
    else
      let g := scrGet ix.tr ix.rank o 64
      if g.poison then .done s [] (some (trapAt cDATA_POISON (bitOf l) 0))
      else handCopy (descOf g.bytes) [0, 1, 2, 3, 4] ix s) s

/-- CPYL and XCPYL (R277): the list is checked and the kick register written. -/
def handList (a : Args) (xl : Bool) (x : Ix) (ls : List Nat) (s : State) : Res :=
  let off := src s x a 32 .int a.b (ls.headD 0)
  let cnt := src s x a 32 .int a.c (ls.headD 0)
  let reason := listCheck x.tr off cnt
  if reason ≠ 0 then .trap (descTrap reason)
  else
    withSlot x s fun k =>
      withRelease x (if xl then .pt else .cl) s fun s =>
        .done (acceptList s x.core k x.ref.train x.ctx x.rank off cnt xl) [] none

def execCpyl (x : Args) (s : State) : Host.Outcome State Fault Refusal :=
  vamer (.cpyl x) x false (handList x false) s
def execXcpyl (x : Args) (s : State) : Host.Outcome State Fault Refusal :=
  vamer (.xcpyl x) x false (handList x true) s

/-- CPYQ (R278). -/
def execCpyq (x : Args) (s : State) : Host.Outcome State Fault Refusal :=
  vamer (.cpyq x) x false (fun ix ls s =>
    .done (wr s ix x.a 32 (ls.map fun l => (l, engineWord s ix.core ix.ref.train))) [] none) s

/-- CPWAIT (R279). -/
def execCpwait (sc : Scope) (x : Args) (s : State) : Host.Outcome State Fault Refusal :=
  vamer (.cpwait sc x) x false (fun ix ls s =>
    if mineSlots s ix.core ix.ref.train ≤ src s ix x 32 .int x.c (ls.headD 0) then
      withAcquireLoad ix sc (countClamp s ix.ctx sc) fun s => .done s [] none
    else .wait .other id) s

/-- XCPY (R280): the local side is B, the remote side C. -/
def execXcpy (dirIn ls xe kr : Bool) (x : Args) (s : State) : Host.Outcome State Fault Refusal :=
  vamer (.xcpy dirIn ls xe kr x) x false (fun ix lanes s =>
    let l := lanes.headD 0
    let loc := src s ix x (if ls then 32 else 64) .int x.b l
    let rem := src s ix x 64 .int x.c l
    handCopy (Desc.simple (if dirIn then 6 else 5) xe ls kr 0 (src s ix x 32 .int x.a l) (src s ix x 32 .int x.d l)
      (if dirIn then loc else rem) (if dirIn then rem else loc)) [5, 6] ix s) s

/-- The word of XSTAT (R281). -/
def xstatVal (s : State) (ctx n : Nat) : Nat :=
  if n ≥ 4096 then 0
  else match mget (s.ctx ctx).endpoints n with
    | none => 0
    | some e => 2 ^ 31 + (if mgetD s.host.links e.port false then 2 ^ 30 else 0) + e.err.toNat

def execXstat (x : Args) (s : State) : Host.Outcome State Fault Refusal :=
  vamer (.xstat x) x false (fun ix ls s =>
    .done (wr s ix x.a 32 (ls.map fun l => (l, xstatVal s ix.ctx (src s ix x 32 .int x.b (ls.headD 0))))) [] none) s

/-! ### A copy in flight -/

/-- The end of a chunk, or of one of its sides. -/
inductive Chunk (α : Type) where
  | ok (a : α) (s : State)
  /-- It cannot proceed now. -/
  | hold
  /-- A translation or grant fault: the slot is held until REPLAY.ALL (R266). -/
  | fault (s : State)
  /-- COPY_FAULT with its reason, address and access (R267). -/
  | fail (reason va acc : Nat) (s : State)

/-- A copy crosses the package boundary. -/
def Desc.isDma (d : Desc) : Bool := d.kind = 5 || d.kind = 6

def copyEngineCode (d : Desc) : BitVec 4 := if d.isDma then 4 else 2

/-- The report of a page or grant fault of a copy (R266, R409). -/
def copyReport (s : State) (sl : Slot) (d : Desc) (va : Nat) (acc : Access) : Report :=
  let base := match mget s.trains sl.train with
    | some t => reportTrain s t
    | none => Report.blank s sl.ctx
  { base with
    va := w64 va, access := accCode acc, engine := copyEngineCode d, frag := 0xFF
    rank := BitVec.ofNat 8 sl.rank, refault := sl.refault }

/-- Translation of one global or host chunk (R266, R259). -/
def copyXlate (s : State) (core : Nat) (sl : Slot) (d : Desc) (va : Nat) (acc : Access) (host : Bool) : Chunk (Nat × Byte) :=
  let a := (accCode acc).toNat
  if !canonical va then .fail 8 va a s
  else
    match xlate s (core / 4) (some core) sl.ctx va acc sl.refault true with
    | (.ok ma key, s) =>
      if host then (if isHost ma then .ok (ma, key) s else .fail 8 va a s)
      else if isCellar ma then
        (if acc = .copyWrite then .fail 9 va a s
         else if d.isDma && (partDies s (partitionOf s sl.ctx)).isEmpty then .fail 8 va a s else .ok (ma, key) s)
      else if !isHbm ma then .fail 8 va a s
      else if keyConflict s ma key then .fail 10 va a s
      else .ok (ma, key) s
    | (.behind, s) => .fault (countEvent s sl.ctx 0x051 (core / 4) (fun c => relCluster s c (core / 4)) 1)
    | (.held, _) => .hold
    | (.page level fmt cpa key, s) =>
      let s := addMark s (core / 4) sl.ctx (va55 va / 65536)
      .fault (bufferEntry s sl.ctx (core / 48) (core / 4)
        { copyReport s sl d va acc with
          code := BitVec.ofNat 16 cPAGE_FAULT, cpa := w64 cpa, level := BitVec.ofNat 4 level, fmt := fmt, key := key })
    | (.grant level owner opa cpa key, s) =>
      .fault (sendReport s owner
        { copyReport s sl d va acc with
          ty := 1, aux := w64 opa, cpa := w64 cpa, level := BitVec.ofNat 4 level, key := key })

/-- The endpoint of a peer address (R271): absent is reason 0xB, a port without a link 0xC. -/
def peerCheck (s : State) (sl : Slot) (a acc : Nat) : Chunk Unit :=
  if nbits a 60 4 ≠ 0 then .fail 11 0 acc s
  else match mget (s.ctx sl.ctx).endpoints (nbits a 48 12) with
    | none => .fail 11 0 acc s
    | some e => if mgetD s.host.links e.port false then .ok () s else .fail 12 0 acc s

/-- The X-die whose port carries a context's host-side requests: that of its lowest function, X-die 0 for the root and for a
context without one (R272, R440; log 23). -/
def hostPort (s : State) (c : Nat) : Nat := ((s.host.vf.find? fun e => e.2 = c).map fun e => e.1 / 65536).getD 0

/-- A host-side request without a link ends with reason 0xC (R267). -/
def hostCheck (s : State) (sl : Slot) (va acc : Nat) : Chunk Unit :=
  if portUp s (hostPort s sl.ctx) then .ok () s else .fail 12 va acc s

/-- A cellar chunk in a refreshing bank waits (R196). -/
def cellarBusy (s : State) (die off : Nat) : Bool := nbits off 24 6 = (crefOf s die).1

/-- A request of up to 256 bytes at the home, with its first chunk (R370). -/
def homeUnit (s : State) (sl : Slot) (ma : Nat) : State := if sl.moved % 16 = 0 then homeAccess s sl.ctx ma 1 else s

/-- The bytes of a chunk and the positions of the poisoned ones: the mark travels with the byte (R197). -/
structure Marked where
  bytes : List Byte
  bad : List Nat

def Marked.clean (bs : List Byte) : Marked := ⟨bs, []⟩
/-- 16 bytes, `read` giving each with its mark. -/
def blockOf16 (read : Nat → Got) : Marked :=
  ⟨(List.range 16).flatMap fun i => (read i).bytes, (List.range 16).filter fun i => (read i).poison⟩

/-- The C-die whose cellar serves a copy (R195): the core's own; for a DMA engine one of the context's partition. -/
def servingDie (s : State) (core : Nat) (sl : Slot) (d : Desc) : Nat :=
  if d.isDma then
    let ds := partDies s (partitionOf s sl.ctx)
    ds.getD (Config.servingDie s.fresh % ds.length) 0
  else core / 48

/-- A chunk of the cellar. -/
def cellarChunk (s : State) (die off : Nat) : Chunk Marked :=
  if cellarBusy s die off then .hold else .ok (blockOf16 fun i => cellarRead s die (off + i) 1) s

/-- The 16 source bytes of a chunk at offset `o`. -/
def readChunk (s : State) (core : Nat) (sl : Slot) (d : Desc) (o : Nat) : Chunk Marked :=
  match d.sides.1 with
  | .pattern => .ok (.clean ((List.range 4).flatMap fun _ => leBytes 4 d.src.toNat)) s
  | .scr | .far =>
    match mget s.trains sl.train with
    | some t => .ok (blockOf16 fun i => scrGet t sl.rank (o + i) 1) s
    | none => .hold
  | .cellar => cellarChunk s (core / 48) o
  | .glob =>
    match copyXlate s core sl d o .copyRead false with
    | .ok (ma, key) s =>
      if isCellar ma then cellarChunk s (servingDie s core sl d) (nbits ma 0 30)
      else
        let r := loadBypass (homeUnit s sl ma) (core / 4) ma 16 key
        .ok ⟨r.1.bytes, (List.range 16).filter fun i => isPoison r.2 (ma + i)⟩ r.2
    | .hold => .hold
    | .fault s => .fault s
    | .fail r v a s => .fail r v a s
  | .remote =>
    if d.kr then
      match peerCheck s sl o 4 with
      | .ok _ s => .ok (.clean ((List.range 16).map fun i => Config.peerByte (s.fresh + i))) { s with fresh := s.fresh + 16 }
      | .hold => .hold
      | .fault s => .fault s
      | .fail r v a s => .fail r v a s
    else
      match copyXlate s core sl d o .copyRead true with
      | .ok (ma, _) s =>
        match hostCheck s sl o 4 with
        | .ok _ s => .ok ⟨hostRead s (busOf ma) 16, hostBad s (busOf ma) 16⟩ s
        | .hold => .hold
        | .fault s => .fault s
        | .fail r v a s => .fail r v a s
      | .hold => .hold
      | .fault s => .fault s
      | .fail r v a s => .fail r v a s
  | .none => .hold

/-- A chunk written to the scratchpad; MMAs received before its copy was accepted take note (R299, R300). -/
def copyPut (t : Train) (rank o : Nat) (g : Marked) (late : MmaRec → Bool) : Train :=
  noteScr (g.bad.foldl (fun t i => scrPut t rank (o + i) [g.bytes.getD i 0] true) (scrPut t rank o g.bytes false)) rank o 16 [] late

/-- A chunk written at home. -/
def homeChunk (s : State) (cl ma : Nat) (g : Marked) (key : Byte) : State :=
  g.bad.foldl (fun s i => storeBypass s cl (ma + i) [g.bytes.getD i 0] key true) (storeBypass s cl ma g.bytes key false)

/-- The chunk is written at offset `o` of the destination. -/
def writeChunk (s : State) (core : Nat) (sl : Slot) (d : Desc) (o : Nat) (g : Marked) : Chunk Unit :=
  match d.sides.2 with
  | .scr => .ok () (modTrain s sl.train fun t => copyPut t sl.rank o g (fun r => r.copies ≤ sl.seq))
  | .far => .ok () (modTrain s sl.train fun t => copyPut t d.rank.toNat o g (fun _ => true))
  | .glob =>
    match copyXlate s core sl d o .copyWrite false with
    | .ok (ma, key) s => .ok () (homeChunk (homeUnit s sl ma) (core / 4) ma g key)
    | .hold => .hold
    | .fault s => .fault s
    | .fail r v a s => .fail r v a s
  | .remote =>
    if d.kr then peerCheck s sl o 5
    else
      match copyXlate s core sl d o .copyWrite true with
      | .ok (ma, _) s =>
        match hostCheck s sl o 5 with
        | .ok _ s => .ok () (hostPoison (hostWrite s (busOf ma) g.bytes) (busOf ma) g.bad)
        | .hold => .hold
        | .fault s => .fault s
        | .fail r v a s => .fail r v a s
      | .hold => .hold
      | .fault s => .fault s
      | .fail r v a s => .fail r v a s
  | _ => .hold

/-- Address or offset of chunk `k` on a side; global sides wrap at 2^64. -/
def Desc.at (d : Desc) (dst : Bool) (k : Nat) : Nat := pat 64 ((if dst then d.dst.toNat else d.src.toNat : Nat) + d.offset dst k)

/-- A chunk performed before stands later in the loop order and has the same destination: its value stays (R260). -/
def Slot.superseded (sl : Slot) (d : Desc) (k : Nat) : Bool := sl.ahead.any fun j => j > k && d.at true j = d.at true k

/-- One chunk moves (R260). -/
def moveChunk (s : State) (core : Nat) (sl : Slot) (d : Desc) (k : Nat) : Chunk Unit :=
  match readChunk s core sl d (d.at false k) with
  | .ok g s => if sl.superseded d k then .ok () s else writeChunk s core sl d (d.at true k) g
  | .hold => .hold
  | .fault s => .fault s
  | .fail r v a s => .fail r v a s

/-- A copy reads or writes at the home. -/
def Desc.usesHome (d : Desc) : Bool := d.sides.1 = .glob || d.sides.2 = .glob

/-- The rank on which each scratchpad hull of a copy lies. -/
def Slot.hulls (sl : Slot) : List (Nat × Int × Int) :=
  match sl.work with
  | .copy d => d.scrHulls.map fun h => (if h.1 then d.rank.toNat else sl.rank, h.2)
  | .list .. => []

/-- Another slot keeps this one from starting: an earlier copy with an overlapping scratchpad hull (R264), or the previous
entry of its XCPYL list (R272). -/
def slotHeld (s : State) (core slot : Nat) (sl : Slot) : Bool :=
  (s.core core).slots.any fun e =>
    e.1 ≠ slot && e.2.train = sl.train && (
      (e.2.seq < sl.seq && e.2.hulls.any fun a => sl.hulls.any fun b => a.1 = b.1 && hullOverlap a.2 b.2) ||
      (sl.xl && match sl.entry, e.2.entry with
        | some (l, i), some (m, j) => l = m && j < i
        | _, _ => false))

def modSlot (s : State) (core slot : Nat) (f : Slot → Slot) : State :=
  modCore s core fun c =>
    match mget c.slots slot with
    | some x => { c with slots := mset c.slots slot (f x) }
    | none => c

/-- The number under which an ancestor `a` of a context names the context's endpoint `n` (R356). -/
def sameEndpointUp (s : State) (a : Nat) : Nat → Nat → Nat → Option Nat
  | 0, _, _ => none
  | f + 1, c, n => if a = c then some n else if c = 0 then none
    else (mget (s.ctx c).endpoints n).bind fun e => sameEndpointUp s a f (s.ctx c).parent e.src

def sameEndpoint (s : State) (c n a : Nat) : Option Nat := sameEndpointUp s a 8 c n

/-- 256 bytes between a context and an endpoint of it, counted at the endpoint's port (R423, R428). -/
def countPeer (s : State) (c n : Nat) : State :=
  countEvent s c 0x080 (((mget (s.ctx c).endpoints n).map (·.port)).getD 0) (sameEndpoint s c n) 1

/-- What the first chunk of every 256 bytes draws on across the package boundary (R370, R423). -/
def boundaryUnit (s : State) (sl : Slot) (d : Desc) : State :=
  if sl.moved % 16 ≠ 0 || !d.isDma then s
  else
    let s := charge s sl.ctx .ext 1
    if d.kr then countPeer s sl.ctx (nbits (if d.kind = 5 then d.dst.toNat else d.src.toNat) 48 12)
    else countEvent s sl.ctx 0x081 0 (fun _ => some 0) 1

/-- Chunk numbers from the frontier on: those performed there join it. -/
def absorb : Nat → List Nat → Nat × List Nat
  | d, [] => (d, [])
  | d, a :: t => if a = d then absorb (d + 1) t else (d, a :: t)

/-- Chunk `k` has been performed. -/
def Slot.note (sl : Slot) (k : Nat) : Slot :=
  let r := absorb sl.done (insertNat k sl.ahead)
  { sl with done := r.1, ahead := r.2, refault := false }

/-- A copy may move chunks now: it has no fault, no other slot keeps it from starting (R264, R272), the budgets that pay for it are not
empty (R370, R272), and a DMA engine is assigned to its context where it needs one (R272, log 82). -/
def mayMove (s : State) (core slot : Nat) (sl : Slot) (d : Desc) : Bool :=
  !sl.fault && !slotHeld s core slot sl && !(d.usesHome && outOf s sl.ctx .mem) &&
  !(d.isDma && (outOf s sl.ctx .ext || (s.ctx sl.ctx).engines = 0))

/-- The chunks `ks` of a slot's copy move in this order, but for those that cannot now: the others proceed (R260). -/
def moveChunks (core slot : Nat) : List Nat → State → State
  | [], s => s
  | k :: ks, s =>
    match mget (s.core core).slots slot with
    | none => s
    | some sl =>
      match sl.work with
      | .list .. => s
      | .copy d =>
        if !mayMove s core slot sl d then s
        else if k < sl.done || sl.ahead.contains k || k ≥ d.chunks then moveChunks core slot ks s
        else
          match moveChunk s core sl d k with
          | .hold => moveChunks core slot ks s
          | .ok _ s => moveChunks core slot ks (boundaryUnit (modSlot s core slot fun x => x.note k) sl d)
          | .fault s => modSlot s core slot fun x => { x with fault := true, refault := false }
          | .fail r v a s => endCopyFault s core slot r v a

/-- COPY_CHUNK_TRANSFER (R260): up to `k` chunks of core `i`, slot `j`, from chunk `l` of the loop order on. -/
def execCopyChunkTransfer (s : State) : Host.Outcome State Fault Refusal :=
  .next (moveChunks s.ev.i s.ev.j ((List.range s.ev.k).map (s.ev.l + ·)) s)

/-- Chunks that count as performed: at their place, or acknowledged by the remote side (R262, R273). -/
def Slot.performed (sl : Slot) (d : Desc) : Nat := if d.sides.2 = .remote then sl.acked else sl.moved

def freeSlotOf (s : State) (core slot : Nat) : State := modCore s core fun c => { c with slots := mdel c.slots slot }

/-- BYTE_ARRIVAL (R262): at most `k` bytes of core `i`, slot `j` are counted on its barrier object, 16 to 1,024; the last
arrival retires the copy. -/
def execByteArrival (s : State) : Host.Outcome State Fault Refusal :=
  let core := s.ev.i
  let k := s.ev.j
  match mget (s.core core).slots k with
  | none => .next s
  | some sl =>
    match sl.work with
    | .list .. => .next s
    | .copy d =>
      let n := min (min (s.ev.k / 16 * 16) 1024) (16 * sl.performed d - sl.counted)
      .next (if !d.hasMb || n = 0 then s
        else
          let s := if d.sides.2 = .glob then releaseEvent s (core / 4) else s
          let s := modMb s sl.train (d.mbRank sl.rank) d.mb.toNat fun o => o.bytesIn n
          if sl.counted + n = d.total then freeSlotOf s core k
          else modSlot s core k fun x => { x with counted := x.counted + n })

/-- COPY_RETIRE (R262): a copy without a barrier object retires when its last byte has been performed. -/
def execCopyRetire (s : State) : Host.Outcome State Fault Refusal :=
  match mget (s.core s.ev.i).slots s.ev.j with
  | none => .next s
  | some sl =>
    match sl.work with
    | .list .. => .next s
    | .copy d =>
      .next (if sl.performed d = d.chunks && (!d.hasMb || sl.counted = d.total) then freeSlotOf s s.ev.i s.ev.j else s)

/-- REMOTE_ACK (R273): the remote side acknowledges `k` chunks of core `i`, slot `j`, or refuses. -/
def execRemoteAck (s : State) : Host.Outcome State Fault Refusal :=
  match mget (s.core s.ev.i).slots s.ev.j with
  | none => .next s
  | some sl =>
    match sl.work with
    | .list .. => .next s
    | .copy d =>
      .next (if !d.isDma then s
        else if s.ev.p then modSlot s s.ev.i s.ev.j fun x => { x with acked := min (x.acked + s.ev.k) x.moved }
        else endCopyFault s s.ev.i s.ev.j 12 0 (if d.kind = 6 then 4 else 5))

/-- PRI_RESPONSE (R440): a page request of core `i`, slot `j` that the host answers with failure ends its request. -/
def execPriResponse (s : State) : Host.Outcome State Fault Refusal :=
  match mget (s.core s.ev.i).slots s.ev.j with
  | none => .next s
  | some sl =>
    match sl.work with
    | .list .. => .next s
    | .copy d =>
      .next (if s.ev.p || !d.isDma || d.kr then s else endCopyFault s s.ev.i s.ev.j 12 0 (if d.kind = 6 then 4 else 5))

/-! ### Request lists (R270) -/

/-- An entry that fails its checks ends the list (R267, R277). -/
def failEntry (s : State) (core slot : Nat) (sl : Slot) (reason index : Nat) (xl : Bool) (d : Desc) : State :=
  let s := noteEndpoint (freeSlotOf s core slot) sl.ctx reason d
  match mget s.trains sl.train with
  | some t => trapQ s sl.train (copyFaultReport s t sl.rank reason index 0 0 (if xl then 4 else 2) 7)
  | none => s

/-- LIST_ENTRY_ACCEPT (R264, R270): the next descriptor of the list in core `i`, slot `j` is read, checked and takes a
slot; the list's own slot is freed with its last descriptor. -/
def execListEntryAccept (s : State) : Host.Outcome State Fault Refusal :=
  match mget (s.core s.ev.i).slots s.ev.j with
  | none => .next s
  | some sl =>
    match sl.work, mget s.trains sl.train with
    | .list off cnt next xl, some t =>
      let d := descOf (scrGet t sl.rank (off + 64 * next) 64).bytes
      let reason := d.check t sl.rank (if xl then [5, 6] else [0, 1, 2, 3, 4])
      if reason ≠ 0 then .next (failEntry s s.ev.i s.ev.j sl reason next xl d)
      else
        let last := next + 1 = cnt
        let s1 := if last then freeSlotOf s s.ev.i s.ev.j
          else modSlot s s.ev.i s.ev.j fun x => { x with work := .list off cnt (next + 1) xl }
        match freeEngineSlot s1 s.ev.i with
        | none => .next s
        | some k => .next (acceptWork s1 s.ev.i k sl.train sl.ctx sl.rank (.copy d) (some (sl.seq, next)) xl)
    | _, _ => .next s

end Sys2Proof.Machine
end

