-- ==== Sys2Proof/Machine/Formats.lean ====
section
/-! DEFINITION. Class 0x1: conversions, packing, block scales, byte gather and the generator as data (R103 to R118). -/

namespace Sys2Proof.Machine

open Sys2Proof

/-- How a source of a format is read: FP32 and FP64 as R47 says, narrower ones as bits (R105). -/
def fmtKind : Fmt → SrcKind
  | .fp32 => .fp .fp32
  | .fp64 => .fp .fp64
  | _ => .int

/-- The value of a source operand in a format. -/
def srcFv (s : State) (x : Ix) (a : Args) (f : Fmt) (o : Operand) (l : Nat) : FVal :=
  fval f (src s x a f.regBits (fmtKind f) o l)

/-- `n` words drawn in order: the 16 bits of each that sr uses, and the generator after them (R98, R100). -/
def drawWords : Nat → Word32 → List Nat × Word32
  | 0, g => ([], g)
  | n + 1, g =>
    let g1 := srNext g
    let r := drawWords n g1
    (srRnd g1 :: r.1, r.2)

/-- One result per lane, each lane drawing `n` words of the generator first where the mode is sr, lanes ascending. -/
def drawLanes (n : Nat) (rm : RMode) (f : Nat → (Nat → Nat) → Nat) : List Nat → Word32 → List (Nat × Nat) × Word32
  | [], g => ([], g)
  | l :: t, g =>
    let d := if rm = .sr then drawWords n g else ([], g)
    let r := drawLanes n rm f t d.2
    ((l, f l fun i => d.1.getD i 0) :: r.1, r.2)

/-- A body whose results round: `f` gets the lane and the 16 random bits of each of its `n` elements. -/
def rounded (o : Operand) (bits n : Nat) (rm : RMode) (f : State → Ix → Nat → (Nat → Nat) → Nat) :
    Ix → List Nat → State → Res :=
  fun x ls s =>
    let r := drawLanes n rm (f s x) ls x.co.gen
    let s := modCoach s x.ref.train x.ref.coach fun co => { co with gen := r.2 }
    .done (wr s x o bits r.1) [] none

/-- CVT (R107). -/
def execCvt (df sf : Fmt) (rm : RMode) (sat : Bool) (x : Args) (s : State) : Host.Outcome State Fault Refusal :=
  vamer (.cvt df sf rm sat x) x false (rounded x.a df.regBits 1 rm fun s ix l rnd =>
    fround df rm (rnd 0) (fsatIf sat df (srcFv s ix x sf x.b l))) s

def leastI (w : IWidth) (u : Bool) : Int := if u then 0 else minS w.bits
def greatestI (w : IWidth) (u : Bool) : Int := if u then maxU w.bits else maxS w.bits
def clampI (w : IWidth) (u : Bool) (i : Int) : Int :=
  if i < leastI w u then leastI w u else if i > greatestI w u then greatestI w u else i

/-- An integer of a width as its register holds it (R91). -/
def extendI (w : IWidth) (i : Int) : Nat := pat w.regBits i

/-- Float to integer, saturating (R108). -/
def f2iVal (w : IWidth) (u : Bool) (rm : RMode) (x : FVal) : Nat :=
  match x with
  | .nan => 0
  | .inf neg => extendI w (if neg then leastI w u else greatestI w u)
  | .fin neg n d e => extendI w (clampI w u (fintegral rm 0 neg n d e))

/-- F2I (R108). -/
def execF2i (sf : Fmt) (iw : IWidth) (u : Bool) (rm : RMode) (x : Args) (s : State) : Host.Outcome State Fault Refusal :=
  vamer (.f2i sf iw u rm x) x false (lanewise x.a iw.regBits fun s ix l => f2iVal iw u rm (srcFv s ix x sf x.b l)) s

/-- The integer in a register at a width (R91). -/
def intOf (w : IWidth) (u : Bool) (v : Nat) : Int := opInt u w.bits (v % 2 ^ w.bits)

/-- I2F (R109). -/
def execI2f (df : Fmt) (iw : IWidth) (u : Bool) (rm : RMode) (sat : Bool) (x : Args) (s : State) :
    Host.Outcome State Fault Refusal :=
  vamer (.i2f df iw u rm sat x) x false (rounded x.a df.regBits 1 rm fun s ix l rnd =>
    fround df rm (rnd 0) (fsatIf sat df (fint (intOf iw u (src s ix x iw.regBits .int x.b l))))) s

/-- Resize (R110). -/
def i2iVal (dw : IWidth) (du sat : Bool) (n : Int) : Nat :=
  let n := if sat then clampI dw du n else n
  extendI dw (opInt du dw.bits (pat dw.bits n))

/-- I2I (R110). -/
def execI2i (dw : IWidth) (du : Bool) (sw : IWidth) (su : Bool) (sat : Bool) (x : Args) (s : State) :
    Host.Outcome State Fault Refusal :=
  vamer (.i2i dw du sw su sat x) x false (lanewise x.a dw.regBits fun s ix l =>
    i2iVal dw du sat (intOf sw su (src s ix x sw.regBits .int x.b l))) s

/-- Replace `n` bits at position `lo` of a 32-bit value. -/
def putBits (old lo n v : Nat) : Nat := old - nbits old lo n * 2 ^ lo + v % 2 ^ n * 2 ^ lo

/-- Element width of a narrow format. -/
def elemBits (f : Fmt) : Nat := (ffmt f).w

/-- The destination register as it stands at issue. -/
def oldDst (s : State) (x : Ix) (a : Args) (l : Nat) : Nat := src s x a 32 .int a.a l

/-- PACK (R111): a pair of elements of `n` bits replaces bits 2n × POS upwards. -/
def execPack (df : Fmt) (pos : BitVec 3) (rm : RMode) (sat : Bool) (x : Args) (s : State) :
    Host.Outcome State Fault Refusal :=
  vamer (.pack df pos rm sat x) x false (rounded x.a 32 2 rm fun s ix l rnd =>
    let n := elemBits df
    let eb := fround df rm (rnd 0) (fsatIf sat df (srcFv s ix x .fp32 x.b l))
    let ec := fround df rm (rnd 1) (fsatIf sat df (srcFv s ix x .fp32 x.c l))
    putBits (oldDst s ix x l) (2 * n * pos.toNat) (2 * n) (eb + ec * 2 ^ n)) s

/-- Element POS of a packed value (R96). -/
def elemAt (f : Fmt) (v pos : Nat) : Nat := nbits v (elemBits f * pos) (elemBits f)

/-- UNPK (R112). -/
def execUnpk (sf : Fmt) (pos : BitVec 3) (x : Args) (s : State) : Host.Outcome State Fault Refusal :=
  vamer (.unpk sf pos x) x false (lanewise x.a 32 fun s ix l =>
    fround .fp32 .rn 0 (fval sf (elemAt sf (src s ix x 32 .int x.b l) pos.toNat))) s

/-- The scale of QNT and DQNT (R113). -/
def scaleOf (s : State) (ix : Ix) (x : Args) (fs : Bool) (l : Nat) : FVal :=
  if fs then srcFv s ix x .fp32 x.c l else fval .e8m0 (src s ix x 32 .int x.c l)

/-- QNT (R113). -/
def execQnt (df : Fmt) (pos : BitVec 3) (rm : RMode) (fs : Bool) (x : Args) (s : State) :
    Host.Outcome State Fault Refusal :=
  vamer (.qnt df pos rm fs x) x false (rounded x.a 32 1 rm fun s ix l rnd =>
    let q := fdivV (srcFv s ix x .fp32 x.b l) (scaleOf s ix x fs l)
    putBits (oldDst s ix x l) (elemBits df * pos.toNat) (elemBits df) (fround df rm (rnd 0) (fsat df q))) s

/-- DQNT (R114). -/
def execDqnt (sf : Fmt) (pos : BitVec 3) (rm : RMode) (fs : Bool) (x : Args) (s : State) :
    Host.Outcome State Fault Refusal :=
  vamer (.dqnt sf pos rm fs x) x false (rounded x.a 32 1 rm fun s ix l rnd =>
    fround .fp32 rm (rnd 0) (fmulV (fval sf (elemAt sf (src s ix x 32 .int x.b l) pos.toNat)) (scaleOf s ix x fs l))) s

/-- The E8M0 scale under which a magnitude fits (R116): the smallest e from −127 with |b| ≤ Max × 2^e. -/
def bscaleVal (df : Fmt) (b : FVal) : Nat :=
  match b with
  | .nan | .inf _ => 0xFF
  | .fin _ n d e =>
    if n = 0 then 0
    else
      match fval df (ffmt df).maxCode with
      | .fin _ m c g => ((List.range 255).find? fun (k : Nat) => magLe n d e m c (g + (k : Int) - 127)).getD 254
      | _ => 0xFF

/-- BSCALE (R116). -/
def execBscale (df : Fmt) (x : Args) (s : State) : Host.Outcome State Fault Refusal :=
  vamer (.bscale df x) x false (lanewise x.a 32 fun s ix l => bscaleVal df (srcFv s ix x .fp32 x.b l)) s

/-- The greater magnitude of two FP32 codes; NaN when either is NaN (R115). -/
def maxMag (a b : Nat) : Nat :=
  let x := fval .fp32 a
  let y := fval .fp32 b
  if x.isNan || y.isNan then f32Nan
  else
    let m := a % 2 ^ 31
    let n := b % 2 ^ 31
    if m ≤ n then n else m

/-- BMAX (R115): groups of 2^G lanes by lane position. -/
def execBmax (g : BitVec 3) (x : Args) (s : State) : Host.Outcome State Fault Refusal :=
  vamer (.bmax g x) x false (fun ix ls s =>
    let m := ls.map fun l =>
      (l, maxMag (src s ix x 32 (.fp .fp32) x.b l) (src s ix x 32 (.fp .fp32) x.c l))
    let n := 2 ^ g.toNat
    .done (wr s ix x.a 32 (m.map fun e =>
      (e.1, (m.filter fun f => f.1 / n = e.1 / n).foldl (fun v f => maxMag v f.2) 0))) [] none) s

/-- Result byte `i` of BYTX from the bytes before it (R117). -/
def bytxByte (sel v i below : Nat) : Nat :=
  if nbit sel (12 + i) then 0
  else if i ≥ 1 && nbit sel (15 + i) then (if nbit below 7 then 0xFF else 0)
  else nbits v (8 * nbits sel (3 * i) 3) 8

def bytxVal (sel b c : Nat) : Nat :=
  let v := b % 2 ^ 32 + 2 ^ 32 * (c % 2 ^ 32)
  let r0 := bytxByte sel v 0 0
  let r1 := bytxByte sel v 1 r0
  let r2 := bytxByte sel v 2 r1
  let r3 := bytxByte sel v 3 r2
  r0 + 2 ^ 8 * r1 + 2 ^ 16 * r2 + 2 ^ 24 * r3

/-- BYTX (R117): the selector is XMOD[18:0] or D. -/
def execBytx (x : Args) (s : State) : Host.Outcome State Fault Refusal :=
  vamer (.bytx x) x false (lanewise x.a 32 fun s ix l =>
    let sel := if x.xmod.getLsbD 19 then (x.xmod.extractLsb' 0 19).toNat else src s ix x 32 .int x.d l
    bytxVal sel (src s ix x 32 .int x.b l) (src s ix x 32 .int x.c l)) s

/-- Words of the generator for a list of lanes, ascending (R118). -/
def genLanes : List Nat → Word32 → List (Nat × Nat) × Word32
  | [], g => ([], g)
  | l :: t, g =>
    let g := srNext g
    let r := genLanes t g
    ((l, g.toNat) :: r.1, r.2)

/-- SRSTEP (R118). -/
def execSrstep (x : Args) (s : State) : Host.Outcome State Fault Refusal :=
  vamer (.srstep x) x false (fun ix ls s =>
    let r := genLanes ls ix.co.gen
    let s := modCoach s ix.ref.train ix.ref.coach fun co => { co with gen := r.2 }
    .done (wr s ix x.a 32 r.1) [] none) s

end Sys2Proof.Machine
end

