-- ==== Sys2Proof/Machine/FloatArith.lean ====
section
/-! DEFINITION. Class 0x2: floating-point arithmetic, comparison, classification and selection (R120 to R133). -/

namespace Sys2Proof.Machine

open Sys2Proof

/-- The element format of a type. -/
def elemFmt : FType → Fmt
  | .f32 => .fp32
  | .f64 => .fp64
  | .f16x2 => .fp16
  | .bf16x2 => .bf16
/-- Elements of a type (R120). -/
def elemCount : FType → Nat
  | .f32 | .f64 => 1
  | _ => 2
def typeKind : FType → SrcKind
  | .f16x2 => .pair .fp16
  | .bf16x2 => .pair .bf16
  | t => .fp (elemFmt t)

/-- A source of the type that T selects (R122). -/
def srcT' (s : State) (x : Ix) (a : Args) (t : FType) (o : Operand) (l : Nat) : Nat := src s x a t.bits (typeKind t) o l

/-- Element `j` of a value of a type. -/
def partOf (t : FType) (v j : Nat) : Nat := if elemCount t = 1 then v else nbits v (16 * j) 16

/-- The elements of a result put together. -/
def joinParts (t : FType) (f : Nat → Nat) : Nat := if elemCount t = 1 then f 0 else f 0 + 65536 * f 1

/-- Sat, Round and the flush of a result (R124, R125). -/
def deliver (fm : Fmt) (m : FMod) (rnd : Nat) (x : FVal) : Nat := flushCode fm m.ftz (fround fm m.rm rnd (fsatIf m.sat fm x))

/-- An arithmetic body: every element is computed exactly and rounded once. -/
def farith (m : FMod) (x : Args) (f : FVal → FVal → FVal → FVal) : Ix → List Nat → State → Res :=
  rounded x.a m.t.bits (elemCount m.t) m.rm fun s ix l rnd =>
    let fm := elemFmt m.t
    let b := srcT' s ix x m.t x.b l
    let c := srcT' s ix x m.t x.c l
    let d := srcT' s ix x m.t x.d l
    let e (v j : Nat) : FVal := fsrc fm m.ftz (partOf m.t v j)
    joinParts m.t fun j => deliver fm m (rnd j) (f (e b j) (e c j) (e d j))

/-- FADD, FSUB and FMUL (R125). -/
def execFadd (m : FMod) (x : Args) (s : State) : Host.Outcome State Fault Refusal :=
  vamer (.fadd m x) x false (farith m x fun b c _ => fsumV m.rm [b, c]) s
def execFsub (m : FMod) (x : Args) (s : State) : Host.Outcome State Fault Refusal :=
  vamer (.fsub m x) x false (farith m x fun b c _ => fsumV m.rm [b, c.negate]) s
def execFmul (m : FMod) (x : Args) (s : State) : Host.Outcome State Fault Refusal :=
  vamer (.fmul m x) x false (farith m x fun b c _ => fmulV b c) s
/-- The fused operations round once (R125). -/
def execFfma (m : FMod) (x : Args) (s : State) : Host.Outcome State Fault Refusal :=
  vamer (.ffma m x) x false (farith m x fun b c d => fsumV m.rm [fmulV b c, d]) s
def execFfms (m : FMod) (x : Args) (s : State) : Host.Outcome State Fault Refusal :=
  vamer (.ffms m x) x false (farith m x fun b c d => fsumV m.rm [fmulV b c, d.negate]) s
def execFnma (m : FMod) (x : Args) (s : State) : Host.Outcome State Fault Refusal :=
  vamer (.fnma m x) x false (farith m x fun b c d => fsumV m.rm [(fmulV b c).negate, d]) s
/-- FDP2 (R125): one FP32 result of a pair of products. -/
def execFdp2 (m : FMod) (x : Args) (s : State) : Host.Outcome State Fault Refusal :=
  vamer (.fdp2 m x) x false (rounded x.a 32 1 m.rm fun s ix l rnd =>
    let fm := elemFmt m.t
    let b := srcT' s ix x m.t x.b l
    let c := srcT' s ix x m.t x.c l
    let p (j : Nat) : FVal := fmulV (fsrc fm m.ftz (partOf m.t b j)) (fsrc fm m.ftz (partOf m.t c j))
    let d := fsrc .fp32 m.ftz (src s ix x 32 (.fp .fp32) x.d l)
    deliver .fp32 m (rnd 0) (fsumV m.rm [p 0, p 1, d])) s
/-- FDIV (R126). -/
def execFdiv (m : FMod) (x : Args) (s : State) : Host.Outcome State Fault Refusal :=
  vamer (.fdiv m x) x false (farith m x fun b c _ => fdivV b c) s

/-- A body that maps the elements of B and C, without rounding. -/
def felems (t : FType) (x : Args) (f : Nat → Nat → Nat) : Ix → List Nat → State → Res :=
  lanewise x.a t.bits fun s ix l =>
    let b := srcT' s ix x t x.b l
    let c := srcT' s ix x t x.c l
    joinParts t fun j => f (partOf t b j) (partOf t c j)

/-- FMIN and FMAX (R127). -/
def execFmin (m : FMod) (nan : Bool) (x : Args) (s : State) : Host.Outcome State Fault Refusal :=
  vamer (.fmin m nan x) x false (felems m.t x fun b c => fminmax (elemFmt m.t) false nan m.ftz b c) s
def execFmax (m : FMod) (nan : Bool) (x : Args) (s : State) : Host.Outcome State Fault Refusal :=
  vamer (.fmax m nan x) x false (felems m.t x fun b c => fminmax (elemFmt m.t) true nan m.ftz b c) s

/-- The sign bit of a code, and a code with a given sign. -/
def signOf (fm : Fmt) (v : Nat) : Bool := nbit v ((ffmt fm).w - 1)
def reSign (fm : Fmt) (v : Nat) (neg : Bool) : Nat := withSign (ffmt fm) neg (v % (ffmt fm).signBit)

/-- FABS, FNEG and FSGN act on bits (R128). -/
def execFabs (m : FMod) (x : Args) (s : State) : Host.Outcome State Fault Refusal :=
  vamer (.fabs m x) x false (felems m.t x fun b _ => reSign (elemFmt m.t) b false) s
def execFneg (m : FMod) (x : Args) (s : State) : Host.Outcome State Fault Refusal :=
  vamer (.fneg m x) x false (felems m.t x fun b _ => reSign (elemFmt m.t) b (!signOf (elemFmt m.t) b)) s

def sgnMode (k : SgnMode) (b c : Bool) : Bool :=
  match k with
  | .copy => c
  | .neg => !c
  | .xor => b != c

def execFsgn (m : FMod) (sm : SgnMode) (x : Args) (s : State) : Host.Outcome State Fault Refusal :=
  vamer (.fsgn m sm x) x false (felems m.t x fun b c =>
    reSign (elemFmt m.t) b (sgnMode sm (signOf (elemFmt m.t) b) (signOf (elemFmt m.t) c))) s

/-- The conditions of R129. -/
def fcond (k : FCond) (x y : FVal) : Bool :=
  let un := x.isNan || y.isNan
  let c := fcmpV x y
  match k with
  | .eq => !un && c = 0
  | .ne => un || c ≠ 0
  | .lt => !un && c < 0
  | .le => !un && c ≤ 0
  | .gt => !un && c > 0
  | .ge => !un && c ≥ 0
  | .un => un
  | .ord => !un

/-- FCMP (R129): bit j is element j's condition. -/
def execFcmp (m : FMod) (cond : FCond) (x : Args) (s : State) : Host.Outcome State Fault Refusal :=
  vamer (.fcmp m cond x) x false (lanewise x.a 32 fun s ix l =>
    let b := srcT' s ix x m.t x.b l
    let c := srcT' s ix x m.t x.c l
    let fm := elemFmt m.t
    let p (j : Nat) : Nat := if fcond cond (fsrc fm m.ftz (partOf m.t b j)) (fsrc fm m.ftz (partOf m.t c j)) then 1 else 0
    if elemCount m.t = 1 then p 0 else p 0 + 2 * p 1) s

/-- The class bit of a code (R130). -/
def fclassBit (fm : Fmt) (v : Nat) : Nat :=
  match fval fm v with
  | .nan => 8
  | .inf neg => if neg then 0 else 7
  | .fin neg n _ _ =>
    if n = 0 then (if neg then 3 else 4)
    else if isSubnormal fm v then (if neg then 2 else 5)
    else if neg then 1 else 6

/-- FCLASS (R130): a predicate destination takes whether the masked class is not zero. -/
def execFclass (m : FMod) (x : Args) (s : State) : Host.Outcome State Fault Refusal :=
  vamer (.fclass m x) x false (lanewise x.a 32 fun s ix l =>
    let b := srcT' s ix x m.t x.b l
    let fm := elemFmt m.t
    let k := if elemCount m.t = 1 then 2 ^ fclassBit fm b
      else 2 ^ fclassBit fm (partOf m.t b 0) + 2 ^ (16 + fclassBit fm (partOf m.t b 1))
    let r := k &&& src s ix x 32 .int x.c l
    match x.a with
    | .pred _ => if r ≠ 0 then 1 else 0
    | _ => r) s

/-- The integral value of an element (R131). -/
def frintVal (fm : Fmt) (rm : RMode) (ftz : Bool) (rnd v0 : Nat) : Nat :=
  let v := flushCode fm ftz (v0 % 2 ^ (ffmt fm).w)
  match fval fm v with
  | .nan => (ffmt fm).nan
  | .inf _ => v
  | .fin neg n d e =>
    if n = 0 || flog2 n d + e ≥ ((ffmt fm).f : Int) then v
    else reSign fm (fround fm .rn 0 (fint (fintegral rm rnd neg n d e))) neg

/-- FRINT (R131). -/
def execFrint (m : FMod) (x : Args) (s : State) : Host.Outcome State Fault Refusal :=
  vamer (.frint m x) x false (rounded x.a m.t.bits (elemCount m.t) m.rm fun s ix l rnd =>
    let b := srcT' s ix x m.t x.b l
    joinParts m.t fun j => frintVal (elemFmt m.t) m.rm m.ftz (rnd j) (partOf m.t b j)) s

/-- b × 2^n; beyond ±5000 every n gives the result that ±5000 gives in each format of the class. -/
def scaleV (b : FVal) (n : Int) : FVal :=
  match b with
  | .fin s m d e => .fin s m d (e + (if n < -5000 then -5000 else if n > 5000 then 5000 else n))
  | v => v

/-- FSCALE (R132). -/
def execFscale (m : FMod) (x : Args) (s : State) : Host.Outcome State Fault Refusal :=
  vamer (.fscale m x) x false (rounded x.a m.t.bits 1 m.rm fun s ix l rnd =>
    let fm := elemFmt m.t
    deliver fm m (rnd 0) (scaleV (fsrc fm m.ftz (srcT' s ix x m.t x.b l)) (sval 32 (src s ix x 32 .int x.c l)))) s

/-- FGETX (R132): the exponent as an INT32. -/
def fgetxVal (x : FVal) : Nat :=
  match x with
  | .nan | .inf _ => 0x7FFFFFFF
  | .fin _ n d e => if n = 0 then 0x80000000 else pat 32 (flog2 n d + e)

def execFgetx (m : FMod) (x : Args) (s : State) : Host.Outcome State Fault Refusal :=
  vamer (.fgetx m x) x false (lanewise x.a 32 fun s ix l =>
    fgetxVal (fsrc (elemFmt m.t) m.ftz (srcT' s ix x m.t x.b l))) s

/-- FGETM (R132): the significand in [1, 2). -/
def fgetmVal (fm : Fmt) (x : FVal) : Nat :=
  match x with
  | .fin s n d _ => if n = 0 then fround fm .rn 0 x else fround fm .rn 0 (.fin s n d (-flog2 n d))
  | v => fround fm .rn 0 v

def execFgetm (m : FMod) (x : Args) (s : State) : Host.Outcome State Fault Refusal :=
  vamer (.fgetm m x) x false (lanewise x.a m.t.bits fun s ix l =>
    fgetmVal (elemFmt m.t) (fsrc (elemFmt m.t) m.ftz (srcT' s ix x m.t x.b l))) s

/-- FSEL (R133) moves bits. -/
def execFsel (w64 : Bool) (sp : BitVec 4) (neg : Bool) (x : Args) (s : State) : Host.Outcome State Fault Refusal :=
  let k : SrcKind := .fp (if w64 then .fp64 else .fp32)
  vamer (.fsel w64 sp neg x) x false (lanewise x.a (wbits w64) fun s ix l =>
    if predOf ix l sp != neg then src s ix x (wbits w64) k x.b l else src s ix x (wbits w64) k x.c l) s

end Sys2Proof.Machine
end

