-- ==== Sys2Proof/Machine/Matrix.lean ====
section
/-! DEFINITION. Class 0xA: tiles, the order of sums, joint issue through a yoke, and the tile instructions (R289 to
R313). -/

namespace Sys2Proof.Machine

open Sys2Proof

/-! ### Tiles (R289, R313) -/

def tileGet (t : Train) (rank tile i : Nat) : Word96 := mgetD (mgetD t.tiles rank []) (256 * tile + i) 0
def tileBad (t : Train) (rank tile i : Nat) : Bool := (mgetD t.tilePoison rank []).contains (256 * tile + i)

/-- Every element of a tile, with its poison. -/
def tileFill (t : Train) (rank tile : Nat) (f : Nat → Word96 × Bool) : Train :=
  let es := (List.range 256).map fun i => (256 * tile + i, f i)
  let bad := (mgetD t.tilePoison rank []).filter fun k => k / 256 ≠ tile
  { t with
    tiles := mput [] t.tiles rank (es.foldl (fun m e => mput 0 m e.1 e.2.1) (mgetD t.tiles rank []))
    tilePoison := mput [] t.tilePoison rank (bad ++ es.filterMap fun e => if e.2.2 then some e.1 else none) }

def nanAf96 : Word96 := BitVec.ofNat 96 (ffmt .af96).nan

/-- The exact integer of an I96 element (R97). -/
def i96 (x : Word96) : Int := x.toInt

/-! ### Operands and sums (R291 to R294) -/

def mfmtBits : MFmt → Nat
  | .e4m3 | .e5m2 | .s8 | .u8 => 8
  | .f16 | .bf16 => 16
  | .e2m1 => 4

def mfmtInt : MFmt → Bool
  | .s8 | .u8 => true
  | _ => false

/-- The value of an element code. -/
def mfmtVal (f : MFmt) (x : Nat) : FVal :=
  match f with
  | .e4m3 => fval .e4m3 x
  | .e5m2 => fval .e5m2 x
  | .f16 => fval .fp16 x
  | .bf16 => fval .bf16 x
  | .e2m1 => fval .e2m1 x
  | .s8 => fint (sval 8 x)
  | .u8 => fint x

/-- The element codes of 64 bytes (R96). -/
def elemCodes (f : MFmt) (bs : List Byte) : List Nat :=
  let v := leVal bs
  (List.range (512 / mfmtBits f)).map fun k => nbits v (mfmtBits f * k) (mfmtBits f)

/-- The values of a row or column: its elements, times its block scales for E2M1 (R102, R291). -/
def lineVals (f : MFmt) (bs scales : List Byte) : List FVal :=
  (elemCodes f bs).zipIdx.map fun e =>
    let v := mfmtVal f e.1
    if f = .e2m1 then fmulV v (fval .e8m0 (scales.getD (e.2 / 32) 0).toNat) else v

/-- The exact sum of products of a row and a column (R293). -/
def dotVal (a b : List FVal) : FVal := fsumV .rn ((a.zip b).map fun e => fmulV e.1 e.2)

/-- The new element (R293): its old bits, the chunk's exact sum and the scales. -/
def mmaElem (m : MmaMod) (old : Word96) (t rs ts : FVal) : Word96 :=
  if mfmtInt m.fa then
    match t with
    | .fin s n d e =>
      let v := fintegral .rz 0 s n d e
      BitVec.ofInt 96 (if m.z then v else i96 old + v)
    | _ => 0
  else
    let t := if m.sc then fmulV (fmulV t rs) ts else t
    let u := fround .af96 .rn 0 t
    BitVec.ofNat 96 (if m.z then u else fround .af96 .rn 0 (fsumV .rn [fval .af96 old.toNat, fval .af96 u]))

/-! ### Joint issue (R296 to R298) -/

/-- Bytes of a contiguous operand, and of a gathered row (R291). -/
def operandBytes (f : MFmt) : Nat := if f = .e2m1 then 1088 else 1024
def rowBytes (f : MFmt) : Nat := if f = .e2m1 then 68 else 64

/-- Which of the three forms: A gathered, B in the cellar. -/
structure MmaForm where
  gather : Bool
  cellar : Bool

def mmaForm : Instr → MmaForm
  | .mmag .. => ⟨true, false⟩
  | .mmaw _ g _ => ⟨g, true⟩
  | _ => ⟨false, false⟩

/-- A check of a signature that fails (R297): lanes and value. -/
def signTrap (code : Nat) (f : Field) (bad : List (Nat × Nat)) : Option Trap := (lanesTrap code bad).map fun t => t.onField f

/-- The checks of R297 in the order of the table. -/
def signCheck (s : State) (x : Ix) (a : Args) (m : MmaMod) (fm : MmaForm) (y : Yoke) (ls : List Nat) : Option Trap :=
  let l := ls.headD 0
  let v (o : Operand) (i : Nat) : Nat := src s x a 32 .int o i
  let rows := if fm.gather then (ls.filter (· < 16)).map fun i => (i, v a.b i) else []
  let bTop := if fm.cellar then 2 ^ 30 else x.tr.scratch
  let aOff := if fm.gather then [] else [(l, v a.b l)]
  let bOff := [(l, v a.c l)]
  let out (n top : Nat) (e : Nat × Nat) : Bool := e.2 + n > top
  orTrap (if y.count = 0 then some ((trapOf cYOKE_STATE).onField .d) else none)
    (orTrap (if y.signed.length + ls.length > y.count then some ((trapOf cYOKE_OVER).onField .d) else none)
      (orTrap (signTrap cMEM_ALIGN .b (aOff.filter fun e => e.2 % 16 ≠ 0))
        (orTrap (signTrap cMEM_ALIGN .c (bOff.filter fun e => e.2 % 16 ≠ 0))
          (orTrap (signTrap cMEM_RANGE .b (aOff.filter (out (operandBytes m.fa) x.tr.scratch)))
            (orTrap (signTrap cMEM_RANGE .c (bOff.filter (out (operandBytes m.fb) bTop)))
              (orTrap (signTrap cMEM_ALIGN .b (rows.filter fun e => e.2 % 16 ≠ 0))
                (signTrap cMEM_RANGE .b (rows.filter (out (rowBytes m.fa) x.tr.scratch)))))))))

/-- The register values that a signer supplies: B, C and the scales named in XMOD. -/
def signVals (s : State) (co : Coach) (x : Ix) (a : Args) (i : Instr) (l : Nat) : List Word32 :=
  let y := { x with co := co }
  let lane := mget co.lanes l
  [w32 (src s y a 32 .int a.b l), w32 (src s y a 32 .int a.c l),
   (match xmodV i, lane with | some n, some k => k.reg n | _, _ => 0),
   (match xmodS i with | some n => co.sreg n | none => 0)]

/-- A scalar operand of the anchor: its register while it lives, else one of the values that its slot has held since (R298; log 6). -/
def anchorVal (co : Coach) (fresh lane : Nat) (y : Yoke) (live : Bool) (o : Operand) : Nat :=
  match o with
  | .v n =>
    let past := mgetD y.past n.toNat []
    (if live || past.isEmpty then slotReg co lane n.toNat else past.getD (Config.anchorPick fresh % past.length) 0).toNat
  | .s n => (co.sreg n.toNat).toNat
  | .imm i => immVal 32 .int i
  | _ => 0

/-- A signer has changed a register that the MMA reads from it: B, C and the tile scale of the anchor; the gather vector and the row
scales in lanes 0 to 15 of its coach (R298, R300). -/
def operandDiff (gather low anchor : Bool) (now then_ : List Word32) : Bool :=
  let d (i : Nat) : Bool := now.getD i 0 ≠ then_.getD i 0
  (d 0 && (if gather then low else anchor)) || (d 1 && anchor) || (d 2 && low) || (d 3 && anchor)

/-- Values fail R291: misaligned, or outside their range. -/
def offBad (o n top : Nat) : Bool := o % 16 ≠ 0 || o + n > top

/-- The MMA issues: its register operands are read from the anchor (R298). -/
def mmaIssue (s : State) (x : Ix) (i : Instr) (a : Args) (m : MmaMod) (fm : MmaForm) (y : Yoke) : State :=
  match mget s.trains x.ref.train with
  | none => s
  | some t =>
    let fid := (y.signed.head?.map (·.1)).getD 0
    let live := findFibre t x.rank fid
    let at_ := live.getD y.anchor
    let co := (mget t.coaches at_.1).getD x.co
    let vec (n : Nat) : List Word32 := (List.range 16).map fun k => slotReg co k n
    let b := anchorVal co s.fresh at_.2 y live.isSome a.b
    let bo := anchorVal co (s.fresh + 1) at_.2 y live.isSome a.c
    let rows := if fm.gather then (match a.b with | .v n => (vec n.toNat).map (·.toNat) | _ => [])
      else (List.range 16).map fun k => b + 64 * k
    let aScales := if m.fa = .e2m1 && !fm.gather then some (b + 1024) else none
    let aBad (k o : Nat) (lives : Bool) : Bool × Bool := let b := offBad o k t.scratch; (b, b && lives)
    let isReg (o : Operand) : Bool := match o with | .v _ => true | _ => false
    let as : List (Bool × Bool) := if fm.gather then
        rows.zipIdx.map fun e => aBad (rowBytes m.fa) e.1 (mget co.lanes e.2).isSome
      else [aBad (operandBytes m.fa) b (live.isSome || !isReg a.b)]
    let cBad := offBad bo (operandBytes m.fb) (if fm.cellar then 2 ^ 30 else t.scratch)
    let bad := as.any (·.1) || cBad
    let counts := as.any (·.2) || (cBad && (live.isSome || !isReg a.c))
    let changed := y.signed.any fun e =>
      match findFibre t x.rank e.1 with
      | some (c, l) => c = at_.1 &&
          (match mget t.coaches c with
           | some k => operandDiff fm.gather (l < 16) (e.1 = fid) (signVals s k x a i l) e.2
           | none => false)
      | none => false
    let rec0 : MmaRec :=
      { m := m, tile := (match a.a with | .tile n => n.toNat | _ => 0), rows := rows, aScales := aScales, bo := bo, cellar := fm.cellar
        rowScale := (match xmodV i with | some n => vec n | none => []), tileScale := (match xmodS i with | some n => co.sreg n | none => 0)
        bad := bad, counts := counts, drop := false, early := changed, keep := a.ret = 1, copies := (s.core x.core).slotSeq }
    let r := { rec0 with early := changed || y.writes.any fun w => mmaMeets rec0 w.1 w.2 }
    let s := setTrain s x.ref.train
      { t.setYoke x.rank (yokeNo a.d) { Yoke.init with count := y.count } with
        mmas := mset t.mmas x.rank (mgetD t.mmas x.rank [] ++ [r]) }
    { s with fresh := s.fresh + 2 }

/-- A yoke once the fibres in `ls` have signed it (R296, R298, R300). -/
def signYoke (i : Instr) (a : Args) (x : Ix) (ls : List Nat) (s : State) (y : Yoke) : Yoke :=
  let signers := (fidsOf x ls).zip ls
  let signed : SMap (List Word32) := signers.foldl (fun k e => mset k e.1 (signVals s x.co x a i e.2)) y.signed
  let first : Option Nat := signed.head?.map (·.1)
  let c := match x.ref.coach with | .coach c => c | .spine => 0
  let anchor := if first = y.signed.head?.map (·.1) then y.anchor
    else (signers.find? fun e => some e.1 = first).map (fun e => (c, e.2)) |>.getD y.anchor
  let regs := [a.b, a.c].filterMap fun o => match o with | .v n => some n.toNat | _ => none
  { y with
    signed := signed
    addr := x.fr.pc
    tile := (match a.a with | .tile n => n.toNat | _ => 0)
    anchor := anchor
    past := if first = y.signed.head?.map (·.1) then y.past else regs.foldl (fun m n => mset m n []) [] }

/-- A signature waits: the yoke collects another MMA, or one of the fibres has signed already (R296). -/
def signWaits (x : Ix) (ls : List Nat) (y : Yoke) : Bool :=
  (!y.signed.isEmpty && y.addr ≠ x.fr.pc) || (fidsOf x ls).any fun f => (mget y.signed f).isSome

/-- A fragment signs (R296); the signature that reaches the declared count issues the MMA. -/
def signBody (i : Instr) (m : MmaMod) (a : Args) (x : Ix) (ls : List Nat) (s : State) : Res :=
  let fm := mmaForm i
  let n := yokeNo a.d
  let y := x.tr.yoke x.rank n
  if signWaits x ls y then .wait .other id
  else
    match signCheck s x a m fm y ls with
    | some t => .trap t
    | none =>
      withRelease x .cl s fun s =>
        let y := signYoke i a x ls s y
        .done (if y.signed.length = y.count then mmaIssue s x i a m fm y
          else modTrain s x.ref.train fun t => t.setYoke x.rank n y) [] none

def execMma (m : MmaMod) (x : Args) (s : State) : Host.Outcome State Fault Refusal :=
  vamer (.mma m x) x false (signBody (.mma m x) m x) s
def execMmag (m : MmaMod) (x : Args) (s : State) : Host.Outcome State Fault Refusal :=
  vamer (.mmag m x) x false (signBody (.mmag m x) m x) s
def execMmaw (m : MmaMod) (g : Bool) (x : Args) (s : State) : Host.Outcome State Fault Refusal :=
  vamer (.mmaw m g x) x false (signBody (.mmaw m g x) m x) s

/-! ### Performance (R299) -/

/-- Scratchpad ranges that an MMA reads. -/
def MmaRec.ranges (r : MmaRec) : List (Nat × Nat) :=
  (r.rows.map fun o => (o, if r.m.fa = .e2m1 && r.aScales.isNone then 68 else 64)) ++
  (match r.aScales with | some o => [(o, 64)] | none => []) ++
  (if r.cellar then [] else [(r.bo, operandBytes r.m.fb)])

/-- A received MMA is held (R299). -/
def mmaHeld (s : State) (core train : Nat) (r : MmaRec) : Bool :=
  !r.bad && ((r.ranges.any fun e => rangeBusy s core train e.1 e.2) ||
    (r.cellar && (List.range (operandBytes r.m.fb / 16)).any fun k => cellarBusy' s (core / 48) (r.bo + 16 * k)))
where
  cellarBusy' (s : State) (die off : Nat) : Bool := nbits off 24 6 = (crefOf s die).1

/-- The operand lines: row `k` of A and column `k` of B, each with its block scales. -/
def mmaRow (t : Train) (rank : Nat) (r : MmaRec) (k : Nat) : Got × Got :=
  let o := r.rows.getD k 0
  (scrGet t rank o 64,
   if r.m.fa = .e2m1 then scrGet t rank (match r.aScales with | some b => b + 4 * k | none => o + 64) 4 else ⟨[], false⟩)
def mmaCol (s : State) (t : Train) (rank die : Nat) (r : MmaRec) (k : Nat) : Got × Got :=
  let rd (o n : Nat) : Got := if r.cellar then cellarRead s die o n else scrGet t rank o n
  (rd (r.bo + 64 * k) 64, if r.m.fb = .e2m1 then rd (r.bo + 1024 + 4 * k) 4 else ⟨[], false⟩)

/-- The tile after the MMA: element 16 m + n with its poison (R293, R299, R300, R313). -/
def mmaTile (s : State) (t : Train) (rank die : Nat) (r : MmaRec) : List (Word96 × Bool) :=
  if r.bad then List.replicate 256 ((if mfmtInt r.m.fa then 0 else nanAf96), false)
  else if r.early then (List.range 256).map fun i => (Config.freeTile (s.fresh + i), false)
  else
    let rows := (List.range 16).map fun k => let g := mmaRow t rank r k; (lineVals r.m.fa g.1.bytes g.2.bytes, g.1.poison || g.2.poison)
    let cols := (List.range 16).map fun k => let g := mmaCol s t rank die r k; (lineVals r.m.fb g.1.bytes g.2.bytes, g.1.poison || g.2.poison)
    let ts := fval .fp32 r.tileScale.toNat
    rows.zipIdx.flatMap fun a =>
      cols.zipIdx.map fun b =>
        let i := 16 * a.2 + b.2
        let rs := fval .fp32 (r.rowScale.getD a.2 0).toNat
        (mmaElem r.m (tileGet t rank r.tile i) (dotVal a.1.1 b.1.1) rs ts,
         a.1.2 || b.1.2 || (!r.m.z && tileBad t rank r.tile i))

/-- The latch takes the A of an MMA of a resident train whose RET is 01; the other trains of the core lose theirs (R295). -/
def setLatch (s : State) (train rank core : Nat) (r : MmaRec) : State :=
  if !r.keep || r.bad || !((mget s.trains train).any fun t => t.res = .resident) then s
  else
    let s := { s with trains := s.trains.map fun e =>
      (e.1, { e.2 with latch := e.2.latch.filter fun l => !(e.2.res = .resident && e.2.cores[l.1]? = some core) }) }
    modTrain s train fun t => { t with
      latch := mset t.latch rank ⟨r.m.fa, r.rows, if r.m.fa = .e2m1 && r.aScales.isNone then 68 else 64, r.aScales⟩ }

/-- A received MMA is performed: position `k` of a rank's list. -/
def performMma (s : State) (train rank k : Nat) : State :=
  match mget s.trains train with
  | none => s
  | some t =>
    let rs := mgetD t.mmas rank []
    match rs[k]? with
    | none => s
    | some r =>
      let core := t.cores.getD rank 0
      if mmaHeld s core train r || (rs.take k).any fun q => q.tile = r.tile then s
      else
        let es := mmaTile s t rank (core / 48) r
        let s := if r.counts then modSys s t.ctx fun y => { y with mmabad := y.mmabad + 1 } else s
        let s := setLatch { s with fresh := s.fresh + 256 } train rank core r
        modTrain s train fun t =>
          let t := { t with mmas := mput [] t.mmas rank (rs.eraseIdx k) }
          if r.drop then t else tileFill t rank r.tile fun i => es.getD i (0, false)

/-- MMA_PERFORM (R299): position `k` of rank `j` of train `i`. -/
def execMmaPerform (s : State) : Host.Outcome State Fault Refusal := .next (performMma s s.ev.i s.ev.j s.ev.k)

/-! ### Tile instructions (R301, R306 to R310) -/

def tileNo : Operand → Nat
  | .tile n => n.toNat
  | _ => 0

/-- Signatures are held for an unissued MMA into the tile. -/
def tileSigned (x : Ix) (tile : Nat) (p : Nat → Bool) : Bool :=
  (mgetD x.tr.yk x.rank []).any fun y => y.2.tile = tile && y.2.signed.any fun e => p e.1
/-- An MMA into the tile has been received and not performed. -/
def tilePending (x : Ix) (tile : Nat) : Bool := (mgetD x.tr.mmas x.rank []).any fun r => r.tile = tile

/-- A tile instruction waits for every tile it names (R301). -/
def onTiles (tiles : List Nat) (received : Bool) (x : Ix) (s : State) (f : State → Res) : Res :=
  if tiles.any fun t => tileSigned x t (fun _ => true) || (received && tilePending x t) then .wait .other id
  else f (settleX x s)

/-- AWAIT (R306). -/
def execAwait (x : Args) (s : State) : Host.Outcome State Fault Refusal :=
  vamer (.await x) x false (fun ix ls s =>
    let fids := fidsOf ix ls
    let tiles := match x.a with | .tile n => [n.toNat] | _ => List.range ix.tr.acc
    if tiles.any fun t => tileSigned ix t (fun f => fids.contains f) || tilePending ix t then .wait .other id
    else withAcquireLoad ix .cl s fun s => .done s [] none) s

/-- A change of a tile of the issuing fragment. -/
def putTile (s : State) (x : Ix) (tile : Nat) (f : Train → Nat → Word96 × Bool) : State :=
  modTrain s x.ref.train fun t => tileFill t x.rank tile (f t)

def execAclr (x : Args) (s : State) : Host.Outcome State Fault Refusal :=
  vamer (.aclr x) x false (fun ix _ s =>
    onTiles [tileNo x.a] true ix s fun s => .done (putTile s ix (tileNo x.a) fun _ _ => (0, false)) [] none) s

def execAmov (x : Args) (s : State) : Host.Outcome State Fault Refusal :=
  vamer (.amov x) x false (fun ix _ s =>
    let d := tileNo x.a
    let c := tileNo x.b
    onTiles [d, c] true ix s fun s =>
      .done (putTile s ix d fun t i => (tileGet t ix.rank c i, tileBad t ix.rank c i)) [] none) s

/-- The sum of AADD. -/
def aaddVal (int : Bool) (d c : Word96) : Word96 :=
  if int then d + c else BitVec.ofNat 96 (fround .af96 .rn 0 (fsumV .rn [fval .af96 d.toNat, fval .af96 c.toNat]))

def execAadd (int : Bool) (x : Args) (s : State) : Host.Outcome State Fault Refusal :=
  vamer (.aadd int x) x false (fun ix _ s =>
    let d := tileNo x.a
    let c := tileNo x.b
    onTiles [d, c] true ix s fun s =>
      .done (putTile s ix d fun t i =>
        (aaddVal int (tileGet t ix.rank d i) (tileGet t ix.rank c i), tileBad t ix.rank d i || tileBad t ix.rank c i)) [] none) s

/-- ADROP: received MMAs into the tile still perform and do not write it (R307). -/
def execAdrop (x : Args) (s : State) : Host.Outcome State Fault Refusal :=
  vamer (.adrop x) x false (fun ix _ s =>
    let n := tileNo x.a
    onTiles [n] false ix s fun s =>
      let s := putTile s ix n fun _ _ => (0, false)
      .done (modTrain s ix.ref.train fun t => { t with
        mmas := mput [] t.mmas ix.rank ((mgetD t.mmas ix.rank []).map fun r => if r.tile = n then { r with drop := true } else r) }) [] none) s

/-- Element `i` under MSCL, with each enabled lane's factor (R308). -/
def msclVal (f : List (Nat × FVal)) (i : Nat) (old : Word96) : Word96 :=
  match f.find? fun e => e.1 = i / 16 with
  | some e => BitVec.ofNat 96 (fround .af96 .rn 0 (fmulV (fval .af96 old.toNat) e.2))
  | none => old

/-- MSCL (R308). -/
def execMscl (x : Args) (s : State) : Host.Outcome State Fault Refusal :=
  vamer (.mscl x) x false (fun ix ls s =>
    let n := tileNo x.a
    onTiles [n] true ix s fun s =>
      let f := ls.map fun l => (l, fval .fp32 (src s ix x 32 .int x.b l))
      .done (putTile s ix n fun t i => (msclVal f i (tileGet t ix.rank n i), tileBad t ix.rank n i)) [] none) s

/-- The checked offset of ALD, AST and ACVT: alignment, range, then the range scoreboard (R301, R309). -/
def tileAt (a : Args) (bytes : Nat) (x : Ix) (ls : List Nat) (s : State) (f : Nat → State → Res) : Res :=
  let l := ls.headD 0
  let o := offVa s x a .disp l
  if o % 16 ≠ 0 then .trap ((trapAt cMEM_ALIGN (bitOf l) (w64 o)).onField .b)
  else if o + bytes > x.tr.scratch then .trap ((trapAt cMEM_RANGE (bitOf l) (w64 o)).onField .b)
  else if rangeBusy s x.core x.ref.train o bytes then .wait .other id
  else onTiles [tileNo a.a] true x s (f o)

def execAld (x : Args) (s : State) : Host.Outcome State Fault Refusal :=
  vamer (.ald x) x false (fun ix ls s =>
    tileAt x 3072 ix ls s fun o s =>
      .done (putTile s ix (tileNo x.a) fun t i =>
        let g := scrGet t ix.rank (o + 12 * i) 12
        (BitVec.ofNat 96 (leVal g.bytes), g.poison)) [] none) s

/-- Bytes written to the scratchpad by a tile instruction, those of `bad` elements poisoned. -/
def tileStore (s : State) (x : Ix) (ls : List Nat) (es : List (Nat × List Byte × Bool)) : State :=
  modTrain s x.ref.train fun t => es.foldl (fun t e => scrStore t x.rank e.1 e.2.1 e.2.2 (fidsOf x ls)) t

def execAst (x : Args) (s : State) : Host.Outcome State Fault Refusal :=
  vamer (.ast x) x false (fun ix ls s =>
    tileAt x 3072 ix ls s fun o s =>
      let n := tileNo x.a
      .done (tileStore s ix ls ((List.range 256).map fun i =>
        (o + 12 * i, leBytes 12 (tileGet ix.tr ix.rank n i).toNat, tileBad ix.tr ix.rank n i))) [] none) s

/-- Width of an element that ACVT writes, in bits. -/
def acvtBits (df : Fmt) (int : Bool) : Nat := if int then 32 else (ffmt df).w

/-- One converted element (R310). -/
def acvtVal (df : Fmt) (int : Bool) (rm : RMode) (sat : Bool) (rnd : Nat) (x : Word96) : Nat :=
  if int && df = .fp64 then pat 32 (if sat then min (max (i96 x) (minS 32)) (maxS 32) else i96 x)
  else
    let df' := if int then Fmt.fp32 else df
    fround df' rm rnd (fsatIf sat df' (if int then fint (i96 x) else fval .af96 x.toNat))

def execAcvt (df : Fmt) (int : Bool) (rm : RMode) (sat : Bool) (x : Args) (s : State) : Host.Outcome State Fault Refusal :=
  vamer (.acvt df int rm sat x) x false (fun ix ls s =>
    let w := acvtBits df int
    tileAt x (32 * w) ix ls s fun o s =>
      let n := tileNo x.a
      let d := if rm = .sr then drawWords 256 ix.co.gen else ([], ix.co.gen)
      let s := modCoach s ix.ref.train ix.ref.coach fun co => { co with gen := d.2 }
      let v (i : Nat) : Nat := acvtVal df int rm sat (d.1.getD i 0) (tileGet ix.tr ix.rank n i)
      let bad (i : Nat) : Bool := tileBad ix.tr ix.rank n i
      let es := if w = 4 then (List.range 128).map fun j => (o + j, leBytes 1 (v (2 * j) + 16 * v (2 * j + 1)), bad (2 * j) || bad (2 * j + 1))
        else (List.range 256).map fun i => (o + w / 8 * i, leBytes (w / 8) (v i), bad i)
      .done (tileStore s ix ls es) [] none) s

end Sys2Proof.Machine
end

