-- ==== Sys2Proof/Machine/Cards.lean ====
section
/-! DEFINITION. Job cards (R320 to R323), queues with their ring and reserved entries (R324 to R328), claims (R330 to R332)
and the changes of level counters that they bring about (R317, R319). -/

namespace Sys2Proof.Machine

open Sys2Proof

/-! ### The card (R320) -/

/-- `n` bytes of a card from byte `lo`. -/
def cardField (bs : List Byte) (lo n : Nat) : Nat := leVal ((bs.drop lo).take n)

def cardOf (bs : List Byte) : Card :=
  let f := cardField bs
  let w (lo : Nat) : Word32 := w32 (f lo 4)
  let q (lo : Nat) : Word64 := w64 (f lo 8)
  let h (lo : Nat) : Word16 := BitVec.ofNat 16 (f lo 2)
  let b (lo : Nat) : Byte := BitVec.ofNat 8 (f lo 1)
  { entry := q 0, spentry := q 8, argbase := q 16, argsize := w 24, argcount := w 28, minchunk := h 32, divisor := b 34
    fixed := nbit (f 35 1) 3, gbar := nbit (f 35 1) 4, vchk := nbit (f 35 1) 5, kind := BitVec.ofNat 2 (f 35 1 / 64)
    claimers := h 36, coaches := h 38, window := h 40, scratch := w 42, acc := b 46, yokes := b 47, launch := w 48
    graph := w 52, phase := w 56, job := w 60, after0 := w 64, after1 := w 68, expvint := w 72, nest := b 76
    d0img := q 80, d1img := q 88, d0len := w 96, d1len := w 100
    rsvd := f 35 1 % 8 ≠ 0 || f 77 3 ≠ 0 || f 104 24 ≠ 0 }

def Card.isFill (c : Card) : Bool := c.kind = 1
def Card.spined (c : Card) : Bool := c.spentry ≠ 0
def Card.hasDrays (c : Card) : Bool := c.d0img ≠ 0 || c.d1img ≠ 0
/-- A field that 0 makes act as 1. -/
def orOne (n : Nat) : Nat := if n = 0 then 1 else n
/-- Records that the card's acceptance adds to its launch (R317). -/
def Card.records (c : Card) : Nat := if c.isFill then 1 else c.argcount.toNat

/-! ### The checks of an enqueue (R323) -/

/-- Launch fields in the ranges of R320. -/
def Card.launchOk (c : Card) : Bool :=
  c.yokes.toNat ≤ 16 && c.acc.toNat ≤ 64 && c.scratch.toNat % 16 = 0 && c.scratch.toNat ≤ 393216 &&
    c.window.toNat % 8 = 0 && 8 ≤ c.window.toNat && c.window.toNat ≤ 512 && 1 ≤ c.coaches.toNat && c.coaches.toNat ≤ 2048 &&
    c.argsize.toNat ≤ 2 ^ 20 && (!c.gbar || c.fixed)

/-- A fill card as R322 has it. -/
def Card.fillOk (c : Card) : Bool :=
  c.coaches = 0 && c.window = 0 && c.scratch = 0 && c.acc = 0 && c.yokes = 0 && c.claimers = 0 && c.divisor = 0 &&
    c.minchunk = 0 && c.spentry = 0 && c.d0img = 0 && c.d1img = 0 && !c.gbar && c.argcount = 1 &&
    c.entry.toNat % 16 = 0 && c.argbase.toNat % 16 = 0 && c.argsize.toNat % 16 = 0

def Card.drayOk (c : Card) : Bool :=
  c.d0len.toNat ≤ 32768 && c.d1len.toNat ≤ 32768 && c.d0len.toNat % 4 = 0 && c.d1len.toNat % 4 = 0

/-- Coaches of one window that a core holds (R12). -/
def coreHolds (window : Nat) : Nat := min 128 (6144 / window)

/-- The train's shape exceeds R24 or R25. -/
def Card.tooBig (c : Card) : Bool :=
  let n := c.coaches.toNat
  let cores := ceilDiv n (coreHolds c.window.toNat)
  32 * n > 65536 || (c.spined && n > 512) || cores > 16 || (c.spined && cores > 4)

/-- How a card is offered (R344, R345, R350). -/
inductive Offer where
  | launch
  | spawn (nest : Nat)
  | fill
deriving DecidableEq, Repr

def Offer.depth : Offer → Nat
  | .spawn n => n + 1
  | _ => 0

def levelsOf (c : Card) : List Word32 := [c.graph, c.phase, c.job]

/-- The addition of R317 for `c`. -/
def addRecords (s : State) (ctx : Nat) (c : Card) : Option State :=
  if c.records = 0 then some s
  else levelAdd ctx levelFuel s c.launch.toNat c.records (some (levelsOf c))

def queueUsable (s : State) (ctx q : Nat) : Bool :=
  let k := s.queue q
  q < 65536 && k.owner.toNat = ctx && k.en && 2 ≤ k.size.toNat

/-- The first failing code of R323, 0 for none. -/
def cardStatus (s : State) (ctx q : Nat) (o : Offer) (c : Card) : Nat :=
  let badLevel (l : Word32) : Bool := l ≠ 0 && !levelValid s ctx l.toNat
  if !queueUsable s ctx q then 2
  else if c.rsvd || 2 ≤ c.kind.toNat || !c.drayOk || !(if c.isFill then c.fillOk else c.launchOk) then 3
  else if !c.isFill && c.tooBig then 4
  else if o.depth > 15 then 5
  else if c.isFill ≠ decide (o = .fill) then 6
  else if o = .fill && ((s.ctx ctx).depth > 1 || c.argbase.toNat + c.argsize.toNat > 2 ^ 30) then 7
  else if c.launch = 0 || badLevel c.launch || badLevel c.graph || badLevel c.phase || badLevel c.job ||
      badLevel c.after0 || badLevel c.after1 then 8
  else if (addRecords s ctx c).isNone then 9
  else 0

/-! ### Places (R325, R326) -/

def Queue.cap (q : Queue) : Nat := 2 ^ q.size.toNat
def Queue.used (q : Queue) : Nat := (q.tail - q.head).toNat
def Queue.ringFull (q : Queue) : Bool := q.used ≥ q.cap
/-- Machine address of ring position `i`. -/
def Queue.slotAddr (q : Queue) (i : Word32) : Nat := 2 ^ 32 * q.ringh.toNat + q.ringl.toNat + 128 * (i.toNat % q.cap)

/-- Bytes written at home under key 0 by a device. -/
def deviceWrite (s : State) (ma : Nat) (bs : List Byte) : State :=
  let s := (wordsOf ma bs.length).foldl (fun s wa => dropOwner s wa) s
  homeWrite (tagFrame s ma 0) ma bs false

/-- The first free place of a card of depth `d`. -/
def freePlace (q : Queue) (d : Nat) : Option Place :=
  if !q.ringFull then some (.ring q.tail.toNat)
  else if (mget q.rsv d).isNone then some (.entry d) else none

def Queue.card? (q : Queue) : Place → Option QCard
  | .ring i => mget q.ring i
  | .entry c => mget q.rsv c
def Queue.setCard (q : Queue) (p : Place) (c : QCard) : Queue :=
  match p with
  | .ring i => { q with ring := mset q.ring i c }
  | .entry k => { q with rsv := mset q.rsv k c }

/-- HEAD passes every consecutive GONE position (R328); `fuel` bounds the ring. -/
def advanceHead : Nat → Queue → Queue
  | 0, q => q
  | n + 1, q =>
    if q.head = q.tail then q
    else match mget q.ring q.head.toNat with
      | some c => if c.st = .gone then advanceHead n { q with ring := mdel q.ring q.head.toNat, head := q.head + 1 } else q
      | none => q

/-- A card leaves its place (R327, R328). -/
def cardGone (s : State) (n : Nat) (p : Place) : State :=
  let q := s.queue n
  match p with
  | .entry c => setQueue s n { q with rsv := mdel q.rsv c }
  | .ring i =>
    match mget q.ring i with
    | some c => setQueue s n (advanceHead (q.cap + 1) { q with ring := mset q.ring i { c with st := .gone } })
    | none => s

/-- The card is put into its place, in state ADMIT, with its publication number and NEST (R325, R326). -/
def placeCard (s : State) (n : Nat) (p : Place) (ctx depth : Nat) (c : Card) (raw : List Byte) : State :=
  let q := s.queue n
  let k : QCard := ⟨{ c with nest := BitVec.ofNat 8 depth }, ctx, .admitting, c.records, 0, q.pubs⟩
  let bytes := raw.take 76 ++ [BitVec.ofNat 8 depth] ++ raw.drop 77
  match p with
  | .ring i =>
    let s := deviceWrite s (q.slotAddr (w32 i)) bytes
    setQueue s n { q with ring := mset q.ring i k, tail := if q.tail.toNat = i then q.tail + 1 else q.tail, pubs := q.pubs + 1 }
  | .entry e => setQueue s n { q with rsv := mset q.rsv e k, pubs := q.pubs + 1 }

def placeAddr (s : State) (n : Nat) : Place → Nat
  | .ring i => (s.queue n).slotAddr (w32 i)
  | .entry _ => 0

/-- A ring position whose frame is tagged with another key cannot be written; the producer waits (R362). -/
def placeBlocked (s : State) (n : Nat) : Place → Bool
  | .ring i => keyConflict s (placeAddr s n (.ring i)) 0
  | .entry _ => false

/-- Acceptance (R326): the addition of R317, then the place. -/
def acceptCard (s : State) (n : Nat) (p : Place) (ctx : Nat) (o : Offer) (c : Card) (raw : List Byte) : State :=
  placeCard ((addRecords s ctx c).getD s) n p ctx o.depth c raw

/-! ### Cancel, refusal, claims -/

/-- A level of the card's chain is cancelled (R319). -/
def chainCancelled (s : State) (k : QCard) : Bool :=
  [k.card.launch, k.card.graph, k.card.phase, k.card.job].any fun l => (levelGet s k.ctx l.toNat).cancel

/-- The unclaimed records of a card are dropped and it leaves (R317, R328). -/
def dropCard (s : State) (n : Nat) (p : Place) : State :=
  match (s.queue n).card? p with
  | none => s
  | some k => testLaunch (cardGone (levelSub s k.ctx k.card.launch.toNat k.left) n p) (2 ^ 32 * n + k.pub)

/-- REFUSED: the code goes to the launch record, then the records are dropped. -/
def refuseCard (s : State) (n : Nat) (p : Place) (code : Nat) : State :=
  match (s.queue n).card? p with
  | none => s
  | some k => dropCard (levelCode s k.ctx k.card.launch.toNat code) n p

/-- Places that are examined: the ring position at HEAD and the reserved entries (R328). -/
def Queue.examined (q : Queue) : List (Place × QCard) :=
  (match mget q.ring q.head.toNat with
   | some k => if q.head = q.tail then [] else [(Place.ring q.head.toNat, k)]
   | none => []) ++ q.rsv.map fun e => (Place.entry e.1, e.2)

/-- The candidate of a claim: the READY card with the lowest publication number (R330). -/
def Queue.candidate (q : Queue) : Option (Place × QCard) :=
  (q.examined.filter fun e => e.2.st = .ready).foldl (fun b e =>
    match b with
    | none => some e
    | some m => if e.2.pub < m.2.pub then some e else some m) none

/-- The chunk of a claim (R330). -/
def chunkOf (k : QCard) : Nat :=
  let mc := orOne k.card.minchunk.toNat
  if k.card.fixed then min k.left mc
  else min k.left (max mc (ceilDiv k.left (orOne k.card.divisor.toNat * orOne k.card.claimers.toNat)))

/-- What a claim hands out: first record, count, and the claims made before it. -/
structure Claim where
  first : Nat
  count : Nat
  num : Nat
  card : QCard
deriving DecidableEq, Repr

/-- A claim of the card in place `p` (R330); a cancelled card is dropped and yields nothing (R319). -/
def claimCard (s : State) (n : Nat) (p : Place) : Option Claim × State :=
  match (s.queue n).card? p with
  | none => (none, s)
  | some k =>
    if chainCancelled s k then (none, dropCard s n p)
    else
      let c := chunkOf k
      let s := setQueue s n ((s.queue n).setCard p { k with left := k.left - c, claims := k.claims + 1 })
      let s := if k.left = c then cardGone s n p else s
      (some ⟨k.card.argcount.toNat - k.left, c, k.claims, k⟩, countEvent s k.ctx 0x0B0 n (fun _ => some n) 1)

/-- The queues that a dispatcher tries: its own, then those of its steal group in ascending order, wrapping (R331). -/
def stealOrder (s : State) (n : Nat) : List Nat :=
  let q := s.queue n
  let same := if q.group = 0 then [] else
    (s.queues.filter fun e => e.1 ≠ n && e.2.group = q.group && e.2.owner = q.owner).map (·.1)
  n :: (same.filter (· > n) ++ same.filter (· < n))

/-! ### A card read by an instruction (R343) -/

/-- The card at the address in field C, read as a plain 128-byte load for the lowest enabled lane; the whole fragment's
enabled lanes park at a translation fault. -/
def onCard (x : Ix) (va : Nat) (ls : List Nat) (s : State) (f : List Byte → State → Res) : Res :=
  let bad := maskOf ls
  if va % 128 ≠ 0 then .trap (trapAt cMEM_ALIGN bad (w64 va))
  else if !canonical va then .trap (trapAt cMEM_RANGE bad (w64 va))
  else
    match xlate s x.cluster x.coreTlb x.ctx va .load x.fr.replay true with
    | (.ok ma key, s) =>
      if !isHbm ma then .trap ((trapAt cMEM_RANGE bad (w64 va)).onField .c)
      else if keyConflict s ma key then .trap (trapAt cKEY_CONFLICT bad (w64 va))
      else
        match loadGlob s x.ctx x.cluster ma 128 false key false with
        | none => .wait .other id
        | some (g, s) => if g.poison then .done s [] (some (trapAt cDATA_POISON bad 0)) else f g.bytes s
    | (.held, _) => .wait .other id
    | (xl, s) =>
      let r := parkLanes s x .load [⟨bad, va55 va / 65536, w64 va, xl⟩]
      .done r.1 r.2 none

end Sys2Proof.Machine
end

