-- ==== Sys2Proof/Machine/Tasks.lean ====
section
/-! DEFINITION. Class 0xB: queues, cards and levels (R341 to R350). -/

namespace Sys2Proof.Machine

open Sys2Proof

/-- A 32-bit result to every enabled lane. -/
def give (x : Ix) (a : Args) (ls : List Nat) (n : Nat) (s : State) : Res := .done (wr s x a.a 32 (ls.map fun l => (l, n))) [] none

/-- The scope of R318: `.pt`, and `.sy` for the root. -/
def levelScope (ctx : Nat) : Scope := if ctx = 0 then .sy else .pt

/-! ### Enqueues -/

/-- Producers that wait for room in queue `n`: the number of each wait and the card's depth (R326). -/
def producers (s : State) (n : Nat) : List (Nat × Nat) :=
  (s.trains.flatMap fun e =>
    if e.2.res = .resident && !e.2.held && ctxRuns s e.2.ctx then
      (e.2.fragRefs e.1).filterMap fun r =>
        match (s.frag? r).bind (·.wait) with
        | some (k, .queue q d) => if q = n then some (k, d) else none
        | _ => none
    else []) ++
  s.host.mbox.filterMap fun e => match (if e.2.busy then e.2.wait else none) with
    | some (k, _) => if (e.2.arg1.toNat % 65536) = n then some (k, 0) else none
    | none => none

/-- The place for a card of depth `d` whose producer's wait has number `w`: an earlier producer that could be accepted goes
first. -/
def turnPlace (s : State) (n d w : Nat) : Option Place :=
  if (producers s n).any fun p => p.1 < w && (freePlace (s.queue n) p.2).isSome then none
  else match freePlace (s.queue n) d with
    | some p => if placeBlocked s n p then none else some p
    | none => none

/-- A wait that keeps its place in the order of producers. -/
def waitQueue (w : WaitOn) : Res → Res
  | .wait _ f => .wait w f
  | r => r

/-- ENQ, ENQT, SPAWN and CFILL (R343, R344, R350); `limit` is ENQT's count of rt. -/
def enqBody (a : Args) (offer : Ix → Offer) (limit : Ix → State → Option Nat) (x : Ix) (ls : List Nat) (s : State) : Res :=
  let l := ls.headD 0
  let q := src s x a 32 .int a.b l
  onCard x (src s x a 64 .int a.c l) ls s fun bs s =>
    let c := cardOf bs
    let o := offer x
    let st := cardStatus s x.ctx q o c
    if st ≠ 0 then give x a ls st s
    else
      let w : WaitOn := .queue q o.depth
      let d := (limit x s).map fun n => x.fr.deadline.getD (s.rtime + rtCap n)
      match turnPlace s q o.depth (waitNo s x w) with
      | some p => waitQueue w (withRelease x (levelScope x.ctx) s fun s => give x a ls 0 (acceptCard s q p x.ctx o c bs))
      | none =>
        if (match d with | some t => decide (t ≤ s.rtime) | none => false) then give x a ls 1 s
        else .wait w fun s =>
          let s := match freePlace (s.queue q) o.depth with
            | some p => if placeBlocked s q p && x.fr.wait.isNone then structConflict s x.ctx (placeAddr s q p) 5 else s
            | none => s
          modFrag s x.ref fun f => { f with deadline := d }

def execEnq (x : Args) (s : State) : Host.Outcome State Fault Refusal :=
  vamer (.enq x) x false (enqBody x (fun _ => .launch) fun _ _ => none) s
def execEnqt (x : Args) (s : State) : Host.Outcome State Fault Refusal :=
  vamer (.enqt x) x false (fun ix ls s =>
    enqBody x (fun _ => .launch) (fun ix s => some (src s ix x 32 .int x.d (ls.headD 0))) ix ls s) s
def execSpawn (x : Args) (s : State) : Host.Outcome State Fault Refusal :=
  vamer (.spawn x) x false (enqBody x (fun ix => .spawn ix.tr.nest) fun _ _ => none) s
def execCfill (x : Args) (s : State) : Host.Outcome State Fault Refusal :=
  vamer (.cfill x) x false (enqBody x (fun _ => .fill) fun _ _ => none) s

/-! ### Reservation and publication (R345) -/

/-- The issuer may not reserve in queue `n`, or its ring is full. -/
def noSlot (s : State) (ctx n : Nat) : Bool := n ≥ 65536 || (s.queue n).owner.toNat ≠ ctx || (s.queue n).ringFull

def execQpubRsv (x : Args) (s : State) : Host.Outcome State Fault Refusal :=
  vamer (.qpubRsv x) x false (fun ix ls s =>
    let n := src s ix x 32 .int x.b (ls.headD 0)
    let q := s.queue n
    if noSlot s ix.ctx n then give ix x ls 0xFFFFFFFF s
    else
      let k : QCard := ⟨cardOf [], ix.ctx, .reserved ix.ref.train, 0, 0, 0⟩
      give ix x ls (q.tail.toNat % q.cap) (setQueue s n { q with ring := mset q.ring q.tail.toNat k, tail := q.tail + 1 })) s

/-- The ring position that a train has reserved under an index. -/
def reservedAt (q : Queue) (train c : Nat) : Option Nat :=
  (q.ring.find? fun e => e.2.st = .reserved train && e.1 % q.cap = c).map (·.1)

/-- The position that the train of a fragment has reserved in queue `n`. -/
def slotOf (s : State) (x : Ix) (n c : Nat) : Option Nat :=
  if n < 65536 then reservedAt (s.queue n) x.ref.train c else none

/-- The card in a ring position as the queue controller reads it, under key 0 (R362). -/
def ringCard (s : State) (n i : Nat) : Option (List Byte) :=
  let ma := (s.queue n).slotAddr (w32 i)
  if keyConflict s ma 0 || (List.range 128).any fun j => isPoison s (ma + j) then none
  else some ((List.range 128).map fun j => homeByte s (ma + j) 0)

/-- The reserved card `i` of queue `n` is checked and published, or leaves the ring. -/
def publish (x : Ix) (a : Args) (ls : List Nat) (n i : Nat) (s : State) : Res :=
  match ringCard s n i with
  | none => give x a ls (if queueUsable s x.ctx n then 3 else 2) (cardGone s n (.ring i))
  | some bs =>
    let st := cardStatus s x.ctx n .launch (cardOf bs)
    if st ≠ 0 then give x a ls st (cardGone s n (.ring i))
    else give x a ls 0 (acceptCard s n (.ring i) x.ctx .launch (cardOf bs) bs)

/-- QPUB: the release comes first, since it covers the stores that wrote the card. -/
def qpubBody (x : Ix) (a : Args) (ls : List Nat) (n : Nat) (i : Option Nat) (s : State) : Res :=
  match i with
  | none => give x a ls 2 s
  | some i => withRelease x (levelScope x.ctx) s (publish x a ls n i)

def execQpub (x : Args) (s : State) : Host.Outcome State Fault Refusal :=
  vamer (.qpub x) x false (fun ix ls s =>
    let l := ls.headD 0
    let n := src s ix x 32 .int x.b l
    qpubBody ix x ls n (slotOf s ix n (src s ix x 32 .int x.c l)) s) s

/-! ### Claims and state (R346) -/

/-- The train's own card, where it is a candidate (R332). -/
def ownCard (s : State) (t : Train) : Option Place :=
  (((s.queue t.queue.toNat).examined.find? fun e => e.2.st = .ready && e.2.pub = t.pub).map (·.1))

def execQclaim (x : Args) (s : State) : Host.Outcome State Fault Refusal :=
  vamer (.qclaim x) x false (fun ix ls s =>
    let pair (first count : Nat) (s : State) : Res := .done (wr s ix x.a 64 (ls.map fun l => (l, first + 2 ^ 32 * count))) [] none
    match ownCard s ix.tr with
    | none => pair 0 0 s
    | some p =>
      match claimCard s ix.tr.queue.toNat p with
      | (none, s) => pair 0 0 s
      | (some c, s) =>
        pair (if c.count = 0 then 0 else c.first) c.count
          (modTrain s ix.ref.train fun t => { t with claimed := t.claimed + c.count })) s

/-- HSTATE (R346). -/
def headState (q : Queue) : Nat :=
  if q.head = q.tail then 0
  else match (mget q.ring q.head.toNat).map QCard.st with
    | some (.reserved _) => 1
    | some .admitting => 2
    | some .wait => 3
    | some .ready => 4
    | some .filling => 5
    | _ => 0

def queueState (s : State) (ctx n : Nat) : Nat :=
  let q := s.queue n
  if n ≥ 65536 || q.owner.toNat ≠ ctx then 2 ^ 64 - 1 else 2 ^ 32 * q.used + 2 ^ 16 * rsvMap q + headState q

def execQstat (x : Args) (s : State) : Host.Outcome State Fault Refusal :=
  vamer (.qstat x) x false (fun ix ls s =>
    .done (wr s ix x.a 64 (ls.map fun l => (l, queueState s ix.ctx (src s ix x 32 .int x.b (ls.headD 0))))) [] none) s

/-! ### Levels (R347 to R349) -/

/-- The level that field B names. -/
def levelOp (s : State) (x : Ix) (a : Args) (ls : List Nat) : Nat := src s x a 32 .int a.b (ls.headD 0)

/-- SJOIN. -/
def execSjoin (x : Args) (s : State) : Host.Outcome State Fault Refusal :=
  vamer (.sjoin x) x false (fun ix ls s =>
    let id := levelOp s ix x ls
    if !levelValid s ix.ctx id then .done s [] none
    else if (levelGet s ix.ctx id).count = 0 then withAcquireLoad ix .pt s fun s => .done s [] none
    else .wait (.sjoin id) fun s => s) s

/-- LVWAIT and LVWAIT.t; an invalid level reads COUNT = 0. -/
def execLvwait (t : Bool) (x : Args) (s : State) : Host.Outcome State Fault Refusal :=
  vamer (.lvwait t x) x false (fun ix ls s =>
    let zero := (levelGet s ix.ctx (levelOp s ix x ls)).count = 0
    if t then timedResult x .pt (src s ix x 32 .int x.c (ls.headD 0)) zero ix ls s
    else if zero then withAcquireLoad ix .pt s fun s => give ix x ls 1 s
    else .wait .other id) s

/-- Bytes [11:8] of a level record. -/
def levelStatus (l : Level) : Nat := (if l.cancel then 2 ^ 31 else 0) + l.code.toNat

def execLvrd (st : Bool) (x : Args) (s : State) : Host.Outcome State Fault Refusal :=
  vamer (.lvrd st x) x false (fun ix ls s =>
    let l := levelGet s ix.ctx (levelOp s ix x ls)
    give ix x ls (if st then levelStatus l else l.count.toNat) s) s

def execLvinc (x : Args) (s : State) : Host.Outcome State Fault Refusal :=
  vamer (.lvinc x) x false (fun ix ls s =>
    let id := levelOp s ix x ls
    let d := (w32 (src s ix x 32 .int x.c (ls.headD 0))).toInt
    let go (s : State) : Option State := if d = 0 then some s else levelAdd ix.ctx levelFuel s id d none
    if (go s).isNone then .trap (trapOf cLEVEL_RANGE)
    else withRelease ix (levelScope ix.ctx) s fun s =>
      give ix x ls (levelGet s ix.ctx id).count.toNat ((go s).getD s)) s

/-- CANCEL of a level changes to `b`; answers whether it changed. -/
def putCancel (s : State) (ctx id : Nat) (b : Bool) : Bool × State :=
  match levelAddr s ctx id with
  | none => (false, s)
  | some ma =>
    let l := levelAt s ma
    if l.cancel = b || (!b && l.count ≠ 0) then (false, s) else (true, levelPut s ctx ma { l with cancel := b } true)

def execCancel (x : Args) (s : State) : Host.Outcome State Fault Refusal :=
  vamer (.cancel x) x false (fun ix ls s =>
    let r := putCancel s ix.ctx (levelOp s ix x ls) true
    give ix x ls (if r.1 then 1 else 0) r.2) s
def execCancelClr (x : Args) (s : State) : Host.Outcome State Fault Refusal :=
  vamer (.cancelClr x) x false (fun ix ls s =>
    let r := putCancel s ix.ctx (levelOp s ix x ls) false
    give ix x ls (if r.1 then 1 else 0) r.2) s

/-- ENQUEUE_ACCEPT (R326): the earliest waiting producer of queue `i` that can be accepted takes the next turn. -/
def execEnqueueAccept (s : State) : Host.Outcome State Fault Refusal :=
  let n := s.ev.i
  let ready := (producers s n).filter fun p => (freePlace (s.queue n) p.2).isSome
  match sortNat (ready.map (·.1)) with
  | [] => .next s
  | k :: _ =>
    .next (match (s.trains.flatMap fun e => e.2.fragRefs e.1).find? fun r =>
        ((s.frag? r).bind (·.wait)).map (·.1) = some k with
      | some r => { s with agenda := .issue (.frag r) false :: s.agenda }
      | none => s)

end Sys2Proof.Machine
end

