-- ==== Sys2Proof/Machine/Image.lean ====
section
/-! DEFINITION. The save area of a context (R354, R414): where its structures lie, and the bytes of a train's image (R415). Bytes
whose place the spec leaves to the firmware are the free `Config.saveByte` of what they hold (log 14). -/

namespace Sys2Proof.Machine

open Sys2Proof

/-! ### Accesses to a save area (R362) -/

/-- The parts of `n` bytes from an address on each 64 KiB page: first address, position among the bytes, and number. -/
def pageParts (a n : Nat) : List (Nat × Nat × Nat) :=
  if n = 0 then []
  else (List.range ((a + n - 1) / 65536 - a / 65536 + 1)).map fun i =>
    let lo := max a (65536 * (a / 65536 + i))
    (lo, lo - a, min (a + n) (65536 * (a / 65536 + i + 1)) - lo)

/-- Machine address, position and number of each part of `n` bytes at an offset of a context's save area; an address that its
parent no longer reaches has no part. -/
def saveParts (s : State) (c off n : Nat) : List (Nat × Nat × Nat) :=
  let x := s.ctx c
  (pageParts (x.save + off) n).filterMap fun p =>
    match lookup s x.parent p.1 false false with
    | .ok ma => some (ma, p.2)
    | .error _ => none

/-- A frame under another key stops an access to the range (R362). -/
def saveConflict (s : State) (c off n : Nat) : Bool := (saveParts s c off n).any fun p => keyConflict s p.1 0

/-- 16 bytes written into a partition's cellar, every die's copy clean. -/
def cellarPut (s : State) (part off : Nat) (bs : List Byte) : State :=
  { s with
    cellar := mput [] s.cellar part ((List.range bs.length).foldl (fun m i => Memory.write m (off + i) (bs.getD i 0)) (mgetD s.cellar part []))
    cellarPoison := (partDies s part).foldl (fun m d => mput [] m d ((mgetD m d []).filter fun a => a < off || off + bs.length ≤ a)) s.cellarPoison }

/-- The firmware writes bytes at an offset of a save area, under key 0 in HBM4. -/
def saveWrite (s : State) (c off : Nat) (bs : List Byte) : State :=
  (saveParts s c off bs.length).foldl (fun s p =>
    let b := (bs.drop p.2.1).take p.2.2
    if isHbm p.1 then deviceWrite s p.1 b
    else if isCellar p.1 then cellarPut s (partitionOf s (s.ctx c).parent) (nbits p.1 0 30) b
    else if isHost p.1 then hostWrite s (busOf p.1) b
    else s) s

/-- Marks of poison follow their bytes into a save area (R197). -/
def savePoison (s : State) (c : Nat) (offs : List Nat) : State :=
  { s with poison := (offs.flatMap fun o => (saveParts s c o 1).map (·.1)).foldl (fun l a => if l.contains a then l else a :: l) s.poison }

/-- What waited for a structure of the save area has gone on. -/
def saveClear (s : State) (c : Nat) : State :=
  if (s.ctx c).conflicts.isEmpty then s
  else modCtx s c fun x => { x with conflicts := x.conflicts.filter fun a => a < x.save || x.save + x.savelen ≤ a }

/-- `n` bytes of a structure whose layout is the firmware's. -/
def saveBytes (k : SaveSect) (xs : List Nat) (n : Nat) : List Byte := (List.range n).map (Config.saveByte k xs)

/-! ### The context region (R414) -/

/-- What the context state holds. -/
def contextWords (s : State) (c : Nat) : List Nat :=
  let x := s.ctx c
  ([x.time, x.mem, x.ext].flatMap fun b => [b.rate, b.depth, b.tok]) ++
    [x.reflect.toNat, x.sys.tvec.toNat, x.sys.drainDl.toNat, x.ticket, x.tickDone, x.fqTail, x.hcallSeq]

/-- The context state at 0x0400. -/
def saveContext (s : State) (c : Nat) : State := saveWrite s c 0x400 (saveBytes .context (contextWords s c) 1024)

/-- A directory entry at 0x2C00: VALID 0 without an image. -/
def saveEntry (s : State) (c i : Nat) (xs : List Nat) : State := saveWrite s c (0x2C00 + 16 * i) (saveBytes .directory xs 16)

/-! ### The image of a train on one core rank (R415) -/

def rankCoaches (t : Train) (r : Nat) : List Coach := (t.coaches.filter fun e => t.rankOf.getD e.1 0 = r).map (·.2)

/-- Bytes to the next multiple of 16. -/
def upTo16 (n : Nat) : Nat := (n + 15) / 16 * 16

/-- Entries of the range scoreboard that are saved with a rank. -/
def rankBoard (t : Train) (r : Nat) : List SavedHull := t.board.filter (·.rank = r)

def rankFrames (t : Train) (r : Nat) : Nat := (rankCoaches t r).foldl (fun k c => k + c.frames.length) 0

/-- Size of a rank's image. -/
def rankSize (t : Train) (r : Nat) : Nat :=
  let c := (rankCoaches t r).length
  64 + (if r = 0 then 192 else 0) + 480 * c + 512 * c + 128 * t.window * c + 4096 * c + upTo16 t.scratch + 3072 * t.acc +
    544 * t.yokes + 16 * (rankBoard t r).length + 1024 * rankFrames t r + (if t.dimg.isEmpty then 0 else 16640)

/-- Identity, shape and section sizes. -/
def headerWords (t : Train) (r : Nat) : List Nat :=
  [t.ctx, t.queue.toNat, t.launch.toNat, t.graph.toNat, t.phase.toNat, t.job.toNat, t.num.toNat, t.first.toNat, t.count.toNat, r,
    t.ncoach, (rankCoaches t r).length, t.window, t.scratch, t.acc, t.yokes, (rankBoard t r).length, rankFrames t r, rankSize t r]

def barrierBytes (t : Train) : List Byte :=
  (List.range 16).flatMap fun i =>
    let b := mgetD t.bars i ⟨0, 0, 0⟩
    leBytes 4 b.ph.toNat ++ leBytes 4 b.cnt ++ leBytes 4 b.narr

/-- The state of a fragment as its entry names it: eligible, parked, rejoin, barrier, SJOIN, NAP or timed wait. -/
def fragState (f : Frag) : Nat :=
  if f.park.isSome then 1
  else if f.joined.isSome then 2
  else if f.bar.isSome then 3
  else match f.wait with
    | some (_, .sjoin _) => 4
    | _ => if f.nap.isSome || f.deadline.isSome then 5 else 0

/-- A coach record: generator, STEP, and the entries of its fragments. -/
def coachWords (co : Coach) : List Nat :=
  [co.gen.toNat, if co.step then 1 else 0] ++ co.frags.flatMap fun f =>
    [f.1, f.2.mask.toNat, fragState f.2, ((co.frameOf f.2.mask).map (·.1)).getD 255, ((f.2.nap <|> f.2.deadline).getD 0) % 2 ^ 48]

/-- A fibre record; of a lane slot whose fibre has ended only LIVE is given. -/
def fibreBytes (co : Coach) (i : Nat) : List Byte :=
  match mget co.lanes i with
  | none => (saveBytes .fibre [i] 16).set 7 (Config.saveByte .fibre [i] 7 &&& 0xF7#8)
  | some l =>
    let f : Option Frag := (co.frags.find? fun f => f.2.mask.getLsbD i).map (·.2)
    leBytes 8 (va55 (match f with | some g => g.pc | none => 0).toNat + 2 ^ 60 * l.rfc.toNat + 2 ^ 59 + (if f.any (fun g => g.park.isSome) then 2 ^ 58 else 0)) ++
      leBytes 4 l.fid.toNat ++ leBytes 2 l.predWord.toNat ++ leBytes 2 l.arrived.toNat

/-- Vector registers, lane L's v i at 4 (W L + i). -/
def vregBytes (co : Coach) (w : Nat) : List Byte :=
  (List.range 32).flatMap fun l => (List.range w).flatMap fun i =>
    match mget co.lanes l with
    | some x => leBytes 4 (x.reg i).toNat
    | none => saveBytes .vector [l, i] 4

def sregBytes (co : Coach) : List Byte := (List.range 1024).flatMap fun i => leBytes 4 (co.sreg i).toNat

def scratchBytes (t : Train) (r : Nat) : List Byte :=
  (List.range t.scratch).map (Memory.read (mgetD t.scr r [])) ++ saveBytes .pad [] (upTo16 t.scratch - t.scratch)

/-- Tile images (R97). -/
def tileBytes (t : Train) (r : Nat) : List Byte :=
  (List.range t.acc).flatMap fun k => (List.range 256).flatMap fun i => leBytes 12 (tileGet t r k i).toNat

def yokeWords (y : Yoke) : List Nat :=
  [y.count, y.signed.length, y.addr.toNat, y.tile, y.anchor.1, y.anchor.2] ++ y.signed.map (·.1)

def rqBytes (e : RqEntry) : List Byte :=
  leBytes 12 e.word.toNat ++
  leBytes 8 (va55 e.pc.toNat + 2 ^ 63 + (if e.landed then 2 ^ 62 else 0) + (if e.discard then 2 ^ 61 else 0) +
    (if e.inframe then 2 ^ 60 else 0)) ++
  leBytes 4 e.lanes.toNat

/-- A trap frame (R403, R404). -/
def frameBytes (f : Frame) : List Byte :=
  leBytes 8 f.tpc.toNat ++ leBytes 8 f.rpc.toNat ++ leBytes 12 f.word.toNat ++ leBytes 4 f.lanes.toNat ++
  leBytes 2 0 ++ leBytes 2 f.code.toNat ++ leBytes 1 f.field.toNat ++ leBytes 1 f.rq.length ++ leBytes 1 f.frag.toNat ++
  leBytes 1 f.pfrag.toNat ++ leBytes 4 f.sibs.toNat ++ leBytes 4 0 ++ leBytes 8 f.detail0.toNat ++ leBytes 8 f.detail1.toNat ++
  ((List.range 32).flatMap fun l => leBytes 2 (mgetD f.preds l 0).toNat) ++
  ((f.rq.take 16).flatMap rqBytes ++ (List.range (16 - f.rq.length)).flatMap fun i =>
    leBytes 16 0 ++ leBytes 8 (if f.spare.getLsbD (f.rq.length + i) then 2 ^ 29 else 0)) ++
  ((List.range 128).flatMap fun i => leBytes 4 (mgetD f.savedv i 0).toNat)

def drayWords (d : Dray) : List Nat :=
  [d.pc.toNat, d.mtvec.toNat, d.mscratch.toNat, d.mepc.toNat, d.mcause.toNat, d.mtval.toNat, d.minstret, d.drth.toNat,
    if d.halted then 1 else 0] ++ (List.range 32).map (fun i => (mgetD d.x i 0).toNat) ++ d.priv.flatMap fun e => [e.1, e.2.toNat]

/-- The image of a rank: its sections in the order of R415, those of the coaches before the scratchpad. -/
def rankHead (t : Train) (r : Nat) : List Byte :=
  let cs := rankCoaches t r
  saveBytes .header (headerWords t r) 64 ++ (if r = 0 then barrierBytes t else []) ++
    cs.flatMap (fun c => saveBytes .coach (coachWords c) 480) ++ cs.flatMap (fun c => (List.range 32).flatMap (fibreBytes c)) ++
    cs.flatMap (vregBytes · t.window) ++ cs.flatMap sregBytes

/-- The sections after the tiles; `slots` are the engine slots that the train's work still occupies on the core. -/
def rankTail (t : Train) (r : Nat) (slots : List Nat) : List Byte :=
  (List.range t.yokes).flatMap (fun n => saveBytes .yoke (yokeWords (mgetD (mgetD t.yk r []) n default)) 544) ++
    (rankBoard t r).flatMap (fun e => saveBytes .board [e.slot, e.lo, e.hi, if slots.contains e.slot then 0 else 1] 16) ++
    (rankCoaches t r).flatMap (fun c => c.frames.flatMap fun f => frameBytes f.2) ++
    (if t.dimg.isEmpty then [] else
      saveBytes .dray ((t.drays.filter fun d => d.1 / 2 = r).flatMap fun d => d.1 % 2 :: drayWords d.2) 16640)

def rankImage (t : Train) (r : Nat) (slots : List Nat) : List Byte :=
  rankHead t r ++ scratchBytes t r ++ tileBytes t r ++ rankTail t r slots

/-- Poisoned bytes of a rank's image, by offset: those of the scratchpad and of the tiles. -/
def rankPoison (t : Train) (r : Nat) : List Nat :=
  let c := (rankCoaches t r).length
  let base := 64 + (if r = 0 then 192 else 0) + 480 * c + 512 * c + 128 * t.window * c + 4096 * c
  (mgetD t.scrPoison r []).map (base + ·) ++
    (mgetD t.tilePoison r []).flatMap fun k => (List.range 12).map fun i => base + upTo16 t.scratch + 12 * k + i

/-! ### Where images lie (R414) -/

/-- Ranges of a save area that hold images: offset and length. -/
def imagesOf (s : State) (c : Nat) : List (Nat × Nat) :=
  s.trains.flatMap fun e =>
    if e.2.ctx = c then (List.range e.2.img.length).map fun r => ((e.2.img.getD r (0, 0)).2, rankSize e.2 r) else []

/-- The lowest place for `n` bytes between `lo` and `hi`, at a multiple of 16. -/
def placeIn (used : List (Nat × Nat)) (lo hi n : Nat) : Option Nat :=
  (sortNat (lo :: (used.map fun u => upTo16 (u.1 + u.2)).filter (lo ≤ ·))).find? fun b =>
    b + n ≤ hi && !used.any fun u => overlap b n u.1 u.2

/-- The place of a rank's image: the core region of its core; for a suspension, or where that is full, beyond. -/
def placeRank (s : State) (t : Train) (used : List (Nat × Nat)) (r : Nat) : Option Nat :=
  let x := s.ctx t.ctx
  let n := rankSize t r
  let beyond := placeIn used (65536 + 2 ^ 21 * x.regions.length) x.savelen n
  if t.res = .suspended then beyond
  else match x.regions.findIdx? (· = t.cores.getD r 0) with
    | some i => (placeIn used (65536 + 2 ^ 21 * i) (65536 + 2 ^ 21 * (i + 1)) n).or beyond
    | none => beyond

/-- Directory entries and places for the images of a train's ranks; none while there is no space. -/
def placeImages (s : State) (t : Train) : Option (List (Nat × Nat)) :=
  let dirs := s.trains.flatMap fun e => if e.2.ctx = t.ctx then e.2.img.map (·.1) else []
  let free := ((List.range 3392).filter fun i => !dirs.contains i).take t.cores.length
  ((List.range t.cores.length).foldl (fun (a : Option (List (Nat × Nat) × List (Nat × Nat))) r =>
    match a with
    | none => none
    | some (l, used) =>
      match free[r]?, placeRank s t used r with
      | some d, some o => some (l ++ [(d, o)], (o, rankSize t r) :: used)
      | _, _ => none) (some ([], imagesOf s t.ctx))).map (·.1)

/-- The directory entry, the image and the poison of every rank are written. -/
def writeImages (s : State) (t : Train) : State :=
  (List.range t.cores.length).foldl (fun s r =>
    let p := t.img.getD r (0, 0)
    let slots := (s.core (t.cores.getD r 0)).slots.map (·.1)
    let s := saveEntry s t.ctx p.1 [1, p.2, t.launch.toNat, t.num.toNat, r, if t.res = .suspended then 1 else 0]
    savePoison (saveWrite s t.ctx p.2 (rankImage t r slots)) t.ctx ((rankPoison t r).map (p.2 + ·))) (saveContext s t.ctx)

/-- A frame under another key stops the writing of a train's images: the offset of the structure that meets it. -/
def imageStop (s : State) (t : Train) : Option Nat :=
  if saveConflict s t.ctx 0 65536 then some 0
  else ((List.range t.cores.length).map fun r => (t.img.getD r (0, 0)).2).zipIdx.findSome? fun p =>
    if saveConflict s t.ctx p.1 (rankSize t p.2) then some p.1 else none

end Sys2Proof.Machine
end

