-- ==== Sys2Proof/Machine/Trains.lean ====
section
/-! DEFINITION. The life of a train: room on cores and the choice of cores (R12, R24, R25, R285, R290, R335, R336), placement
(R140, R187, R289, R318), stop and restore (R413 to R417, R269, R311), and retirement (R268, R317, R337). -/

namespace Sys2Proof.Machine

open Sys2Proof

/-! ### Device accesses by virtual address -/

/-- Translation for a unit that belongs to no cluster: a fresh walk, and no TLB (R358). -/
def deviceXl (s : State) (c va : Nat) (acc : Access) : Xl :=
  match (walk s 192 c (va55 va)).1 with
  | .error x => x
  | .ok l =>
    let key : Byte := BitVec.ofNat 8 (nbits l.e 8 8)
    if !leafPermits l.e acc then .page 0 false l.cpa key
    else match lookup s c l.cpa (accNeedsW acc) (accNeedsX acc) with
      | .ok ma => .ok ma key
      | .error (o, a) => .grant 0 o a l.cpa key

/-- The same, where the access could be performed in HBM4. -/
def deviceXlate (s : State) (c va : Nat) (acc : Access) : Option (Nat × Byte) :=
  if !canonical va then none
  else match deviceXl s c va acc with
    | .ok ma key => if isHbm ma && !keyConflict s ma key then some (ma, key) else none
    | _ => none

/-- `n` bytes at a virtual address, by bypass loads at home; none where one cannot be read or is poisoned. -/
def deviceRead (s : State) (c va n : Nat) : Option (List Byte) :=
  let page (v : Nat) : Option (Nat × Byte) := deviceXlate s c v .load
  let first := page va
  let at_ (i : Nat) : Option Byte :=
    let a := (va + i) % 2 ^ 64
    match (if a / 65536 = va / 65536 then first.map fun p => (p.1 + i, p.2) else page a) with
    | some (ma, key) => if isPoison s ma then none else some (homeByte s ma key)
    | none => none
  (List.range n).mapM at_

/-- A store by a device at a virtual address, performed at home; none where it would fault (R428). -/
def deviceStore (s : State) (c va : Nat) (bs : List Byte) : Option State :=
  (List.range bs.length).foldl (fun (o : Option State) i =>
    match o with
    | none => none
    | some s =>
      match deviceXlate s c ((va + i) % 2 ^ 64) .store with
      | none => none
      | some (ma, key) =>
        let s := dropOwner s (ma / 4)
        some (homeWrite (tagFrame s ma key) ma [bs.getD i 0] false)) (some s)

/-! ### Room (R12, R335) -/

structure Shape where
  coaches : Nat
  window : Nat
  scratch : Nat
  acc : Nat
  yokes : Nat
  spined : Bool
  drays : Bool
deriving DecidableEq, Repr

def Card.shape (c : Card) : Shape :=
  ⟨c.coaches.toNat, c.window.toNat, c.scratch.toNat, c.acc.toNat, c.yokes.toNat, c.spined, c.hasDrays⟩
def Train.shape (t : Train) : Shape := ⟨t.ncoach, t.window, t.scratch, t.acc, t.yokes, t.spined, !t.dimg.isEmpty⟩

/-- What trains use of one core: coaches, register words, tiles, yokes, scratchpad ranges, drays. -/
structure Use where
  coaches : Nat
  words : Nat
  tiles : Nat
  yokes : Nat
  scr : List (Nat × Nat)
  dray : Bool
deriving DecidableEq, Repr

def Use.none : Use := ⟨0, 0, 0, 0, [], false⟩
def Use.add (u : Use) (sh : Shape) (n base : Nat) : Use :=
  ⟨u.coaches + n, u.words + 32 * sh.window * n, u.tiles + sh.acc, u.yokes + sh.yokes, (base, sh.scratch) :: u.scr, u.dray || sh.drays⟩

/-- Coaches that a train has on one rank. -/
def Train.onRank (t : Train) (r : Nat) : Nat := (t.rankOf.filter (· = r)).length

/-- What resident trains use of a core. -/
def coreUse (s : State) (core : Nat) : Use :=
  s.trains.foldl (fun u e =>
    if e.2.res ≠ .resident then u
    else match e.2.cores.findIdx? (· = core) with
      | some r => u.add e.2.shape (e.2.onRank r) (e.2.sbase.getD r 0)
      | none => u) Use.none

/-- The lowest base of `n` free scratchpad bytes (R187). -/
def scratchGap (used : List (Nat × Nat)) (n : Nat) : Option Nat :=
  (sortNat (0 :: used.map fun u => u.1 + u.2)).find? fun b => b + n ≤ 393216 && !used.any fun u => u.2 ≠ 0 && n ≠ 0 && overlap b n u.1 u.2

/-- Coaches of a shape for which the core has room. -/
def Use.room (u : Use) (sh : Shape) : Nat :=
  if u.tiles + sh.acc > 64 || u.yokes + sh.yokes > 16 || (u.dray && sh.drays) || (scratchGap u.scr sh.scratch).isNone then 0
  else min (128 - u.coaches) ((196608 - u.words) / (32 * sh.window))

/-- The spine of the cluster serves no other spined train (R25). -/
def spineFree (s : State) (cl : Nat) : Bool := !s.trains.any fun e => e.2.res = .resident && e.2.spined && e.2.spineCl = cl

/-! ### The choice of cores (R336) -/

/-- Tiles or yokes, and coaches that fit one core: all of them go on one (R290). -/
def Shape.single (sh : Shape) : Bool := (sh.acc ≠ 0 || sh.yokes ≠ 0) && sh.coaches ≤ coreHolds sh.window

/-- Coaches are dealt to the cores in the order given, within R24, R25 and R290; none where some are left. -/
def dealCores (sh : Shape) (room : Nat → Nat) : List Nat → Nat → List (Nat × Nat) → Option (List (Nat × Nat))
  | [], need, acc => if need = 0 then some acc else none
  | c :: t, need, acc =>
    if need = 0 then some acc
    else
      let k := min need (room c)
      let cls := (acc.map fun e => e.1 / 4).eraseDups
      if k = 0 || (sh.single && k < need) || acc.length ≥ 16 || (!cls.contains (c / 4) && (cls.length ≥ 4 || (sh.spined && cls.length ≥ 1))) then
        dealCores sh room t need acc
      else dealCores sh room t (need - k) (acc ++ [(c, k)])

/-- A plan with `first` first: the others are the cores of its C-die in pointer order after it. -/
def planFrom (sh : Shape) (room : Nat → Nat) (spineOk : Nat → Bool) (cores : List Nat) (first : Nat) : Option (List (Nat × Nat)) :=
  if room first = 0 || (sh.spined && !spineOk (first / 4)) then none
  else
    let i := (cores.findIdx? (· = first)).getD 0
    let rest := (cores.drop (i + 1) ++ cores.take i).filter fun c => c / 48 = first / 48
    match dealCores sh room (first :: rest) sh.coaches [] with
    | some ((c, k) :: p) => if c = first then some ((c, k) :: p) else none
    | _ => none

/-! ### Cores of a context (R329, R371, R453) -/

/-- The context that a core's bind record names. -/
def boundCtx (s : State) (core : Nat) : Option Nat := if (s.core core).bind.valid then some (s.core core).bind.ctx.toNat else none

/-- The core is among the cores on which the context's trains may be placed: bound to it, or held by a CORES grant below
the bound context (R329). -/
def placementCore (s : State) (c core : Nat) : Bool :=
  match boundCtx s core with
  | none => false
  | some b => b = c || ((keyOf (s.ctx c).cores core).isSome && inSubtree s b c)

def allCores : List Nat := List.range 768

/-- Cores with a valid bind record. -/
def liveCores (s : State) : List Nat := (s.cores.filter fun e => e.2.bind.valid).map (·.1)

def placementCores (s : State) (c : Nat) : List Nat := (liveCores s).filter (placementCore s c)

/-- Plans for `n` trains of a shape that can all be resident at once, with what `use` says is used (R248, R329, R337): each has a
first core among `firsts` and further cores of `cores` (R336). -/
def planMany (sh : Shape) (firsts cores : List Nat) : Nat → (Nat → Use) → (Nat → Bool) → Option (List (List (Nat × Nat)))
  | 0, _, _ => some []
  | n + 1, use, spineOk =>
    if (cores.map fun k => (use k).room sh).sum < (n + 1) * sh.coaches then none
    else
      firsts.findSome? fun c =>
        match planFrom sh (fun k => (use k).room sh) spineOk cores c with
        | none => none
        | some p =>
          let use' (k : Nat) : Use :=
            match p.find? fun e => e.1 = k with
            | some e => (use k).add sh e.2 ((scratchGap (use k).scr sh.scratch).getD 0)
            | none => use k
          let cl := (p.headD (0, 0)).1 / 4
          (planMany sh firsts cores n use' fun k => spineOk k && !(sh.spined && k = cl)).map (p :: ·)

/-- `n` trains of a shape can all be resident at once on the cores. -/
def fitMany (sh : Shape) (cores : List Nat) (n : Nat) (use : Nat → Use) (spineOk : Nat → Bool) : Bool :=
  (planMany sh cores cores n use spineOk).isSome

/-- The context whose slice it is on a core, or the bound context while no slice runs. -/
def holderOf (s : State) (core : Nat) : Option Nat :=
  match boundCtx s core with
  | none => none
  | some b => match (s.core core).slice with
    | some (c, _) => some c
    | none => some b

/-- An atomic of a train that has been stopped on the core is not performed yet; the pre-empting context issues nothing there before it
is (R223). -/
def atomsLeft (s : State) (core : Nat) : Bool :=
  s.steps.any fun a =>
    let t (n : Nat) : Bool := (mget s.trains n).any fun tr => tr.res ≠ .resident && tr.cores.contains core
    match a.who with
    | .frag f => t f.train
    | .dray n _ _ => t n

/-- Cores whose slice a context has and whose TIME bucket is not empty (R370). -/
def coresNow (s : State) (c : Nat) : List Nat :=
  if outOf s c .time then [] else (liveCores s).filter fun k => holderOf s k = some c && !atomsLeft s k

/-! ### Placement -/

/-- A dray image in its instruction store; bytes that cannot be read are free (log 6). -/
def loadImage (s : State) (ctx : Nat) (img : Word64 × Nat) : Memory × State :=
  match deviceRead s ctx img.1.toNat img.2 with
  | some bs => ((List.range bs.length).foldl (fun m i => Memory.write m i (bs.getD i 0)) [], s)
  | none =>
    ((List.range img.2).foldl (fun m i => Memory.write m i (Config.imageByte (s.fresh + i))) [], { s with fresh := s.fresh + img.2 })

/-- A coach of 32 fibres, or a spine of one, at its entry (R101, R140). -/
def Coach.start (lanes : Nat) (fid : Nat → Word32) (pc : Word64) (gen : Word32) : Coach where
  gen := gen
  step := false
  sregs := []
  sbad := []
  frags := [(0, Frag.fresh (maskOf (List.range lanes)) pc none)]
  lanes := (List.range lanes).map fun i => (i, Lane.init (fid i))
  pend := []
  frames := []
  passed := []
  ras := []
  left := []

def Dray.start (store : Memory) (cyc : Nat) : Dray where
  pc := 0
  x := []
  mtvec := 0
  mscratch := 0
  mepc := 0
  mcause := 0
  mtval := 0
  minstret := 0
  cycBase := cyc
  drth := 0
  priv := []
  store := store
  halted := false
  wait := none

/-- The drays of a train, both of each core whose image is named (R285). -/
def startDrays (imgs : List (Word64 × Nat)) (ctx die : Nat) (ranks : Nat) (s : State) : SMap Dray × State :=
  (List.range ranks).foldl (fun (r : SMap Dray × State) k =>
    (List.range imgs.length).foldl (fun (r : SMap Dray × State) h =>
      let img := imgs.getD h (0, 0)
      if img.1 = 0 then r
      else
        let m := loadImage r.2 ctx img
        (mset r.1 (2 * k + h) (Dray.start m.1 (cycOf s die)), m.2)) r) ([], s)

/-- Numbers in ascending order of a key. -/
def sortKey (key : Nat → Nat) (l : List Nat) : List Nat :=
  l.foldr (fun a l => (l.takeWhile fun b => key b < key a) ++ [a] ++ l.dropWhile fun b => key b < key a) []

/-- Coaches dealt to cores become ranks in ascending %core order (R210); the dispatcher gives the lowest coach numbers to
the core chosen first (R336). -/
def rankPlan (s : State) (ctx : Nat) (p : List (Nat × Nat)) : List Nat × List Nat :=
  let rel (c : Nat) : Nat := (relCore s ctx c).getD c
  let cores := sortKey rel (p.map (·.1))
  let rank (c : Nat) : Nat := (cores.findIdx? (· = c)).getD 0
  (cores, p.flatMap fun e => (List.range e.2).map fun _ => rank e.1)

/-- An allocation takes its bytes of each core's scratchpad (R187, R190). -/
def clearPads (s : State) (cores sbase : List Nat) (n : Nat) : State :=
  (cores.zip sbase).foldl (fun s e => if (s.core e.1).pad.isEmpty then s
    else modCore s e.1 fun k => { k with pad := k.pad.filter fun b => b.1 < e.2 || e.2 + n ≤ b.1 }) s

/-- The train of a claim on its cores: fibres at their entries, registers, scratchpad and tiles zero (R44, R140, R187,
R289), with the acquire of its start (R318). -/
def startTrain (s : State) (q : Nat) (cl : Claim) (p : List (Nat × Nat)) : State :=
  let c := cl.card.card
  let ctx := cl.card.ctx
  let rp := rankPlan s ctx p
  let die := (p.headD (0, 0)).1 / 48
  let imgs := if c.hasDrays then [(c.d0img, c.d0len.toNat), (c.d1img, c.d1len.toNat)] else []
  let dr := startDrays imgs ctx die rp.1.length s
  let s := dr.2
  let n := c.coaches.toNat
  let t : Train := {
    ctx := ctx
    queue := BitVec.ofNat 16 q
    launch := c.launch
    graph := c.graph
    phase := c.phase
    job := c.job
    argbase := c.argbase
    first := w32 cl.first
    count := w32 cl.count
    num := w32 cl.num
    nest := c.nest.toNat
    pub := cl.card.pub
    claimed := cl.count
    entry := c.entry
    window := c.window.toNat
    scratch := c.scratch.toNat
    acc := c.acc.toNat
    yokes := c.yokes.toNat
    nfib := 32 * n
    ncoach := n
    gbar := c.gbar
    cores := rp.1
    rankOf := rp.2
    sbase := rp.1.map fun k => (scratchGap (coreUse s k).scr c.scratch.toNat).getD 0
    coaches := (List.range n).map fun k => (k, Coach.start 32 (fun i => w32 (32 * k + i)) c.entry (w32 (0x9E3779B9 * (k + 1))))
    spined := c.spined
    spine := if c.spined then some (Coach.start 1 (fun _ => 0xFFFFFFFF) c.spentry 0x6A09E667) else none
    spineCl := (p.headD (0, 0)).1 / 4
    fidNext := 32 * n
    bars := []
    och := []
    scr := []
    scrPoison := []
    tiles := []
    tilePoison := []
    yk := []
    mmas := []
    latch := []
    drays := dr.1
    dimg := imgs
    res := .resident
    ready := false
    placed := s.placeSeq
    held := false
    lateFaults := []
    img := []
    saved := false
    board := [] }
  let s := clearPads s rp.1 t.sbase t.scratch
  let s := { s with trains := mset s.trains s.trainNext t, trainNext := s.trainNext + 1, placeSeq := s.placeSeq + 1 }
  (rp.1.map (· / 4)).eraseDups.foldl acquireEvent s

/-! ### Stop (R413) -/

/-- MMAs that have been received are performed, as far as they can be (R311). -/
def drainMmas (t rank : Nat) : Nat → State → State
  | 0, s => s
  | n + 1, s =>
    let k := match mget s.trains t with
      | some tr => (mgetD tr.mmas rank []).length
      | none => 0
    if k = 0 then s else drainMmas t rank n ((List.range k).foldl (fun s i => performMma s t rank (k - 1 - i)) s)

def mmaCount (s : State) (t : Nat) : Nat :=
  match mget s.trains t with
  | some tr => tr.mmas.foldl (fun n e => n + e.2.length) 0
  | none => 0

/-- Clusters on which a train's fibres and spine run. -/
def Train.clusters (t : Train) : List Nat := (t.cores.map (· / 4) ++ if t.spined then [t.spineCl] else []).eraseDups

/-- What a train has issued is performed as far as it can be, and its clusters release (R186, R223, R413). -/
def settleTrain (s : State) (t : Nat) : State :=
  match mget s.trains t with
  | none => s
  | some tr =>
    let s := tr.coachIds.foldl (fun s c => settle s t c) s
    tr.clusters.foldl releaseEvent s

def Dray.stopped (d : Dray) : Dray := { d with wait := none }

/-- Slots of copy engines that hold a train's work. -/
def trainSlots (s : State) (t : Nat) : Nat := s.cores.foldl (fun n e => n + (e.2.slots.filter fun x => x.2.train = t).length) 0

/-- Nothing that the train issued is still to be performed. -/
def trainQuiet (s : State) (t : Nat) : Bool :=
  (match mget s.trains t with
   | none => true
   | some tr => tr.coachIds.all fun c => settled s t c) &&
  mmaCount s t = 0 && trainSlots s t = 0

/-- The hulls of a train's work on the copy engines of its cores (R265, R269). -/
def workHulls (s : State) (t : Nat) (tr : Train) : List SavedHull :=
  (List.range tr.cores.length).flatMap fun r =>
    (s.core (tr.cores.getD r 0)).slots.filterMap fun e =>
      if e.2.train = t then e.2.hull.map fun h => ⟨r, e.1, h.1.toNat, h.2.toNat⟩ else none

/-- The images of a saved train are written (R413, R414): they hold all of it once nothing that it issued is outstanding. A frame under
another key keeps them waiting (R362), and so does want of space. The root has no save area. -/
def saveTrain (s : State) (t : Nat) : State :=
  match mget s.trains t with
  | none => s
  | some tr =>
    if tr.ctx = 0 then setTrain s t { tr with saved := trainQuiet s t }
    else
      match (if tr.img.isEmpty then placeImages s tr else some tr.img) with
      | none => s
      | some img =>
        let tr := { tr with img := img }
        let s := setTrain s t tr
        match imageStop s tr with
        | some o => structConflict s tr.ctx ((s.ctx tr.ctx).save + o) 6
        | none => modTrain (saveClear (writeImages s tr) tr.ctx) t fun x => { x with saved := trainQuiet s t }

/-- Images that are not complete yet are written again. -/
def resave (s : State) : State :=
  s.trains.foldl (fun s e => if e.2.res ≠ .resident && !e.2.saved then saveTrain s e.1 else s) s

/-- The save of a train is complete (R269, R413). -/
def saveDone (s : State) (t : Nat) : Bool :=
  match mget s.trains t with
  | none => true
  | some tr => trainQuiet s t && (tr.res = .resident || tr.saved)

/-- A train's images are no longer needed: their directory entries are cleared (R415). -/
def dropImages (s : State) (t : Nat) : State :=
  match mget s.trains t with
  | none => s
  | some tr => setTrain (tr.img.foldl (fun s p => saveEntry s tr.ctx p.1 [0]) s) t { tr with img := [], saved := false, board := [] }

/-- The train stops at an instruction boundary: its issued work is performed, its state saved, its cores, drays and spine
free (R413); pending replies, copies and held MMAs go on into the saved state (R186, R269, R311; log 14). -/
def stopTrain (s : State) (t : Nat) (r : Residence) : State :=
  match mget s.trains t with
  | none => s
  | some tr0 =>
    if tr0.res ≠ .resident then s
    else
      let s := settleTrain s t
      let s := (List.range tr0.cores.length).foldl (fun s k => drainMmas t k (mmaCount s t) s) s
      saveTrain (modTrain s t fun tr => { tr with
        res := r
        ready := false
        latch := []
        drays := tr.drays.map fun d => (d.1, d.2.stopped)
        img := []
        saved := false
        board := workHulls s t tr }) t

/-! ### Restore (R338, R416) -/

/-- Frame slots are renumbered into the free slots of the receiving core (R416). -/
def renumFrames (used : List Nat) (co : Coach) : Coach × List Nat :=
  let free := (List.range 8).filter fun i => !used.contains i
  let pairs := (co.frames.map (·.1)).zip free
  let tgt (k : Nat) : Nat := ((pairs.find? fun p => p.1 = k).map (·.2)).getD k
  ({ co with
      frames := co.frames.foldl (fun m f => mset m (tgt f.1) f.2) []
      pend := co.pend.map fun p => { p with frame := p.frame.map tgt } },
   used ++ pairs.map (·.2))

/-- Frame slots in use on a core by resident trains. -/
def frameUse (s : State) (core : Nat) : List Nat :=
  s.trains.flatMap fun e =>
    if e.2.res = .resident then
      e.2.coaches.flatMap fun c => if e.2.cores[e.2.rankOf.getD c.1 0]? = some core then c.2.frames.map (·.1) else []
    else []

/-- A rank of a saved train fits on a core, beside the ranks seated on `acc`; at most 4 clusters. -/
def seatFits (s : State) (t : Train) (acc : List Nat) (c : Nat) : Bool :=
  let r := acc.length
  let cls := (acc.map (· / 4)).eraseDups
  (coreUse s c).room t.shape ≥ t.onRank r && (frameUse s c).length + rankFrames t r ≤ 8 && (cls.contains (c / 4) || cls.length < 4)

/-- A core for each rank, in ascending order among `cores` of one C-die (R210). -/
def seatRanks (s : State) (t : Train) : List Nat → List Nat → Option (List Nat)
  | [], acc => if acc.length = t.cores.length then some acc else none
  | c :: cs, acc =>
    if acc.length = t.cores.length then some acc
    else if seatFits s t acc c then
      match seatRanks s t cs (acc ++ [c]) with
      | some p => some p
      | none => seatRanks s t cs acc
    else seatRanks s t cs acc

/-- Where a saved train can be restored now: its own cores first, then any of its context's cores where its shape fits; a
spined train on the cluster that it left (R338). -/
def restorePlan (s : State) (t : Train) : Option (List Nat) :=
  let now := (coresNow s t.ctx).filter fun c => !t.spined || c / 4 = t.spineCl
  if t.spined && !spineFree s t.spineCl then none
  else
    let own := t.cores.filter fun c => now.contains c
    if own = t.cores && (List.range t.cores.length).all fun r =>
        let c := t.cores.getD r 0
        (coreUse s c).room t.shape ≥ t.onRank r && (frameUse s c).length + rankFrames t r ≤ 8 then some t.cores
    else ((now.map (· / 48)).eraseDups).findSome? fun d =>
      seatRanks s t (sortKey (fun c => (relCore s t.ctx c).getD c) (now.filter fun c => c / 48 = d)) []

/-- A wait on casks of another cluster begins again. -/
def rewait (cl : Nat) (w : Option (Nat × WaitOn)) : Option (Nat × WaitOn) :=
  match w with
  | some (_, .cask k _) => if k = cl then w else none
  | some (_, .gateGone) => w
  | _ => w

def Coach.reseat (cl : Nat) (co : Coach) : Coach := { co with frags := co.frags.map fun f => (f.1, { f.2 with wait := rewait cl f.2.wait }) }

/-- The train is restored on cores, one for each rank, with the acquire of R413; faults of its copies are taken (R269). -/
def restoreTrain (s : State) (t : Nat) (cores : List Nat) : State :=
  let s := dropImages s t
  match mget s.trains t with
  | none => s
  | some tr =>
    let sb := cores.map fun k => (scratchGap (coreUse s k).scr tr.scratch).getD 0
    let cs := (List.range cores.length).foldl (fun (m : SMap Coach) r =>
      let core := cores.getD r 0
      ((tr.coaches.filter fun c => tr.rankOf.getD c.1 0 = r).foldl (fun (a : SMap Coach × List Nat) c =>
        let k := renumFrames a.2 (c.2.reseat (core / 4))
        (mset a.1 c.1 k.1, k.2)) (m, frameUse s core)).1) tr.coaches
    let oldDie := tr.cores.headD 0 / 48
    let newDie := cores.headD 0 / 48
    let cyc (d : Dray) : Nat := (cycOf s newDie + 2 ^ 64 - (cycOf s oldDie + 2 ^ 64 - d.cycBase) % 2 ^ 64) % 2 ^ 64
    let dr := tr.drays.foldl (fun (a : SMap Dray × State) d =>
      let m := loadImage a.2 tr.ctx (tr.dimg.getD (d.1 % 2) (0, 0))
      (mset a.1 d.1 { d.2 with store := m.1, cycBase := cyc d.2 }, m.2)) ([], s)
    let s := setTrain dr.2 t { tr with
      cores := cores
      sbase := sb
      coaches := cs
      drays := dr.1
      res := .resident
      ready := false
      placed := s.placeSeq
      lateFaults := [] }
    let s := { clearPads s cores sb tr.scratch with placeSeq := s.placeSeq + 1 }
    let s := ((cores.map (· / 4)) ++ (if tr.spined then [tr.spineCl] else [])).eraseDups.foldl acquireEvent s
    tr.lateFaults.foldl (fun s r => trapQ s t r) s

/-! ### Retirement (R161, R268, R317) -/

/-- Every fibre and the spine thread of a train have ended. -/
def Train.allEnded (t : Train) : Bool :=
  t.coaches.all (fun c => c.2.lanes.isEmpty) &&
  (match t.spine with
   | some c => c.lanes.isEmpty
   | none => true)

/-- R268: everything has ended, every dray is halted, and all that the train issued has been performed. -/
def canRetire (s : State) (t : Nat) : Bool :=
  match mget s.trains t with
  | none => false
  | some tr =>
    tr.res = .resident && tr.allEnded && tr.drays.all (fun d => d.2.halted) && trainQuiet s t &&
      !s.stores.any (fun p => match p.who with | .dray k _ _ => k = t | .frag f => f.train = t)

/-- Ring positions that a retiring train had reserved are empty (R328). -/
def freeReserved (s : State) (t : Nat) : State :=
  s.queues.foldl (fun s e =>
    (e.2.ring.filter fun k => k.2.st = .reserved t).foldl (fun s k => cardGone s e.1 (.ring k.1)) s) s

/-- The launch's barrier no longer counts a train; the record goes with the launch's last train (R248). -/
def leaveLaunch (s : State) (tr : Train) (t : Nat) : State :=
  if !tr.gbar then s
  else
    let k := lbarKey tr
    let l := lbarOf s k
    if s.trains.any fun e => e.2.gbar && lbarKey e.2 = k then
      testLaunch { s with lbars := mset s.lbars k { l with arrived := l.arrived.filter (· ≠ t) } } k
    else { s with lbars := mdel s.lbars k }

/-- The train leaves the package; `levels`: its records are subtracted from its launch (R317). -/
def removeTrain (s : State) (t : Nat) (levels : Bool) : State :=
  match mget s.trains t with
  | none => s
  | some tr =>
    let s := { dropImages s t with trains := mdel s.trains t }
    let s := leaveLaunch (freeReserved s t) tr t
    if levels then levelSub s tr.ctx tr.launch.toNat tr.claimed else s

/-- TRAIN_RETIRE (R268, R337): train `i`. -/
def execTrainRetire (s : State) : Host.Outcome State Fault Refusal :=
  .next (if canRetire s s.ev.i then removeTrain s s.ev.i true else s)

/-- A live fragment waits in SJOIN on a level whose COUNT is not 0. -/
def sjoins (s : State) (ctx : Nat) (f : Frag) : Bool :=
  f.park.isNone && f.due.isNone &&
  match f.wait with
  | some (_, .sjoin l) => (levelGet s ctx l).count ≠ 0
  | _ => false

/-- The instant of suspension (R338): every live fibre waits in SJOIN, and space for the image exists (R415). -/
def canSuspend (s : State) (t : Nat) : Bool :=
  match mget s.trains t with
  | none => false
  | some tr =>
    tr.res = .resident && !tr.held && !tr.allEnded &&
      (tr.ctx = 0 || (placeImages s { tr with res := .suspended, board := workHulls s t tr }).isSome) &&
      tr.coachIds.all fun c => match tr.coach? c with
        | some co => co.frags.all fun f => sjoins s tr.ctx f.2
        | none => true

/-- TRAIN_SUSPEND (R338): train `i`. -/
def execTrainSuspend (s : State) : Host.Outcome State Fault Refusal :=
  .next (if canSuspend s s.ev.i then stopTrain s s.ev.i .suspended else s)

/-- A saved train may be restored: its save is complete (R269), its context runs, and a suspended one has a level that
reached 0 (R338, R416). -/
def mayResume (s : State) (t : Nat) (tr : Train) : Bool :=
  tr.res ≠ .resident && saveDone s t && ctxRuns s tr.ctx &&
    (tr.res = .stopped || tr.ready)

/-- TRAIN_RESUME (R338, R413): train `i` is restored where it fits. -/
def execTrainResume (s : State) : Host.Outcome State Fault Refusal :=
  .next (match mget s.trains s.ev.i with
    | none => s
    | some tr =>
      if mayResume s s.ev.i tr then
        match restorePlan s tr with
        | some cores => restoreTrain s s.ev.i cores
        | none => s
      else s)

end Sys2Proof.Machine
end

