-- ==== Sys2Proof/Machine/Sched.lean ====
section
/-! DEFINITION. The queue controllers and dispatchers: admission (R328, R329), placement with claims and steals (R330 to R337,
R433, R453), cellar fills (R339, R340), slot tables and sensor classes (R333, R334), and trace records (R434). -/

namespace Sys2Proof.Machine

open Sys2Proof

/-! ### Trace records (R434) -/

def satInc16 (n : Nat) : Nat := min (n + 1) 0xFFFF

/-- A record lost: the upper half of LOST counts traces, the lower half series records (R420). -/
def countLost (s : State) (ctx : Nat) (trace : Bool) : State :=
  modSys s ctx fun y =>
    let hi := nbits y.lost.toNat 16 16
    let lo := nbits y.lost.toNat 0 16
    { y with lost := w32 (if trace then 65536 * satInc16 hi + lo else 65536 * hi + satInc16 lo) }

/-- A 32-byte trace record of a train of the context, while TRLEN ≠ 0; one whose store would fault is lost (R428). -/
def traceRecord (s : State) (ctx ty engine rank : Nat) (t : Train) (value : Word32) (pc : Word64) : State :=
  let y := (s.ctx ctx).sys
  if y.trlen = 0 then s
  else
    let bs := leBytes 1 rank ++ leBytes 1 (engine * 16 + ty) ++ leBytes 2 t.queue.toNat ++ leBytes 4 t.num.toNat ++
      leBytes 4 t.pub ++ leBytes 4 value.toNat ++ leBytes 8 pc.toNat ++ leBytes 8 s.rtime
    match deviceStore s ctx ((y.trbase.toNat + y.trptr.toNat) % 2 ^ 64) bs with
    | some s => modSys s ctx fun y => { y with trptr := w32 ((y.trptr.toNat + 32) % y.trlen.toNat) }
    | none => countLost s ctx true

/-! ### Admission (R328, R329) -/

/-- Trains that the card makes with the smallest chunks. -/
def cardTrains (left : Nat) (c : Card) : Nat := ceilDiv left (orOne c.minchunk.toNat)

/-- The admission code of a launch card, 0 for none (R329). -/
def admitCode (s : State) (k : QCard) : Nat :=
  let cores := placementCores s k.ctx
  let fits (n : Nat) : Bool := fitMany k.card.shape cores n (fun _ => Use.none) fun _ => true
  if !fits 1 then 0x10
  else if k.card.gbar && !fits (cardTrains k.card.argcount.toNat k.card) then 0x11 else 0

/-- A card is examined where it stands. -/
def isExamined (q : Queue) (p : Place) : Bool := q.examined.any fun e => e.1 = p

def setCardSt (s : State) (n : Nat) (p : Place) (st : CardSt) : State :=
  match (s.queue n).card? p with
  | some k => setQueue s n ((s.queue n).setCard p { k with st := st })
  | none => s

/-- CARD_ADMISSION (R328, R329): queue `i`, place `place`. -/
def execCardAdmission (s : State) : Host.Outcome State Fault Refusal :=
  let n := s.ev.i
  let p := s.ev.place
  match (s.queue n).card? p with
  | none => .next s
  | some k =>
    .next (if k.st ≠ .admitting || !isExamined (s.queue n) p then s
      else if chainCancelled s k then dropCard s n p
      else if k.card.isFill then setCardSt s n p .wait
      else if k.card.argcount = 0 then cardGone s n p
      else
        let c := admitCode s k
        if c ≠ 0 then refuseCard s n p c else setCardSt s n p .wait)

/-- The vintage of a context's partition (R339). -/
def vintageOf (s : State) (c : Nat) : Nat := mgetD s.vintage (partitionOf s c) 0

def afterDone (s : State) (k : QCard) : Bool :=
  [k.card.after0, k.card.after1].all fun l => l = 0 || (levelGet s k.ctx l.toNat).count = 0

/-- CARD_READY (R328): queue `i`, place `place`: a card in WAIT whose AFTER levels read 0; a cancelled card in WAIT or READY
is dropped. -/
def execCardReady (s : State) : Host.Outcome State Fault Refusal :=
  let n := s.ev.i
  let p := s.ev.place
  match (s.queue n).card? p with
  | none => .next s
  | some k =>
    .next (if (k.st ≠ .wait && k.st ≠ .ready) || !isExamined (s.queue n) p then s
      else if chainCancelled s k then dropCard s n p
      else if k.st ≠ .wait || !afterDone s k then s
      else if k.card.vchk && k.card.expvint.toNat ≠ vintageOf s k.ctx then refuseCard s n p 0x12
      else setCardSt s n p .ready)

/-! ### Placement (R335 to R337, R453) -/

/-- A fill of the partition is READY or under way: no new train of it is placed (R340). -/
def fillBlocks (s : State) (part : Nat) : Bool :=
  s.queues.any fun e => (e.2.examined.any fun c =>
    c.2.card.isFill && (c.2.st = .ready || c.2.st = .filling) && partitionOf s c.2.ctx = part)

/-- The first queue, in a dispatcher's order, with a candidate (R331). -/
def firstCandidate (s : State) (n : Nat) : Option (Nat × Place × QCard) :=
  (stealOrder s n).findSome? fun q => ((s.queue q).candidate).map fun c => (q, c)

/-- The queue from which a core claims for a context now (R453). -/
def coreQueue (s : State) (c core : Nat) : Option Nat :=
  if boundCtx s core = some c then some (s.core core).bind.queue.toNat
  else
    let own := (s.queues.filter fun e => e.2.owner.toNat = c).map (·.1)
    let order := match mget (s.core core).lastQ c with
      | some l => own.filter (· > l) ++ own.filter (· ≤ l)
      | none => own
    order.find? fun q => (firstCandidate s q).isSome

/-- The number of a dispatcher's pointer: C-die, queue, context. -/
def pointerKey (die q c : Nat) : Nat := 4096 * (65536 * die + q) + c

/-- Visits from the pointer on (R335, R336): cores without room, or from which the train cannot be completed, are passed
over; a core with SKIP below its class is skipped. The plan, with the SKIP counts that the visits leave. -/
def visitCores (sh : Shape) (room : Nat → Nat) (spineOk : Nat → Bool) (bound : List Nat) (cls : Nat → Nat) :
    List Nat → SMap Nat → Option (List (Nat × Nat)) × SMap Nat
  | [], skips => (none, skips)
  | c :: t, skips =>
    if room c = 0 then visitCores sh room spineOk bound cls t skips
    else if mgetD skips c 0 < cls c then visitCores sh room spineOk bound cls t (mset skips c (mgetD skips c 0 + 1))
    else match planFrom sh room spineOk bound c with
      | none => visitCores sh room spineOk bound cls t skips
      | some p => (some p, mset skips c 0)

/-- A train that may be restored is placed before any new claim on its context's cores (R335). -/
def resumeFirst (s : State) (c : Nat) : Bool :=
  s.trains.any fun e => e.2.ctx = c && mayResume s e.1 e.2 && (restorePlan s e.2).isSome

/-- The command break of a context holds a train of its card (R433). -/
def breakTrain (s : State) (t : Nat) : State :=
  match mget s.trains t with
  | none => s
  | some tr =>
    let y := (s.ctx tr.ctx).sys
    if nbit y.bkq.toNat 31 && nbits y.bkq.toNat 0 16 = tr.queue.toNat && y.bkseq = w32 tr.pub then
      let s := trapQ s t { reportTrain s tr with
        code := BitVec.ofNat 16 cCMD_BREAK, pc := tr.entry, aux := y.bkseq.setWidth 64, lanes := 0xFFFFFFFF, engine := 5 }
      traceRecord s tr.ctx 3 5 0 tr 0 tr.entry
    else s

/-- Cores of C-die `die` bound to a context now, and those of them that claim from queue `q`. -/
def boundCores (s : State) (die c : Nat) : List Nat := (coresNow s c).filter fun core => core / 48 = die
def dispatchGroup (s : State) (die q c : Nat) : List Nat :=
  (boundCores s die c).filter fun core => coreQueue s c core = some q

/-- The dispatcher's visits for a card: the plan, and the SKIP counts that they leave. -/
def visits (s : State) (die q c : Nat) (k : QCard) : Option (List (Nat × Nat)) × SMap Nat :=
  let group := dispatchGroup s die q c
  let start := mgetD s.pointers (pointerKey die q c) 0
  let order := group.filter (start ≤ ·) ++ group.filter (· < start)
  let sh := k.card.shape
  visitCores sh (fun core => (coreUse s core).room sh) (spineFree s) (boundCores s die c) (fun core => (s.core core).cls)
    (order ++ order ++ order ++ order) (group.map fun core => (core, (s.core core).skip))

/-- The SKIP counts are kept. -/
def keepSkips (s : State) (skips : SMap Nat) : State :=
  skips.foldl (fun s e => if (s.core e.1).skip = e.2 then s else modCore s e.1 fun x => { x with skip := e.2 }) s

/-- The pointer passes the plan's first core, which a context that is not bound to it remembers, with the queue on which the claim is
made, for its next queue (R331, R453). -/
def keepPointer (s : State) (die q c n first : Nat) : State :=
  modCore { s with pointers := mset s.pointers (pointerKey die q c) (first + 1) } first fun x =>
    { x with lastQ := if boundCtx s first = some c then x.lastQ else mset x.lastQ c n }

/-- A card of a dispatcher's queue can be placed for the context by the cores of its group. -/
def mayDispatch (s : State) (die q c : Nat) (k : QCard) : Bool :=
  !k.card.isFill && k.ctx = c && !(dispatchGroup s die q c).isEmpty

/-- The dispatcher places trains of the context now. -/
def dispatches (s : State) (c : Nat) : Bool := ctxPlaces s c && !resumeFirst s c && !fillBlocks s (partitionOf s c)

/-- The claim that a dispatcher makes once it has a plan, and the train that it places. -/
def placeClaim (s : State) (n : Nat) (p : Place) (plan : List (Nat × Nat)) : State :=
  match claimCard s n p with
  | (none, s) => s
  | (some cl, s) => breakTrain (startTrain s n cl plan) s.trainNext

/-- Plans for all trains of a flagged launch (R337): each from a core that claims from the queue, on any C-die. -/
def gbarPlans (s : State) (q c : Nat) (k : QCard) : Option (List (List (Nat × Nat))) :=
  planMany k.card.shape ((coresNow s c).filter fun core => coreQueue s c core = some q) (coresNow s c)
    (cardTrains k.left k.card) (coreUse s) (spineFree s)

/-- One train of a flagged launch is placed; the SKIP of its first core returns to 0 (R335; log 85). -/
def placeFlagged (q c n : Nat) (p : Place) (s : State) (plan : List (Nat × Nat)) : State :=
  let first := (plan.headD (0, 0)).1
  placeClaim (modCore (keepPointer s (first / 48) q c n first) first fun x => { x with skip := 0 }) n p plan

/-- The dispatcher's visit places one train of the card if it finds a plan. -/
def placeVisit (s : State) (die q c n : Nat) (p : Place) (k : QCard) : State :=
  let v := visits s die q c k
  let s := keepSkips s v.2
  match v.1 with
  | none => s
  | some plan => placeClaim (keepPointer s die q c n (plan.headD (0, 0)).1) n p plan

/-- TRAIN_PLACEMENT (R335 to R337, R453): the dispatcher of C-die `i` for queue `j` and context `k` places one train, or all those of a
flagged launch at once. -/
def execTrainPlacement (s : State) : Host.Outcome State Fault Refusal :=
  let die := s.ev.i
  let q := s.ev.j
  let c := s.ev.k
  if !dispatches s c then .next s
  else
    match firstCandidate s q with
    | none => .next s
    | some (n, p, k) =>
      .next (if !mayDispatch s die q c k then s
        else if k.card.gbar then
          match gbarPlans s q c k with
          | none => s
          | some ps => ps.foldl (placeFlagged q c n p) s
        else placeVisit s die q c n p k)

/-! ### Cellar fills (R340) -/

/-- No train of the partition exists (R340). -/
def partIdle (s : State) (part : Nat) : Bool := !s.trains.any fun e => partitionOf s e.2.ctx = part

/-- The READY fill card of a partition that its queue's claim order chooses. -/
def fillCandidate (s : State) (part : Nat) : Option (Nat × Place × QCard) :=
  s.queues.findSome? fun e => match e.2.candidate with
    | some (p, k) => if k.card.isFill && partitionOf s k.ctx = part then some (e.1, p, k) else none
    | none => none

/-- FILL_START (R340): partition `i`. -/
def execFillStart (s : State) : Host.Outcome State Fault Refusal :=
  let part := s.ev.i
  if (mget s.fills part).isSome || !partIdle s part then .next s
  else
    match fillCandidate s part with
    | none => .next s
    | some (n, p, k) =>
      .next (if chainCancelled s k then dropCard s n p
        else { setCardSt s n p .filling with fills := mset s.fills part ⟨n, p, k.ctx, k.card⟩ })

/-- The report of a fill's fault (R340, R366). -/
def fillReport (s : State) (f : Fill) (va : Nat) : Report :=
  { Report.blank s f.ctx with
    va := w64 va, launch := f.card.launch, queue := BitVec.ofNat 16 f.queue, engine := 5, access := 4, frag := 0xFF, level := 0 }

/-- The result of one source chunk: its machine address and bytes, or the abandoned fill with its report (log 56). -/
def fillChunk (s : State) (f : Fill) (va : Nat) : Except State (Nat × List Byte) :=
  let outside (reason : Nat) : Except State (Nat × List Byte) :=
    .error (sendReport s (if reflects s f.ctx 8 then parentOf s f.ctx else f.ctx)
      { fillReport s f va with code := BitVec.ofNat 16 cCOPY_FAULT, aux := w64 (2 ^ 56 * reason), level := 15 })
  if !canonical va then outside 8
  else match deviceXl s f.ctx va .copyRead with
    | .ok ma key =>
      if !isHbm ma then outside 8
      else if keyConflict s ma key then outside 10
      else if (List.range 16).any fun i => isPoison s (ma + i) then
        .error (sendReport s (if reflects s f.ctx 5 then parentOf s f.ctx else f.ctx)
          { fillReport s f va with code := BitVec.ofNat 16 cDATA_POISON, level := 15 })
      else .ok (ma, (List.range 16).map fun i => homeByte s (ma + i) key)
    | .page level fmt cpa key =>
      .error (bufferEntry s f.ctx (((s.ctx f.ctx).bufs.headD ⟨0, [], false, 0, 0⟩).die) 192
        { fillReport s f va with
          code := BitVec.ofNat 16 cPAGE_FAULT, cpa := w64 cpa, level := BitVec.ofNat 4 level, fmt := fmt, key := key })
    | .grant level owner opa cpa key =>
      .error (sendReport s owner
        { fillReport s f va with ty := 1, aux := w64 opa, cpa := w64 cpa, level := BitVec.ofNat 4 level, key := key })
    | .behind | .held => .error s

/-- The chunks from the `k`-th on are copied; false when the fill was abandoned. -/
def fillChunks (part : Nat) (f : Fill) : Nat → Nat → State → Bool × State
  | 0, _, s => (true, s)
  | n + 1, k, s =>
    match fillChunk s f ((f.card.entry.toNat + 16 * k) % 2 ^ 64) with
    | .error s => (false, s)
    | .ok (ma, bs) =>
      let s := if k % 16 = 0 then homeAccess s f.ctx ma 1 else s
      fillChunks part f n (k + 1) (cellarPut s part (nbits f.card.argbase.toNat 0 30 + 16 * k) bs)

/-- FILL_COMPLETE (R340): the fill of partition `i` copies its bytes and ends; the vintage grows, CODE 0x13 says that it was
abandoned. -/
def execFillComplete (s : State) : Host.Outcome State Fault Refusal :=
  let part := s.ev.i
  match mget s.fills part with
  | none => .next s
  | some f =>
    if outOf s f.ctx .mem then .next s
    else
    let r := fillChunks part f (f.card.argsize.toNat / 16) 0 s
    let s := { r.2 with
      vintage := mput 0 r.2.vintage part ((mgetD r.2.vintage part 0 + 1) % (2 ^ 32 - 1))
      fills := mdel r.2.fills part }
    .next (if r.1 then dropCard s f.queue f.place else refuseCard s f.queue f.place 0x13)

/-! ### Slot tables and queue registers -/

/-- Class of readings under the thresholds in force (R334, R448). -/
def sensorClass (thr : List Nat) (temp droop : Nat) : Nat :=
  let t (i : Nat) : Nat := thr.getD i 0
  if temp < t 0 && droop < t 3 then 0
  else if temp < t 1 && droop < t 4 then 1
  else if temp < t 2 && droop < t 5 then 2 else 3

/-- SENSOR_CLASS_UPDATE (R334): core `i` reads `j` degrees Celsius and `k` millivolts, at a multiple of 1,024 rt. -/
def execSensorClassUpdate (s : State) : Host.Outcome State Fault Refusal :=
  .next (if s.rtime % 1024 = 0 && s.ev.i < 768 then
      modCore s s.ev.i fun c => { c with cls := sensorClass s.host.config.thr s.ev.j s.ev.k }
    else s)

/-- A bind record is written (R333); a slice of a context that the core no longer serves is over. -/
def bindCore (s : State) (core : Nat) (b : Bind) : State :=
  let s := modCore s core fun c => { c with bind := b }
  match (s.core core).slice with
  | some (c, _) => if placementCore s c core then s else modCore s core fun x => { x with slice := none }
  | none => s

/-- SLT_BIND_WRITE (R333): core `i`, record `x`. -/
def execSltBindWrite (s : State) : Host.Outcome State Fault Refusal :=
  let s := (dropRsvd s (7 * 2 ^ 60) s.ev.x.toNat).2
  .next (if s.ev.i < 768 && !isRetired s 1 (s.ev.i / 4) then bindCore s s.ev.i (bindOf s.ev.x.toNat) else s)

def qregOffset : QReg → Nat
  | .cfg => 0 | .ringl => 4 | .ringh => 8 | .head => 12 | .tail => 16 | .rsv => 20

/-- QC_REGISTER_WRITE (R324): queue `i`, register `qreg`, value `x`. -/
def execQcRegisterWrite (s : State) : Host.Outcome State Fault Refusal :=
  .next (if s.ev.i < 65536 then qcWrite s s.ev.i (qregOffset s.ev.qreg) (s.ev.x.toNat % 2 ^ 32) else s)

end Sys2Proof.Machine
end

