-- ==== Sys2Proof/Machine/Contexts.lean ====
section
/-! DEFINITION. Contexts (R352 to R377): fault reports as bytes, structures read and written by class 0xC, composite maps as
ranges, grants, revocation, stop, forced reset, budgets. -/

namespace Sys2Proof.Machine

open Sys2Proof

/-! ### Fault reports in memory (R366) -/

def Report.bytes (r : Report) : List Byte :=
  leBytes 3 0 ++ leBytes 1 r.rank.toNat ++ leBytes 1 r.frag.toNat ++
  leBytes 1 ((if r.refault then 128 else 0) + (if r.fmt then 64 else 0) + (if r.reflected then 32 else 0) + r.access.toNat) ++
  leBytes 1 (r.engine.toNat * 16 + r.level.toNat) ++ leBytes 1 r.key.toNat ++ leBytes 2 r.code.toNat ++
  leBytes 2 (4096 * r.depth.toNat + r.owner.toNat) ++ leBytes 2 (4096 * r.ty.toNat + r.origin.toNat) ++
  leBytes 2 r.queue.toNat ++ leBytes 4 r.seq.toNat ++ leBytes 4 r.train.toNat ++ leBytes 4 r.launch.toNat ++
  leBytes 4 r.lanes.toNat ++ leBytes 8 r.va.toNat ++ leBytes 8 r.cpa.toNat ++ leBytes 8 r.aux.toNat ++ leBytes 8 r.pc.toNat

def reportOf (bs : List Byte) : Report :=
  let f (lo n : Nat) : Nat := leVal ((bs.drop lo).take n)
  { pc := w64 (f 56 8), aux := w64 (f 48 8), cpa := w64 (f 40 8), va := w64 (f 32 8), lanes := w32 (f 28 4)
    launch := w32 (f 24 4), train := w32 (f 20 4), seq := w32 (f 16 4), queue := BitVec.ofNat 16 (f 14 2)
    ty := BitVec.ofNat 4 (f 12 2 / 4096), origin := BitVec.ofNat 12 (f 12 2), depth := BitVec.ofNat 4 (f 10 2 / 4096)
    owner := BitVec.ofNat 12 (f 10 2), code := BitVec.ofNat 16 (f 8 2), key := BitVec.ofNat 8 (f 7 1)
    engine := BitVec.ofNat 4 (f 6 1 / 16), level := BitVec.ofNat 4 (f 6 1), refault := nbit (f 5 1) 7, fmt := nbit (f 5 1) 6
    reflected := nbit (f 5 1) 5, access := BitVec.ofNat 3 (f 5 1), frag := BitVec.ofNat 8 (f 4 1), rank := BitVec.ofNat 8 (f 3 1) }

/-- Reserved bits of a report. -/
def reportRsvd (bs : List Byte) : Bool := leVal (bs.take 3) ≠ 0 || nbits (leVal ((bs.drop 5).take 1)) 3 2 ≠ 0

/-! ### Structures of the issuer (R387) -/

/-- The pages that `n` bytes at an address touch, each with its first address and its bytes of them. -/
def structPages (va n : Nat) : List (Nat × Nat) :=
  let k := 65536 - va % 65536
  if n ≤ k then [(va, n)] else [(va, k), ((va + k) % 2 ^ 64, n - k)]

def structXlate (x : Ix) (acc : Access) : List (Nat × Nat) → State → List (Nat × Nat × Xl) × State
  | [], s => ([], s)
  | (va, n) :: t, s =>
    let (xl, s) := xlate s x.cluster x.coreTlb x.ctx va acc x.fr.replay false
    let r := structXlate x acc t s
    ((va, n, xl) :: r.1, r.2)

/-- Pages of a structure that do not translate, and the pieces of those that do. -/
def structFails (bad : Word32) (r : List (Nat × Nat × Xl)) : List PageFail :=
  r.filterMap fun e => match e.2.2 with
    | .ok .. => none
    | xl => some ⟨bad, va55 e.1 / 65536, w64 e.1, xl⟩
def structOks (r : List (Nat × Nat × Xl)) : List (Nat × Nat × Nat × Byte) :=
  r.filterMap fun e => match e.2.2 with
    | .ok ma key => some (e.1, e.2.1, ma, key)
    | _ => none

/-- A structure of `n` bytes at `va` is accessed for the enabled lanes: its range, its translation, which parks them all
(R184), and the checks of R208. -/
def onStruct (x : Ix) (acc : Access) (va n : Nat) (ls : List Nat) (s : State) (f : List (Nat × Nat × Nat × Byte) → State → Res) : Res :=
  let bad := maskOf ls
  let trap (code : Nat) : Res := .trap (trapAt code bad (w64 va))
  if !canonical va || !canonical (va + n - 1) then trap cMEM_RANGE
  else
    let r := structXlate x acc (structPages va n) s
    let fails := structFails bad r.1
    if fails.any fun e => e.xl = .held then .wait .other id
    else if !fails.isEmpty then
      let q := parkLanes r.2 x acc fails
      .done q.1 q.2 none
    else
      let ps := structOks r.1
      if accNeedsW acc && ps.any fun p => isCellar p.2.2.1 then trap cCELLAR_STORE
      else if ps.any fun p => isMmio p.2.2.1 then trap cMEM_ALIGN
      else if ps.any fun p => keyConflict r.2 p.2.2.1 p.2.2.2 then trap cKEY_CONFLICT
      else f ps r.2

def structBytes (x : Ix) : List (Nat × Nat × Nat × Byte) → State → Option (List Byte × Bool × State)
  | [], s => some ([], false, s)
  | (_, n, ma, key) :: t, s =>
    match readLoc s x.ctx n (if isCellar ma then .cellar x.die (nbits ma 0 30) else .glob x.cluster ma false key) [] with
    | none => none
    | some (g, s) =>
      match structBytes x t s with
      | none => none
      | some (bs, p, s) => some (g.bytes ++ bs, g.poison || p, s)

/-- A descriptor or report is read as a plain load of the issuer, with DATA_POISON of the enabled lanes (R198). -/
def readStruct (x : Ix) (va n : Nat) (ls : List Nat) (s : State) (f : List Byte → State → Res) : Res :=
  onStruct x .load va n ls s fun ps s =>
    match structBytes x ps s with
    | none => .wait .other id
    | some (bs, poison, s) => if poison then .done s [] (some (trapAt cDATA_POISON (maskOf ls) 0)) else f bs s

/-- Bytes stored as a plain store of the issuer. -/
def writeStruct (x : Ix) (va : Nat) (bs : List Byte) (ls : List Nat) (s : State) (f : State → Res) : Res :=
  onStruct x .store va bs.length ls s fun ps s =>
    if outOf s x.ctx .mem || ps.any (fun p => (wordsOf p.2.2.1 p.2.1).any (ownerHeld s x.cluster)) then .wait .other id
    else
      f (ps.foldl (fun (r : List Byte × State) p =>
        (r.1.drop p.2.1, storePlain r.2 x.cluster x.ctx p.2.2.1 (r.1.take p.2.1) p.2.2.2 false true)) (bs, s)).2

/-! ### Ranges of the context-physical spaces (R359, R360) -/

/-- A piece of a composite map: context-physical start, length, machine start, permissions. -/
structure Piece where
  lo : Nat
  len : Nat
  ma : Nat
  wr : Bool
  nx : Bool
deriving DecidableEq, Repr

/-- What of the machine address space can be granted (R22). -/
def rootPieces : List Piece :=
  ((List.range 4).map fun d => ⟨2 ^ 40 * d, 0x2CB4178000, 2 ^ 40 * d, true, false⟩) ++
  [⟨2 ^ 42, 2 ^ 30, 2 ^ 42, true, false⟩,
   ⟨2 ^ 42 + 2 ^ 41, 2 ^ 33, 2 ^ 42 + 2 ^ 41, true, false⟩,
   ⟨2 ^ 42 + 2 ^ 41 + 3 * 2 ^ 32, 2 ^ 40 - 3 * 2 ^ 32, 2 ^ 42 + 2 ^ 41 + 3 * 2 ^ 32, true, false⟩,
   ⟨2 ^ 43, 2 ^ 42, 2 ^ 43, true, false⟩]

def Grant.len (g : Grant) : Nat := 65536 * g.pages

/-- The part of `ps` that a grant reaches, in the child's space. -/
def Grant.through (g : Grant) (ps : List Piece) : List Piece :=
  ps.filterMap fun p =>
    let a := max p.lo g.target
    let b := min (p.lo + p.len) (g.target + g.len)
    if a < b then some ⟨g.base + (a - g.target), b - a, p.ma + (a - p.lo), p.wr && g.wr, p.nx || g.nx⟩ else none

/-- `[a, b)` without `[x, y)`. -/
def minusRange (x y : Nat) (r : Nat × Nat) : List (Nat × Nat) :=
  (if r.1 < min r.2 x then [(r.1, min r.2 x)] else []) ++ (if max r.1 y < r.2 then [(max r.1 y, r.2)] else [])

/-- What is left of ranges without others. -/
def minusAll (rs away : List (Nat × Nat)) : List (Nat × Nat) :=
  away.foldl (fun rs a => rs.flatMap (minusRange a.1 a.2)) rs

/-- Retired pages, as ranges (R445, log 28). -/
def retiredRanges (s : State) : List (Nat × Nat) :=
  (s.host.retired.filter (· < 2 ^ 48)).map fun p => (65536 * p, 65536 * p + 65536)

/-- The root's memory: what R22 lets be granted, without retired pages. -/
def rootMemory (s : State) : List Piece :=
  if s.host.retired.isEmpty then rootPieces
  else rootPieces.flatMap fun p => (minusAll [(p.lo, p.lo + p.len)] (retiredRanges s)).map fun r =>
    { p with lo := r.1, len := r.2 - r.1, ma := r.1 }

/-- The maps of the path combined, what the context has granted onward included. -/
def piecesUp (s : State) : Nat → Nat → List Piece
  | 0, _ => []
  | n + 1, c =>
    if c = 0 then rootMemory s
    else
      let ps := piecesUp s n (s.ctx c).parent
      (s.ctx c).gmap.flatMap fun g => g.through ps

def pieces (s : State) (c : Nat) : List Piece := piecesUp s 8 c

/-- Ranges of a context's space that it has granted to its children. -/
def awayRanges (s : State) (c : Nat) : List (Nat × Nat) :=
  (children s c).flatMap fun k => (s.ctx k).gmap.map fun g => (g.target, g.target + g.len)

/-- Ranges in the composite map of a context (R360). -/
def compositeSize (s : State) (c : Nat) : Nat :=
  let away := awayRanges s c
  (pieces s c).foldl (fun n p => n + (minusAll [(p.lo, p.lo + p.len)] away).length) 0

/-- Every page of `[lo, lo + n)` lies in one of the pieces. -/
def covers (ps : List Piece) (lo n : Nat) : Bool :=
  let a := 65536 * (lo / 65536)
  let b := 65536 * ((lo + n + 65535) / 65536)
  a ≥ b || (minusAll [(a, b)] (ps.map fun p => (p.lo, p.lo + p.len))).isEmpty

/-- Machine ranges, start and length, of a context's range. -/
def maRanges (s : State) (c lo n : Nat) : List (Nat × Nat) :=
  (pieces s c).filterMap fun p =>
    let a := max p.lo lo
    let b := min (p.lo + p.len) (lo + n)
    if a < b then some (p.ma + (a - p.lo), b - a) else none

def inRanges (rs : List (Nat × Nat)) (a : Nat) : Bool := rs.any fun r => r.1 ≤ a && a < r.1 + r.2

/-- Claimed frames lose their key tags (R361). -/
def claimFrames (s : State) (rs : List (Nat × Nat)) : State :=
  { s with tags := s.tags.filter fun e => !inRanges rs (65536 * e.1) }

/-- Every L1 line of the ranges is written back and invalidated (R373, R389). -/
def evictRanges (s : State) (rs : List (Nat × Nat)) : State :=
  s.clusters.foldl (fun s e =>
    (e.2.l1.filter fun w => inRanges rs (4 * w.1)).foldl (fun s w => evictWord s e.1 w.1) s) s

/-- One of the addresses that the walk of a marked page read or reached lies in the machine ranges. -/
def Mark.covered (m : Mark) (s : State) (rs : List (Nat × Nat)) : Bool :=
  m.cps.any fun a => (maRanges s m.ctx a 1).any fun r => inRanges rs r.1

/-- The shoot-down of R363 for contexts whose composites change: their entries and their marks on pages of the ranges. -/
def shootDown (s : State) (cs : List Nat) (rs : List (Nat × Nat)) : State :=
  let keep (t : Tlb) : Bool := !(cs.contains t.ctx && inRanges rs (65536 * t.mpage))
  { s with
    clusters := s.clusters.map fun e =>
      (e.1, { e.2 with tlb := e.2.tlb.filter keep, marks := e.2.marks.filter fun m => !(cs.contains m.ctx && m.covered s rs) })
    cores := s.cores.map fun e => (e.1, { e.2 with tlb := e.2.tlb.filter keep }) }

/-- The shoot-down of a key that contexts lose (R373). -/
def shootKey (s : State) (cs : List Nat) (k : Nat) : State :=
  let keep (t : Tlb) : Bool := !(cs.contains t.ctx && t.key.toNat = k)
  { s with
    clusters := s.clusters.map fun e => (e.1, { e.2 with tlb := e.2.tlb.filter keep })
    cores := s.cores.map fun e => (e.1, { e.2 with tlb := e.2.tlb.filter keep }) }

def grantBytes (g : Grant) : List Byte :=
  leBytes 8 (2 ^ 63 + (if g.wr then 2 ^ 62 else 0) + (if g.nx then 2 ^ 61 else 0) + (if g.shared then 2 ^ 60 else 0) + g.base) ++
  leBytes 8 (2 ^ 36 * g.pages + g.target / 65536)

/-- The image of a grant map at the start of the save area, under key 0 (R359, R362); an operation that meets a frame under another key
has waited before. -/
def writeMapImage (s : State) (c : Nat) : State :=
  let x := s.ctx c
  if saveConflict s c 0 1024 then s
  else saveWrite (saveClear s c) c 0 (x.gmap.flatMap grantBytes ++ List.replicate (1024 - 16 * x.gmap.length) 0)

/-- The image of a context's grant map cannot be written now: the operation that changes the map waits until it can, or until the
context is stopped (R362). -/
def mapStuck (s : State) (c : Nat) : Bool := (s.ctx c).st ≠ .stopped && saveConflict s c 0 1024

def mapReport (s : State) (c : Nat) : State := structConflict s c (s.ctx c).save 6

def insertGrant (g : Grant) : List Grant → List Grant
  | [] => [g]
  | h :: t => if g.base ≤ h.base then g :: h :: t else h :: insertGrant g t

/-- A grant map without the range `[lo, hi)` of the child's space. -/
def cutMap (m : List Grant) (lo hi : Nat) : List Grant :=
  m.flatMap fun g => (minusRange lo hi (g.base, g.base + g.len)).map fun r =>
    { g with base := r.1, pages := (r.2 - r.1) / 65536, target := g.target + (r.1 - g.base) }

/-- Ranges of a child's space that lie on `[lo, hi)` of its parent's. -/
def childRanges (s : State) (k lo hi : Nat) : List (Nat × Nat) :=
  (s.ctx k).gmap.filterMap fun g =>
    let a := max lo g.target
    let b := min hi (g.target + g.len)
    if a < b then some (g.base + (a - g.target), g.base + (b - g.target)) else none

/-- DONE of a shrink that an ancestor imposes (R367, R376). -/
def imposedReport (s : State) (c : Nat) : State :=
  sendReport s c { Report.blank s c with ty := 3, aux := 0xFFFFFFFF }

/-- `[lo, hi)` leaves a context's map, and its descendants' maps with it (R376). -/
def trimMap : Nat → Nat → Nat → Nat → State → State
  | 0, _, _, _, s => s
  | n + 1, c, lo, hi, s =>
    let cuts := (children s c).map fun k => (k, childRanges s k lo hi)
    let s := modCtx s c fun x => { x with gmap := cutMap x.gmap lo hi }
    let s := writeMapImage s c
    let s := cuts.foldl (fun s e => e.2.foldl (fun s r => trimMap n e.1 r.1 r.2 s) s) s
    if cuts.any fun e => !e.2.isEmpty then imposedReport s c else s

/-! ### Status words (R388) -/

def eNOCTX : Nat := 0x80000001
def eDEPTH : Nat := 0x80000002
def eNOID : Nat := 0x80000003
def eRESOURCE : Nat := 0x80000004
def eOVERLAP : Nat := 0x80000005
def eFORMAT : Nat := 0x80000006
def eCOMPOSITE : Nat := 0x80000007
def eBUDGET : Nat := 0x80000008
def eSTATE : Nat := 0x80000009
def eBUSY : Nat := 0x8000000A
def eGATE : Nat := 0x8000000B
def eCARD (st : Nat) : Nat := 0x8000000C + 256 * st

/-- A context operation answers a status and the state it leaves. -/
abbrev CtxRes := Nat × State

/-! ### CTX.NEW (R353, R354) -/

/-- The lowest number from `k` on, below `lim`, that `used` does not hold. -/
def lowestFree (used : Nat → Bool) : Nat → Nat → Option Nat
  | 0, _ => none
  | n + 1, k => if used k then lowestFree used n (k + 1) else some k

/-- The lowest number that is no key of a map. -/
def freeKey {α : Type} (m : SMap α) : Nat := (lowestFree (fun k => (mget m k).isSome) (m.length + 1) 0).getD 0

structure Block where
  s1root : Nat
  fqbase : Nat
  lvbase : Nat
  lvlen : Nat
  reflect : Nat
  fqsize : Nat
  fqqueue : Nat
  fqcard : Nat
  savelen : Nat
  save : Nat
  rsvd : Bool

def blockOf (bs : List Byte) : Block :=
  let f (lo n : Nat) : Nat := leVal ((bs.drop lo).take n)
  { s1root := f 0 8, fqbase := f 8 8, lvbase := f 16 8, lvlen := f 28 4, reflect := f 32 4, fqsize := f 37 1, fqqueue := f 38 2
    fqcard := f 40 8, savelen := f 48 8, save := f 56 8, rsvd := f 24 4 ≠ 0 || f 36 1 ≠ 0 }

/-- Ranges of R354. An address that no grant covers is refused where the range is looked up. -/
def Block.ok (b : Block) : Bool :=
  !b.rsvd && 4 ≤ b.fqsize && b.fqsize ≤ 12 && 1 ≤ b.lvlen && b.lvlen ≤ 2 ^ 20 && b.lvbase % 32 = 0 && b.fqbase % 64 = 0 &&
    b.s1root % 65536 = 0 && b.save % 65536 = 0 && b.savelen % 65536 = 0

/-- Memory that a context holds and has not granted away. -/
def ownMemory (s : State) (c : Nat) : List Piece :=
  let away := awayRanges s c
  (pieces s c).flatMap fun p =>
    (minusAll [(p.lo, p.lo + p.len)] away).map fun r => { p with lo := r.1, len := r.2 - r.1, ma := p.ma + (r.1 - p.lo) }

def saveNeeds (cores : Nat) : Nat := 65536 + 2 ^ 21 * cores

def ctxNew (s : State) (iss : Nat) (bs : List Byte) : CtxRes :=
  let b := blockOf bs
  if (s.ctx iss).depth ≥ 6 then (eDEPTH, s)
  else if !b.ok then (eFORMAT, s)
  else if b.savelen < saveNeeds 0 || !covers (ownMemory s iss) b.save b.savelen then (eRESOURCE, s)
  else match lowestFree s.hasCtx 0xFFE 1 with
    | none => (eNOID, s)
    | some id =>
      let c : Ctx := { Ctx.root with
        parent := iss
        depth := (s.ctx iss).depth + 1
        st := .created
        s1root := some b.s1root
        lvbase := b.lvbase
        lvlen := b.lvlen
        fqbase := some b.fqbase
        fqsize := b.fqsize
        fqcard := w64 b.fqcard
        fqqueue := BitVec.ofNat 16 b.fqqueue
        save := b.save
        savelen := b.savelen
        regions := []
        reflect := w32 b.reflect
        dies := []
        engines := 0
        time := ⟨0, 0, 0⟩
        mem := ⟨0, 0, 0⟩
        ext := ⟨0, 0, 0⟩
        bufs := [] }
      (id, { s with ctxs := mset s.ctxs id c })

/-! ### Grant descriptors (R355, R356) -/

structure GDesc where
  kind : Nat
  wr : Bool
  nx : Bool
  shared : Bool
  a0 : Nat
  a1 : Nat
  a2 : Nat
  rsvd : Bool
deriving DecidableEq, Repr

def gdescOf (bs : List Byte) : GDesc :=
  let f (lo n : Nat) : Nat := leVal ((bs.drop lo).take n)
  { kind := f 0 1, wr := nbit (f 1 1) 7, nx := nbit (f 1 1) 6, shared := nbit (f 1 1) 5, a0 := f 8 8, a1 := f 16 8, a2 := f 24 8
    rsvd := f 2 6 ≠ 0 || nbits (f 1 1) 0 5 ≠ 0 || (f 0 1 ≠ 0 && f 1 1 ≠ 0) }

/-- Values of each kind in range (R356). -/
def GDesc.ok (d : GDesc) : Bool :=
  !d.rsvd &&
  match d.kind with
  | 0 => 1 ≤ d.a0 && d.a0 < 2 ^ 28 && d.a1 % 65536 = 0 && d.a2 % 65536 = 0 && d.a1 + 65536 * d.a0 ≤ 2 ^ 44 && d.a2 + 65536 * d.a0 ≤ 2 ^ 44
  | 1 => 1 ≤ d.a0 && d.a1 = 0 && d.a2 = 0
  | 2 => 1 ≤ d.a1 && d.a2 = 0
  | 3 => 1 ≤ d.a1 && (d.a2 = 0 || (100 ≤ d.a2 && d.a2 ≤ 2 ^ 24))
  | 4 => d.a0 < 65536 && d.a1 = 0 && d.a2 = 0
  | 5 => 1 ≤ d.a2
  | 6 => d.a0 < 256 && d.a1 = 0 && d.a2 = 0
  | 7 => d.a1 < 4096 && d.a2 = 0
  | 8 => 1 ≤ d.a0 && d.a0 ≤ 16 && d.a1 = 0 && d.a2 = 0
  | _ => false

/-- Child depths at which a kind may be granted (R356). -/
def kindDepth (kind depth : Nat) : Bool :=
  match kind with
  | 1 => depth = 1
  | 2 => depth = 2
  | 3 => 3 ≤ depth
  | _ => true

/-! ### Units of a grant -/

/-- The physical clusters `first` to `first + n - 1` of a context. -/
def clusterUnits (s : State) (c first n : Nat) : Option (List Nat) :=
  if first + n > 4096 then none else (List.range n).mapM fun i => absCluster s c (first + i)
def coreUnits (s : State) (c first n : Nat) : Option (List Nat) :=
  if first + n > 4096 then none else (List.range n).mapM fun i => absCore s c (first + i)

/-- Units take the lowest free numbers, in order (R452). -/
def addUnits (m : SMap Nat) (us : List Nat) : SMap Nat := us.foldl (fun m u => if (keyOf m u).isSome then m else mset m (freeKey m) u) m

/-- One fault buffer for each C-die, numbered as the context first received cores there (R407). -/
def addBufs (bs : List FaultBuf) (cores : List Nat) : List FaultBuf :=
  cores.foldl (fun bs k => if bs.any fun b => b.die = k / 48 then bs else bs ++ [⟨k / 48, [], false, 0, 0⟩]) bs

/-- Each core that a context receives takes the first core region whose core it no longer holds, or the next one (R414; log 91). -/
def addRegions (rs held : List Nat) : List Nat :=
  (held.filter fun k => !rs.contains k).foldl (fun rs k =>
    match rs.findIdx? fun r => !held.contains r with
    | some i => rs.set i k
    | none => rs ++ [k]) rs

/-- The changed child takes effect if its save area holds its cores (R354). -/
def giveUnits (s : State) (c : Nat) (x : Ctx) : CtxRes :=
  let s' := { s with ctxs := mset s.ctxs c x }
  let held := heldCores s' c
  if x.savelen < saveNeeds held.length then (eRESOURCE, s)
  else (0, modCtx s' c fun y => { y with bufs := addBufs y.bufs held, regions := addRegions y.regions held })

/-! ### CTX.GRANT by kind -/

def grantMem (s : State) (iss c : Nat) (d : GDesc) : CtxRes :=
  let n := 65536 * d.a0
  let x := s.ctx c
  let given := (children s iss).flatMap fun k => (s.ctx k).gmap.filter fun g => overlap d.a2 n g.target g.len
  let mine := (pieces s iss).filter fun p => (!d.wr || p.wr) && (d.nx || !p.nx)
  if !covers mine d.a2 n then (eRESOURCE, s)
  else if given.any (fun g => !(d.shared && g.shared && g.target = d.a2 && g.pages = d.a0)) ||
      x.gmap.any (fun g => overlap d.a1 n g.base g.len) then (eOVERLAP, s)
  else if x.gmap.length ≥ 64 then (eRESOURCE, s)
  else
    let ma := maRanges s iss d.a2 n
    let s' := modCtx s c fun x => { x with gmap := insertGrant ⟨d.a1, d.a2, d.a0, d.wr, d.nx, d.shared⟩ x.gmap }
    if compositeSize s' c > 256 || (iss ≠ 0 && compositeSize s' iss > 256) then (eCOMPOSITE, s)
    else
      let s := evictRanges s' ma
      let s := if given.isEmpty then claimFrames s ma else s
      (0, writeMapImage (shootDown s [iss, c] ma) c)

/-- The lowest-numbered dies that no depth-1 context holds (R8, log 21). -/
def grantDies (s : State) (c : Nat) (d : GDesc) : CtxRes :=
  let free := (List.range 16).filter fun k => partOfDie s k = 0
  let give := free.take d.a0
  if d.a0 > free.length then (eRESOURCE, s)
  else
    match giveUnits s c { s.ctx c with dies := addUnits (s.ctx c).dies give } with
    | (0, s) => (0, modCtx s 0 fun r => { r with dies := r.dies.filter fun e => !give.contains e.2 })
    | r => r

def grantClusters (s : State) (iss c : Nat) (d : GDesc) : CtxRes :=
  match clusterUnits s iss d.a0 d.a1 with
  | none => (eRESOURCE, s)
  | some us =>
    if (children s iss).any fun k => us.any fun u => (keyOf (s.ctx k).clusters u).isSome then (eRESOURCE, s)
    else giveUnits s c { s.ctx c with clusters := addUnits (s.ctx c).clusters us }

def grantCores (s : State) (iss c : Nat) (d : GDesc) : CtxRes :=
  match coreUnits s iss d.a0 d.a1 with
  | none => (eRESOURCE, s)
  | some us =>
    let x := s.ctx c
    if us.any fun u => (keyOf x.cores u).isSome then (eRESOURCE, s)
    else giveUnits s c { x with
      cores := addUnits x.cores us
      clusters := addUnits x.clusters (us.map (· / 4))
      slices := us.foldl (fun m u => mset m u d.a2) x.slices }

/-- The firmware writes the owner of a queue, whether or not it holds cards (R373 step 4). -/
def setOwner (s : State) (q c : Nat) : State := setQueue s q { s.queue q with owner := BitVec.ofNat 12 c }

def grantQueue (s : State) (iss c : Nat) (d : GDesc) : CtxRes :=
  if (s.queue d.a0).owner.toNat ≠ iss then (eRESOURCE, s) else (0, setOwner s d.a0 c)

def emptyCasks (s : State) (cl base n : Nat) : State :=
  modCluster s cl fun k => { k with casks := k.casks.filter fun e => !(base ≤ e.1 && e.1 < base + n) }

def grantCasks (s : State) (iss c : Nat) (d : GDesc) : CtxRes :=
  match (if d.a0 < 4096 then absCluster s iss d.a0 else none) with
  | none => (eRESOURCE, s)
  | some cl =>
    let r := if iss = 0 then (0, 256) else mgetD (s.ctx iss).casks cl (0, 0)
    let base := r.1 + d.a1
    if d.a1 + d.a2 > r.2 || (mget (s.ctx c).casks cl).isSome ||
        (children s iss).any (fun k => match mget (s.ctx k).casks cl with
          | some g => overlap base d.a2 g.1 g.2
          | none => false) then (eRESOURCE, s)
    else (0, emptyCasks (modCtx s c fun x => { x with casks := mset x.casks cl (base, d.a2) }) cl base d.a2)

def grantKey (s : State) (iss c : Nat) (d : GDesc) : CtxRes :=
  if !holdsKey s iss (BitVec.ofNat 8 d.a0) then (eRESOURCE, s)
  else (0, modCtx s c fun x => { x with keys := if d.a0 = 0 || x.keys.contains d.a0 then x.keys else insertNat d.a0 x.keys })

def grantEndpoint (s : State) (iss c : Nat) (d : GDesc) : CtxRes :=
  match mget (s.ctx iss).endpoints d.a0 with
  | none => (eRESOURCE, s)
  | some e =>
    if (mget (s.ctx c).endpoints d.a1).isSome then (eRESOURCE, s)
    else (0, modCtx s c fun x => { x with endpoints := mset x.endpoints d.a1 { e with src := d.a0, err := 0 } })

/-- A child's engines are set to `n`, and no descendant keeps more (R30). -/
def setEngines (s : State) (c n : Nat) : State :=
  (subtree s c).foldl (fun s k => modCtx s k fun x => { x with engines := if k = c then n else min x.engines n }) s

def grantDma (s : State) (iss c : Nat) (d : GDesc) : CtxRes :=
  if (s.ctx iss).engines < d.a0 then (eRESOURCE, s) else (0, setEngines s c d.a0)

def ctxGrant (s : State) (iss c : Nat) (bs : List Byte) : CtxRes :=
  let d := gdescOf bs
  if !d.ok then (eFORMAT, s)
  else if !kindDepth d.kind (s.ctx c).depth then (eDEPTH, s)
  else match d.kind with
    | 0 => grantMem s iss c d
    | 1 => grantDies s c d
    | 2 => grantClusters s iss c d
    | 3 => grantCores s iss c d
    | 4 => grantQueue s iss c d
    | 5 => grantCasks s iss c d
    | 6 => grantKey s iss c d
    | 7 => grantEndpoint s iss c d
    | _ => grantDma s iss c d

/-! ### Trains of a subtree; forced reset (R374) -/

def subtreeTrains (s : State) (c : Nat) : List Nat := (s.trains.filter fun e => inSubtree s c e.2.ctx).map (·.1)

/-- Numbers of the HCALLs that a train's fragments wait for (R395). -/
def Train.calls (t : Train) : List Nat :=
  t.coachIds.flatMap fun c => match t.coach? c with
    | some co => co.frags.filterMap fun f => f.2.hcall.map (·.seq)
    | none => []

/-- A train is discarded: its issued stores and atomics are performed, its copies end without further arrivals. -/
def discardTrain (s : State) (t : Nat) : State :=
  let s := settleTrain s t
  let mine (a : Agent) : Bool := match a with | .frag f => f.train = t | .dray k _ _ => k = t
  let s := (s.stores.filter fun p => mine p.who).foldl performStore s
  let s : State := (s.steps.filter fun a => mine a.who).foldl (fun s a => performStep { s with steps := s.steps.filter fun b => b.id ≠ a.id } a) s
  let s : State := { s with cores := s.cores.map fun e => (e.1, { e.2 with slots := e.2.slots.filter fun k => k.2.train ≠ t }) }
  let s := match mget s.trains t with
    | some tr => modCtx s tr.ctx fun y => { y with hcalls := y.hcalls.filter fun e => !tr.calls.contains e.2 }
    | none => s
  removeTrain s t false

/-- The level record of a context that lies at a machine address. -/
def levelIdAt (s : State) (c ma : Nat) : Option Nat :=
  (pieces s c).findSome? fun p =>
    if p.ma ≤ ma && ma < p.ma + p.len then
      let cp := p.lo + (ma - p.ma)
      let x := s.ctx c
      if x.lvbase < cp && (cp - x.lvbase) % 32 = 0 && (cp - x.lvbase) / 32 < x.lvlen then some ((cp - x.lvbase) / 32) else none
    else none

/-- Held levels of a context are written back with CANCEL set. -/
def cancelHeld (s : State) (c : Nat) : State :=
  s.levels.foldl (fun s e =>
    if (levelIdAt s c e.1).isSome then levelPut s c e.1 { e.2 with cancel := true } true else s) s

/-- The takes that wait on deleted gates find them gone (R385). -/
def gatesGone (s : State) (gone : Nat → Bool) : State :=
  let frag (f : Frag) : Frag := match f.wait with
    | some (n, .gate g) => if gone g then { f with wait := some (n, .gateGone) } else f
    | _ => f
  let coach (co : Coach) : Coach := { co with frags := co.frags.map fun f => (f.1, frag f.2) }
  { s with trains := s.trains.map fun e =>
      (e.1, { e.2 with coaches := e.2.coaches.map fun c => (c.1, coach c.2), spine := e.2.spine.map coach }) }

/-- The gates of contexts are deleted, their values discarded (R385), and their entries on other gates removed. -/
def dropGates (s : State) (cs : List Nat) : State :=
  let mine (g : Nat) : Bool := (mget s.gates g).any fun k => cs.contains k.owner
  let s := if s.gates.any fun g => mine g.1 then gatesGone s mine else s
  { s with gates := (s.gates.filter fun g => !cs.contains g.2.owner).map fun g =>
      (g.1, { g.2 with
        acl := g.2.acl.filter fun a => !cs.contains a.ctx
        counts := g.2.counts.filter fun a => !cs.contains a.1 }) }

/-- C-dies of a depth-1 context are reset (R31): L1 contents are written back first, since memory contents stay. -/
def resetDies (s : State) (dies : List Nat) : State :=
  let inD (cl : Nat) : Bool := dies.contains (cl / 12)
  let s := (s.clusters.filter fun e => inD e.1).foldl (fun s e => e.2.l1.foldl (fun s w => evictWord s e.1 w.1) s) s
  { s with
    clusters := s.clusters.map fun e => if inD e.1 then (e.1, Cluster.init) else e
    cores := s.cores.map fun e => if inD (e.1 / 4) then (e.1, { e.2 with tlb := [] }) else e }

/-- The forced reset of R374; the caller sets the states. -/
def forcedReset (s : State) (c : Nat) : State :=
  let cs := subtree s c
  let s := (subtreeTrains s c).foldl discardTrain s
  let s := cs.foldl cancelHeld s
  let s := s.queues.foldl (fun s e =>
    if cs.contains e.2.owner.toNat && e.2.en then setQueue s e.1 { e.2 with en := false } else s) s
  let s := dropGates s cs
  if (s.ctx c).depth = 1 then resetDies s ((s.ctx c).dies.map (·.2)) else s

/-! ### Completion of operations (R372, R373) -/

/-- The DONE report of an operation on `c` (R366, R367). -/
def doneReport (s : State) (iss c ticket engine : Nat) : State :=
  sendReport (modCtx s iss fun x => { x with tickDone := ticket }) iss { Report.blank s c with ty := 3, aux := w64 ticket, engine := BitVec.ofNat 4 engine }

/-- A ticket: the issuer's running count (R388). -/
def newTicket (s : State) (iss : Nat) : Nat × State :=
  let n := ((s.ctx iss).ticket + 1) % 2 ^ 31
  (n, modCtx s iss fun x => { x with ticket := n })

/-- Every context of the subtree is STOPPED. -/
def stopSubtree (s : State) (c : Nat) : State :=
  (subtree s c).foldl (fun s k => modCtx s k fun x =>
    { x with st := .stopped, op := x.op.map fun o => { o with was := .stopped } }) s

/-- A stop ends: the subtree is STOPPED and the issuer is told. -/
def finishStop (s : State) (c : Nat) (o : CtxOp) (engine : Nat) : State :=
  let s := modCtx (stopSubtree s c) c fun x => { x with op := none }
  let s := (subtree s c).foldl (fun s k => if saveConflict s k 0x400 1024 then s else saveContext s k) s
  if o.kind = .assert then s else doneReport s o.issuer c o.ticket engine

/-- Trains stop at an instruction boundary and are saved (R413). -/
def stopTrains (s : State) (ts : List Nat) : State := ts.foldl (fun s t => stopTrain s t .stopped) s

/-- An operation on `c` begins: it is STOPPING. -/
def beginOp (s : State) (c : Nat) (o : CtxOp) : State := modCtx s c fun x => { x with st := .stopping, op := some o }

/-- CTX.STOP (R372). -/
def ctxStop (s : State) (iss c : Nat) (kind : OpKind) : CtxRes :=
  let x := s.ctx c
  let idle := x.st = .created || x.st = .stopped
  let (n, s) := newTicket s iss
  let o : CtxOp := ⟨kind, iss, n, if kind = .stopDrain then some (s.rtime + (s.ctx iss).sys.drainDl.toNat) else none,
    subtreeTrains s c, x.st⟩
  if kind = .stopReset then (n, finishStop (forcedReset s c) c o 6)
  else if idle then (n, finishStop s c o (if kind = .stopDrain then 5 else 6))
  else if kind = .stopDrain then (n, beginOp s c o)
  else (n, stopTrains (beginOp s c o) o.trains)

/-! ### Revocation (R373, R376) -/

def GDesc.words (d : GDesc) : List Word64 :=
  [w64 (d.kind + (if d.wr then 2 ^ 15 else 0) + (if d.nx then 2 ^ 14 else 0) + (if d.shared then 2 ^ 13 else 0)), w64 d.a0, w64 d.a1, w64 d.a2]

def gdescWords (ws : List Word64) : GDesc := gdescOf (ws.flatMap fun w => leBytes 8 w.toNat)

/-- The dies of a child with the highest die positions. -/
def lastDies (s : State) (c n : Nat) : List Nat :=
  let ds := (s.ctx c).dies.map (·.2)
  ds.drop (ds.length - n)

/-- SIMT cores that a descriptor revokes, none where the child lacks one of its units. -/
def revokedCores (s : State) (iss c : Nat) (d : GDesc) : Option (List Nat) :=
  match d.kind with
  | 1 => if d.a0 > (s.ctx c).dies.length then none
    else some ((lastDies s c d.a0).flatMap fun k => (List.range 48).map (48 * k + ·))
  | 2 => match clusterUnits s iss d.a0 d.a1 with
    | some us => if us.all fun u => (keyOf (s.ctx c).clusters u).isSome then some (us.flatMap fun k => (List.range 4).map (4 * k + ·)) else none
    | none => none
  | 3 => match coreUnits s iss d.a0 d.a1 with
    | some us => if us.all fun u => (keyOf (s.ctx c).cores u).isSome then some us else none
    | none => none
  | _ => some []

/-- The child holds what the descriptor names. -/
def revokable (s : State) (iss c : Nat) (d : GDesc) : Bool :=
  let x := s.ctx c
  match d.kind with
  | 0 => (minusAll [(d.a1, d.a1 + 65536 * d.a0)] (x.gmap.map fun g => (g.base, g.base + g.len))).isEmpty
  | 1 | 2 | 3 => (revokedCores s iss c d).isSome
  | 4 => inSubtree s c (s.queue d.a0).owner.toNat && s.hasCtx (s.queue d.a0).owner.toNat
  | 5 => match (if d.a0 < 4096 then absCluster s iss d.a0 else none) with
    | some cl => (mget x.casks cl).isSome
    | none => false
  | 6 => d.a0 ≠ 0 && x.keys.contains d.a0
  | 7 => (mget x.endpoints d.a1).isSome
  | _ => x.engines ≠ 0

/-- The trains that steps 1 and 2 stop: of the subtree, or whatever is resident on the cores or the cluster. -/
def affectedTrains (s : State) (iss c : Nat) (all : Bool) (d : GDesc) : List Nat :=
  let ts := s.trains.filter fun e => inSubtree s c e.2.ctx
  let onCores (cs : List Nat) : List Nat :=
    (s.trains.filter fun e => e.2.res = .resident && (e.2.cores.any cs.contains || (e.2.spined && cs.contains (4 * e.2.spineCl)))).map (·.1)
  if all || d.kind = 0 || d.kind = 6 then ts.map (·.1)
  else match d.kind with
    | 1 | 2 | 3 => onCores ((revokedCores s iss c d).getD [])
    | 5 => match absCluster s iss d.a0 with
      | some cl => onCores ((List.range 4).map (4 * cl + ·))
      | none => []
    | _ => []

/-- The map changes that a MEM revocation would make keep the limits of R359 and R360. -/
def trimStatus (s : State) (c : Nat) (d : GDesc) : Nat :=
  let s' := trimMap 8 c d.a1 (d.a1 + 65536 * d.a0) s
  let cs := subtree s c
  if cs.any fun k => (s'.ctx k).gmap.length > 64 then eRESOURCE
  else if ((s.ctx c).parent :: cs).any fun k => k ≠ 0 && compositeSize s' k > 256 then eCOMPOSITE
  else 0

/-- CTX.REVOKE (R373): steps 1 and 2 begin. -/
def ctxRevoke (s : State) (iss c : Nat) (drain : Bool) (desc : Option (List Byte)) : CtxRes :=
  let d := match desc with
    | some bs => gdescOf bs
    | none => ⟨0, false, false, false, 0, 0, 0, false⟩
  let all := desc.isNone
  let st :=
    if all then (if (children s c).isEmpty then 0 else eSTATE)
    else if !d.ok then eFORMAT
    else if !kindDepth d.kind (s.ctx c).depth then eDEPTH
    else if !revokable s iss c d then eRESOURCE
    else if d.kind = 0 then trimStatus s c d else 0
  if st ≠ 0 then (st, s)
  else
    let ts := affectedTrains s iss c all d
    let (n, s) := newTicket s iss
    let o : CtxOp := ⟨.revoke all drain d.words, iss, n,
      if drain then some (s.rtime + (s.ctx iss).sys.drainDl.toNat) else none, ts, (s.ctx c).st⟩
    let s := beginOp s c o
    (n, if drain then s else stopTrains s ts)

/-- What a context keeps of its dies, clusters and cores. -/
def Ctx.loseCores (x : Ctx) (gone : List Nat) : Ctx :=
  if x.depth ≤ 1 then { x with dies := x.dies.filter fun e => !gone.contains (48 * e.2) }
  else if x.depth = 2 then { x with clusters := x.clusters.filter fun e => !gone.contains (4 * e.2) }
  else
    let cores := x.cores.filter fun e => !gone.contains e.2
    { x with
      cores := cores
      clusters := x.clusters.filter fun e => cores.any fun k => k.2 / 4 = e.2
      slices := x.slices.filter fun e => !gone.contains e.1 }

def bufWord (b : FaultBuf) : Nat := (if b.dropped then 2 ^ 31 else 0) + 256 * b.drops + b.entries.length

/-- The image of a fault buffer (R414): 8 entries and the state word of R412. -/
def bufBytes (b : FaultBuf) : List Byte :=
  ((List.range 8).flatMap fun i => match b.entries[i]? with
    | some e => e.2.bytes
    | none => saveBytes .buffer [i] 64) ++ leBytes 4 (bufWord b) ++ saveBytes .buffer [8] 60

/-- The buffers of a context for dies on which it holds no core live in its save area (R407, R414). -/
def saveBufs (s : State) (c : Nat) : State :=
  if c = 0 then s
  else
    let held := (heldCores s c).map (· / 48)
    (s.ctx c).bufs.zipIdx.foldl (fun s b =>
      if held.contains b.1.die || saveConflict s c (0x800 + 576 * b.2) 576 then s
      else saveWrite s c (0x800 + 576 * b.2) (bufBytes b.1)) s

/-- Steps 4 and 5 for dies, clusters and cores. -/
def loseUnits (s : State) (c : Nat) (gone : List Nat) : State :=
  let cs := subtree s c
  let s := gone.foldl (fun s k =>
    let b := (s.core k).bind
    if b.valid && cs.contains b.ctx.toNat then bindCore s k Bind.init else s) s
  let hit := cs.filter fun k => (s.ctx k).loseCores gone ≠ s.ctx k
  let dies := if (s.ctx c).depth = 1 then ((s.ctx c).dies.map (·.2)).filter fun d => gone.contains (48 * d) else []
  let s := hit.foldl (fun s k => modCtx s k fun x => x.loseCores gone) s
  let s := modCtx s 0 fun r => { r with dies := addUnits r.dies dies }
  let s := gone.foldl (fun s k => match (s.core k).slice with
    | some (a, _) => if cs.contains a then modCore s k fun x => { x with slice := none } else s
    | none => s) s
  let s := hit.foldl saveBufs s
  ((hit.filter (· ≠ c)).map fun k => (s.ctx k).parent).eraseDups.foldl imposedReport s

/-- Steps 3 to 5 for a range of memory. -/
def loseMem (s : State) (iss c lo n : Nat) : State :=
  let ma := maRanges s c lo n
  let kept := (children s iss).filter (· ≠ c)
  let others := kept.flatMap fun k => (s.ctx k).gmap.filter fun g => g.shared
  let tgt := (s.ctx c).gmap.filterMap fun g =>
    let a := max g.base lo
    let b := min (g.base + g.len) (lo + n)
    if a < b then some (g.target + (a - g.base), g.target + (b - g.base)) else none
  let free := minusAll tgt (others.map fun g => (g.target, g.target + g.len))
  let claimed := free.flatMap fun r => maRanges s iss r.1 (r.2 - r.1)
  let s := evictRanges (shootDown s (iss :: subtree s c) ma) ma
  claimFrames (trimMap 8 c lo (lo + n) s) claimed

/-- Steps 3 and 5 for a key: every descendant that holds it loses it, with the entries that translate under it. -/
def loseKey (s : State) (c k : Nat) : State :=
  let hit := (subtree s c).filter fun x => (s.ctx x).keys.contains k
  let s := hit.foldl (fun s x => modCtx s x fun y => { y with keys := y.keys.filter (· ≠ k) }) (shootKey s hit k)
  ((hit.filter (· ≠ c)).map fun x => (s.ctx x).parent).eraseDups.foldl imposedReport s

/-- A CASKS grant of the child ends, and what it granted onward of it. -/
def loseCasks (s : State) (c cl : Nat) : State :=
  let hit := (subtree s c).filter fun x => (mget (s.ctx x).casks cl).isSome
  let s := hit.foldl (fun s x => modCtx s x fun y => { y with casks := mdel y.casks cl }) s
  ((hit.filter (· ≠ c)).map fun x => (s.ctx x).parent).eraseDups.foldl imposedReport s

/-- An endpoint of a context ends, and what its descendants hold of it (R30). -/
def loseEndpoint : Nat → Nat → Nat → State → State
  | 0, _, _, s => s
  | f + 1, c, n, s =>
    let down := (children s c).flatMap fun k => ((s.ctx k).endpoints.filter fun e => e.2.src = n).map fun e => (k, e.1)
    down.foldl (fun s e => loseEndpoint f e.1 e.2 s) (modCtx s c fun x => { x with endpoints := mdel x.endpoints n })

/-- Steps 3 to 5 of R373 for one resource. -/
def loseResource (s : State) (iss c : Nat) (d : GDesc) : State :=
  match d.kind with
  | 0 => loseMem s iss c d.a1 (65536 * d.a0)
  | 1 | 2 | 3 => loseUnits s c ((revokedCores s iss c d).getD [])
  | 4 => setOwner s d.a0 iss
  | 5 => match absCluster s iss d.a0 with
    | some cl => loseCasks s c cl
    | none => s
  | 6 => loseKey s c d.a0
  | 7 => loseEndpoint 8 c d.a1 s
  | _ => setEngines s c 0

/-- Everything is revoked and the identifier becomes free (R353). -/
def loseAll (s : State) (iss c : Nat) : State :=
  let s := (subtreeTrains s c).foldl discardTrain s
  let s := (s.ctx c).gmap.foldl (fun s g => loseMem s iss c g.base g.len) s
  let s := loseUnits s c (heldCores s c)
  let s := s.queues.foldl (fun s e => if e.2.owner.toNat = c then setOwner s e.1 iss else s) s
  { s with
    ctxs := mdel s.ctxs c
    vintage := mdel s.vintage c
    host := { s.host with vf := s.host.vf.filter fun e => e.2 ≠ c }
    clusters := s.clusters.map fun e => (e.1, { e.2 with tlb := e.2.tlb.filter (·.ctx ≠ c), marks := e.2.marks.filter (·.ctx ≠ c) })
    cores := s.cores.map fun e => (e.1, { e.2 with tlb := e.2.tlb.filter (·.ctx ≠ c) }) }

/-- Package-boundary work of a subtree is on an engine. -/
def boundaryBusy (s : State) (c : Nat) : Bool :=
  s.cores.any fun e => e.2.slots.any fun k => inSubtree s c k.2.ctx &&
    match k.2.work with
    | .copy d => d.kind = 5 || d.kind = 6
    | .list _ _ _ xl => xl

/-- Steps 1 and 2 of a revocation have ended. -/
def revokeReady (s : State) (c : Nat) (o : CtxOp) : Bool :=
  match o.kind with
  | .revoke all drain ws =>
    let d := gdescWords ws
    (if drain then o.trains.all fun t => (mget s.trains t).isNone else o.trains.all fun t => saveDone s t) &&
      (all || (d.kind ≠ 7 && d.kind ≠ 8) || !boundaryBusy s c)
  | _ => false

/-- Contexts whose maps a revocation changes and whose images cannot be written now (R362). -/
def stuckMaps (s : State) (c : Nat) (o : CtxOp) : List Nat :=
  match o.kind with
  | .revoke false _ ws =>
    let d := gdescWords ws
    if d.kind ≠ 0 then []
    else
      let s' := trimMap 8 c d.a1 (d.a1 + 65536 * d.a0) s
      (subtree s c).filter fun k => (s'.ctx k).gmap ≠ (s.ctx k).gmap && mapStuck s k && !(k = c && o.was = .stopped)
  | _ => []

/-- Steps 3 to 6 (R373). -/
def finishRevoke (s : State) (c : Nat) (o : CtxOp) : State :=
  match o.kind with
  | .revoke all drain ws =>
    let engine := if drain then 5 else 6
    let s := modCtx s c fun x => { x with st := o.was, op := none }
    let s := doneReport s o.issuer c o.ticket engine
    if all then loseAll s o.issuer c else loseResource s o.issuer c (gdescWords ws)
  | _ => s

/-! ### Budgets (R368, R369, R390) -/

/-- The nearest metered context from `a` up, none where the root is reached. -/
def meteredFrom (s : State) (a : Nat) (k : Bucket) : Option Nat := payer s a k

/-- FREE(P) (R368). -/
def freeRate (s : State) (p : Nat) (k : Bucket) : Int :=
  s.ctxs.foldl (fun (n : Int) e =>
    if e.1 ≠ 0 && e.1 ≠ p && (e.2.bucket k).depth ≠ 0 && meteredFrom s e.2.parent k = some p then n - (e.2.bucket k).rate else n)
    ((s.ctx p).bucket k).rate

/-- The checks of R369 for one bucket. -/
def budgetOk (s : State) (iss c : Nat) (k : Bucket) (rate depth : Nat) : Bool :=
  match meteredFrom s iss k with
  | none => true
  | some p => ((rate : Int) - ((s.ctx c).bucket k).rate ≤ freeRate s p k) && depth ≤ ((s.ctx p).bucket k).depth

def setBudget (s : State) (c : Nat) (k : Bucket) (rate depth : Nat) : State :=
  modCtx s c fun x =>
    let b := x.bucket k
    x.setBucket k ⟨rate, depth, if depth ≠ 0 && b.depth = 0 then depth else min b.tok depth⟩

def ctxBudget (s : State) (iss c : Nat) (bs : List Byte) : CtxRes :=
  let f (lo n : Nat) : Nat := leVal ((bs.drop lo).take n)
  let ks : List (Bucket × Nat × Nat) := [(.time, f 4 4, f 8 4), (.mem, f 16 4, f 20 4), (.ext, f 28 4, f 32 4)]
  if f 0 4 ≠ 0 || f 40 8 ≠ 0 then (eFORMAT, s)
  else if ks.any fun e => !budgetOk s iss c e.1 e.2.1 e.2.2 then (eBUDGET, s)
  else (0, ks.foldl (fun s e => setBudget s c e.1 e.2.1 e.2.2) s)

/-- Bytes [39:4] of the budget descriptor as `.rd` writes it. -/
def budgetBytes (x : Ctx) : List Byte :=
  [x.time, x.mem, x.ext].flatMap fun b => leBytes 4 b.rate ++ leBytes 4 b.depth ++ leBytes 4 b.tok

/-! ### CTX.RUN (R388, R389) -/

/-- The level table, the fault queue and the level-1 table lie in the child's grants. -/
def runCovered (s : State) (c : Nat) : Bool :=
  let x := s.ctx c
  let ps := pieces s c
  covers ps x.lvbase (32 * x.lvlen) && covers ps (x.fqbase.getD 0) (64 * (1 + 2 ^ x.fqsize)) && covers ps (x.s1root.getD 0) 65536

/-- The card's enqueue as the child's own, with a deadline of 0 rt: the status, and the state. -/
def runCard (s : State) (c va q : Nat) : Nat × State :=
  match (if va % 128 = 0 then deviceRead s c va 128 else none) with
  | none => (3, s)
  | some bs =>
    let card := cardOf bs
    let st := cardStatus s c q .launch card
    if st ≠ 0 then (st, s)
    else match turnPlace s q 0 s.waitSeq with
      | none => (1, s)
      | some p => (0, acceptCard s q p c .launch card bs)

def ctxRun (s : State) (c va q : Nat) : CtxRes :=
  let x := s.ctx c
  if x.st ≠ .created && x.st ≠ .stopped then (eSTATE, s)
  else if x.savelen < saveNeeds (heldCores s c).length || !runCovered s c then (eRESOURCE, s)
  else
    let r := if va = 0 then (0, s) else runCard s c va q
    if r.1 ≠ 0 then (eCARD r.1, s) else (0, modCtx r.2 c fun x => { x with st := .running })

end Sys2Proof.Machine
end

