-- ==== Sys2Proof/Machine/CtxInstr.lean ====
section
/-! DEFINITION. Class 0xC: context instructions (R386 to R390), translation and replay (R393 to R395). -/

namespace Sys2Proof.Machine

open Sys2Proof

/-- A child or context operand (R387): bits [11:0], 0xFFF for the issuer. -/
def ctxOperand (s : State) (x : Ix) (a : Args) (o : Operand) (ls : List Nat) : Nat :=
  let v := src s x a 32 .int o (ls.headD 0) % 4096
  if v = 0xFFF then x.ctx else v

def isChild (s : State) (iss c : Nat) : Bool := c ≠ 0 && s.hasCtx c && (s.ctx c).parent = iss

/-- A CTX.STOP, CTX.REVOKE or the stop of an ASSERT is outstanding on the context (R375). -/
def ctxBusy (s : State) (c : Nat) : Bool :=
  match (s.ctx c).op with
  | some o => o.kind ≠ .migrate
  | none => false

/-- A context instruction: the release of R389, then the child operand with NOCTX and BUSY (R388). -/
def onChild (a : Args) (f : Ix → Nat → List Nat → State → Res) (x : Ix) (ls : List Nat) (s : State) : Res :=
  withRelease x (levelScope x.ctx) s fun s =>
    let c := ctxOperand s x a a.b ls
    if !isChild s x.ctx c then give x a ls eNOCTX s
    else if ctxBusy s c then give x a ls eBUSY s
    else f x c ls s

/-- The 64-bit address in field C, or B. -/
def addrOp (s : State) (x : Ix) (a : Args) (o : Operand) (ls : List Nat) : Nat := src s x a 64 .int o (ls.headD 0)

def giveCtx (x : Ix) (a : Args) (ls : List Nat) (r : CtxRes) : Res := give x a ls r.1 r.2

def execCtxNew (x : Args) (s : State) : Host.Outcome State Fault Refusal :=
  vamer (.ctxNew x) x false (fun ix ls s =>
    withRelease ix (levelScope ix.ctx) s fun s =>
      readStruct ix (addrOp s ix x x.b ls) 64 ls s fun bs s => giveCtx ix x ls (ctxNew s ix.ctx bs)) s

def execCtxGrant (x : Args) (s : State) : Host.Outcome State Fault Refusal :=
  vamer (.ctxGrant x) x false (onChild x fun ix c ls s =>
    readStruct ix (addrOp s ix x x.c ls) 32 ls s fun bs s =>
      let r := ctxGrant s ix.ctx c bs
      if (r.2.ctx c).gmap ≠ (s.ctx c).gmap && mapStuck s c then .wait .other fun s => mapReport s c else giveCtx ix x ls r) s

/-- A child that is MIGRATING takes no stop and no revocation (R352). -/
def unlessMigrating (x : Ix) (a : Args) (c : Nat) (ls : List Nat) (s : State) (k : Res) : Res :=
  if (s.ctx c).st = .migrating then give x a ls eSTATE s else k

def execCtxRevoke (drain : Bool) (x : Args) (s : State) : Host.Outcome State Fault Refusal :=
  vamer (.ctxRevoke drain x) x false (onChild x fun ix c ls s =>
    unlessMigrating ix x c ls s
      (if x.c = .zero then giveCtx ix x ls (ctxRevoke s ix.ctx c drain none)
       else readStruct ix (addrOp s ix x x.c ls) 32 ls s fun bs s => giveCtx ix x ls (ctxRevoke s ix.ctx c drain (some bs)))) s

def execCtxRun (x : Args) (s : State) : Host.Outcome State Fault Refusal :=
  vamer (.ctxRun x) x false (onChild x fun ix c ls s =>
    giveCtx ix x ls (ctxRun s c (addrOp s ix x x.c ls) (src s ix x 32 .int x.d (ls.headD 0) % 65536))) s

def stopBody (kind : OpKind) (a : Args) : Ix → List Nat → State → Res :=
  onChild a fun x c ls s => unlessMigrating x a c ls s (giveCtx x a ls (ctxStop s x.ctx c kind))

def execCtxStopNow (x : Args) (s : State) : Host.Outcome State Fault Refusal :=
  vamer (.ctxStopNow x) x false (stopBody .stopNow x) s
def execCtxStopDrain (x : Args) (s : State) : Host.Outcome State Fault Refusal :=
  vamer (.ctxStopDrain x) x false (stopBody .stopDrain x) s
def execCtxStopReset (x : Args) (s : State) : Host.Outcome State Fault Refusal :=
  vamer (.ctxStopReset x) x false (stopBody .stopReset x) s

def execCtxBudget (x : Args) (s : State) : Host.Outcome State Fault Refusal :=
  vamer (.ctxBudget x) x false (onChild x fun ix c ls s =>
    readStruct ix (addrOp s ix x x.c ls) 48 ls s fun bs s => giveCtx ix x ls (ctxBudget s ix.ctx c bs)) s
/-- CTX.BUDGET.rd stores bytes [39:4] of the descriptor. -/
def execCtxBudgetRd (x : Args) (s : State) : Host.Outcome State Fault Refusal :=
  vamer (.ctxBudgetRd x) x false (onChild x fun ix c ls s =>
    writeStruct ix ((addrOp s ix x x.c ls + 4) % 2 ^ 64) (budgetBytes (s.ctx c)) ls s fun s => give ix x ls 0 s) s

def execCtxReflectMask (x : Args) (s : State) : Host.Outcome State Fault Refusal :=
  vamer (.ctxReflectMask x) x false (onChild x fun ix c ls s =>
    give ix x ls 0 (modCtx s c fun y => { y with reflect := w32 (src s ix x 32 .int x.c (ls.headD 0)) })) s

/-- The report is copied into a fault queue with REFLECTED = 1. -/
def reflectTo (x : Ix) (a : Args) (tgt : Nat) (ls : List Nat) (s : State) : Res :=
  readStruct x (addrOp s x a a.c ls) 64 ls s fun bs s =>
    if reportRsvd bs then give x a ls eFORMAT s
    else give x a ls 0 (sendReport s tgt { reportOf bs with reflected := true })

def execCtxReflectDown (x : Args) (s : State) : Host.Outcome State Fault Refusal :=
  vamer (.ctxReflectDown x) x false (onChild x fun ix c ls s => reflectTo ix x c ls s) s
def execCtxReflectUp (x : Args) (s : State) : Host.Outcome State Fault Refusal :=
  vamer (.ctxReflectUp x) x false (fun ix ls s =>
    withRelease ix (levelScope ix.ctx) s fun s =>
      if ix.ctx = 0 then give ix x ls eNOCTX s else reflectTo ix x (s.ctx ix.ctx).parent ls s) s

/-- A fragment of the context waits for the HCALL numbered `n`. -/
def hcallWaits (s : State) (c n : Nat) : Bool := s.trains.any fun e => e.2.ctx = c && e.2.calls.contains n

/-- The answer to an HCALL whose report had SEQ `seq`. -/
def answerCall (s : State) (c seq : Nat) (v : Word64) : CtxRes :=
  match mget (s.ctx c).hcalls seq with
  | none => (eSTATE, s)
  | some n => if !hcallWaits s c n then (eSTATE, s) else (0, modCtx s c fun y => { y with hcalls := mdel y.hcalls seq, answers := mset y.answers n v })

/-- CTX.REFLECT.ret; at depth 0 the root answers itself with B = 0xFFF (R395). -/
def execCtxReflectRet (x : Args) (s : State) : Host.Outcome State Fault Refusal :=
  vamer (.ctxReflectRet x) x false (fun ix ls s =>
    let ret (c : Nat) (s : State) : Res :=
      giveCtx ix x ls (answerCall s c (src s ix x 32 .int x.c (ls.headD 0)) (w64 (addrOp s ix x x.d ls)))
    if ix.ctx = 0 && src s ix x 32 .int x.b (ls.headD 0) % 4096 = 0xFFF then withRelease ix .sy s fun s => ret 0 s
    else onChild x (fun _ c _ s => ret c s) ix ls s) s

/-! ### TLBI (R393) -/

/-- Page `vpn` lies in [B, B + C); C = 0 means every address. -/
def pageIn (b n vpn : Nat) : Bool :=
  n = 0 || (vpn + 2 ^ 39 - va55 b / 65536) % 2 ^ 39 < (b % 65536 + n + 65535) / 65536

/-- Entries and fault marks of a context on the pages are removed (R393, R408). -/
def dropPages (s : State) (c b n : Nat) : State :=
  let keep (t : Tlb) : Bool := !(t.ctx = c && pageIn b n t.vpn)
  { s with
    clusters := s.clusters.map fun e =>
      (e.1, { e.2 with tlb := e.2.tlb.filter keep, marks := e.2.marks.filter fun m => !(m.ctx = c && pageIn b n m.vpn) })
    cores := s.cores.map fun e => (e.1, { e.2 with tlb := e.2.tlb.filter keep }) }

def ctxTrains (s : State) (c : Nat) : List Nat := (s.trains.filter fun e => e.2.ctx = c).map (·.1)

/-- Accesses that the context's trains have issued are performed, as far as they can be. -/
def settleCtx (s : State) (c : Nat) : State :=
  (ctxTrains s c).foldl (fun s t => match mget s.trains t with
    | some tr => tr.coachIds.foldl (fun s k => settle s t k) s
    | none => s) s

/-- A chunk that a copy of the context has sent to the remote side is not acknowledged yet (R262, R273). -/
def sentOut (s : State) (c : Nat) : Bool :=
  s.cores.any fun e => e.2.slots.any fun k => k.2.ctx = c && k.2.acked < k.2.moved &&
    match k.2.work with
    | .copy d => d.sides.2 = .remote
    | .list .. => false

def ctxSettled (s : State) (c : Nat) : Bool :=
  !sentOut s c && (ctxTrains s c).all fun t => match mget s.trains t with
    | some tr => tr.coachIds.all fun k => settled s t k
    | none => true

def execTlbi (x : Args) (s : State) : Host.Outcome State Fault Refusal :=
  vamer (.tlbi x) x false (fun ix ls s =>
    let c := ctxOperand s ix x x.d ls
    if !inSubtree s ix.ctx c || !s.hasCtx c then .trap (trapOf cCTX_DENIED)
    else
      let b := addrOp s ix x x.b ls
      let n := src s ix x 32 .int x.c (ls.headD 0)
      withRelease ix .pt s fun s1 =>
        let s2 := settleCtx (dropPages s1 c b n) c
        if ctxSettled s2 c then .done s2 [] none else .wait .other fun _ => s2) s

/-! ### REPLAY (R394, R410) -/

/-- A fragment is released: one that faulted walks afresh. -/
def Frag.release (f : Frag) : Frag :=
  match f.park with
  | none => f
  | some p => { f with park := none, replay := p.why ≠ .reflected, age := 0 }

/-- The report's ORIGIN, QUEUE, LAUNCH and TRAIN name a train. -/
def namesTrain (r : Report) (t : Train) : Bool :=
  t.ctx = r.origin.toNat && t.queue = r.queue && t.launch = r.launch && t.num = r.train

/-- The parked fragments of a train that a report names: those of its rank, FRAG and PC that a mark does not hold. -/
def releaseNamed (r : Report) (t : Train) : Train :=
  let g (co : Coach) : Coach :=
    { co with frags := co.frags.map fun f =>
        match f.2.park with
        | some p => (f.1, if f.1 = r.frag.toNat && p.rpc = r.pc && p.why ≠ .behind then f.2.release else f.2)
        | none => f }
  { t with
    coaches := t.coaches.map fun c => (c.1, if t.rankOf.getD c.1 0 = r.rank.toNat then g c.2 else c.2)
    spine := if r.rank = 0 then t.spine.map g else t.spine }

def isKindQ (r : Report) : Bool := r.ty = 0 && (r.code.toNat = cCOPY_FAULT || r.code.toNat = cCMD_BREAK)

def replayReport (s : State) (r : Report) : State :=
  { s with trains := s.trains.map fun e =>
      if !namesTrain r e.2 then e
      else if isKindQ r then (e.1, { e.2 with held := false })
      else (e.1, releaseNamed r e.2) }

def execReplay (x : Args) (s : State) : Host.Outcome State Fault Refusal :=
  vamer (.replay x) x false (fun ix ls s =>
    readStruct ix (addrOp s ix x x.b ls) 64 ls s fun bs s =>
      let r := reportOf bs
      if !inSubtree s ix.ctx r.origin.toNat || !s.hasCtx r.origin.toNat then .trap (trapOf cCTX_DENIED)
      else .done (replayReport s r) [] none) s

/-- Every fragment that a page or grant fault or a kind-Q trap holds, and every held copy. -/
def replayAll (s : State) (c : Nat) : State :=
  let g (co : Coach) : Coach :=
    { co with frags := co.frags.map fun f =>
        match f.2.park with
        | some p => (f.1, if p.why = .reflected then f.2 else f.2.release)
        | none => f }
  { s with
    trains := s.trains.map fun e =>
      if e.2.ctx = c then (e.1, { e.2 with held := false, coaches := e.2.coaches.map fun k => (k.1, g k.2), spine := e.2.spine.map g })
      else e
    cores := s.cores.map fun e => (e.1, { e.2 with slots := e.2.slots.map fun k =>
      if k.2.ctx = c && k.2.fault then (k.1, { k.2 with fault := false, refault := true }) else k }) }

def execReplayAll (x : Args) (s : State) : Host.Outcome State Fault Refusal :=
  vamer (.replayAll x) x false (fun ix ls s =>
    let c := ctxOperand s ix x x.b ls
    if !inSubtree s ix.ctx c || !s.hasCtx c then .trap (trapOf cCTX_DENIED)
    else .done (replayAll s c) [] none) s

/-! ### HCALL (R395) -/

/-- HCALL: its report is written once, and the fragment waits for the answer; the call's number stands in the fragment and, until
delivery, in SEQ. -/
def execHcall (x : Args) (s : State) : Host.Outcome State Fault Refusal :=
  vamer (.hcall x) x false (fun ix ls s =>
    if !canonical (ix.fr.pc + 12).toNat then .trap (addrTrapB ix (ix.fr.pc + 12) (lanesOf ix.fr.mask))
    else
      let n := (s.ctx ix.ctx).hcallSeq
      let s := modCtx s ix.ctx fun y => { y with hcallSeq := n + 1 }
      let s := modFrag s ix.ref fun f => { f with hcall := some ⟨n, x.a, maskOf ls, encodeVamer (.hcall x)⟩, wait := none, age := 0 }
      let s := sendReport s (parentOf s ix.ctx) { reportFrag s ix ix.fr.pc (maskOf ls) ix.ref.frag with
        ty := 4
        code := BitVec.ofNat 16 (src s ix x 32 .int x.b (ls.headD 0))
        aux := w64 (addrOp s ix x x.c ls)
        seq := w32 n }
      .own (noteIssue s ix (.hcall x) x x.yld)) s

end Sys2Proof.Machine
end

