-- ==== Sys2Proof/Machine/DrayInstr.lean ====
section
/-! DEFINITION. The drays: RV32IMC and Zicsr in machine mode (R283, R284; log 10), WFI, and Xdray (R286). -/

namespace Sys2Proof.Machine

open Sys2Proof

/-- What a dray instruction answers. -/
inductive DRes where
  /-- Performed: the state and the change of the dray, its PC included. -/
  | ok (s : State) (f : Dray → Dray)
  /-- It waits and starts again later (R285). -/
  | wait (w : WaitOn)
  /-- An exception: mcause and mtval. -/
  | exc (cause : Nat) (tval : Word32)

/-- The number of a dray's wait, or one after every other (R233). -/
def drayWaitNo (s : State) (x : Dx) (w : WaitOn) : Nat :=
  match x.d.wait with
  | some (n, v) => if v = w then n else s.waitSeq
  | none => s.waitSeq

/-- The wait of a dray takes a number when it begins (R233). -/
def drayStall (s : State) (x : Dx) (w : WaitOn) : State :=
  let s := { s with stalled := true }
  if x.d.wait.map (·.2) = some w then s
  else { modDray s x.t x.key (fun d => { d with wait := some (s.waitSeq, w) }) with waitSeq := s.waitSeq + 1 }

/-- The meaning of an instruction for the dray in turn. -/
def dray (body : Dx → State → DRes) (s : State) : Host.Outcome State Fault Refusal :=
  match s.cur with
  | some (.dray t rank hart) =>
    match dxOf s t rank hart with
    | none => .fault .noIssuer
    | some x =>
      match body x s with
      | .ok s f => .next (modDray s t x.key fun d => { f d with minstret := d.minstret + 1, wait := none })
      | .wait w => .next (drayStall s x w)
      | .exc c v => .next (modDray s t x.key fun d => d.raise c v)
  | _ => .fault .noIssuer

/-- Go on `n` bytes further with rd written. -/
def goRd (n : Nat) (rd : BitVec 5) (v : Word32) (d : Dray) : Dray := { d.setReg rd v with pc := d.pc + w32 n }

/-! ### Memory of a dray (R284) -/

inductive DrayPlace where
  | store (a : Nat)
  | priv (a : Nat)
  | scr (a : Nat)
  | none
deriving DecidableEq, Repr

def drayPlace (a scratch : Nat) : DrayPlace :=
  if a < 0x8000 then .store a
  else if 0x10000 ≤ a && a < 0x12000 then .priv (a % 0x10000)
  else if 0x20000000 ≤ a && a < 0x20000000 + scratch then .scr (a % 0x20000000)
  else .none

def rvLoadBytes : RvLoad → Nat
  | .lb | .lbu => 1
  | .lh | .lhu => 2
  | .lw => 4
def rvLoadSx : RvLoad → Bool
  | .lb | .lh => true
  | _ => false
def rvStoreBytes : RvStore → Nat
  | .sb => 1
  | .sh => 2
  | .sw => 4

def memBytes (m : Memory) (a n : Nat) : List Byte := (List.range n).map fun i => Memory.read m (a + i)
def memPut (m : Memory) (a : Nat) (bs : List Byte) : Memory :=
  (List.range bs.length).foldl (fun m i => Memory.write m (a + i) (bs.getD i 0)) m

/-- A load; poisoned bytes supply a free value (log 6). -/
def rvLoad (k : RvLoad) (rd rs1 : BitVec 5) (off : Word32) (len : Nat) (x : Dx) (s : State) : DRes :=
  let va := x.d.reg rs1 + off
  let a := va.toNat
  let n := rvLoadBytes k
  let give (bs : List Byte) : DRes := .ok s (goRd len rd (w32 (loadValue bs (rvLoadSx k))))
  if a % n ≠ 0 then .exc 4 va
  else
    match drayPlace a x.tr.scratch with
    | .store o => give (memBytes x.d.store o n)
    | .priv o => give (memBytes x.d.priv o n)
    | .scr o =>
      if rangeBusy s x.core x.t o n then .wait .other
      else
        let g := scrGet x.tr x.rank o n
        if g.poison then .ok { s with fresh := s.fresh + 1 } (goRd len rd (Config.freeReg s.fresh)) else give g.bytes
    | .none => .exc 5 va

def rvStore (k : RvStore) (rs1 rs2 : BitVec 5) (off : Word32) (len : Nat) (x : Dx) (s : State) : DRes :=
  let va := x.d.reg rs1 + off
  let a := va.toNat
  let n := rvStoreBytes k
  let bs := leBytes n (x.d.reg rs2).toNat
  let go (d : Dray) : Dray := { d with pc := d.pc + w32 len }
  if a % n ≠ 0 then .exc 6 va
  else
    match drayPlace a x.tr.scratch with
    | .priv o => .ok s fun d => go { d with priv := memPut d.priv o bs }
    | .scr o =>
      if rangeBusy s x.core x.t o n then .wait .other
      else .ok (modTrain s x.t fun t => scrStore t x.rank o bs false []) go
    | .store _ | .none => .exc 7 va

/-! ### Arithmetic -/

def rvAlu (k : RvAlu) (a b : Word32) : Word32 :=
  let sh := b.toNat % 32
  match k with
  | .add => a + b
  | .sub => a - b
  | .sll => a <<< sh
  | .slt => if a.toInt < b.toInt then 1 else 0
  | .sltu => if a.toNat < b.toNat then 1 else 0
  | .xor => a ^^^ b
  | .srl => a >>> sh
  | .sra => a.sshiftRight sh
  | .or => a ||| b
  | .and => a &&& b

/-- The M extension, its divisions by zero and overflow included. -/
def rvMul (k : RvMul) (a b : Word32) : Word32 :=
  let hi (p : Int) : Word32 := w32 (pat 64 p / 2 ^ 32)
  let ov : Bool := a = 0x80000000 && b = 0xFFFFFFFF
  match k with
  | .mul => a * b
  | .mulh => hi (a.toInt * b.toInt)
  | .mulhsu => hi (a.toInt * (b.toNat : Int))
  | .mulhu => hi ((a.toNat : Int) * (b.toNat : Int))
  | .div => if b = 0 then 0xFFFFFFFF else if ov then a else w32 (pat 32 (a.toInt.tdiv b.toInt))
  | .divu => if b = 0 then 0xFFFFFFFF else w32 (a.toNat / b.toNat)
  | .rem => if b = 0 then a else if ov then 0 else w32 (pat 32 (a.toInt.tmod b.toInt))
  | .remu => if b = 0 then a else w32 (a.toNat % b.toNat)

def rvCond (k : RvCond) (a b : Word32) : Bool :=
  match k with
  | .beq => a = b
  | .bne => a ≠ b
  | .blt => a.toInt < b.toInt
  | .bge => a.toInt ≥ b.toInt
  | .bltu => a.toNat < b.toNat
  | .bgeu => a.toNat ≥ b.toNat

/-! ### CSRs (R283) -/

def drayCycle (s : State) (x : Dx) : Nat := (cycOf s x.die + 2 ^ 64 - x.d.cycBase) % 2 ^ 64

/-- The value of a CSR that is readable. -/
def csrRead (s : State) (x : Dx) (n : Nat) : Option Nat :=
  match n with
  | 0x301 => some 0x40801104
  | 0xF14 => some x.hart
  | 0xF11 | 0xF12 | 0xF13 => some 0
  | 0x300 => some 0x1800
  | 0x304 | 0x344 => some 0
  | 0x305 => some x.d.mtvec.toNat
  | 0x340 => some x.d.mscratch.toNat
  | 0x341 => some x.d.mepc.toNat
  | 0x342 => some x.d.mcause.toNat
  | 0x343 => some x.d.mtval.toNat
  | 0xB00 => some (drayCycle s x % 2 ^ 32)
  | 0xB80 => some (drayCycle s x / 2 ^ 32 % 2 ^ 32)
  | 0xB02 => some (x.d.minstret % 2 ^ 32)
  | 0xB82 => some (x.d.minstret / 2 ^ 32 % 2 ^ 32)
  | 0xFC0 => some x.tr.scratch
  | 0xFC1 => some x.rank
  | 0xFC2 => some (s.rtime % 2 ^ 32)
  | 0xFC3 => some x.d.drth.toNat
  | _ => none

def csrWritable (n : Nat) : Bool := n = 0x305 || (0x340 ≤ n && n ≤ 0x343)

def csrWrite (n : Nat) (v : Word32) (d : Dray) : Dray :=
  match n with
  | 0x305 => { d with mtvec := v &&& 0xFFFFFFFC#32 }
  | 0x340 => { d with mscratch := v }
  | 0x341 => { d with mepc := v &&& 0xFFFFFFFE#32 }
  | 0x342 => { d with mcause := v }
  | 0x343 => { d with mtval := v }
  | _ => d

/-- The written value of a Zicsr instruction, none where it does not write. -/
def csrNew (k : RvCsr) (old v : Word32) (field : BitVec 5) : Option Word32 :=
  match k with
  | .rw => some v
  | .rs => if field = 0 then none else some (old ||| v)
  | .rc => if field = 0 then none else some (old &&& ~~~v)

/-- The instruction's own bits, for mtval of an illegal instruction (log 10). -/
def illegalBits (w : Word32) : DRes := .exc 2 w

def rvCsr (k : RvCsr) (rd : BitVec 5) (num : BitVec 12) (imm : Bool) (field : BitVec 5) (w : Word32) (x : Dx) (s : State) : DRes :=
  let v : Word32 := if imm then field.setWidth 32 else x.d.reg field
  match csrRead s x num.toNat with
  | none => illegalBits w
  | some old =>
    match csrNew k (w32 old) v field with
    | some n =>
      if csrWritable num.toNat then .ok s fun d => csrWrite num.toNat n (goRd 4 rd (w32 old) d) else illegalBits w
    | none =>
      .ok s fun d =>
        let d := if num = 0xFC2 then { d with drth := w32 (s.rtime / 2 ^ 32) } else d
        goRd 4 rd (w32 old) d

/-! ### RV32IMC -/

def rvBody (i : Rv) (len : Nat) (x : Dx) (s : State) : DRes :=
  let r (n : BitVec 5) : Word32 := x.d.reg n
  let here := x.d.pc
  match i with
  | .lui rd imm => .ok s (goRd len rd (imm ++ (0 : BitVec 12)))
  | .auipc rd imm => .ok s (goRd len rd (here + (imm ++ (0 : BitVec 12))))
  | .jal rd off => .ok s fun d => { d.setReg rd (here + w32 len) with pc := here + off }
  | .jalr rd rs1 off => .ok s fun d => { d.setReg rd (here + w32 len) with pc := (r rs1 + off) &&& 0xFFFFFFFE#32 }
  | .branch c rs1 rs2 off => .ok s fun d => { d with pc := if rvCond c (r rs1) (r rs2) then here + off else here + w32 len }
  | .load k rd rs1 off => rvLoad k rd rs1 off len x s
  | .store k rs1 rs2 off => rvStore k rs1 rs2 off len x s
  | .opImm k rd rs1 imm => .ok s (goRd len rd (rvAlu k (r rs1) imm))
  | .op k rd rs1 rs2 => .ok s (goRd len rd (rvAlu k (r rs1) (r rs2)))
  | .mul k rd rs1 rs2 => .ok s (goRd len rd (rvMul k (r rs1) (r rs2)))
  | .fence => .ok s fun d => { d with pc := here + w32 len }
  | .ecall => .exc 11 0
  | .ebreak => .exc 3 here
  | .mret => .ok s fun d => { d with pc := x.d.mepc }
  | .csr k rd num imm field => rvCsr k rd num imm field (encodeDray (.rv32imcInstruction i 4)) x s
  | .illegal w => illegalBits w

def execRv32imcInstruction (i : Rv) (len : Nat) (s : State) : Host.Outcome State Fault Refusal := dray (rvBody i len) s

/-- WFI halts the dray until its train retires. -/
def execDrayWfi (s : State) : Host.Outcome State Fault Refusal :=
  dray (fun _ s => .ok s fun d => { d with pc := d.pc + 4, halted := true }) s

/-- DFAULT_WRITE (R283): a non-zero value raises COPY_FAULT, reason 0xD, with the value in AUX; a read of the write-only
register supplies a free value (log 6). -/
def execDfaultWrite (k : RvCsr) (rd : BitVec 5) (imm : Bool) (field : BitVec 5) (s : State) : Host.Outcome State Fault Refusal :=
  dray (fun x s =>
    let v : Word32 := if imm then field.setWidth 32 else x.d.reg field
    let reads := k ≠ .rw || rd ≠ 0
    let old := Config.freeReg s.fresh
    let s := if reads then { s with fresh := s.fresh + 1 } else s
    let s := match csrNew k old v field with
      | some n =>
        if n = 0 then s else trapQ s x.t (copyFaultReport s x.tr x.rank 13 0xFFFF n.toNat 0 3 7)
      | none => s
    .ok s (goRd 4 rd old)) s

/-! ### Xdray (R286) -/

/-- A barrier object at an offset, after its checks. -/
def drayObject (x : Dx) (off : Word32) (f : MbObj → DRes) : DRes :=
  let o := off.toNat
  if o % 16 ≠ 0 then .exc 4 off
  else if o + 16 > x.tr.scratch then .exc 5 off
  else f (mbGet x.tr x.rank o)

/-- DCPY: the lowest failing reason of R259 goes to rd; an offset at which no descriptor can stand is ALIGN or SCRATCH (log 26). -/
def execDcpy (rd rs1 : BitVec 5) (s : State) : Host.Outcome State Fault Refusal :=
  dray (fun x s =>
    let off := x.d.reg rs1
    let o := off.toNat
    if o % 16 ≠ 0 then .ok s (goRd 4 rd 2)
    else if o + 64 > x.tr.scratch then .ok s (goRd 4 rd 3)
    else if rangeBusy s x.core x.t o 64 then .wait .other
    else
      let d := descOf (scrGet x.tr x.rank o 64).bytes
      let reason := d.check x.tr x.rank [0, 1, 2, 3, 4]
      if reason ≠ 0 then .ok s (goRd 4 rd (w32 reason))
      else
        match freeEngineSlot s x.core with
        | none => .wait (.slots x.core)
        | some k => .ok (acceptWork s x.core k x.t x.tr.ctx x.rank (.copy d) none false) (goRd 4 rd 0)) s

def execDkick (rd rs1 rs2 : BitVec 5) (s : State) : Host.Outcome State Fault Refusal :=
  dray (fun x s =>
    let off := (x.d.reg rs1).toNat
    let cnt := (x.d.reg rs2).toNat
    let reason := listCheck x.tr off cnt
    if reason ≠ 0 then .ok s (goRd 4 rd (w32 reason))
    else
      match freeEngineSlot s x.core with
      | none => .wait (.slots x.core)
      | some k => .ok (acceptList s x.core k x.t x.tr.ctx x.rank off cnt false) (goRd 4 rd 0)) s

def execDstat (rd : BitVec 5) (s : State) : Host.Outcome State Fault Refusal :=
  dray (fun x s => .ok s (goRd 4 rd (w32 (engineWord s x.core x.t)))) s

/-- DCK (R286); a poisoned cask supplies a free value (log 6). -/
def execDck (hi draw : Bool) (rd rs1 : BitVec 5) (s : State) : Host.Outcome State Fault Refusal :=
  dray (fun x s =>
    match caskIndex s x.tr.ctx x.cluster ((x.d.reg rs1).toNat % 256) with
    | none => illegalBits (encodeDray (.dck hi draw rd rs1))
    | some k =>
      let ns := [(k, Need.full)]
      let w : WaitOn := .cask x.cluster ns
      if needsMet s x.cluster ns && !earlierCask s x.cluster (drayWaitNo s x w) ns then
        let c := caskGet s x.cluster k
        let s := if draw then caskPut s x.cluster k c.draw else s
        if c.poison then .ok { s with fresh := s.fresh + 1 } (goRd 4 rd (Config.freeReg s.fresh))
        else .ok s (goRd 4 rd (w32 (if hi then c.value.toNat / 2 ^ 32 else c.value.toNat)))
      else .wait w) s

def execDarr (rd rs1 : BitVec 5) (s : State) : Host.Outcome State Fault Refusal :=
  dray (fun x s =>
    let off := x.d.reg rs1
    drayObject x off fun b =>
      if b.init = 0 then .exc 5 off
      else .ok (modMb s x.t x.rank off.toNat fun b => b.arrive 1) (goRd 4 rd (w32 b.ph))) s

def execDexp (arr : Bool) (rd rs1 rs2 : BitVec 5) (s : State) : Host.Outcome State Fault Refusal :=
  dray (fun x s =>
    let off := x.d.reg rs1
    let n := (x.d.reg rs2).toNat
    drayObject x off fun b =>
      if !arr then .ok (modMb s x.t x.rank off.toNat fun b => b.expect n) (goRd 4 rd 0)
      else if b.init = 0 then .exc 5 off
      else .ok (modMb s x.t x.rank off.toNat fun b => (b.expect n).arrive 1) (goRd 4 rd (w32 b.ph))) s

/-- The phase has left the token in rs2[15:0]. -/
def drayLeft (x : Dx) (rs2 : BitVec 5) (b : MbObj) : Bool := b.ph ≠ (x.d.reg rs2).toNat % 65536

def execDwait (rs1 rs2 : BitVec 5) (s : State) : Host.Outcome State Fault Refusal :=
  dray (fun x s => drayObject x (x.d.reg rs1) fun b =>
    if drayLeft x rs2 b then .ok s fun d => { d with pc := d.pc + 4 } else .wait .other) s

def execDtry (rd rs1 rs2 : BitVec 5) (s : State) : Host.Outcome State Fault Refusal :=
  dray (fun x s => drayObject x (x.d.reg rs1) fun b => .ok s (goRd 4 rd (if drayLeft x rs2 b then 1 else 0))) s

end Sys2Proof.Machine
end

