-- ==== Sys2Proof/Machine/Gates.lean ====
section
/-! DEFINITION. Gates (R378 to R385, R391, R392). -/

namespace Sys2Proof.Machine

open Sys2Proof

def gateOp (s : State) (x : Ix) (a : Args) (ls : List Nat) : Nat := src s x a 32 .int a.b (ls.headD 0) % 65536

def Gate.entry? (g : Gate) (c : Nat) : Option AclEntry := g.acl.find? fun e => e.ctx = c
def Gate.mayPost (g : Gate) (c : Nat) : Bool := (g.entry? c).any (·.post)
def Gate.mayTake (g : Gate) (c : Nat) : Bool := (g.entry? c).any (·.take)

/-- Accepted posts of a poster in the current rate window (R378). -/
def gatePosts (s : State) (g : Gate) (c : Nat) : Nat :=
  match mget g.counts c with
  | some (w, n) => if w = s.rtime / g.rwin then n else 0
  | none => 0

/-! ### GATE.NEW, GATE.ACL -/

structure GateDesc where
  base : Nat
  pages : Nat
  rwin : Nat
  rlim : Nat
  rsvd : Bool

def gateDescOf (bs : List Byte) : GateDesc :=
  let f (lo n : Nat) : Nat := leVal ((bs.drop lo).take n)
  { base := f 0 8, pages := f 8 4, rwin := f 12 4, rlim := f 18 2, rsvd := f 16 2 ≠ 0 || f 20 12 ≠ 0 }

def GateDesc.ok (d : GateDesc) : Bool :=
  !d.rsvd && 1 ≤ d.rlim && 1 ≤ d.rwin && d.rwin ≤ 2 ^ 24 && d.base % 65536 = 0 && d.base + 65536 * d.pages ≤ 2 ^ 44

/-- The window is covered by the issuer's own map, what it granted onward included; for the root, by HBM4 (R388). -/
def windowOk (s : State) (c : Nat) (d : GateDesc) : Bool :=
  covers ((pieces s c).filter fun p => c ≠ 0 || isHbm p.ma) d.base (65536 * d.pages)

def gateNew (s : State) (c b : Nat) (bs : List Byte) : CtxRes :=
  let d := gateDescOf bs
  let id := if b = 0xFFFF then lowestFree (fun g => (mget s.gates g).isSome) 0xFFFE 1 else some b
  match id with
  | none => (eNOID, s)
  | some g =>
    if !d.ok then (eFORMAT, s)
    else if g = 0 || (mget s.gates g).isSome || !windowOk s c d then (eGATE, s)
    else (g, { s with gates := mset s.gates g ⟨c, [], d.rwin, d.rlim, [], [], maRanges s c d.base (65536 * d.pages), (s.ctx c).st = .migrating⟩ })

def execGateNew (x : Args) (s : State) : Host.Outcome State Fault Refusal :=
  vamer (.gateNew x) x false (fun ix ls s =>
    withRelease ix (levelScope ix.ctx) s fun s =>
      readStruct ix (addrOp s ix x x.c ls) 32 ls s fun bs s => giveCtx ix x ls (gateNew s ix.ctx (gateOp s ix x ls) bs)) s

/-- A gate of the issuer. -/
def ownGate (s : State) (c g : Nat) : Option Gate := (mget s.gates g).bind fun k => if k.owner = c then some k else none

def execGateNewDel (x : Args) (s : State) : Host.Outcome State Fault Refusal :=
  vamer (.gateNewDel x) x false (fun ix ls s =>
    withRelease ix (levelScope ix.ctx) s fun s =>
      let g := gateOp s ix x ls
      match ownGate s ix.ctx g with
      | none => give ix x ls eGATE s
      | some _ => give ix x ls g (gatesGone { s with gates := mdel s.gates g } (· = g))) s

/-- A context's rights on a gate; `.none` removes its entry and its count. -/
def setAcl (k : Gate) (c : Nat) (post take : Bool) : Gate :=
  if !post && !take then { k with acl := k.acl.filter (·.ctx ≠ c), counts := mdel k.counts c }
  else if (k.entry? c).isSome then { k with acl := k.acl.map fun e => if e.ctx = c then ⟨c, post, take⟩ else e }
  else { k with acl := k.acl ++ [⟨c, post, take⟩] }

/-- A gate is FROZEN while its owner or a listed context is MIGRATING (R384). -/
def refreeze (s : State) : State :=
  let mig (c : Nat) : Bool := s.hasCtx c && (s.ctx c).st = .migrating
  { s with gates := s.gates.map fun g => (g.1, { g.2 with frozen := mig g.2.owner || g.2.acl.any fun a => mig a.ctx }) }

def gateAcl (s : State) (iss g c : Nat) (post take : Bool) : CtxRes :=
  match ownGate s iss g with
  | none => (eGATE, s)
  | some k =>
    if !s.hasCtx c || !inSubtree s iss c then (eNOCTX, s)
    else if (post || take) && (k.entry? c).isNone && k.acl.length ≥ 16 then (eRESOURCE, s)
    else (0, refreeze { s with gates := mset s.gates g (setAcl k c post take) })

def execGateAcl (post take : Bool) (x : Args) (s : State) : Host.Outcome State Fault Refusal :=
  vamer (.gateAcl post take x) x false (fun ix ls s =>
    withRelease ix (levelScope ix.ctx) s fun s =>
      giveCtx ix x ls (gateAcl s ix.ctx (gateOp s ix x ls) (ctxOperand s ix x x.c ls) post take)) s

/-! ### GPOST, GTAKE, GPEEK -/

/-- A denial (R383): counted for the caller, and reported to the owner of a gate that exists. -/
def denyGate (s : State) (x : Ix) (g op : Nat) (ls : List Nat) : State :=
  let s := modSys s x.ctx fun y => { y with deny := y.deny + 1 }
  match mget s.gates g with
  | none => s
  | some k => sendReport s k.owner { reportFrag s x x.fr.pc (maskOf ls) x.ref.frag with
      ty := 2, code := BitVec.ofNat 16 op, aux := w64 g }

/-- The words of a cluster's L1 that lie in a gate's window. -/
def windowWords (s : State) (cl : Nat) (g : Gate) : List Nat :=
  ((s.cluster cl).l1.filter fun w => g.window.any fun r => overlap (4 * w.1) 4 r.1 r.2).map (·.1)

def releaseWindow (s : State) (cl : Nat) (g : Gate) : State := (windowWords s cl g).foldl (fun s wa => writeBack s cl wa) s

/-- Valid words of the window that the cluster does not own become invalid (R381). -/
def acquireWindow (s : State) (cl : Nat) (g : Gate) : State :=
  let ws := windowWords s cl g
  modCluster s cl fun c => { c with l1 := c.l1.filter fun e => !ws.contains e.1 || e.2.owned || e.2.dirty ≠ 0 }

/-- Steps 2 to 5 of R380: the result and the state. -/
def postGate (s : State) (x : Ix) (g : Nat) (v : Word64) (ls : List Nat) : CtxRes :=
  match mget s.gates g with
  | none => (3, denyGate s x g 0 ls)
  | some k =>
    let n := gatePosts s k x.ctx
    if !k.mayPost x.ctx then (3, denyGate s x g 0 ls)
    else if k.values.length ≥ 16 || (ancestors s x.ctx).any (fun c => (s.ctx c).st = .migrating) then (2, s)
    else if n ≥ k.rlim then (1, s)
    else (0, { s with gates := mset s.gates g { k with
      values := k.values ++ [v], counts := mset k.counts x.ctx (s.rtime / k.rwin, n + 1) } })

def execGpost (pd : BitVec 4) (x : Args) (s : State) : Host.Outcome State Fault Refusal :=
  vamer (.gpost pd x) x false (fun ix ls s =>
    let s1 := settleX ix s
    if !settled s1 ix.ref.train ix.ref.coach then .wait .other (settleX ix)
    else
      let g := gateOp s ix x ls
      let s2 := match mget s1.gates g with
        | some k => releaseWindow s1 ix.cluster k
        | none => s1
      let r := postGate s2 ix g (w64 (addrOp s ix x x.c ls)) ls
      give ix x ls r.1 (wrPred r.2 ix pd (ls.map fun l => (l, r.1 = 0)))) s

/-- Takers that wait on a gate since before number `w` (R381). -/
def earlierTaker (s : State) (g w : Nat) : Bool :=
  s.trains.any fun e => e.2.res = .resident && !e.2.held && ctxRuns s e.2.ctx &&
    (e.2.coachIds.any fun c => match e.2.coach? c with
      | some co => co.frags.any fun f => f.2.park.isNone && (match f.2.wait with
        | some (n, .gate k) => k = g && n < w
        | _ => false)
      | none => false)

/-- The result of a take: the value or none, in every enabled lane. -/
def takeResult (a : Args) (pd : BitVec 4) (x : Ix) (ls : List Nat) (v : Option Word64) (s : State) : Res :=
  let s := wr s x a.a 64 (ls.map fun l => (l, ((v.getD 0).toNat)))
  .done (wrPred s x pd (ls.map fun l => (l, v.isSome))) [] none

/-- The gate on which the fragment has waited has been deleted (R385). -/
def tookGone (x : Ix) : Bool :=
  match x.fr.wait with
  | some (_, .gateGone) => true
  | _ => false

def execGtake (t : Bool) (pd : BitVec 4) (x : Args) (s : State) : Host.Outcome State Fault Refusal :=
  vamer (.gtake t pd x) x false (fun ix ls s =>
    let g := gateOp s ix x ls
    if tookGone ix then takeResult x pd ix ls none s
    else match mget s.gates g with
    | none => takeResult x pd ix ls none (denyGate s ix g 1 ls)
    | some k =>
      if !k.mayTake ix.ctx then takeResult x pd ix ls none (denyGate s ix g 1 ls)
      else
        let d := if t then some (ix.fr.deadline.getD (s.rtime + rtCap (src s ix x 32 .int x.c (ls.headD 0)))) else none
        match k.values with
        | v :: rest =>
          if !k.frozen && !earlierTaker s g (waitNo s ix (.gate g)) then
            takeResult x pd ix ls (some v) (acquireWindow { s with gates := mset s.gates g { k with values := rest } } ix.cluster k)
          else if d.any fun n => n ≤ s.rtime then takeResult x pd ix ls none s
          else .wait (.gate g) fun s => modFrag s ix.ref fun f => { f with deadline := d }
        | [] =>
          if d.any fun n => n ≤ s.rtime then takeResult x pd ix ls none s
          else .wait (.gate g) fun s => modFrag s ix.ref fun f => { f with deadline := d }) s

/-- The state word of GPEEK (R392). -/
def gateWord (s : State) (k : Gate) (c : Nat) : Nat :=
  (if k.frozen then 2 ^ 31 else 0) + (if k.mayPost c then 2 ^ 30 else 0) + (if k.mayTake c then 2 ^ 29 else 0) +
    65536 * k.values.length + gatePosts s k c

def execGpeek (x : Args) (s : State) : Host.Outcome State Fault Refusal :=
  vamer (.gpeek x) x false (fun ix ls s =>
    let g := gateOp s ix x ls
    match mget s.gates g with
    | some k => if k.mayPost ix.ctx || k.mayTake ix.ctx then give ix x ls (gateWord s k ix.ctx) s
      else give ix x ls 0 (denyGate s ix g 2 ls)
    | none => give ix x ls 0 (denyGate s ix g 2 ls)) s

end Sys2Proof.Machine
end

