-- ==== Sys2Proof/Machine/Slices.lean ====
section
/-! DEFINITION. What the management firmware and the dispatch hardware do for contexts on their own: the end of stops and
revocations (R372, R373, R418), budgets and slices (R368, R370, R371, R453), and the delivery of fault reports (R365). -/

namespace Sys2Proof.Machine

open Sys2Proof

/-! ### Stops, drains and revocations -/

/-- A stop has ended (R372, R411, R418). -/
def stopReady (s : State) (c : Nat) (o : CtxOp) : Bool :=
  match o.kind with
  | .stopNow | .assert => (subtreeTrains s c).all fun t => saveDone s t
  | .stopDrain => (subtreeTrains s c).isEmpty
  | _ => false

/-- STOP_COMPLETE (R372): context `i`. -/
def execStopComplete (s : State) : Host.Outcome State Fault Refusal :=
  let c := s.ev.i
  .next (match (s.ctx c).op with
    | some o => if s.hasCtx c && stopReady s c o then finishStop s c o (if o.kind = .stopDrain then 5 else 6) else s
    | none => s)

/-- REVOKE_COMPLETE (R373): child `i`. Grant-map images that cannot be written keep it waiting (R362). -/
def execRevokeComplete (s : State) : Host.Outcome State Fault Refusal :=
  let c := s.ev.i
  .next (match (s.ctx c).op with
    | some o =>
      if !(s.hasCtx c && revokeReady s c o) then s
      else match stuckMaps s c o with
        | [] => finishRevoke s c o
        | ks => ks.foldl mapReport s
    | none => s)

/-- The trains that a drain waits for. -/
def drainLeft (s : State) (c : Nat) (o : CtxOp) : Bool :=
  match o.kind with
  | .revoke .. => o.trains.any fun t => (mget s.trains t).isSome
  | _ => !(subtreeTrains s c).isEmpty

/-- A migration of the contexts of a subtree is abandoned; their gates are released. -/
def endMigration (s : State) (c : Nat) : State :=
  refreeze ((subtree s c).foldl (fun s k => modCtx s k fun x =>
    { x with op := x.op.bind fun o => if o.kind = .migrate then none else some o }) s)

/-- DRAIN_DEADLINE (R418): the drain of context `i` escalates to a forced reset; a revocation goes on, a migration is
abandoned. -/
def execDrainDeadline (s : State) : Host.Outcome State Fault Refusal :=
  let c := s.ev.i
  .next (match (s.ctx c).op with
    | none => s
    | some o =>
      if !(o.drains && s.hasCtx c && o.deadline.any (· ≤ s.rtime) && drainLeft s c o) then s
      else
        let s := forcedReset s c
        match o.kind with
        | .revoke all _ ws =>
          let ts := o.trains.filter fun t => (mget s.trains t).isSome
          stopTrains (modCtx (stopSubtree s c) c fun x =>
            { x with st := .stopping, op := some { o with kind := .revoke all false ws, deadline := none, trains := ts, was := .stopped } }) ts
        | .migrate => endMigration (stopSubtree s c) c
        | _ => finishStop s c o 6)

/-! ### Budgets (R368, R370) -/

/-- BUDGET_REFILL (R368). -/
def execBudgetRefill (s : State) : Host.Outcome State Fault Refusal :=
  .next (if !s.timers.contains .refill then s
    else
      let free (c : Nat) (k : Bucket) : Nat := (freeRate s c k).toNat
      let fill (c : Nat) (x : Ctx) (k : Bucket) : Ctx :=
        let b := x.bucket k
        if b.depth = 0 then x else x.setBucket k { b with tok := min b.depth (b.tok + free c k) }
      { s with
        timers := s.timers.filter (· ≠ .refill)
        ctxs := s.ctxs.map fun e => if e.1 = 0 then e else (e.1, [Bucket.time, .mem, .ext].foldl (fill e.1) e.2) })

/-! ### Slices (R371, R453) -/

/-- Contexts that hold a core: the bound one and the soft contexts below it, ascending. -/
def coreHolders (s : State) (core : Nat) : List Nat :=
  match boundCtx s core with
  | none => []
  | some b => (s.ctxs.filter fun e => e.1 = b || ((keyOf e.2.cores core).isSome && inSubtree s b e.1)).map (·.1)

def sliceLen (s : State) (c core : Nat) : Nat :=
  if boundCtx s core = some c then (s.core core).bind.slice.toNat else mgetD (s.ctx c).slices core 0

/-- Resident trains of a core. -/
def coreTrains (s : State) (core : Nat) : List (Nat × Train) :=
  s.trains.filter fun e => e.2.res = .resident && (e.2.cores.contains core || (e.2.spined && e.2.spineCl = core / 4 && e.2.cores.contains core))

/-- A saved train that may resume would take this core: it left it, or it left none that its context still has. -/
def resumesOn (s : State) (core : Nat) (t : Nat) (tr : Train) : Bool :=
  mayResume s t tr && (tr.cores.contains core || !tr.cores.any fun k => placementCore s tr.ctx k)

/-- A context has work on a core (R371). -/
def hasWork (s : State) (c core : Nat) : Bool :=
  (coreTrains s core).any (fun e => e.2.ctx = c) || s.trains.any (fun e => e.2.ctx = c && resumesOn s core e.1 e.2) ||
    (ctxPlaces s c && (coreQueue s c core).any fun q => match firstCandidate s q with
      | some (_, _, k) => k.ctx = c && !k.card.isFill
      | none => false)

/-- A context could take the core now. -/
def wantsCore (s : State) (core c : Nat) : Bool := ctxRuns s c && !outOf s c .time && hasWork s c core

/-- The slice on a core is over, or has to begin. -/
def sliceDue (s : State) (core : Nat) : Bool :=
  match boundCtx s core with
  | none => false
  | some b => match (s.core core).slice with
    | some (c, t) => !(coreHolders s core).contains c || outOf s c .time || !hasWork s c core || t.any (· ≤ s.rtime)
    | none => (outOf s b .time && (coreTrains s core).any fun e => e.2.ctx = b) ||
        (coreHolders s core).any fun c => c ≠ b && wantsCore s core c

/-- The next context in the rotation; the one whose slice it is comes last. -/
def nextHolder (s : State) (core : Nat) : Option Nat :=
  let hs := coreHolders s core
  let cur := (holderOf s core).getD 0
  ((if (s.core core).slice.isSome then hs.filter (· > cur) ++ hs.filter (· ≤ cur) else hs.filter (· ≥ cur) ++ hs.filter (· < cur)).find?
    (wantsCore s core))

/-- The world switch of R417: other contexts' trains stop, and the next context takes the core. -/
def endSlice (s : State) (core : Nat) : State :=
  if !sliceDue s core then s
  else match nextHolder s core with
    | some c =>
      let s := stopTrains s (((coreTrains s core).filter fun e => e.2.ctx ≠ c).map (·.1))
      let n := sliceLen s c core
      modCore s core fun x => { x with
        slice := if (coreHolders s core).length ≤ 1 then none else some (c, if n = 0 then none else some (s.rtime + n)) }
    | none =>
      let s := stopTrains s (((coreTrains s core).filter fun e => outOf s e.2.ctx .time).map (·.1))
      modCore s core fun x => { x with slice := none }

/-- SLICE_END (R371): core `i`. -/
def execSliceEnd (s : State) : Host.Outcome State Fault Refusal := .next (endSlice s s.ev.i)

/-- BUCKET_EMPTY (R370): context `i`, bucket `bucket`. Slices end for TIME; requests wait by themselves for MEM and EXT. -/
def execBucketEmpty (s : State) : Host.Outcome State Fault Refusal :=
  let c := s.ev.i
  let b := (s.ctx c).bucket s.ev.bucket
  .next (if s.ev.bucket = .time && c ≠ 0 && s.hasCtx c && b.depth ≠ 0 && b.tok = 0 then
      (liveCores s).foldl (fun s k => if (holderOf s k).any fun h => payer s h .time = some c then endSlice s k else s) s
    else s)

/-- TIME of one rt (R370): 1 for each core in a context's slice with a train of it resident. -/
def chargeTime (s : State) : State :=
  s.cores.foldl (fun s e => match holderOf s e.1 with
    | some c => if (coreTrains s e.1).any fun t => t.2.ctx = c then charge s c .time 1 else s
    | none => s) s

/-! ### Fault queues (R365) -/

/-- MSI-X vectors of function `f` of a port: 2,048 for the 8 physical functions, 16 for a virtual one (R438). -/
def functionVectors (f : Nat) : Nat := if f < 8 then 2048 else 16

/-- A message of function `fn`, 65,536 × X-die + number, to the host; none without a link or such a vector (R438). -/
def sendMsix (s : State) (fn vec : Nat) : State :=
  if portUp s (fn / 65536) && vec < functionVectors (fn % 65536) then modHost s fun h => { h with msix := h.msix ++ [(fn, vec)] } else s

/-- Machine address of an offset in a context's fault queue. -/
def fqAddr (s : State) (c off : Nat) : Option Nat :=
  (s.ctx c).fqbase.bind fun b => match lookup s c (b + off) true false with
    | .ok ma => if isHbm ma then some ma else none
    | .error _ => none

/-- FQCARD is enqueued as the context's depth-0 enqueue; it is tried again while there is no room. A card that R323 refuses
or that cannot be read is dropped (log 30). -/
def fqNotify (s : State) (c : Nat) : State :=
  let x := s.ctx c
  if !x.fqNotify then s
  else
    let done (s : State) : State := modCtx s c fun y => { y with fqNotify := false }
    let q := x.fqqueue.toNat
    match (if x.fqcard.toNat % 128 = 0 then deviceRead s c x.fqcard.toNat 128 else none) with
    | none => done s
    | some bs =>
      let card := cardOf bs
      if cardStatus s c q .launch card ≠ 0 then done s
      else match turnPlace s q 0 s.waitSeq with
        | none => s
        | some p => done (acceptCard s q p c .launch card bs)

/-- The oldest waiting report is written, then TAIL. -/
def deliverReport (s : State) (c : Nat) : State :=
  let x := s.ctx c
  match x.fqWait, fqAddr s c 0, fqAddr s c (64 * (1 + x.fqTail % 2 ^ x.fqsize)) with
  | r :: rest, some h, some a =>
    if keyConflict s h 0 || keyConflict s a 0 then structConflict s c (x.fqbase.getD 0) 6
    else
      let head := homeVal s (h + 4) 4 0
      let n := (x.fqTail + 2 ^ 32 - head) % 2 ^ 32
      if n ≥ 2 ^ x.fqsize then s
      else
        let s := structClear s c (x.fqbase.getD 0)
        let s := deviceWrite s a ({ r with seq := w32 x.fqTail }).bytes
        let s := deviceWrite s h (leBytes 4 ((x.fqTail + 1) % 2 ^ 32))
        let s := modCtx s c fun y => { y with
          fqTail := (x.fqTail + 1) % 2 ^ 32, fqWait := rest, fqNotify := y.fqNotify || (n = 0 && c ≠ 0 && x.fqcard ≠ 0) }
        let s := if r.ty = 4 && !r.reflected then modCtx s r.origin.toNat fun y => { y with hcalls := mset y.hcalls x.fqTail r.seq.toNat } else s
        if c = 0 && n = 0 then (match s.host.rootVec with | some v => sendMsix s (65536 * (v / 65536)) (v % 65536) | none => s) else s
  | _, _, _ => s

/-- FAULT_REPORT_DELIVER (R365): context `i`: a notification that is due, then the oldest report. -/
def execFaultReportDeliver (s : State) : Host.Outcome State Fault Refusal :=
  let c := s.ev.i
  .next (if s.hasCtx c then fqNotify (deliverReport (fqNotify s c) c) c else s)

end Sys2Proof.Machine
end

