-- ==== Sys2Proof/Machine/TrapInstr.lean ====
section
/-! DEFINITION. Class 0xD: TRAP, TRET, ASSERT, TFRD, TFWR, FBPOP and FBSTAT (R403 to R412). -/

namespace Sys2Proof.Machine

open Sys2Proof

/-- TRAP raises 0x0B00 + n of kind A. -/
def execTrap (x : Args) (s : State) : Host.Outcome State Fault Refusal :=
  vamer (.trap x) x false (fun ix ls s =>
    let n := src s ix x 32 .int x.c (ls.headD 0) % 256
    .done s [] (some { trapOf (0x0B00 + n) with d0 := w64 n })) s

/-- TRET would return (R406). -/
def returns (x : Ix) : Bool :=
  match x.co.frameOf x.fr.mask with
  | none => false
  | some (_, f) => f.lanes = x.fr.mask && targetOk f.rpc

def execTret (x : Args) (s : State) : Host.Outcome State Fault Refusal :=
  vamer (.tret x) x false (fun ix _ s =>
    let s' := trapReturn s ix (encodeVamer (.tret x))
    .own (if returns ix then noteIssue s' ix (.tret x) x x.yld else s')) s

/-! ### ASSERT (R406, R411) -/

/-- The context and its subtree stop; the report goes to the parent, once while such a stop is in progress. A drain that is
under way becomes a stop. -/
def assertStop (s : State) (c : Nat) (r : Report) : State :=
  if (ancestors s c).any fun a => (s.ctx a).op.any fun o => o.kind = .assert then s
  else
    let s := sendReport s (parentOf s c) r
    let ts := subtreeTrains s c
    let s := match (s.ctx c).op with
      | none => beginOp s c ⟨.assert, parentOf s c, 0, none, ts, (s.ctx c).st⟩
      | some o =>
        let kind : OpKind := match o.kind with
          | .revoke all _ ws => .revoke all false ws
          | .migrate => .assert
          | _ => .stopNow
        refreeze (modCtx (stopSubtree s c) c fun x =>
          { x with st := .stopping, op := some { o with kind := kind, deadline := none, was := .stopped } })
    stopTrains s ts

/-- ASSERT completes, and then the stop begins. -/
def execAssert (x : Args) (s : State) : Host.Outcome State Fault Refusal :=
  vamer (.assert x) x false (fun ix ls s =>
    let bad := ls.filter fun l => src s ix x 32 .int x.b l = 0
    if bad.isEmpty then .done s [] none
    else
      let r := { reportFrag s ix ix.fr.pc (maskOf bad) ix.ref.frag with
        code := BitVec.ofNat 16 cASSERT, aux := w64 (src s ix x 64 .int x.c (bad.headD 0)) }
      let s' := commit s ix x (.assert x) x.yld s [] none id
      .own (if s'.stalled then s' else assertStop s' ix.ctx r)) s

/-! ### Frames as bytes (R403, R404) -/

/-- The word of a frame at an offset below 1,024. -/
def frameWord (f : Frame) (off : Nat) : Nat := leVal (((frameBytes f).drop off).take 4)

/-- A word written into a frame; what R403 makes read-only stays. -/
def setFrameWord (f : Frame) (off v : Nat) : Frame :=
  if off = 0x08 then { f with rpc := w64 (2 ^ 32 * (f.rpc.toNat / 2 ^ 32) + v) }
  else if off = 0x0C then { f with rpc := w64 (f.rpc.toNat % 2 ^ 32 + 2 ^ 32 * v) }
  else if 0x40 ≤ off && off < 0x80 then
    let l := (off - 0x40) / 2
    { f with preds := mset (mset f.preds l (BitVec.ofNat 16 v)) (l + 1) (BitVec.ofNat 16 (v / 65536)) }
  else if 0x80 ≤ off && off < 0x200 then
    let i := (off - 0x80) / 24
    if (off - 0x80) % 24 = 16 then
      if i < f.rq.length then
        { f with rq := (List.range f.rq.length).zipWith (fun k e => if k = i then { e with discard := nbit v 29 } else e) f.rq }
      else { f with spare := if nbit v 29 then f.spare ||| 1#16 <<< i else f.spare &&& ~~~(1#16 <<< i) }
    else f
  else if 0x200 ≤ off then { f with savedv := mset f.savedv ((off - 0x200) / 4) (w32 v) }
  else f

/-- A frame access of the enabled lanes at the offsets of field B, with its checks. -/
def onFrame (a : Args) (x : Ix) (ls : List Nat) (s : State) (f : Nat → Frame → List (Nat × Nat) → Res) : Res :=
  match x.co.frameOf x.fr.mask with
  | none => .trap (trapOf cFRAME_STATE)
  | some (slot, fr) =>
    let offs := ls.map fun l => (l, src s x a 32 .int a.b l)
    match orTrap (lanesTrap cMEM_ALIGN (offs.filter fun e => e.2 % 4 ≠ 0)) (lanesTrap cMEM_RANGE (offs.filter fun e => e.2 ≥ 1024)) with
    | some t => .trap t
    | none => f slot fr offs

def execTfrd (x : Args) (s : State) : Host.Outcome State Fault Refusal :=
  vamer (.tfrd x) x false (fun ix ls s =>
    onFrame x ix ls s fun _ f offs => .done (wr s ix x.a 32 (offs.map fun e => (e.1, frameWord f e.2))) [] none) s
def execTfwr (x : Args) (s : State) : Host.Outcome State Fault Refusal :=
  vamer (.tfwr x) x false (fun ix ls s =>
    onFrame x ix ls s fun slot f offs =>
      let f' := offs.foldl (fun f e => setFrameWord f e.2 (src s ix x 32 .int x.c e.1)) f
      .done (modCoach s ix.ref.train ix.ref.coach fun co => { co with frames := mset co.frames slot f' }) [] none) s

/-! ### Fault buffers (R409, R412) -/

/-- Fragments parked behind the mark of a page in a cluster, saturating. -/
def behindCount (s : State) (c cl vpn : Nat) : Nat :=
  min 0xFFFF (s.trains.foldl (fun n e =>
    if e.2.ctx ≠ c then n
    else n + ((e.2.fragRefs e.1).filter fun r => match ixOf s r with
      | some x => x.cluster = cl && (match x.fr.park with | some p => p.why = .behind && p.pages.contains vpn | none => false)
      | none => false).length) 0)

/-- The entry with AUX completed. -/
def poppedEntry (s : State) (c bi : Nat) (e : Nat × Report) : Report :=
  { e.2 with aux := w64 (2 ^ 32 * behindCount s c e.1 (va55 e.2.va.toNat / 65536) + bi) }

def execFbpop (x : Args) (s : State) : Host.Outcome State Fault Refusal :=
  vamer (.fbpop x) x false (fun ix ls s =>
    let c := ctxOperand s ix x x.b ls
    let bi := src s ix x 32 .int x.c (ls.headD 0)
    let d := addrOp s ix x x.d ls
    if !inSubtree s ix.ctx c || !s.hasCtx c then .trap (trapOf cCTX_DENIED)
    else if d % 64 ≠ 0 then .trap (trapAt cMEM_ALIGN (maskOf ls) (w64 d))
    else match (s.ctx c).bufs[bi]? with
      | none => give ix x ls 0xFFFFFFFF s
      | some b => match b.entries with
        | [] => give ix x ls 0xFFFFFFFF s
        | e :: rest =>
          writeStruct ix d (poppedEntry s c bi e).bytes ls s fun s =>
            give ix x ls rest.length (saveBufs (modCtx s c fun y => { y with bufs := y.bufs.set bi { b with entries := rest } }) c)) s

def execFbstat (clr : Bool) (x : Args) (s : State) : Host.Outcome State Fault Refusal :=
  vamer (.fbstat clr x) x false (fun ix ls s =>
    let c := ctxOperand s ix x x.b ls
    let bi := src s ix x 32 .int x.c (ls.headD 0)
    if !inSubtree s ix.ctx c || !s.hasCtx c then .trap (trapOf cCTX_DENIED)
    else match (s.ctx c).bufs[bi]? with
      | none => give ix x ls 0 s
      | some b =>
        give ix x ls (bufWord b) (if clr then saveBufs (modCtx s c fun y => { y with bufs := y.bufs.set bi { b with dropped := false, drops := 0 } }) c else s)) s

end Sys2Proof.Machine
end

