-- ==== Sys2Proof/Machine/Observe.lean ====
section
/-! DEFINITION. Debug, counters and errors: BKPT, SRD, SWR, MARK and WATCH (R419 to R432), counter and series ticks (R425,
R428, R429), host accesses to system registers (R427), and detected errors (R197, R313, R435). -/

namespace Sys2Proof.Machine

open Sys2Proof

/-- BKPT (R431): the frame's word holds the code. -/
def execBkpt (x : Args) (s : State) : Host.Outcome State Fault Refusal :=
  vamer (.bkpt x) x false (fun _ _ s => .done s [] (some (trapOf cBKPT))) s

/-! ### SRD and SWR (R419, R422) -/

/-- What a selector names: the target context and the register; none is CTX_DENIED. -/
def selector (s : State) (x : Ix) (v : Nat) : Option (Nat × Nat × Bool) :=
  let other := nbit v 28
  let c := if other then nbits v 16 12 else x.ctx
  let n := nbits v 0 8
  if nbits v 29 3 ≠ 0 || nbits v 8 8 ≠ 0 || !sysExists n || !s.hasCtx c || !inSubtree s x.ctx c then none else some (c, n, other)

def execSrd (wide : Bool) (x : Args) (s : State) : Host.Outcome State Fault Refusal :=
  vamer (.srd wide x) x false (fun ix ls s =>
    match selector s ix (src s ix x 32 .int x.b (ls.headD 0)) with
    | none => .trap (trapOf cCTX_DENIED)
    | some (c, n, _) =>
      if n = 0x2B && ix.ctx ≠ 0 then .trap (trapOf cCTX_DENIED)
      else
        let v := if n = 0x02 then (if c = ix.ctx && ix.co.step then 1 else 0) else sysGet s c n
        let bits := if wide then 64 else 32
        .done (wr s ix x.a bits (ls.map fun l => (l, v % 2 ^ bits))) [] none) s

/-- The value that a register takes from SWR. -/
def swrValue (s : State) (c n : Nat) (wide : Bool) (v : Nat) : Nat :=
  if sysBits n = 64 && !wide then 2 ^ 32 * (sysGet s c n / 2 ^ 32) + v
  else if sysBits n = 48 then v % 2 ^ 48 else v

def execSwr (wide : Bool) (x : Args) (s : State) : Host.Outcome State Fault Refusal :=
  vamer (.swr wide x) x false (fun ix ls s =>
    match selector s ix (src s ix x 32 .int x.b (ls.headD 0)) with
    | none => .trap (trapOf cCTX_DENIED)
    | some (c, n, other) =>
      let v := src s ix x (if wide then 64 else 32) .int x.c (ls.headD 0)
      let w := swrValue s c n wide v
      if !sysWriter s ix.ctx c n other then .trap (trapOf cCTX_DENIED)
      else if !sysRange n w then .trap (trapAt cMEM_RANGE (maskOf ls) (w64 v))
      else if n = 0x02 then .done (modCoach s ix.ref.train ix.ref.coach fun co => { co with step := w = 1 }) [] none
      else .done (sysSet s c n w) [] none) s

/-! ### MARK and WATCH (R432, R434) -/

def execMark (x : Args) (s : State) : Host.Outcome State Fault Refusal :=
  vamer (.mark x) x false (fun ix ls s =>
    .done (traceRecord s ix.ctx 1 (if ix.spine then 1 else 0) ix.rank ix.tr (w32 (src s ix x 32 .int x.c (ls.headD 0))) ix.fr.pc) [] none) s

def execWatch (r w : Bool) (n : BitVec 2) (x : Args) (s : State) : Host.Outcome State Fault Refusal :=
  vamer (.watch r w n x) x false (fun ix ls s =>
    let len := src s ix x 32 .int x.c (ls.headD 0)
    .done (modCtx s ix.ctx fun c => { c with
      watch := if len = 0 then mdel c.watch n.toNat else mset c.watch n.toNat ⟨w64 (addrOp s ix x x.b ls), len, r, w⟩ }) [] none) s

/-! ### Counters -/

/-- CNT_SEL_WRITE (R422): context `i` writes `x` to CNT_SEL `j`. -/
def execCntSelWrite (s : State) : Host.Outcome State Fault Refusal :=
  .next (if s.hasCtx s.ev.i && s.ev.j < 8 && sysRange (0x10 + s.ev.j) s.ev.x.toNat then sysSet s s.ev.i (0x10 + s.ev.j) s.ev.x.toNat else s)

/-- The values of a policy tick at `t` are latched for every period that ends then. -/
def SysRegs.latch (y : SysRegs) (t : Nat) (vals : SMap (BitVec 48)) : SysRegs :=
  { y with latched := ((List.range 15).filter fun j => t % 2 ^ (10 + j) = 0).foldl (fun m j =>
      vals.foldl (fun m e => mset m (32 * e.1 + 10 + j) ((e.2 :: mgetD m (32 * e.1 + 10 + j) []).take 255)) m) y.latched }

/-- The first timer that a test selects, and the timers without it. -/
def takeTimer {α : Type} (f : Timer → Option α) : List Timer → Option (α × List Timer)
  | [] => none
  | x :: t => match f x with
    | some a => some (a, t)
    | none => (takeTimer f t).map fun r => (r.1, x :: r.2)

def policyOf (c : Nat) : Timer → Option (Nat × SMap (BitVec 48))
  | .policy k t v => if k = c then some (t, v) else none
  | _ => none
def seriesOf (c : Nat) : Timer → Option (List Byte)
  | .series k r => if k = c then some r else none
  | _ => none

/-- COUNTER_POLICY_TICK (R425): the counters of context `i` latch what they held at its oldest policy tick. -/
def execCounterPolicyTick (s : State) : Host.Outcome State Fault Refusal :=
  .next (match takeTimer (policyOf s.ev.i) s.timers with
    | none => s
    | some (v, ts) => modSys { s with timers := ts } s.ev.i fun y => y.latch v.1 v.2)

/-! ### Time series (R428, R429) -/

/-- The count of an event on a physical unit. -/
def unitCount (s : State) (code unit : Nat) : Nat := (mgetD s.units (65536 * code + unit) 0).toNat

/-- An entry: SRC, value A, EVENT and value B. -/
def seriesEntry (src a ev b : Nat) : List Byte := leBytes 8 (2 ^ 48 * (src % 65536) + a % 2 ^ 48) ++ leBytes 8 (2 ^ 52 * ev + b % 2 ^ 48)

/-- The C-dies in the order in which the root's series numbers their units: those that the root holds by die position, then those of the
depth-1 contexts by context and die position; no physical number appears (R8; log 88). -/
def seriesDies (s : State) : List Nat :=
  (s.ctx 0).dies.map (·.2) ++ s.ctxs.flatMap fun e => if e.2.depth = 1 then e.2.dies.map (·.2) else []

/-- Busy and stall counts of units of a kind, or one count; `per` units lie on each C-die, 0 for units of no C-die. -/
def seriesUnits (s : State) (kind n per busy : Nat) (stall : Option Nat) : List Byte :=
  let dies := seriesDies s
  (List.range n).flatMap fun i =>
    let u := if per = 0 then i else per * dies.getD (i / per) 16 + i % per
    match stall with
    | some e => seriesEntry (4096 * kind + i) (unitCount s busy u) e (unitCount s e u)
    | none => seriesEntry (4096 * kind + i) (unitCount s busy u) 0 0

/-- The entries of a record: the package's units for the root, the eight counters for any other context. -/
def seriesEntries (s : State) (c : Nat) : List Byte :=
  if c = 0 then
    seriesUnits s 0 3072 192 0x001 (some 0x002) ++ seriesUnits s 1 768 48 0x010 (some 0x011) ++
    seriesUnits s 2 768 48 0x020 (some 0x021) ++ seriesUnits s 4 4 0 0x060 none ++ seriesUnits s 5 4 0 0x070 none ++
    seriesUnits s 6 16 0 0x080 none
  else (List.range 8).flatMap fun i => seriesEntry i (cntRead s c i) 0 0

def seriesRecord (s : State) (c : Nat) : List Byte :=
  let k := nbits (s.ctx c).sys.tsctl.toNat 0 5
  let es := seriesEntries s c
  leBytes 8 (s.rtime / 2 ^ k) ++ leBytes 8 s.rtime ++ leBytes 2 c ++ leBytes 2 k ++ leBytes 4 (es.length / 16) ++ List.replicate 40 0 ++ es

/-- Bytes written into a ring of a context from an offset on, wrapping; none where a store would fault. -/
def ringStore (s : State) (c base len off : Nat) (bs : List Byte) : Option State :=
  let k := len - off
  match deviceStore s c ((base + off) % 2 ^ 64) (bs.take k) with
  | none => none
  | some s => if bs.length ≤ k then some s else deviceStore s c base (bs.drop k)

/-- The record of one tick, dropped and counted in LOST where it cannot be stored. -/
def seriesTick (s : State) (c : Nat) (bs : List Byte) : State :=
  let y := (s.ctx c).sys
  if bs.length > y.tslen.toNat then countLost s c false
  else match ringStore s c y.tsbase.toNat y.tslen.toNat (y.tsptr.toNat % y.tslen.toNat) bs with
    | none => countLost s c false
    | some s => modSys s c fun y => { y with tsptr := w32 ((y.tsptr.toNat + bs.length) % y.tslen.toNat) }

/-- SAMPLE records of the cores on which the context is bound (R434). -/
def sampleCores (s : State) (c : Nat) : State :=
  (liveCores s).foldl (fun s k =>
    if holderOf s k ≠ some c then s
    else match (s.core k).last.bind (ixOf s) with
      | some x => if x.ctx = c && x.tr.res = .resident then traceRecord s c 2 0 x.rank x.tr x.fr.mask x.fr.pc else s
      | none => s) s

/-- TIME_SERIES_TICK (R428, R434): the oldest record of context `i` is written. -/
def execTimeSeriesTick (s : State) : Host.Outcome State Fault Refusal :=
  let c := s.ev.i
  .next (match takeTimer (seriesOf c) s.timers with
    | none => s
    | some (bs, ts) =>
      let s := seriesTick { s with timers := ts } c bs
      if nbit (s.ctx c).sys.tsctl.toNat 30 then sampleCores s c else s)

/-! ### Host writes of system registers (R427) -/

/-- SYSREG_HOST_WRITE (R427): context `i`, register `j`, half `p`, value `x`, with the rights of context `k`. -/
def execSysregHostWrite (s : State) : Host.Outcome State Fault Refusal :=
  .next (sysHalfWrite s s.ev.k s.ev.i s.ev.j s.ev.p (s.ev.x.toNat % 2 ^ 32))

/-! ### Errors (R197, R435) -/

def errKey (dkind die st : Nat) : Nat := 65536 * (65536 * dkind + die) + st

/-- The context that holds machine bytes: the deepest one below which no exclusive grant leads (R435). -/
def dataOwner (s : State) : Nat → Nat → Nat → Nat
  | 0, c, _ => c
  | n + 1, c, ma =>
    match (children s c).find? fun k => (s.ctx k).gmap.any fun g => !g.shared &&
        (pieces s c).any fun p => p.ma ≤ ma && ma < p.ma + p.len && g.target ≤ p.lo + (ma - p.ma) && p.lo + (ma - p.ma) < g.target + g.len with
    | some k => dataOwner s n k ma
    | none => c

/-- A 32-byte error record (R435). -/
def errBytes (s : State) (dkind die st addr owner count : Nat) (ue poison : Bool) : List Byte :=
  leBytes 3 0 ++ leBytes 1 ((if ue then 128 else 0) + (if poison then 64 else 0)) ++ leBytes 2 owner ++
  leBytes 2 (Config.syndrome s.fresh).toNat ++ leBytes 2 (16384 * dkind + die) ++ leBytes 2 st ++ leBytes 4 count ++ leBytes 8 addr ++
  leBytes 8 s.rtime

/-- An error is counted, and recorded unless it merges into the record of its period or the ring has no room. -/
def errorRecord (s : State) (dkind die st addr owner : Nat) (ue poison : Bool) : State :=
  let key := errKey dkind die st
  let c := mgetD s.host.err.counts key (0, 0)
  let s := modHost s fun h => { h with err := { h.err with counts := mset h.err.counts key (if ue then (c.1, c.2 + 1) else (c.1 + 1, c.2)) } }
  let period := s.rtime / 2 ^ 20
  let e := s.host.err
  let merged := if ue then none else match mget e.recent key with
    | some (p, a, n) => if p = period then some (a, min (n + 1) (2 ^ 32 - 1)) else none
    | none => none
  match merged, e.base with
  | some (a, n), _ => modHost (hostWrite s (a + 12) (leBytes 4 n)) fun h => { h with err := { h.err with recent := mset h.err.recent key (period, a, n) } }
  | none, none => s
  | none, some base =>
    let cap := e.bytes / 32
    if (e.tail - e.head).toNat ≥ cap || !portUp s (e.vector / 65536) then s
    else
      let a := base + 32 * (e.tail.toNat % cap)
      let s := hostWrite { s with fresh := s.fresh + 1 } a (errBytes s dkind die st addr owner 1 ue poison)
      let s := modHost s fun h => { h with err := { h.err with
        tail := h.err.tail + 1, recent := if ue then h.err.recent else mset h.err.recent key (period, a, 1) } }
      sendMsix s (65536 * (e.vector / 65536)) (e.vector % 65536)

/-- The die of a structure and the kind of die (R435). -/
def errDie (st die addr : Nat) : Nat × Nat := if st ≤ 7 then (0, die) else if st ≤ 10 then (1, maDie addr) else (2, die)

/-- Owner context of the data (R435). -/
def errOwner (s : State) : Nat :=
  let st := s.ev.i
  if st = 7 then partOfDie s s.ev.j
  else if 3 ≤ st && st ≤ 6 then ((mget s.trains s.ev.frag.train).map (·.ctx)).getD 0xFFF
  else if isHbm s.ev.k then dataOwner s 7 0 s.ev.k else 0xFFF

/-- What an error does to the structure (R197, R313): a clean L1 word is invalidated; an uncorrectable error poisons. Word
address, offset, register or element is `k`; cluster, rank or lane is `l`. Structure 0 stands for the casks, to which R435 gives no
code (log 92). -/
def errorEffect (s : State) : State :=
  let k := s.ev.k
  let t := s.ev.frag.train
  let poison (l : List Nat) (base n : Nat) : List Nat := (List.range n).foldl (fun l i => if l.contains (base + i) then l else (base + i) :: l) l
  match s.ev.i with
  | 0 => if !s.ev.p then s else modCluster s s.ev.l fun x => { x with casks := mput Cask.init x.casks k { mgetD x.casks k Cask.init with poison := true } }
  | 1 => match l1Get s s.ev.l (k / 4) with
    | some w => if w.dirty = 0 then discardWord s s.ev.l (k / 4) else s
    | none => s
  | 2 => if !s.ev.p then s else match l1Get s s.ev.l (k / 4) with
    | some w => if w.dirty = 0 then s else l1Set s s.ev.l (k / 4) { w with poison := 0xF }
    | none => s
  | 3 => if !s.ev.p then s else modTrain s t fun tr =>
      { tr with scrPoison := mset tr.scrPoison s.ev.l (poison (mgetD tr.scrPoison s.ev.l []) (k / 4 * 4) 4) }
  | 4 => if !s.ev.p then s else modCoach s t s.ev.frag.coach fun co => modLane co s.ev.l fun l => { l with bad := poison l.bad k 1 }
  | 5 => if !s.ev.p then s else modCoach s t s.ev.frag.coach fun co => { co with sbad := poison co.sbad k 1 }
  | 6 => if !s.ev.p then s else modTrain s t fun tr =>
      { tr with tilePoison := mset tr.tilePoison s.ev.l (poison (mgetD tr.tilePoison s.ev.l []) k 1) }
  | 7 => if !s.ev.p then s else
      { s with cellarPoison := mset s.cellarPoison s.ev.j (poison (mgetD s.cellarPoison s.ev.j []) (k / 8 * 8) 8) }
  | _ => if s.ev.p && isHbm k then { s with poison := poison s.poison (k / 8 * 8) 8 } else s

/-- ERROR_DETECTED (R435; a cask has no record, log 92): structure `i`, C-die `j`, ADDR `k`, cluster, rank or lane `l`, uncorrectable when `p`. -/
def execErrorDetected (s : State) : Host.Outcome State Fault Refusal :=
  let st := s.ev.i
  .next (if st > 10 then s
    else if st = 0 then errorEffect s
    else
      let d := errDie st s.ev.j s.ev.k
      errorRecord (errorEffect s) d.1 d.2 st s.ev.k (errOwner s) (s.ev.p && st ≠ 1) (s.ev.p && st ≠ 1))

/-- A pending write reads the cellar of C-die `d`. -/
def readsCellar (d : Nat) (p : Pend) : Bool := p.reads.any fun e => match e.2 with
  | .cellar k _ => k = d
  | _ => false

/-- CELLAR_REFRESH_WINDOW_END (R16, R196): the pending cellar reads of die `i` whose bank's window has ended arrive. -/
def execCellarRefreshWindowEnd (s : State) : Host.Outcome State Fault Refusal :=
  .next (s.trains.foldl (fun u e =>
    e.2.coachIds.foldl (fun u c =>
      ((((e.2.coach? c).map (·.pend)).getD []).filter (readsCellar s.ev.i)).foldl (fun u p => replyPend u e.1 c p) u) u) s)

end Sys2Proof.Machine
end

