-- ==== Sys2Proof/Machine/Mailbox.lean ====
section
/-! DEFINITION. The mailboxes (R444 to R447): one command at a time performed by the management firmware, and the commands
that set up the root, its rings, functions, endpoints and host-managed memory, and those that move bytes and start work. -/

namespace Sys2Proof.Machine

open Sys2Proof

/-! ### Performing a command (R444, R446) -/

def rOK : Nat := 0
def rUNKNOWN : Nat := 1
def rARG : Nat := 2
def rFAULT : Nat := 3
def rSTATE : Nat := 4
def rBUSYCTX : Nat := 5

/-- The command of mailbox `x` is the one that the firmware performs now. -/
def commandDue (s : State) (x : Nat) : Bool := s.host.mq.head? = some x && (s.mbox x).busy && !(s.mbox x).ended

/-- The command has ended with RES; MAILBOX_COMMAND_COMPLETE signals it. -/
def endCommand (s : State) (x res : Nat) : State := modMbox s x fun m => { m with next := w32 res, ended := true, wait := none }

/-- What a command does: it ends with RES, or goes on later. -/
inductive Cmd where
  | ends (res : Nat) (s : State)
  | later (s : State)

/-- The firmware performs the command of mailbox `x` if it is the one that `is` selects; before XMB_BOOT reads 4 only
ATTEST is performed and every other command completes with STATE. -/
def onCommand (s : State) (x : Nat) (is : Mbox → Bool) (attest : Bool) (f : Mbox → State → Cmd) : Host.Outcome State Fault Refusal :=
  .next (if !commandDue s x || !is (s.mbox x) || s.host.heldVolt then s
    else if s.host.boot ≠ 4 && !attest then endCommand s x rSTATE
    else match f (s.mbox x) s with
      | .ends res s => endCommand s x res
      | .later s => s)

def isOp (n : Nat) (m : Mbox) : Bool := m.op.toNat = n

/-- MAILBOX_COMMAND_COMPLETE (R444): RES, TAG and BUSY = 0 of mailbox `i`, then vector 0 of physical function 0 of its X-die. -/
def execMailboxCommandComplete (s : State) : Host.Outcome State Fault Refusal :=
  let x := s.ev.i
  .next (if s.host.mq.head? ≠ some x || !(s.mbox x).ended then s
    else
      let s := modMbox s x fun m => { m with res := m.next, rtag := m.tag, busy := false, ended := false }
      sendMsix (modHost s fun h => { h with mq := h.mq.tail }) (65536 * x) 0)

/-- MAILBOX_UNKNOWN_OP (R446): the codes that R445 does not list. -/
def execMailboxUnknownOp (s : State) : Host.Outcome State Fault Refusal :=
  onCommand s s.ev.i (fun m => m.op.toNat = 0 || m.op.toNat > 0x0D) false fun _ s => .ends rUNKNOWN s

/-- MAILBOX_ORUN (R444): command word `x` is written to mailbox `i` while BUSY. -/
def execMailboxOrun (s : State) : Host.Outcome State Fault Refusal :=
  .next (if s.ev.i < 2 && (s.mbox s.ev.i).busy then mboxCmd s s.ev.i (s.ev.x.toNat % 2 ^ 32) else s)

/-! ### The root's rings (R445) -/

/-- MSI-X vectors of a physical function (R438). -/
def pfVectors : Nat := 2048

/-- ROOTFQ (R445). -/
def execRootfq (s : State) : Host.Outcome State Fault Refusal :=
  onCommand s s.ev.i (isOp 2) false fun m s =>
    let a := m.arg0.toNat
    let size := nbits m.arg1.toNat 0 8
    let vec := nbits m.arg1.toNat 8 16
    if size < 4 || size > 12 || vec ≥ pfVectors || a % 64 ≠ 0 || !isHbm a || !isHbm (a + 64 * (1 + 2 ^ size) - 1) then .ends rARG s
    else .ends rOK (modHost (modCtx s 0 fun r => { r with fqbase := some a, fqsize := size }) fun h =>
      { h with rootVec := some (65536 * s.ev.i + vec) })

/-- ERRRING (R445): the vector is that of physical function 0 of the X-die whose mailbox received it (R444). -/
def execErrring (s : State) : Host.Outcome State Fault Refusal :=
  onCommand s s.ev.i (isOp 3) false fun m s =>
    let n := m.arg1.toNat
    let vec := nbits m.arg2.toNat 0 16
    if m.arg0.toNat % 32 ≠ 0 || n % 32 ≠ 0 || n < 1024 || n > 2 ^ 24 || vec ≥ pfVectors then .ends rARG s
    else .ends rOK (modHost s fun h => { h with err := { h.err with base := some m.arg0.toNat, bytes := n, vector := 65536 * s.ev.i + vec } })

/-! ### Functions, endpoints, host-managed memory, power (R440, R442, R443, R451) -/

/-- Functions of one port: 8 physical and 2,048 virtual (R438). -/
def functionCount : Nat := 2056

/-- BINDVF (R440). -/
def execBindvf (s : State) : Host.Outcome State Fault Refusal :=
  onCommand s s.ev.i (isOp 4) false fun m s =>
    let fn := nbits m.arg0.toNat 0 16
    let key := 65536 * nbits m.arg0.toNat 16 1 + fn
    let c := nbits m.arg1.toNat 0 12
    if fn = 0 || fn ≥ functionCount || (c ≠ 0xFFF && !s.hasCtx c) then .ends rARG s
    else if c ≠ 0xFFF && (s.ctx c).op.isSome then .ends rBUSYCTX s
    else .ends rOK (modHost s fun h => { h with vf := if c = 0xFFF then mdel h.vf key else mset h.vf key c })

/-- ENDPOINT (R445): an entry of the root's table. -/
def execEndpoint (s : State) : Host.Outcome State Fault Refusal :=
  onCommand s s.ev.i (isOp 5) false fun m s =>
    let n := m.arg0.toNat
    if n ≥ 4096 then .ends rARG s
    else .ends rOK (if nbit m.arg1.toNat 4 then
        modCtx s 0 fun r => { r with endpoints := mset r.endpoints n ⟨nbits m.arg1.toNat 0 4, m.arg2, m.arg3, n, 0⟩ }
      else loseEndpoint 8 0 n s)

/-- HDM (R442, R445). -/
def execHdm (s : State) : Host.Outcome State Fault Refusal :=
  onCommand s s.ev.i (isOp 6) false fun m s =>
    let a := m.arg0.toNat
    let n := m.arg1.toNat
    if a % 2 ^ 29 ≠ 0 || n % 2 ^ 29 ≠ 0 || n = 0 || !isHbm (a + n - 1) || !covers (ownMemory s 0) a n then .ends rARG s
    else .ends rOK (modHost s fun h => { h with hdm := mset h.hdm a (n, nbits m.arg2.toNat 0 1) })

/-- POWER (R451). -/
def execPower (s : State) : Host.Outcome State Fault Refusal :=
  onCommand s s.ev.i (isOp 10) false fun m s =>
    let w := m.arg0.toNat
    if w < 1000 || w > s.host.config.powerCeil then .ends rARG s
    else .ends rOK (modHost s fun h => { h with powerLimit := w })

/-! ### RETIRE (R7, R445) -/

/-- A unit that can be retired: a page of backed HBM4, a cluster, a home-cache way. -/
def retireUnit (kind a : Nat) : Option Nat :=
  match kind with
  | 0 => if a % 65536 = 0 && isHbm a && isHbm (a + 65535) then some (a / 65536) else none
  | 1 => if a < 192 then some a else none
  | 2 => if a < 2 ^ 48 then some a else none
  | _ => none

/-- The unit is granted to a context below the root. -/
def unitGranted (s : State) (kind u : Nat) : Bool :=
  match kind with
  | 0 => !isRetired s 0 u && !covers (ownMemory s 0) (65536 * u) 65536
  | 1 => partOfDie s (u / 12) ≠ 0 || s.ctxs.any fun e => e.1 ≠ 0 && (mget e.2.casks u).isSome
  | _ => false

/-- RETIRE (R445). The bind records of a retired cluster's cores become invalid. -/
def execRetire (s : State) : Host.Outcome State Fault Refusal :=
  onCommand s s.ev.i (isOp 8) false fun m s =>
    let kind := m.arg0.toNat
    match retireUnit kind m.arg1.toNat with
    | none => .ends rARG s
    | some u =>
      if unitGranted s kind u then .ends rSTATE s
      else
        let s := if kind = 1 then (List.range 4).foldl (fun s i => bindCore s (4 * u + i) Bind.init) s else s
        .ends rOK (modHost s fun h => { h with retired := if isRetired s kind u then h.retired else (2 ^ 48 * kind + u) :: h.retired })

/-! ### ROOTCTX, HCOPY and ENQUEUE (R447) -/

/-- A root train is resident or suspended. -/
def rootBusy (s : State) : Bool := s.trains.any fun e => e.2.ctx = 0 && e.2.res ≠ .stopped

/-- `n` bytes at home under key 0; none outside backed HBM4, at a key conflict, and where a byte is poisoned. -/
def homeBytes (s : State) (ma n : Nat) : Option (List Byte) :=
  (List.range n).mapM fun i =>
    let a := ma + i
    if isHbm a && !keyConflict s a 0 && !isPoison s a then some (homeByte s a 0) else none

/-- The fields of the context block that the root takes are in the ranges of R354, as machine addresses. -/
def Block.rootOk (b : Block) : Bool :=
  !b.rsvd && 1 ≤ b.lvlen && b.lvlen ≤ 2 ^ 20 && b.lvbase % 32 = 0 && b.s1root % 65536 = 0 && isHbm b.s1root && isHbm b.lvbase &&
    isHbm (b.lvbase + 32 * b.lvlen - 1)

/-- ROOTCTX (R447). -/
def execRootctx (s : State) : Host.Outcome State Fault Refusal :=
  onCommand s s.ev.i (isOp 13) false fun m s =>
    if rootBusy s then .ends rSTATE s
    else match homeBytes s m.arg0.toNat 64 with
      | none => .ends rARG s
      | some bs =>
        let b := blockOf bs
        if !b.rootOk then .ends rARG s
        else .ends rOK (modCtx s 0 fun r => { r with
          s1root := some b.s1root, lvbase := b.lvbase, lvlen := b.lvlen, reflect := w32 b.reflect })

/-- What every 256 bytes of an HCOPY count for the root: a request at home and 256 bytes of PCI Express (R370, R423). -/
def hcopyRequest (s : State) (ma k : Nat) : State :=
  if k % 16 = 0 then countEvent (homeAccess s 0 ma 1) 0 0x081 0 (fun _ => some 0) 1 else s

/-- A mark of poison at home for each of the bytes `bad` (R197). -/
def markHome (s : State) (ma : Nat) (bad : List Nat) : State :=
  if bad.isEmpty then s else { s with poison := bad.map (ma + ·) ++ s.poison }

/-- Up to `n` units of 16 bytes of an HCOPY move, the `k`-th first, with their marks of poison. -/
def hcopyUnits (toHost : Bool) (bus ma : Nat) : Nat → Nat → State → State
  | 0, _, s => s
  | n + 1, k, s =>
    let a := ma + 16 * k
    let h := bus + 16 * k
    let s := hcopyRequest s a k
    let s := if toHost then
        hostPoison (hostWrite s h ((List.range 16).map fun i => homeByte s (a + i) 0)) h ((List.range 16).filter fun i => isPoison s (a + i))
      else markHome (deviceWrite s a (hostRead s h 16)) a (hostBad s h 16)
    hcopyUnits toHost bus ma n (k + 1) s

/-- HCOPY (R447): `k` further units of 16 bytes; an error on the host side when `p`. A frame tagged with another key holds it up
(R362). -/
def execHcopy (s : State) : Host.Outcome State Fault Refusal :=
  onCommand s s.ev.i (isOp 12) false fun m s =>
    let n := m.arg2.toNat
    let a := m.arg1.toNat
    if n % 16 ≠ 0 || n > 2 ^ 30 || (n ≠ 0 && (!isHbm (a + n - 1) || !covers (ownMemory s 0) a n)) then .ends rARG s
    else if n / 16 ≤ m.done then .ends rOK s
    else if s.ev.p || !portUp s s.ev.i then .ends rFAULT s
    else
      let todo := min s.ev.k (n / 16 - m.done)
      if (List.range (16 * todo)).any fun i => keyConflict s (a + 16 * m.done + i) 0 then .later (structConflict s 0 a 6)
      else
        let s := hcopyUnits (nbit m.arg3.toNat 0) m.arg0.toNat a todo m.done (structClear s 0 a)
        if m.done + todo = n / 16 then .ends rOK s
        else .later (modMbox s s.ev.i fun m => { m with done := m.done + todo })

/-- The status of R323 is written back to ARG0 [7:0]. -/
def enqueueDone (s : State) (x st : Nat) : Cmd :=
  .ends rOK (modMbox s x fun m => { m with arg0 := w64 (256 * (m.arg0.toNat / 256) + st) })

/-- ENQUEUE (R447): the root's own depth-0 ENQT, performed when every CXL.mem write in flight has merged. -/
def execEnqueue (s : State) : Host.Outcome State Fault Refusal :=
  onCommand s s.ev.i (isOp 11) false fun m s =>
    let x := s.ev.i
    let q := nbits m.arg1.toNat 0 16
    if (s.ctx 0).s1root.isNone then .ends rSTATE s
    else if m.arg0.toNat % 128 ≠ 0 || m.arg2.toNat > 1000000 then .ends rARG s
    else if !s.host.cxlIn.isEmpty then .later s
    else match deviceRead s 0 m.arg0.toNat 128 with
      | none => enqueueDone s x 3
      | some bs =>
        let c := cardOf bs
        let st := cardStatus s 0 q .launch c
        if st ≠ 0 then enqueueDone s x st
        else
          let w := m.wait.getD (s.waitSeq, s.rtime + m.arg2.toNat)
          match turnPlace s q 0 w.1 with
          | some p => enqueueDone (acceptCard s q p 0 .launch c bs) x 0
          | none =>
            if w.2 ≤ s.rtime then enqueueDone s x 1
            else if m.wait.isSome then .later s
            else
              let s := match freePlace (s.queue q) 0 with
                | some p => if placeBlocked s q p then structConflict s 0 (placeAddr s q p) 5 else s
                | none => s
              .later { modMbox s x (fun m => { m with wait := some w }) with waitSeq := s.waitSeq + 1 }

end Sys2Proof.Machine
end

