-- ==== Sys2Proof/Machine/Reports.lean ====
section
/-! DEFINITION. RESYNC (R436) and ATTEST (R450): what the firmware writes into a host buffer. -/

namespace Sys2Proof.Machine

open Sys2Proof

/-- A list of bytes as `n` bytes. -/
def padTo (n : Nat) (bs : List Byte) : List Byte := bs ++ List.replicate (n - bs.length) 0

/-- The 64 bytes of the measurement, 0 before the firmware starts (R448). -/
def measBytes (s : State) : List Byte :=
  (List.range 64).map fun i => if s.host.boot < 3 || s.host.boot = 15 then 0 else Config.measurement i

/-! ### RESYNC (R436); the places of the fields inside an entry are the model's (log 29) -/

def ctxStCode : CtxSt → Nat
  | .created => 0 | .running => 1 | .stopping => 2 | .stopped => 3 | .migrating => 4

/-- HEAD of a context's fault queue, which software writes. -/
def fqHead (s : State) (c : Nat) : Nat :=
  match fqAddr s c 0 with
  | some h => homeVal s (h + 4) 4 0
  | none => 0

def resyncCtx (s : State) (e : Nat × Ctx) : List Byte :=
  let x := e.2
  padTo 32 (leBytes 2 e.1 ++ leBytes 2 x.parent ++ leBytes 2 x.depth ++ leBytes 2 (ctxStCode x.st) ++ leBytes 4 x.reflect.toNat ++
    leBytes 4 x.ticket ++ leBytes 4 x.tickDone ++ leBytes 4 (fqHead s e.1) ++ leBytes 4 x.fqTail)

def resyncQueue (e : Nat × Queue) : List Byte :=
  padTo 32 (leBytes 4 e.1 ++ leBytes 4 (qcRead e.2 0) ++ leBytes 4 (qcRead e.2 12) ++ leBytes 4 (qcRead e.2 16) ++ leBytes 4 (rsvMap e.2) ++
    leBytes 4 (headState e.2))

def resyncLevel (e : Nat × Level) : List Byte :=
  leBytes 8 e.1 ++ leBytes 4 e.2.count.toNat ++ leBytes 4 ((if e.2.cancel then 2 ^ 31 else 0) + e.2.code.toNat)

/-- Parked fragments of a context on a C-die. -/
def parkedOn (s : State) (c die : Nat) : Nat :=
  s.trains.foldl (fun n e =>
    if e.2.ctx ≠ c then n
    else e.2.coaches.foldl (fun n k =>
      if (e.2.cores[e.2.rankOf.getD k.1 0]?).any fun core => core / 48 = die then n + (k.2.frags.filter fun f => f.2.park.isSome).length
      else n) n) 0

def resyncBufs (s : State) (e : Nat × Ctx) : List (List Byte) :=
  (List.range e.2.bufs.length).filterMap fun i =>
    let b := e.2.bufs.getD i ⟨0, [], false, 0, 0⟩
    if b.entries.isEmpty && !b.dropped then none
    else some (leBytes 4 e.1 ++ leBytes 4 i ++ leBytes 4 (bufWord b) ++ leBytes 4 (parkedOn s e.1 b.die))

def resyncErr (e : Nat × Nat × Nat) : List Byte :=
  padTo 16 (leBytes 2 (16384 * (e.1 / 2 ^ 32) + e.1 / 65536 % 65536) ++ leBytes 2 e.1 ++ leBytes 4 (min e.2.1 (2 ^ 32 - 1)) ++
    leBytes 4 (min e.2.2 (2 ^ 32 - 1)))

def resyncVintage (s : State) (e : Nat × Ctx) : List Byte := leBytes 4 e.1 ++ leBytes 4 (mgetD s.vintage e.1 0)

/-- The six sections: type, entry size and entries. -/
def resyncSections (s : State) : List (Nat × Nat × List (List Byte)) :=
  [(1, 32, s.ctxs.map (resyncCtx s)),
   (2, 32, (s.queues.filter fun e => e.2.owner ≠ 0xFFF).map resyncQueue),
   (3, 16, s.levels.map resyncLevel),
   (4, 16, s.ctxs.flatMap (resyncBufs s)),
   (5, 16, s.host.err.counts.map resyncErr),
   (6, 8, (s.ctxs.filter fun e => e.2.depth = 1).map (resyncVintage s))]

/-- Entries of a section up to the next 64-byte boundary. -/
def sectionBytes (e : Nat × Nat × List (List Byte)) : List Byte :=
  let bs := e.2.2.flatten
  padTo ((bs.length + 63) / 64 * 64) bs

def dirEntry (e : Nat × Nat × List (List Byte)) : List Byte := leBytes 8 (2 ^ 48 * e.1 + 2 ^ 32 * e.2.1 + e.2.2.length)

def summary (s : State) : List Byte :=
  let secs := resyncSections s
  let body := secs.flatMap sectionBytes
  leBytes 4 1 ++ leBytes 4 (128 + body.length) ++ leBytes 8 s.rtime ++ secs.flatMap dirEntry ++ measBytes s ++ body

/-- A host buffer is written; when `p` the host refuses after the first `k` bytes, and without a link of the mailbox's port at once. -/
def putBuffer (s : State) (bus : Nat) (bs : List Byte) : Cmd :=
  if !portUp s s.ev.i then .ends rFAULT s
  else if s.ev.p then .ends rFAULT (hostWrite s bus (bs.take s.ev.k)) else .ends rOK (hostWrite s bus bs)

/-- RESYNC (R436, R445). -/
def execResync (s : State) : Host.Outcome State Fault Refusal :=
  onCommand s s.ev.i (isOp 1) false fun m s =>
    let bs := summary s
    if m.arg1.toNat < bs.length then .ends rARG (modMbox s s.ev.i fun m => { m with arg1 := w64 bs.length })
    else putBuffer s m.arg0.toNat bs

/-! ### ATTEST (R450) -/

/-- Bytes [255:0] of the report, which the signature covers. -/
def attestBody (s : State) (nonce : List Byte) : List Byte :=
  leBytes 4 1 ++ leBytes 4 (if s.host.boot = 15 || s.host.boot < 2 then 0 else 1) ++ nonce ++ measBytes s ++
    (List.range 64).map (Config.shake256 (recordBytes s.host.config)) ++ leBytes 8 s.rtime ++
    (List.range 57).map Config.ed448Public ++ List.replicate 23 0

def attestReport (s : State) (nonce : List Byte) : List Byte :=
  let body := attestBody s nonce
  body ++ (List.range 114).map (Config.ed448Sign body) ++ List.replicate 14 0

/-- ATTEST (R445, R450), which is performed before the firmware is ready too (R444, R448). -/
def execAttest (s : State) : Host.Outcome State Fault Refusal :=
  onCommand s s.ev.i (isOp 9) true fun m s =>
    putBuffer s m.arg0.toNat (attestReport s (hostRead s (m.arg0.toNat + 8) 32))

end Sys2Proof.Machine
end

