-- ==== Sys2Proof/Machine/Migrate.lean ====
section
/-! DEFINITION. Live migration through the mailbox (R377, R384, R445). The layout of the buffer is free; what it holds is
`Moved` (log 27). -/

namespace Sys2Proof.Machine

open Sys2Proof

/-! ### Out -/

/-- Ranges of a context's space that reach a machine range. -/
def cpRanges (s : State) (c : Nat) (r : Nat × Nat) : List (Nat × Nat) :=
  (pieces s c).filterMap fun p =>
    let a := max p.ma r.1
    let b := min (p.ma + p.len) (r.1 + r.2)
    if a < b then some (p.lo + (a - p.ma), b - a) else none

/-- The registers that move; the others restart at their reset values (R420, R426). -/
def movedSys (y : SysRegs) : SysRegs :=
  { y with
    trptr := 0, tsptr := 0, lost := 0, cntVal := [], cntOvf := [], clamps := 0, deny := 0, mmabad := 0, whit := 0, wlanes := 0
    latched := [] }

/-- A context as it moves: its own state before the migration, no parked work, its counters at 0. -/
def movedCtx (x : Ctx) : Ctx :=
  { x with
    st := (x.op.map (·.was)).getD x.st
    op := none
    answers := []
    hcalls := []
    conflicts := []
    bufs := x.bufs.map fun b => { b with entries := [] }
    sys := movedSys x.sys }

def movedGate (s : State) (g : Gate) : Gate := { g with window := g.window.flatMap (cpRanges s g.owner), frozen := false }

/-- Held level records of contexts: context, identifier, record. -/
def heldLevels (s : State) (cs : List Nat) : List (Nat × Nat × Level) :=
  s.levels.flatMap fun e => cs.filterMap fun c => (levelIdAt s c e.1).map fun id => (c, id, e.2)

def movedImage (s : State) (c : Nat) : Moved :=
  let cs := subtree s c
  { top := c
    ctxs := (s.ctxs.filter fun e => cs.contains e.1).map fun e => (e.1, movedCtx e.2)
    queues := s.queues.filter fun e => cs.contains e.2.owner.toNat
    gates := (s.gates.filter fun e => cs.contains e.2.owner).map fun e => (e.1, movedGate s e.2)
    levels := heldLevels s cs }

/-- Step 1: the subtree is MIGRATING and its gates freeze; step 2 begins, with the root's deadline. -/
def beginMigrate (s : State) (c : Nat) : State :=
  let d := s.rtime + (s.ctx 0).sys.drainDl.toNat
  refreeze ((subtree s c).foldl (fun s k => modCtx s k fun x =>
    { x with st := .migrating, op := some ⟨.migrate, 0, 0, if k = c then some d else none, [], x.st⟩ }) s)

/-- A migration that cannot be completed leaves every context as it was before. -/
def undoMigrate (s : State) (c : Nat) : State :=
  refreeze ((subtree s c).foldl (fun s k => modCtx s k fun x => { x with st := (x.op.map (·.was)).getD x.st, op := none }) s)

/-- Held records of a context's level table are written back and no longer held here. -/
def flushHeld (s : State) (c : Nat) : State :=
  s.levels.foldl (fun s e =>
    if (levelIdAt s c e.1).isSome then { levelWriteBack s c e.1 e.2 with levels := mdel s.levels e.1 } else s) s

/-- A frame under another key keeps a held record of the subtree from being written back: the migration waits (R362, R377). -/
def stuckLevels (s : State) (c : Nat) : List (Nat × Nat) :=
  (subtree s c).flatMap fun k => s.levels.filterMap fun e =>
    if (levelIdAt s k e.1).isSome && keyConflict s e.1 0 then some (k, e.1) else none

/-- The owner of a gate learns that a listed context has left the package (R384). -/
def leftReports (s : State) (cs : List Nat) : State :=
  s.gates.foldl (fun s g =>
    if cs.contains g.2.owner then s
    else (g.2.acl.filter fun a => cs.contains a.ctx).foldl (fun s a =>
      sendReport s g.2.owner { Report.blank s a.ctx with ty := 2, code := 3, aux := w64 g.1 }) s) s

/-- The subtree leaves the package: its gates and its entries on other gates are removed, its queues are empty, and what it
held returns to the parents, the deepest contexts first. -/
def leavePackage (s : State) (c : Nat) : State :=
  let cs := subtree s c
  let s := dropGates (leftReports s cs) cs
  let s := s.queues.foldl (fun s e =>
    if cs.contains e.2.owner.toNat then setQueue s e.1 { Queue.init e.1 with owner := e.2.owner } else s) s
  ([6, 5, 4, 3, 2, 1].flatMap fun d => cs.filter fun k => (s.ctx k).depth = d).foldl (fun s k => loseAll s (s.ctx k).parent k) s

/-- The parameters select the direction by ARG0 [12]. -/
def isMigrate (inward : Bool) (m : Mbox) : Bool := m.op.toNat = 7 && nbit m.arg0.toNat 12 = inward

/-- Step 3, at the kernel boundary: held records are written back, the moving state is written to the buffer, the subtree leaves and its
listed gates are released. -/
def finishMigrate (s : State) (c : Nat) (m : Mbox) : Cmd :=
  let img := movedImage s c
  let bs := migEncode img
  if bs.length > m.arg2.toNat then .ends rARG (undoMigrate s c)
  else if s.ev.p || !portUp s s.ev.i then .ends rFAULT (undoMigrate s c)
  else match stuckLevels s c with
    | [] =>
      let s := (subtree s c).foldl flushHeld (modHost s fun h => { h with images := img :: h.images })
      .ends rOK (refreeze (hostWrite (leavePackage s c) m.arg1.toNat bs))
    | ks => .later (ks.foldl (fun s k => structConflict s k.1 k.2 5) s)

/-- The context is STOPPING by a stop, for whose end a migration waits (R375). -/
def stopsNow (s : State) (c : Nat) : Bool :=
  match (s.ctx c).op with
  | some o => (match o.kind with | .stopNow | .stopDrain | .stopReset | .assert => true | _ => false)
  | none => false

/-- MIGRATE_OUT (R377, R445); the host refuses the buffer when `p`. -/
def execMigrateOut (s : State) : Host.Outcome State Fault Refusal :=
  onCommand s s.ev.i (isMigrate false) false fun m s =>
    let c := nbits m.arg0.toNat 0 12
    if m.done = 0 then
      if c = 0 || !s.hasCtx c then .ends rARG s
      else if stopsNow s c then .later s
      else if (subtree s c).any fun k => (s.ctx k).op.isSome then .ends rBUSYCTX s
      else if !ctxPlaces s c then .ends rSTATE s
      else .later (modMbox (beginMigrate s c) s.ev.i fun m => { m with done := 1 })
    else if (s.ctx c).st ≠ .migrating then .ends rSTATE s
    else if (subtreeTrains s c).isEmpty then finishMigrate s c m
    else .later s

/-! ### In -/

/-- Where the physical dies of the image lie here: a depth-1 context takes the lowest-numbered free dies (log 21), a deeper one
keeps its units. -/
def dieMap (s : State) (x : Ctx) : Option (Nat → Nat) :=
  if x.depth ≠ 1 then some id
  else
    let old := x.dies.map (·.2)
    let free := (List.range 16).filter fun d => partOfDie s d = 0
    if free.length < old.length then none
    else some fun d => match old.findIdx? (· = d) with
      | some i => free.getD i d
      | none => d

def mapKeys {α : Type} (f : Nat → Nat) (m : SMap α) : SMap α := m.foldl (fun r e => mset r (f e.1) e.2) []

/-- A context of the image with its physical units renumbered. -/
def placeCtx (f : Nat → Nat) (x : Ctx) : Ctx :=
  let cl (k : Nat) : Nat := 12 * f (k / 12) + k % 12
  let co (k : Nat) : Nat := 48 * f (k / 48) + k % 48
  { x with
    dies := x.dies.map fun e => (e.1, f e.2)
    clusters := x.clusters.map fun e => (e.1, cl e.2)
    cores := x.cores.map fun e => (e.1, co e.2)
    slices := mapKeys co x.slices
    regions := x.regions.map co
    casks := mapKeys cl x.casks
    bufs := x.bufs.map fun b => { b with die := f b.die } }

/-- The parent can give the top context what the image says it holds (R356). -/
def canHost (s : State) (par : Nat) (x : Ctx) : Bool :=
  let sibs := children s par
  (s.ctx par).depth + 1 = x.depth &&
  (x.gmap.all fun g => covers (ownMemory s par) g.target g.len) && covers (ownMemory s par) x.save x.savelen &&
  (x.depth ≠ 2 || x.clusters.all fun e => (relCluster s par e.2).isSome && !sibs.any fun k => (keyOf (s.ctx k).clusters e.2).isSome) &&
  (x.depth ≤ 2 || x.cores.all fun e => (relCore s par e.2).isSome) &&
  (x.casks.all fun e =>
    let r := if par = 0 then (0, 256) else mgetD (s.ctx par).casks e.1 (0, 0)
    r.1 ≤ e.2.1 && e.2.1 + e.2.2 ≤ r.1 + r.2 && !sibs.any fun k => match mget (s.ctx k).casks e.1 with
      | some g => overlap e.2.1 e.2.2 g.1 g.2
      | none => false) &&
  (x.keys.all fun k => holdsKey s par (BitVec.ofNat 8 k))

/-- Identifiers of the image are free here, and its queues are the parent's. -/
def canName (s : State) (par : Nat) (m : Moved) : Bool :=
  (m.ctxs.all fun e => 0 < e.1 && e.1 < 0xFFF && !s.hasCtx e.1) && (m.gates.all fun e => (mget s.gates e.1).isNone) &&
    m.queues.all fun e => (s.queue e.1).owner.toNat = par && !queueHolds (s.queue e.1)

/-- Step 4: the subtree appears below `par`, its memory claimed, its casks empty and its gates released. -/
def joinPackage (s : State) (par : Nat) (m : Moved) (f : Nat → Nat) : State :=
  let s := m.ctxs.foldl (fun s e =>
    { s with ctxs := mset s.ctxs e.1 { placeCtx f e.2 with parent := if e.1 = m.top then par else e.2.parent } }) s
  let x := s.ctx m.top
  let s := if x.depth = 1 then modCtx s 0 fun r => { r with dies := r.dies.filter fun e => (keyOf x.dies e.2).isNone } else s
  let ma := x.gmap.flatMap fun g => maRanges s m.top g.base g.len
  let s := claimFrames (evictRanges (shootDown s [par] ma) ma) ma
  let s := m.ctxs.foldl (fun s e => (s.ctx e.1).casks.foldl (fun s k => emptyCasks s k.1 k.2.1 k.2.2) s) s
  let s := m.queues.foldl (fun s e => setQueue s e.1 e.2) s
  let s := m.gates.foldl (fun s e => { s with
    gates := mset s.gates e.1 { e.2 with window := e.2.window.flatMap fun r => maRanges s e.2.owner r.1 r.2 } }) s
  let s := m.levels.foldl (fun s e => match levelAddr s e.1 e.2.1 with
    | some ma => keepLevel s ma { e.2.2 with back := none }
    | none => s) s
  refreeze (m.ctxs.foldl (fun s e => writeMapImage s e.1) s)

/-- What a buffer holds: an image that this package wrote, or one of another's (log 27). -/
def imageIn (s : State) (bs : List Byte) : Option Moved :=
  (s.host.images.find? fun m => migEncode m = bs.take (migEncode m).length).or (migDecode bs)

/-- MIGRATE_IN (R377, R445); the host refuses the buffer when `p`. -/
def execMigrateIn (s : State) : Host.Outcome State Fault Refusal :=
  onCommand s s.ev.i (isMigrate true) false fun m s =>
    let par := nbits m.arg0.toNat 0 12
    if !s.hasCtx par then .ends rARG s
    else if (s.ctx par).op.isSome then .ends rBUSYCTX s
    else if s.ev.p || !portUp s s.ev.i then .ends rFAULT s
    else match imageIn s (hostRead s m.arg1.toNat m.arg2.toNat) with
      | none => .ends rARG s
      | some img =>
        match mget img.ctxs img.top with
        | none => .ends rARG s
        | some top =>
          match dieMap s top with
          | none => .ends rSTATE s
          | some f =>
            if !(canHost s par (placeCtx f top) && canName s par img) then .ends rSTATE s
            else
              let j := joinPackage s par img f
              if img.ctxs.any fun e => saveConflict j e.1 0 1024 then .later s else .ends rOK j

end Sys2Proof.Machine
end

