-- ==== Sys2Proof/Machine/HostBus.lean ====
section
/-! DEFINITION. What the host, the peers and the module's supplies do to the package: MMIO requests (R22, R439 to R441), CXL.mem
(R442), function-level resets (R440), links (R273, R438, R443), boot (R448), input voltage and clocks (R451). -/

namespace Sys2Proof.Machine

open Sys2Proof

/-! ### MMIO requests (R439 to R441) -/

/-- Machine address of a BAR0 offset. -/
def barAddr (off : Nat) : Nat := 2 ^ 42 + 2 ^ 41 + off

def reqSizeOk (off n : Nat) : Bool := (n = 4 || n = 8) && off % n = 0

/-- An error completion, logged (R22). -/
def errorCompletion (s : State) (ma : Nat) : State := modHost s fun h => { h with errComp := h.errComp ++ [ma], reply := [] }

/-- The context with whose rights a function's requests are made: the root for physical function 0, else the bound one. -/
def functionCtx (s : State) (x fn : Nat) : Option Nat := if fn = 0 then some 0 else mget s.host.vf (65536 * x + fn)

/-- A function other than physical function 0 reaches an offset: a queue block or system registers of its context's subtree. -/
def functionReaches (s : State) (c off : Nat) : Bool :=
  let b := mmioBlock off
  let o := mmioIn off
  (b = 0x10 && o < 64 * 65536 && s.hasCtx (s.queue (o / 64)).owner.toNat && inSubtree s c (s.queue (o / 64)).owner.toNat) ||
    (b = 0x40 && o < 2048 * 4096 && s.hasCtx (o / 2048) && inSubtree s c (o / 2048))

/-- A request of a function that has a link and that a running module takes, at an offset of its BAR0. -/
def hostReach (s : State) : Bool := s.ev.i < 2 && s.ev.j < functionCount && s.ev.k < 2 ^ 36 && portUp s s.ev.i && !s.host.heldVolt

/-- The context with whose rights the request in turn acts at its offset; none where its function does not reach it. -/
def reachCtx (s : State) : Option Nat :=
  (functionCtx s s.ev.i s.ev.j).bind fun c => if s.ev.j = 0 || functionReaches s c s.ev.k then some c else none

/-- MMIO_REGISTER_WRITE (R439): X-die `i`, function `j`, BAR0 offset `k`, `l` bytes, value `x`. -/
def execMmioRegisterWrite (s : State) : Host.Outcome State Fault Refusal :=
  .next (if !hostReach s then s
    else if !reqSizeOk s.ev.k s.ev.l then errorCompletion s (barAddr s.ev.k)
    else match reachCtx s with
      | some c => mmioWrite s c s.ev.k s.ev.l s.ev.x.toNat
      | none => s)

/-- SYSREG_LO_READ (R427, R439, R441): the host's read through X-die `i`, function `j`, BAR0 offset `k`, `l` bytes. The LO half of a
system register latches HI; an offset that the function does not reach reads as all ones. -/
def execSysregLoRead (s : State) : Host.Outcome State Fault Refusal :=
  .next (if !hostReach s then s
    else if !reqSizeOk s.ev.k s.ev.l then errorCompletion s (barAddr s.ev.k)
    else match reachCtx s with
      | some _ => let r := mmioRead s s.ev.k s.ev.l; modHost r.2 fun h => { h with reply := leBytes s.ev.l r.1, replyBad := false }
      | none => modHost s fun h => { h with reply := List.replicate s.ev.l 0xFF, replyBad := false })

/-! ### Scratchpad windows (R190) -/

/-- The core and the offset that a window address decodes to. -/
def windowPlace (a : Nat) : Option (Nat × Nat) :=
  let o := maOff a
  let cl := nbits o 32 4
  let off := nbits o 0 19
  if a < 2 ^ 44 && maRegion a = 1 && maDie a = 1 && cl < 12 && nbits o 19 11 = 0 && off < 393216 then
    some (48 * nbits o 36 4 + 4 * cl + nbits o 30 2, off)
  else none

/-- The resident train and the rank in whose allocation a byte of a core's scratchpad lies, with its offset there (R187). -/
def padTrain (s : State) (core off : Nat) : Option (Nat × Nat × Nat) :=
  s.trains.findSome? fun e =>
    if e.2.res ≠ .resident then none
    else (e.2.cores.findIdx? (· = core)).bind fun r =>
      let b := e.2.sbase.getD r 0
      if b ≤ off && off < b + e.2.scratch then some (e.1, r, off - b) else none

/-- One byte through a window; outside every allocation what the host has written there, or a free value (log 6). -/
def padRead (s : State) (core off : Nat) : Got :=
  match padTrain s core off with
  | some (t, r, o) => match mget s.trains t with
    | some tr => scrGet tr r o 1
    | none => ⟨[], false⟩
  | none => ⟨[(mget (s.core core).pad off).getD (Config.padByte (s.fresh + off))], false⟩

def padWrite (s : State) (core off : Nat) (b : Byte) : State :=
  match padTrain s core off with
  | some (t, r, o) => modTrain s t fun tr => scrStore tr r o [b] false []
  | none => modCore s core fun k => { k with pad := mset k.pad off b }

/-- A request of `n` bytes at a window address is served where the window decodes every one of them. -/
def serveWindow (s : State) (a n : Nat) : Option State :=
  match windowPlace a with
  | none => none
  | some (core, off) =>
    if off + n > 393216 then none
    else if s.ev.p then some ((List.range n).foldl (fun t i => padWrite t core (off + i) (s.ev.bytes.getD i 0)) s)
    else
      let g := (List.range n).map fun i => padRead s core (off + i)
      some (modHost { s with fresh := s.fresh + 393216 } fun h => { h with reply := g.flatMap (·.bytes), replyBad := g.any (·.poison) })

/-- HOST_MMIO_ERROR (R22, R190, R439): a host or DMA request of `j` bytes to machine address `i`, a write of `bytes` when `p`. A decoded
scratchpad window serves it; what no die accepts gets the error completion. -/
def execHostMmioError (s : State) : Host.Outcome State Fault Refusal :=
  let a := s.ev.i
  .next (match serveWindow s a s.ev.j with
    | some t => t
    | none => if (isRefused a && !isSltBlock a) || (isMmio a && !reqSizeOk a s.ev.j) then errorCompletion s a else s)

/-! ### CXL.mem (R202, R442) -/

/-- Every byte of a range is managed by the host through X-die `x` (R442). -/
def allHdm (s : State) (x a n : Nat) : Bool := s.host.hdm.any fun e => e.2.2 = x && e.1 ≤ a && a + n ≤ e.1 + e.2.1

/-- An X-die's port serves CXL.mem: it has a link and the configuration record puts it into CXL mode (R442, R448). -/
def cxlPort (s : State) (x : Nat) : Bool := portUp s x && mgetD s.host.config.portModes x (Config.portMode x) = 1

/-- One byte of a host write is merged at home as a bypass store under key 0. -/
def mergeHost (s : State) (e : Nat × Byte) : State := homePut (tagFrame (dropOwner s (e.1 / 4)) e.1 0) e.1 [e.2] false

/-- CXL_MEM_WRITE (R442): the host's write of `bytes` at machine address `i` through X-die `l` is on its way; when `p`, the writes on
their way are merged at home. -/
def execCxlMemWrite (s : State) : Host.Outcome State Fault Refusal :=
  .next (if s.ev.p then modHost (s.host.cxlIn.foldl mergeHost s) fun h => { h with cxlIn := [] }
    else if !allHdm s s.ev.l s.ev.i s.ev.bytes.length then errorCompletion s s.ev.i
    else if !cxlPort s s.ev.l then s
    else modHost s fun h => { h with
      cxlIn := h.cxlIn ++ (List.range s.ev.bytes.length).map fun k => (s.ev.i + k, s.ev.bytes.getD k 0) })

/-- CXL_MEM_READ (R442): `j` bytes at machine address `i` through X-die `l`, a bypass load at home; writes on their way come first, and
a poisoned byte marks the answer (R197). -/
def execCxlMemRead (s : State) : Host.Outcome State Fault Refusal :=
  let a := s.ev.i
  let n := s.ev.j
  .next (if !allHdm s s.ev.l a n then errorCompletion s a
    else if !cxlPort s s.ev.l then s
    else
      let s := modHost (s.host.cxlIn.foldl mergeHost s) fun h => { h with cxlIn := [] }
      modHost s fun h => { h with
        reply := (List.range n).map fun k => homeByte s (a + k) 0, replyBad := (List.range n).any fun k => isPoison s (a + k) })

/-- BACK_INVALIDATE_COMPLETE (R202). -/
def execBackInvalidateComplete (s : State) : Host.Outcome State Fault Refusal := .next (modHost s fun h => { h with backInv := [] })

/-! ### Function-level reset (R374, R440) -/

/-- FUNCTION_LEVEL_RESET (R440): X-die `i`, function `j`; the binding stays. -/
def execFunctionLevelReset (s : State) : Host.Outcome State Fault Refusal :=
  .next (match (if s.ev.j = 0 then none else mget s.host.vf (65536 * s.ev.i + s.ev.j)) with
    | some c => if s.hasCtx c then endMigration (stopSubtree (forcedReset s c) c) c else s
    | none => s)

/-! ### Links (R273, R281, R438, R443) -/

/-- The endpoint that a boundary request to a peer names. -/
def peerPort (s : State) (sl : Slot) : Option Nat :=
  match sl.work with
  | .copy d =>
    if d.isDma && d.kr then
      (mget (s.ctx sl.ctx).endpoints (nbits (if d.kind = 5 then d.dst.toNat else d.src.toNat) 48 12)).map (·.port)
    else none
  | .list .. => none

def onHostPort (s : State) (x : Nat) (sl : Slot) : Bool :=
  match sl.work with
  | .copy d => d.isDma && !d.kr && hostPort s sl.ctx = x
  | .list .. => false

/-- The first slot that a test selects. -/
def findSlot (s : State) (f : Slot → Bool) : Option (Nat × Nat) :=
  s.cores.findSome? fun e => (e.2.slots.find? fun k => f k.2).map fun k => (e.1, k.1)

/-- Requests that a test selects end with reason 0xC (R267); `fuel` bounds their number. -/
def failSlots (f : State → Slot → Bool) : Nat → State → State
  | 0, s => s
  | n + 1, s =>
    match findSlot s (f s) with
    | none => s
    | some (core, slot) =>
      let acc := match (mget (s.core core).slots slot).map (·.work) with | some (.copy d) => if d.kind = 6 then 4 else 5 | _ => 7
      failSlots f n (endCopyFault s core slot 12 0 acc)

def slotCount (s : State) : Nat := s.cores.foldl (fun n e => n + e.2.slots.length) 0

/-- BOLHAR_LINK_CHANGE (R281): port `i` is linked when `p`; requests in flight on a port that loses its link fail. -/
def execBolharLinkChange (s : State) : Host.Outcome State Fault Refusal :=
  let k := s.ev.i
  .next (if k ≥ 16 then s
    else
      let s := modHost s fun h => { h with links := mset h.links k s.ev.p }
      if s.ev.p then s else failSlots (fun s sl => peerPort s sl = some k) (slotCount s) s)

/-- PCIE_LINK_CHANGE (R438): X-die `i` trains at `j` lanes, in FLIT mode when `p`; a partner without it gets no link. -/
def execPcieLinkChange (s : State) : Host.Outcome State Fault Refusal :=
  let x := s.ev.i
  .next (if x ≥ 2 then s
    else if s.ev.p && (s.ev.j = 4 || s.ev.j = 8 || s.ev.j = 16) then modHost s fun h => { h with pcie := mset h.pcie x (s.ev.j, true) }
    else failSlots (fun s sl => onHostPort s x sl) (slotCount s) (modHost s fun h => { h with pcie := mdel h.pcie x }))

/-- BOLHAR_FLIT_CRC_ERROR (R443): a flit on port `i` fails its CRC; the request of core `j`, slot `k` that it belongs to ends. -/
def execBolharFlitCrcError (s : State) : Host.Outcome State Fault Refusal :=
  let port := s.ev.i
  let core := s.ev.j
  let k := s.ev.k
  .next (if port ≥ 16 then s
    else
      let sl := (mget (s.core core).slots k).bind fun sl => if peerPort s sl = some port then some sl else none
      let s := errorRecord s 2 (port / 8) 0x0B (port % 8) ((sl.map (·.ctx)).getD 0xFFF) true false
      match sl with
      | some sl => endCopyFault s core k 12 0 (match sl.work with | .copy d => if d.kind = 6 then 4 else 5 | .list .. => 7)
      | none => s)

/-- Bytes of a window, read in the translation of the context that exports it. -/
def windowRead (s : State) (c va n : Nat) : Option (List Byte) := if s.hasCtx c then deviceRead s c va n else none
def windowWrite (s : State) (c va : Nat) (bs : List Byte) : Option State := if s.hasCtx c then deviceStore s c va bs else none

/-- BOLHAR_PEER_REQUEST (R273): a peer reaches the window that endpoint `i` exports, at offset `j`: a write of `bytes` when `p`, else
a read of 16 bytes. It is performed at home in the receiving context and acknowledged; where that context's translation
refuses it, the transfer is refused. The window's place is free (log 6). -/
def execBolharPeerRequest (s : State) : Host.Outcome State Fault Refusal :=
  let w := Config.exportWindow s.ev.i
  let va := (w.2 + s.ev.j) % 2 ^ 64
  .next (if s.ev.p then
      match windowWrite s w.1 va s.ev.bytes with
      | some s => modHost s fun h => { h with reply := [] }
      | none => errorCompletion s 0
    else match windowRead s w.1 va 16 with
      | some bs => modHost s fun h => { h with reply := bs }
      | none => errorCompletion s 0)

/-! ### Boot (R448) -/

/-- A class's thresholds are no higher than R334's and no higher than the next class's. -/
def thrOk (t : List Nat) : Bool :=
  let v (i : Nat) : Nat := t.getD i 0
  t.length = 6 && v 0 ≤ 85 && v 1 ≤ 95 && v 2 ≤ 105 && v 3 ≤ 30 && v 4 ≤ 50 && v 5 ≤ 70 && v 0 ≤ v 1 && v 1 ≤ v 2 && v 3 ≤ v 4 && v 4 ≤ v 5

/-- Steps of 1.05 GHz ÷ 32 down to 0.328 GHz (R451). -/
def maxSteps : Nat := 22

def recordOk (r : BootRec) : Bool := r.sigOk && r.clockSteps ≤ maxSteps && 1000 ≤ r.powerCeil && r.powerCeil ≤ 3400 && thrOk r.thr

/-- A die's clock runs at `n` steps below 1.05 GHz from now on. -/
def setClock (s : State) (die n : Nat) : State :=
  let k := mgetD s.clocks die DieClock.init
  { s with clocks := mset s.clocks die ⟨k.base + (s.rtime - k.since) * 21 * (32 - k.steps), s.rtime, n⟩ }

/-- What the record in force sets: the power limit and the clock ceilings. -/
def applyRecord (s : State) : State :=
  let r := s.host.config
  let s := modHost s fun h => { h with powerLimit := r.powerCeil }
  if r.clockSteps = 0 then s else (List.range 16).foldl (fun s d => setClock s d r.clockSteps) s

/-- POWER_UP (R448): the boot goes on by one STATE of XMB_BOOT: record check, measuring, starting the firmware, ready; or CFGBAD. -/
def execPowerUp (s : State) : Host.Outcome State Fault Refusal :=
  let tgt (n : Nat) (s : State) : State := modHost s fun h => { h with boot := n }
  .next (if s.host.heldVolt then s
    else match s.host.boot with
      | 0 => tgt 1 s
      | 1 => if recordOk s.host.config then tgt 2 s else tgt 15 s
      | 2 => tgt 3 s
      | 3 => tgt 4 (applyRecord s)
      | _ => s)

/-! ### Power and clocks (R451) -/

/-- The module in reset: nothing of the package's state stays but the record in flash; host memory is the host's. -/
def heldReset (s : State) : State :=
  { State.reset with
    agenda := s.agenda
    ev := s.ev
    fresh := s.fresh
    host := { HostSide.init with config := s.host.config, mem := s.host.mem, msix := s.host.msix, heldVolt := true } }

/-- INPUT_VOLTAGE_OUT_OF_RANGE (R451): `i` millivolts at the input; back in range, the module leaves reset. -/
def execInputVoltageOutOfRange (s : State) : Host.Outcome State Fault Refusal :=
  .next (if s.ev.i < 48000 || 54000 < s.ev.i then heldReset s else modHost s fun h => { h with heldVolt := false })

/-- The module's power over the last 1,024 rt exceeds the host's limit, or a C-die is not below 105 degrees (R451). -/
def overLimit (s : State) (watts degrees : Nat) : Bool := watts > s.host.powerLimit || degrees ≥ 105

/-- THROTTLE_ADJUST (R451): the firmware sees `k` watts averaged over 1,024 rt and `l` degrees on C-die `i`. Above a limit it runs the
die at least one step of 1/32 lower than now, at `j` steps where that is more; otherwise it lowers nothing and may go back to `j` steps.
The record's ceiling and 0.328 GHz bound both (log 70). -/
def execThrottleAdjust (s : State) : Host.Outcome State Fault Refusal :=
  let now := (mgetD s.clocks s.ev.i DieClock.init).steps
  let want := if overLimit s s.ev.k s.ev.l then max (now + 1) s.ev.j else min now s.ev.j
  .next (if s.ev.i < 16 then setClock s s.ev.i (min maxSteps (max s.host.config.clockSteps want)) else s)

end Sys2Proof.Machine
end

