-- ==== Sys2Proof/Machine/Integer.lean ====
section
/-! DEFINITION. Class 0x0: the words that trap by name (R57, R39), integer arithmetic, logic, shifts, bit fields, compare,
select, moves and addresses (R67 to R90). -/

namespace Sys2Proof.Machine

open Sys2Proof

/-- A word that traps whatever its guard holds (R39 steps 1 and 2). -/
def trapWord (t : Trap) (w : Word96) (s : State) : Host.Outcome State Fault Refusal :=
  match s.cur with
  | some (.frag r) =>
    match ixOf s r with
    | some x => .next (trapB s x t w)
    | none => .fault .noIssuer
  | _ => .fault .noIssuer

/-- ZERO_WORD (R57). -/
def execZtrap (w : Word96) (s : State) : Host.Outcome State Fault Refusal := trapWord (trapOf cZERO_WORD) w s
/-- ONES_WORD (R57). -/
def execOnesWord (w : Word96) (s : State) : Host.Outcome State Fault Refusal := trapWord (trapOf cONES_WORD) w s
/-- An unassigned OPC raises ILLEGAL with field OPC (R39, R55). -/
def execUnassignedOpc (w : Word96) (s : State) : Host.Outcome State Fault Refusal :=
  trapWord ((trapOf cILLEGAL).onField .opc) w s

/-- A two-source integer operation with an optional flag. -/
def alu2 (i : Instr) (a : Args) (bits bw cw : Nat) (pd : Option (BitVec 4)) (f : Nat → Nat → Nat × Bool) (s : State) :
    Host.Outcome State Fault Refusal :=
  vamer i a false (lanewiseP a.a bits pd fun s x l =>
    f (src s x a bw .int a.b l) (src s x a cw .int a.c l)) s

def alu3 (i : Instr) (a : Args) (bits bw cw dw : Nat) (pd : Option (BitVec 4)) (f : Nat → Nat → Nat → Nat × Bool)
    (s : State) : Host.Outcome State Fault Refusal :=
  vamer i a false (lanewiseP a.a bits pd fun s x l =>
    f (src s x a bw .int a.b l) (src s x a cw .int a.c l) (src s x a dw .int a.d l)) s

def alu1 (i : Instr) (a : Args) (bits bw : Nat) (pd : Option (BitVec 4)) (f : Nat → Nat × Bool) (s : State) :
    Host.Outcome State Fault Refusal :=
  vamer i a false (lanewiseP a.a bits pd fun s x l => f (src s x a bw .int a.b l)) s

/-- ADD (R73). -/
def execAdd (m : IntMod) (x : Args) (s : State) : Host.Outcome State Fault Refusal :=
  alu2 (.add m x) x m.w.bits m.w.bits m.w.bits (flagPd m.po m.pd) (addSub false m m.w.bits) s
/-- SUB (R73). -/
def execSub (m : IntMod) (x : Args) (s : State) : Host.Outcome State Fault Refusal :=
  alu2 (.sub m x) x m.w.bits m.w.bits m.w.bits (flagPd m.po m.pd) (addSub true m m.w.bits) s

/-- ADDC and SUBB read and write the carry predicate (R74). -/
def carryOp (i : Instr) (sub w64 : Bool) (cp : BitVec 4) (a : Args) (s : State) : Host.Outcome State Fault Refusal :=
  vamer i a false (lanewiseP a.a (wbits w64) (some cp) fun s x l =>
    addCarry sub (wbits w64) (src s x a (wbits w64) .int a.b l) (src s x a (wbits w64) .int a.c l) (predOf x l cp)) s

def execAddc (w64 : Bool) (cp : BitVec 4) (x : Args) (s : State) : Host.Outcome State Fault Refusal :=
  carryOp (.addc w64 cp x) false w64 cp x s
def execSubb (w64 : Bool) (cp : BitVec 4) (x : Args) (s : State) : Host.Outcome State Fault Refusal :=
  carryOp (.subb w64 cp x) true w64 cp x s

/-- MUL (R75). -/
def execMul (m : IntMod) (x : Args) (s : State) : Host.Outcome State Fault Refusal :=
  let k := mulSrcBits m.w
  alu2 (.mul m x) x m.w.bits k k (flagPd m.po m.pd) (fun b c => mulAdd m k m.w.bits b c none) s
/-- MULH (R75). -/
def execMulh (m : IntMod) (x : Args) (s : State) : Host.Outcome State Fault Refusal :=
  alu2 (.mulh m x) x m.w.bits m.w.bits m.w.bits none (fun b c => (mulHigh m.u m.w.bits b c, false)) s
/-- MAD (R76). -/
def execMad (m : IntMod) (x : Args) (s : State) : Host.Outcome State Fault Refusal :=
  let k := mulSrcBits m.w
  alu3 (.mad m x) x m.w.bits k k m.w.bits (flagPd m.po m.pd) (fun b c d => mulAdd m k m.w.bits b c (some d)) s

/-- DIV (R77). -/
def execDiv (m : IntMod) (x : Args) (s : State) : Host.Outcome State Fault Refusal :=
  let n := m.w.bits
  alu2 (.div m x) x n n n (flagPd m.po m.pd) (fun b c => ((divRem m.u n b c).1, divFlag m n b c)) s
/-- REM (R77). -/
def execRem (m : IntMod) (x : Args) (s : State) : Host.Outcome State Fault Refusal :=
  let n := m.w.bits
  alu2 (.rem m x) x n n n (flagPd m.po m.pd) (fun b c => ((divRem m.u n b c).2, divFlag m n b c)) s

/-- MIN and MAX (R78). -/
def execMin (m : IntMod) (x : Args) (s : State) : Host.Outcome State Fault Refusal :=
  alu2 (.min m x) x m.w.bits m.w.bits m.w.bits none (fun b c => (minMax false m.u m.w.bits b c, false)) s
def execMax (m : IntMod) (x : Args) (s : State) : Host.Outcome State Fault Refusal :=
  alu2 (.max m x) x m.w.bits m.w.bits m.w.bits none (fun b c => (minMax true m.u m.w.bits b c, false)) s

/-- ABS (R79). -/
def execAbs (m : IntMod) (x : Args) (s : State) : Host.Outcome State Fault Refusal :=
  let n := m.w.bits
  alu1 (.abs m x) x n n (flagPd m.po m.pd)
    (fun b => (absVal m.sat n b, flagOf m.po false (sval n b = minS n))) s

/-- AND, OR, XOR and NOT (R80). -/
def execAnd (m : IntMod) (x : Args) (s : State) : Host.Outcome State Fault Refusal :=
  alu2 (.and m x) x m.w.bits m.w.bits m.w.bits none (fun b c => (b &&& c, false)) s
def execOr (m : IntMod) (x : Args) (s : State) : Host.Outcome State Fault Refusal :=
  alu2 (.or m x) x m.w.bits m.w.bits m.w.bits none (fun b c => (b ||| c, false)) s
def execXor (m : IntMod) (x : Args) (s : State) : Host.Outcome State Fault Refusal :=
  alu2 (.xor m x) x m.w.bits m.w.bits m.w.bits none (fun b c => (b ^^^ c, false)) s
def execNot (m : IntMod) (x : Args) (s : State) : Host.Outcome State Fault Refusal :=
  alu1 (.not m x) x m.w.bits m.w.bits none (fun b => (notVal m.w.bits b, false)) s

/-- Shifts: C is 32 bits wide (R81). -/
def execShl (m : IntMod) (x : Args) (s : State) : Host.Outcome State Fault Refusal :=
  alu2 (.shl m x) x m.w.bits m.w.bits 32 none (fun b c => (shlVal m.w.bits b c, false)) s
def execShr (m : IntMod) (x : Args) (s : State) : Host.Outcome State Fault Refusal :=
  alu2 (.shr m x) x m.w.bits m.w.bits 32 none (fun b c => (shrVal m.w.bits b c, false)) s
def execSar (m : IntMod) (x : Args) (s : State) : Host.Outcome State Fault Refusal :=
  alu2 (.sar m x) x m.w.bits m.w.bits 32 none (fun b c => (sarVal m.w.bits b c, false)) s
def execRot (m : IntMod) (x : Args) (s : State) : Host.Outcome State Fault Refusal :=
  alu2 (.rot m x) x m.w.bits m.w.bits 32 none (fun b c => (rotVal m.w.bits b c, false)) s

/-- BFX (R83). -/
def execBfx (m : IntMod) (x : Args) (s : State) : Host.Outcome State Fault Refusal :=
  alu2 (.bfx m x) x m.w.bits m.w.bits 32 none (fun b c => (bfxVal m.u m.w.bits b c, false)) s
/-- BFI (R84): the control is XMOD[15:0] or D. -/
def execBfi (m : IntMod) (x : Args) (s : State) : Host.Outcome State Fault Refusal :=
  let n := m.w.bits
  alu3 (.bfi m x) x n n n 32 none
    (fun b c d => (bfiVal n b c (if x.xmod.getLsbD 19 then (x.xmod.extractLsb' 0 16).toNat else d), false)) s

/-- POPC, CLZ, CTZ and BREV (R85). -/
def execPopc (m : IntMod) (x : Args) (s : State) : Host.Outcome State Fault Refusal :=
  alu1 (.popc m x) x 32 m.w.bits none (fun b => (popc m.w.bits b, false)) s
def execClz (m : IntMod) (x : Args) (s : State) : Host.Outcome State Fault Refusal :=
  alu1 (.clz m x) x 32 m.w.bits none (fun b => (clz m.w.bits b, false)) s
def execCtz (m : IntMod) (x : Args) (s : State) : Host.Outcome State Fault Refusal :=
  alu1 (.ctz m x) x 32 m.w.bits none (fun b => (ctz m.w.bits b, false)) s
def execBrev (m : IntMod) (x : Args) (s : State) : Host.Outcome State Fault Refusal :=
  alu1 (.brev m x) x m.w.bits m.w.bits none (fun b => (brev m.w.bits b, false)) s

/-- SEL (R87). -/
def execSel (w64 neg : Bool) (sp : BitVec 4) (x : Args) (s : State) : Host.Outcome State Fault Refusal :=
  vamer (.sel w64 neg sp x) x false (lanewise x.a (wbits w64) fun s ix l =>
    if predOf ix l sp != neg then src s ix x (wbits w64) .int x.b l else src s ix x (wbits w64) .int x.c l) s

/-- CMP (R86). -/
def execCmp (w64 u : Bool) (cond : ICond) (x : Args) (s : State) : Host.Outcome State Fault Refusal :=
  alu2 (.cmp w64 u cond x) x 32 (wbits w64) (wbits w64) none
    (fun b c => (if icond cond u (wbits w64) b c then 1 else 0, false)) s

/-- PLOP (R88): a three-input function of predicates. -/
def execPlop (m : IntMod) (x : Args) (s : State) : Host.Outcome State Fault Refusal :=
  alu3 (.plop m x) x 32 32 32 32 none (fun b c d => (if nbit x.xmod.toNat (4 * b + 2 * c + d) then 1 else 0, false)) s

/-- MOV (R89). -/
def execMov (m : IntMod) (x : Args) (s : State) : Host.Outcome State Fault Refusal :=
  alu1 (.mov m x) x m.w.bits m.w.bits none (fun b => (b, false)) s
/-- MOV to %srseed: a written 0 sets the generator to 1 (R101). -/
def execSrseedWrite (m : IntMod) (x : Args) (s : State) : Host.Outcome State Fault Refusal :=
  alu1 (.srseedWrite m x) x 32 32 none (fun b => (b, false)) s
/-- MOV to %preds: bits 14 to 0 (R50). -/
def execPredsWrite (m : IntMod) (x : Args) (s : State) : Host.Outcome State Fault Refusal :=
  alu1 (.predsWrite m x) x 32 32 none (fun b => (b, false)) s

/-- LEA (R90). -/
def execLea (m : IntMod) (x : Args) (s : State) : Host.Outcome State Fault Refusal :=
  alu3 (.lea m x) x m.w.bits m.w.bits 32 32 none
    (fun b c d => (leaVal m.u m.w.bits (nbits x.xmod.toNat 0 4) b c d, false)) s

end Sys2Proof.Machine
end

