-- ==== Sys2Proof/Machine/Special.lean ====
section
/-! DEFINITION. Class 0x3: the special functions (R134 to R138). -/

namespace Sys2Proof.Machine

open Sys2Proof

/-- The FP32 code of a special function with its flushes (R124, R135 to R138). -/
def sfunCode (f : SFun) (rm : RMode) (ftz : Bool) (rnd b : Nat) : Nat :=
  flushCode .fp32 ftz (sfun f rm rnd (flushCode .fp32 ftz b))

def sfunBody (f : SFun) (rm : RMode) (ftz : Bool) (x : Args) : Ix → List Nat → State → Res :=
  rounded x.a 32 1 rm fun s ix l rnd => sfunCode f rm ftz (rnd 0) (src s ix x 32 (.fp .fp32) x.b l)

def execRcp (rm : RMode) (ftz : Bool) (x : Args) (s : State) : Host.Outcome State Fault Refusal :=
  vamer (.rcp rm ftz x) x false (sfunBody .rcp rm ftz x) s
def execRsq (ftz : Bool) (x : Args) (s : State) : Host.Outcome State Fault Refusal :=
  vamer (.rsq ftz x) x false (sfunBody .rsq .rn ftz x) s
def execSqrt (rm : RMode) (ftz : Bool) (x : Args) (s : State) : Host.Outcome State Fault Refusal :=
  vamer (.sqrt rm ftz x) x false (sfunBody .sqrt rm ftz x) s
def execExp2 (ftz : Bool) (x : Args) (s : State) : Host.Outcome State Fault Refusal :=
  vamer (.exp2 ftz x) x false (sfunBody .exp2 .rn ftz x) s
def execLog2 (ftz : Bool) (x : Args) (s : State) : Host.Outcome State Fault Refusal :=
  vamer (.log2 ftz x) x false (sfunBody .log2 .rn ftz x) s
def execSin (ftz : Bool) (x : Args) (s : State) : Host.Outcome State Fault Refusal :=
  vamer (.sin ftz x) x false (sfunBody .sin .rn ftz x) s
def execCos (ftz : Bool) (x : Args) (s : State) : Host.Outcome State Fault Refusal :=
  vamer (.cos ftz x) x false (sfunBody .cos .rn ftz x) s
def execTanh (ftz : Bool) (x : Args) (s : State) : Host.Outcome State Fault Refusal :=
  vamer (.tanh ftz x) x false (sfunBody .tanh .rn ftz x) s
def execSigm (ftz : Bool) (x : Args) (s : State) : Host.Outcome State Fault Refusal :=
  vamer (.sigm ftz x) x false (sfunBody .sigm .rn ftz x) s

/-- SINCOS (R134): the sine to A and the cosine to D, one effect. -/
def execSincos (ftz : Bool) (x : Args) (s : State) : Host.Outcome State Fault Refusal :=
  vamer (.sincos ftz x) x false (fun ix ls s =>
    let b := ls.map fun l => (l, src s ix x 32 (.fp .fp32) x.b l)
    let s := wr s ix x.a 32 (b.map fun e => (e.1, sfunCode .sin .rn ftz 0 e.2))
    .done (wr s ix x.d 32 (b.map fun e => (e.1, sfunCode .cos .rn ftz 0 e.2))) [] none) s

end Sys2Proof.Machine
end

