-- ==== Sys2Proof/Machine/Dispatch.lean ====
section
/-! DEFINITION. The one match from instructions and events to their meanings. -/

namespace Sys2Proof.Machine

open Sys2Proof

def exec (i : Instr) (s : State) : Host.Outcome State Fault Refusal :=
  match i with
  | .ztrap w => Sys2Proof.Machine.execZtrap w s
  | .onesWord w => Sys2Proof.Machine.execOnesWord w s
  | .add m x => Sys2Proof.Machine.execAdd m x s
  | .sub m x => Sys2Proof.Machine.execSub m x s
  | .addc w64 cp x => Sys2Proof.Machine.execAddc w64 cp x s
  | .subb w64 cp x => Sys2Proof.Machine.execSubb w64 cp x s
  | .mul m x => Sys2Proof.Machine.execMul m x s
  | .mulh m x => Sys2Proof.Machine.execMulh m x s
  | .mad m x => Sys2Proof.Machine.execMad m x s
  | .div m x => Sys2Proof.Machine.execDiv m x s
  | .rem m x => Sys2Proof.Machine.execRem m x s
  | .min m x => Sys2Proof.Machine.execMin m x s
  | .max m x => Sys2Proof.Machine.execMax m x s
  | .abs m x => Sys2Proof.Machine.execAbs m x s
  | .and m x => Sys2Proof.Machine.execAnd m x s
  | .or m x => Sys2Proof.Machine.execOr m x s
  | .xor m x => Sys2Proof.Machine.execXor m x s
  | .not m x => Sys2Proof.Machine.execNot m x s
  | .shl m x => Sys2Proof.Machine.execShl m x s
  | .shr m x => Sys2Proof.Machine.execShr m x s
  | .sar m x => Sys2Proof.Machine.execSar m x s
  | .rot m x => Sys2Proof.Machine.execRot m x s
  | .bfx m x => Sys2Proof.Machine.execBfx m x s
  | .bfi m x => Sys2Proof.Machine.execBfi m x s
  | .popc m x => Sys2Proof.Machine.execPopc m x s
  | .clz m x => Sys2Proof.Machine.execClz m x s
  | .ctz m x => Sys2Proof.Machine.execCtz m x s
  | .brev m x => Sys2Proof.Machine.execBrev m x s
  | .sel w64 neg sp x => Sys2Proof.Machine.execSel w64 neg sp x s
  | .cmp w64 u cond x => Sys2Proof.Machine.execCmp w64 u cond x s
  | .plop m x => Sys2Proof.Machine.execPlop m x s
  | .mov m x => Sys2Proof.Machine.execMov m x s
  | .lea m x => Sys2Proof.Machine.execLea m x s
  | .srseedWrite m x => Sys2Proof.Machine.execSrseedWrite m x s
  | .predsWrite m x => Sys2Proof.Machine.execPredsWrite m x s
  | .cvt df sf rm sat x => Sys2Proof.Machine.execCvt df sf rm sat x s
  | .f2i sf iw u rm x => Sys2Proof.Machine.execF2i sf iw u rm x s
  | .i2f df iw u rm sat x => Sys2Proof.Machine.execI2f df iw u rm sat x s
  | .i2i dw du sw su sat x => Sys2Proof.Machine.execI2i dw du sw su sat x s
  | .pack df pos rm sat x => Sys2Proof.Machine.execPack df pos rm sat x s
  | .unpk sf pos x => Sys2Proof.Machine.execUnpk sf pos x s
  | .qnt df pos rm fs x => Sys2Proof.Machine.execQnt df pos rm fs x s
  | .dqnt sf pos rm fs x => Sys2Proof.Machine.execDqnt sf pos rm fs x s
  | .bscale df x => Sys2Proof.Machine.execBscale df x s
  | .bmax g x => Sys2Proof.Machine.execBmax g x s
  | .bytx x => Sys2Proof.Machine.execBytx x s
  | .srstep x => Sys2Proof.Machine.execSrstep x s
  | .fadd m x => Sys2Proof.Machine.execFadd m x s
  | .fsub m x => Sys2Proof.Machine.execFsub m x s
  | .fmul m x => Sys2Proof.Machine.execFmul m x s
  | .ffma m x => Sys2Proof.Machine.execFfma m x s
  | .ffms m x => Sys2Proof.Machine.execFfms m x s
  | .fnma m x => Sys2Proof.Machine.execFnma m x s
  | .fdp2 m x => Sys2Proof.Machine.execFdp2 m x s
  | .fdiv m x => Sys2Proof.Machine.execFdiv m x s
  | .fmin m nan x => Sys2Proof.Machine.execFmin m nan x s
  | .fmax m nan x => Sys2Proof.Machine.execFmax m nan x s
  | .fabs m x => Sys2Proof.Machine.execFabs m x s
  | .fneg m x => Sys2Proof.Machine.execFneg m x s
  | .fsgn m sm x => Sys2Proof.Machine.execFsgn m sm x s
  | .fcmp m cond x => Sys2Proof.Machine.execFcmp m cond x s
  | .fclass m x => Sys2Proof.Machine.execFclass m x s
  | .frint m x => Sys2Proof.Machine.execFrint m x s
  | .fscale m x => Sys2Proof.Machine.execFscale m x s
  | .fgetx m x => Sys2Proof.Machine.execFgetx m x s
  | .fgetm m x => Sys2Proof.Machine.execFgetm m x s
  | .fsel w64 sp neg x => Sys2Proof.Machine.execFsel w64 sp neg x s
  | .rcp rm ftz x => Sys2Proof.Machine.execRcp rm ftz x s
  | .rsq ftz x => Sys2Proof.Machine.execRsq ftz x s
  | .sqrt rm ftz x => Sys2Proof.Machine.execSqrt rm ftz x s
  | .exp2 ftz x => Sys2Proof.Machine.execExp2 ftz x s
  | .log2 ftz x => Sys2Proof.Machine.execLog2 ftz x s
  | .sin ftz x => Sys2Proof.Machine.execSin ftz x s
  | .cos ftz x => Sys2Proof.Machine.execCos ftz x s
  | .sincos ftz x => Sys2Proof.Machine.execSincos ftz x s
  | .tanh ftz x => Sys2Proof.Machine.execTanh ftz x s
  | .sigm ftz x => Sys2Proof.Machine.execSigm ftz x s
  | .nop x => Sys2Proof.Machine.execNop x s
  | .bra x => Sys2Proof.Machine.execBra x s
  | .brx x => Sys2Proof.Machine.execBrx x s
  | .call x => Sys2Proof.Machine.execCall x s
  | .callx x => Sys2Proof.Machine.execCallx x s
  | .ret x => Sys2Proof.Machine.execRet x s
  | .jtab x => Sys2Proof.Machine.execJtab x s
  | .loop x => Sys2Proof.Machine.execLoop x s
  | .brany x => Sys2Proof.Machine.execBrany x s
  | .brall x => Sys2Proof.Machine.execBrall x s
  | .fork pv pd x => Sys2Proof.Machine.execFork pv pd x s
  | .end_ x => Sys2Proof.Machine.execEnd_ x s
  | .exit x => Sys2Proof.Machine.execExit x s
  | .rcvMark x => Sys2Proof.Machine.execRcvMark x s
  | .rcvWait rg x => Sys2Proof.Machine.execRcvWait rg x s
  | .yield x => Sys2Proof.Machine.execYield x s
  | .nap x => Sys2Proof.Machine.execNap x s
  | .icinv x => Sys2Proof.Machine.execIcinv x s
  | .shfl w64 msk mode seg x => Sys2Proof.Machine.execShfl w64 msk mode seg x s
  | .vote msk op x => Sys2Proof.Machine.execVote msk op x s
  | .redux w64 msk op x => Sys2Proof.Machine.execRedux w64 msk op x s
  | .scan w64 msk op excl x => Sys2Proof.Machine.execScan w64 msk op excl x s
  | .match_ w64 msk all x => Sys2Proof.Machine.execMatch_ w64 msk all x s
  | .bcast w64 msk x => Sys2Proof.Machine.execBcast w64 msk x s
  | .cmpct msk x => Sys2Proof.Machine.execCmpct msk x s
  | .lperm w64 msk x => Sys2Proof.Machine.execLperm w64 msk x s
  | .ld m x => Sys2Proof.Machine.execLd m x s
  | .st m x => Sys2Proof.Machine.execSt m x s
  | .ldu m x => Sys2Proof.Machine.execLdu m x s
  | .lds m x => Sys2Proof.Machine.execLds m x s
  | .sts m x => Sys2Proof.Machine.execSts m x s
  | .ldx m x => Sys2Proof.Machine.execLdx m x s
  | .stx m x => Sys2Proof.Machine.execStx m x s
  | .ldw m x => Sys2Proof.Machine.execLdw m x s
  | .ldb m x => Sys2Proof.Machine.execLdb m x s
  | .stb m x => Sys2Proof.Machine.execStb m x s
  | .pref x => Sys2Proof.Machine.execPref x s
  | .prefc x => Sys2Proof.Machine.execPrefc x s
  | .cinv x => Sys2Proof.Machine.execCinv x s
  | .cwb x => Sys2Proof.Machine.execCwb x s
  | .cdisc x => Sys2Proof.Machine.execCdisc x s
  | .fence o sc x => Sys2Proof.Machine.execFence o sc x s
  | .ochOpen n x => Sys2Proof.Machine.execOchOpen n x s
  | .ochSt sz n x => Sys2Proof.Machine.execOchSt sz n x s
  | .ochClose n x => Sys2Proof.Machine.execOchClose n x s
  | .mdie x => Sys2Proof.Machine.execMdie x s
  | .atom m x => Sys2Proof.Machine.execAtom m x s
  | .atomc m x => Sys2Proof.Machine.execAtomc m x s
  | .red m x => Sys2Proof.Machine.execRed m x s
  | .atomu m x => Sys2Proof.Machine.execAtomu m x s
  | .atoms m x => Sys2Proof.Machine.execAtoms m x s
  | .atomsc m x => Sys2Proof.Machine.execAtomsc m x s
  | .reds m x => Sys2Proof.Machine.execReds m x s
  | .redu m x => Sys2Proof.Machine.execRedu m x s
  | .ckfill w64 n x => Sys2Proof.Machine.execCkfill w64 n x s
  | .ckdraw w64 x => Sys2Proof.Machine.execCkdraw w64 x s
  | .ckpeek w64 x => Sys2Proof.Machine.execCkpeek w64 x s
  | .cktry w64 obs pd x => Sys2Proof.Machine.execCktry w64 obs pd x s
  | .ckseed op x => Sys2Proof.Machine.execCkseed op x s
  | .ckred op w64 x => Sys2Proof.Machine.execCkred op w64 x s
  | .ckclr x => Sys2Proof.Machine.execCkclr x s
  | .ckstat x => Sys2Proof.Machine.execCkstat x s
  | .bar sc n x => Sys2Proof.Machine.execBar sc n x s
  | .bara sc n x => Sys2Proof.Machine.execBara sc n x s
  | .barw sc n x => Sys2Proof.Machine.execBarw sc n x s
  | .bart sc n x => Sys2Proof.Machine.execBart sc n x s
  | .gbar sy nw x => Sys2Proof.Machine.execGbar sy nw x s
  | .gbart sy x => Sys2Proof.Machine.execGbart sy x s
  | .mbinit x => Sys2Proof.Machine.execMbinit x s
  | .mbarr sc u x => Sys2Proof.Machine.execMbarr sc u x s
  | .mbexp sc arr x => Sys2Proof.Machine.execMbexp sc arr x s
  | .mbwait sc x => Sys2Proof.Machine.execMbwait sc x s
  | .mbtry sc x => Sys2Proof.Machine.execMbtry sc x s
  | .mbtw sc x => Sys2Proof.Machine.execMbtw sc x s
  | .yokeDecl x => Sys2Proof.Machine.execYokeDecl x s
  | .yokeRst x => Sys2Proof.Machine.execYokeRst x s
  | .cpy kind xe x => Sys2Proof.Machine.execCpy kind xe x s
  | .cpyl x => Sys2Proof.Machine.execCpyl x s
  | .cpyf xe x => Sys2Proof.Machine.execCpyf xe x s
  | .cpyp x => Sys2Proof.Machine.execCpyp x s
  | .cpyq x => Sys2Proof.Machine.execCpyq x s
  | .cpwait sc x => Sys2Proof.Machine.execCpwait sc x s
  | .xcpy dirIn ls xe kr x => Sys2Proof.Machine.execXcpy dirIn ls xe kr x s
  | .xcpyl x => Sys2Proof.Machine.execXcpyl x s
  | .xstat x => Sys2Proof.Machine.execXstat x s
  | .dcpy rd rs1 => Sys2Proof.Machine.execDcpy rd rs1 s
  | .dkick rd rs1 rs2 => Sys2Proof.Machine.execDkick rd rs1 rs2 s
  | .dstat rd => Sys2Proof.Machine.execDstat rd s
  | .dck hi draw rd rs1 => Sys2Proof.Machine.execDck hi draw rd rs1 s
  | .darr rd rs1 => Sys2Proof.Machine.execDarr rd rs1 s
  | .dexp arr rd rs1 rs2 => Sys2Proof.Machine.execDexp arr rd rs1 rs2 s
  | .dwait rs1 rs2 => Sys2Proof.Machine.execDwait rs1 rs2 s
  | .dtry rd rs1 rs2 => Sys2Proof.Machine.execDtry rd rs1 rs2 s
  | .dfaultWrite k rd imm src => Sys2Proof.Machine.execDfaultWrite k rd imm src s
  | .mma m x => Sys2Proof.Machine.execMma m x s
  | .mmag m x => Sys2Proof.Machine.execMmag m x s
  | .mmaw m g x => Sys2Proof.Machine.execMmaw m g x s
  | .mscl x => Sys2Proof.Machine.execMscl x s
  | .aclr x => Sys2Proof.Machine.execAclr x s
  | .ald x => Sys2Proof.Machine.execAld x s
  | .ast x => Sys2Proof.Machine.execAst x s
  | .amov x => Sys2Proof.Machine.execAmov x s
  | .acvt df int rm sat x => Sys2Proof.Machine.execAcvt df int rm sat x s
  | .aadd int x => Sys2Proof.Machine.execAadd int x s
  | .await x => Sys2Proof.Machine.execAwait x s
  | .adrop x => Sys2Proof.Machine.execAdrop x s
  | .qclaim x => Sys2Proof.Machine.execQclaim x s
  | .qpubRsv x => Sys2Proof.Machine.execQpubRsv x s
  | .qpub x => Sys2Proof.Machine.execQpub x s
  | .qstat x => Sys2Proof.Machine.execQstat x s
  | .enq x => Sys2Proof.Machine.execEnq x s
  | .enqt x => Sys2Proof.Machine.execEnqt x s
  | .spawn x => Sys2Proof.Machine.execSpawn x s
  | .sjoin x => Sys2Proof.Machine.execSjoin x s
  | .lvwait t x => Sys2Proof.Machine.execLvwait t x s
  | .lvrd st x => Sys2Proof.Machine.execLvrd st x s
  | .lvinc x => Sys2Proof.Machine.execLvinc x s
  | .cancel x => Sys2Proof.Machine.execCancel x s
  | .cancelClr x => Sys2Proof.Machine.execCancelClr x s
  | .cfill x => Sys2Proof.Machine.execCfill x s
  | .ctxNew x => Sys2Proof.Machine.execCtxNew x s
  | .ctxGrant x => Sys2Proof.Machine.execCtxGrant x s
  | .ctxRevoke drain x => Sys2Proof.Machine.execCtxRevoke drain x s
  | .ctxRun x => Sys2Proof.Machine.execCtxRun x s
  | .ctxStopNow x => Sys2Proof.Machine.execCtxStopNow x s
  | .ctxStopDrain x => Sys2Proof.Machine.execCtxStopDrain x s
  | .ctxStopReset x => Sys2Proof.Machine.execCtxStopReset x s
  | .ctxBudget x => Sys2Proof.Machine.execCtxBudget x s
  | .ctxBudgetRd x => Sys2Proof.Machine.execCtxBudgetRd x s
  | .ctxReflectMask x => Sys2Proof.Machine.execCtxReflectMask x s
  | .ctxReflectDown x => Sys2Proof.Machine.execCtxReflectDown x s
  | .ctxReflectUp x => Sys2Proof.Machine.execCtxReflectUp x s
  | .ctxReflectRet x => Sys2Proof.Machine.execCtxReflectRet x s
  | .gateNew x => Sys2Proof.Machine.execGateNew x s
  | .gateNewDel x => Sys2Proof.Machine.execGateNewDel x s
  | .gateAcl post take x => Sys2Proof.Machine.execGateAcl post take x s
  | .gpost pd x => Sys2Proof.Machine.execGpost pd x s
  | .gtake t pd x => Sys2Proof.Machine.execGtake t pd x s
  | .gpeek x => Sys2Proof.Machine.execGpeek x s
  | .tlbi x => Sys2Proof.Machine.execTlbi x s
  | .replay x => Sys2Proof.Machine.execReplay x s
  | .replayAll x => Sys2Proof.Machine.execReplayAll x s
  | .hcall x => Sys2Proof.Machine.execHcall x s
  | .trap x => Sys2Proof.Machine.execTrap x s
  | .tret x => Sys2Proof.Machine.execTret x s
  | .assert x => Sys2Proof.Machine.execAssert x s
  | .bkpt x => Sys2Proof.Machine.execBkpt x s
  | .srd w64 x => Sys2Proof.Machine.execSrd w64 x s
  | .swr w64 x => Sys2Proof.Machine.execSwr w64 x s
  | .tfrd x => Sys2Proof.Machine.execTfrd x s
  | .tfwr x => Sys2Proof.Machine.execTfwr x s
  | .fbpop x => Sys2Proof.Machine.execFbpop x s
  | .fbstat clr x => Sys2Proof.Machine.execFbstat clr x s
  | .mark x => Sys2Proof.Machine.execMark x s
  | .watch r w n x => Sys2Proof.Machine.execWatch r w n x s
  | .unassignedOpc w => Sys2Proof.Machine.execUnassignedOpc w s
  | .rv32imcInstruction j len => Sys2Proof.Machine.execRv32imcInstruction j len s
  | .rejoinRelease => Sys2Proof.Machine.execRejoinRelease s
  | .napDeadline => Sys2Proof.Machine.execNapDeadline s
  | .loadReply => Sys2Proof.Machine.execLoadReply s
  | .l1WriteBack => Sys2Proof.Machine.execL1WriteBack s
  | .l1Eviction => Sys2Proof.Machine.execL1Eviction s
  | .translationWalk => Sys2Proof.Machine.execTranslationWalk s
  | .homeAtomic => Sys2Proof.Machine.execHomeAtomic s
  | .caskRetry => Sys2Proof.Machine.execCaskRetry s
  | .timedWaitDeadline => Sys2Proof.Machine.execTimedWaitDeadline s
  | .listEntryAccept => Sys2Proof.Machine.execListEntryAccept s
  | .copyChunkTransfer => Sys2Proof.Machine.execCopyChunkTransfer s
  | .byteArrival => Sys2Proof.Machine.execByteArrival s
  | .copyRetire => Sys2Proof.Machine.execCopyRetire s
  | .remoteAck => Sys2Proof.Machine.execRemoteAck s
  | .drayWfi => Sys2Proof.Machine.execDrayWfi s
  | .mmaPerform => Sys2Proof.Machine.execMmaPerform s
  | .enqueueAccept => Sys2Proof.Machine.execEnqueueAccept s
  | .cardAdmission => Sys2Proof.Machine.execCardAdmission s
  | .cardReady => Sys2Proof.Machine.execCardReady s
  | .trainPlacement => Sys2Proof.Machine.execTrainPlacement s
  | .trainRetire => Sys2Proof.Machine.execTrainRetire s
  | .trainSuspend => Sys2Proof.Machine.execTrainSuspend s
  | .trainResume => Sys2Proof.Machine.execTrainResume s
  | .fillStart => Sys2Proof.Machine.execFillStart s
  | .fillComplete => Sys2Proof.Machine.execFillComplete s
  | .sensorClassUpdate => Sys2Proof.Machine.execSensorClassUpdate s
  | .sltBindWrite => Sys2Proof.Machine.execSltBindWrite s
  | .qcRegisterWrite => Sys2Proof.Machine.execQcRegisterWrite s
  | .revokeComplete => Sys2Proof.Machine.execRevokeComplete s
  | .stopComplete => Sys2Proof.Machine.execStopComplete s
  | .drainDeadline => Sys2Proof.Machine.execDrainDeadline s
  | .budgetRefill => Sys2Proof.Machine.execBudgetRefill s
  | .bucketEmpty => Sys2Proof.Machine.execBucketEmpty s
  | .sliceEnd => Sys2Proof.Machine.execSliceEnd s
  | .faultReportDeliver => Sys2Proof.Machine.execFaultReportDeliver s
  | .cntSelWrite => Sys2Proof.Machine.execCntSelWrite s
  | .cellarRefreshWindowEnd => Sys2Proof.Machine.execCellarRefreshWindowEnd s
  | .timeSeriesTick => Sys2Proof.Machine.execTimeSeriesTick s
  | .counterPolicyTick => Sys2Proof.Machine.execCounterPolicyTick s
  | .sysregLoRead => Sys2Proof.Machine.execSysregLoRead s
  | .sysregHostWrite => Sys2Proof.Machine.execSysregHostWrite s
  | .errorDetected => Sys2Proof.Machine.execErrorDetected s
  | .resync => Sys2Proof.Machine.execResync s
  | .rootfq => Sys2Proof.Machine.execRootfq s
  | .errring => Sys2Proof.Machine.execErrring s
  | .bindvf => Sys2Proof.Machine.execBindvf s
  | .endpoint => Sys2Proof.Machine.execEndpoint s
  | .hdm => Sys2Proof.Machine.execHdm s
  | .migrateOut => Sys2Proof.Machine.execMigrateOut s
  | .migrateIn => Sys2Proof.Machine.execMigrateIn s
  | .retire => Sys2Proof.Machine.execRetire s
  | .attest => Sys2Proof.Machine.execAttest s
  | .power => Sys2Proof.Machine.execPower s
  | .enqueue => Sys2Proof.Machine.execEnqueue s
  | .hcopy => Sys2Proof.Machine.execHcopy s
  | .rootctx => Sys2Proof.Machine.execRootctx s
  | .mailboxUnknownOp => Sys2Proof.Machine.execMailboxUnknownOp s
  | .mailboxOrun => Sys2Proof.Machine.execMailboxOrun s
  | .mailboxCommandComplete => Sys2Proof.Machine.execMailboxCommandComplete s
  | .mmioRegisterWrite => Sys2Proof.Machine.execMmioRegisterWrite s
  | .hostMmioError => Sys2Proof.Machine.execHostMmioError s
  | .cxlMemWrite => Sys2Proof.Machine.execCxlMemWrite s
  | .cxlMemRead => Sys2Proof.Machine.execCxlMemRead s
  | .functionLevelReset => Sys2Proof.Machine.execFunctionLevelReset s
  | .bolharFlitCrcError => Sys2Proof.Machine.execBolharFlitCrcError s
  | .powerUp => Sys2Proof.Machine.execPowerUp s
  | .inputVoltageOutOfRange => Sys2Proof.Machine.execInputVoltageOutOfRange s
  | .throttleAdjust => Sys2Proof.Machine.execThrottleAdjust s
  | .storePerformedAtHome => Sys2Proof.Machine.execStorePerformedAtHome s
  | .backInvalidateComplete => Sys2Proof.Machine.execBackInvalidateComplete s
  | .bolharPeerRequest => Sys2Proof.Machine.execBolharPeerRequest s
  | .bolharLinkChange => Sys2Proof.Machine.execBolharLinkChange s
  | .pcieLinkChange => Sys2Proof.Machine.execPcieLinkChange s
  | .priResponse => Sys2Proof.Machine.execPriResponse s

end Sys2Proof.Machine
end

