-- ==== Sys2Proof/Machine/Due.lean ====
section
/-! DEFINITION. The events that may happen by themselves when the agenda is empty (log 3): each is a candidate, and the step
takes the first whose meaning changes the state. -/

namespace Sys2Proof.Machine

open Sys2Proof

abbrev DueEv := Instr × Ev

def evI (i : Nat) : Ev := { Ev.none with i := i }
def evIJ (i j : Nat) : Ev := { Ev.none with i := i, j := j }

/-- Boot and timers. -/
def dueClock (s : State) : List DueEv :=
  (if s.host.boot < 4 && !s.host.heldVolt then [(.powerUp, Ev.none)] else []) ++
  s.timers.map fun t => match t with
    | .refill => (.budgetRefill, Ev.none)
    | .series c _ => (.timeSeriesTick, evI c)
    | .policy c _ _ => (.counterPolicyTick, evI c)

/-- Accesses on their way. -/
def dueAccess (s : State) : List DueEv :=
  s.stores.map (fun p => (.storePerformedAtHome, evI p.id)) ++
  s.steps.map (fun a => (.homeAtomic, evIJ a.ma 1)) ++
  s.trains.flatMap fun e => e.2.coachIds.flatMap fun c => match e.2.coach? c with
    | some co => co.pend.map fun p => (.loadReply, evI p.id)
    | none => []

/-- Rejoins that wait and naps that end. -/
def dueFrags (s : State) : List DueEv :=
  s.trains.flatMap fun e => e.2.coachIds.flatMap fun c => match e.2.coach? c with
    | some co => co.frags.flatMap fun f =>
        (match f.2.joined with
          | some j => if j.released then [] else
              [(Instr.rejoinRelease, { Ev.none with i := e.1, x := f.2.pc, cs := [c] })]
          | none => []) ++
        (match f.2.nap with
          | some d => if d ≤ s.rtime then [(Instr.napDeadline, { Ev.none with frag := ⟨e.1, c, f.1⟩ })] else []
          | none => [])
    | none => []

/-- Copies and package requests. -/
def dueCopies (s : State) : List DueEv :=
  s.cores.flatMap fun e => e.2.slots.flatMap fun k =>
    let ev : Ev := { Ev.none with i := e.1, j := k.1, k := 1024, p := true }
    match k.2.work with
    | .list .. => [(.listEntryAccept, ev)]
    | .copy _ => [(.copyChunkTransfer, { ev with l := k.2.done }), (.remoteAck, ev), (.byteArrival, ev), (.copyRetire, ev)]

/-- Matrix units, trains, dispatchers and queues. -/
def dueWork (s : State) : List DueEv :=
  s.trains.flatMap (fun e => e.2.mmas.map fun m => (.mmaPerform, evIJ e.1 m.1)) ++
  s.trains.flatMap (fun e => [(.trainRetire, evI e.1), (.trainSuspend, evI e.1), (.trainResume, evI e.1)]) ++
  s.queues.flatMap (fun e => e.2.examined.flatMap fun p =>
    [(.cardAdmission, { evI e.1 with place := p.1 }), (.cardReady, { evI e.1 with place := p.1 })]) ++
  (s.ctxs.filter fun e => e.2.depth ≤ 1).flatMap (fun e => [(.fillStart, evI e.1), (.fillComplete, evI e.1)]) ++
  (liveCores s).flatMap fun k =>
    (.sliceEnd, evI k) :: match holderOf s k with
      | some c => match coreQueue s c k with
        | some q => [(.trainPlacement, { Ev.none with i := k / 48, j := q, k := c })]
        | none => []
      | none => []

/-- What the firmware does for contexts. -/
def dueContexts (s : State) : List DueEv :=
  s.ctxs.flatMap fun e =>
    (if e.2.op.isSome then [(.stopComplete, evI e.1), (.revokeComplete, evI e.1), (.drainDeadline, evI e.1)] else []) ++
    (if e.2.fqWait.isEmpty && !e.2.fqNotify then [] else [(.faultReportDeliver, evI e.1)])

/-- The event that performs the command of a mailbox. -/
def commandEvent (m : Mbox) : Instr :=
  match m.op.toNat with
  | 1 => .resync | 2 => .rootfq | 3 => .errring | 4 => .bindvf | 5 => .endpoint | 6 => .hdm
  | 7 => if nbit m.arg0.toNat 12 then .migrateIn else .migrateOut
  | 8 => .retire | 9 => .attest | 10 => .power | 11 => .enqueue | 12 => .hcopy | 13 => .rootctx
  | _ => .mailboxUnknownOp

/-- The host side. -/
def dueHost (s : State) : List DueEv :=
  (if s.host.cxlIn.isEmpty then [] else [(.cxlMemWrite, { Ev.none with p := true })]) ++
  (if s.host.backInv.isEmpty then [] else [(.backInvalidateComplete, Ev.none)]) ++
  match s.host.mq with
  | [] => []
  | x :: _ => [(.mailboxCommandComplete, evI x), (commandEvent (s.mbox x), { evI x with k := 1024 })]

def dueEvents (s : State) : List DueEv :=
  dueClock s ++ dueAccess s ++ dueFrags s ++ dueCopies s ++ dueWork s ++ dueContexts s ++ dueHost s

end Sys2Proof.Machine
end

