-- ==== Sys2Proof/Machine/Time.lean ====
section
/-! DEFINITION. The passing of one rt (R10, R368, R370, R425, R428; log 4). -/

namespace Sys2Proof.Machine

open Sys2Proof

/-- What falls due when %rtime becomes `t`: the refill of the buckets every 1,024 rt (R368), series ticks with what they latch (R428) and
policy ticks (R425), in the state of that instant. -/
def dueAt (s : State) (t : Nat) : List Timer :=
  (if t % 1024 = 0 then [Timer.refill] else []) ++
  (s.ctxs.filter fun e => nbit e.2.sys.tsctl.toNat 31 && t % 2 ^ nbits e.2.sys.tsctl.toNat 0 5 = 0).map (fun e =>
    Timer.series e.1 (seriesRecord s e.1)) ++
  if t % 1024 = 0 then (s.ctxs.filter fun e => e.1 ≠ 0 && !e.2.sys.cntSel.isEmpty).map fun e =>
    Timer.policy e.1 t (e.2.sys.cntSel.map fun k => (k.1, mgetD e.2.sys.cntVal k.1 0))
  else []

/-- One rt passes, on every die at the same instant (R10; log 89); none passes while the module is held in reset. -/
def tick (s : State) : State :=
  if s.host.heldVolt then s
  else
    let t := s.rtime + 1
    let s := resave (retryLevels (chargeTime s))
    let s := { s with rtime := t, beat := 0 }
    { s with timers := s.timers ++ (dueAt s t).filter fun x => !s.timers.contains x }

end Sys2Proof.Machine
end

