-- ==== Sys2Proof/Machine/Turns.lean ====
section
/-! DEFINITION. What one turn does: an agent issues the instruction that it fetches, an event happens, or one rt passes; and
which turn comes when the agenda is empty (log 3, 4). -/

namespace Sys2Proof.Machine

open Sys2Proof

/-- An agent takes its turn. -/
def issueTurn (a : Agent) (defer : Bool) (s : State) : Host.Outcome State Fault Refusal :=
  match fetchAgent { s with cur := some a, defer := defer, stalled := false } a with
  | .idle => .next { s with stalled := true }
  | .moved s => .next s
  | .ready i s => exec i s

/-- A fragment could issue: it is not parked, naps not, and its next instruction has no wait outstanding (R150). -/
def eligible (s : State) (r : FragRef) (f : Frag) : Bool :=
  f.park.isNone && f.nap.isNone &&
  ((f.wait.isNone && f.joined.isNone && f.bar.isNone && f.hcall.isNone) ||
    match issueTurn (.frag r) false s with
    | .next u => !u.stalled
    | _ => false)

/-- The age of every fragment that could issue grows by the cc of one rt on its C-die, and that of the others is 0 (R4, R150). -/
def ageFrags (s : State) : State :=
  let grown (core : Nat) : Nat := cycOf { s with rtime := s.rtime + 1 } (core / 48) - cycOf s (core / 48)
  { s with trains := s.trains.map fun e =>
      if e.2.res = .resident && !e.2.held then
        (e.1, { e.2 with coaches := e.2.coaches.map fun c =>
          (c.1, { c.2 with frags := c.2.frags.map fun f =>
            (f.1, { f.2 with age := if eligible s ⟨e.1, .coach c.1, f.1⟩ f.2 then
                f.2.age + grown (e.2.cores.getD (e.2.rankOf.getD c.1 0) 0) else 0 }) }) })
      else e }

/-- One rt passes for every fragment and for the package. -/
def passRt (s : State) : State := tick (if s.host.heldVolt then s else ageFrags s)

/-- Of all events only the input voltage acts on a module that is held in reset (R451). -/
def whileHeld : Instr → Bool
  | .inputVoltageOutOfRange => true
  | _ => false

def runTurn (t : Turn) (s : State) : Host.Outcome State Fault Refusal :=
  match t with
  | .issue a defer => issueTurn a defer s
  | .event i e => if s.host.heldVolt && !whileHeld i then .next s else exec i { s with ev := e }
  | .tick => .next (passRt s)

/-- The first agent of the list that does not wait issues; when all wait, one rt passes. -/
def issueFirst : List Agent → State → Host.Outcome State Fault Refusal
  | [], s => .next (passRt s)
  | a :: t, s =>
    match issueTurn a false s with
    | .next s' => if s'.stalled then issueFirst t s' else .next { s' with beat := s'.beat + 1 }
    | o => o

/-- The first event of the list that changes the state. -/
def firstChange : List DueEv → State → Option (Host.Outcome State Fault Refusal)
  | [], _ => none
  | (i, e) :: t, s =>
    match exec i { s with ev := e } with
    | .next s' => if { s' with ev := s.ev } = s then firstChange t s else some (.next s')
    | o => some o

/-- The turn of a step whose agenda is empty: an event that can happen, then an agent, at most ten in one rt. -/
def ownTurn (s : State) : Host.Outcome State Fault Refusal :=
  match firstChange (dueEvents s) s with
  | some o => o
  | none => if s.beat ≥ 10 then .next (passRt s) else issueFirst (agentOrder s) s

end Sys2Proof.Machine
end

