-- ==== Sys2Proof/Safety.lean ====
section
/-! DEFINITION. The terms of the claims: when an instruction issues without a trap or a wait, what it leaves behind when it
falls through, what a claim reads of a state, and what stays the same. -/

namespace Sys2Proof.Machine

open Sys2Proof

/-! ### Issuing (R38, R39, R59 to R61, R235, R400) -/

/-- The casks that field F of an instruction draws or observes, each with the need to be full (R235). -/
def operandCasks (i : Instr) (a : Args) (s : State) (x : Ix) : List (Nat × Need) :=
  (caskFields i a false).filterMap fun k => (caskIndex s x.ctx x.cluster k.2.1.toNat).map fun c => (c, Need.full)

/-- The fragment of `x` is in turn and its instruction `i` issues: it passes step 7 of R39 and the scoreboard, a lane is
enabled, its K operands are full and unpoisoned, and neither STEP nor the end of the address space traps it. -/
structure Issues (i : Instr) (a : Args) (s : State) (x : Ix) : Prop where
  turn : s.cur = some (.frag x.ref)
  here : ixOf s x.ref = some x
  window : windowCheck i x a = none
  ready : hazard i x a = false ∧ pendFull i x = false
  lanes : enabled x a ≠ []
  casks : ∀ k ∈ caskFields i a true, (caskIndex s x.ctx x.cluster k.2.1.toNat).isSome = true
  full : operandCasks i a s x = [] ∨ caskReady s x (operandCasks i a s x) = true
  clean : casksBad s x.cluster (operandCasks i a s x) = false
  space : canonical (x.fr.pc + 12).toNat = true
  noStep : (x.co.step && (x.co.frameOf x.fr.mask).isNone) = false

/-- The state in which the sources are read: drawn casks have given one drawing up (R234, R235). -/
def drawn (i : Instr) (a : Args) (s : State) (x : Ix) : State :=
  (caskFields i a false).foldl (fun s k =>
    if k.2.2 then
      match caskIndex s x.ctx x.cluster k.2.1.toNat with
      | some c => caskPut s x.cluster c (caskGet s x.cluster c).draw
      | none => s
    else s) s

/-- The refault counts of lanes that complete an instruction are 0 (R410). -/
def clearRefaults (lanes : SMap Lane) (m : Word32) : SMap Lane :=
  (lanesOf m).foldl (fun k i =>
    match mget k i with
    | some l => if l.rfc = 0 then k else mset k i { l with rfc := 0 }
    | none => k) lanes

/-- The fragment of `x` goes on whole at `pc`; a trap that is due stays due (R198). -/
def onwardAt (s : State) (x : Ix) (pc : Word64) (keep : Frag → Frag) : State :=
  modCoach s x.ref.train x.ref.coach fun co =>
    { co with
      lanes := clearRefaults co.lanes x.fr.mask
      frags := mset (mdel co.frags x.ref.frag) (lowest x.fr.mask)
        { keep (Frag.fresh x.fr.mask pc x.fr.pfrag) with due := Due.within ((mget co.frags x.ref.frag).bind (·.due)) x.fr.mask } }

/-- The instruction of `x` has been performed with effect `t`, and every lane falls through to the next word. -/
def through (i : Instr) (t : State) (x : Ix) (a : Args) : State := noteIssue (onwardAt t x (x.fr.pc + 12) id) x i a a.yld

/-- The same, where some lanes go elsewhere: the fragments of R144 form. -/
def parts (i : Instr) (t : State) (x : Ix) (a : Args) (ms : List (Nat × Move)) : State :=
  noteIssue (finish t x (encodeVamer i) ms none id) x i a a.yld

/-- `i` writes `val l` to field `o` of every enabled lane `l`, and nothing else. -/
def sets (i : Instr) (a : Args) (s : State) (x : Ix) (o : Operand) (bits : Nat) (val : State → Nat → Nat) : State :=
  let t := drawn i a s x
  through i (wr t x o bits ((enabled x a).map fun l => (l, val t l))) x a

/-- `i` writes a value to field `o` and a flag to predicate `pd`, if there is one, of every enabled lane. -/
def setsFlag (i : Instr) (a : Args) (s : State) (x : Ix) (o : Operand) (bits : Nat) (pd : Option (BitVec 4))
    (val : State → Nat → Nat × Bool) : State :=
  let t := drawn i a s x
  let rs := (enabled x a).map fun l => (l, val t l)
  let u := wr t x o bits (rs.map fun r => (r.1, r.2.1))
  through i (match pd with | some p => wrPred u x p (rs.map fun r => (r.1, r.2.2)) | none => u) x a

/-- `i` rounds: each enabled lane draws `n` words of the generator in the mode sr, and the generator keeps what they leave. -/
def setsRounded (i : Instr) (a : Args) (s : State) (x : Ix) (o : Operand) (bits n : Nat) (rm : RMode)
    (val : State → Nat → (Nat → Nat) → Nat) : State :=
  let t := drawn i a s x
  let r := drawLanes n rm (val t) (enabled x a) x.co.gen
  through i (wr (modCoach t x.ref.train x.ref.coach fun co => { co with gen := r.2 }) x o bits r.1) x a

/-- Wherever `i` issues it answers a next state, the one that `f` gives. -/
def Completes (i : Instr) (a : Args) (f : State → Ix → State) : Prop := ∀ s x, Issues i a s x → exec i s = .next (f s x)

/-- Source operands of the widths of R71 and R122. -/
abbrev srcI (s : State) (x : Ix) (a : Args) (n : Nat) (o : Operand) (l : Nat) : Nat := src s x a n .int o l
abbrev srcF (s : State) (x : Ix) (a : Args) (o : Operand) (l : Nat) : Nat := src s x a 32 (.fp .fp32) o l
/-- Element `j` of a source operand of an operand type. -/
def elemV (s : State) (x : Ix) (a : Args) (m : FMod) (o : Operand) (l j : Nat) : FVal :=
  fsrc (elemFmt m.t) m.ftz (partOf m.t (srcT' s x a m.t o l) j)
/-- The same as a code. -/
def elemC (s : State) (x : Ix) (a : Args) (m : FMod) (o : Operand) (l j : Nat) : Nat := partOf m.t (srcT' s x a m.t o l) j

/-! ### Releases, acquires and rejoins at issue (R147, R200 to R202) -/

/-- A release at a scope can be performed: every earlier access of the coach has been, at `.pt` and `.sy` no registration and
no write-back of its cluster is on its way, and at `.sy` by the root no back-invalidation is outstanding. -/
def canRelease (x : Ix) (sc : Scope) (s : State) : Bool :=
  let s1 := settleX x s
  let s2 := releaseAt x (clampScope x.ctx sc) s1
  settled s1 x.ref.train x.ref.coach &&
    !((clampScope x.ctx sc = .sy && !s2.host.backInv.isEmpty) ||
      (clampScope x.ctx sc ≠ .cl && !releasedAll s2 x.cluster))
/-- The state after the release. -/
def released (x : Ix) (sc : Scope) (s : State) : State := releaseAt x (clampScope x.ctx sc) (settleX x s)

/-- An acquire at a scope can be performed. -/
def canAcquire (x : Ix) (sc : Scope) (s : State) : Bool :=
  settled (settleX x s) x.ref.train x.ref.coach && !(clampScope x.ctx sc = .sy && !(settleX x s).host.cxlIn.isEmpty)
/-- The state after the acquire. -/
def acquired (x : Ix) (sc : Scope) (s : State) : State := acquireAt x (clampScope x.ctx sc) (settleX x s)

/-- The fragment that goes on has lanes, a next word in the address space, and no STEP. -/
structure Goes (y : Ix) : Prop where
  lanes : y.fr.mask ≠ 0
  space : canonical (y.fr.pc + 12).toNat = true
  noStep : (y.co.step && (y.co.frameOf y.fr.mask).isNone) = false

/-- The state and the fragment in which a rejoin at the instruction of `x` releases, its fragments arriving with the masks
`masks` (R147): none while it does not. -/
def rejoins (i : Instr) (x : Ix) (a : Args) (kind : JoinKind) (masks : Nat → Word32) (group : List CoachId) (s : State) :
    Option (State × Ix) :=
  let rel (s : State) (l : Nat) : Option (State × Ix) :=
    let u := tryRejoins s x.ref.train group x.fr.pc
    (releasedOf u x.ref.train x.ref.coach x.fr.pc l).map fun y => (u, y)
  match x.fr.joined with
  | some _ => rel s (lowest x.fr.mask)
  | none =>
    let ls := enabled x a
    let ms := ls.map fun l => (l, masks l)
    let m := (ms.head?.map (·.2)).getD 0
    let stay := maskOf (ls.filter fun l => m.getLsbD l)
    if (maskCheck x ms).isSome || stay = 0 then none
    else rel (arrive x (encodeVamer i) stay (x.fr.mask &&& ~~~maskOf ls) ⟨m, kind, false⟩ s) (lowest stay)

/-- What a lane exchange writes (R171). -/
def exchanged (a : Args) (s : State) (x : Ix) (bits : Nat) (rs : List (Nat × Nat × Bool)) : State :=
  let u := wr s x a.a bits (rs.map fun r => (r.1, r.2.1))
  if a.xmod.getLsbD 4 then wrPred u x (a.xmod.extractLsb' 0 4) (rs.map fun r => (r.1, r.2.2)) else u

/-- A lane exchange completes among the enabled lanes or, with a membership mask, among the lanes of the rejoin. -/
def Exchanges (i : Instr) (a : Args) (msk : Bool) (bits : Nat) (f : State → Ix → List Nat → List (Nat × Nat × Bool)) :
    Prop :=
  (msk = false → Completes i a fun s x =>
    let t := drawn i a s x
    through i (exchanged a t x bits (f t x (enabled x a))) x a) ∧
  (msk = true → ∀ s x u y, Issues i a s x →
    rejoins i x a .exchange (fun l => w32 (srcI (drawn i a s x) x a 32 a.d l)) [x.ref.coach] (drawn i a s x) = some (u, y) →
    Goes y → exec i s = .next (through i (exchanged a u y bits (f u y (lanesOf y.fr.mask))) y a))

/-! ### Global accesses (R184, R208) -/

/-- Every lane of a global access passes the checks of R208 and translates. -/
structure Reaches (x : Ix) (acc : Access) (n : Nat) (writes hbmOnly : Bool) (closed : State → LAcc → Bool)
    (as : List (Nat × Nat)) (s : State) : Prop where
  before : preCheck as n canonical = none
  pages : ∀ r ∈ (xlateLanes x acc as [] s).1, ∃ ma key, r.2.2 = .ok ma key
  after : postCheck (xlateLanes x acc as [] s).2 n writes hbmOnly (closed (xlateLanes x acc as [] s).2)
    (okLanes (xlateLanes x acc as [] s).1) = none

/-- The state after the translations, and the lanes' accesses. -/
def walked (x : Ix) (acc : Access) (as : List (Nat × Nat)) (s : State) : State := (xlateLanes x acc as [] s).2
def accesses (x : Ix) (acc : Access) (as : List (Nat × Nat)) (s : State) : List LAcc := okLanes (xlateLanes x acc as [] s).1

/-- The state after the earlier accesses that an access must follow, as far as the home takes them (R200 items 1 and 4). -/
def reached (x : Ix) (acc : Access) (n : Nat) (byp : Bool) (as : List (Nat × Nat)) (s : State) : State :=
  orderFirst (walked x acc as s) x (accesses x acc as s) n (bypassNow (walked x acc as s) (accesses x acc as s) byp)
/-- All of those are performed. -/
def InTurn (x : Ix) (acc : Access) (n : Nat) (byp : Bool) (as : List (Nat × Nat)) (s : State) : Prop :=
  mustFollow (reached x acc n byp as s) x (accesses x acc as s) n (bypassNow (walked x acc as s) (accesses x acc as s) byp) = false

/-- The state in which an acquiring load or atomic starts (R202), and when it may: no host write is in flight at `.sy` by
the root, and none of its own accesses stays pending. -/
def acqStart (ord : Bool) (sc : Scope) (x : Ix) (s : State) : State :=
  if ord then acquireAt x (clampScope x.ctx sc) s else s
def acqMay (ord : Bool) (sc : Scope) (x : Ix) (s u : State) : Prop :=
  ord = true → (clampScope x.ctx sc = .sy && !s.host.cxlIn.isEmpty) = false ∧ ((pendingIds u x.ref.train x.ref.coach true).any (s.nextId ≤ ·)) = false

/-- The state in which a releasing store or atomic starts, and when it may. -/
def relStart (ord : Bool) (sc : Scope) (x : Ix) (s : State) : State := if ord then released x sc s else s
def relMay (ord : Bool) (sc : Scope) (x : Ix) (s : State) : Prop := ord = true → canRelease x sc s = true

/-- An ordered instruction counts a clamped scope (R203); an acquiring one performs its accesses at once. -/
def clampIf (ord : Bool) (sc : Scope) (x : Ix) (s : State) : State := if ord then countClamp s x.ctx sc else s
def atOnce (ord : Bool) (s : State) : State := if ord then { s with defer := false } else s

/-- The bytes of lanes stored in the scratchpad of a rank. -/
def scrStored (s : State) (x : Ix) (rank : Nat) (bytes : Nat → List Byte) (as : List (Nat × Nat)) : State :=
  modTrain s x.ref.train fun t => as.foldl (fun t e => scrStore t rank e.2 (bytes e.1) false (fidsOf x [e.1])) t

/-- The state after the earlier accesses of the coach to the same bytes of a scratchpad (R200 item 1), as far as they can be
performed, with the bank conflicts counted (R423). -/
def scrFollowed (x : Ix) (rank n : Nat) (as : List (Nat × Nat)) (s : State) : State :=
  if scrPending s x rank n as then settleX x s else s
def scrReached (x : Ix) (rank n : Nat) (as : List (Nat × Nat)) (s : State) : State := countRank (scrFollowed x rank n as s) x rank n as
/-- All of those are performed. -/
def ScrInTurn (x : Ix) (rank n : Nat) (as : List (Nat × Nat)) (s : State) : Prop := scrPending (scrFollowed x rank n as s) x rank n as = false

/-! ### Cards, structures and results of one word (R343, R387) -/

/-- `n` in field A of every enabled lane. -/
def gave (x : Ix) (a : Args) (n : Nat) (s : State) : State := wr s x a.a 32 ((enabled x a).map fun l => (l, n))

/-- The card at an address, where the read is aligned, translates, and meets no other key and no poison. -/
def cardRead (x : Ix) (va : Nat) (s : State) : Option (List Byte × State) :=
  if va % 128 ≠ 0 || !canonical va then none
  else
    match xlate s x.cluster x.coreTlb x.ctx va .load x.fr.replay true with
    | (.ok ma key, s) =>
      if !isHbm ma || keyConflict s ma key then none
      else
        match loadGlob s x.ctx x.cluster ma 128 false key false with
        | some (g, s) => if g.poison then none else some (g.bytes, s)
        | none => none
    | _ => none

/-- The pieces of a structure of the issuer, where it translates and passes the checks of R208. -/
def structAt (x : Ix) (acc : Access) (va n : Nat) (s : State) : Option (List (Nat × Nat × Nat × Byte) × State) :=
  if !canonical va || !canonical (va + n - 1) then none
  else
    let r := structXlate x acc (structPages va n) s
    if !(structFails 0 r.1).isEmpty then none
    else
      let ps := structOks r.1
      if (accNeedsW acc && ps.any fun p => isCellar p.2.2.1) || (ps.any fun p => isMmio p.2.2.1) ||
          (ps.any fun p => keyConflict r.2 p.2.2.1 p.2.2.2) then none
      else some (ps, r.2)

/-- The bytes of a structure, none of them poisoned. -/
def structRead (x : Ix) (va n : Nat) (s : State) : Option (List Byte × State) :=
  (structAt x .load va n s).bind fun r =>
    match structBytes x r.1 r.2 with
    | some (bs, false, s) => some (bs, s)
    | _ => none

/-- The state after a structure has been stored, where the home takes its requests. -/
def structWrite (x : Ix) (va : Nat) (bs : List Byte) (s : State) : Option State :=
  (structAt x .store va bs.length s).bind fun r =>
    if outOf r.2 x.ctx .mem || r.1.any (fun p => (wordsOf p.2.2.1 p.2.1).any (ownerHeld r.2 x.cluster)) then none
    else some (r.1.foldl (fun (q : List Byte × State) p =>
      (q.1.drop p.2.1, storePlain q.2 x.cluster x.ctx p.2.2.1 (q.1.take p.2.1) p.2.2.2 false true)) (bs, r.2)).2

/-! ### Drays (R283 to R285) -/

/-- The dray `x` is in turn. -/
def DrayTurn (s : State) (x : Dx) : Prop :=
  s.cur = some (.dray x.t x.rank x.hart) ∧ dxOf s x.t x.rank x.hart = some x

/-- The dray `x` has performed its instruction: `t` is the state, `f` the change of the dray, and `minstret` counts it. -/
def drayDone (t : State) (x : Dx) (f : Dray → Dray) : State :=
  modDray t x.t x.key fun d => { f d with minstret := d.minstret + 1, wait := none }

/-- A barrier object at an offset is aligned and lies in the train's allocation on the dray's core (R286). -/
def DrayFits (x : Dx) (off : Word32) (n : Nat) : Prop := off.toNat % 16 = 0 ∧ off.toNat + n ≤ x.tr.scratch

/-- `i` completes for a dray. -/
def DrayCompletes (i : Instr) (p : State → Dx → Prop) (f : State → Dx → State) : Prop :=
  ∀ s x, DrayTurn s x → p s x → exec i s = .next (f s x)

/-! ### What a claim reads -/

def laneAt (s : State) (t : Nat) (c : CoachId) (l : Nat) : Option Lane :=
  (mget s.trains t).bind fun tr => (tr.coach? c).bind fun co => mget co.lanes l
def coachAt (s : State) (t : Nat) (c : CoachId) : Option Coach := (mget s.trains t).bind fun tr => tr.coach? c
/-- Vector register `n` of a lane. -/
def vReg (s : State) (t : Nat) (c : CoachId) (l n : Nat) : Option Word32 := (laneAt s t c l).map fun k => k.reg n
/-- Predicate `p` of a lane. -/
def pReg (s : State) (t : Nat) (c : CoachId) (l : Nat) (p : BitVec 4) : Option Bool := (laneAt s t c l).map fun k => k.pred p
/-- Uniform register `n` of a coach. -/
def sReg (s : State) (t : Nat) (c : CoachId) (n : Nat) : Option Word32 := (coachAt s t c).map fun co => co.sreg n

/-- Every byte of memory reads as before: HBM4 at home under every key, what every L1 holds, the cellars, and the
scratchpads. -/
structure SameMemory (s t : State) : Prop where
  home : ∀ ma key, homeByte t ma key = homeByte s ma key
  poison : t.poison = s.poison
  l1 : ∀ cl wa, l1Get t cl wa = l1Get s cl wa
  cellar : t.cellar = s.cellar ∧ t.cellarPoison = s.cellarPoison
  scratch : ∀ k, (mget t.trains k).map (fun tr => (tr.scr, tr.scrPoison)) = (mget s.trains k).map fun tr => (tr.scr, tr.scrPoison)
  coming : t.stores = s.stores ∧ t.steps = s.steps

/-! ### Frames -/

/-- Register `n` of V, of S, is among those a destination field writes. -/
def namesV (o : Operand) (bits n : Nat) : Bool :=
  match o with
  | .v i => i.toNat ≤ n && n < i.toNat + bits / 32
  | _ => false
def namesS (o : Operand) (bits n : Nat) : Bool :=
  match o with
  | .s i => i.toNat ≤ n && n < i.toNat + bits / 32
  | _ => false

/-- A train apart from its coaches, its spine, and what its yokes note of ended anchors (R298). -/
def Train.rest (t : Train) : Train :=
  { t with coaches := [], spine := none, yk := t.yk.map fun r => (r.1, r.2.map fun y => (y.1, { y.2 with past := [] })) }
/-- A context apart from its event counts (R423). -/
def Ctx.uncounted (c : Ctx) : Ctx := { c with sys := { c.sys with cntVal := [], cntOvf := [] } }
/-- A cluster apart from its casks. -/
def Cluster.uncasked (c : Cluster) : Cluster := { c with casks := [] }

/-- Byte `off` of the scratchpad of a train's core. -/
def scrByte (s : State) (k rank off : Nat) : Option Byte := (mget s.trains k).map fun tr => Memory.read (mgetD tr.scr rank []) off

/-- Only registers, fragments, casks and event counts may differ: memory, tiles and yokes, barriers, drays, frames, contexts
with their system registers, queues, gates, levels and the host's side are as before. -/
structure SameMachine (s t : State) : Prop where
  memory : SameMemory s t
  trains : ∀ k, (mget t.trains k).map Train.rest = (mget s.trains k).map Train.rest
  frames : ∀ k c, (coachAt t k c).map (·.frames) = (coachAt s k c).map (·.frames)
  contexts : ∀ c, (t.ctx c).uncounted = (s.ctx c).uncounted
  clusters : ∀ cl, (t.cluster cl).uncasked = (s.cluster cl).uncasked
  tables : t.queues = s.queues ∧ t.levels = s.levels ∧ t.lbars = s.lbars ∧ t.gates = s.gates ∧ t.fills = s.fills
  host : t.host = s.host
  keys : t.tags = s.tags ∧ t.enc = s.enc ∧ t.owner = s.owner ∧ t.vintage = s.vintage
  clock : t.rtime = s.rtime

/-- No register or predicate differs but, in lanes `ls` of the coach of `x`, the registers that `o` names and the predicates
that `p` selects, and in its S registers those that `o` names. -/
structure SameRegs (x : Ix) (ls : List Nat) (o : Operand) (bits : Nat) (p : BitVec 4 → Bool) (s t : State) : Prop where
  v : ∀ k c l n, ¬ (k = x.ref.train ∧ c = x.ref.coach ∧ l ∈ ls ∧ namesV o bits n = true) → vReg t k c l n = vReg s k c l n
  u : ∀ k c n, ¬ (k = x.ref.train ∧ c = x.ref.coach ∧ namesS o bits n = true) → sReg t k c n = sReg s k c n
  p : ∀ k c l q, ¬ (k = x.ref.train ∧ c = x.ref.coach ∧ l ∈ ls ∧ p q = true) → pReg t k c l q = pReg s k c l q

/-- The generator of every coach (R100) is as before. -/
def SameGens (s t : State) : Prop := ∀ k c, (coachAt t k c).map (·.gen) = (coachAt s k c).map (·.gen)

/-- The generator of every coach but that of `x` is as before. -/
def GensElse (x : Ix) (s t : State) : Prop :=
  ∀ k c, ¬ (k = x.ref.train ∧ c = x.ref.coach) → (coachAt t k c).map (·.gen) = (coachAt s k c).map (·.gen)

/-- Only the registers of destination `o` and predicate `pd`, if there is one, in lanes `ls`, fragments, casks and counts may differ. -/
structure RegsOnly (x : Ix) (ls : List Nat) (o : Operand) (bits : Nat) (pd : Option (BitVec 4)) (s t : State) : Prop where
  regs : SameRegs x ls o bits (fun q => o = .pred q || pd = some q) s t
  machine : SameMachine s t
  gens : SameGens s t

/-- Every cask but number `k` of the cluster of `x` is as before. -/
def OtherCasks (x : Ix) (k : Nat) (s t : State) : Prop := ∀ cl j, ¬ (cl = x.cluster ∧ j = k) → caskGet t cl j = caskGet s cl j

/-- Wherever `i` issues it answers a next state that differs only in the registers of destination `o`, in predicate `pd`, if
there is one, in the coach's own generator where `sr`, and in casks that it draws. No word names a special register as such a
destination (R46). -/
def RegisterOnly (i : Instr) (a : Args) (o : Operand) (bits : Nat) (pd : Option (BitVec 4)) (sr : Bool) : Prop :=
  (∀ n, o ≠ .sr n) → ∀ s x, Issues i a s x → ∃ t, exec i s = .next t ∧
    SameRegs x (enabled x a) o bits (fun q => o = .pred q || pd = some q) s t ∧ SameMachine s t ∧
    (sr = false → SameGens s t) ∧ GensElse x s t ∧ ((∀ k ∈ caskFields i a false, k.2.2 = false) → t.clusters = s.clusters)

/-- Only fragments, event counts, in lanes `ls` the registers that `o` names and, in the scratchpad of one rank of the train of `x`, the
bytes that `p` selects may differ: no other register or predicate, no generator, no other byte of any scratchpad, of HBM4, of an L1 or of
a cellar, no tile or barrier, no frame, no queue, nothing of a context but its counts, and nothing of the host's side. -/
structure ScratchOnly (x : Ix) (ls : List Nat) (o : Operand) (bits : Nat) (rank : Nat) (p : Nat → Prop) (s t : State) : Prop where
  regs : SameRegs x ls o bits (fun q => o = .pred q) s t
  gens : SameGens s t
  bytes : ∀ k r off, ¬ (k = x.ref.train ∧ r = rank ∧ p off) → scrByte t k r off = scrByte s k r off
  home : ∀ ma key, homeByte t ma key = homeByte s ma key
  l1 : ∀ cl wa, l1Get t cl wa = l1Get s cl wa
  rest : t.cellar = s.cellar ∧ t.host = s.host ∧ t.queues = s.queues
  contexts : ∀ c, (t.ctx c).uncounted = (s.ctx c).uncounted
  frames : ∀ k c, (coachAt t k c).map (·.frames) = (coachAt s k c).map (·.frames)
  tiles : ∀ k, (mget t.trains k).map (fun tr => (tr.tiles, tr.bars)) = (mget s.trains k).map fun tr => (tr.tiles, tr.bars)

/-- Only fragments, event counts, casks, in lanes `ls` the registers that `o` names, and the arrivals and phases of barriers (R243, R248)
may differ: no other register, no generator, no memory, no frame, nothing of a train but its barriers, nothing of a context but its
counts, no queue, level, gate or fill, and nothing of the host's side. -/
structure ArrivalOnly (x : Ix) (ls : List Nat) (o : Operand) (s t : State) : Prop where
  regs : SameRegs x ls o 32 (fun q => o = .pred q) s t
  gens : SameGens s t
  memory : SameMemory s t
  trains : ∀ k, (mget t.trains k).map (fun tr => { tr.rest with bars := [] }) = (mget s.trains k).map fun tr => { tr.rest with bars := [] }
  frames : ∀ k c, (coachAt t k c).map (·.frames) = (coachAt s k c).map (·.frames)
  contexts : ∀ c, (t.ctx c).uncounted = (s.ctx c).uncounted
  clusters : ∀ cl, (t.cluster cl).uncasked = (s.cluster cl).uncasked
  tables : t.queues = s.queues ∧ t.levels = s.levels ∧ t.gates = s.gates ∧ t.fills = s.fills
  host : t.host = s.host
  clock : t.rtime = s.rtime

/-- A context apart from its event counts, the tokens of its MEM bucket (R370) and what its watch ranges have noted (R432). -/
def Ctx.unpaid (c : Ctx) : Ctx :=
  { c with
    mem := { c.mem with tok := 0 }
    sys := { c.sys with cntVal := [], cntOvf := [], whit := 0, wlanes := 0 } }
/-- A cluster apart from its casks and its L1. -/
def Cluster.unlined (c : Cluster) : Cluster := { c with casks := [], l1 := [] }

/-- Of memory only the words that `w` selects may differ, at home and in every L1, and in the L1 of cluster `cl` the words that `f`
selects and that were invalid there. A block of 16 bytes at home without such a word reads as before under every key; under the key of
its frame (R19, R361) every byte of another word does, and every byte of such a word that `p` does not select, unless it was dirty in
an L1 and now reads as it did there (R192). Apart from memory, nothing differs but coaches and their fragments, event counts, tokens,
what watch ranges note and the lines that the host is to give up: no scratchpad, cellar, tile, barrier, dray, frame, context, queue,
level, gate or fill. -/
structure WordsOnly (cl : Nat) (p w f : Nat → Prop) (s t : State) : Prop where
  tags : ∀ n key, mget s.tags n = some key → mget t.tags n = some key
  home : ∀ ma key, (∀ wa, w wa → wa / 4 ≠ ma / 16) → homeByte t ma key = homeByte s ma key
  tagged : ∀ ma key, mget s.tags (ma / 65536) = some key → ¬ w (ma / 4) → homeByte t ma key = homeByte s ma key
  bytes : ∀ ma key, mget s.tags (ma / 65536) = some key → ¬ p ma → homeByte t ma key = homeByte s ma key ∨
    ∃ c v, l1Get s c (ma / 4) = some v ∧ v.dirty.getLsbD (ma % 4) = true ∧ homeByte t ma key = byteOf v.val (ma % 4)
  dirty : ∀ c wa i v, l1Get t c wa = some v → i < 4 → ¬ p (4 * wa + i) → v.dirty.getLsbD i = true →
    ∃ v', l1Get s c wa = some v' ∧ v'.dirty.getLsbD i = true ∧ byteOf v'.val i = byteOf v.val i
  poison : ∀ ma, ¬ w (ma / 4) → isPoison t ma = isPoison s ma
  l1 : ∀ c wa, ¬ w wa → ¬ (c = cl ∧ f wa ∧ l1Get s c wa = none) → l1Get t c wa = l1Get s c wa
  cellar : t.cellar = s.cellar ∧ t.cellarPoison = s.cellarPoison
  trains : ∀ k, (mget t.trains k).map Train.rest = (mget s.trains k).map Train.rest
  frames : ∀ k c, (coachAt t k c).map (·.frames) = (coachAt s k c).map (·.frames)
  contexts : ∀ c, (t.ctx c).unpaid = (s.ctx c).unpaid
  clusters : ∀ c, (t.cluster c).unlined = (s.cluster c).unlined
  tables : t.queues = s.queues ∧ t.levels = s.levels ∧ t.lbars = s.lbars ∧ t.gates = s.gates ∧ t.fills = s.fills
  host : { t.host with backInv := [] } = { s.host with backInv := [] }
  clock : t.rtime = s.rtime ∧ t.vintage = s.vintage

/-- Every word of an L1 stays there with its bytes, but for those that `p` selects. -/
def KeepsCopies (p : Nat → Prop) (s t : State) : Prop :=
  ∀ c wa v, l1Get s c wa = some v → ∃ v', l1Get t c wa = some v' ∧ ∀ i, i < 4 → ¬ p (4 * wa + i) → byteOf v'.val i = byteOf v.val i

/-- The lines of which the L1 of a cluster holds a word. -/
def heldLines (s : State) (cl : Nat) : List Nat := (s.cluster cl).l1.map fun (e : Nat × L1Word) => e.1 / 32
/-- The lines that accesses of `n` bytes touch. -/
def linesAt (n : Nat) (as : List LAcc) : List Nat := as.flatMap fun (b : LAcc) => (wordsOf b.ma n).map (· / 32)
/-- The L1 of a cluster has room for lines that come in: none of them needs an eviction (R180). -/
def RoomFor (s : State) (cl : Nat) (ls : List Nat) : Prop := (heldLines s cl ++ ls).eraseDups.length ≤ l1Lines

/-! ### Results -/

/-- In `t` destination `o` of lane `l` of the coach of `x` holds the low `bits` bits of `v` (R44 to R47, R50): V and S in one
register or an even and odd pair, low half first; a predicate bit 0, p15 reading 1; nothing else is held. -/
def Holds (t : State) (x : Ix) (o : Operand) (bits l v : Nat) : Prop :=
  match o with
  | .v i => ∀ j, j < bits / 32 → vReg t x.ref.train x.ref.coach l (i.toNat + j) = some (w32 (v / 2 ^ (32 * j)))
  | .s i => ∀ j, j < bits / 32 → sReg t x.ref.train x.ref.coach (i.toNat + j) = some (w32 (v / 2 ^ (32 * j)))
  | .pred p => pReg t x.ref.train x.ref.coach l p = some (p = 15 || v % 2 = 1)
  | _ => True

/-- Wherever the well-formed `i` issues it answers a next state in which every enabled lane has a result `v` in field `o`,
and a flag `f` in predicate `pd` if there is one, that stand in relation `p` to the state in which the sources are read. An S register keeps the result of the lowest enabled lane (R45). -/
def Gives (i : Instr) (a : Args) (o : Operand) (bits : Nat) (pd : Option (BitVec 4))
    (p : State → Ix → Nat → Nat → Bool → Prop) : Prop :=
  ∀ s x, i.wf x.spine = true → Issues i a s x → ∃ t, exec i s = .next t ∧
    ∀ l ∈ enabled x a, ∃ v f, p (drawn i a s x) x l v f ∧
      ((∀ n, o = .s n → ∀ k ∈ enabled x a, l ≤ k) → Holds t x o bits l v) ∧
      (∀ q, pd = some q → pReg t x.ref.train x.ref.coach l q = some (q = 15 || f))

/-- Wherever cask instruction `i` issues, its release may be done and its target is as `need` and `ok` ask, it answers a next state that
differs only in the registers of `o`, predicate `pd` and its target, from the state that the release (where `rel`) leaves (R201, R236); that
is the state after its draws where nothing goes before it, which differs from the one before it in casks alone. -/
def CaskOnly (i : Instr) (a : Args) (need : Option Need) (o : Operand) (bits : Nat) (pd : Option (BitVec 4)) (rel : Bool)
    (ok : State → Ix → Cask → Bool) : Prop :=
  (∀ j, o ≠ .sr j) → ∀ s x k,
    let t := drawn i a s x
    let v := relStart rel .cl x t
    let only (s z : State) : Prop := RegsOnly x (enabled x a) o bits pd s z ∧ OtherCasks x k s z
    Issues i a s x → targetOf t x a = some k → (∀ nd, need = some nd → caskReady t x [(k, nd)] = true) → relMay rel .cl x t →
    ok t x (caskGet t x.cluster k) = true →
    ∃ z, exec i s = .next z ∧ only v z ∧ (v = t → only t z ∧ RegsOnly x (enabled x a) o bits pd s z)

/-- Wherever a barrier wait `i` issues and `cond` holds, it answers a next state that differs only in the registers of `o`, to which it
gives `val`, from the state that its acquire (where `acq`) leaves (R201, R246), which is the one before it where nothing goes before it. -/
def WaitOnly (i : Instr) (a : Args) (sc : Scope) (o : Operand) (acq : Bool) (cond : State → Ix → Prop)
    (val : State → Ix → Option (Nat → Nat)) : Prop :=
  (∀ j, o ≠ .sr j) → ∀ s x,
    let t := countClamp (drawn i a s x) x.ctx sc
    let v := acqStart acq sc x t
    let u := match val (drawn i a s x) x with
      | some r => wr v x o 32 ((enabled x a).map fun l => (l, r l))
      | none => v
    Issues i a s x → cond (drawn i a s x) x → acqMay acq sc x t u →
    ∃ z, exec i s = .next z ∧ RegsOnly x (enabled x a) o 32 none v z ∧ (v = drawn i a s x → RegsOnly x (enabled x a) o 32 none s z)

/-- Wherever an arrival `i` issues, `may` holds and its release may be done, it answers a next state that differs only in the registers of
its destination and in arrivals and phases of barriers, as `more` says, from the state that the release leaves (R201, R244), which is the
one before it where nothing goes before it. -/
def ArriveOnly (i : Instr) (a : Args) (sc : Scope) (may : State → Ix → Prop) (more : Ix → State → State → Prop) : Prop :=
  (∀ j, a.a ≠ .sr j) → ∀ s x,
    let t := countClamp (drawn i a s x) x.ctx sc
    let v := released x sc t
    Issues i a s x → may (drawn i a s x) x → canRelease x sc t = true → ∃ z, exec i s = .next z ∧
      ArrivalOnly x (enabled x a) a.a v z ∧ more x v z ∧ (v = drawn i a s x → ArrivalOnly x (enabled x a) a.a s z ∧ more x s z)

/-- Of the train of `x` barrier `b` alone differs, of the others none, and no barrier of a launch. -/
def OneBarrier (b : Nat) (x : Ix) (s z : State) : Prop :=
  z.lbars = s.lbars ∧ (∀ k, k ≠ x.ref.train → (mget z.trains k).map Train.rest = (mget s.trains k).map Train.rest) ∧
    ∀ j, j ≠ b → (mget z.trains x.ref.train).map (·.barrier j) = (mget s.trains x.ref.train).map (·.barrier j)

/-- Of the barriers of launches that of the train of `x` alone differs, and no barrier of a train. -/
def OneLaunch (x : Ix) (s z : State) : Prop :=
  (∀ k, (mget z.trains k).map Train.rest = (mget s.trains k).map Train.rest) ∧
    ∀ tr, mget s.trains x.ref.train = some tr → ∀ j, j ≠ lbarKey tr → j ≠ lbarKey x.tr → lbarOf z j = lbarOf s j

/-- Wherever an instruction `i` on a barrier object issues, its object lies in the scratchpad, aligned, `may` holds and its release (where
`sc`) may be done, it answers a next state that differs only in the registers of `o` and the 16 bytes of the object from the state that
the release, or the accesses before it, leave (R200, R201, R249), which is the one before it where nothing goes before it. -/
def ObjectOnly (i : Instr) (a : Args) (o : Operand) (sc : Option Scope) (may : State → Ix → Nat → Prop) : Prop :=
  (∀ j, o ≠ .sr j) → ∀ s x,
    let t := drawn i a s x
    let off := offVa t x a .disp ((enabled x a).headD 0)
    let v := match sc with | some sc => released x sc (countClamp t x.ctx sc) | none => settleX x t
    let only := ScratchOnly x (enabled x a) o 32 x.rank fun j => off ≤ j ∧ j < off + 16
    Issues i a s x → off % 16 = 0 → off + 16 ≤ x.tr.scratch → may t x off →
    (∀ q, sc = some q → canRelease x q (countClamp t x.ctx q) = true) →
    ∃ z, exec i s = .next z ∧ only v z ∧ (v = t → only s z)

/-- The invariant of memory: its canonical form. -/
def MemoryCanonical (s : State) : Prop := Memory.wf s.mem = true

end Sys2Proof.Machine
end

