-- ==== Sys2Proof/Certificates/Slice0/Obligations.lean ====
section
/-! DEFINITION. The statements for the provers: what each instruction leaves behind when it issues, the events and the host's
requests, frames, results, traps, decoding, invariants and reset. -/

open Sys2Proof Sys2Proof.Machine

/-! ### What each instruction leaves behind when it issues -/

/-- ADD, SUB, ADDC and SUBB complete with the results and flags of R73 and R74. -/
def Obligations.AddSubComplete : Prop :=
  (∀ m a, Completes (.add m a) a fun s x => setsFlag (.add m a) a s x a.a m.w.bits (flagPd m.po m.pd) fun t l =>
    addSub false m m.w.bits (srcI t x a m.w.bits a.b l) (srcI t x a m.w.bits a.c l)) ∧
  (∀ m a, Completes (.sub m a) a fun s x => setsFlag (.sub m a) a s x a.a m.w.bits (flagPd m.po m.pd) fun t l =>
    addSub true m m.w.bits (srcI t x a m.w.bits a.b l) (srcI t x a m.w.bits a.c l)) ∧
  (∀ w cp a, Completes (.addc w cp a) a fun s x => setsFlag (.addc w cp a) a s x a.a (wbits w) (some cp) fun t l =>
    addCarry false (wbits w) (srcI t x a (wbits w) a.b l) (srcI t x a (wbits w) a.c l) (predOf x l cp)) ∧
  (∀ w cp a, Completes (.subb w cp a) a fun s x => setsFlag (.subb w cp a) a s x a.a (wbits w) (some cp) fun t l =>
    addCarry true (wbits w) (srcI t x a (wbits w) a.b l) (srcI t x a (wbits w) a.c l) (predOf x l cp))

/-- MUL, MULH, MAD, DIV and REM complete with the results and flags of R75 to R77. -/
def Obligations.MulDivComplete : Prop :=
  (∀ m a, Completes (.mul m a) a fun s x => setsFlag (.mul m a) a s x a.a m.w.bits (flagPd m.po m.pd) fun t l =>
    mulAdd m (mulSrcBits m.w) m.w.bits (srcI t x a (mulSrcBits m.w) a.b l) (srcI t x a (mulSrcBits m.w) a.c l) none) ∧
  (∀ m a, Completes (.mulh m a) a fun s x => setsFlag (.mulh m a) a s x a.a m.w.bits none fun t l =>
    (mulHigh m.u m.w.bits (srcI t x a m.w.bits a.b l) (srcI t x a m.w.bits a.c l), false)) ∧
  (∀ m a, Completes (.mad m a) a fun s x => setsFlag (.mad m a) a s x a.a m.w.bits (flagPd m.po m.pd) fun t l =>
    mulAdd m (mulSrcBits m.w) m.w.bits (srcI t x a (mulSrcBits m.w) a.b l) (srcI t x a (mulSrcBits m.w) a.c l)
      (some (srcI t x a m.w.bits a.d l))) ∧
  (∀ m a, Completes (.div m a) a fun s x => setsFlag (.div m a) a s x a.a m.w.bits (flagPd m.po m.pd) fun t l =>
    ((divRem m.u m.w.bits (srcI t x a m.w.bits a.b l) (srcI t x a m.w.bits a.c l)).1,
      divFlag m m.w.bits (srcI t x a m.w.bits a.b l) (srcI t x a m.w.bits a.c l))) ∧
  (∀ m a, Completes (.rem m a) a fun s x => setsFlag (.rem m a) a s x a.a m.w.bits (flagPd m.po m.pd) fun t l =>
    ((divRem m.u m.w.bits (srcI t x a m.w.bits a.b l) (srcI t x a m.w.bits a.c l)).2,
      divFlag m m.w.bits (srcI t x a m.w.bits a.b l) (srcI t x a m.w.bits a.c l)))

/-- MIN, MAX, ABS, AND, OR, XOR and NOT complete with the results of R78 to R80. -/
def Obligations.LogicComplete : Prop :=
  (∀ m a, Completes (.min m a) a fun s x => setsFlag (.min m a) a s x a.a m.w.bits none fun t l =>
    (minMax false m.u m.w.bits (srcI t x a m.w.bits a.b l) (srcI t x a m.w.bits a.c l), false)) ∧
  (∀ m a, Completes (.max m a) a fun s x => setsFlag (.max m a) a s x a.a m.w.bits none fun t l =>
    (minMax true m.u m.w.bits (srcI t x a m.w.bits a.b l) (srcI t x a m.w.bits a.c l), false)) ∧
  (∀ m a, Completes (.abs m a) a fun s x => setsFlag (.abs m a) a s x a.a m.w.bits (flagPd m.po m.pd) fun t l =>
    (absVal m.sat m.w.bits (srcI t x a m.w.bits a.b l),
      flagOf m.po false (sval m.w.bits (srcI t x a m.w.bits a.b l) = minS m.w.bits))) ∧
  (∀ m a, Completes (.and m a) a fun s x => setsFlag (.and m a) a s x a.a m.w.bits none fun t l =>
    (srcI t x a m.w.bits a.b l &&& srcI t x a m.w.bits a.c l, false)) ∧
  (∀ m a, Completes (.or m a) a fun s x => setsFlag (.or m a) a s x a.a m.w.bits none fun t l =>
    (srcI t x a m.w.bits a.b l ||| srcI t x a m.w.bits a.c l, false)) ∧
  (∀ m a, Completes (.xor m a) a fun s x => setsFlag (.xor m a) a s x a.a m.w.bits none fun t l =>
    (srcI t x a m.w.bits a.b l ^^^ srcI t x a m.w.bits a.c l, false)) ∧
  (∀ m a, Completes (.not m a) a fun s x => setsFlag (.not m a) a s x a.a m.w.bits none fun t l =>
    (notVal m.w.bits (srcI t x a m.w.bits a.b l), false))

/-- SHL, SHR, SAR, ROT, BFX, BFI and LEA complete with the results of R81 to R84 and R90. -/
def Obligations.ShiftComplete : Prop :=
  (∀ m a, Completes (.shl m a) a fun s x => setsFlag (.shl m a) a s x a.a m.w.bits none fun t l =>
    (shlVal m.w.bits (srcI t x a m.w.bits a.b l) (srcI t x a 32 a.c l), false)) ∧
  (∀ m a, Completes (.shr m a) a fun s x => setsFlag (.shr m a) a s x a.a m.w.bits none fun t l =>
    (shrVal m.w.bits (srcI t x a m.w.bits a.b l) (srcI t x a 32 a.c l), false)) ∧
  (∀ m a, Completes (.sar m a) a fun s x => setsFlag (.sar m a) a s x a.a m.w.bits none fun t l =>
    (sarVal m.w.bits (srcI t x a m.w.bits a.b l) (srcI t x a 32 a.c l), false)) ∧
  (∀ m a, Completes (.rot m a) a fun s x => setsFlag (.rot m a) a s x a.a m.w.bits none fun t l =>
    (rotVal m.w.bits (srcI t x a m.w.bits a.b l) (srcI t x a 32 a.c l), false)) ∧
  (∀ m a, Completes (.bfx m a) a fun s x => setsFlag (.bfx m a) a s x a.a m.w.bits none fun t l =>
    (bfxVal m.u m.w.bits (srcI t x a m.w.bits a.b l) (srcI t x a 32 a.c l), false)) ∧
  (∀ m a, Completes (.bfi m a) a fun s x => setsFlag (.bfi m a) a s x a.a m.w.bits none fun t l =>
    (bfiVal m.w.bits (srcI t x a m.w.bits a.b l) (srcI t x a m.w.bits a.c l)
      (if a.xmod.getLsbD 19 then (a.xmod.extractLsb' 0 16).toNat else srcI t x a 32 a.d l), false)) ∧
  (∀ m a, Completes (.lea m a) a fun s x => setsFlag (.lea m a) a s x a.a m.w.bits none fun t l =>
    (leaVal m.u m.w.bits (nbits a.xmod.toNat 0 4) (srcI t x a m.w.bits a.b l) (srcI t x a 32 a.c l)
      (srcI t x a 32 a.d l), false))

/-- POPC, CLZ, CTZ, BREV, SEL, CMP, PLOP, MOV and the writes of %srseed and %preds complete with the results of R85 to
R89, R50 and R101. -/
def Obligations.MoveComplete : Prop :=
  (∀ m a, Completes (.popc m a) a fun s x => setsFlag (.popc m a) a s x a.a 32 none fun t l =>
    (popc m.w.bits (srcI t x a m.w.bits a.b l), false)) ∧
  (∀ m a, Completes (.clz m a) a fun s x => setsFlag (.clz m a) a s x a.a 32 none fun t l =>
    (clz m.w.bits (srcI t x a m.w.bits a.b l), false)) ∧
  (∀ m a, Completes (.ctz m a) a fun s x => setsFlag (.ctz m a) a s x a.a 32 none fun t l =>
    (ctz m.w.bits (srcI t x a m.w.bits a.b l), false)) ∧
  (∀ m a, Completes (.brev m a) a fun s x => setsFlag (.brev m a) a s x a.a m.w.bits none fun t l =>
    (brev m.w.bits (srcI t x a m.w.bits a.b l), false)) ∧
  (∀ w neg sp a, Completes (.sel w neg sp a) a fun s x => sets (.sel w neg sp a) a s x a.a (wbits w) fun t l =>
    if predOf x l sp != neg then srcI t x a (wbits w) a.b l else srcI t x a (wbits w) a.c l) ∧
  (∀ w u k a, Completes (.cmp w u k a) a fun s x => setsFlag (.cmp w u k a) a s x a.a 32 none fun t l =>
    (if icond k u (wbits w) (srcI t x a (wbits w) a.b l) (srcI t x a (wbits w) a.c l) then 1 else 0, false)) ∧
  (∀ m a, Completes (.plop m a) a fun s x => setsFlag (.plop m a) a s x a.a 32 none fun t l =>
    (if nbit a.xmod.toNat (4 * srcI t x a 32 a.b l + 2 * srcI t x a 32 a.c l + srcI t x a 32 a.d l) then 1 else 0, false)) ∧
  (∀ m a, Completes (.mov m a) a fun s x => setsFlag (.mov m a) a s x a.a m.w.bits none fun t l =>
    (srcI t x a m.w.bits a.b l, false)) ∧
  (∀ m a, Completes (.srseedWrite m a) a fun s x => setsFlag (.srseedWrite m a) a s x a.a 32 none fun t l =>
    (srcI t x a 32 a.b l, false)) ∧
  (∀ m a, Completes (.predsWrite m a) a fun s x => setsFlag (.predsWrite m a) a s x a.a 32 none fun t l =>
    (srcI t x a 32 a.b l, false))

/-- The conversions complete with the results of R107 to R118. -/
def Obligations.ConvertComplete : Prop :=
  (∀ df sf rm sat a, Completes (.cvt df sf rm sat a) a fun s x =>
    setsRounded (.cvt df sf rm sat a) a s x a.a df.regBits 1 rm fun t l rnd =>
      fround df rm (rnd 0) (fsatIf sat df (srcFv t x a sf a.b l))) ∧
  (∀ sf iw u rm a, Completes (.f2i sf iw u rm a) a fun s x => sets (.f2i sf iw u rm a) a s x a.a iw.regBits fun t l =>
    f2iVal iw u rm (srcFv t x a sf a.b l)) ∧
  (∀ df iw u rm sat a, Completes (.i2f df iw u rm sat a) a fun s x =>
    setsRounded (.i2f df iw u rm sat a) a s x a.a df.regBits 1 rm fun t l rnd =>
      fround df rm (rnd 0) (fsatIf sat df (fint (intOf iw u (srcI t x a iw.regBits a.b l))))) ∧
  (∀ dw du sw su sat a, Completes (.i2i dw du sw su sat a) a fun s x =>
    sets (.i2i dw du sw su sat a) a s x a.a dw.regBits fun t l =>
      i2iVal dw du sat (intOf sw su (srcI t x a sw.regBits a.b l))) ∧
  (∀ df pos rm sat a, Completes (.pack df pos rm sat a) a fun s x =>
    setsRounded (.pack df pos rm sat a) a s x a.a 32 2 rm fun t l rnd =>
      let n := elemBits df
      putBits (oldDst t x a l) (2 * n * pos.toNat) (2 * n)
        (fround df rm (rnd 0) (fsatIf sat df (srcFv t x a .fp32 a.b l)) +
          fround df rm (rnd 1) (fsatIf sat df (srcFv t x a .fp32 a.c l)) * 2 ^ n)) ∧
  (∀ sf pos a, Completes (.unpk sf pos a) a fun s x => sets (.unpk sf pos a) a s x a.a 32 fun t l =>
    fround .fp32 .rn 0 (fval sf (elemAt sf (srcI t x a 32 a.b l) pos.toNat))) ∧
  (∀ df pos rm fs a, Completes (.qnt df pos rm fs a) a fun s x =>
    setsRounded (.qnt df pos rm fs a) a s x a.a 32 1 rm fun t l rnd =>
      putBits (oldDst t x a l) (elemBits df * pos.toNat) (elemBits df)
        (fround df rm (rnd 0) (fsat df (fdivV (srcFv t x a .fp32 a.b l) (scaleOf t x a fs l))))) ∧
  (∀ sf pos rm fs a, Completes (.dqnt sf pos rm fs a) a fun s x =>
    setsRounded (.dqnt sf pos rm fs a) a s x a.a 32 1 rm fun t l rnd =>
      fround .fp32 rm (rnd 0) (fmulV (fval sf (elemAt sf (srcI t x a 32 a.b l) pos.toNat)) (scaleOf t x a fs l))) ∧
  (∀ df a, Completes (.bscale df a) a fun s x => sets (.bscale df a) a s x a.a 32 fun t l =>
    bscaleVal df (srcFv t x a .fp32 a.b l)) ∧
  (∀ g a, Completes (.bmax g a) a fun s x => sets (.bmax g a) a s x a.a 32 fun t l =>
    (((enabled x a).map fun k => (k, maxMag (srcF t x a a.b k) (srcF t x a a.c k))).filter fun f =>
      f.1 / 2 ^ g.toNat = l / 2 ^ g.toNat).foldl (fun v f => maxMag v f.2) 0) ∧
  (∀ a, Completes (.bytx a) a fun s x => sets (.bytx a) a s x a.a 32 fun t l =>
    bytxVal (if a.xmod.getLsbD 19 then (a.xmod.extractLsb' 0 19).toNat else srcI t x a 32 a.d l)
      (srcI t x a 32 a.b l) (srcI t x a 32 a.c l)) ∧
  (∀ a, Completes (.srstep a) a fun s x =>
    let r := genLanes (enabled x a) x.co.gen
    through (.srstep a) (wr (modCoach (drawn (.srstep a) a s x) x.ref.train x.ref.coach fun co => { co with gen := r.2 })
      x a.a 32 r.1) x a)

/-- The rounded arithmetic of class 0x2 completes: every element exactly, then rounded once (R125, R126). -/
def Obligations.FloatArithComplete : Prop :=
  let arith (i : Instr) (m : FMod) (a : Args) (f : (Operand → FVal) → FVal) : Prop :=
    Completes i a fun s x => setsRounded i a s x a.a m.t.bits (elemCount m.t) m.rm fun t l rnd =>
      joinParts m.t fun j => deliver (elemFmt m.t) m (rnd j) (f fun o => elemV t x a m o l j)
  (∀ m a, arith (.fadd m a) m a fun v => fsumV m.rm [v a.b, v a.c]) ∧
  (∀ m a, arith (.fsub m a) m a fun v => fsumV m.rm [v a.b, (v a.c).negate]) ∧
  (∀ m a, arith (.fmul m a) m a fun v => fmulV (v a.b) (v a.c)) ∧
  (∀ m a, arith (.ffma m a) m a fun v => fsumV m.rm [fmulV (v a.b) (v a.c), v a.d]) ∧
  (∀ m a, arith (.ffms m a) m a fun v => fsumV m.rm [fmulV (v a.b) (v a.c), (v a.d).negate]) ∧
  (∀ m a, arith (.fnma m a) m a fun v => fsumV m.rm [(fmulV (v a.b) (v a.c)).negate, v a.d]) ∧
  (∀ m a, arith (.fdiv m a) m a fun v => fdivV (v a.b) (v a.c)) ∧
  (∀ m a, Completes (.fdp2 m a) a fun s x => setsRounded (.fdp2 m a) a s x a.a 32 1 m.rm fun t l rnd =>
    let p (j : Nat) : FVal := fmulV (elemV t x a m a.b l j) (elemV t x a m a.c l j)
    deliver .fp32 m (rnd 0) (fsumV m.rm [p 0, p 1, fsrc .fp32 m.ftz (srcF t x a a.d l)])) ∧
  (∀ m a, Completes (.fscale m a) a fun s x => setsRounded (.fscale m a) a s x a.a m.t.bits 1 m.rm fun t l rnd =>
    deliver (elemFmt m.t) m (rnd 0)
      (scaleV (fsrc (elemFmt m.t) m.ftz (srcT' t x a m.t a.b l)) (sval 32 (srcI t x a 32 a.c l)))) ∧
  (∀ m a, Completes (.frint m a) a fun s x =>
    setsRounded (.frint m a) a s x a.a m.t.bits (elemCount m.t) m.rm fun t l rnd =>
      joinParts m.t fun j => frintVal (elemFmt m.t) m.rm m.ftz (rnd j) (elemC t x a m a.b l j))

/-- The other instructions of class 0x2 complete: minimum, maximum, signs, comparison, classification, parts and selection
(R127 to R133). -/
def Obligations.FloatMiscComplete : Prop :=
  let elems (i : Instr) (m : FMod) (a : Args) (f : Nat → Nat → Nat) : Prop :=
    Completes i a fun s x => sets i a s x a.a m.t.bits fun t l =>
      joinParts m.t fun j => f (elemC t x a m a.b l j) (elemC t x a m a.c l j)
  (∀ m nan a, elems (.fmin m nan a) m a (fminmax (elemFmt m.t) false nan m.ftz)) ∧
  (∀ m nan a, elems (.fmax m nan a) m a (fminmax (elemFmt m.t) true nan m.ftz)) ∧
  (∀ m a, elems (.fabs m a) m a fun b _ => reSign (elemFmt m.t) b false) ∧
  (∀ m a, elems (.fneg m a) m a fun b _ => reSign (elemFmt m.t) b (!signOf (elemFmt m.t) b)) ∧
  (∀ m sm a, elems (.fsgn m sm a) m a fun b c =>
    reSign (elemFmt m.t) b (sgnMode sm (signOf (elemFmt m.t) b) (signOf (elemFmt m.t) c))) ∧
  (∀ m k a, Completes (.fcmp m k a) a fun s x => sets (.fcmp m k a) a s x a.a 32 fun t l =>
    let p (j : Nat) : Nat := if fcond k (elemV t x a m a.b l j) (elemV t x a m a.c l j) then 1 else 0
    if elemCount m.t = 1 then p 0 else p 0 + 2 * p 1) ∧
  (∀ m a, Completes (.fclass m a) a fun s x => sets (.fclass m a) a s x a.a 32 fun t l =>
    let k (j : Nat) : Nat := fclassBit (elemFmt m.t) (elemC t x a m a.b l j)
    let r := (if elemCount m.t = 1 then 2 ^ k 0 else 2 ^ k 0 + 2 ^ (16 + k 1)) &&& srcI t x a 32 a.c l
    match a.a with
    | .pred _ => if r ≠ 0 then 1 else 0
    | _ => r) ∧
  (∀ m a, Completes (.fgetx m a) a fun s x => sets (.fgetx m a) a s x a.a 32 fun t l =>
    fgetxVal (fsrc (elemFmt m.t) m.ftz (srcT' t x a m.t a.b l))) ∧
  (∀ m a, Completes (.fgetm m a) a fun s x => sets (.fgetm m a) a s x a.a m.t.bits fun t l =>
    fgetmVal (elemFmt m.t) (fsrc (elemFmt m.t) m.ftz (srcT' t x a m.t a.b l))) ∧
  (∀ w sp neg a, Completes (.fsel w sp neg a) a fun s x => sets (.fsel w sp neg a) a s x a.a (wbits w) fun t l =>
    let v (o : Operand) : Nat := src t x a (wbits w) (.fp (if w then .fp64 else .fp32)) o l
    if predOf x l sp != neg then v a.b else v a.c)

/-- The special functions complete with the codes of R134 to R138. -/
def Obligations.SpecialComplete : Prop :=
  let one (i : Instr) (f : SFun) (rm : RMode) (ftz : Bool) (a : Args) : Prop :=
    Completes i a fun s x => setsRounded i a s x a.a 32 1 rm fun t l rnd => sfunCode f rm ftz (rnd 0) (srcF t x a a.b l)
  (∀ rm z a, one (.rcp rm z a) .rcp rm z a) ∧ (∀ z a, one (.rsq z a) .rsq .rn z a) ∧
  (∀ rm z a, one (.sqrt rm z a) .sqrt rm z a) ∧ (∀ z a, one (.exp2 z a) .exp2 .rn z a) ∧
  (∀ z a, one (.log2 z a) .log2 .rn z a) ∧ (∀ z a, one (.sin z a) .sin .rn z a) ∧
  (∀ z a, one (.cos z a) .cos .rn z a) ∧ (∀ z a, one (.tanh z a) .tanh .rn z a) ∧
  (∀ z a, one (.sigm z a) .sigm .rn z a) ∧
  (∀ z a, Completes (.sincos z a) a fun s x =>
    let t := drawn (.sincos z a) a s x
    let v (f : SFun) : List (Nat × Nat) := (enabled x a).map fun l => (l, sfunCode f .rn z 0 (srcF t x a a.b l))
    through (.sincos z a) (wr (wr t x a.a 32 (v .sin)) x a.d 32 (v .cos)) x a)

/-- NOP and the transfers complete: each lane goes to its target when every target is a multiple of 4 and canonical (R155 to
R159, R165). -/
def Obligations.TransferComplete : Prop :=
  (∀ a, Completes (.nop a) a fun s x => through (.nop a) (drawn (.nop a) a s x) x a) ∧
  (∀ a s x, Issues (.bra a) a s x → targetOk (formO x a) = true →
    exec (.bra a) s = .next (parts (.bra a) (drawn (.bra a) a s x) x a
      ((enabled x a).map fun l => (l, .go (x.fr.pc + 12 + a.tail.signExtend 64))))) ∧
  (∀ a s x, let t := drawn (.brx a) a s x; let tgt (l : Nat) : Word64 := w64 (srcI t x a 64 a.b l)
    Issues (.brx a) a s x → (∀ l ∈ enabled x a, targetOk (tgt l) = true) →
    exec (.brx a) s = .next (parts (.brx a) t x a ((enabled x a).map fun l => (l, .go (tgt l))))) ∧
  (∀ a s x, Issues (.call a) a s x → targetOk (formO x a) = true →
    exec (.call a) s = .next (parts (.call a)
      (rasPush (wr (drawn (.call a) a s x) x a.a 64 ((enabled x a).map fun l => (l, (x.fr.pc + 12).toNat))) x) x a
      ((enabled x a).map fun l => (l, .go (x.fr.pc + 12 + a.tail.signExtend 64))))) ∧
  (∀ a s x, let t := drawn (.callx a) a s x; let tgt (l : Nat) : Word64 := w64 (srcI t x a 64 a.b l)
    Issues (.callx a) a s x → (∀ l ∈ enabled x a, targetOk (tgt l) = true) →
    exec (.callx a) s = .next (parts (.callx a)
      (rasPush (wr t x a.a 64 ((enabled x a).map fun l => (l, (x.fr.pc + 12).toNat))) x) x a
      ((enabled x a).map fun l => (l, .go (tgt l))))) ∧
  (∀ a s x, let t := drawn (.ret a) a s x; let tgt (l : Nat) : Word64 := w64 (srcI t x a 64 a.b l)
    Issues (.ret a) a s x → (∀ l ∈ enabled x a, targetOk (tgt l) = true) →
    exec (.ret a) s = .next (parts (.ret a) (rasPop t x) x a ((enabled x a).map fun l => (l, .go (tgt l))))) ∧
  (∀ a s x, let t := drawn (.jtab a) a s x
    let inside := (enabled x a).filter fun l => srcI t x a 32 a.b l < srcI t x a 32 a.c l
    let tgt (l : Nat) : Word64 := x.fr.pc + 12 + a.tail.signExtend 64 + 12 * w64 (srcI t x a 32 a.b l)
    Issues (.jtab a) a s x → (∀ l ∈ inside, targetOk (tgt l) = true) →
    exec (.jtab a) s = .next (parts (.jtab a) t x a (inside.map fun l => (l, .go (tgt l))))) ∧
  (∀ a s x, let t := drawn (.loop a) a s x
    let n (l : Nat) : Nat := lessOne (srcI t x a 32 a.a l)
    Issues (.loop a) a s x → targetOk (formO x a) = true →
    exec (.loop a) s = .next (parts (.loop a) (wr t x a.a 32 ((enabled x a).map fun l => (l, n l))) x a
      (((enabled x a).filter fun l => n l ≠ 0).map fun l => (l, .go (x.fr.pc + 12 + a.tail.signExtend 64))))) ∧
  (∀ a s x, Issues (.brany a) a s x → targetOk (formO x a) = true →
    exec (.brany a) s = .next (parts (.brany a) (drawn (.brany a) a s x) x a
      (if (enabled x a).any (voteOf a x) then
        (lanesOf x.fr.mask).map fun l => (l, .go (x.fr.pc + 12 + a.tail.signExtend 64)) else []))) ∧
  (∀ a s x, Issues (.brall a) a s x → targetOk (formO x a) = true →
    exec (.brall a) s = .next (parts (.brall a) (drawn (.brall a) a s x) x a
      (if (enabled x a).all (voteOf a x) then
        (lanesOf x.fr.mask).map fun l => (l, .go (x.fr.pc + 12 + a.tail.signExtend 64)) else [])))

/-- FORK, END, EXIT, RCV.MARK, YIELD, NAP and ICINV complete as R160 to R162 and R165 to R167 say; EXIT where its release can
be performed. -/
def Obligations.FibreComplete : Prop :=
  (∀ pv pd a s x, let t := drawn (.fork pv pd a) a s x
    let ks := if x.spine then [] else forkPairs (enabled x a) (freeSlots x.tr x.rank) x.tr.fidNext
    let made (l : Nat) : Option Nat := (ks.find? fun k => k.1 = l).map fun k => k.2.2
    let u := wr (placeChildren t x a (formO x a) ks) x a.a 32 ((enabled x a).map fun l => (l, (made l).getD 0xFFFFFFFF))
    Issues (.fork pv pd a) a s x → targetOk (formO x a) = true →
    exec (.fork pv pd a) s = .next (through (.fork pv pd a)
      (if pv then wrPred u x pd ((enabled x a).map fun l => (l, (made l).isSome)) else u) x a)) ∧
  (∀ a, Completes (.end_ a) a fun s x =>
    parts (.end_ a) (drawn (.end_ a) a s x) x a ((enabled x a).map fun l => (l, .ended))) ∧
  (∀ a s x, Issues (.exit a) a s x → canRelease x .pt (drawn (.exit a) a s x) = true →
    exec (.exit a) s = .next (parts (.exit a) (released x .pt (drawn (.exit a) a s x)) x a
      ((enabled x a).map fun l => (l, .ended)))) ∧
  (∀ a, Completes (.rcvMark a) a fun s x => sets (.rcvMark a) a s x a.a 32 fun _ _ => (maskOf (enabled x a)).toNat) ∧
  (∀ a, Completes (.yield a) a fun s x =>
    noteIssue (onwardAt (drawn (.yield a) a s x) x (x.fr.pc + 12) id) x (.yield a) a true) ∧
  (∀ a, Completes (.nap a) a fun s x =>
    let t := drawn (.nap a) a s x
    let n := rtCap (srcI t x a 32 a.b ((enabled x a).headD 0))
    noteIssue (onwardAt t x (x.fr.pc + 12) fun f => if n = 0 then f else { f with nap := some (t.rtime + n) }) x (.nap a) a
      (a.yld || n = 0)) ∧
  (∀ a s x, let t := drawn (.icinv a) a s x
    Issues (.icinv a) a s x → settled (settleX x t) x.ref.train x.ref.coach = true →
    exec (.icinv a) s = .next (through (.icinv a) (icInvalidate (settleX x t) x.cluster x.ctx
      (srcI t x a 64 a.b ((enabled x a).headD 0)) (srcI t x a 32 a.c ((enabled x a).headD 0))) x a))

/-- RCV.WAIT and RCV.WAIT.rg complete where their rejoin releases (R147, R163, R164): the merged fragment goes on; `.rg`
packs the fibres of the core on a core, and never on a spine (R178). -/
def Obligations.RejoinComplete : Prop :=
  let masks (i : Instr) (a : Args) (s : State) (x : Ix) (l : Nat) : Word32 := w32 (srcI (drawn i a s x) x a 32 a.b l)
  (∀ a s x u y, let i : Instr := .rcvWait false a
    Issues i a s x → rejoins i x a .plain (masks i a s x) [x.ref.coach] (drawn i a s x) = some (u, y) → Goes y →
    exec i s = .next (through i u y a)) ∧
  (∀ v a s x u y, let i : Instr := .rcvWait true a
    a.b = .v v → x.spine = true → y.spine = true → Issues i a s x →
    rejoins i x a (.regroup v) (masks i a s x) [x.ref.coach] (drawn i a s x) = some (u, y) → Goes y →
    exec i s = .next (through i u y a)) ∧
  (∀ v a s x u y, let i : Instr := .rcvWait true a
    let w := (coachesAt y.tr y.rank).foldl (fun s c => replyAll s y.ref.train c) u
    a.b = .v v → x.spine = false → y.spine = false → Issues i a s x →
    rejoins i x a (.regroup v) (masks i a s x) (coachesAt x.tr x.rank) (drawn i a s x) = some (u, y) → Goes y →
    regroupWaits y w = false → exec i s = .next (noteIssue (regrouped y v.toNat w) y i a a.yld))

/-- The lane exchanges complete with the results of R172 to R176. -/
def Obligations.LaneComplete : Prop :=
  let vals (s : State) (x : Ix) (a : Args) (n : Nat) (ls : List Nat) : List (Nat × Nat) := ls.map fun l => (l, srcI s x a n a.b l)
  let votes (x : Ix) (a : Args) (ls : List Nat) : List (Nat × Bool) := ls.map fun l => (l, voteOf a x l)
  (∀ w k mode seg a, Exchanges (.shfl w k mode seg a) a k (wbits w) fun s x ls =>
    (vals s x a (wbits w) ls).map fun e =>
      let j := shflFrom mode (32 / 2 ^ seg.toNat) e.1 (srcI s x a 32 a.c e.1)
      match valAt (vals s x a (wbits w) ls) j.1 with
      | some v => (e.1, v, j.2)
      | none => (e.1, e.2, false)) ∧
  (∀ k op a, Exchanges (.vote k op a) a k 32 fun _ x ls => ls.map fun l => (l, voteVal op (votes x a ls), false)) ∧
  (∀ w k op a, Exchanges (.redux w k op a) a k (wbits w) fun s x ls =>
    ls.map fun l => (l, reduxVal op (wbits w) (vals s x a (wbits w) ls), false)) ∧
  (∀ w k op excl a, Exchanges (.scan w k op excl a) a k (wbits w) fun s x ls =>
    (scanVals op (wbits w) excl (vals s x a (wbits w) ls)).map fun r => (r.1, r.2, false)) ∧
  (∀ w k all a, Exchanges (.match_ w k all a) a k 32 fun s x ls =>
    let bs := vals s x a (wbits w) ls
    let eq := bs.all fun e => some e.2 = bs.head?.map (·.2)
    bs.map fun e =>
      if all then (e.1, (if eq then (maskOf ls).toNat else 0), eq)
      else (e.1, (maskOf ((bs.filter fun f => f.2 = e.2).map (·.1))).toNat, false)) ∧
  (∀ w k a, Exchanges (.bcast w k a) a k (wbits w) fun s x ls =>
    ls.map fun l => (l, ((vals s x a (wbits w) ls).head?.map (·.2)).getD 0, false)) ∧
  (∀ k a, Exchanges (.cmpct k a) a k 32 fun _ x ls =>
    ls.map fun l => (l, ((votes x a ls).filter fun b => b.1 < l && b.2).length, false)) ∧
  (∀ w k a, Exchanges (.lperm w k a) a k (wbits w) fun s x ls =>
    (vals s x a (wbits w) ls).map fun e =>
      match ((ls.map fun l => (l, srcI s x a 32 a.c l)).filter fun c => c.2 = e.1).getLast? with
      | some c => (e.1, (valAt (vals s x a (wbits w) ls) c.1).getD e.2, true)
      | none => (e.1, e.2, false))

/-- The loads complete where their lanes pass the checks of R208 and translate, the earlier accesses that they follow are performed
(R200), no byte read is poisoned and no watch range is
touched (R205 to R212): LD, LDU and LDB through the L1 or past it, LDS and LDX from a core's scratchpad, LDW from the
cellar. An acquiring load acquires first. -/
def Obligations.LoadComplete : Prop :=
  let glob (i : Instr) (m : MemMod) (a : Args) (sx byp : Bool) (lanes : List Nat → List Nat) : Prop := ∀ s x,
    let t0 := clampIf m.ord m.sc x (atOnce m.ord (drawn i a s x))
    let t := acqStart m.ord m.sc x t0
    let as := (lanes (enabled x a)).map fun l => (l, globVa t x a l)
    let past := byp || (m.ord && clampScope x.ctx m.sc ≠ .cl)
    let u := loadLanes (reached x .load m.sz.bytes past as t) x ⟨encodeVamer i, a.a, m.sz.bytes, sx⟩ past (accesses x .load as t)
      ((enabled x a).headD 0)
    Issues i a s x → Reaches x .load m.sz.bytes false false (fun _ _ => false) as t → InTurn x .load m.sz.bytes past as t →
      u.2 = none →
      acqMay m.ord m.sc x t0 u.1 → exec i s = .next (through i u.1 x a)
  let scr (i : Instr) (m : MemMod) (a : Args) (form : TailForm) (score : Bool) (rank : State → Ix → Nat) : Prop := ∀ s x,
    let t0 := atOnce m.ord (drawn i a s x)
    let t := acqStart m.ord .cl x t0
    let as := (enabled x a).map fun l => (l, offVa (drawn i a s x) x a form l)
    let k := rank (drawn i a s x) x
    let v := scrReached x k m.sz.bytes as t
    let u := loadPlaces v x ⟨encodeVamer i, a.a, m.sz.bytes, m.sx⟩ (scrFollowed x k m.sz.bytes as t).defer (as.map fun e => (e.1, .scr x.ref.train k e.2))
    Issues i a s x → preCheck as m.sz.bytes (fun o => o + m.sz.bytes ≤ x.tr.scratch) = none →
      (score = true → (as.any fun e => rangeBusy (drawn i a s x) x.core x.ref.train e.2 m.sz.bytes) = false) →
      (score = false → k < x.tr.cores.length) → ScrInTurn x k m.sz.bytes as t → u.2 = none → acqMay m.ord .cl x t0 u.1 →
      exec i s = .next (through i u.1 x a)
  (∀ m a, glob (.ld m a) m a m.sx false id) ∧
  (∀ m a, glob (.ldu m a) m a false false fun ls => [ls.headD 0]) ∧
  (∀ m a, glob (.ldb m a) m a m.sx true id) ∧
  (∀ m a, scr (.lds m a) m a .disp true fun _ x => x.rank) ∧
  (∀ m a, scr (.ldx m a) m a .d false fun t x => srcI t x a 32 a.d ((enabled x a).headD 0)) ∧
  (∀ m a s x, let t := drawn (.ldw m a) a s x
    let as := (enabled x a).map fun l => (l, offVa t x a .disp l)
    let u := loadPlaces t x ⟨encodeVamer (.ldw m a), a.a, m.sz.bytes, false⟩ t.defer (as.map fun e => (e.1, .cellar x.die e.2))
    Issues (.ldw m a) a s x → preCheck as m.sz.bytes (fun o => o + m.sz.bytes ≤ 2 ^ 30) = none →
      nbits ((as.headD (0, 0)).2) 24 6 ≠ (crefOf t x.die).1 → u.2 = none →
      exec (.ldw m a) s = .next (through (.ldw m a) u.1 x a))

/-- The stores complete where their lanes pass the checks of R208 and translate, the earlier accesses that they follow are performed
(R200) and no watch range is touched (R207 to R212,
R217): ST and STB through the L1 or past it, OCH.ST in its channel, STS and STX to a core's scratchpad. A releasing
store releases first. -/
def Obligations.StoreComplete : Prop :=
  let glob (i : Instr) (m : MemMod) (a : Args) (byp : Bool) : Prop := ∀ s x,
    let t0 := clampIf m.ord m.sc x (drawn i a s x)
    let t := relStart m.ord m.sc x t0
    let as := (enabled x a).map fun l => (l, globVa t x a l)
    let past := byp || (m.ord && clampScope x.ctx m.sc ≠ .cl)
    let u := storeLanes (reached x .store m.sz.bytes past as t) x past (fun _ => none) m.sz.bytes (storeBytes t x a m.sz)
      (accesses x .store as t)
    Issues i a s x → Reaches x .store m.sz.bytes true false (fun _ _ => false) as t → InTurn x .store m.sz.bytes past as t →
      u.2 = none → relMay m.ord m.sc x t0 → exec i s = .next (through i u.1 x a)
  let scr (i : Instr) (m : MemMod) (a : Args) (form : TailForm) (score : Bool) (rank : State → Ix → Nat) : Prop := ∀ s x,
    let t0 := drawn i a s x
    let t := relStart m.ord .cl x t0
    let as := (enabled x a).map fun l => (l, offVa t0 x a form l)
    let k := rank t0 x
    Issues i a s x → preCheck as m.sz.bytes (fun o => o + m.sz.bytes ≤ x.tr.scratch) = none →
      (score = true → (as.any fun e => rangeBusy t0 x.core x.ref.train e.2 m.sz.bytes) = false) →
      (score = false → k < x.tr.cores.length) → ScrInTurn x k m.sz.bytes as t → relMay m.ord .cl x t0 →
      exec i s = .next (through i (scrStored (scrReached x k m.sz.bytes as t) x k (fun l => storeBytes (scrFollowed x k m.sz.bytes as t) x a m.sz l) as) x a)
  (∀ m a, glob (.st m a) m a false) ∧ (∀ m a, glob (.stb m a) m a true) ∧
  (∀ m a, scr (.sts m a) m a .disp true fun _ x => x.rank) ∧
  (∀ m a, scr (.stx m a) m a .d false fun t x => srcI t x a 32 a.d ((enabled x a).headD 0)) ∧
  (∀ sz n a s x, let t := drawn (.ochSt sz n a) a s x
    let as := (enabled x a).map fun l => (l, globVa t x a l)
    let chan (b : LAcc) : Nat := 8 * maDie b.ma + n.toNat
    let u := storeLanes (reached x .store sz.bytes true as t) x true (fun b => some (chan b)) sz.bytes (storeBytes t x a sz)
      (accesses x .store as t)
    Issues (.ochSt sz n a) a s x → Reaches x .store sz.bytes true true (fun _ b => !x.tr.och.contains (chan b)) as t →
      InTurn x .store sz.bytes true as t → u.2 = none → exec (.ochSt sz n a) s = .next (through (.ochSt sz n a) u.1 x a))

/-- Prefetch, cache control, FENCE, the ordered channels and MDIE complete (R213 to R218): cache control where the home takes its
requests and write-backs (R370), FENCE where its release and its
acquire can be performed, OCH.CLOSE where the channel has drained, MDIE where its lanes translate. -/
def Obligations.CacheComplete : Prop :=
  let first (x : Ix) (a : Args) : Nat := (enabled x a).headD 0
  let words (x : Ix) (a : Args) (all stores : Bool) (t : State) : List Nat × State :=
    let n := srcI t x a 32 a.c (first x a)
    if n = 0 then (if all then (t.cluster x.cluster).l1.map (·.1) else [], t)
    else rangeWords x (srcI t x a 64 a.b (first x a)) n stores (pagesOf (srcI t x a 64 a.b (first x a)) n) t
  let cache (i : Instr) (a : Args) (all stores : Bool) (f : State → Nat → List Nat → State) : Prop := ∀ s x,
    let t := settleX x (drawn i a s x)
    let r := words x a all stores t
    let u := f r.2 x.cluster r.1
    Issues i a s x → (srcI t x a 32 a.c (first x a) = 0 ∨ outOf t x.ctx .mem = false) →
      ((u.cluster x.cluster).l1.any fun e => e.2.dirty ≠ 0 && r.1.contains e.1) = false → exec i s = .next (through i u x a)
  (∀ a, Completes (.pref a) a fun s x => let t := drawn (.pref a) a s x
    through (.pref a) (if outOf t x.ctx .mem then t else ((enabled x a).map fun l => globVa t x a l).foldl (prefLine x) t) x a) ∧
  (∀ a, Completes (.prefc a) a fun s x => let t := drawn (.prefc a) a s x
    through (.prefc a) (((enabled x a).map fun l => globVa t x a l).foldl (fun s va =>
      if !canonical va then s
      else match pageOf s x va false with
        | (some (ma, key), s) => if isHbm ma && !keyConflict s ma key then homeAccess s x.ctx ma 1 else s
        | (none, s) => s) t) x a) ∧
  (∀ a, cache (.cinv a) a true false evictWords) ∧ (∀ a, cache (.cwb a) a true false backWords) ∧
  (∀ a, cache (.cdisc a) a false true discardWords) ∧
  (∀ o sc a s x, let t := countClamp (drawn (.fence o sc a) a s x) x.ctx sc
    let u := relStart (o ≠ .acq) sc x t
    Issues (.fence o sc a) a s x → relMay (o ≠ .acq) sc x t → (o ≠ .rel → canAcquire x sc u = true) →
    exec (.fence o sc a) s = .next (through (.fence o sc a) (if o = .rel then u else acquired x sc u) x a)) ∧
  (∀ n a, Completes (.ochOpen n a) a fun s x =>
    let t := drawn (.ochOpen n a) a s x
    let c := 8 * (srcI t x a 32 a.b (first x a) % 4) + n.toNat
    through (.ochOpen n a) (modTrain t x.ref.train fun tr => { tr with och := if tr.och.contains c then tr.och else tr.och ++ [c] }) x a) ∧
  (∀ n a s x, let t := drawn (.ochClose n a) a s x
    let c := 8 * (srcI t x a 32 a.b (first x a) % 4) + n.toNat
    Issues (.ochClose n a) a s x → chanEmpty (drainChan t x.ref.train c) x.ref.train c = true →
    exec (.ochClose n a) s = .next (through (.ochClose n a) (modTrain (drainChan t x.ref.train c) x.ref.train fun tr =>
      { tr with och := tr.och.filter (· ≠ c) }) x a)) ∧
  (∀ a s x, let t := drawn (.mdie a) a s x
    let as := (enabled x a).map fun l => (l, globVa t x a l)
    Issues (.mdie a) a s x → Reaches x .load 1 false false (fun _ _ => false) as t →
    exec (.mdie a) s = .next (through (.mdie a) (wrFirst (walked x .load as t) x a.a 32 (first x a) ((accesses x .load as t).map fun b =>
      (b.lane, if isHbm b.ma then maDie b.ma else 0xFFFFFFFF))) x a))

/-- The atomics complete where their lanes pass the checks of R208 and translate, the earlier accesses that they follow are performed
(R200) and no location is poisoned (R220 to R230):
the steps at the home, at once or queued, and the old values; in the scratchpad at once. A releasing atomic releases
first, an acquiring one acquires after that. -/
def Obligations.AtomicComplete : Prop :=
  let n (m : AtomMod) : Nat := if m.w64 then 8 else 4
  let glob (i : Instr) (m : AtomMod) (a : Args) (form : TailForm) (dst : Option Operand) (lanes : List Nat → List Nat)
      (val : State → State → Ix → Nat → LStep) : Prop := ∀ s x,
    let t0 := clampIf (m.ord ≠ .relaxed) m.sc x (drawn i a s x)
    let t1 := atOnce (ordAcquires m.ord) (relStart (ordReleases m.ord) m.sc x t0)
    let t := acqStart (ordAcquires m.ord) m.sc x t1
    let as := (lanes (enabled x a)).map fun l => (l, atomVa t x a form l)
    let u := atomLanes x m (encodeVamer i) dst ((enabled x a).headD 0) (val (drawn i a s x) t x) (reached x .atomic (n m) true as t)
      (accesses x .atomic as t)
    Issues i a s x → Reaches x .atomic (n m) true true (fun _ _ => false) as t → InTurn x .atomic (n m) true as t → u.2 = none →
      relMay (ordReleases m.ord) m.sc x t0 → acqMay (ordAcquires m.ord) m.sc x t1 u.1 →
      exec i s = .next (through i u.1 x a)
  let scr (i : Instr) (m : AtomMod) (a : Args) (cas : Bool) (dst : Option Operand) : Prop := ∀ s x,
    let t := drawn i a s x
    let as := (enabled x a).map fun l => (l, offVa t x a (if cas then .d else .disp) l)
    let ks := as.map fun e => (e.2, laneStep t x a (8 * n m) cas e.1)
    let u := relStart (ordReleases m.ord) .cl x t
    let r := scrAtomics (scrReached x x.rank (n m) as u) x m ks
    Issues i a s x → preCheck as (n m) (fun o => o + n m ≤ x.tr.scratch) = none →
      (as.any fun e => rangeBusy t x.core x.ref.train e.2 (n m)) = false → relMay (ordReleases m.ord) .cl x t →
      ScrInTurn x x.rank (n m) as u → r.2.1 = [] →
      exec i s = .next (through i (match dst with
        | some o => wrFirst r.2.2 x o (8 * n m) ((enabled x a).headD 0) r.1
        | none => r.2.2) x a)
  (∀ m a, glob (.atom m a) m a .disp (some a.a) id fun _ t x l => laneStep t x a (8 * n m) false l) ∧
  (∀ m a, glob (.atomc m a) m a .d (some a.a) id fun _ t x l => laneStep t x a (8 * n m) true l) ∧
  (∀ m a, glob (.red m a) m a .disp none id fun _ t x l => laneStep t x a (8 * n m) false l) ∧
  (∀ m a, glob (.atomu m a) m a .disp (some a.a) (fun ls => [ls.headD 0]) fun s _ x l =>
    ⟨l, none, srcI s x a (if m.w64 then 64 else 32) a.c ((enabled x a).headD 0)⟩) ∧
  (∀ m a, glob (.redu m a) m a .disp none (fun ls => [ls.headD 0]) fun s _ x l =>
    ⟨l, none, reduVal m.op m.w64 ((enabled x a).map fun k => (k, srcI s x a (if m.w64 then 64 else 32) a.c k))⟩) ∧
  (∀ m a, scr (.atoms m a) m a false (some a.a)) ∧ (∀ m a, scr (.atomsc m a) m a true (some a.a)) ∧
  (∀ m a, scr (.reds m a) m a false none)

/-- The cask instructions complete where the context owns the target, it is as the operation needs it and unpoisoned where its value
is read, and no earlier waiter is passed over (R198, R231 to R242). -/
def Obligations.CaskComplete : Prop :=
  let on (i : Instr) (a : Args) (need : Need) (ok : State → Ix → Cask → Bool) (f : State → Ix → Nat → Cask → State) : Prop :=
    ∀ s x k, let t := drawn i a s x
      Issues i a s x → targetOf t x a = some k → caskReady t x [(k, need)] = true → ok t x (caskGet t x.cluster k) = true →
      exec i s = .next (through i (f t x k (caskGet t x.cluster k)) x a)
  let any (i : Instr) (a : Args) (f : State → Ix → Nat → Cask → State) : Prop :=
    ∀ s x k, let t := drawn i a s x
      Issues i a s x → targetOf t x a = some k → exec i s = .next (through i (f t x k (caskGet t x.cluster k)) x a)
  (∀ w n a, on (.ckfill w n a) a .empty (fun t x _ => canRelease x .cl t) fun t x k c =>
    caskPut (released x .cl t) x.cluster k (c.fill (srcI t x a (wbits w) a.c ((enabled x a).headD 0)) n.toNat)) ∧
  (∀ w a, on (.ckdraw w a) a .full (fun _ _ c => !c.poison) fun t x k c =>
    wr (caskPut t x.cluster k c.draw) x a.a (wbits w) ((enabled x a).map fun l => (l, c.value.toNat % 2 ^ wbits w))) ∧
  (∀ w a, on (.ckpeek w a) a .full (fun _ _ c => !c.poison) fun t x _ c =>
    wr t x a.a (wbits w) ((enabled x a).map fun l => (l, c.value.toNat % 2 ^ wbits w))) ∧
  (∀ w obs pd a, on (.cktry w obs pd a) a .full (fun _ _ c => c.f && !c.poison) fun t x k c =>
    wrPred (wr (if obs then t else caskPut t x.cluster k c.draw) x a.a (wbits w)
      ((enabled x a).map fun l => (l, c.value.toNat % 2 ^ wbits w))) x pd ((enabled x a).map fun l => (l, true))) ∧
  (∀ w obs pd a s x k, let t := drawn (.cktry w obs pd a) a s x
    Issues (.cktry w obs pd a) a s x → targetOf t x a = some k → (caskGet t x.cluster k).f = false →
    exec (.cktry w obs pd a) s = .next (through (.cktry w obs pd a) (wrPred t x pd ((enabled x a).map fun l => (l, false))) x a)) ∧
  (∀ op a, on (.ckseed op a) a .empty
    (fun t x _ => canRelease x .cl t && decide (srcI t x a 32 a.c ((enabled x a).headD 0) ≤ 255)) fun t x k c =>
    caskPut (released x .cl t) x.cluster k
      (c.seed op (srcI t x a 32 a.c ((enabled x a).headD 0)) (a.xmod.extractLsb' 0 8).toNat)) ∧
  (∀ op w a, on (.ckred op w a) a .gathering (fun t x c => canRelease x .cl t && decide (c.gop = op) && !c.poison) fun t x k c =>
    caskPut (released x .cl t) x.cluster k
      (c.contribute (ckredVal op w ((enabled x a).map fun l => (l, srcI t x a (wbits w) a.c l))))) ∧
  (∀ a, any (.ckclr a) a fun t x k c =>
    caskPut t x.cluster k { c with f := false, g := false, pend := 0, rc := 0, value := 0, poison := false }) ∧
  (∀ a, any (.ckstat a) a fun t x _ c => wr t x a.a 32 ((enabled x a).map fun l => (l, ckstatVal c)))

/-- Train and launch barriers complete (R243 to R248): an arrival where its count agrees and its release can be performed, a
wait where the phase has left every token, a timed wait then or at its deadline. -/
def Obligations.BarrierComplete : Prop :=
  let arrive (i : Instr) (a : Args) (sc : Scope) (b : Nat) (stay : Bool) : Prop := ∀ s x,
    let t0 := drawn i a s x
    let t := countClamp t0 x.ctx sc
    let c := srcI t0 x a 32 a.c ((enabled x a).headD 0)
    let token := (x.tr.barrier b).ph
    Issues i a s x → barCheck x b c (enabled x a) = true → canRelease x sc t = true →
    exec i s = .next (noteIssue (onwardAt
      (wr (barArrive (released x sc t) x b c (enabled x a)) x a.a 32 ((enabled x a).map fun l => (l, token.toNat))) x
      (x.fr.pc + 12) fun f => if stay then { f with bar := some (false, b, token, sc) } else f) x i a a.yld)
  let timed (i : Instr) (a : Args) (sc : Scope) (pre : Ix → Bool) (ph : State → Ix → Nat) : Prop := ∀ s x,
    let t0 := drawn i a s x
    let t := countClamp t0 x.ctx sc
    let u := acqStart true sc x t
    let left := phaseLeft t0 x a a.b 32 (ph t0 x) (enabled x a)
    let due := x.fr.deadline.getD (t0.rtime + rtCap (srcI t0 x a 32 a.c ((enabled x a).headD 0)))
    let res (v : State) (r : Nat) : State := wr v x a.a 32 ((enabled x a).map fun l => (l, r))
    Issues i a s x → pre x = true →
      (left = true → acqMay true sc x t (res u 1) → exec i s = .next (through i (res u 1) x a)) ∧
      (left = false → due ≤ t0.rtime → exec i s = .next (through i (res t 0) x a))
  (∀ sc n a, arrive (.bar sc n a) a sc n.toNat true) ∧ (∀ sc n a, arrive (.bara sc n a) a sc n.toNat false) ∧
  (∀ sc n a s x, let t := countClamp (drawn (.barw sc n a) a s x) x.ctx sc
    Issues (.barw sc n a) a s x →
    phaseLeft (drawn (.barw sc n a) a s x) x a a.b 32 (x.tr.barrier n.toNat).ph.toNat (enabled x a) = true →
    acqMay true sc x t (acqStart true sc x t) → exec (.barw sc n a) s = .next (through (.barw sc n a) (acqStart true sc x t) x a)) ∧
  (∀ sc n a, timed (.bart sc n a) a sc (fun _ => true) fun _ x => (x.tr.barrier n.toNat).ph.toNat) ∧
  (∀ sy nw a s x, let sc := gbarScope sy
    let t := countClamp (drawn (.gbar sy nw a) a s x) x.ctx sc
    let v := released x sc t
    let k := lbarKey x.tr
    let token := (lbarOf v k).ph
    Issues (.gbar sy nw a) a s x → x.tr.gbar = true →
    (enabled x a).any (fun l => ((mget x.co.lanes l).map (·.arrived.getLsbD 16)).getD false) = false →
    canRelease x sc t = true →
    exec (.gbar sy nw a) s = .next (noteIssue (onwardAt
      (wr (testLaunch (arriveLaunch (modCoach v x.ref.train x.ref.coach (setArrived 16 (enabled x a))) x.ref.train) k)
        x a.a 32 ((enabled x a).map fun l => (l, token.toNat))) x (x.fr.pc + 12)
      fun f => if nw then f else { f with bar := some (true, 0, token, sc) }) x (.gbar sy nw a) a a.yld)) ∧
  (∀ sy a, timed (.gbart sy a) a (gbarScope sy) (fun x => x.tr.gbar) fun t x => (lbarOf t (lbarKey x.tr)).ph.toNat)

/-- The barrier objects and the yoke declarations complete where the object lies in the scratchpad, aligned and unpoisoned
(R249 to R253). -/
def Obligations.ObjectComplete : Prop :=
  let fits (x : Ix) (o : Nat) : Prop := o % 16 = 0 ∧ o + 16 ≤ x.tr.scratch
  let whole (x : Ix) (o : Nat) : Prop := fits x o ∧ mbPoison x.tr x.rank o = false
  let first (x : Ix) (a : Args) : Nat := (enabled x a).headD 0
  let tgt (v : State) (x : Ix) (a : Args) (r : Nat) : State := wr v x a.a 32 ((enabled x a).map fun l => (l, r))
  (∀ a s x, let t := drawn (.mbinit a) a s x
    let o := offVa t x a .disp (first x a)
    let c := srcI t x a 32 a.c (first x a)
    Issues (.mbinit a) a s x → fits x o → 1 ≤ c → c ≤ 65535 →
    exec (.mbinit a) s = .next (through (.mbinit a) (modTrain (settleX x t) x.ref.train fun tr => mbPut tr x.rank o ⟨0, 0, c, c, 0⟩) x a)) ∧
  (∀ sc u a s x, let t0 := drawn (.mbarr sc u a) a s x
    let t := countClamp t0 x.ctx sc
    let o := offVa t0 x a .disp (first x a)
    let b := mbGet x.tr x.rank o
    Issues (.mbarr sc u a) a s x → whole x o → b.init ≠ 0 → canRelease x sc t = true →
    exec (.mbarr sc u a) s = .next (through (.mbarr sc u a) (tgt (modMb (released x sc t) x.ref.train x.rank o fun b =>
      b.arrive (if u then 1 else (enabled x a).length)) x a b.ph) x a)) ∧
  (∀ sc a s x, let t := drawn (.mbexp sc false a) a s x
    let o := offVa t x a .disp (first x a)
    Issues (.mbexp sc false a) a s x → whole x o →
    exec (.mbexp sc false a) s = .next (through (.mbexp sc false a) (modMb (settleX x t) x.ref.train x.rank o fun b =>
      b.expect (srcI t x a 32 a.c (first x a))) x a)) ∧
  (∀ sc a s x, let t0 := drawn (.mbexp sc true a) a s x
    let t := countClamp t0 x.ctx sc
    let o := offVa t0 x a .disp (first x a)
    let b := mbGet x.tr x.rank o
    Issues (.mbexp sc true a) a s x → whole x o → b.init ≠ 0 → canRelease x sc t = true →
    exec (.mbexp sc true a) s = .next (through (.mbexp sc true a) (tgt (modMb (released x sc t) x.ref.train x.rank o fun b =>
      (b.expect (srcI t0 x a 32 a.c (first x a))).arrive 1) x a b.ph) x a)) ∧
  (∀ sc a s x, let t0 := drawn (.mbwait sc a) a s x
    let t := countClamp t0 x.ctx sc
    let o := offVa t0 x a .disp (first x a)
    Issues (.mbwait sc a) a s x → whole x o → phaseLeft t0 x a a.c 16 (mbGet x.tr x.rank o).ph (enabled x a) = true →
    acqMay true sc x t (acqStart true sc x t) → exec (.mbwait sc a) s = .next (through (.mbwait sc a) (acqStart true sc x t) x a)) ∧
  (∀ sc a s x, let t0 := drawn (.mbtry sc a) a s x
    let t := countClamp t0 x.ctx sc
    let o := offVa t0 x a .disp (first x a)
    let left (l : Nat) : Bool := phaseLeft t0 x a a.c 16 (mbGet x.tr x.rank o).ph [l]
    let res (v : State) : State := wr v x a.a 32 ((enabled x a).map fun l => (l, if left l then 1 else 0))
    let acq := (enabled x a).any left
    let u := res (acqStart acq sc x t)
    Issues (.mbtry sc a) a s x → whole x o → acqMay acq sc x t u → exec (.mbtry sc a) s = .next (through (.mbtry sc a) u x a)) ∧
  (∀ sc a s x, let t0 := drawn (.mbtw sc a) a s x
    let t := countClamp t0 x.ctx sc
    let o := offVa t0 x a .d (first x a)
    let left := phaseLeft t0 x a a.c 16 (mbGet x.tr x.rank o).ph (enabled x a)
    let due := x.fr.deadline.getD (t0.rtime + rtCap (srcI t0 x a 32 a.d (first x a)))
    Issues (.mbtw sc a) a s x → whole x o →
      (left = true → acqMay true sc x t (tgt (acqStart true sc x t) x a 1) →
        exec (.mbtw sc a) s = .next (through (.mbtw sc a) (tgt (acqStart true sc x t) x a 1) x a)) ∧
      (left = false → due ≤ t0.rtime → exec (.mbtw sc a) s = .next (through (.mbtw sc a) (tgt t x a 0) x a))) ∧
  (∀ a s x, let t := drawn (.yokeDecl a) a s x
    let n := yokeNo a.b
    let c := srcI t x a 32 a.c (first x a)
    Issues (.yokeDecl a) a s x → 1 ≤ c → c ≤ 4096 → (x.tr.yoke x.rank n).signed = [] →
    exec (.yokeDecl a) s = .next (through (.yokeDecl a) (modTrain t x.ref.train fun tr =>
      tr.setYoke x.rank n { tr.yoke x.rank n with count := c }) x a)) ∧
  (∀ a, Completes (.yokeRst a) a fun s x =>
    through (.yokeRst a) (modTrain (drawn (.yokeRst a) a s x) x.ref.train fun tr => tr.setYoke x.rank (yokeNo a.b) Yoke.init) x a)

/-- The copy and DMA instructions complete where their descriptor or list passes its checks, a slot is free and the release
can be performed (R257 to R281). -/
def Obligations.CopyComplete : Prop :=
  let first (x : Ix) (a : Args) : Nat := (enabled x a).headD 0
  let hand (i : Instr) (a : Args) (kinds : List Nat) (ok : State → Ix → Prop) (desc : State → Ix → Desc) : Prop :=
    ∀ s x k, let t := drawn i a s x
      let d := desc t x
      let sc : Scope := if d.globalLocal then .pt else .cl
      Issues i a s x → ok t x → d.check x.tr x.rank kinds = 0 → freeEngineSlot t x.core = some k →
      canRelease x sc t = true →
      exec i s = .next (through i (acceptWork (released x sc t) x.core k x.ref.train x.ctx x.rank (.copy d) none false) x a)
  let list (i : Instr) (a : Args) (xl : Bool) : Prop := ∀ s x k, let t := drawn i a s x
    let off := srcI t x a 32 a.b (first x a)
    let cnt := srcI t x a 32 a.c (first x a)
    let sc : Scope := if xl then .pt else .cl
    Issues i a s x → listCheck x.tr off cnt = 0 → freeEngineSlot t x.core = some k → canRelease x sc t = true →
    exec i s = .next (through i (acceptList (released x sc t) x.core k x.ref.train x.ctx x.rank off cnt xl) x a)
  let v (t : State) (x : Ix) (a : Args) (o : Operand) (wide : Bool) : Nat :=
    srcI t x a (if wide then 64 else 32) o (first x a)
  (∀ kind xe a, hand (.cpy kind xe a) a [0, 1, 2, 3, 4] (fun _ _ => True) fun t x =>
    Desc.simple (cpyCode kind) xe false false (nbits a.xmod.toNat 0 4) (v t x a a.a false) (v t x a a.d false)
      (v t x a a.c (kind = .s2g)) (v t x a a.b (kind = .g2s))) ∧
  (∀ xe a, hand (.cpyf xe a) a [0, 1, 2, 3, 4] (fun _ _ => True) fun t x =>
    Desc.simple 4 xe false false 0 (v t x a a.a false) (v t x a a.d false) (v t x a a.b false) (v t x a a.c false)) ∧
  (∀ a, hand (.cpyp a) a [0, 1, 2, 3, 4] (fun t x => let o := offVa t x a .disp (first x a)
      o % 16 = 0 ∧ o + 64 ≤ x.tr.scratch ∧ rangeBusy t x.core x.ref.train o 64 = false ∧
        (scrGet x.tr x.rank o 64).poison = false)
    fun t x => descOf (scrGet x.tr x.rank (offVa t x a .disp (first x a)) 64).bytes) ∧
  (∀ a, list (.cpyl a) a false) ∧ (∀ a, list (.xcpyl a) a true) ∧
  (∀ a, Completes (.cpyq a) a fun s x => sets (.cpyq a) a s x a.a 32 fun t _ => engineWord t x.core x.ref.train) ∧
  (∀ sc a s x, let t0 := drawn (.cpwait sc a) a s x
    let t := countClamp t0 x.ctx sc
    Issues (.cpwait sc a) a s x → mineSlots t0 x.core x.ref.train ≤ srcI t0 x a 32 a.c (first x a) →
    acqMay true sc x t (acqStart true sc x t) → exec (.cpwait sc a) s = .next (through (.cpwait sc a) (acqStart true sc x t) x a)) ∧
  (∀ dirIn ls xe kr a, hand (.xcpy dirIn ls xe kr a) a [5, 6] (fun _ _ => True) fun t x =>
    let loc := v t x a a.b (!ls)
    let rem := v t x a a.c true
    Desc.simple (if dirIn then 6 else 5) xe ls kr 0 (v t x a a.a false) (v t x a a.d false)
      (if dirIn then loc else rem) (if dirIn then rem else loc)) ∧
  (∀ a, Completes (.xstat a) a fun s x => sets (.xstat a) a s x a.a 32 fun t _ =>
    xstatVal t x.ctx (srcI t x a 32 a.b (first x a)))

/-- The Xdray instructions and WFI complete (R283, R285, R286): DCPY and DKICK accept their work or give the reason of the
check that fails; the barrier-object forms where the object is aligned, inside the allocation and initialised. In DFAULT_WRITE, that
the write-only CSR 0x7C0 reads as the free value Config.freeReg, as DCK of a poisoned cask does (log 6), and that csrrs and csrrc write what the Zicsr instructions of
the base architecture write (PRESUMED, log 10) are the model's choices, which R283 does not state. -/
def Obligations.XdrayComplete : Prop :=
  let free (x : Dx) (s : State) (o : Nat) : Prop := rangeBusy s x.core x.t o 64 = false
  let desc (x : Dx) (o : Nat) : Desc := descOf (scrGet x.tr x.rank o 64).bytes
  let left (x : Dx) (rs1 rs2 : BitVec 5) : Bool :=
    (mbGet x.tr x.rank (x.d.reg rs1).toNat).ph ≠ (x.d.reg rs2).toNat % 65536
  (∀ rd rs1 s x k, let o := (x.d.reg rs1).toNat
    DrayTurn s x → DrayFits x (x.d.reg rs1) 64 → free x s o → (desc x o).check x.tr x.rank [0, 1, 2, 3, 4] = 0 →
    freeEngineSlot s x.core = some k →
    exec (.dcpy rd rs1) s = .next (drayDone (acceptWork s x.core k x.t x.tr.ctx x.rank (.copy (desc x o)) none false) x
      (goRd 4 rd 0))) ∧
  (∀ rd rs1 s x, let o := (x.d.reg rs1).toNat
    let reason := (desc x o).check x.tr x.rank [0, 1, 2, 3, 4]
    DrayTurn s x → DrayFits x (x.d.reg rs1) 64 → free x s o → reason ≠ 0 →
    exec (.dcpy rd rs1) s = .next (drayDone s x (goRd 4 rd (w32 reason)))) ∧
  (∀ rd rs1 rs2 s x k, let off := (x.d.reg rs1).toNat
    let cnt := (x.d.reg rs2).toNat
    DrayTurn s x → listCheck x.tr off cnt = 0 → freeEngineSlot s x.core = some k →
    exec (.dkick rd rs1 rs2) s = .next (drayDone (acceptList s x.core k x.t x.tr.ctx x.rank off cnt false) x (goRd 4 rd 0))) ∧
  (∀ rd rs1 rs2 s x, let reason := listCheck x.tr (x.d.reg rs1).toNat (x.d.reg rs2).toNat
    DrayTurn s x → reason ≠ 0 → exec (.dkick rd rs1 rs2) s = .next (drayDone s x (goRd 4 rd (w32 reason)))) ∧
  (∀ rd, DrayCompletes (.dstat rd) (fun _ _ => True) fun s x => drayDone s x (goRd 4 rd (w32 (engineWord s x.core x.t)))) ∧
  (∀ hi draw rd rs1 s x k, let c := caskGet s x.cluster k
    let no := drayWaitNo s x (.cask x.cluster [(k, .full)])
    DrayTurn s x → caskIndex s x.tr.ctx x.cluster ((x.d.reg rs1).toNat % 256) = some k →
    needsMet s x.cluster [(k, .full)] = true → earlierCask s x.cluster no [(k, .full)] = false →
    let u := if draw then caskPut s x.cluster k c.draw else s
    (c.poison = false → exec (.dck hi draw rd rs1) s = .next (drayDone u x
      (goRd 4 rd (w32 (if hi then c.value.toNat / 2 ^ 32 else c.value.toNat))))) ∧
    (c.poison = true → exec (.dck hi draw rd rs1) s = .next (drayDone { u with fresh := u.fresh + 1 } x
      (goRd 4 rd (Config.freeReg u.fresh))))) ∧
  (∀ rd rs1, DrayCompletes (.darr rd rs1) (fun _ x => DrayFits x (x.d.reg rs1) 16 ∧
      (mbGet x.tr x.rank (x.d.reg rs1).toNat).init ≠ 0) fun s x =>
    drayDone (modMb s x.t x.rank (x.d.reg rs1).toNat fun b => b.arrive 1) x
      (goRd 4 rd (w32 (mbGet x.tr x.rank (x.d.reg rs1).toNat).ph))) ∧
  (∀ rd rs1 rs2, DrayCompletes (.dexp false rd rs1 rs2) (fun _ x => DrayFits x (x.d.reg rs1) 16) fun s x =>
    drayDone (modMb s x.t x.rank (x.d.reg rs1).toNat fun b => b.expect (x.d.reg rs2).toNat) x (goRd 4 rd 0)) ∧
  (∀ rd rs1 rs2, DrayCompletes (.dexp true rd rs1 rs2) (fun _ x => DrayFits x (x.d.reg rs1) 16 ∧
      (mbGet x.tr x.rank (x.d.reg rs1).toNat).init ≠ 0) fun s x =>
    drayDone (modMb s x.t x.rank (x.d.reg rs1).toNat fun b => (b.expect (x.d.reg rs2).toNat).arrive 1) x
      (goRd 4 rd (w32 (mbGet x.tr x.rank (x.d.reg rs1).toNat).ph))) ∧
  (∀ rs1 rs2, DrayCompletes (.dwait rs1 rs2) (fun _ x => DrayFits x (x.d.reg rs1) 16 ∧ left x rs1 rs2 = true) fun s x =>
    drayDone s x fun d => { d with pc := d.pc + 4 }) ∧
  (∀ rd rs1 rs2, DrayCompletes (.dtry rd rs1 rs2) (fun _ x => DrayFits x (x.d.reg rs1) 16) fun s x =>
    drayDone s x (goRd 4 rd (if left x rs1 rs2 then 1 else 0))) ∧
  (∀ k rd imm f, DrayCompletes (.dfaultWrite k rd imm f) (fun _ _ => True) fun s x =>
    let v : Word32 := if imm then f.setWidth 32 else x.d.reg f
    let t := if k ≠ .rw || rd ≠ 0 then { s with fresh := s.fresh + 1 } else s
    drayDone (match csrNew k (Config.freeReg s.fresh) v f with
      | some n => if n = 0 then t else trapQ t x.t (copyFaultReport t x.tr x.rank 13 0xFFFF n.toNat 0 3 7)
      | none => t) x (goRd 4 rd (Config.freeReg s.fresh))) ∧
  DrayCompletes .drayWfi (fun _ _ => True) fun s x => drayDone s x fun d => { d with pc := d.pc + 4, halted := true }

/-- The RV32IMC instructions of a dray complete (R283, R284; the base architecture is PRESUMED, log 10): arithmetic, jumps and
branches always, a load or store where its address is aligned and mapped, a CSR instruction where the CSR exists and,
when it writes, is writable; ECALL and EBREAK take their exception. -/
def Obligations.RvComplete : Prop :=
  let rv (i : Rv) (len : Nat) (f : Dx → Dray → Dray) : Prop :=
    DrayCompletes (.rv32imcInstruction i len) (fun _ _ => True) fun s x => drayDone s x (f x)
  (∀ len rd imm, rv (.lui rd imm) len fun _ => goRd len rd (imm ++ (0 : BitVec 12))) ∧
  (∀ len rd imm, rv (.auipc rd imm) len fun x => goRd len rd (x.d.pc + (imm ++ (0 : BitVec 12)))) ∧
  (∀ len rd off, rv (.jal rd off) len fun x d => { d.setReg rd (x.d.pc + w32 len) with pc := x.d.pc + off }) ∧
  (∀ len rd rs1 off, rv (.jalr rd rs1 off) len fun x d =>
    { d.setReg rd (x.d.pc + w32 len) with pc := (x.d.reg rs1 + off) &&& 0xFFFFFFFE#32 }) ∧
  (∀ len c rs1 rs2 off, rv (.branch c rs1 rs2 off) len fun x d =>
    { d with pc := if rvCond c (x.d.reg rs1) (x.d.reg rs2) then x.d.pc + off else x.d.pc + w32 len }) ∧
  (∀ len k rd rs1 imm, rv (.opImm k rd rs1 imm) len fun x => goRd len rd (rvAlu k (x.d.reg rs1) imm)) ∧
  (∀ len k rd rs1 rs2, rv (.op k rd rs1 rs2) len fun x => goRd len rd (rvAlu k (x.d.reg rs1) (x.d.reg rs2))) ∧
  (∀ len k rd rs1 rs2, rv (.mul k rd rs1 rs2) len fun x => goRd len rd (rvMul k (x.d.reg rs1) (x.d.reg rs2))) ∧
  (∀ len, rv .fence len fun x d => { d with pc := x.d.pc + w32 len }) ∧
  (∀ len, rv .mret len fun x d => { d with pc := x.d.mepc }) ∧
  (∀ len k rd rs1 off s x, let va := x.d.reg rs1 + off
    let give (bs : List Byte) : State := drayDone s x (goRd len rd (w32 (loadValue bs (rvLoadSx k))))
    DrayTurn s x → va.toNat % rvLoadBytes k = 0 →
    (∀ o, drayPlace va.toNat x.tr.scratch = .store o →
      exec (.rv32imcInstruction (.load k rd rs1 off) len) s = .next (give (memBytes x.d.store o (rvLoadBytes k)))) ∧
    (∀ o, drayPlace va.toNat x.tr.scratch = .priv o →
      exec (.rv32imcInstruction (.load k rd rs1 off) len) s = .next (give (memBytes x.d.priv o (rvLoadBytes k)))) ∧
    (∀ o, drayPlace va.toNat x.tr.scratch = .scr o → rangeBusy s x.core x.t o (rvLoadBytes k) = false →
      (scrGet x.tr x.rank o (rvLoadBytes k)).poison = false →
      exec (.rv32imcInstruction (.load k rd rs1 off) len) s = .next (give (scrGet x.tr x.rank o (rvLoadBytes k)).bytes))) ∧
  (∀ len k rs1 rs2 off s x, let va := x.d.reg rs1 + off
    let bs := leBytes (rvStoreBytes k) (x.d.reg rs2).toNat
    DrayTurn s x → va.toNat % rvStoreBytes k = 0 →
    (∀ o, drayPlace va.toNat x.tr.scratch = .priv o →
      exec (.rv32imcInstruction (.store k rs1 rs2 off) len) s =
        .next (drayDone s x fun d => { d with pc := d.pc + w32 len, priv := memPut d.priv o bs })) ∧
    (∀ o, drayPlace va.toNat x.tr.scratch = .scr o → rangeBusy s x.core x.t o (rvStoreBytes k) = false →
      exec (.rv32imcInstruction (.store k rs1 rs2 off) len) s =
        .next (drayDone (modTrain s x.t fun t => scrStore t x.rank o bs false []) x fun d => { d with pc := d.pc + w32 len }))) ∧
  (∀ len k rd num imm f s x old, let v : Word32 := if imm then f.setWidth 32 else x.d.reg f
    DrayTurn s x → csrRead s x num.toNat = some old →
    (∀ n, csrNew k (w32 old) v f = some n → csrWritable num.toNat = true →
      exec (.rv32imcInstruction (.csr k rd num imm f) len) s =
        .next (drayDone s x fun d => csrWrite num.toNat n (goRd 4 rd (w32 old) d))) ∧
    (csrNew k (w32 old) v f = none →
      exec (.rv32imcInstruction (.csr k rd num imm f) len) s = .next (drayDone s x fun d =>
        goRd 4 rd (w32 old) (if num.toNat = 0xFC2 then { d with drth := w32 (s.rtime / 2 ^ 32) } else d)))) ∧
  (∀ len, DrayCompletes (.rv32imcInstruction .ecall len) (fun _ _ => True) fun s x =>
    modDray s x.t x.key fun d => d.raise 11 0) ∧
  (∀ len, DrayCompletes (.rv32imcInstruction .ebreak len) (fun _ _ => True) fun s x =>
    modDray s x.t x.key fun d => d.raise 3 x.d.pc) ∧
  (∀ len w, DrayCompletes (.rv32imcInstruction (.illegal w) len) (fun _ _ => True) fun s x =>
    modDray s x.t x.key fun d => d.raise 2 w)

/-- MMA, MMAG and MMAW sign where the yoke collects this instruction and the signature passes the checks of R297: the yoke
holds the fibres' register values (R296), and the signature that reaches the declared count issues the MMA (R298). The tile
instructions complete where no MMA into their tiles is collected or waiting and the store fits the scratchpad (R301, R306 to
R310). -/
def Obligations.MatrixComplete : Prop :=
  let sign (i : Instr) (m : MmaMod) (a : Args) : Prop := ∀ s x,
    let t := drawn i a s x
    let y := x.tr.yoke x.rank (yokeNo a.d)
    let u := released x .cl t
    let z := signYoke i a x (enabled x a) u y
    Issues i a s x → signWaits x (enabled x a) y = false → signCheck t x a m (mmaForm i) y (enabled x a) = none →
    canRelease x .cl t = true →
    (z.signed.length = y.count → exec i s = .next (through i (mmaIssue u x i a m (mmaForm i) z) x a)) ∧
    (z.signed.length ≠ y.count → exec i s = .next (through i
      (modTrain u x.ref.train fun tr => tr.setYoke x.rank (yokeNo a.d) z) x a))
  let free (x : Ix) (received : Bool) (tiles : List Nat) : Prop :=
    ∀ n ∈ tiles, tileSigned x n (fun _ => true) = false ∧ (received = true → tilePending x n = false)
  let tile (i : Instr) (a : Args) (received : Bool) (tiles : List Nat) (f : State → Ix → State) : Prop := ∀ s x,
    Issues i a s x → free x received tiles → exec i s = .next (through i (f (settleX x (drawn i a s x)) x) x a)
  let at_ (i : Instr) (a : Args) (n : Nat) (f : State → Ix → Nat → State) : Prop := ∀ s x,
    let o := offVa (drawn i a s x) x a .disp ((enabled x a).headD 0)
    Issues i a s x → o % 16 = 0 → o + n ≤ x.tr.scratch → rangeBusy (drawn i a s x) x.core x.ref.train o n = false →
    free x true [tileNo a.a] → exec i s = .next (through i (f (settleX x (drawn i a s x)) x o) x a)
  (∀ m a, sign (.mma m a) m a) ∧ (∀ m a, sign (.mmag m a) m a) ∧ (∀ m g a, sign (.mmaw m g a) m a) ∧
  (∀ a, tile (.aclr a) a true [tileNo a.a] fun s x => putTile s x (tileNo a.a) fun _ _ => (0, false)) ∧
  (∀ a, tile (.amov a) a true [tileNo a.a, tileNo a.b] fun s x => putTile s x (tileNo a.a) fun t i =>
    (tileGet t x.rank (tileNo a.b) i, tileBad t x.rank (tileNo a.b) i)) ∧
  (∀ int a, tile (.aadd int a) a true [tileNo a.a, tileNo a.b] fun s x => putTile s x (tileNo a.a) fun t i =>
    (aaddVal int (tileGet t x.rank (tileNo a.a) i) (tileGet t x.rank (tileNo a.b) i),
     tileBad t x.rank (tileNo a.a) i || tileBad t x.rank (tileNo a.b) i)) ∧
  (∀ a, tile (.adrop a) a false [tileNo a.a] fun s x =>
    modTrain (putTile s x (tileNo a.a) fun _ _ => (0, false)) x.ref.train fun t => { t with
      mmas := mput [] t.mmas x.rank ((mgetD t.mmas x.rank []).map fun r =>
        if r.tile = tileNo a.a then { r with drop := true } else r) }) ∧
  (∀ a, tile (.mscl a) a true [tileNo a.a] fun s x =>
    putTile s x (tileNo a.a) fun t i =>
      (msclVal ((enabled x a).map fun l => (l, fval .fp32 (srcI s x a 32 a.b l))) i (tileGet t x.rank (tileNo a.a) i),
       tileBad t x.rank (tileNo a.a) i)) ∧
  (∀ a s x, let t := drawn (.await a) a s x
    let tiles := match a.a with | .tile n => [n.toNat] | _ => List.range x.tr.acc
    Issues (.await a) a s x →
    (∀ n ∈ tiles, tileSigned x n (fun f => (fidsOf x (enabled x a)).contains f) = false ∧ tilePending x n = false) →
    acqMay true .cl x t (acqStart true .cl x t) → exec (.await a) s = .next (through (.await a) (acqStart true .cl x t) x a)) ∧
  (∀ a, at_ (.ald a) a 3072 fun s x o => putTile s x (tileNo a.a) fun t i =>
    (BitVec.ofNat 96 (leVal (scrGet t x.rank (o + 12 * i) 12).bytes), (scrGet t x.rank (o + 12 * i) 12).poison)) ∧
  (∀ a, at_ (.ast a) a 3072 fun s x o => tileStore s x (enabled x a) ((List.range 256).map fun i =>
    (o + 12 * i, leBytes 12 (tileGet x.tr x.rank (tileNo a.a) i).toNat, tileBad x.tr x.rank (tileNo a.a) i))) ∧
  (∀ df int rm sat a, at_ (.acvt df int rm sat a) a (32 * acvtBits df int) fun s x o =>
    let w := acvtBits df int
    let d := if rm = .sr then drawWords 256 x.co.gen else ([], x.co.gen)
    let v (i : Nat) : Nat := acvtVal df int rm sat (d.1.getD i 0) (tileGet x.tr x.rank (tileNo a.a) i)
    let bad (i : Nat) : Bool := tileBad x.tr x.rank (tileNo a.a) i
    tileStore (modCoach s x.ref.train x.ref.coach fun co => { co with gen := d.2 }) x (enabled x a)
      (if w = 4 then (List.range 128).map fun j => (o + j, leBytes 1 (v (2 * j) + 16 * v (2 * j + 1)), bad (2 * j) || bad (2 * j + 1))
       else (List.range 256).map fun i => (o + w / 8 * i, leBytes (w / 8) (v i), bad i)))

/-- ENQ, ENQT, SPAWN and CFILL read their card and answer its status, or, when it is accepted, put it into a place of the
queue after the release (R326, R343, R344, R350); an ENQT whose time is over answers 1. QPUB.rsv, QPUB, QCLAIM and QSTAT
complete (R345, R346). -/
def Obligations.QueueComplete : Prop :=
  let first (x : Ix) (a : Args) : Nat := (enabled x a).headD 0
  let enq (i : Instr) (a : Args) (offer : Ix → Offer) : Prop := ∀ s x bs u,
    let t := drawn i a s x
    let q := srcI t x a 32 a.b (first x a)
    let st := cardStatus u x.ctx q (offer x) (cardOf bs)
    Issues i a s x → cardRead x (srcI t x a 64 a.c (first x a)) t = some (bs, u) →
    (st ≠ 0 → exec i s = .next (through i (gave x a st u) x a)) ∧
    (∀ p, st = 0 → turnPlace u q (offer x).depth (waitNo u x (.queue q (offer x).depth)) = some p →
      canRelease x (levelScope x.ctx) u = true →
      exec i s = .next (through i (gave x a 0
        (acceptCard (released x (levelScope x.ctx) u) q p x.ctx (offer x) (cardOf bs) bs)) x a))
  (∀ a, enq (.enq a) a fun _ => .launch) ∧ (∀ a, enq (.enqt a) a fun _ => .launch) ∧
  (∀ a, enq (.spawn a) a fun x => .spawn x.tr.nest) ∧ (∀ a, enq (.cfill a) a fun _ => .fill) ∧
  (∀ a s x bs u, let t := drawn (.enqt a) a s x
    let q := srcI t x a 32 a.b (first x a)
    Issues (.enqt a) a s x → cardRead x (srcI t x a 64 a.c (first x a)) t = some (bs, u) →
    cardStatus u x.ctx q .launch (cardOf bs) = 0 → turnPlace u q 0 (waitNo u x (.queue q 0)) = none →
    x.fr.deadline.getD (u.rtime + rtCap (srcI u x a 32 a.d (first x a))) ≤ u.rtime →
    exec (.enqt a) s = .next (through (.enqt a) (gave x a 1 u) x a)) ∧
  (∀ a, Completes (.qpubRsv a) a fun s x =>
    let t := drawn (.qpubRsv a) a s x
    let n := srcI t x a 32 a.b (first x a)
    let q := t.queue n
    through (.qpubRsv a) (if noSlot t x.ctx n then gave x a 0xFFFFFFFF t
      else gave x a (q.tail.toNat % q.cap) (setQueue t n { q with
        ring := mset q.ring q.tail.toNat ⟨cardOf [], x.ctx, .reserved x.ref.train, 0, 0, 0⟩, tail := q.tail + 1 })) x a) ∧
  (∀ a s x i bs, let t := drawn (.qpub a) a s x
    let n := srcI t x a 32 a.b (first x a)
    let u := released x (levelScope x.ctx) t
    let st := cardStatus u x.ctx n .launch (cardOf bs)
    Issues (.qpub a) a s x → slotOf t x n (srcI t x a 32 a.c (first x a)) = some i →
    canRelease x (levelScope x.ctx) t = true → ringCard u n i = some bs →
    (st = 0 → exec (.qpub a) s = .next (through (.qpub a) (gave x a 0 (acceptCard u n (.ring i) x.ctx .launch (cardOf bs) bs)) x a)) ∧
    (st ≠ 0 → exec (.qpub a) s = .next (through (.qpub a) (gave x a st (cardGone u n (.ring i))) x a))) ∧
  (∀ a s x, let t := drawn (.qpub a) a s x
    let n := srcI t x a 32 a.b (first x a)
    Issues (.qpub a) a s x → slotOf t x n (srcI t x a 32 a.c (first x a)) = none →
    exec (.qpub a) s = .next (through (.qpub a) (gave x a 2 t) x a)) ∧
  (∀ a, Completes (.qclaim a) a fun s x =>
    let t := drawn (.qclaim a) a s x
    let r := match ownCard t x.tr with
      | some p => claimCard t x.tr.queue.toNat p
      | none => (none, t)
    through (.qclaim a) (match r.1 with
      | some c => wr (modTrain r.2 x.ref.train fun tr => { tr with claimed := tr.claimed + c.count }) x a.a 64
          ((enabled x a).map fun l => (l, (if c.count = 0 then 0 else c.first) + 2 ^ 32 * c.count))
      | none => wr r.2 x a.a 64 ((enabled x a).map fun l => (l, 0))) x a) ∧
  (∀ a, Completes (.qstat a) a fun s x =>
    let t := drawn (.qstat a) a s x
    through (.qstat a) (wr t x a.a 64 ((enabled x a).map fun l => (l, queueState t x.ctx (srcI t x a 32 a.b (first x a))))) x a)

/-- SJOIN and LVWAIT complete when the level's COUNT is 0, SJOIN of an invalid level at once, LVWAIT.t when its time is over;
LVRD, LVINC inside the range of COUNT, CANCEL and CANCEL.clr complete (R318, R319, R347 to R349). -/
def Obligations.LevelComplete : Prop :=
  let first (x : Ix) (a : Args) : Nat := (enabled x a).headD 0
  let level (t : State) (x : Ix) (a : Args) : Nat := srcI t x a 32 a.b (first x a)
  let zero (t : State) (x : Ix) (a : Args) : Prop := (levelGet t x.ctx (level t x a)).count = 0
  (∀ a s x, let t := drawn (.sjoin a) a s x
    Issues (.sjoin a) a s x →
    (levelValid t x.ctx (level t x a) = false → exec (.sjoin a) s = .next (through (.sjoin a) t x a)) ∧
    (levelValid t x.ctx (level t x a) = true → zero t x a → acqMay true .pt x t (acqStart true .pt x t) →
      exec (.sjoin a) s = .next (through (.sjoin a) (acqStart true .pt x t) x a))) ∧
  (∀ a s x, let t := drawn (.lvwait false a) a s x
    let u := gave x a 1 (acqStart true .pt x t)
    Issues (.lvwait false a) a s x → zero t x a → acqMay true .pt x t u →
    exec (.lvwait false a) s = .next (through (.lvwait false a) u x a)) ∧
  (∀ a s x, let t0 := drawn (.lvwait true a) a s x
    let t := countClamp t0 x.ctx .pt
    let u := gave x a 1 (acqStart true .pt x t)
    let due := x.fr.deadline.getD (t0.rtime + rtCap (srcI t0 x a 32 a.c (first x a)))
    Issues (.lvwait true a) a s x →
    (zero t0 x a → acqMay true .pt x t u → exec (.lvwait true a) s = .next (through (.lvwait true a) u x a)) ∧
    (¬ zero t0 x a → due ≤ t0.rtime → exec (.lvwait true a) s = .next (through (.lvwait true a) (gave x a 0 t) x a))) ∧
  (∀ st a, Completes (.lvrd st a) a fun s x =>
    let t := drawn (.lvrd st a) a s x
    let l := levelGet t x.ctx (level t x a)
    through (.lvrd st a) (gave x a (if st then levelStatus l else l.count.toNat) t) x a) ∧
  (∀ a s x v, let t := drawn (.lvinc a) a s x
    let id := level t x a
    let d := (w32 (srcI t x a 32 a.c (first x a))).toInt
    let u := released x (levelScope x.ctx) t
    Issues (.lvinc a) a s x → d ≠ 0 → (levelAdd x.ctx levelFuel t id d none).isSome = true →
    canRelease x (levelScope x.ctx) t = true → levelAdd x.ctx levelFuel u id d none = some v →
    exec (.lvinc a) s = .next (through (.lvinc a) (gave x a (levelGet u x.ctx id).count.toNat v) x a)) ∧
  (∀ a s x, let t := drawn (.lvinc a) a s x
    let u := released x (levelScope x.ctx) t
    Issues (.lvinc a) a s x → w32 (srcI t x a 32 a.c (first x a)) = 0 → canRelease x (levelScope x.ctx) t = true →
    exec (.lvinc a) s = .next (through (.lvinc a) (gave x a (levelGet u x.ctx (level t x a)).count.toNat u) x a)) ∧
  (∀ a, Completes (.cancel a) a fun s x =>
    let t := drawn (.cancel a) a s x
    let r := putCancel t x.ctx (level t x a) true
    through (.cancel a) (gave x a (if r.1 then 1 else 0) r.2) x a) ∧
  (∀ a, Completes (.cancelClr a) a fun s x =>
    let t := drawn (.cancelClr a) a s x
    let r := putCancel t x.ctx (level t x a) false
    through (.cancelClr a) (gave x a (if r.1 then 1 else 0) r.2) x a)

/-- The instructions of class 0xC that act on a child release first (R389); then a number that is no child of the issuer
gives NOCTX, a child on which an operation is outstanding BUSY (R388), and any other child the operation: CTX.GRANT,
CTX.REVOKE, CTX.RUN, CTX.STOP, CTX.BUDGET and CTX.REFLECT, each with its status and effect (R386 to R390); a CTX.GRANT of
memory once no other key holds the map image of the child (R362). CTX.NEW and
CTX.REFLECT.up complete likewise. -/
def Obligations.ContextComplete : Prop :=
  let first (x : Ix) (a : Args) : Nat := (enabled x a).headD 0
  let adr (u : State) (x : Ix) (a : Args) (o : Operand) : Nat := addrOp u x a o (enabled x a)
  let answer (x : Ix) (a : Args) (r : CtxRes) : State := gave x a r.1 r.2
  let child (i : Instr) (a : Args) (f : State → Ix → Nat → Option State) : Prop := ∀ s x,
    let t := drawn i a s x
    let u := released x (levelScope x.ctx) t
    let c := ctxOperand u x a a.b (enabled x a)
    Issues i a s x → canRelease x (levelScope x.ctx) t = true →
    (isChild u x.ctx c = false → exec i s = .next (through i (gave x a eNOCTX u) x a)) ∧
    (isChild u x.ctx c = true → ctxBusy u c = true → exec i s = .next (through i (gave x a eBUSY u) x a)) ∧
    (isChild u x.ctx c = true → ctxBusy u c = false → ∀ v, f u x c = some v → exec i s = .next (through i v x a))
  let staying (u : State) (c : Nat) (v : Option State) : Option State := if (u.ctx c).st = .migrating then none else v
  let stop (i : Instr) (a : Args) (kind : OpKind) : Prop :=
    child i a fun u x c => staying u c (some (answer x a (ctxStop u x.ctx c kind)))
  let reflect (u : State) (x : Ix) (a : Args) (tgt : Nat) : Option State :=
    (structRead x (adr u x a a.c) 64 u).map fun r =>
      if reportRsvd r.1 then gave x a eFORMAT r.2
      else gave x a 0 (sendReport r.2 tgt { reportOf r.1 with reflected := true })
  (∀ a s x bs v, let t := drawn (.ctxNew a) a s x
    let u := released x (levelScope x.ctx) t
    Issues (.ctxNew a) a s x → canRelease x (levelScope x.ctx) t = true →
    structRead x (adr u x a a.b) 64 u = some (bs, v) →
    exec (.ctxNew a) s = .next (through (.ctxNew a) (answer x a (ctxNew v x.ctx bs)) x a)) ∧
  (∀ a, child (.ctxGrant a) a fun u x c => (structRead x (adr u x a a.c) 32 u).bind fun r =>
    let q := ctxGrant r.2 x.ctx c r.1
    if (q.2.ctx c).gmap ≠ (r.2.ctx c).gmap && mapStuck r.2 c then none else some (answer x a q)) ∧
  (∀ drain a, a.c = .zero → child (.ctxRevoke drain a) a fun u x c =>
    staying u c (some (answer x a (ctxRevoke u x.ctx c drain none)))) ∧
  (∀ drain a, a.c ≠ .zero → child (.ctxRevoke drain a) a fun u x c =>
    staying u c ((structRead x (adr u x a a.c) 32 u).map fun r => answer x a (ctxRevoke r.2 x.ctx c drain (some r.1)))) ∧
  (∀ a, child (.ctxRun a) a fun u x c => some (answer x a
    (ctxRun u c (adr u x a a.c) (srcI u x a 32 a.d (first x a) % 65536)))) ∧
  (∀ a, stop (.ctxStopNow a) a .stopNow) ∧ (∀ a, stop (.ctxStopDrain a) a .stopDrain) ∧
  (∀ a, stop (.ctxStopReset a) a .stopReset) ∧
  (∀ a, child (.ctxBudget a) a fun u x c => (structRead x (adr u x a a.c) 48 u).map fun r =>
    answer x a (ctxBudget r.2 x.ctx c r.1)) ∧
  (∀ a, child (.ctxBudgetRd a) a fun u x c =>
    (structWrite x ((adr u x a a.c + 4) % 2 ^ 64) (budgetBytes (u.ctx c)) u).map fun v => gave x a 0 v) ∧
  (∀ a, child (.ctxReflectMask a) a fun u x c => some (gave x a 0
    (modCtx u c fun y => { y with reflect := w32 (srcI u x a 32 a.c (first x a)) }))) ∧
  (∀ a, child (.ctxReflectDown a) a fun u x c => reflect u x a c) ∧
  (∀ a s x, let t := drawn (.ctxReflectUp a) a s x
    let u := released x (levelScope x.ctx) t
    Issues (.ctxReflectUp a) a s x → canRelease x (levelScope x.ctx) t = true →
    (x.ctx = 0 → exec (.ctxReflectUp a) s = .next (through (.ctxReflectUp a) (gave x a eNOCTX u) x a)) ∧
    (x.ctx ≠ 0 → ∀ v, reflect u x a (u.ctx x.ctx).parent = some v →
      exec (.ctxReflectUp a) s = .next (through (.ctxReflectUp a) v x a))) ∧
  (∀ a s x, let t := drawn (.ctxReflectRet a) a s x
    let u := released x (levelScope x.ctx) t
    let c := ctxOperand u x a a.b (enabled x a)
    let ret (u : State) (c : Nat) : State :=
      answer x a (answerCall u c (srcI u x a 32 a.c (first x a)) (w64 (adr u x a a.d)))
    Issues (.ctxReflectRet a) a s x →
    (x.ctx = 0 → srcI t x a 32 a.b (first x a) % 4096 = 0xFFF → canRelease x .sy t = true →
      exec (.ctxReflectRet a) s = .next (through (.ctxReflectRet a) (ret (released x .sy t) 0) x a)) ∧
    ((x.ctx ≠ 0 ∨ srcI t x a 32 a.b (first x a) % 4096 ≠ 0xFFF) → canRelease x (levelScope x.ctx) t = true →
      isChild u x.ctx c = true → ctxBusy u c = false →
      exec (.ctxReflectRet a) s = .next (through (.ctxReflectRet a) (ret u c) x a)))

/-- GATE.NEW, GATE.NEW.del and GATE.ACL release and answer their status (R378, R388, R391); GPOST, after the accesses before
it, posts or answers why not (R380); GTAKE takes the oldest value, or answers none where it has no right, or, with a limit,
when its time is over (R381, R383); GPEEK reads the state (R392). That GATE.NEW.del answers the identifier of the gate, and that a
take which waited on a gate that has been deleted answers none with nothing counted, are the model's choices (log 65). -/
def Obligations.GateComplete : Prop :=
  let first (x : Ix) (a : Args) : Nat := (enabled x a).headD 0
  let gate (t : State) (x : Ix) (a : Args) : Nat := gateOp t x a (enabled x a)
  let took (x : Ix) (a : Args) (pd : BitVec 4) (v : Option Word64) (t : State) : State :=
    wrPred (wr t x a.a 64 ((enabled x a).map fun l => (l, (v.getD 0).toNat))) x pd ((enabled x a).map fun l => (l, v.isSome))
  (∀ a s x bs v, let t := drawn (.gateNew a) a s x
    let u := released x (levelScope x.ctx) t
    let r := gateNew v x.ctx (gate v x a) bs
    Issues (.gateNew a) a s x → canRelease x (levelScope x.ctx) t = true →
    structRead x (addrOp u x a a.c (enabled x a)) 32 u = some (bs, v) →
    exec (.gateNew a) s = .next (through (.gateNew a) (gave x a r.1 r.2) x a)) ∧
  (∀ a s x, let t := drawn (.gateNewDel a) a s x
    let u := released x (levelScope x.ctx) t
    Issues (.gateNewDel a) a s x → canRelease x (levelScope x.ctx) t = true →
    exec (.gateNewDel a) s = .next (through (.gateNewDel a) (if (ownGate u x.ctx (gate u x a)).isNone then gave x a eGATE u
      else gave x a (gate u x a) (gatesGone { u with gates := mdel u.gates (gate u x a) } (· = gate u x a))) x a)) ∧
  (∀ post take a s x, let t := drawn (.gateAcl post take a) a s x
    let u := released x (levelScope x.ctx) t
    let r := gateAcl u x.ctx (gate u x a) (ctxOperand u x a a.c (enabled x a)) post take
    Issues (.gateAcl post take a) a s x → canRelease x (levelScope x.ctx) t = true →
    exec (.gateAcl post take a) s = .next (through (.gateAcl post take a) (gave x a r.1 r.2) x a)) ∧
  (∀ pd a s x, let t := settleX x (drawn (.gpost pd a) a s x)
    let g := gate (drawn (.gpost pd a) a s x) x a
    let u := match mget t.gates g with
      | some k => releaseWindow t x.cluster k
      | none => t
    let r := postGate u x g (w64 (addrOp (drawn (.gpost pd a) a s x) x a a.c (enabled x a))) (enabled x a)
    Issues (.gpost pd a) a s x → settled t x.ref.train x.ref.coach = true →
    exec (.gpost pd a) s = .next (through (.gpost pd a) (gave x a r.1
      (wrPred r.2 x pd ((enabled x a).map fun l => (l, decide (r.1 = 0))))) x a)) ∧
  (∀ lim pd a s x, let t := drawn (.gtake lim pd a) a s x
    let g := gate t x a
    Issues (.gtake lim pd a) a s x →
    (tookGone x = true → exec (.gtake lim pd a) s = .next (through (.gtake lim pd a) (took x a pd none t) x a)) ∧
    (tookGone x = false → mget t.gates g = none → exec (.gtake lim pd a) s = .next (through (.gtake lim pd a)
      (took x a pd none (denyGate t x g 1 (enabled x a))) x a)) ∧
    (∀ k, tookGone x = false → mget t.gates g = some k → k.mayTake x.ctx = false → exec (.gtake lim pd a) s = .next (through (.gtake lim pd a)
      (took x a pd none (denyGate t x g 1 (enabled x a))) x a)) ∧
    (∀ k v rest, tookGone x = false → mget t.gates g = some k → k.mayTake x.ctx = true → k.values = v :: rest → k.frozen = false →
      earlierTaker t g (waitNo t x (.gate g)) = false → exec (.gtake lim pd a) s = .next (through (.gtake lim pd a)
        (took x a pd (some v) (acquireWindow { t with gates := mset t.gates g { k with values := rest } } x.cluster k)) x a)) ∧
    (∀ k, lim = true → tookGone x = false → mget t.gates g = some k → k.mayTake x.ctx = true →
      x.fr.deadline.getD (t.rtime + rtCap (srcI t x a 32 a.c (first x a))) ≤ t.rtime →
      (k.values = [] ∨ k.frozen = true ∨ earlierTaker t g (waitNo t x (.gate g)) = true) →
      exec (.gtake lim pd a) s = .next (through (.gtake lim pd a) (took x a pd none t) x a))) ∧
  (∀ a s x, let t := drawn (.gpeek a) a s x
    let g := gate t x a
    Issues (.gpeek a) a s x →
    (∀ k, mget t.gates g = some k → (k.mayPost x.ctx || k.mayTake x.ctx) = true →
      exec (.gpeek a) s = .next (through (.gpeek a) (gave x a (gateWord t k x.ctx) t) x a)) ∧
    ((∀ k, mget t.gates g = some k → (k.mayPost x.ctx || k.mayTake x.ctx) = false) →
      exec (.gpeek a) s = .next (through (.gpeek a) (gave x a 0 (denyGate t x g 2 (enabled x a))) x a)))

/-- TLBI, REPLAY and REPLAY.all complete for a context of the issuer's subtree, and trap CTX_DENIED for any other (R393,
R394); HCALL
writes its report once and waits, and in the first turn after its answer has come its lanes have the answer and go on (R395). -/
def Obligations.ReplayComplete : Prop :=
  let mine (t : State) (x : Ix) (c : Nat) : Bool := inSubtree t x.ctx c && t.hasCtx c
  let denied (i : Instr) (s : State) (x : Ix) : Prop := exec i s = .next (trapB s x (trapOf cCTX_DENIED) (encodeVamer i))
  (∀ a s x, let t := drawn (.tlbi a) a s x
    let c := ctxOperand t x a a.d (enabled x a)
    let n := srcI t x a 32 a.c ((enabled x a).headD 0)
    let u := settleCtx (dropPages (released x .pt t) c (addrOp t x a a.b (enabled x a)) n) c
    Issues (.tlbi a) a s x →
    (mine t x c = false → denied (.tlbi a) s x) ∧
    (mine t x c = true → canRelease x .pt t = true → ctxSettled u c = true →
      exec (.tlbi a) s = .next (through (.tlbi a) u x a))) ∧
  (∀ a s x bs u, let t := drawn (.replay a) a s x
    let r := reportOf bs
    Issues (.replay a) a s x → structRead x (addrOp t x a a.b (enabled x a)) 64 t = some (bs, u) →
    (mine u x r.origin.toNat = false → denied (.replay a) s x) ∧
    (mine u x r.origin.toNat = true → exec (.replay a) s = .next (through (.replay a) (replayReport u r) x a))) ∧
  (∀ a s x, let t := drawn (.replayAll a) a s x
    let c := ctxOperand t x a a.b (enabled x a)
    Issues (.replayAll a) a s x →
    (mine t x c = false → denied (.replayAll a) s x) ∧
    (mine t x c = true → exec (.replayAll a) s = .next (through (.replayAll a) (replayAll t c) x a))) ∧
  (∀ a s x, let t := drawn (.hcall a) a s x
    let n := (t.ctx x.ctx).hcallSeq
    let u := modFrag (modCtx t x.ctx fun y => { y with hcallSeq := n + 1 }) x.ref fun f =>
      { f with hcall := some ⟨n, a.a, maskOf (enabled x a), encodeVamer (.hcall a)⟩, wait := none, age := 0 }
    Issues (.hcall a) a s x → exec (.hcall a) s = .next (noteIssue
      (sendReport u (parentOf u x.ctx) { reportFrag u x x.fr.pc (maskOf (enabled x a)) x.ref.frag with
        ty := 4, code := BitVec.ofNat 16 (srcI u x a 32 a.b ((enabled x a).headD 0))
        aux := w64 (addrOp u x a a.c (enabled x a)), seq := w32 n }) x (.hcall a) a a.yld)) ∧
  (∀ s x h v, ixOf s x.ref = some x → mayIssue s x = true → x.fr.bar = none → x.fr.hcall = some h →
    mget (s.ctx x.ctx).answers h.seq = some v →
    fetchFrag s x.ref = .moved (finish (modCtx (wr s x h.dst 64 ((lanesOf h.lanes).map fun l => (l, v.toNat))) x.ctx
      fun y => { y with answers := mdel y.answers h.seq }) x h.word [] none id))

/-- TRAP, BKPT, the zero word, the word of ones and every unassigned opcode take their trap (R39, R55, R397, R431): TRAP and
BKPT after they have issued, as kind A, the others in their place, as kind B. TRET of a fragment made of its frame's lanes
returns (R406). ASSERT goes on where no lane fails it; where one does it completes and the context stops (R411). -/
def Obligations.TrapComplete : Prop :=
  let first (x : Ix) (a : Args) : Nat := (enabled x a).headD 0
  let word (i : Instr) (t : Trap) : Prop := ∀ s x r, s.cur = some (.frag r) → ixOf s r = some x →
    exec i s = .next (trapB s x t (encodeVamer i))
  let after (i : Instr) (a : Args) (tr : State → Ix → Trap) : Prop := ∀ s x, let t := drawn i a s x
    Issues i a s x → lacksFrame t x (some (tr t x)) = false → exec i s = .next (noteIssue
      (takeTrap (onwardAt t x (x.fr.pc + 12) id) { x.ref with frag := lowest x.fr.mask } (tr t x) false x.fr.pc (encodeVamer i))
      x i a a.yld)
  (∀ w, encodeVamer (.ztrap w) = w ∧ word (.ztrap w) (trapOf cZERO_WORD)) ∧
  (∀ w, encodeVamer (.onesWord w) = w ∧ word (.onesWord w) (trapOf cONES_WORD)) ∧
  (∀ w, encodeVamer (.unassignedOpc w) = w ∧ word (.unassignedOpc w) ((trapOf cILLEGAL).onField .opc)) ∧
  (∀ a, after (.trap a) a fun t x =>
    let n := srcI t x a 32 a.c (first x a) % 256
    { trapOf (0x0B00 + n) with d0 := w64 n }) ∧
  (∀ a, after (.bkpt a) a fun _ _ => trapOf cBKPT) ∧
  (∀ a s x, Issues (.tret a) a s x → returns x = true →
    exec (.tret a) s = .next (noteIssue (trapReturn (drawn (.tret a) a s x) x (encodeVamer (.tret a))) x (.tret a) a a.yld)) ∧
  (∀ a s x, let t := drawn (.assert a) a s x
    let bad := (enabled x a).filter fun l => srcI t x a 32 a.b l = 0
    let r := { reportFrag t x x.fr.pc (maskOf bad) x.ref.frag with
      code := BitVec.ofNat 16 cASSERT, aux := w64 (srcI t x a 64 a.c (bad.headD 0)) }
    Issues (.assert a) a s x →
    (bad = [] → exec (.assert a) s = .next (through (.assert a) t x a)) ∧
    (bad ≠ [] → (through (.assert a) t x a).stalled = false → exec (.assert a) s = .next (assertStop (through (.assert a) t x a) x.ctx r)))

/-- TFRD and TFWR read and write the words of the fragment's frame at aligned offsets inside it (R403); FBPOP takes the
oldest entry of a fault buffer, or answers all ones where there is none, and FBSTAT reads one, for a context of the
issuer's subtree (R412); what they change is written again to the buffer's image (saveBufs, R414). -/
def Obligations.FrameComplete : Prop :=
  let first (x : Ix) (a : Args) : Nat := (enabled x a).headD 0
  let mine (t : State) (x : Ix) (c : Nat) : Bool := inSubtree t x.ctx c && t.hasCtx c
  let inside (t : State) (x : Ix) (a : Args) : Prop :=
    ∀ l ∈ enabled x a, srcI t x a 32 a.b l % 4 = 0 ∧ srcI t x a 32 a.b l < 1024
  (∀ a s x slot f, let t := drawn (.tfrd a) a s x
    Issues (.tfrd a) a s x → x.co.frameOf x.fr.mask = some (slot, f) → inside t x a →
    exec (.tfrd a) s = .next (through (.tfrd a)
      (wr t x a.a 32 ((enabled x a).map fun l => (l, frameWord f (srcI t x a 32 a.b l)))) x a)) ∧
  (∀ a s x slot f, let t := drawn (.tfwr a) a s x
    let g := (enabled x a).foldl (fun f l => setFrameWord f (srcI t x a 32 a.b l) (srcI t x a 32 a.c l)) f
    Issues (.tfwr a) a s x → x.co.frameOf x.fr.mask = some (slot, f) → inside t x a →
    exec (.tfwr a) s = .next (through (.tfwr a)
      (modCoach t x.ref.train x.ref.coach fun co => { co with frames := mset co.frames slot g }) x a)) ∧
  (∀ a s x, let t := drawn (.fbpop a) a s x
    let c := ctxOperand t x a a.b (enabled x a)
    let n := srcI t x a 32 a.c (first x a)
    let d := addrOp t x a a.d (enabled x a)
    Issues (.fbpop a) a s x → mine t x c = true → d % 64 = 0 →
    (∀ b e rest u, (t.ctx c).bufs[n]? = some b → b.entries = e :: rest →
      structWrite x d (poppedEntry t c n e).bytes t = some u → exec (.fbpop a) s = .next (through (.fbpop a) (gave x a rest.length
        (saveBufs (modCtx u c fun y => { y with bufs := y.bufs.set n { b with entries := rest } }) c)) x a)) ∧
    ((∀ b, (t.ctx c).bufs[n]? = some b → b.entries = []) →
      exec (.fbpop a) s = .next (through (.fbpop a) (gave x a 0xFFFFFFFF t) x a))) ∧
  (∀ clr a s x, let t := drawn (.fbstat clr a) a s x
    let c := ctxOperand t x a a.b (enabled x a)
    let n := srcI t x a 32 a.c (first x a)
    Issues (.fbstat clr a) a s x → mine t x c = true →
    (∀ b, (t.ctx c).bufs[n]? = some b → exec (.fbstat clr a) s = .next (through (.fbstat clr a) (gave x a (bufWord b)
      (if clr then saveBufs (modCtx t c fun y => { y with bufs := y.bufs.set n { b with dropped := false, drops := 0 } }) c
        else t)) x a)) ∧
    ((t.ctx c).bufs[n]? = none → exec (.fbstat clr a) s = .next (through (.fbstat clr a) (gave x a 0 t) x a)))

/-- SRD and SWR of a register that the selector names for a context of the issuer's subtree, whose writer the issuer is and
in whose range the value lies; any other selector or writer traps CTX_DENIED (R419 to R422). That STEP of another context
reads 0 is the model's choice (log 68). MARK and WATCH complete (R432, R434). -/
def Obligations.SysregComplete : Prop :=
  let first (x : Ix) (a : Args) : Nat := (enabled x a).headD 0
  let sel (t : State) (x : Ix) (a : Args) : Option (Nat × Nat × Bool) := selector t x (srcI t x a 32 a.b (first x a))
  let denied (i : Instr) (s : State) (x : Ix) : Prop := exec i s = .next (trapB s x (trapOf cCTX_DENIED) (encodeVamer i))
  (∀ wide a s x, let t := drawn (.srd wide a) a s x
    let bits := if wide then 64 else 32
    Issues (.srd wide a) a s x →
    (sel t x a = none → denied (.srd wide a) s x) ∧
    (∀ c n o, sel t x a = some (c, n, o) → n = 0x2B → x.ctx ≠ 0 → denied (.srd wide a) s x) ∧
    (∀ c n o, sel t x a = some (c, n, o) → (n ≠ 0x2B ∨ x.ctx = 0) → exec (.srd wide a) s = .next (through (.srd wide a)
      (wr t x a.a bits ((enabled x a).map fun l =>
        (l, (if n = 0x02 then (if c = x.ctx && x.co.step then 1 else 0) else sysGet t c n) % 2 ^ bits))) x a))) ∧
  (∀ wide a s x, let t := drawn (.swr wide a) a s x
    let v := srcI t x a (if wide then 64 else 32) a.c (first x a)
    Issues (.swr wide a) a s x →
    (sel t x a = none → denied (.swr wide a) s x) ∧
    (∀ c n o, sel t x a = some (c, n, o) → sysWriter t x.ctx c n o = false → denied (.swr wide a) s x) ∧
    (∀ c n o, sel t x a = some (c, n, o) → sysWriter t x.ctx c n o = true →
      (sysRange n (swrValue t c n wide v) = false → exec (.swr wide a) s = .next
        (trapB s x (trapAt cMEM_RANGE (maskOf (enabled x a)) (w64 v)) (encodeVamer (.swr wide a)))) ∧
      (sysRange n (swrValue t c n wide v) = true → n ≠ 0x02 →
        exec (.swr wide a) s = .next (through (.swr wide a) (sysSet t c n (swrValue t c n wide v)) x a)) ∧
      (sysRange n (swrValue t c n wide v) = true → n = 0x02 → exec (.swr wide a) s = .next (through (.swr wide a)
        (modCoach t x.ref.train x.ref.coach fun co => { co with step := swrValue t c n wide v = 1 }) x a)))) ∧
  (∀ a, Completes (.mark a) a fun s x =>
    let t := drawn (.mark a) a s x
    through (.mark a) (traceRecord t x.ctx 1 (if x.spine then 1 else 0) x.rank x.tr (w32 (srcI t x a 32 a.c (first x a))) x.fr.pc) x a) ∧
  (∀ r w n a, Completes (.watch r w n a) a fun s x =>
    let t := drawn (.watch r w n a) a s x
    let len := srcI t x a 32 a.c (first x a)
    through (.watch r w n a) (modCtx t x.ctx fun c => { c with
      watch := if len = 0 then mdel c.watch n.toNat
        else mset c.watch n.toNat ⟨w64 (addrOp t x a a.b (enabled x a)), len, r, w⟩ }) x a)

/-- Waits that an event ends: REJOIN_RELEASE releases the rejoins that can (R147, R164), NAP_DEADLINE ends a nap whose time has
come (R166), LOAD_REPLY delivers the lanes of a pending load that can be (R59), TIMED_WAIT_DEADLINE, CASK_RETRY and
ENQUEUE_ACCEPT give the next turn to the wait whose deadline has come, or that began first of those that can be accepted (R233,
R247, R326). That such an event puts an issue turn on the agenda is the model's own form (log 3). -/
def Obligations.WaitEvents : Prop :=
  let next (i : Instr) (p : State → Prop) (f : State → State) : Prop := ∀ s, p s → exec i s = .next (f s)
  let turn (s : State) (a : Agent) : State := { s with agenda := .issue a false :: s.agenda }
  next .rejoinRelease (fun _ => True) (fun s =>
    s.ev.cs.foldl (fun t c => modCoach t s.ev.i c fun co => releaseRejoins co s.ev.x) s) ∧
  (∀ s f d, s.frag? s.ev.frag = some f → f.nap = some d → d ≤ s.rtime →
    ∃ t, exec .napDeadline s = .next t ∧ t.frag? s.ev.frag = some { f with nap := none }) ∧
  (∀ t c p, next .loadReply (fun s => pendOf s s.ev.i = some (t, c, p)) fun s => replyPend s t c p) ∧
  (∀ f d, next .timedWaitDeadline (fun s => s.frag? s.ev.frag = some f ∧ f.deadline = some d ∧ d ≤ s.rtime) fun s =>
    turn s (.frag s.ev.frag)) ∧
  (∀ s w, let ws := (caskWaiters s s.ev.i).filter fun w => w.2.2.any (fun m => m.1 = s.ev.j) && needsMet s s.ev.i w.2.2
    w ∈ ws → (∀ v ∈ ws, w.1 < v.1 ∨ (v.1 = w.1 ∧ v.2.1 = w.2.1)) → exec .caskRetry s = .next (turn s w.2.1)) ∧
  (∀ s k ks r,
    sortNat (((producers s s.ev.i).filter fun p => (freePlace (s.queue s.ev.i) p.2).isSome).map (·.1)) = k :: ks →
    ((s.trains.flatMap fun e => e.2.fragRefs e.1).find? fun r => ((s.frag? r).bind (·.wait)).map (·.1) = some k) = some r →
    exec .enqueueAccept s = .next (turn s (.frag r)))

/-- Accesses on their way: L1_WRITE_BACK and L1_EVICTION (R192), TRANSLATION_WALK (R358), HOME_ATOMIC, in the order of the
word's accesses (R221), STORE_PERFORMED_AT_HOME where the home can take the store (R200, R370), BACK_INVALIDATE_COMPLETE (R202),
CELLAR_REFRESH_WINDOW_END (R16, R196) and the host's CXL.mem accesses to host-managed memory, through a port in that mode (R442),
are performed. -/
def Obligations.MemoryEvents : Prop :=
  let next (i : Instr) (p : State → Prop) (f : State → State) : Prop := ∀ s, p s → exec i s = .next (f s)
  next .l1WriteBack (fun _ => True) (fun s => backWords s s.ev.i [s.ev.j / 4]) ∧
  next .l1Eviction (fun _ => True) (fun s =>
    let ws := (List.range 32).map fun k => s.ev.j / 128 * 32 + k
    ws.foldl (fun t wa => if wbHeld t s.ev.i wa then t else evictWord t s.ev.i wa) (backWords s s.ev.i ws)) ∧
  next .translationWalk (fun _ => True) (fun s =>
    (walkLookup s s.ev.i (if s.ev.p then some s.ev.j else none) s.ev.k (va55 s.ev.x.toNat) s.ev.acc (s.ev.acc = .other)).2) ∧
  (∀ a t, next .homeAtomic (fun s =>
      (s.steps.filter fun a => overlap a.ma (if a.w64 then 8 else 4) (s.ev.i / 4 * 4) 4) = a :: t ∧
      treeStep a.op a = false ∧ s.ev.j ≠ 0) fun s => tryStep s a) ∧
  (∀ a t, next .homeAtomic (fun s =>
      (s.steps.filter fun a => overlap a.ma (if a.w64 then 8 else 4) (s.ev.i / 4 * 4) 4) = a :: t ∧
      treeStep a.op a = true) fun s =>
    (((a :: t).takeWhile fun b => treeStep a.op b && b.w64 = a.w64).take (min s.ev.j 8)).foldl tryStep s) ∧
  (∀ p s, (s.stores.find? fun q => q.id = s.ev.i) = some p →
    exec .storePerformedAtHome s = .next (if storeReady s p then performStore s p else s)) ∧
  (∀ s, exec .backInvalidateComplete s = .next (modHost s fun h => { h with backInv := [] })) ∧
  next .cellarRefreshWindowEnd (fun _ => True) (fun s => s.trains.foldl (fun u e =>
    e.2.coachIds.foldl (fun u c => ((((e.2.coach? c).map (·.pend)).getD []).filter (readsCellar s.ev.i)).foldl
      (fun u p => replyPend u e.1 c p) u) u) s) ∧
  (∀ s, s.ev.p = false → allHdm s s.ev.l s.ev.i s.ev.bytes.length = true →
    (cxlPort s s.ev.l = true → exec .cxlMemWrite s = .next (modHost s fun h => { h with
      cxlIn := h.cxlIn ++ (List.range s.ev.bytes.length).map fun k => (s.ev.i + k, s.ev.bytes.getD k 0) })) ∧
    (cxlPort s s.ev.l = false → exec .cxlMemWrite s = .next s)) ∧
  (∀ s, s.ev.p = false → allHdm s s.ev.l s.ev.i s.ev.bytes.length = false →
    exec .cxlMemWrite s = .next (errorCompletion s s.ev.i)) ∧
  next .cxlMemWrite (fun s => s.ev.p = true) (fun s =>
    modHost (s.host.cxlIn.foldl mergeHost s) fun h => { h with cxlIn := [] }) ∧
  next .cxlMemRead (fun s => allHdm s s.ev.l s.ev.i s.ev.j = false) (fun s => errorCompletion s s.ev.i) ∧
  next .cxlMemRead (fun s => allHdm s s.ev.l s.ev.i s.ev.j = true ∧ cxlPort s s.ev.l = false) (fun s => s) ∧
  next .cxlMemRead (fun s => allHdm s s.ev.l s.ev.i s.ev.j = true ∧ cxlPort s s.ev.l = true) (fun s =>
    let t := modHost (s.host.cxlIn.foldl mergeHost s) fun h => { h with cxlIn := [] }
    modHost t fun h => { h with
      reply := (List.range s.ev.j).map fun k => homeByte t (s.ev.i + k) 0
      replyBad := (List.range s.ev.j).any fun k => isPoison t (s.ev.i + k) })

/-- The copy engines and the ports: LIST_ENTRY_ACCEPT takes the next descriptor of a list, or ends it with the reason why not
(R264, R270); COPY_CHUNK_TRANSFER, BYTE_ARRIVAL and COPY_RETIRE move, count and end a copy (R260, R262); REMOTE_ACK,
PRI_RESPONSE, BOLHAR_FLIT_CRC_ERROR, BOLHAR_LINK_CHANGE and PCIE_LINK_CHANGE acknowledge requests or fail them (R273, R281,
R438, R440, R443); BOLHAR_PEER_REQUEST reads and writes the exported
window, or is refused with an error completion (R273). MMA_PERFORM performs an MMA that nothing holds (R299).
The model's choices here: what the record of a link's CRC error holds (log 67); the exported window (Config.exportWindow) and the
elements of an undefined tile (mmaTile, which draws them by the count in fresh) are free values (log 6). -/
def Obligations.CopyEvents : Prop :=
  let slot (s : State) (sl : Slot) : Prop := mget (s.core s.ev.i).slots s.ev.j = some sl
  let copy (s : State) (sl : Slot) (d : Desc) : Prop := slot s sl ∧ sl.work = .copy d
  let next (i : Instr) (p : State → Prop) (f : State → State) : Prop := ∀ s, p s → exec i s = .next (f s)
  let acc (d : Desc) : Nat := if d.kind = 6 then 4 else 5
  (∀ s sl t off cnt n xl, let d := descOf (scrGet t sl.rank (off + 64 * n) 64).bytes
    let reason := d.check t sl.rank (if xl then [5, 6] else [0, 1, 2, 3, 4])
    let u := if n + 1 = cnt then freeSlotOf s s.ev.i s.ev.j
      else modSlot s s.ev.i s.ev.j fun x => { x with work := .list off cnt (n + 1) xl }
    slot s sl → sl.work = .list off cnt n xl → mget s.trains sl.train = some t →
    (reason ≠ 0 → exec .listEntryAccept s = .next (failEntry s s.ev.i s.ev.j sl reason n xl d)) ∧
    (∀ k, reason = 0 → freeEngineSlot u s.ev.i = some k → exec .listEntryAccept s = .next
      (acceptWork u s.ev.i k sl.train sl.ctx sl.rank (.copy d) (some (sl.seq, n)) xl))) ∧
  next .copyChunkTransfer (fun _ => True) (fun s =>
    moveChunks s.ev.i s.ev.j ((List.range s.ev.k).map (s.ev.l + ·)) s) ∧
  (∀ s sl d, let n := min (min (s.ev.k / 16 * 16) 1024) (16 * sl.performed d - sl.counted)
    let u := if d.sides.2 = .glob then releaseEvent s (s.ev.i / 4) else s
    let v := modMb u sl.train (d.mbRank sl.rank) d.mb.toNat fun o => o.bytesIn n
    copy s sl d → d.hasMb = true → n ≠ 0 → exec .byteArrival s = .next
      (if sl.counted + n = d.total then freeSlotOf v s.ev.i s.ev.j
       else modSlot v s.ev.i s.ev.j fun x => { x with counted := x.counted + n })) ∧
  (∀ sl d, next .copyRetire (fun s => copy s sl d ∧ sl.performed d = d.chunks ∧
      (d.hasMb = false ∨ sl.counted = d.total)) fun s => freeSlotOf s s.ev.i s.ev.j) ∧
  (∀ sl d, next .remoteAck (fun s => copy s sl d ∧ d.isDma = true ∧ s.ev.p = true) fun s =>
    modSlot s s.ev.i s.ev.j fun x => { x with acked := min (x.acked + s.ev.k) x.moved }) ∧
  (∀ sl d, next .remoteAck (fun s => copy s sl d ∧ d.isDma = true ∧ s.ev.p = false) fun s =>
    endCopyFault s s.ev.i s.ev.j 12 0 (acc d)) ∧
  (∀ sl d, next .priResponse (fun s => copy s sl d ∧ d.isDma = true ∧ d.kr = false ∧ s.ev.p = false) fun s =>
    endCopyFault s s.ev.i s.ev.j 12 0 (acc d)) ∧
  (∀ sl d, next .bolharFlitCrcError (fun s => s.ev.i < 16 ∧ mget (s.core s.ev.j).slots s.ev.k = some sl ∧
      peerPort s sl = some s.ev.i ∧ sl.work = .copy d) fun s =>
    endCopyFault (errorRecord s 2 (s.ev.i / 8) 0x0B (s.ev.i % 8) sl.ctx true false) s.ev.j s.ev.k 12 0 (acc d)) ∧
  next .bolharFlitCrcError (fun s => s.ev.i < 16 ∧ mget (s.core s.ev.j).slots s.ev.k = none) (fun s =>
    errorRecord s 2 (s.ev.i / 8) 0x0B (s.ev.i % 8) 0xFFF true false) ∧
  next .bolharLinkChange (fun s => s.ev.i < 16 ∧ s.ev.p = true) (fun s =>
    modHost s fun h => { h with links := mset h.links s.ev.i true }) ∧
  next .bolharLinkChange (fun s => s.ev.i < 16 ∧ s.ev.p = false) (fun s =>
    let u := modHost s fun h => { h with links := mset h.links s.ev.i false }
    failSlots (fun u sl => peerPort u sl = some s.ev.i) (slotCount u) u) ∧
  next .pcieLinkChange (fun s => s.ev.i < 2 ∧ s.ev.p = true ∧ (s.ev.j = 4 ∨ s.ev.j = 8 ∨ s.ev.j = 16)) (fun s =>
    modHost s fun h => { h with pcie := mset h.pcie s.ev.i (s.ev.j, true) }) ∧
  next .pcieLinkChange (fun s => s.ev.i < 2 ∧ (s.ev.p = false ∨ (s.ev.j ≠ 4 ∧ s.ev.j ≠ 8 ∧ s.ev.j ≠ 16))) (fun s =>
    failSlots (fun u sl => onHostPort u s.ev.i sl) (slotCount s) (modHost s fun h => { h with pcie := mdel h.pcie s.ev.i })) ∧
  (∀ s, let w := Config.exportWindow s.ev.i
    let va := (w.2 + s.ev.j) % 2 ^ 64
    let refused := errorCompletion s 0
    let reply (u : State) (bs : List Byte) : State := modHost u fun h => { h with reply := bs }
    (s.ev.p = true → exec .bolharPeerRequest s = .next (((windowWrite s w.1 va s.ev.bytes).map fun u => reply u []).getD refused)) ∧
    (s.ev.p = false → exec .bolharPeerRequest s = .next (((windowRead s w.1 va 16).map (reply s)).getD refused))) ∧
  (∀ s t r, let rs := mgetD t.mmas s.ev.j []
    let core := t.cores.getD s.ev.j 0
    let es := mmaTile s t s.ev.j (core / 48) r
    let u := if r.counts then modSys s t.ctx fun y => { y with mmabad := y.mmabad + 1 } else s
    mget s.trains s.ev.i = some t → rs[s.ev.k]? = some r → mmaHeld s core s.ev.i r = false →
    (∀ q ∈ rs.take s.ev.k, q.tile ≠ r.tile) →
    exec .mmaPerform s = .next (modTrain (setLatch { u with fresh := u.fresh + 256 } s.ev.i s.ev.j core r) s.ev.i fun t =>
      let t := { t with mmas := mput [] t.mmas s.ev.j (rs.eraseIdx s.ev.k) }
      if r.drop then t else tileFill t s.ev.j r.tile fun i => es.getD i (0, false)))

/-- Cards and trains: CARD_ADMISSION and CARD_READY move a card on, refuse it or drop it (R319, R328, R329); TRAIN_PLACEMENT
places the plan that the visits find, and all trains of a launch with the GBAR flag at once (R335 to R337, R453; that the
latter sets SKIP of their first cores to 0 is log 85); TRAIN_RETIRE, TRAIN_SUSPEND and TRAIN_RESUME (R338, R413);
FILL_START and FILL_COMPLETE, with the vintage (R339, R340); SENSOR_CLASS_UPDATE, SLT_BIND_WRITE and QC_REGISTER_WRITE (R324,
R333, R334). -/
def Obligations.ScheduleEvents : Prop :=
  let next (i : Instr) (p : State → Prop) (f : State → State) : Prop := ∀ s, p s → exec i s = .next (f s)
  let stands (s : State) (k : QCard) (st : CardSt) : Prop :=
    (s.queue s.ev.i).card? s.ev.place = some k ∧ isExamined (s.queue s.ev.i) s.ev.place = true ∧ k.st = st
  let tgt (st : CardSt) (s : State) : State := setCardSt s s.ev.i s.ev.place st
  (∀ k, next .cardAdmission (fun s => stands s k .admitting ∧ chainCancelled s k = true) fun s => dropCard s s.ev.i s.ev.place) ∧
  (∀ k, next .cardAdmission (fun s => stands s k .admitting ∧ chainCancelled s k = false ∧
    (k.card.isFill = true ∨ (k.card.argcount ≠ 0 ∧ admitCode s k = 0))) (tgt .wait)) ∧
  (∀ k, next .cardAdmission (fun s => stands s k .admitting ∧ chainCancelled s k = false ∧ k.card.isFill = false ∧
    k.card.argcount = 0) fun s => cardGone s s.ev.i s.ev.place) ∧
  (∀ k, next .cardAdmission (fun s => stands s k .admitting ∧ chainCancelled s k = false ∧ k.card.isFill = false ∧
    k.card.argcount ≠ 0 ∧ admitCode s k ≠ 0) fun s => refuseCard s s.ev.i s.ev.place (admitCode s k)) ∧
  (∀ k st, st = .wait ∨ st = .ready → next .cardReady (fun s => stands s k st ∧ chainCancelled s k = true) fun s =>
    dropCard s s.ev.i s.ev.place) ∧
  (∀ k, next .cardReady (fun s => stands s k .wait ∧ chainCancelled s k = false ∧ afterDone s k = true ∧
    (k.card.vchk = true → k.card.expvint.toNat = vintageOf s k.ctx)) (tgt .ready)) ∧
  (∀ k, next .cardReady (fun s => stands s k .wait ∧ chainCancelled s k = false ∧ afterDone s k = true ∧
    k.card.vchk = true ∧ k.card.expvint.toNat ≠ vintageOf s k.ctx) fun s => refuseCard s s.ev.i s.ev.place 0x12) ∧
  (∀ s n p k plan cl u, let v := visits s s.ev.i s.ev.j s.ev.k k
    dispatches s s.ev.k = true → firstCandidate s s.ev.j = some (n, p, k) → mayDispatch s s.ev.i s.ev.j s.ev.k k = true →
    k.card.gbar = false → v.1 = some plan →
    claimCard (keepPointer (keepSkips s v.2) s.ev.i s.ev.j s.ev.k n (plan.headD (0, 0)).1) n p = (some cl, u) →
    exec .trainPlacement s = .next (breakTrain (startTrain u n cl plan) u.trainNext)) ∧
  (∀ s n p k ps, dispatches s s.ev.k = true → firstCandidate s s.ev.j = some (n, p, k) →
    mayDispatch s s.ev.i s.ev.j s.ev.k k = true → k.card.gbar = true → gbarPlans s s.ev.j s.ev.k k = some ps →
    exec .trainPlacement s = .next (ps.foldl (placeFlagged s.ev.j s.ev.k n p) s)) ∧
  next .trainRetire (fun s => canRetire s s.ev.i = true) (fun s => removeTrain s s.ev.i true) ∧
  next .trainSuspend (fun s => canSuspend s s.ev.i = true) (fun s => stopTrain s s.ev.i .suspended) ∧
  (∀ t cores, next .trainResume (fun s => mget s.trains s.ev.i = some t ∧ mayResume s s.ev.i t = true ∧
    restorePlan s t = some cores) fun s => restoreTrain s s.ev.i cores) ∧
  (∀ n p k, next .fillStart (fun s => mget s.fills s.ev.i = none ∧ partIdle s s.ev.i = true ∧
      fillCandidate s s.ev.i = some (n, p, k) ∧ chainCancelled s k = false) fun s =>
    { setCardSt s n p .filling with fills := mset s.fills s.ev.i ⟨n, p, k.ctx, k.card⟩ }) ∧
  (∀ s f ok u, let v := { u with
      vintage := mput 0 u.vintage s.ev.i ((mgetD u.vintage s.ev.i 0 + 1) % (2 ^ 32 - 1)), fills := mdel u.fills s.ev.i }
    mget s.fills s.ev.i = some f → outOf s f.ctx .mem = false → fillChunks s.ev.i f (f.card.argsize.toNat / 16) 0 s = (ok, u) →
    exec .fillComplete s = .next (if ok then dropCard v f.queue f.place else refuseCard v f.queue f.place 0x13)) ∧
  next .sensorClassUpdate (fun s => s.rtime % 1024 = 0 ∧ s.ev.i < 768) (fun s =>
    modCore s s.ev.i fun c => { c with cls := sensorClass s.host.config.thr s.ev.j s.ev.k }) ∧
  next .sltBindWrite (fun s => s.ev.i < 768 ∧ s.ev.x.toNat &&& (7 * 2 ^ 60) = 0 ∧ isRetired s 1 (s.ev.i / 4) = false) (fun s =>
    bindCore s s.ev.i (bindOf s.ev.x.toNat)) ∧
  next .qcRegisterWrite (fun s => s.ev.i < 65536) (fun s =>
    qcWrite s s.ev.i (qregOffset s.ev.qreg) (s.ev.x.toNat % 2 ^ 32))

/-- Contexts over time: REVOKE_COMPLETE, STOP_COMPLETE and DRAIN_DEADLINE end or escalate an operation (R372, R373, R418; the
ENGINE codes 5 and 6 of a drain and what the operation holds after it has escalated are log 61 and 62);
BUDGET_REFILL, BUCKET_EMPTY and SLICE_END (R368, R370, R371, R417): an empty TIME bucket ends slices, and stores and atomics wait
by themselves while the MEM bucket is empty; FAULT_REPORT_DELIVER (R365); the counters, series and system registers that the host
and the clock touch, in either half (R422, R425, R427, R428, R434; the SRC units of the root's series are log 88); ERROR_DETECTED
(R435; a cask has no record, log 92). -/
def Obligations.ContextEvents : Prop :=
  let next (i : Instr) (p : State → Prop) (f : State → State) : Prop := ∀ s, p s → exec i s = .next (f s)
  let under (s : State) (o : CtxOp) : Prop := (s.ctx s.ev.i).op = some o ∧ s.hasCtx s.ev.i = true
  let late (s : State) (o : CtxOp) : Prop := under s o ∧ o.drains = true ∧ (o.deadline.any (· ≤ s.rtime)) = true ∧
    drainLeft s s.ev.i o = true
  (∀ o, next .revokeComplete (fun s => under s o ∧ revokeReady s s.ev.i o = true ∧ stuckMaps s s.ev.i o = []) fun s =>
    finishRevoke s s.ev.i o) ∧
  (∀ o, next .revokeComplete (fun s => under s o ∧ revokeReady s s.ev.i o = true ∧ stuckMaps s s.ev.i o ≠ []) fun s =>
    (stuckMaps s s.ev.i o).foldl mapReport s) ∧
  (∀ o, next .stopComplete (fun s => under s o ∧ stopReady s s.ev.i o = true) fun s =>
    finishStop s s.ev.i o (if o.kind = .stopDrain then 5 else 6)) ∧
  (∀ o, o.kind = .stopDrain → next .drainDeadline (fun s => late s o) fun s =>
    finishStop (forcedReset s s.ev.i) s.ev.i o 6) ∧
  (∀ o all drain ws, o.kind = .revoke all drain ws → next .drainDeadline (fun s => late s o) fun s =>
    let u := forcedReset s s.ev.i
    let ts := o.trains.filter fun t => (mget u.trains t).isSome
    stopTrains (modCtx (stopSubtree u s.ev.i) s.ev.i fun x => { x with
      st := .stopping
      op := some { o with kind := .revoke all false ws, deadline := none, trains := ts, was := .stopped } }) ts) ∧
  (∀ o, o.kind = .migrate → next .drainDeadline (fun s => late s o) fun s =>
    endMigration (stopSubtree (forcedReset s s.ev.i) s.ev.i) s.ev.i) ∧
  (∀ s, .refill ∈ s.timers → ∃ t, exec .budgetRefill s = .next t ∧ .refill ∉ t.timers ∧
    ∀ c k, c ≠ 0 → s.hasCtx c = true → ((t.ctx c).bucket k).tok =
      (let b := (s.ctx c).bucket k
       if b.depth = 0 then b.tok else min b.depth (b.tok + (freeRate s c k).toNat))) ∧
  next .bucketEmpty (fun s => s.ev.bucket = .time ∧ s.ev.i ≠ 0 ∧ s.hasCtx s.ev.i = true ∧ (s.ctx s.ev.i).time.depth ≠ 0 ∧
      (s.ctx s.ev.i).time.tok = 0) (fun s => (liveCores s).foldl (fun t k =>
    if (holderOf t k).any fun h => payer t h .time = some s.ev.i then endSlice t k else t) s) ∧
  next .bucketEmpty (fun s => s.ev.bucket = .mem ∨ s.ev.bucket = .ext) (fun s => s) ∧
  (∀ p, next .storePerformedAtHome (fun s => (s.stores.find? fun q => q.id = s.ev.i) = some p ∧ p.reg = false ∧
    paysFor p = true ∧ outOf s (agentCtx s p.who) .mem = true) fun s => s) ∧
  (∀ a, next .homeAtomic (fun s => (s.steps.filter fun b => overlap b.ma (if b.w64 then 8 else 4) (s.ev.i / 4 * 4) 4) = [a] ∧
    a.id = a.grp ∧ outOf s (agentCtx s a.who) .mem = true) fun s => s) ∧
  next .sliceEnd (fun s => sliceDue s s.ev.i = true) (fun s => endSlice s s.ev.i) ∧
  next .faultReportDeliver (fun s => s.hasCtx s.ev.i = true) (fun s =>
    fqNotify (deliverReport (fqNotify s s.ev.i) s.ev.i) s.ev.i) ∧
  next .cntSelWrite (fun s => s.hasCtx s.ev.i = true ∧ s.ev.j < 8 ∧ sysRange (0x10 + s.ev.j) s.ev.x.toNat = true) (fun s =>
    sysSet s s.ev.i (0x10 + s.ev.j) s.ev.x.toNat) ∧
  (∀ s pre t v post, s.timers = pre ++ .policy s.ev.i t v :: post → (∀ x ∈ pre, policyOf s.ev.i x = none) →
    exec .counterPolicyTick s = .next (modSys { s with timers := pre ++ post } s.ev.i fun y => y.latch t v)) ∧
  (∀ s pre bs post, s.timers = pre ++ .series s.ev.i bs :: post → (∀ x ∈ pre, seriesOf s.ev.i x = none) →
    let t := seriesTick { s with timers := pre ++ post } s.ev.i bs
    exec .timeSeriesTick s = .next (if nbit (t.ctx s.ev.i).sys.tsctl.toNat 30 then sampleCores t s.ev.i else t)) ∧
  next .sysregLoRead (fun s => hostReach s = true ∧ reqSizeOk s.ev.k s.ev.l = true ∧ (reachCtx s).isSome = true) (fun s =>
    modHost (mmioRead s s.ev.k s.ev.l).2 fun h =>
      { h with reply := leBytes s.ev.l (mmioRead s s.ev.k s.ev.l).1, replyBad := false }) ∧
  (∀ s c n hi, hostReach s = true → s.ev.j = 0 → s.ev.l = 4 → c < 4096 → n < 256 →
    s.ev.k = 2 ^ 34 + 2048 * c + 8 * n + (if hi then 4 else 0) → exec .sysregLoRead s = .next
      (modHost (sysHalfRead s c n hi).2 fun h => { h with reply := leBytes 4 (sysHalfRead s c n hi).1, replyBad := false })) ∧
  next .sysregLoRead (fun s => hostReach s = true ∧ reqSizeOk s.ev.k s.ev.l = true ∧ reachCtx s = none) (fun s =>
    modHost s fun h => { h with reply := List.replicate s.ev.l 0xFF, replyBad := false }) ∧
  next .sysregLoRead (fun s => hostReach s = true ∧ reqSizeOk s.ev.k s.ev.l = false) (fun s =>
    errorCompletion s (barAddr s.ev.k)) ∧
  next .sysregHostWrite (fun s => s.hasCtx s.ev.i = true ∧ sysWriter s s.ev.k s.ev.i 0 (s.ev.k ≠ s.ev.i) = true ∧
      s.ev.j = 0 ∧ s.ev.p = false ∧ s.ev.x.toNat % 4 = 0) (fun s =>
    sysSet s s.ev.i 0 (2 ^ 32 * ((s.ctx s.ev.i).sys.tvec.toNat / 2 ^ 32) + s.ev.x.toNat % 2 ^ 32)) ∧
  next .sysregHostWrite (fun s => s.hasCtx s.ev.i = false ∨ sysExists s.ev.j = false ∨ s.ev.j = 2 ∨
    sysWriter s s.ev.k s.ev.i s.ev.j (s.ev.k ≠ s.ev.i) = false) countRsvw ∧
  (∀ s, let n := s.ev.j
    let v := s.ev.x.toNat % 2 ^ 32
    let w := if zeroOnly n || (0x20 ≤ n && n ≤ 0x27) then (if s.ev.p then 2 ^ 32 * v else v)
      else if s.ev.p then 2 ^ 32 * v + sysGet s s.ev.i n % 2 ^ 32
      else 2 ^ 32 * (sysGet s s.ev.i n / 2 ^ 32) + v
    let kept := w &&& (2 ^ 64 - 1 - sysRsvd n)
    let t := if w &&& sysRsvd n ≠ 0 then countRsvw s else s
    s.hasCtx s.ev.i = true → sysExists n = true → n ≠ 2 → sysWriter s s.ev.k s.ev.i n (s.ev.k ≠ s.ev.i) = true →
    exec .sysregHostWrite s = .next (if sysRange n kept then sysSet t s.ev.i n kept else countRsvw t)) ∧
  next .errorDetected (fun s => s.ev.i = 0) errorEffect ∧
  next .errorDetected (fun s => 1 ≤ s.ev.i ∧ s.ev.i ≤ 10) (fun s =>
    let d := errDie s.ev.i s.ev.j s.ev.k
    errorRecord (errorEffect s) d.1 d.2 s.ev.i s.ev.k (errOwner s) (s.ev.p && s.ev.i ≠ 1) (s.ev.p && s.ev.i ≠ 1))

/-- The mailboxes' commands that set up the root and its resources: ROOTFQ, ERRRING, BINDVF, ENDPOINT, HDM, POWER, RETIRE and
ROOTCTX (R444, R445, R447, R451), the codes that are none (R446), and a command before the firmware is ready (R444). That RETIRE of
a cluster clears the bind records of its cores is log 72 (and 69). -/
def Obligations.MailboxComplete : Prop :=
  let due (s : State) (is : Mbox → Bool) : Prop := commandDue s s.ev.i = true ∧ is (s.mbox s.ev.i) = true ∧
    s.host.heldVolt = false
  let up (s : State) (is : Mbox → Bool) : Prop := due s is ∧ s.host.boot = 4
  let cmd (i : Instr) (is : Mbox → Bool) (p : State → Mbox → Prop) (f : State → Mbox → State) (res : Nat) : Prop :=
    ∀ s, up s is → p s (s.mbox s.ev.i) → exec i s = .next (endCommand (f s (s.mbox s.ev.i)) s.ev.i res)
  cmd .rootfq (isOp 2) (fun _ m =>
      let n := nbits m.arg1.toNat 0 8
      4 ≤ n ∧ n ≤ 12 ∧ nbits m.arg1.toNat 8 16 < 2048 ∧ m.arg0.toNat % 64 = 0 ∧ isHbm m.arg0.toNat = true ∧
        isHbm (m.arg0.toNat + 64 * (1 + 2 ^ n) - 1) = true)
    (fun s m => modHost (modCtx s 0 fun r => { r with fqbase := some m.arg0.toNat, fqsize := nbits m.arg1.toNat 0 8 }) fun h =>
      { h with rootVec := some (65536 * s.ev.i + nbits m.arg1.toNat 8 16) }) 0 ∧
  cmd .errring (isOp 3) (fun _ m => m.arg0.toNat % 32 = 0 ∧ m.arg1.toNat % 32 = 0 ∧ 1024 ≤ m.arg1.toNat ∧
      m.arg1.toNat ≤ 2 ^ 24 ∧ nbits m.arg2.toNat 0 16 < 2048)
    (fun s m => modHost s fun h => { h with
      err := { h.err with base := some m.arg0.toNat, bytes := m.arg1.toNat, vector := 65536 * s.ev.i + nbits m.arg2.toNat 0 16 } })
    0 ∧
  cmd .bindvf (isOp 4) (fun s m =>
      let c := nbits m.arg1.toNat 0 12
      nbits m.arg0.toNat 0 16 ≠ 0 ∧ nbits m.arg0.toNat 0 16 < 2056 ∧ (c = 0xFFF ∨ s.hasCtx c = true ∧ (s.ctx c).op = none))
    (fun s m => modHost s fun h =>
      let k := 65536 * nbits m.arg0.toNat 16 1 + nbits m.arg0.toNat 0 16
      let c := nbits m.arg1.toNat 0 12
      { h with vf := if c = 0xFFF then mdel h.vf k else mset h.vf k c }) 0 ∧
  cmd .endpoint (isOp 5) (fun _ m => m.arg0.toNat < 4096)
    (fun s m =>
      let n := m.arg0.toNat
      if nbit m.arg1.toNat 4 then
        modCtx s 0 fun r => { r with endpoints := mset r.endpoints n ⟨nbits m.arg1.toNat 0 4, m.arg2, m.arg3, n, 0⟩ }
      else loseEndpoint 8 0 n s) 0 ∧
  cmd .hdm (isOp 6) (fun s m => m.arg0.toNat % 2 ^ 29 = 0 ∧ m.arg1.toNat % 2 ^ 29 = 0 ∧ m.arg1.toNat ≠ 0 ∧
      isHbm (m.arg0.toNat + m.arg1.toNat - 1) = true ∧ covers (ownMemory s 0) m.arg0.toNat m.arg1.toNat = true)
    (fun s m => modHost s fun h => { h with hdm := mset h.hdm m.arg0.toNat (m.arg1.toNat, nbits m.arg2.toNat 0 1) }) 0 ∧
  cmd .power (isOp 10) (fun s m => 1000 ≤ m.arg0.toNat ∧ m.arg0.toNat ≤ s.host.config.powerCeil)
    (fun s m => modHost s fun h => { h with powerLimit := m.arg0.toNat }) 0 ∧
  (∀ kind u, cmd .retire (isOp 8) (fun s m => m.arg0.toNat = kind ∧ retireUnit kind m.arg1.toNat = some u ∧
      unitGranted s kind u = false ∧ isRetired s kind u = false)
    (fun s _ => modHost (if kind = 1 then (List.range 4).foldl (fun s i => bindCore s (4 * u + i) Bind.init) s else s) fun h =>
      { h with retired := (2 ^ 48 * kind + u) :: h.retired }) 0) ∧
  (∀ bs, cmd .rootctx (isOp 13) (fun s m => rootBusy s = false ∧ homeBytes s m.arg0.toNat 64 = some bs ∧
      (blockOf bs).rootOk = true)
    (fun s _ => modCtx s 0 fun r => { r with
      s1root := some (blockOf bs).s1root, lvbase := (blockOf bs).lvbase, lvlen := (blockOf bs).lvlen
      reflect := w32 (blockOf bs).reflect }) 0) ∧
  cmd .mailboxUnknownOp (fun m => m.op.toNat = 0 || m.op.toNat > 13) (fun _ _ => True) (fun s _ => s) 1 ∧
  (∀ s, due s (isOp 2) → s.host.boot ≠ 4 → exec .rootfq s = .next (endCommand s s.ev.i 4)) ∧
  (∀ s, s.ev.i < 2 → (s.mbox s.ev.i).busy = true →
    exec .mailboxOrun s = .next (mboxCmd s s.ev.i (s.ev.x.toNat % 2 ^ 32))) ∧
  (∀ s, s.host.mq.head? = some s.ev.i → (s.mbox s.ev.i).ended = true → exec .mailboxCommandComplete s =
    .next (sendMsix (modHost (modMbox s s.ev.i fun m =>
      { m with res := m.next, rtag := m.tag, busy := false, ended := false }) fun h => { h with mq := h.mq.tail })
      (65536 * s.ev.i) 0))

/-- The mailboxes' commands that move bytes, start work or move a context: RESYNC, ATTEST, HCOPY, ENQUEUE and MIGRATE (R436,
R445, R447, R450, R377), where the mailbox's port has a link and the host takes the buffer. Whether an image fits its buffer, and
what a buffer of another package holds, are free values (log 27): each outcome is stated. Which RES code a migration ends with, and
that an image too large for its buffer leaves every context as it was, are log 63. -/
def Obligations.MailboxMoves : Prop :=
  let due (s : State) (is : Mbox → Bool) : Prop := commandDue s s.ev.i = true ∧ is (s.mbox s.ev.i) = true ∧
    s.host.heldVolt = false
  let up (s : State) (is : Mbox → Bool) : Prop := due s is ∧ s.host.boot = 4
  let own (s : State) : Mbox := s.mbox s.ev.i
  (∀ s, up s (isOp 1) → s.ev.p = false → portUp s s.ev.i = true → (summary s).length ≤ (own s).arg1.toNat →
    exec .resync s = .next (endCommand (hostWrite s (own s).arg0.toNat (summary s)) s.ev.i 0)) ∧
  (∀ s, due s (isOp 9) → s.ev.p = false → portUp s s.ev.i = true → exec .attest s = .next (endCommand
    (hostWrite s (own s).arg0.toNat (attestReport s (hostRead s ((own s).arg0.toNat + 8) 32))) s.ev.i 0)) ∧
  (∀ s, let n := (own s).arg2.toNat
    let a := (own s).arg1.toNat
    up s (isOp 12) → s.ev.p = false → portUp s s.ev.i = true → n % 16 = 0 → n ≤ 2 ^ 30 → isHbm (a + n - 1) = true →
    covers (ownMemory s 0) a n = true → (own s).done < n / 16 → n / 16 - (own s).done ≤ s.ev.k →
    (∀ i < 16 * (n / 16 - (own s).done), keyConflict s (a + 16 * (own s).done + i) 0 = false) →
    exec .hcopy s = .next (endCommand (hcopyUnits (nbit (own s).arg3.toNat 0) (own s).arg0.toNat a
      (n / 16 - (own s).done) (own s).done (structClear s 0 a)) s.ev.i 0)) ∧
  (∀ s bs w p, let q := nbits (own s).arg1.toNat 0 16
    up s (isOp 11) → (s.ctx 0).s1root ≠ none → (own s).arg0.toNat % 128 = 0 → (own s).arg2.toNat ≤ 1000000 →
    s.host.cxlIn = [] → deviceRead s 0 (own s).arg0.toNat 128 = some bs → cardStatus s 0 q .launch (cardOf bs) = 0 →
    (own s).wait.getD (s.waitSeq, s.rtime + (own s).arg2.toNat) = w → turnPlace s q 0 w.1 = some p →
    exec .enqueue s = .next (endCommand (modMbox (acceptCard s q p 0 .launch (cardOf bs) bs) s.ev.i fun m =>
      { m with arg0 := w64 (256 * (m.arg0.toNat / 256)) }) s.ev.i 0)) ∧
  (∀ s, let c := nbits (own s).arg0.toNat 0 12
    up s (isMigrate false) → (own s).done = 0 → c ≠ 0 → s.hasCtx c = true → stopsNow s c = false →
    (∀ k ∈ subtree s c, (s.ctx k).op = none) → ctxPlaces s c = true →
    exec .migrateOut s = .next (modMbox (beginMigrate s c) s.ev.i fun m => { m with done := 1 })) ∧
  (∀ s, let c := nbits (own s).arg0.toNat 0 12
    up s (isMigrate false) → (own s).done = 0 → c ≠ 0 → s.hasCtx c = true → stopsNow s c = true →
    exec .migrateOut s = .next s) ∧
  (∀ s, let c := nbits (own s).arg0.toNat 0 12
    let img := movedImage s c
    let u := (subtree s c).foldl flushHeld (modHost s fun h => { h with images := img :: h.images })
    up s (isMigrate false) → (own s).done ≠ 0 → (s.ctx c).st = .migrating → subtreeTrains s c = [] → s.ev.p = false →
    portUp s s.ev.i = true → stuckLevels s c = [] →
    exec .migrateOut s = .next (if (migEncode img).length ≤ (own s).arg2.toNat then
        endCommand (refreeze (hostWrite (leavePackage u c) (own s).arg1.toNat (migEncode img))) s.ev.i 0
      else endCommand (undoMigrate s c) s.ev.i 2)) ∧
  (∀ s, let par := nbits (own s).arg0.toNat 0 12
    up s (isMigrate true) → s.hasCtx par = true → (s.ctx par).op = none → s.ev.p = false → portUp s s.ev.i = true →
    exec .migrateIn s = .next (match imageIn s (hostRead s (own s).arg1.toNat (own s).arg2.toNat) with
      | none => endCommand s s.ev.i 2
      | some img => match mget img.ctxs img.top with
        | none => endCommand s s.ev.i 2
        | some top => match dieMap s top with
          | none => endCommand s s.ev.i 4
          | some f => if canHost s par (placeCtx f top) && canName s par img then
              (if img.ctxs.any fun e => saveConflict (joinPackage s par img f) e.1 0 1024 then s
               else endCommand (joinPackage s par img f) s.ev.i 0)
            else endCommand s s.ev.i 4))


/-- Host requests to registers and to scratchpad windows (R22, R190, R439), function-level reset (R374, R440), boot (R448), input
voltage and throttling (R451). One boot stage per POWER_UP, what survives an input voltage out of range, and how the clock steps
follow what the module draws are log 70; what a window reads where nothing is allocated is a free value (padRead, log 6). -/
def Obligations.HostComplete : Prop :=
  (∀ s c, s.ev.i < 2 → s.ev.j < 2056 → s.ev.k < 2 ^ 36 → portUp s s.ev.i = true → s.host.heldVolt = false → reqSizeOk s.ev.k s.ev.l = true →
    functionCtx s s.ev.i s.ev.j = some c → (s.ev.j = 0 ∨ functionReaches s c s.ev.k = true) →
    exec .mmioRegisterWrite s = .next (mmioWrite s c s.ev.k s.ev.l s.ev.x.toNat)) ∧
  (∀ s core off, windowPlace s.ev.i = some (core, off) → off + s.ev.j ≤ 393216 →
    (s.ev.p = true → exec .hostMmioError s =
      .next ((List.range s.ev.j).foldl (fun t i => padWrite t core (off + i) (s.ev.bytes.getD i 0)) s)) ∧
    (s.ev.p = false → exec .hostMmioError s = .next (modHost { s with fresh := s.fresh + 393216 } fun h => { h with
      reply := (List.range s.ev.j).flatMap fun i => (padRead s core (off + i)).bytes
      replyBad := (List.range s.ev.j).any fun i => (padRead s core (off + i)).poison }))) ∧
  (∀ s, (∀ core off, windowPlace s.ev.i = some (core, off) → 393216 < off + s.ev.j) →
    isRefused s.ev.i = true → isSltBlock s.ev.i = false →
    exec .hostMmioError s = .next (modHost s fun h => { h with errComp := h.errComp ++ [s.ev.i], reply := [] })) ∧
  (∀ s c, s.ev.j ≠ 0 → mget s.host.vf (65536 * s.ev.i + s.ev.j) = some c → s.hasCtx c = true →
    exec .functionLevelReset s = .next (endMigration (stopSubtree (forcedReset s c) c) c)) ∧
  (∀ s, s.host.heldVolt = false →
    let tgt (n : Nat) (t : State) : Host.Outcome State Fault Refusal := .next (modHost t fun h => { h with boot := n })
    (s.host.boot = 0 → exec .powerUp s = tgt 1 s) ∧
    (s.host.boot = 1 → exec .powerUp s = tgt (if recordOk s.host.config then 2 else 15) s) ∧
    (s.host.boot = 2 → exec .powerUp s = tgt 3 s) ∧
    (s.host.boot = 3 → exec .powerUp s = tgt 4 (applyRecord s))) ∧
  (∀ s, 48000 ≤ s.ev.i → s.ev.i ≤ 54000 →
    exec .inputVoltageOutOfRange s = .next (modHost s fun h => { h with heldVolt := false })) ∧
  (∀ s, s.ev.i < 48000 ∨ 54000 < s.ev.i → ∃ t, exec .inputVoltageOutOfRange s = .next t ∧ t.host.heldVolt = true ∧
    t.host.config = s.host.config ∧ t.host.mem = s.host.mem ∧ t.host.boot = 0 ∧ t.mem = [] ∧ t.trains = []) ∧
  (∀ s, let now := (mgetD s.clocks s.ev.i DieClock.init).steps
    s.ev.i < 16 → exec .throttleAdjust s = .next (setClock s s.ev.i (min 22 (max s.host.config.clockSteps
      (if overLimit s s.ev.k s.ev.l then max (now + 1) s.ev.j else min now s.ev.j)))))

/-! ### What instructions leave unchanged -/

/-- The frame of class 0x0: its instructions change nothing but the destination's registers and the flag predicate in the
enabled lanes (R66, R69); MOV to %srseed and to %preds the generator and p0 to p14 of those lanes (R50, R89). -/
def Obligations.IntegerFrame : Prop :=
  let flag (i : IntMod → Args → Instr) (bits : IntMod → Nat) : Prop :=
    ∀ m a, RegisterOnly (i m a) a a.a (bits m) (flagPd m.po m.pd) false
  let plain (i : IntMod → Args → Instr) (bits : IntMod → Nat) : Prop := ∀ m a, RegisterOnly (i m a) a a.a (bits m) none false
  let w (m : IntMod) : Nat := m.w.bits
  (flag .add w ∧ flag .sub w ∧ flag .mul w ∧ flag .mad w ∧ flag .div w ∧ flag .rem w ∧ flag .abs w) ∧
  (plain .mulh w ∧ plain .min w ∧ plain .max w ∧ plain .and w ∧ plain .or w ∧ plain .xor w ∧ plain .not w ∧ plain .shl w ∧
    plain .shr w ∧ plain .sar w ∧ plain .rot w ∧ plain .bfx w ∧ plain .bfi w ∧ plain .lea w ∧ plain .brev w ∧ plain .mov w) ∧
  (plain .popc (fun _ => 32) ∧ plain .clz (fun _ => 32) ∧ plain .ctz (fun _ => 32) ∧ plain .plop fun _ => 32) ∧
  (∀ w cp a, RegisterOnly (.addc w cp a) a a.a (wbits w) (some cp) false) ∧
  (∀ w cp a, RegisterOnly (.subb w cp a) a a.a (wbits w) (some cp) false) ∧
  (∀ w neg sp a, RegisterOnly (.sel w neg sp a) a a.a (wbits w) none false) ∧
  (∀ w u k a, RegisterOnly (.cmp w u k a) a a.a 32 none false) ∧
  (∀ m a s x, a.a = .sr 0x0D → Issues (.srseedWrite m a) a s x → ∃ t, exec (.srseedWrite m a) s = .next t ∧
    SameRegs x [] .zero 32 (fun _ => false) s t ∧ SameMachine s t ∧ GensElse x s t) ∧
  (∀ m a s x, a.a = .sr 0x0F → Issues (.predsWrite m a) a s x → ∃ t, exec (.predsWrite m a) s = .next t ∧
    SameRegs x (enabled x a) .zero 32 (fun _ => true) s t ∧ SameMachine s t ∧ SameGens s t)

/-- The frame of classes 0x1 to 0x3: the same, with the generator changed only by an instruction that rounds in the mode sr
(R66, R100, R106). -/
def Obligations.FloatFrame : Prop :=
  let sr (rm : RMode) : Bool := rm = .sr
  let one (i : FMod → Args → Instr) (bits : FMod → Nat) : Prop := ∀ m a, RegisterOnly (i m a) a a.a (bits m) none (sr m.rm)
  let t (m : FMod) : Nat := m.t.bits
  (∀ df sf rm sat a, RegisterOnly (.cvt df sf rm sat a) a a.a df.regBits none (sr rm)) ∧
  (∀ sf iw u rm a, RegisterOnly (.f2i sf iw u rm a) a a.a iw.regBits none false) ∧
  (∀ df iw u rm sat a, RegisterOnly (.i2f df iw u rm sat a) a a.a df.regBits none (sr rm)) ∧
  (∀ dw du sw su sat a, RegisterOnly (.i2i dw du sw su sat a) a a.a dw.regBits none false) ∧
  (∀ df pos rm sat a, RegisterOnly (.pack df pos rm sat a) a a.a 32 none (sr rm)) ∧
  (∀ sf pos a, RegisterOnly (.unpk sf pos a) a a.a 32 none false) ∧
  (∀ df pos rm fs a, RegisterOnly (.qnt df pos rm fs a) a a.a 32 none (sr rm)) ∧
  (∀ sf pos rm fs a, RegisterOnly (.dqnt sf pos rm fs a) a a.a 32 none (sr rm)) ∧
  (∀ df a, RegisterOnly (.bscale df a) a a.a 32 none false) ∧ (∀ g a, RegisterOnly (.bmax g a) a a.a 32 none false) ∧
  (∀ a, RegisterOnly (.bytx a) a a.a 32 none false) ∧ (∀ a, RegisterOnly (.srstep a) a a.a 32 none true) ∧
  (one .fadd t ∧ one .fsub t ∧ one .fmul t ∧ one .ffma t ∧ one .ffms t ∧ one .fnma t ∧ one .fdiv t ∧ one .fscale t ∧
    one .frint t ∧ one .fdp2 fun _ => 32) ∧
  (∀ m nan a, RegisterOnly (.fmin m nan a) a a.a m.t.bits none false) ∧
  (∀ m nan a, RegisterOnly (.fmax m nan a) a a.a m.t.bits none false) ∧
  (∀ m a, RegisterOnly (.fabs m a) a a.a m.t.bits none false) ∧ (∀ m a, RegisterOnly (.fneg m a) a a.a m.t.bits none false) ∧
  (∀ m k a, RegisterOnly (.fsgn m k a) a a.a m.t.bits none false) ∧ (∀ m k a, RegisterOnly (.fcmp m k a) a a.a 32 none false) ∧
  (∀ m a, RegisterOnly (.fclass m a) a a.a 32 none false) ∧ (∀ m a, RegisterOnly (.fgetx m a) a a.a 32 none false) ∧
  (∀ m a, RegisterOnly (.fgetm m a) a a.a m.t.bits none false) ∧
  (∀ w sp neg a, RegisterOnly (.fsel w sp neg a) a a.a (wbits w) none false) ∧
  (∀ rm z a, RegisterOnly (.rcp rm z a) a a.a 32 none (sr rm)) ∧ (∀ rm z a, RegisterOnly (.sqrt rm z a) a a.a 32 none (sr rm)) ∧
  (∀ z a, RegisterOnly (.rsq z a) a a.a 32 none false ∧ RegisterOnly (.exp2 z a) a a.a 32 none false ∧
    RegisterOnly (.log2 z a) a a.a 32 none false ∧ RegisterOnly (.sin z a) a a.a 32 none false ∧
    RegisterOnly (.cos z a) a a.a 32 none false ∧ RegisterOnly (.tanh z a) a a.a 32 none false ∧
    RegisterOnly (.sigm z a) a a.a 32 none false) ∧
  (∀ z a s x, (∀ n, a.a ≠ .sr n ∧ a.d ≠ .sr n) → Issues (.sincos z a) a s x → ∃ t u, exec (.sincos z a) s = .next t ∧
    SameRegs x (enabled x a) a.a 32 (fun q => a.a = .pred q) s u ∧
    SameRegs x (enabled x a) a.d 32 (fun q => a.d = .pred q) u t ∧ SameMachine s t ∧ SameGens s t)

/-- The frame of NOP, of the votes that move fragments and of the transfers (R155 to R159): where they complete, no register,
predicate or memory byte changes but the link register of CALL and CALLX and the counter of LOOP. -/
def Obligations.TransferFrame : Prop :=
  let only (i : Instr) (a : Args) (o : Operand) (bits : Nat) (p : State → Ix → Prop) : Prop := (∀ n, o ≠ .sr n) →
    ∀ s x, Issues i a s x → p s x → ∃ t, exec i s = .next t ∧
      SameRegs x (enabled x a) o bits (fun q => o = .pred q) s t ∧ SameMachine s t ∧ SameGens s t
  let near (i : Args → Instr) : Prop := ∀ a, only (i a) a .zero 32 fun _ x => targetOk (formO x a) = true
  let far (s : State) (x : Ix) (i : Instr) (a : Args) : Prop :=
    ∀ l ∈ enabled x a, targetOk (w64 (srcI (drawn i a s x) x a 64 a.b l)) = true
  (∀ a, only (.nop a) a .zero 32 fun _ _ => True) ∧ near .bra ∧ near .brany ∧ near .brall ∧
  (∀ a, only (.brx a) a .zero 32 fun s x => far s x (.brx a) a) ∧ (∀ a, only (.ret a) a .zero 32 fun s x => far s x (.ret a) a) ∧
  (∀ a, only (.call a) a a.a 64 fun _ x => targetOk (formO x a) = true) ∧
  (∀ a, only (.callx a) a a.a 64 fun s x => far s x (.callx a) a) ∧
  (∀ a, only (.loop a) a a.a 32 fun _ x => targetOk (formO x a) = true) ∧
  (∀ a, only (.jtab a) a .zero 32 fun s x => ∀ l ∈ enabled x a,
    srcI (drawn (.jtab a) a s x) x a 32 a.b l < srcI (drawn (.jtab a) a s x) x a 32 a.c l →
    targetOk (x.fr.pc + 12 + a.tail.signExtend 64 + 12 * w64 (srcI (drawn (.jtab a) a s x) x a 32 a.b l)) = true)

/-- The frame of the lane exchanges of class 0x5 without a membership mask (R171 to R176): they change the destination and,
with PV, predicate PD. -/
def Obligations.ExchangeFrame : Prop :=
  let pd (a : Args) : Option (BitVec 4) := if a.xmod.getLsbD 4 then some (a.xmod.extractLsb' 0 4) else none
  (∀ w k seg a, RegisterOnly (.shfl w false k seg a) a a.a (wbits w) (pd a) false) ∧
  (∀ op a, RegisterOnly (.vote false op a) a a.a 32 (pd a) false) ∧
  (∀ w op a, RegisterOnly (.redux w false op a) a a.a (wbits w) (pd a) false) ∧
  (∀ w op e a, RegisterOnly (.scan w false op e a) a a.a (wbits w) (pd a) false) ∧
  (∀ w all a, RegisterOnly (.match_ w false all a) a a.a 32 (pd a) false) ∧
  (∀ w a, RegisterOnly (.bcast w false a) a a.a (wbits w) (pd a) false) ∧
  (∀ a, RegisterOnly (.cmpct false a) a a.a 32 (pd a) false) ∧
  (∀ w a, RegisterOnly (.lperm w false a) a a.a (wbits w) (pd a) false)

/-- The frame of the stores. STS and STX (R187, R189, R207, R210): they change no register and no byte but those of their size at each
enabled lane's offset in the scratchpad of the core of their rank, of all that the state holds in which they are performed; that state is
the one before the instruction (casks that it draws apart) where it releases nothing and follows no earlier load of the stored
bytes, and otherwise the one that the release and those loads leave (R200, R201). ST, STB and OCH.ST of lanes that translate to HBM4
(R185, R192, R207, R209, R212, R217): they change no register and no memory but the words of the bytes stored at the lanes' addresses, at
home and in the L1s, where a byte that is not stored keeps its value, or takes at home the one that an L1 held dirty; a plain store where
the L1 has room for its lines, and one past the L1 besides performs with its own lanes the stores of their request. Likewise from the
state in which they are performed, which is the one before the instruction where nothing goes before it and every page is cached. -/
def Obligations.StoreFrame : Prop :=
  let scr (i : Instr) (m : MemMod) (a : Args) (form : TailForm) (score : Bool) (rank : State → Ix → Nat) : Prop := ∀ s x,
    let t0 := drawn i a s x
    let n := m.sz.bytes
    let as := (enabled x a).map fun l => (l, offVa t0 x a form l)
    let k := rank t0 x
    let v := scrFollowed x k n as (relStart m.ord .cl x t0)
    let stored (off : Nat) : Prop := ∃ l ∈ enabled x a, offVa t0 x a form l ≤ off ∧ off < offVa t0 x a form l + n
    Issues i a s x → preCheck as n (fun o => o + n ≤ x.tr.scratch) = none →
    (score = true → (as.any fun e => rangeBusy t0 x.core x.ref.train e.2 n) = false) → (score = false → k < x.tr.cores.length) →
    ScrInTurn x k n as (relStart m.ord .cl x t0) → relMay m.ord .cl x t0 →
    ∃ t, exec i s = .next t ∧ ScratchOnly x [] .zero 32 k stored v t ∧
      (m.ord = false → scrPending t0 x k n as = false → ScratchOnly x [] .zero 32 k stored s t)
  let home (i : Instr) (a : Args) (sz : MSize) (s : State) (x : Ix) (t : State) (past hbm : Bool) (closed : LAcc → Bool)
      (chan : LAcc → Option Nat) (may : Prop) : Prop :=
    let n := sz.bytes
    let as := (enabled x a).map fun l => (l, globVa t x a l)
    let v := reached x .store n past as t
    let bs := accesses x .store as t
    let stored (ma : Nat) : Prop := (∃ b ∈ bs, b.ma ≤ ma ∧ ma < b.ma + n) ∨
      (past = true ∧ ∃ q ∈ v.stores, v.nextId ≤ q.grp ∧ q.reg = false ∧ q.ma ≤ ma ∧ ma < q.ma + q.bytes.length)
    let only (s z : State) : Prop := WordsOnly x.cluster stored (fun wa => ∃ ma, stored ma ∧ ma / 4 = wa) (fun _ => False) s z ∧
      KeepsCopies stored s z ∧ SameRegs x [] .zero 32 (fun _ => false) s z ∧ SameGens s z
    Issues i a s x → Reaches x .store n true hbm (fun _ => closed) as t → InTurn x .store n past as t →
    (storeLanes v x past chan n (storeBytes t x a sz) bs).2 = none → may → (∀ b ∈ bs, isMmio b.ma = false) →
    (past = false → RoomFor v x.cluster (linesAt n bs)) → ∃ z, exec i s = .next z ∧ only v z ∧ (v = drawn i a s x → only s z)
  let glob (i : Instr) (m : MemMod) (a : Args) (byp : Bool) : Prop := ∀ s x,
    let t0 := clampIf m.ord m.sc x (drawn i a s x)
    home i a m.sz s x (relStart m.ord m.sc x t0) (byp || (m.ord && clampScope x.ctx m.sc ≠ .cl)) false (fun _ => false) (fun _ => none)
      (relMay m.ord m.sc x t0)
  (∀ m a, scr (.sts m a) m a .disp true fun _ x => x.rank) ∧
  (∀ m a, scr (.stx m a) m a .d false fun t x => srcI t x a 32 a.d ((enabled x a).headD 0)) ∧
  (∀ m a, glob (.st m a) m a false) ∧ (∀ m a, glob (.stb m a) m a true) ∧
  (∀ sz n a s x, home (.ochSt sz n a) a sz s x (drawn (.ochSt sz n a) a s x) true true
    (fun b => !x.tr.och.contains (8 * maDie b.ma + n.toNat)) (fun b => some (8 * maDie b.ma + n.toNat)) True)

/-- The frame of the loads (R192, R205 to R212): they change no register but the destination's in the enabled lanes and no memory, of all
that the state holds in which they are performed; a load through the L1, where it has room, brings the lines of its words in, where
they were not held; one past the L1 writes the words that it reads back to the home and gives up copies that its cluster does not own.
That state is the one before the instruction (casks that it draws apart) where nothing goes before it and every page is cached. A lane
that reads an MMIO register acts on the device and is no case of this frame. -/
def Obligations.LoadFrame : Prop :=
  let only (x : Ix) (a : Args) (n : Nat) (w f : Nat → Prop) (s z : State) : Prop :=
    WordsOnly x.cluster (fun _ => False) w f s z ∧
    SameRegs x (enabled x a) a.a (if n ≤ 4 then 32 else 8 * n) (fun q => a.a = .pred q) s z ∧ SameGens s z
  let glob (i : Instr) (m : MemMod) (a : Args) (sx byp : Bool) (lanes : List Nat → List Nat) : Prop := (∀ k, a.a ≠ .sr k) → ∀ s x,
    let t0 := clampIf m.ord m.sc x (atOnce m.ord (drawn i a s x))
    let t := acqStart m.ord m.sc x t0
    let n := m.sz.bytes
    let as := (lanes (enabled x a)).map fun l => (l, globVa t x a l)
    let past := byp || (m.ord && clampScope x.ctx m.sc ≠ .cl)
    let v := reached x .load n past as t
    let bs := accesses x .load as t
    let u := loadLanes v x ⟨encodeVamer i, a.a, n, sx⟩ past bs ((enabled x a).headD 0)
    let read (wa : Nat) : Prop := ∃ b ∈ bs, isCellar b.ma = false ∧ wa ∈ wordsOf b.ma n
    let frame := only x a n (fun wa => past = true ∧ read wa) fun wa => past = false ∧ ∃ wb, read wb ∧ wa / 32 = wb / 32
    Issues i a s x → Reaches x .load n false false (fun _ _ => false) as t → InTurn x .load n past as t → u.2 = none →
    acqMay m.ord m.sc x t0 u.1 → (∀ b ∈ bs, isMmio b.ma = false) → (past = false → RoomFor v x.cluster (linesAt n bs)) →
    ∃ z, exec i s = .next z ∧ frame v z ∧ (v = drawn i a s x → frame s z)
  let scr (i : Instr) (m : MemMod) (a : Args) (form : TailForm) (score : Bool) (rank : State → Ix → Nat) : Prop := (∀ k, a.a ≠ .sr k) → ∀ s x,
    let t0 := atOnce m.ord (drawn i a s x)
    let t := acqStart m.ord .cl x t0
    let n := m.sz.bytes
    let as := (enabled x a).map fun l => (l, offVa (drawn i a s x) x a form l)
    let k := rank (drawn i a s x) x
    let v := scrFollowed x k n as t
    let u := loadPlaces (scrReached x k n as t) x ⟨encodeVamer i, a.a, n, m.sx⟩ v.defer (as.map fun e => (e.1, .scr x.ref.train k e.2))
    let frame := only x a n (fun _ => False) fun _ => False
    Issues i a s x → preCheck as n (fun o => o + n ≤ x.tr.scratch) = none →
    (score = true → (as.any fun e => rangeBusy (drawn i a s x) x.core x.ref.train e.2 n) = false) →
    (score = false → k < x.tr.cores.length) → ScrInTurn x k n as t → u.2 = none → acqMay m.ord .cl x t0 u.1 →
    ∃ z, exec i s = .next z ∧ frame v z ∧ (v = drawn i a s x → frame s z)
  (∀ m a, glob (.ld m a) m a m.sx false id) ∧
  (∀ m a, glob (.ldu m a) m a false false fun ls => [ls.headD 0]) ∧
  (∀ m a, glob (.ldb m a) m a m.sx true id) ∧
  (∀ m a, scr (.lds m a) m a .disp true fun _ x => x.rank) ∧
  (∀ m a, scr (.ldx m a) m a .d false fun t x => srcI t x a 32 a.d ((enabled x a).headD 0)) ∧
  (∀ m a, (∀ k, a.a ≠ .sr k) → ∀ s x, let t := drawn (.ldw m a) a s x
    let as := (enabled x a).map fun l => (l, offVa t x a .disp l)
    let u := loadPlaces t x ⟨encodeVamer (.ldw m a), a.a, m.sz.bytes, false⟩ t.defer (as.map fun e => (e.1, .cellar x.die e.2))
    Issues (.ldw m a) a s x → preCheck as m.sz.bytes (fun o => o + m.sz.bytes ≤ 2 ^ 30) = none →
    nbits ((as.headD (0, 0)).2) 24 6 ≠ (crefOf t x.die).1 → u.2 = none →
    ∃ z, exec (.ldw m a) s = .next z ∧ only x a m.sz.bytes (fun _ => False) (fun _ => False) s z)

/-- The frame of the atomics. Those at the home (R220 to R223, R226 to R230), performed at once or all left in their queues: no register
but the destination's in the enabled lanes, and no memory but the words of the lanes' locations, and of steps that were queued there
before and go first. Those in the scratchpad (R224): no register but the destination's, and no byte but the lanes' locations. From the
state in which they are performed, as for the loads and stores. -/
def Obligations.AtomicFrame : Prop :=
  let n (m : AtomMod) : Nat := if m.w64 then 8 else 4
  let glob (i : Instr) (m : AtomMod) (a : Args) (form : TailForm) (dst : Option Operand) (lanes : List Nat → List Nat)
      (val : State → State → Ix → Nat → LStep) : Prop := (∀ k, dst ≠ some (.sr k)) → ∀ s x,
    let t0 := clampIf (m.ord ≠ .relaxed) m.sc x (drawn i a s x)
    let t1 := atOnce (ordAcquires m.ord) (relStart (ordReleases m.ord) m.sc x t0)
    let t := acqStart (ordAcquires m.ord) m.sc x t1
    let as := (lanes (enabled x a)).map fun l => (l, atomVa t x a form l)
    let v := reached x .atomic (n m) true as t
    let bs := accesses x .atomic as t
    let u := atomLanes x m (encodeVamer i) dst ((enabled x a).headD 0) (val (drawn i a s x) t x) v bs
    let stored (ma : Nat) : Prop := (∃ b ∈ bs, b.ma ≤ ma ∧ ma < b.ma + n m) ∨
      ∃ q ∈ queuedAt v bs (n m), q.ma ≤ ma ∧ ma < q.ma + if q.w64 then 8 else 4
    let only (s z : State) : Prop := WordsOnly x.cluster stored (fun wa => ∃ ma, stored ma ∧ ma / 4 = wa) (fun _ => False) s z ∧
      SameRegs x (enabled x a) (dst.getD .zero) (8 * n m) (fun q => dst.getD .zero = .pred q) s z ∧ SameGens s z
    Issues i a s x → Reaches x .atomic (n m) true true (fun _ _ => false) as t → InTurn x .atomic (n m) true as t → u.2 = none →
    relMay (ordReleases m.ord) m.sc x t0 → acqMay (ordAcquires m.ord) m.sc x t1 u.1 →
    (v.defer = true ∨ stepsFree (if v.defer then v else (queuedAt v bs (n m)).foldl tryStep v) x bs (n m) = true) →
    ∃ z, exec i s = .next z ∧ only v z ∧ (v = drawn i a s x → only s z)
  let scr (i : Instr) (m : AtomMod) (a : Args) (cas : Bool) (dst : Option Operand) : Prop := (∀ k, dst ≠ some (.sr k)) → ∀ s x,
    let t := drawn i a s x
    let as := (enabled x a).map fun l => (l, offVa t x a (if cas then .d else .disp) l)
    let ks := as.map fun e => (e.2, laneStep t x a (8 * n m) cas e.1)
    let u := relStart (ordReleases m.ord) .cl x t
    let v := scrFollowed x x.rank (n m) as u
    let stored (off : Nat) : Prop := ∃ e ∈ as, e.2 ≤ off ∧ off < e.2 + n m
    let only := ScratchOnly x (enabled x a) (dst.getD .zero) (8 * n m) x.rank stored
    Issues i a s x → preCheck as (n m) (fun o => o + n m ≤ x.tr.scratch) = none →
    (as.any fun e => rangeBusy t x.core x.ref.train e.2 (n m)) = false → relMay (ordReleases m.ord) .cl x t →
    ScrInTurn x x.rank (n m) as u → (scrAtomics (scrReached x x.rank (n m) as u) x m ks).2.1 = [] →
    ∃ z, exec i s = .next z ∧ only v z ∧ (v = drawn i a s x → only s z)
  (∀ m a, glob (.atom m a) m a .disp (some a.a) id fun _ t x l => laneStep t x a (8 * n m) false l) ∧
  (∀ m a, glob (.atomc m a) m a .d (some a.a) id fun _ t x l => laneStep t x a (8 * n m) true l) ∧
  (∀ m a, glob (.red m a) m a .disp none id fun _ t x l => laneStep t x a (8 * n m) false l) ∧
  (∀ m a, glob (.atomu m a) m a .disp (some a.a) (fun ls => [ls.headD 0]) fun s _ x l =>
    ⟨l, none, srcI s x a (if m.w64 then 64 else 32) a.c ((enabled x a).headD 0)⟩) ∧
  (∀ m a, glob (.redu m a) m a .disp none (fun ls => [ls.headD 0]) fun s _ x l =>
    ⟨l, none, reduVal m.op m.w64 ((enabled x a).map fun k => (k, srcI s x a (if m.w64 then 64 else 32) a.c k))⟩) ∧
  (∀ m a, scr (.atoms m a) m a false (some a.a)) ∧ (∀ m a, scr (.atomsc m a) m a true (some a.a)) ∧
  (∀ m a, scr (.reds m a) m a false none)

/-- The frame of casks and barriers, from the state that their release or acquire leaves (R201, R236, R246), which is the one before the
instruction where nothing goes before it. A cask instruction changes its target, and the destination of one that reads it (R234, R237 to
R242). A barrier wait changes its destination alone (R246 to R248, R251); an arrival at a train or launch barrier its destination and
barriers of that kind (R244, R248); MBINIT, MBARR and MBEXP no byte but the 16 of their object, and their destination (R249, R251). -/
def Obligations.SyncFrame : Prop :=
  let whole (x : Ix) (off : Nat) : Prop := mbPoison x.tr x.rank off = false
  let left (t : State) (x : Ix) (a : Args) (form : TailForm) (ls : List Nat) : Bool :=
    phaseLeft t x a a.c 16 (mbGet x.tr x.rank (offVa t x a form ((enabled x a).headD 0))).ph ls
  let sound (t : State) (x : Ix) (a : Args) (form : TailForm) : Prop :=
    let off := offVa t x a form ((enabled x a).headD 0)
    off % 16 = 0 ∧ off + 16 ≤ x.tr.scratch ∧ whole x off
  let late (t : State) (x : Ix) (a : Args) (o : Operand) : Prop :=
    x.fr.deadline.getD (t.rtime + rtCap (srcI t x a 32 o ((enabled x a).headD 0))) ≤ t.rtime
  let one (n : Nat) : State → Ix → Option (Nat → Nat) := fun _ _ => some fun _ => n
  let timed (i : Instr) (a : Args) (sc : Scope) (time : Operand) (cond : State → Ix → Prop) (left : State → Ix → Bool) : Prop :=
    WaitOnly i a sc a.a true (fun t x => cond t x ∧ left t x = true) (one 1) ∧
    WaitOnly i a sc a.a false (fun t x => cond t x ∧ left t x = false ∧ late t x a time) (one 0)
  let counts (n : Nat) (t : State) (x : Ix) (a : Args) : Prop := barCheck x n (srcI t x a 32 a.c ((enabled x a).headD 0)) (enabled x a) = true
  (∀ w n a, CaskOnly (.ckfill w n a) a (some .empty) .zero 32 none true fun _ _ _ => true) ∧
  (∀ op a, CaskOnly (.ckseed op a) a (some .empty) .zero 32 none true
    fun t x _ => decide (srcI t x a 32 a.c ((enabled x a).headD 0) ≤ 255)) ∧
  (∀ op w a, CaskOnly (.ckred op w a) a (some .gathering) .zero 32 none true fun _ _ c => decide (c.gop = op) && !c.poison) ∧
  (∀ w a, CaskOnly (.ckdraw w a) a (some .full) a.a (wbits w) none false fun _ _ c => !c.poison) ∧
  (∀ w a, CaskOnly (.ckpeek w a) a (some .full) a.a (wbits w) none false fun _ _ c => !c.poison) ∧
  (∀ w obs pd a, CaskOnly (.cktry w obs pd a) a (some .full) a.a (wbits w) (some pd) false fun _ _ c => c.f && !c.poison) ∧
  (∀ w obs pd a, CaskOnly (.cktry w obs pd a) a none a.a (wbits w) (some pd) false fun _ _ c => !c.f) ∧
  (∀ a, CaskOnly (.ckclr a) a none .zero 32 none false fun _ _ _ => true) ∧
  (∀ a, CaskOnly (.ckstat a) a none a.a 32 none false fun _ _ _ => true) ∧
  (∀ sc n a, WaitOnly (.barw sc n a) a sc .zero true
    (fun t x => phaseLeft t x a a.b 32 (x.tr.barrier n.toNat).ph.toNat (enabled x a) = true) fun _ _ => none) ∧
  (∀ sc n a, timed (.bart sc n a) a sc a.c (fun _ _ => True) fun t x =>
    phaseLeft t x a a.b 32 (x.tr.barrier n.toNat).ph.toNat (enabled x a)) ∧
  (∀ sy a, timed (.gbart sy a) a (gbarScope sy) a.c (fun _ x => x.tr.gbar = true) fun t x =>
    phaseLeft t x a a.b 32 (lbarOf t (lbarKey x.tr)).ph.toNat (enabled x a)) ∧
  (∀ sc a, WaitOnly (.mbwait sc a) a sc .zero true (fun t x => sound t x a .disp ∧ left t x a .disp (enabled x a) = true) fun _ _ => none) ∧
  (∀ sc a acq, WaitOnly (.mbtry sc a) a sc a.a acq
    (fun t x => sound t x a .disp ∧ acq = (enabled x a).any fun l => left t x a .disp [l])
    fun t x => some fun l => if left t x a .disp [l] then 1 else 0) ∧
  (∀ sc a, timed (.mbtw sc a) a sc a.d (fun t x => sound t x a .d) fun t x => left t x a .d (enabled x a)) ∧
  (∀ sc n a, ArriveOnly (.bar sc n a) a sc (fun t x => counts n.toNat t x a) (OneBarrier n.toNat)) ∧
  (∀ sc n a, ArriveOnly (.bara sc n a) a sc (fun t x => counts n.toNat t x a) (OneBarrier n.toNat)) ∧
  (∀ sy nw a, ArriveOnly (.gbar sy nw a) a (gbarScope sy) (fun _ x => x.tr.gbar = true ∧
      (enabled x a).any (fun l => ((mget x.co.lanes l).map (·.arrived.getLsbD 16)).getD false) = false) OneLaunch) ∧
  (∀ a, ObjectOnly (.mbinit a) a .zero none fun t x _ =>
    1 ≤ srcI t x a 32 a.c ((enabled x a).headD 0) ∧ srcI t x a 32 a.c ((enabled x a).headD 0) ≤ 65535) ∧
  (∀ sc u a, ObjectOnly (.mbarr sc u a) a a.a (some sc) fun _ x off => whole x off ∧ (mbGet x.tr x.rank off).init ≠ 0) ∧
  (∀ sc a, ObjectOnly (.mbexp sc false a) a .zero none fun _ x off => whole x off) ∧
  (∀ sc a, ObjectOnly (.mbexp sc true a) a a.a (some sc) fun _ x off => whole x off ∧ (mbGet x.tr x.rank off).init ≠ 0)
/-- A step runs the instruction at the program counter (R35, R36, R39, R150, R183): the turn of a fragment that may issue
and waits at no barrier and for no HCALL executes the instruction that its 96-bit word decodes to, read through the caches; where the
instruction caches hold all 12 bytes of one page that translates, it is the word of those bytes. A word that R39 refuses
takes the ILLEGAL trap with the field's number. The turn of a dray executes the instruction in its store (R284), and an
event turn its event, unless the module is held in reset (R451; log 3, model's choice: turns and agenda). -/
def Obligations.StepRunsDecoded : Prop :=
  let turn (s : State) (a : Agent) (d : Bool) (rest : List Turn) : State :=
    { s with agenda := rest, cur := some a, defer := d, stalled := false }
  let ready (s : State) (r : FragRef) (d : Bool) (rest : List Turn) (x : Ix) : Prop :=
    s.agenda = .issue (.frag r) d :: rest ∧ ixOf (turn s (.frag r) d rest) r = some x ∧
    mayIssue (turn s (.frag r) d rest) x = true ∧ x.fr.bar = none ∧ x.fr.due = none ∧ x.fr.hcall = none
  (∀ s r d rest x w s1 i, ready s r d rest x → fetchWord (turn s (.frag r) d rest) x = .ok (w, s1) →
    decodeVamer x.spine w = .ok i → step s = exec i s1) ∧
  (∀ s r d rest x ma key s1 bs i, ready s r d rest x →
    xlate (turn s (.frag r) d rest) x.cluster x.coreTlb x.ctx x.fr.pc.toNat .fetch x.fr.replay false = (.ok ma key, s1) →
    x.fr.pc.toNat % 65536 + 11 < 65536 → isRefused (ma + 11) = false → keyConflict s1 ma key = false → isMmio ma = false →
    icacheBytes s1 x.cluster x.ctx x.fr.pc.toNat = some bs → decodeVamer x.spine (BitVec.ofNat 96 (leVal bs)) = .ok i →
    step s = exec i s1) ∧
  (∀ s r d rest x w s1 f, ready s r d rest x → fetchWord (turn s (.frag r) d rest) x = .ok (w, s1) →
    decodeVamer x.spine w = .error f → step s = .next (issueIllegal s1 r w f)) ∧
  (∀ s t rank hart d rest x w, s.agenda = .issue (.dray t rank hart) d :: rest →
    dxOf (turn s (.dray t rank hart) d rest) t rank hart = some x → x.tr.res = .resident → x.d.halted = false →
    ctxRuns (turn s (.dray t rank hart) d rest) x.tr.ctx = true → x.d.fetch = .ok w →
    step s = exec (decodeDray w) (turn s (.dray t rank hart) d rest)) ∧
  (∀ s i e rest, s.agenda = .event i e :: rest → (s.host.heldVolt = false ∨ whileHeld i = true) →
    step s = exec i { s with agenda := rest, ev := e }) ∧
  (∀ s i e rest, s.agenda = .event i e :: rest → s.host.heldVolt = true → whileHeld i = false →
    step s = .next { s with agenda := rest }) ∧
  (∀ s rest, s.agenda = .tick :: rest → step s = .next (passRt { s with agenda := rest }))

/-! ### Results as the rules give them -/

/-- ADD, SUB, ADDC and SUBB (R73, R74): with b and c the sources read unsigned (u) or as two's complement (s), the result is
the exact sum or difference modulo 2^N, or clamped to the range with SAT; the flag is the carry or borrow out of the unsigned
result, or the overflow of the signed one. CP is the carry in and receives the carry out; p15 reads 1 and discards. -/
def Obligations.AddSubResult : Prop :=
  let N (m : IntMod) : Nat := m.w.bits
  let eu (sub : Bool) (b c : Nat) : Int := if sub then (b : Int) - c else (b : Int) + c
  let es (sub : Bool) (n b c : Nat) : Int := if sub then sval n b - sval n c else sval n b + sval n c
  let addsub (sub : Bool) (m : IntMod) (b c v : Nat) (f : Bool) : Prop :=
    (m.sat = false → (v : Int) = eu sub b c % 2 ^ N m) ∧
    (m.sat = true → m.u = true → (v : Int) = min (max (eu sub b c) 0) (2 ^ N m - 1)) ∧
    (m.sat = true → m.u = false →
      (v : Int) = min (max (es sub (N m) b c) (-2 ^ (N m - 1))) (2 ^ (N m - 1) - 1) % 2 ^ N m) ∧
    (m.po = .carry → (f = true ↔ if sub then eu sub b c < 0 else eu sub b c > 2 ^ N m - 1)) ∧
    (m.po = .ov → (f = true ↔ es sub (N m) b c < -2 ^ (N m - 1) ∨ es sub (N m) b c > 2 ^ (N m - 1) - 1))
  let carry (sub : Bool) (n b c : Nat) (k : Bool) (v : Nat) (f : Bool) : Prop :=
    let e : Int := if sub then (b : Int) - c - (if k then 1 else 0) else (b : Int) + c + (if k then 1 else 0)
    (v : Int) = e % 2 ^ n ∧ (f = true ↔ if sub then e < 0 else e > 2 ^ n - 1)
  (∀ m a, Gives (.add m a) a a.a (N m) (flagPd m.po m.pd) fun t x l v f =>
    addsub false m (srcI t x a (N m) a.b l) (srcI t x a (N m) a.c l) v f) ∧
  (∀ m a, Gives (.sub m a) a a.a (N m) (flagPd m.po m.pd) fun t x l v f =>
    addsub true m (srcI t x a (N m) a.b l) (srcI t x a (N m) a.c l) v f) ∧
  (∀ w cp a, Gives (.addc w cp a) a a.a (wbits w) (some cp) fun t x l v f =>
    carry false (wbits w) (srcI t x a (wbits w) a.b l) (srcI t x a (wbits w) a.c l) (predOf x l cp) v f) ∧
  (∀ w cp a, Gives (.subb w cp a) a a.a (wbits w) (some cp) fun t x l v f =>
    carry true (wbits w) (srcI t x a (wbits w) a.b l) (srcI t x a (wbits w) a.c l) (predOf x l cp) v f)

/-- MIN, MAX and ABS (R78, R79). MIN and MAX: the lesser or the greater of B and C, compared as signed numbers, or as unsigned ones with
U. ABS: the absolute value of B read signed; the least value of the width stays as it is, or becomes the greatest one with SAT, and the
overflow flag says that B was the least value. -/
def Obligations.MinMaxAbsResult : Prop :=
  let num (m : IntMod) (z : Nat) : Int := if m.u then (z : Int) else sval m.w.bits z
  (∀ m a, Gives (.min m a) a a.a m.w.bits none fun t x l v _ =>
    let b := srcI t x a m.w.bits a.b l
    let c := srcI t x a m.w.bits a.c l
    (v = b ∧ num m b ≤ num m c) ∨ (v = c ∧ num m c ≤ num m b)) ∧
  (∀ m a, Gives (.max m a) a a.a m.w.bits none fun t x l v _ =>
    let b := srcI t x a m.w.bits a.b l
    let c := srcI t x a m.w.bits a.c l
    (v = b ∧ num m c ≤ num m b) ∨ (v = c ∧ num m b ≤ num m c)) ∧
  (∀ m a, Gives (.abs m a) a a.a m.w.bits (flagPd m.po m.pd) fun t x l v f =>
    let b := srcI t x a m.w.bits a.b l
    let least : Int := -2 ^ (m.w.bits - 1)
    (sval m.w.bits b > least → (v : Int) = if sval m.w.bits b < 0 then -sval m.w.bits b else sval m.w.bits b) ∧
    (sval m.w.bits b = least → sval m.w.bits v = if m.sat then 2 ^ (m.w.bits - 1) - 1 else least) ∧
    (m.po = .ov → (f = true ↔ sval m.w.bits b = least)))

/-- AND, OR, XOR and NOT (R80), bit by bit; SHL, SHR, SAR and ROT (R81): the amount is the whole of C, 32 bits, read unsigned, and the
result that of the table's two columns. -/
def Obligations.LogicShiftResult : Prop :=
  let bitwise (i : Instr) (m : IntMod) (a : Args) (g : Bool → Bool → Bool) : Prop :=
    Gives i a a.a m.w.bits none fun t x l v _ => ∀ j, j < m.w.bits →
      v.testBit j = g ((srcI t x a m.w.bits a.b l).testBit j) ((srcI t x a m.w.bits a.c l).testBit j)
  let shift (i : Instr) (m : IntMod) (a : Args) (g : Nat → Nat → Nat → Prop) : Prop :=
    Gives i a a.a m.w.bits none fun t x l v _ => g (srcI t x a m.w.bits a.b l) (srcI t x a 32 a.c l) v
  let N (m : IntMod) : Nat := m.w.bits
  (∀ m a, bitwise (.and m a) m a (· && ·)) ∧ (∀ m a, bitwise (.or m a) m a (· || ·)) ∧
  (∀ m a, bitwise (.xor m a) m a (· != ·)) ∧ (∀ m a, bitwise (.not m a) m a fun b _ => !b) ∧
  (∀ m a, shift (.shl m a) m a fun b s v => (s < N m → v = b * 2 ^ s % 2 ^ N m) ∧ (N m ≤ s → v = 0)) ∧
  (∀ m a, shift (.shr m a) m a fun b s v => (s < N m → v = b / 2 ^ s) ∧ (N m ≤ s → v = 0)) ∧
  (∀ m a, shift (.sar m a) m a fun b s v =>
    (s < N m → (v : Int) = sval (N m) b / 2 ^ s % 2 ^ N m) ∧
    (N m ≤ s → ∀ j, j < N m → v.testBit j = b.testBit (N m - 1))) ∧
  (∀ m a, shift (.rot m a) m a fun b s v => ∀ j, j < N m → v.testBit j = b.testBit ((j + N m - s % N m) % N m))

/-- POPC, CLZ, CTZ and BREV (R85); the counts are 32-bit results. SEL (R87): B where the selector predicate differs from NEG, C elsewhere,
read with the sources; its word holds NEG in bit 4 and SP in bits 3 to 0 of OPX. -/
def Obligations.CountSelectResult : Prop :=
  let count (i : Instr) (m : IntMod) (a : Args) (bits : Nat) (g : Nat → Nat → Prop) : Prop :=
    Gives i a a.a bits none fun t x l v _ => g (srcI t x a m.w.bits a.b l) v
  let N (m : IntMod) : Nat := m.w.bits
  (∀ m a, count (.popc m a) m a 32 fun b v => v = ((List.range (N m)).filter b.testBit).length) ∧
  (∀ m a, count (.clz m a) m a 32 fun b v => (b = 0 → v = N m) ∧
    (b ≠ 0 → v < N m ∧ b.testBit (N m - 1 - v) = true ∧ ∀ j, N m - 1 - v < j → j < N m → b.testBit j = false)) ∧
  (∀ m a, count (.ctz m a) m a 32 fun b v => (b = 0 → v = N m) ∧
    (b ≠ 0 → v < N m ∧ b.testBit v = true ∧ ∀ j, j < v → b.testBit j = false)) ∧
  (∀ m a, count (.brev m a) m a (N m) fun b v => ∀ j, j < N m → v.testBit j = b.testBit (N m - 1 - j)) ∧
  (∀ w neg sp a, Gives (.sel w neg sp a) a a.a (wbits w) none fun t x l v _ =>
    v = if (predOf x l sp ^^ neg) = true then srcI t x a (wbits w) a.b l else srcI t x a (wbits w) a.c l) ∧
  (∀ w neg sp a, (encodeVamer (.sel w neg sp a)).extractLsb' 35 6 = (0 : BitVec 1) ++ b1 neg ++ sp)
/-! ### Taking a trap (R397 to R403) -/

/-- A trap of class c is reflected if the fragment holds a frame, the context's reflect mask has bit c (1 to 13), or TVEC
reads 0 (R398, R402): the fragment parks with the instruction, or for kind A the next one, as its PC, and the parent's fault
queue gets a report with the code and the detail words. Otherwise, with a free frame slot, it enters the handler (R400): the
frame holds the trap's fields, the resume PC, the lanes, their v0 to v3 and their predicates (R403); those predicates become 0 and the
PC TVEC; no register, no other fragment, no other coach and no byte of memory changes. With no free slot a kind-B instruction waits
and a kind-A trap stays due, as it does while its instruction waits at a barrier (R430). -/
def Obligations.TrapEntry : Prop :=
  ∀ s r x (t : Trap) (b : Bool) tpc word, ixOf s r = some x →
    let rpc := if b then tpc else x.fr.pc
    let reflected := (x.co.frameOf x.fr.mask).isSome = true ∨
      (1 ≤ t.cls ∧ t.cls ≤ 13 ∧ (s.ctx x.ctx).reflect.getLsbD t.cls = true) ∨ (s.ctx x.ctx).sys.tvec = 0
    let u := takeTrap s r t b tpc word
    let waits := b = false ∧ x.fr.bar.isSome = true
    (waits → u = modFrag s r fun f => { f with due := some ⟨t, tpc, word⟩ }) ∧
    (¬ waits → ¬ reflected → freeSlot s x = none →
      u = if b then stall s r .frames else modFrag s r fun f => { f with due := some ⟨t, tpc, word⟩ }) ∧
    (¬ waits → reflected → s.hasCtx (parentOf s x.ctx) = true →
      (∃ co f, coachAt u r.train r.coach = some co ∧ mget co.frags r.frag = some f ∧ f.park.isSome = true ∧ f.pc = rpc ∧
        f.mask = x.fr.mask) ∧
      ∃ rep, (u.ctx (parentOf s x.ctx)).fqWait = (s.ctx (parentOf s x.ctx)).fqWait ++ [rep] ∧ rep.pc = tpc ∧ rep.ty = 0 ∧
        rep.lanes = x.fr.mask ∧ rep.aux = t.d0 ∧ rep.va = t.d1 ∧
        rep.code = if (x.co.frameOf x.fr.mask).isSome then t.code ||| 0x8000 else t.code) ∧
    (¬ waits → ¬ reflected → ∀ slot, freeSlot s x = some slot →
      (∃ co f g, coachAt u r.train r.coach = some co ∧ mget co.frames slot = some f ∧ mget co.frags r.frag = some g ∧
        g.pc = (s.ctx x.ctx).sys.tvec ∧ g.mask = x.fr.mask ∧ (∀ n, n ≠ r.frag → mget co.frags n = mget x.co.frags n) ∧
        f.tpc = tpc ∧ f.rpc = rpc ∧ f.word = word ∧ f.lanes = x.fr.mask ∧ f.code = t.code ∧ f.field = t.field ∧
        f.detail0 = t.d0 ∧ f.detail1 = t.d1 ∧ f.frag = BitVec.ofNat 8 r.frag ∧
        ∀ l k, x.fr.mask.getLsbD l = true → mget x.co.lanes l = some k →
          mgetD f.preds l 0 = k.predWord ∧ ∀ j, j < 4 → mgetD f.savedv (4 * l + j) 0 = k.reg j) ∧
      (∀ l q, x.fr.mask.getLsbD l = true → (mget x.co.lanes l).isSome = true → pReg u r.train r.coach l q = some (decide (q = 15))) ∧
      SameRegs x (lanesOf x.fr.mask) .unused 32 (fun _ => true) s u ∧ SameMemory s u ∧
      ∀ k c, ¬ (k = r.train ∧ c = r.coach) → coachAt u k c = coachAt s k c)

/-! ### Words and instructions -/

/-- Words written out bit by bit from R35, R43, R46 and the operation tables of the classes decode to their instructions;
R39 refuses a reserved PO (R69) with field MOD. -/
def Obligations.DecodedWords : Prop :=
  let word (w : Word96) (i : Instr) : Prop := decodeVamer false w = .ok i
  let x (a b c d : Operand) (tail : Word32) (xmod : BitVec 20) : Args := ⟨false, 15, 0, false, a, b, c, d, tail, xmod⟩
  word 0x006400E00780000300012345 (.add ⟨.w32, false, false, .none, 0⟩
    ⟨true, 2, 1, true, .v 7, .v 3, .tail, .unused, 0x12345, 0⟩) ∧
  word 0x005E01000000889800000000 (.add ⟨.w64, false, false, .carry, 3⟩ (x (.v 8) (.v 0) (.v 4) .unused 0 0)) ∧
  word 0x20DE00800400400000500000 (.ffma ⟨.f32, .rn, false, false⟩ (x (.v 4) (.v 2) (.v 2) (.v 5) 0 0)) ∧
  word 0x63DE0000000000A000000000 (.fence .acq .pt (x .unused .unused .unused .unused 0 0)) ∧
  word 0x815E000C0200B00000000000 (.ckred .fadd false (x .unused (.k 1 false) (.v 5) .unused 0 0)) ∧
  word 0xB15E00140400800000000000 (.spawn (x (.v 0) (.imm 2) (.v 4) .unused 0 0)) ∧
  word 0xD05E00000000000000000000 (.tret (x .unused .unused .unused .unused 0 0)) ∧
  word 0 (.ztrap 0) ∧
  decodeVamer false 0x005E00200400618000000000 = .error .mod ∧
  decodeDray 0x00B5202B = .dwait 10 11 ∧ decodeDray 0x00A00513 = .rv32imcInstruction (.opImm .add 10 0 10) 4

/-- Every Vamer instruction that a word can hold decodes from its word (R35 to R58), on a SIMT core and on a spine. -/
def Obligations.VamerRoundTrip : Prop :=
  ∀ spine i, i.isDray = false → i.wf spine = true →
    (i.args.isSome = true ∨ (∃ w, i = .ztrap w) ∨ (∃ w, i = .onesWord w) ∨ ∃ w, i = .unassignedOpc w) →
    decodeVamer spine (encodeVamer i) = .ok i

/-- Every dray instruction with a 32-bit encoding decodes from it (R283, R286). -/
def Obligations.DrayRoundTrip : Prop := ∀ i, i.isDray = true → i.wf false = true → decodeDray (encodeDray i) = i

/-! ### Invariants and reset -/

/-- No step takes memory out of its canonical form: addresses rise strictly and no listed byte is what an unlisted one
reads as (log 1, the model's choice of that byte). -/
def Obligations.StepKeepsMemoryCanonical : Prop := ∀ s t, MemoryCanonical s → step s = .next t → MemoryCanonical t

/-- Memory is in its canonical form at reset. -/
def Obligations.ResetMemoryCanonical : Prop := MemoryCanonical State.reset ∧ State.reset.mem = []

/-- The values that the spec gives for reset: the system registers, STEP and CNT_STAT among them (R420), sensor classes and skips (R334), XMB_BOOT (R448), the
thresholds and the ceilings of the shipped record (R334, R448, R451), and nothing resident. -/
def Obligations.ResetValues : Prop :=
  (∀ n ∈ [0x00, 0x02, 0x20, 0x21, 0x22, 0x23, 0x24, 0x25, 0x26, 0x27], sysGet State.reset 0 n = 0) ∧ sysGet State.reset 0 0x01 = 1000000 ∧ sysGet State.reset 0 0x0D = 1 ∧
  (∀ n ∈ [0x03, 0x04, 0x05, 0x06, 0x07, 0x08, 0x09, 0x0A, 0x0B, 0x0C, 0x0E, 0x10, 0x11, 0x12, 0x13, 0x14, 0x15, 0x16, 0x17,
    0x18, 0x19, 0x1A, 0x1B, 0x1C, 0x1D, 0x1E, 0x1F, 0x28, 0x29, 0x2A, 0x2B, 0x30, 0x31], sysGet State.reset 0 n = 0) ∧
  (∀ k, (State.reset.core k).cls = 0 ∧ (State.reset.core k).skip = 0) ∧
  State.reset.host.boot = 0 ∧ State.reset.host.config.thr = [85, 95, 105, 30, 50, 70] ∧
  State.reset.host.config.clockSteps = 0 ∧ State.reset.host.config.powerCeil = 3400 ∧
  State.reset.trains = [] ∧ State.reset.queues = [] ∧ State.reset.gates = []
end

