-- ==== Sys2Proof/Laws/Maps.lean ====
section
/-! SUPPORT. Sorted maps and memory: read after write, other keys untouched, and the canonical form that every write
keeps. -/

namespace Sys2Proof.Machine

open Sys2Proof

@[simp] theorem mget_nil {α : Type} (k : Nat) : mget ([] : SMap α) k = none := rfl

/-- Read after write. -/
@[simp] theorem mget_mset_self {α : Type} (m : SMap α) (k : Nat) (v : α) : mget (mset m k v) k = some v := by
  induction m with
  | nil => simp [mset, mget]
  | cons e t ih =>
    obtain ⟨a, w⟩ := e
    by_cases h : k < a
    · simp [mset, h, mget]
    · by_cases h' : k = a
      · simp [mset, h', mget]
      · have h'' : a ≠ k := fun e => h' e.symm
        simp [mset, h, h', mget, h'', ih]

/-- A write leaves every other key alone. -/
theorem mget_mset_of_ne {α : Type} (m : SMap α) {k j : Nat} (v : α) (n : j ≠ k) : mget (mset m k v) j = mget m j := by
  induction m with
  | nil => simp [mset, mget, n.symm]
  | cons e t ih =>
    obtain ⟨a, w⟩ := e
    simp only [mset]
    split
    · simp [mget, n.symm]
    · split
      · next h => subst h; simp [mget, n.symm]
      · simp only [mget, ih]

theorem mget_mset {α : Type} (m : SMap α) (k j : Nat) (v : α) :
    mget (mset m k v) j = if j = k then some v else mget m j := by
  by_cases n : j = k
  · simp [n]
  · simp [n, mget_mset_of_ne m v n]

/-- Every key is above `k`. -/
def keysAbove {α : Type} (k : Nat) (m : SMap α) : Bool := m.all fun e => k < e.1

theorem keysAbove_mono {α : Type} {a b : Nat} (m : SMap α) (h : a ≤ b) (hm : keysAbove b m = true) :
    keysAbove a m = true := by
  simp only [keysAbove, List.all_eq_true, decide_eq_true_eq] at hm ⊢
  intro e he
  have := hm e he
  omega

theorem keysRise_cons {α : Type} (a : Nat) (w : α) (t : SMap α) :
    keysRise ((a, w) :: t) = (keysAbove a t && keysRise t) := by
  induction t generalizing a w with
  | nil => simp [keysRise, keysAbove]
  | cons e t ih =>
    obtain ⟨b, x⟩ := e
    have hb : keysAbove a ((b, x) :: t) = (decide (a < b) && keysAbove a t) := rfl
    simp only [keysRise, ih, hb]
    by_cases h : a < b
    · cases h2 : keysAbove b t
      · simp
      · simp [h, keysAbove_mono t (Nat.le_of_lt h) h2]
    · simp [h]

theorem keysAbove_mset {α : Type} {a k : Nat} (m : SMap α) (v : α) (hk : a < k) (hm : keysAbove a m = true) :
    keysAbove a (mset m k v) = true := by
  induction m with
  | nil => simp [mset, keysAbove, hk]
  | cons e t ih =>
    obtain ⟨b, w⟩ := e
    simp only [keysAbove, List.all_cons, Bool.and_eq_true, decide_eq_true_eq] at hm ih
    simp only [mset]
    split
    · simp only [keysAbove, List.all_cons, hk, hm.1, decide_true, Bool.true_and]
      exact hm.2
    · split
      · simp only [keysAbove, List.all_cons, hk, decide_true, Bool.true_and]
        exact hm.2
      · simp only [keysAbove, List.all_cons, hm.1, decide_true, Bool.true_and]
        exact ih hm.2

theorem keysAbove_mdel {α : Type} {a : Nat} (m : SMap α) (k : Nat) (hm : keysAbove a m = true) :
    keysAbove a (mdel m k) = true := by
  simp only [keysAbove, List.all_eq_true, mdel, List.mem_filter] at hm ⊢
  exact fun e he => hm e he.1

/-- Keys keep rising through a write. -/
theorem keysRise_mset {α : Type} (m : SMap α) (k : Nat) (v : α) (h : keysRise m = true) : keysRise (mset m k v) = true := by
  induction m with
  | nil => simp [mset, keysRise]
  | cons e t ih =>
    obtain ⟨a, w⟩ := e
    have h0 := h
    rw [keysRise_cons, Bool.and_eq_true] at h
    simp only [mset]
    split
    · next hk =>
      rw [keysRise_cons, Bool.and_eq_true]
      refine ⟨?_, h0⟩
      simp only [keysAbove, List.all_cons, hk, decide_true, Bool.true_and]
      exact keysAbove_mono t (Nat.le_of_lt hk) h.1
    · next hk =>
      split
      · next he => subst he; rw [keysRise_cons, Bool.and_eq_true]; exact h
      · next he =>
        rw [keysRise_cons, Bool.and_eq_true]
        exact ⟨keysAbove_mset t v (by omega) h.1, ih h.2⟩

theorem keysRise_mdel {α : Type} (m : SMap α) (k : Nat) (h : keysRise m = true) : keysRise (mdel m k) = true := by
  induction m with
  | nil => rfl
  | cons e t ih =>
    obtain ⟨a, w⟩ := e
    rw [keysRise_cons, Bool.and_eq_true] at h
    by_cases hk : a = k
    · simpa [mdel, hk] using ih h.2
    · have e1 : mdel ((a, w) :: t) k = (a, w) :: mdel t k := by simp [mdel, hk]
      rw [e1, keysRise_cons, Bool.and_eq_true]
      exact ⟨keysAbove_mdel t k h.1, ih h.2⟩

/-- A deleted key is absent, and every other key stays. -/
theorem mget_mdel {α : Type} (m : SMap α) (k j : Nat) : mget (mdel m k) j = if j = k then none else mget m j := by
  induction m with
  | nil => simp [mdel]
  | cons e t ih =>
    obtain ⟨a, w⟩ := e
    by_cases hk : a = k
    · subst hk
      have e1 : mdel ((a, w) :: t) a = mdel t a := by simp [mdel]
      rw [e1, ih]
      by_cases hj : j = a
      · simp [hj]
      · have h' : ¬ a = j := fun e => hj e.symm
        simp [hj, mget, h']
    · have e1 : mdel ((a, w) :: t) k = (a, w) :: mdel t k := by simp [mdel, hk]
      rw [e1]
      simp only [mget, ih]
      by_cases hj : a = j
      · subst hj; simp [hk]
      · simp [hj]

/-- A write of a map with a default, read with that default. -/
theorem mgetD_mput {α : Type} [DecidableEq α] (d : α) (m : SMap α) (k j : Nat) (v : α) :
    mgetD (mput d m k v) j d = if j = k then v else mgetD m j d := by
  unfold mput mgetD
  split
  · next h => rw [mget_mdel]; split <;> simp [h]
  · rw [mget_mset]; split <;> simp

/-! ### Memory -/

theorem all_mset {p : Nat × Byte → Bool} (m : Memory) (k : Nat) (v : Byte) (hm : m.all p = true) (hv : p (k, v) = true) :
    (mset m k v).all p = true := by
  induction m with
  | nil => simp [mset, hv]
  | cons e t ih =>
    obtain ⟨a, w⟩ := e
    simp only [List.all_cons, Bool.and_eq_true] at hm
    simp only [mset]
    split
    · simp only [List.all_cons, hv, hm.1, Bool.true_and]; exact hm.2
    · split
      · simp only [List.all_cons, hv, Bool.true_and]; exact hm.2
      · simp only [List.all_cons, hm.1, Bool.true_and]; exact ih hm.2

theorem all_mdel {p : Nat × Byte → Bool} (m : Memory) (k : Nat) (hm : m.all p = true) : (mdel m k).all p = true := by
  simp only [List.all_eq_true, mdel, List.mem_filter] at hm ⊢
  exact fun e he => hm e he.1

@[simp] theorem Memory.wf_nil : Memory.wf [] = true := rfl

/-- A write keeps the canonical form. -/
theorem Memory.wf_write (m : Memory) (a : Nat) (b : Byte) (h : Memory.wf m = true) : Memory.wf (Memory.write m a b) = true := by
  simp only [Memory.wf, Bool.and_eq_true] at h
  simp only [Memory.wf, Memory.write, mput, Bool.and_eq_true]
  split
  · exact ⟨keysRise_mdel m a h.1, all_mdel m a h.2⟩
  · next hb => exact ⟨keysRise_mset m a b h.1, all_mset m a b h.2 (by simpa using hb)⟩

/-- Reading a byte after it is written gives what was written, and every other byte reads as before. -/
theorem Memory.read_write (m : Memory) (a j : Nat) (b : Byte) :
    Memory.read (Memory.write m a b) j = if j = a then b else Memory.read m j := mgetD_mput 0 m a j b

end Sys2Proof.Machine
end

