-- ==== Sys2Proof/Laws/State.lean ====
section
/-! SUPPORT. What each named update of the state leaves alone, field by field, and what it writes. -/

namespace Sys2Proof.Machine

open Sys2Proof

/-! #### setTrain -/

@[simp] theorem setTrain_agenda (s : State) (t : Nat) (x : Train) : (setTrain s t x).agenda = s.agenda := rfl
@[simp] theorem setTrain_cur (s : State) (t : Nat) (x : Train) : (setTrain s t x).cur = s.cur := rfl
@[simp] theorem setTrain_defer (s : State) (t : Nat) (x : Train) : (setTrain s t x).defer = s.defer := rfl
@[simp] theorem setTrain_stalled (s : State) (t : Nat) (x : Train) : (setTrain s t x).stalled = s.stalled := rfl
@[simp] theorem setTrain_ev (s : State) (t : Nat) (x : Train) : (setTrain s t x).ev = s.ev := rfl
@[simp] theorem setTrain_beat (s : State) (t : Nat) (x : Train) : (setTrain s t x).beat = s.beat := rfl
@[simp] theorem setTrain_fresh (s : State) (t : Nat) (x : Train) : (setTrain s t x).fresh = s.fresh := rfl
@[simp] theorem setTrain_nextId (s : State) (t : Nat) (x : Train) : (setTrain s t x).nextId = s.nextId := rfl
@[simp] theorem setTrain_waitSeq (s : State) (t : Nat) (x : Train) : (setTrain s t x).waitSeq = s.waitSeq := rfl
@[simp] theorem setTrain_rtime (s : State) (t : Nat) (x : Train) : (setTrain s t x).rtime = s.rtime := rfl
@[simp] theorem setTrain_timers (s : State) (t : Nat) (x : Train) : (setTrain s t x).timers = s.timers := rfl
@[simp] theorem setTrain_clocks (s : State) (t : Nat) (x : Train) : (setTrain s t x).clocks = s.clocks := rfl
@[simp] theorem setTrain_units (s : State) (t : Nat) (x : Train) : (setTrain s t x).units = s.units := rfl
@[simp] theorem setTrain_crefPhase (s : State) (t : Nat) (x : Train) : (setTrain s t x).crefPhase = s.crefPhase := rfl
@[simp] theorem setTrain_mem (s : State) (t : Nat) (x : Train) : (setTrain s t x).mem = s.mem := rfl
@[simp] theorem setTrain_poison (s : State) (t : Nat) (x : Train) : (setTrain s t x).poison = s.poison := rfl
@[simp] theorem setTrain_tags (s : State) (t : Nat) (x : Train) : (setTrain s t x).tags = s.tags := rfl
@[simp] theorem setTrain_enc (s : State) (t : Nat) (x : Train) : (setTrain s t x).enc = s.enc := rfl
@[simp] theorem setTrain_owner (s : State) (t : Nat) (x : Train) : (setTrain s t x).owner = s.owner := rfl
@[simp] theorem setTrain_stores (s : State) (t : Nat) (x : Train) : (setTrain s t x).stores = s.stores := rfl
@[simp] theorem setTrain_steps (s : State) (t : Nat) (x : Train) : (setTrain s t x).steps = s.steps := rfl
@[simp] theorem setTrain_cellar (s : State) (t : Nat) (x : Train) : (setTrain s t x).cellar = s.cellar := rfl
@[simp] theorem setTrain_cellarPoison (s : State) (t : Nat) (x : Train) : (setTrain s t x).cellarPoison = s.cellarPoison := rfl
@[simp] theorem setTrain_vintage (s : State) (t : Nat) (x : Train) : (setTrain s t x).vintage = s.vintage := rfl
@[simp] theorem setTrain_clusters (s : State) (t : Nat) (x : Train) : (setTrain s t x).clusters = s.clusters := rfl
@[simp] theorem setTrain_cores (s : State) (t : Nat) (x : Train) : (setTrain s t x).cores = s.cores := rfl
@[simp] theorem setTrain_ports (s : State) (t : Nat) (x : Train) : (setTrain s t x).ports = s.ports := rfl
@[simp] theorem setTrain_trains (s : State) (t : Nat) (x : Train) : (setTrain s t x).trains = mset s.trains t x := rfl
@[simp] theorem setTrain_trainNext (s : State) (t : Nat) (x : Train) : (setTrain s t x).trainNext = s.trainNext := rfl
@[simp] theorem setTrain_placeSeq (s : State) (t : Nat) (x : Train) : (setTrain s t x).placeSeq = s.placeSeq := rfl
@[simp] theorem setTrain_queues (s : State) (t : Nat) (x : Train) : (setTrain s t x).queues = s.queues := rfl
@[simp] theorem setTrain_levels (s : State) (t : Nat) (x : Train) : (setTrain s t x).levels = s.levels := rfl
@[simp] theorem setTrain_lbars (s : State) (t : Nat) (x : Train) : (setTrain s t x).lbars = s.lbars := rfl
@[simp] theorem setTrain_fills (s : State) (t : Nat) (x : Train) : (setTrain s t x).fills = s.fills := rfl
@[simp] theorem setTrain_pointers (s : State) (t : Nat) (x : Train) : (setTrain s t x).pointers = s.pointers := rfl
@[simp] theorem setTrain_ctxs (s : State) (t : Nat) (x : Train) : (setTrain s t x).ctxs = s.ctxs := rfl
@[simp] theorem setTrain_gates (s : State) (t : Nat) (x : Train) : (setTrain s t x).gates = s.gates := rfl
@[simp] theorem setTrain_host (s : State) (t : Nat) (x : Train) : (setTrain s t x).host = s.host := rfl

/-! #### setQueue -/

@[simp] theorem setQueue_agenda (s : State) (q : Nat) (x : Queue) : (setQueue s q x).agenda = s.agenda := rfl
@[simp] theorem setQueue_cur (s : State) (q : Nat) (x : Queue) : (setQueue s q x).cur = s.cur := rfl
@[simp] theorem setQueue_defer (s : State) (q : Nat) (x : Queue) : (setQueue s q x).defer = s.defer := rfl
@[simp] theorem setQueue_stalled (s : State) (q : Nat) (x : Queue) : (setQueue s q x).stalled = s.stalled := rfl
@[simp] theorem setQueue_ev (s : State) (q : Nat) (x : Queue) : (setQueue s q x).ev = s.ev := rfl
@[simp] theorem setQueue_beat (s : State) (q : Nat) (x : Queue) : (setQueue s q x).beat = s.beat := rfl
@[simp] theorem setQueue_fresh (s : State) (q : Nat) (x : Queue) : (setQueue s q x).fresh = s.fresh := rfl
@[simp] theorem setQueue_nextId (s : State) (q : Nat) (x : Queue) : (setQueue s q x).nextId = s.nextId := rfl
@[simp] theorem setQueue_waitSeq (s : State) (q : Nat) (x : Queue) : (setQueue s q x).waitSeq = s.waitSeq := rfl
@[simp] theorem setQueue_rtime (s : State) (q : Nat) (x : Queue) : (setQueue s q x).rtime = s.rtime := rfl
@[simp] theorem setQueue_timers (s : State) (q : Nat) (x : Queue) : (setQueue s q x).timers = s.timers := rfl
@[simp] theorem setQueue_clocks (s : State) (q : Nat) (x : Queue) : (setQueue s q x).clocks = s.clocks := rfl
@[simp] theorem setQueue_units (s : State) (q : Nat) (x : Queue) : (setQueue s q x).units = s.units := rfl
@[simp] theorem setQueue_crefPhase (s : State) (q : Nat) (x : Queue) : (setQueue s q x).crefPhase = s.crefPhase := rfl
@[simp] theorem setQueue_mem (s : State) (q : Nat) (x : Queue) : (setQueue s q x).mem = s.mem := rfl
@[simp] theorem setQueue_poison (s : State) (q : Nat) (x : Queue) : (setQueue s q x).poison = s.poison := rfl
@[simp] theorem setQueue_tags (s : State) (q : Nat) (x : Queue) : (setQueue s q x).tags = s.tags := rfl
@[simp] theorem setQueue_enc (s : State) (q : Nat) (x : Queue) : (setQueue s q x).enc = s.enc := rfl
@[simp] theorem setQueue_owner (s : State) (q : Nat) (x : Queue) : (setQueue s q x).owner = s.owner := rfl
@[simp] theorem setQueue_stores (s : State) (q : Nat) (x : Queue) : (setQueue s q x).stores = s.stores := rfl
@[simp] theorem setQueue_steps (s : State) (q : Nat) (x : Queue) : (setQueue s q x).steps = s.steps := rfl
@[simp] theorem setQueue_cellar (s : State) (q : Nat) (x : Queue) : (setQueue s q x).cellar = s.cellar := rfl
@[simp] theorem setQueue_cellarPoison (s : State) (q : Nat) (x : Queue) : (setQueue s q x).cellarPoison = s.cellarPoison := rfl
@[simp] theorem setQueue_vintage (s : State) (q : Nat) (x : Queue) : (setQueue s q x).vintage = s.vintage := rfl
@[simp] theorem setQueue_clusters (s : State) (q : Nat) (x : Queue) : (setQueue s q x).clusters = s.clusters := rfl
@[simp] theorem setQueue_cores (s : State) (q : Nat) (x : Queue) : (setQueue s q x).cores = s.cores := rfl
@[simp] theorem setQueue_ports (s : State) (q : Nat) (x : Queue) : (setQueue s q x).ports = s.ports := rfl
@[simp] theorem setQueue_trains (s : State) (q : Nat) (x : Queue) : (setQueue s q x).trains = s.trains := rfl
@[simp] theorem setQueue_trainNext (s : State) (q : Nat) (x : Queue) : (setQueue s q x).trainNext = s.trainNext := rfl
@[simp] theorem setQueue_placeSeq (s : State) (q : Nat) (x : Queue) : (setQueue s q x).placeSeq = s.placeSeq := rfl
@[simp] theorem setQueue_queues (s : State) (q : Nat) (x : Queue) : (setQueue s q x).queues = mset s.queues q x := rfl
@[simp] theorem setQueue_levels (s : State) (q : Nat) (x : Queue) : (setQueue s q x).levels = s.levels := rfl
@[simp] theorem setQueue_lbars (s : State) (q : Nat) (x : Queue) : (setQueue s q x).lbars = s.lbars := rfl
@[simp] theorem setQueue_fills (s : State) (q : Nat) (x : Queue) : (setQueue s q x).fills = s.fills := rfl
@[simp] theorem setQueue_pointers (s : State) (q : Nat) (x : Queue) : (setQueue s q x).pointers = s.pointers := rfl
@[simp] theorem setQueue_ctxs (s : State) (q : Nat) (x : Queue) : (setQueue s q x).ctxs = s.ctxs := rfl
@[simp] theorem setQueue_gates (s : State) (q : Nat) (x : Queue) : (setQueue s q x).gates = s.gates := rfl
@[simp] theorem setQueue_host (s : State) (q : Nat) (x : Queue) : (setQueue s q x).host = s.host := rfl

/-! #### modCluster -/

@[simp] theorem modCluster_agenda (s : State) (n : Nat) (f : Cluster → Cluster) : (modCluster s n f).agenda = s.agenda := rfl
@[simp] theorem modCluster_cur (s : State) (n : Nat) (f : Cluster → Cluster) : (modCluster s n f).cur = s.cur := rfl
@[simp] theorem modCluster_defer (s : State) (n : Nat) (f : Cluster → Cluster) : (modCluster s n f).defer = s.defer := rfl
@[simp] theorem modCluster_stalled (s : State) (n : Nat) (f : Cluster → Cluster) : (modCluster s n f).stalled = s.stalled := rfl
@[simp] theorem modCluster_ev (s : State) (n : Nat) (f : Cluster → Cluster) : (modCluster s n f).ev = s.ev := rfl
@[simp] theorem modCluster_beat (s : State) (n : Nat) (f : Cluster → Cluster) : (modCluster s n f).beat = s.beat := rfl
@[simp] theorem modCluster_fresh (s : State) (n : Nat) (f : Cluster → Cluster) : (modCluster s n f).fresh = s.fresh := rfl
@[simp] theorem modCluster_nextId (s : State) (n : Nat) (f : Cluster → Cluster) : (modCluster s n f).nextId = s.nextId := rfl
@[simp] theorem modCluster_waitSeq (s : State) (n : Nat) (f : Cluster → Cluster) : (modCluster s n f).waitSeq = s.waitSeq := rfl
@[simp] theorem modCluster_rtime (s : State) (n : Nat) (f : Cluster → Cluster) : (modCluster s n f).rtime = s.rtime := rfl
@[simp] theorem modCluster_timers (s : State) (n : Nat) (f : Cluster → Cluster) : (modCluster s n f).timers = s.timers := rfl
@[simp] theorem modCluster_clocks (s : State) (n : Nat) (f : Cluster → Cluster) : (modCluster s n f).clocks = s.clocks := rfl
@[simp] theorem modCluster_units (s : State) (n : Nat) (f : Cluster → Cluster) : (modCluster s n f).units = s.units := rfl
@[simp] theorem modCluster_crefPhase (s : State) (n : Nat) (f : Cluster → Cluster) : (modCluster s n f).crefPhase = s.crefPhase := rfl
@[simp] theorem modCluster_mem (s : State) (n : Nat) (f : Cluster → Cluster) : (modCluster s n f).mem = s.mem := rfl
@[simp] theorem modCluster_poison (s : State) (n : Nat) (f : Cluster → Cluster) : (modCluster s n f).poison = s.poison := rfl
@[simp] theorem modCluster_tags (s : State) (n : Nat) (f : Cluster → Cluster) : (modCluster s n f).tags = s.tags := rfl
@[simp] theorem modCluster_enc (s : State) (n : Nat) (f : Cluster → Cluster) : (modCluster s n f).enc = s.enc := rfl
@[simp] theorem modCluster_owner (s : State) (n : Nat) (f : Cluster → Cluster) : (modCluster s n f).owner = s.owner := rfl
@[simp] theorem modCluster_stores (s : State) (n : Nat) (f : Cluster → Cluster) : (modCluster s n f).stores = s.stores := rfl
@[simp] theorem modCluster_steps (s : State) (n : Nat) (f : Cluster → Cluster) : (modCluster s n f).steps = s.steps := rfl
@[simp] theorem modCluster_cellar (s : State) (n : Nat) (f : Cluster → Cluster) : (modCluster s n f).cellar = s.cellar := rfl
@[simp] theorem modCluster_cellarPoison (s : State) (n : Nat) (f : Cluster → Cluster) : (modCluster s n f).cellarPoison = s.cellarPoison := rfl
@[simp] theorem modCluster_vintage (s : State) (n : Nat) (f : Cluster → Cluster) : (modCluster s n f).vintage = s.vintage := rfl
@[simp] theorem modCluster_clusters (s : State) (n : Nat) (f : Cluster → Cluster) : (modCluster s n f).clusters = mset s.clusters n (f (s.cluster n)) := rfl
@[simp] theorem modCluster_cores (s : State) (n : Nat) (f : Cluster → Cluster) : (modCluster s n f).cores = s.cores := rfl
@[simp] theorem modCluster_ports (s : State) (n : Nat) (f : Cluster → Cluster) : (modCluster s n f).ports = s.ports := rfl
@[simp] theorem modCluster_trains (s : State) (n : Nat) (f : Cluster → Cluster) : (modCluster s n f).trains = s.trains := rfl
@[simp] theorem modCluster_trainNext (s : State) (n : Nat) (f : Cluster → Cluster) : (modCluster s n f).trainNext = s.trainNext := rfl
@[simp] theorem modCluster_placeSeq (s : State) (n : Nat) (f : Cluster → Cluster) : (modCluster s n f).placeSeq = s.placeSeq := rfl
@[simp] theorem modCluster_queues (s : State) (n : Nat) (f : Cluster → Cluster) : (modCluster s n f).queues = s.queues := rfl
@[simp] theorem modCluster_levels (s : State) (n : Nat) (f : Cluster → Cluster) : (modCluster s n f).levels = s.levels := rfl
@[simp] theorem modCluster_lbars (s : State) (n : Nat) (f : Cluster → Cluster) : (modCluster s n f).lbars = s.lbars := rfl
@[simp] theorem modCluster_fills (s : State) (n : Nat) (f : Cluster → Cluster) : (modCluster s n f).fills = s.fills := rfl
@[simp] theorem modCluster_pointers (s : State) (n : Nat) (f : Cluster → Cluster) : (modCluster s n f).pointers = s.pointers := rfl
@[simp] theorem modCluster_ctxs (s : State) (n : Nat) (f : Cluster → Cluster) : (modCluster s n f).ctxs = s.ctxs := rfl
@[simp] theorem modCluster_gates (s : State) (n : Nat) (f : Cluster → Cluster) : (modCluster s n f).gates = s.gates := rfl
@[simp] theorem modCluster_host (s : State) (n : Nat) (f : Cluster → Cluster) : (modCluster s n f).host = s.host := rfl

/-! #### modCore -/

@[simp] theorem modCore_agenda (s : State) (n : Nat) (f : Core → Core) : (modCore s n f).agenda = s.agenda := rfl
@[simp] theorem modCore_cur (s : State) (n : Nat) (f : Core → Core) : (modCore s n f).cur = s.cur := rfl
@[simp] theorem modCore_defer (s : State) (n : Nat) (f : Core → Core) : (modCore s n f).defer = s.defer := rfl
@[simp] theorem modCore_stalled (s : State) (n : Nat) (f : Core → Core) : (modCore s n f).stalled = s.stalled := rfl
@[simp] theorem modCore_ev (s : State) (n : Nat) (f : Core → Core) : (modCore s n f).ev = s.ev := rfl
@[simp] theorem modCore_beat (s : State) (n : Nat) (f : Core → Core) : (modCore s n f).beat = s.beat := rfl
@[simp] theorem modCore_fresh (s : State) (n : Nat) (f : Core → Core) : (modCore s n f).fresh = s.fresh := rfl
@[simp] theorem modCore_nextId (s : State) (n : Nat) (f : Core → Core) : (modCore s n f).nextId = s.nextId := rfl
@[simp] theorem modCore_waitSeq (s : State) (n : Nat) (f : Core → Core) : (modCore s n f).waitSeq = s.waitSeq := rfl
@[simp] theorem modCore_rtime (s : State) (n : Nat) (f : Core → Core) : (modCore s n f).rtime = s.rtime := rfl
@[simp] theorem modCore_timers (s : State) (n : Nat) (f : Core → Core) : (modCore s n f).timers = s.timers := rfl
@[simp] theorem modCore_clocks (s : State) (n : Nat) (f : Core → Core) : (modCore s n f).clocks = s.clocks := rfl
@[simp] theorem modCore_units (s : State) (n : Nat) (f : Core → Core) : (modCore s n f).units = s.units := rfl
@[simp] theorem modCore_crefPhase (s : State) (n : Nat) (f : Core → Core) : (modCore s n f).crefPhase = s.crefPhase := rfl
@[simp] theorem modCore_mem (s : State) (n : Nat) (f : Core → Core) : (modCore s n f).mem = s.mem := rfl
@[simp] theorem modCore_poison (s : State) (n : Nat) (f : Core → Core) : (modCore s n f).poison = s.poison := rfl
@[simp] theorem modCore_tags (s : State) (n : Nat) (f : Core → Core) : (modCore s n f).tags = s.tags := rfl
@[simp] theorem modCore_enc (s : State) (n : Nat) (f : Core → Core) : (modCore s n f).enc = s.enc := rfl
@[simp] theorem modCore_owner (s : State) (n : Nat) (f : Core → Core) : (modCore s n f).owner = s.owner := rfl
@[simp] theorem modCore_stores (s : State) (n : Nat) (f : Core → Core) : (modCore s n f).stores = s.stores := rfl
@[simp] theorem modCore_steps (s : State) (n : Nat) (f : Core → Core) : (modCore s n f).steps = s.steps := rfl
@[simp] theorem modCore_cellar (s : State) (n : Nat) (f : Core → Core) : (modCore s n f).cellar = s.cellar := rfl
@[simp] theorem modCore_cellarPoison (s : State) (n : Nat) (f : Core → Core) : (modCore s n f).cellarPoison = s.cellarPoison := rfl
@[simp] theorem modCore_vintage (s : State) (n : Nat) (f : Core → Core) : (modCore s n f).vintage = s.vintage := rfl
@[simp] theorem modCore_clusters (s : State) (n : Nat) (f : Core → Core) : (modCore s n f).clusters = s.clusters := rfl
@[simp] theorem modCore_cores (s : State) (n : Nat) (f : Core → Core) : (modCore s n f).cores = mset s.cores n (f (s.core n)) := rfl
@[simp] theorem modCore_ports (s : State) (n : Nat) (f : Core → Core) : (modCore s n f).ports = s.ports := rfl
@[simp] theorem modCore_trains (s : State) (n : Nat) (f : Core → Core) : (modCore s n f).trains = s.trains := rfl
@[simp] theorem modCore_trainNext (s : State) (n : Nat) (f : Core → Core) : (modCore s n f).trainNext = s.trainNext := rfl
@[simp] theorem modCore_placeSeq (s : State) (n : Nat) (f : Core → Core) : (modCore s n f).placeSeq = s.placeSeq := rfl
@[simp] theorem modCore_queues (s : State) (n : Nat) (f : Core → Core) : (modCore s n f).queues = s.queues := rfl
@[simp] theorem modCore_levels (s : State) (n : Nat) (f : Core → Core) : (modCore s n f).levels = s.levels := rfl
@[simp] theorem modCore_lbars (s : State) (n : Nat) (f : Core → Core) : (modCore s n f).lbars = s.lbars := rfl
@[simp] theorem modCore_fills (s : State) (n : Nat) (f : Core → Core) : (modCore s n f).fills = s.fills := rfl
@[simp] theorem modCore_pointers (s : State) (n : Nat) (f : Core → Core) : (modCore s n f).pointers = s.pointers := rfl
@[simp] theorem modCore_ctxs (s : State) (n : Nat) (f : Core → Core) : (modCore s n f).ctxs = s.ctxs := rfl
@[simp] theorem modCore_gates (s : State) (n : Nat) (f : Core → Core) : (modCore s n f).gates = s.gates := rfl
@[simp] theorem modCore_host (s : State) (n : Nat) (f : Core → Core) : (modCore s n f).host = s.host := rfl

/-! #### modMbox -/

@[simp] theorem modMbox_agenda (s : State) (x : Nat) (f : Mbox → Mbox) : (modMbox s x f).agenda = s.agenda := rfl
@[simp] theorem modMbox_cur (s : State) (x : Nat) (f : Mbox → Mbox) : (modMbox s x f).cur = s.cur := rfl
@[simp] theorem modMbox_defer (s : State) (x : Nat) (f : Mbox → Mbox) : (modMbox s x f).defer = s.defer := rfl
@[simp] theorem modMbox_stalled (s : State) (x : Nat) (f : Mbox → Mbox) : (modMbox s x f).stalled = s.stalled := rfl
@[simp] theorem modMbox_ev (s : State) (x : Nat) (f : Mbox → Mbox) : (modMbox s x f).ev = s.ev := rfl
@[simp] theorem modMbox_beat (s : State) (x : Nat) (f : Mbox → Mbox) : (modMbox s x f).beat = s.beat := rfl
@[simp] theorem modMbox_fresh (s : State) (x : Nat) (f : Mbox → Mbox) : (modMbox s x f).fresh = s.fresh := rfl
@[simp] theorem modMbox_nextId (s : State) (x : Nat) (f : Mbox → Mbox) : (modMbox s x f).nextId = s.nextId := rfl
@[simp] theorem modMbox_waitSeq (s : State) (x : Nat) (f : Mbox → Mbox) : (modMbox s x f).waitSeq = s.waitSeq := rfl
@[simp] theorem modMbox_rtime (s : State) (x : Nat) (f : Mbox → Mbox) : (modMbox s x f).rtime = s.rtime := rfl
@[simp] theorem modMbox_timers (s : State) (x : Nat) (f : Mbox → Mbox) : (modMbox s x f).timers = s.timers := rfl
@[simp] theorem modMbox_clocks (s : State) (x : Nat) (f : Mbox → Mbox) : (modMbox s x f).clocks = s.clocks := rfl
@[simp] theorem modMbox_units (s : State) (x : Nat) (f : Mbox → Mbox) : (modMbox s x f).units = s.units := rfl
@[simp] theorem modMbox_crefPhase (s : State) (x : Nat) (f : Mbox → Mbox) : (modMbox s x f).crefPhase = s.crefPhase := rfl
@[simp] theorem modMbox_mem (s : State) (x : Nat) (f : Mbox → Mbox) : (modMbox s x f).mem = s.mem := rfl
@[simp] theorem modMbox_poison (s : State) (x : Nat) (f : Mbox → Mbox) : (modMbox s x f).poison = s.poison := rfl
@[simp] theorem modMbox_tags (s : State) (x : Nat) (f : Mbox → Mbox) : (modMbox s x f).tags = s.tags := rfl
@[simp] theorem modMbox_enc (s : State) (x : Nat) (f : Mbox → Mbox) : (modMbox s x f).enc = s.enc := rfl
@[simp] theorem modMbox_owner (s : State) (x : Nat) (f : Mbox → Mbox) : (modMbox s x f).owner = s.owner := rfl
@[simp] theorem modMbox_stores (s : State) (x : Nat) (f : Mbox → Mbox) : (modMbox s x f).stores = s.stores := rfl
@[simp] theorem modMbox_steps (s : State) (x : Nat) (f : Mbox → Mbox) : (modMbox s x f).steps = s.steps := rfl
@[simp] theorem modMbox_cellar (s : State) (x : Nat) (f : Mbox → Mbox) : (modMbox s x f).cellar = s.cellar := rfl
@[simp] theorem modMbox_cellarPoison (s : State) (x : Nat) (f : Mbox → Mbox) : (modMbox s x f).cellarPoison = s.cellarPoison := rfl
@[simp] theorem modMbox_vintage (s : State) (x : Nat) (f : Mbox → Mbox) : (modMbox s x f).vintage = s.vintage := rfl
@[simp] theorem modMbox_clusters (s : State) (x : Nat) (f : Mbox → Mbox) : (modMbox s x f).clusters = s.clusters := rfl
@[simp] theorem modMbox_cores (s : State) (x : Nat) (f : Mbox → Mbox) : (modMbox s x f).cores = s.cores := rfl
@[simp] theorem modMbox_ports (s : State) (x : Nat) (f : Mbox → Mbox) : (modMbox s x f).ports = s.ports := rfl
@[simp] theorem modMbox_trains (s : State) (x : Nat) (f : Mbox → Mbox) : (modMbox s x f).trains = s.trains := rfl
@[simp] theorem modMbox_trainNext (s : State) (x : Nat) (f : Mbox → Mbox) : (modMbox s x f).trainNext = s.trainNext := rfl
@[simp] theorem modMbox_placeSeq (s : State) (x : Nat) (f : Mbox → Mbox) : (modMbox s x f).placeSeq = s.placeSeq := rfl
@[simp] theorem modMbox_queues (s : State) (x : Nat) (f : Mbox → Mbox) : (modMbox s x f).queues = s.queues := rfl
@[simp] theorem modMbox_levels (s : State) (x : Nat) (f : Mbox → Mbox) : (modMbox s x f).levels = s.levels := rfl
@[simp] theorem modMbox_lbars (s : State) (x : Nat) (f : Mbox → Mbox) : (modMbox s x f).lbars = s.lbars := rfl
@[simp] theorem modMbox_fills (s : State) (x : Nat) (f : Mbox → Mbox) : (modMbox s x f).fills = s.fills := rfl
@[simp] theorem modMbox_pointers (s : State) (x : Nat) (f : Mbox → Mbox) : (modMbox s x f).pointers = s.pointers := rfl
@[simp] theorem modMbox_ctxs (s : State) (x : Nat) (f : Mbox → Mbox) : (modMbox s x f).ctxs = s.ctxs := rfl
@[simp] theorem modMbox_gates (s : State) (x : Nat) (f : Mbox → Mbox) : (modMbox s x f).gates = s.gates := rfl
@[simp] theorem modMbox_host (s : State) (x : Nat) (f : Mbox → Mbox) : (modMbox s x f).host = { s.host with mbox := mset s.host.mbox x (f (s.mbox x)) } := rfl

/-! #### modHost -/

@[simp] theorem modHost_agenda (s : State) (f : HostSide → HostSide) : (modHost s f).agenda = s.agenda := rfl
@[simp] theorem modHost_cur (s : State) (f : HostSide → HostSide) : (modHost s f).cur = s.cur := rfl
@[simp] theorem modHost_defer (s : State) (f : HostSide → HostSide) : (modHost s f).defer = s.defer := rfl
@[simp] theorem modHost_stalled (s : State) (f : HostSide → HostSide) : (modHost s f).stalled = s.stalled := rfl
@[simp] theorem modHost_ev (s : State) (f : HostSide → HostSide) : (modHost s f).ev = s.ev := rfl
@[simp] theorem modHost_beat (s : State) (f : HostSide → HostSide) : (modHost s f).beat = s.beat := rfl
@[simp] theorem modHost_fresh (s : State) (f : HostSide → HostSide) : (modHost s f).fresh = s.fresh := rfl
@[simp] theorem modHost_nextId (s : State) (f : HostSide → HostSide) : (modHost s f).nextId = s.nextId := rfl
@[simp] theorem modHost_waitSeq (s : State) (f : HostSide → HostSide) : (modHost s f).waitSeq = s.waitSeq := rfl
@[simp] theorem modHost_rtime (s : State) (f : HostSide → HostSide) : (modHost s f).rtime = s.rtime := rfl
@[simp] theorem modHost_timers (s : State) (f : HostSide → HostSide) : (modHost s f).timers = s.timers := rfl
@[simp] theorem modHost_clocks (s : State) (f : HostSide → HostSide) : (modHost s f).clocks = s.clocks := rfl
@[simp] theorem modHost_units (s : State) (f : HostSide → HostSide) : (modHost s f).units = s.units := rfl
@[simp] theorem modHost_crefPhase (s : State) (f : HostSide → HostSide) : (modHost s f).crefPhase = s.crefPhase := rfl
@[simp] theorem modHost_mem (s : State) (f : HostSide → HostSide) : (modHost s f).mem = s.mem := rfl
@[simp] theorem modHost_poison (s : State) (f : HostSide → HostSide) : (modHost s f).poison = s.poison := rfl
@[simp] theorem modHost_tags (s : State) (f : HostSide → HostSide) : (modHost s f).tags = s.tags := rfl
@[simp] theorem modHost_enc (s : State) (f : HostSide → HostSide) : (modHost s f).enc = s.enc := rfl
@[simp] theorem modHost_owner (s : State) (f : HostSide → HostSide) : (modHost s f).owner = s.owner := rfl
@[simp] theorem modHost_stores (s : State) (f : HostSide → HostSide) : (modHost s f).stores = s.stores := rfl
@[simp] theorem modHost_steps (s : State) (f : HostSide → HostSide) : (modHost s f).steps = s.steps := rfl
@[simp] theorem modHost_cellar (s : State) (f : HostSide → HostSide) : (modHost s f).cellar = s.cellar := rfl
@[simp] theorem modHost_cellarPoison (s : State) (f : HostSide → HostSide) : (modHost s f).cellarPoison = s.cellarPoison := rfl
@[simp] theorem modHost_vintage (s : State) (f : HostSide → HostSide) : (modHost s f).vintage = s.vintage := rfl
@[simp] theorem modHost_clusters (s : State) (f : HostSide → HostSide) : (modHost s f).clusters = s.clusters := rfl
@[simp] theorem modHost_cores (s : State) (f : HostSide → HostSide) : (modHost s f).cores = s.cores := rfl
@[simp] theorem modHost_ports (s : State) (f : HostSide → HostSide) : (modHost s f).ports = s.ports := rfl
@[simp] theorem modHost_trains (s : State) (f : HostSide → HostSide) : (modHost s f).trains = s.trains := rfl
@[simp] theorem modHost_trainNext (s : State) (f : HostSide → HostSide) : (modHost s f).trainNext = s.trainNext := rfl
@[simp] theorem modHost_placeSeq (s : State) (f : HostSide → HostSide) : (modHost s f).placeSeq = s.placeSeq := rfl
@[simp] theorem modHost_queues (s : State) (f : HostSide → HostSide) : (modHost s f).queues = s.queues := rfl
@[simp] theorem modHost_levels (s : State) (f : HostSide → HostSide) : (modHost s f).levels = s.levels := rfl
@[simp] theorem modHost_lbars (s : State) (f : HostSide → HostSide) : (modHost s f).lbars = s.lbars := rfl
@[simp] theorem modHost_fills (s : State) (f : HostSide → HostSide) : (modHost s f).fills = s.fills := rfl
@[simp] theorem modHost_pointers (s : State) (f : HostSide → HostSide) : (modHost s f).pointers = s.pointers := rfl
@[simp] theorem modHost_ctxs (s : State) (f : HostSide → HostSide) : (modHost s f).ctxs = s.ctxs := rfl
@[simp] theorem modHost_gates (s : State) (f : HostSide → HostSide) : (modHost s f).gates = s.gates := rfl
@[simp] theorem modHost_host (s : State) (f : HostSide → HostSide) : (modHost s f).host = f s.host := rfl

/-! #### push -/

@[simp] theorem push_agenda (s : State) (ts : List Turn) : (push s ts).agenda = s.agenda ++ ts := rfl
@[simp] theorem push_cur (s : State) (ts : List Turn) : (push s ts).cur = s.cur := rfl
@[simp] theorem push_defer (s : State) (ts : List Turn) : (push s ts).defer = s.defer := rfl
@[simp] theorem push_stalled (s : State) (ts : List Turn) : (push s ts).stalled = s.stalled := rfl
@[simp] theorem push_ev (s : State) (ts : List Turn) : (push s ts).ev = s.ev := rfl
@[simp] theorem push_beat (s : State) (ts : List Turn) : (push s ts).beat = s.beat := rfl
@[simp] theorem push_fresh (s : State) (ts : List Turn) : (push s ts).fresh = s.fresh := rfl
@[simp] theorem push_nextId (s : State) (ts : List Turn) : (push s ts).nextId = s.nextId := rfl
@[simp] theorem push_waitSeq (s : State) (ts : List Turn) : (push s ts).waitSeq = s.waitSeq := rfl
@[simp] theorem push_rtime (s : State) (ts : List Turn) : (push s ts).rtime = s.rtime := rfl
@[simp] theorem push_timers (s : State) (ts : List Turn) : (push s ts).timers = s.timers := rfl
@[simp] theorem push_clocks (s : State) (ts : List Turn) : (push s ts).clocks = s.clocks := rfl
@[simp] theorem push_units (s : State) (ts : List Turn) : (push s ts).units = s.units := rfl
@[simp] theorem push_crefPhase (s : State) (ts : List Turn) : (push s ts).crefPhase = s.crefPhase := rfl
@[simp] theorem push_mem (s : State) (ts : List Turn) : (push s ts).mem = s.mem := rfl
@[simp] theorem push_poison (s : State) (ts : List Turn) : (push s ts).poison = s.poison := rfl
@[simp] theorem push_tags (s : State) (ts : List Turn) : (push s ts).tags = s.tags := rfl
@[simp] theorem push_enc (s : State) (ts : List Turn) : (push s ts).enc = s.enc := rfl
@[simp] theorem push_owner (s : State) (ts : List Turn) : (push s ts).owner = s.owner := rfl
@[simp] theorem push_stores (s : State) (ts : List Turn) : (push s ts).stores = s.stores := rfl
@[simp] theorem push_steps (s : State) (ts : List Turn) : (push s ts).steps = s.steps := rfl
@[simp] theorem push_cellar (s : State) (ts : List Turn) : (push s ts).cellar = s.cellar := rfl
@[simp] theorem push_cellarPoison (s : State) (ts : List Turn) : (push s ts).cellarPoison = s.cellarPoison := rfl
@[simp] theorem push_vintage (s : State) (ts : List Turn) : (push s ts).vintage = s.vintage := rfl
@[simp] theorem push_clusters (s : State) (ts : List Turn) : (push s ts).clusters = s.clusters := rfl
@[simp] theorem push_cores (s : State) (ts : List Turn) : (push s ts).cores = s.cores := rfl
@[simp] theorem push_ports (s : State) (ts : List Turn) : (push s ts).ports = s.ports := rfl
@[simp] theorem push_trains (s : State) (ts : List Turn) : (push s ts).trains = s.trains := rfl
@[simp] theorem push_trainNext (s : State) (ts : List Turn) : (push s ts).trainNext = s.trainNext := rfl
@[simp] theorem push_placeSeq (s : State) (ts : List Turn) : (push s ts).placeSeq = s.placeSeq := rfl
@[simp] theorem push_queues (s : State) (ts : List Turn) : (push s ts).queues = s.queues := rfl
@[simp] theorem push_levels (s : State) (ts : List Turn) : (push s ts).levels = s.levels := rfl
@[simp] theorem push_lbars (s : State) (ts : List Turn) : (push s ts).lbars = s.lbars := rfl
@[simp] theorem push_fills (s : State) (ts : List Turn) : (push s ts).fills = s.fills := rfl
@[simp] theorem push_pointers (s : State) (ts : List Turn) : (push s ts).pointers = s.pointers := rfl
@[simp] theorem push_ctxs (s : State) (ts : List Turn) : (push s ts).ctxs = s.ctxs := rfl
@[simp] theorem push_gates (s : State) (ts : List Turn) : (push s ts).gates = s.gates := rfl
@[simp] theorem push_host (s : State) (ts : List Turn) : (push s ts).host = s.host := rfl

/-! #### pushEv -/

@[simp] theorem pushEv_agenda (s : State) (i : Instr) (e : Ev) : (pushEv s i e).agenda = s.agenda ++ [.event i e] := rfl
@[simp] theorem pushEv_cur (s : State) (i : Instr) (e : Ev) : (pushEv s i e).cur = s.cur := rfl
@[simp] theorem pushEv_defer (s : State) (i : Instr) (e : Ev) : (pushEv s i e).defer = s.defer := rfl
@[simp] theorem pushEv_stalled (s : State) (i : Instr) (e : Ev) : (pushEv s i e).stalled = s.stalled := rfl
@[simp] theorem pushEv_ev (s : State) (i : Instr) (e : Ev) : (pushEv s i e).ev = s.ev := rfl
@[simp] theorem pushEv_beat (s : State) (i : Instr) (e : Ev) : (pushEv s i e).beat = s.beat := rfl
@[simp] theorem pushEv_fresh (s : State) (i : Instr) (e : Ev) : (pushEv s i e).fresh = s.fresh := rfl
@[simp] theorem pushEv_nextId (s : State) (i : Instr) (e : Ev) : (pushEv s i e).nextId = s.nextId := rfl
@[simp] theorem pushEv_waitSeq (s : State) (i : Instr) (e : Ev) : (pushEv s i e).waitSeq = s.waitSeq := rfl
@[simp] theorem pushEv_rtime (s : State) (i : Instr) (e : Ev) : (pushEv s i e).rtime = s.rtime := rfl
@[simp] theorem pushEv_timers (s : State) (i : Instr) (e : Ev) : (pushEv s i e).timers = s.timers := rfl
@[simp] theorem pushEv_clocks (s : State) (i : Instr) (e : Ev) : (pushEv s i e).clocks = s.clocks := rfl
@[simp] theorem pushEv_units (s : State) (i : Instr) (e : Ev) : (pushEv s i e).units = s.units := rfl
@[simp] theorem pushEv_crefPhase (s : State) (i : Instr) (e : Ev) : (pushEv s i e).crefPhase = s.crefPhase := rfl
@[simp] theorem pushEv_mem (s : State) (i : Instr) (e : Ev) : (pushEv s i e).mem = s.mem := rfl
@[simp] theorem pushEv_poison (s : State) (i : Instr) (e : Ev) : (pushEv s i e).poison = s.poison := rfl
@[simp] theorem pushEv_tags (s : State) (i : Instr) (e : Ev) : (pushEv s i e).tags = s.tags := rfl
@[simp] theorem pushEv_enc (s : State) (i : Instr) (e : Ev) : (pushEv s i e).enc = s.enc := rfl
@[simp] theorem pushEv_owner (s : State) (i : Instr) (e : Ev) : (pushEv s i e).owner = s.owner := rfl
@[simp] theorem pushEv_stores (s : State) (i : Instr) (e : Ev) : (pushEv s i e).stores = s.stores := rfl
@[simp] theorem pushEv_steps (s : State) (i : Instr) (e : Ev) : (pushEv s i e).steps = s.steps := rfl
@[simp] theorem pushEv_cellar (s : State) (i : Instr) (e : Ev) : (pushEv s i e).cellar = s.cellar := rfl
@[simp] theorem pushEv_cellarPoison (s : State) (i : Instr) (e : Ev) : (pushEv s i e).cellarPoison = s.cellarPoison := rfl
@[simp] theorem pushEv_vintage (s : State) (i : Instr) (e : Ev) : (pushEv s i e).vintage = s.vintage := rfl
@[simp] theorem pushEv_clusters (s : State) (i : Instr) (e : Ev) : (pushEv s i e).clusters = s.clusters := rfl
@[simp] theorem pushEv_cores (s : State) (i : Instr) (e : Ev) : (pushEv s i e).cores = s.cores := rfl
@[simp] theorem pushEv_ports (s : State) (i : Instr) (e : Ev) : (pushEv s i e).ports = s.ports := rfl
@[simp] theorem pushEv_trains (s : State) (i : Instr) (e : Ev) : (pushEv s i e).trains = s.trains := rfl
@[simp] theorem pushEv_trainNext (s : State) (i : Instr) (e : Ev) : (pushEv s i e).trainNext = s.trainNext := rfl
@[simp] theorem pushEv_placeSeq (s : State) (i : Instr) (e : Ev) : (pushEv s i e).placeSeq = s.placeSeq := rfl
@[simp] theorem pushEv_queues (s : State) (i : Instr) (e : Ev) : (pushEv s i e).queues = s.queues := rfl
@[simp] theorem pushEv_levels (s : State) (i : Instr) (e : Ev) : (pushEv s i e).levels = s.levels := rfl
@[simp] theorem pushEv_lbars (s : State) (i : Instr) (e : Ev) : (pushEv s i e).lbars = s.lbars := rfl
@[simp] theorem pushEv_fills (s : State) (i : Instr) (e : Ev) : (pushEv s i e).fills = s.fills := rfl
@[simp] theorem pushEv_pointers (s : State) (i : Instr) (e : Ev) : (pushEv s i e).pointers = s.pointers := rfl
@[simp] theorem pushEv_ctxs (s : State) (i : Instr) (e : Ev) : (pushEv s i e).ctxs = s.ctxs := rfl
@[simp] theorem pushEv_gates (s : State) (i : Instr) (e : Ev) : (pushEv s i e).gates = s.gates := rfl
@[simp] theorem pushEv_host (s : State) (i : Instr) (e : Ev) : (pushEv s i e).host = s.host := rfl

/-! #### modCtx -/

@[simp] theorem modCtx_agenda (s : State) (c : Nat) (f : Ctx → Ctx) : (modCtx s c f).agenda = s.agenda := by unfold modCtx; split <;> rfl
@[simp] theorem modCtx_cur (s : State) (c : Nat) (f : Ctx → Ctx) : (modCtx s c f).cur = s.cur := by unfold modCtx; split <;> rfl
@[simp] theorem modCtx_defer (s : State) (c : Nat) (f : Ctx → Ctx) : (modCtx s c f).defer = s.defer := by unfold modCtx; split <;> rfl
@[simp] theorem modCtx_stalled (s : State) (c : Nat) (f : Ctx → Ctx) : (modCtx s c f).stalled = s.stalled := by unfold modCtx; split <;> rfl
@[simp] theorem modCtx_ev (s : State) (c : Nat) (f : Ctx → Ctx) : (modCtx s c f).ev = s.ev := by unfold modCtx; split <;> rfl
@[simp] theorem modCtx_beat (s : State) (c : Nat) (f : Ctx → Ctx) : (modCtx s c f).beat = s.beat := by unfold modCtx; split <;> rfl
@[simp] theorem modCtx_fresh (s : State) (c : Nat) (f : Ctx → Ctx) : (modCtx s c f).fresh = s.fresh := by unfold modCtx; split <;> rfl
@[simp] theorem modCtx_nextId (s : State) (c : Nat) (f : Ctx → Ctx) : (modCtx s c f).nextId = s.nextId := by unfold modCtx; split <;> rfl
@[simp] theorem modCtx_waitSeq (s : State) (c : Nat) (f : Ctx → Ctx) : (modCtx s c f).waitSeq = s.waitSeq := by unfold modCtx; split <;> rfl
@[simp] theorem modCtx_rtime (s : State) (c : Nat) (f : Ctx → Ctx) : (modCtx s c f).rtime = s.rtime := by unfold modCtx; split <;> rfl
@[simp] theorem modCtx_timers (s : State) (c : Nat) (f : Ctx → Ctx) : (modCtx s c f).timers = s.timers := by unfold modCtx; split <;> rfl
@[simp] theorem modCtx_clocks (s : State) (c : Nat) (f : Ctx → Ctx) : (modCtx s c f).clocks = s.clocks := by unfold modCtx; split <;> rfl
@[simp] theorem modCtx_units (s : State) (c : Nat) (f : Ctx → Ctx) : (modCtx s c f).units = s.units := by unfold modCtx; split <;> rfl
@[simp] theorem modCtx_crefPhase (s : State) (c : Nat) (f : Ctx → Ctx) : (modCtx s c f).crefPhase = s.crefPhase := by unfold modCtx; split <;> rfl
@[simp] theorem modCtx_mem (s : State) (c : Nat) (f : Ctx → Ctx) : (modCtx s c f).mem = s.mem := by unfold modCtx; split <;> rfl
@[simp] theorem modCtx_poison (s : State) (c : Nat) (f : Ctx → Ctx) : (modCtx s c f).poison = s.poison := by unfold modCtx; split <;> rfl
@[simp] theorem modCtx_tags (s : State) (c : Nat) (f : Ctx → Ctx) : (modCtx s c f).tags = s.tags := by unfold modCtx; split <;> rfl
@[simp] theorem modCtx_enc (s : State) (c : Nat) (f : Ctx → Ctx) : (modCtx s c f).enc = s.enc := by unfold modCtx; split <;> rfl
@[simp] theorem modCtx_owner (s : State) (c : Nat) (f : Ctx → Ctx) : (modCtx s c f).owner = s.owner := by unfold modCtx; split <;> rfl
@[simp] theorem modCtx_stores (s : State) (c : Nat) (f : Ctx → Ctx) : (modCtx s c f).stores = s.stores := by unfold modCtx; split <;> rfl
@[simp] theorem modCtx_steps (s : State) (c : Nat) (f : Ctx → Ctx) : (modCtx s c f).steps = s.steps := by unfold modCtx; split <;> rfl
@[simp] theorem modCtx_cellar (s : State) (c : Nat) (f : Ctx → Ctx) : (modCtx s c f).cellar = s.cellar := by unfold modCtx; split <;> rfl
@[simp] theorem modCtx_cellarPoison (s : State) (c : Nat) (f : Ctx → Ctx) : (modCtx s c f).cellarPoison = s.cellarPoison := by unfold modCtx; split <;> rfl
@[simp] theorem modCtx_vintage (s : State) (c : Nat) (f : Ctx → Ctx) : (modCtx s c f).vintage = s.vintage := by unfold modCtx; split <;> rfl
@[simp] theorem modCtx_clusters (s : State) (c : Nat) (f : Ctx → Ctx) : (modCtx s c f).clusters = s.clusters := by unfold modCtx; split <;> rfl
@[simp] theorem modCtx_cores (s : State) (c : Nat) (f : Ctx → Ctx) : (modCtx s c f).cores = s.cores := by unfold modCtx; split <;> rfl
@[simp] theorem modCtx_ports (s : State) (c : Nat) (f : Ctx → Ctx) : (modCtx s c f).ports = s.ports := by unfold modCtx; split <;> rfl
@[simp] theorem modCtx_trains (s : State) (c : Nat) (f : Ctx → Ctx) : (modCtx s c f).trains = s.trains := by unfold modCtx; split <;> rfl
@[simp] theorem modCtx_trainNext (s : State) (c : Nat) (f : Ctx → Ctx) : (modCtx s c f).trainNext = s.trainNext := by unfold modCtx; split <;> rfl
@[simp] theorem modCtx_placeSeq (s : State) (c : Nat) (f : Ctx → Ctx) : (modCtx s c f).placeSeq = s.placeSeq := by unfold modCtx; split <;> rfl
@[simp] theorem modCtx_queues (s : State) (c : Nat) (f : Ctx → Ctx) : (modCtx s c f).queues = s.queues := by unfold modCtx; split <;> rfl
@[simp] theorem modCtx_levels (s : State) (c : Nat) (f : Ctx → Ctx) : (modCtx s c f).levels = s.levels := by unfold modCtx; split <;> rfl
@[simp] theorem modCtx_lbars (s : State) (c : Nat) (f : Ctx → Ctx) : (modCtx s c f).lbars = s.lbars := by unfold modCtx; split <;> rfl
@[simp] theorem modCtx_fills (s : State) (c : Nat) (f : Ctx → Ctx) : (modCtx s c f).fills = s.fills := by unfold modCtx; split <;> rfl
@[simp] theorem modCtx_pointers (s : State) (c : Nat) (f : Ctx → Ctx) : (modCtx s c f).pointers = s.pointers := by unfold modCtx; split <;> rfl
@[simp] theorem modCtx_gates (s : State) (c : Nat) (f : Ctx → Ctx) : (modCtx s c f).gates = s.gates := by unfold modCtx; split <;> rfl
@[simp] theorem modCtx_host (s : State) (c : Nat) (f : Ctx → Ctx) : (modCtx s c f).host = s.host := by unfold modCtx; split <;> rfl

/-! #### modSys -/

@[simp] theorem modSys_agenda (s : State) (c : Nat) (f : SysRegs → SysRegs) : (modSys s c f).agenda = s.agenda := modCtx_agenda s c _
@[simp] theorem modSys_cur (s : State) (c : Nat) (f : SysRegs → SysRegs) : (modSys s c f).cur = s.cur := modCtx_cur s c _
@[simp] theorem modSys_defer (s : State) (c : Nat) (f : SysRegs → SysRegs) : (modSys s c f).defer = s.defer := modCtx_defer s c _
@[simp] theorem modSys_stalled (s : State) (c : Nat) (f : SysRegs → SysRegs) : (modSys s c f).stalled = s.stalled := modCtx_stalled s c _
@[simp] theorem modSys_ev (s : State) (c : Nat) (f : SysRegs → SysRegs) : (modSys s c f).ev = s.ev := modCtx_ev s c _
@[simp] theorem modSys_beat (s : State) (c : Nat) (f : SysRegs → SysRegs) : (modSys s c f).beat = s.beat := modCtx_beat s c _
@[simp] theorem modSys_fresh (s : State) (c : Nat) (f : SysRegs → SysRegs) : (modSys s c f).fresh = s.fresh := modCtx_fresh s c _
@[simp] theorem modSys_nextId (s : State) (c : Nat) (f : SysRegs → SysRegs) : (modSys s c f).nextId = s.nextId := modCtx_nextId s c _
@[simp] theorem modSys_waitSeq (s : State) (c : Nat) (f : SysRegs → SysRegs) : (modSys s c f).waitSeq = s.waitSeq := modCtx_waitSeq s c _
@[simp] theorem modSys_rtime (s : State) (c : Nat) (f : SysRegs → SysRegs) : (modSys s c f).rtime = s.rtime := modCtx_rtime s c _
@[simp] theorem modSys_timers (s : State) (c : Nat) (f : SysRegs → SysRegs) : (modSys s c f).timers = s.timers := modCtx_timers s c _
@[simp] theorem modSys_clocks (s : State) (c : Nat) (f : SysRegs → SysRegs) : (modSys s c f).clocks = s.clocks := modCtx_clocks s c _
@[simp] theorem modSys_units (s : State) (c : Nat) (f : SysRegs → SysRegs) : (modSys s c f).units = s.units := modCtx_units s c _
@[simp] theorem modSys_crefPhase (s : State) (c : Nat) (f : SysRegs → SysRegs) : (modSys s c f).crefPhase = s.crefPhase := modCtx_crefPhase s c _
@[simp] theorem modSys_mem (s : State) (c : Nat) (f : SysRegs → SysRegs) : (modSys s c f).mem = s.mem := modCtx_mem s c _
@[simp] theorem modSys_poison (s : State) (c : Nat) (f : SysRegs → SysRegs) : (modSys s c f).poison = s.poison := modCtx_poison s c _
@[simp] theorem modSys_tags (s : State) (c : Nat) (f : SysRegs → SysRegs) : (modSys s c f).tags = s.tags := modCtx_tags s c _
@[simp] theorem modSys_enc (s : State) (c : Nat) (f : SysRegs → SysRegs) : (modSys s c f).enc = s.enc := modCtx_enc s c _
@[simp] theorem modSys_owner (s : State) (c : Nat) (f : SysRegs → SysRegs) : (modSys s c f).owner = s.owner := modCtx_owner s c _
@[simp] theorem modSys_stores (s : State) (c : Nat) (f : SysRegs → SysRegs) : (modSys s c f).stores = s.stores := modCtx_stores s c _
@[simp] theorem modSys_steps (s : State) (c : Nat) (f : SysRegs → SysRegs) : (modSys s c f).steps = s.steps := modCtx_steps s c _
@[simp] theorem modSys_cellar (s : State) (c : Nat) (f : SysRegs → SysRegs) : (modSys s c f).cellar = s.cellar := modCtx_cellar s c _
@[simp] theorem modSys_cellarPoison (s : State) (c : Nat) (f : SysRegs → SysRegs) : (modSys s c f).cellarPoison = s.cellarPoison := modCtx_cellarPoison s c _
@[simp] theorem modSys_vintage (s : State) (c : Nat) (f : SysRegs → SysRegs) : (modSys s c f).vintage = s.vintage := modCtx_vintage s c _
@[simp] theorem modSys_clusters (s : State) (c : Nat) (f : SysRegs → SysRegs) : (modSys s c f).clusters = s.clusters := modCtx_clusters s c _
@[simp] theorem modSys_cores (s : State) (c : Nat) (f : SysRegs → SysRegs) : (modSys s c f).cores = s.cores := modCtx_cores s c _
@[simp] theorem modSys_ports (s : State) (c : Nat) (f : SysRegs → SysRegs) : (modSys s c f).ports = s.ports := modCtx_ports s c _
@[simp] theorem modSys_trains (s : State) (c : Nat) (f : SysRegs → SysRegs) : (modSys s c f).trains = s.trains := modCtx_trains s c _
@[simp] theorem modSys_trainNext (s : State) (c : Nat) (f : SysRegs → SysRegs) : (modSys s c f).trainNext = s.trainNext := modCtx_trainNext s c _
@[simp] theorem modSys_placeSeq (s : State) (c : Nat) (f : SysRegs → SysRegs) : (modSys s c f).placeSeq = s.placeSeq := modCtx_placeSeq s c _
@[simp] theorem modSys_queues (s : State) (c : Nat) (f : SysRegs → SysRegs) : (modSys s c f).queues = s.queues := modCtx_queues s c _
@[simp] theorem modSys_levels (s : State) (c : Nat) (f : SysRegs → SysRegs) : (modSys s c f).levels = s.levels := modCtx_levels s c _
@[simp] theorem modSys_lbars (s : State) (c : Nat) (f : SysRegs → SysRegs) : (modSys s c f).lbars = s.lbars := modCtx_lbars s c _
@[simp] theorem modSys_fills (s : State) (c : Nat) (f : SysRegs → SysRegs) : (modSys s c f).fills = s.fills := modCtx_fills s c _
@[simp] theorem modSys_pointers (s : State) (c : Nat) (f : SysRegs → SysRegs) : (modSys s c f).pointers = s.pointers := modCtx_pointers s c _
@[simp] theorem modSys_gates (s : State) (c : Nat) (f : SysRegs → SysRegs) : (modSys s c f).gates = s.gates := modCtx_gates s c _
@[simp] theorem modSys_host (s : State) (c : Nat) (f : SysRegs → SysRegs) : (modSys s c f).host = s.host := modCtx_host s c _

/-! #### modTrain -/

@[simp] theorem modTrain_agenda (s : State) (t : Nat) (f : Train → Train) : (modTrain s t f).agenda = s.agenda := by unfold modTrain; split <;> rfl
@[simp] theorem modTrain_cur (s : State) (t : Nat) (f : Train → Train) : (modTrain s t f).cur = s.cur := by unfold modTrain; split <;> rfl
@[simp] theorem modTrain_defer (s : State) (t : Nat) (f : Train → Train) : (modTrain s t f).defer = s.defer := by unfold modTrain; split <;> rfl
@[simp] theorem modTrain_stalled (s : State) (t : Nat) (f : Train → Train) : (modTrain s t f).stalled = s.stalled := by unfold modTrain; split <;> rfl
@[simp] theorem modTrain_ev (s : State) (t : Nat) (f : Train → Train) : (modTrain s t f).ev = s.ev := by unfold modTrain; split <;> rfl
@[simp] theorem modTrain_beat (s : State) (t : Nat) (f : Train → Train) : (modTrain s t f).beat = s.beat := by unfold modTrain; split <;> rfl
@[simp] theorem modTrain_fresh (s : State) (t : Nat) (f : Train → Train) : (modTrain s t f).fresh = s.fresh := by unfold modTrain; split <;> rfl
@[simp] theorem modTrain_nextId (s : State) (t : Nat) (f : Train → Train) : (modTrain s t f).nextId = s.nextId := by unfold modTrain; split <;> rfl
@[simp] theorem modTrain_waitSeq (s : State) (t : Nat) (f : Train → Train) : (modTrain s t f).waitSeq = s.waitSeq := by unfold modTrain; split <;> rfl
@[simp] theorem modTrain_rtime (s : State) (t : Nat) (f : Train → Train) : (modTrain s t f).rtime = s.rtime := by unfold modTrain; split <;> rfl
@[simp] theorem modTrain_timers (s : State) (t : Nat) (f : Train → Train) : (modTrain s t f).timers = s.timers := by unfold modTrain; split <;> rfl
@[simp] theorem modTrain_clocks (s : State) (t : Nat) (f : Train → Train) : (modTrain s t f).clocks = s.clocks := by unfold modTrain; split <;> rfl
@[simp] theorem modTrain_units (s : State) (t : Nat) (f : Train → Train) : (modTrain s t f).units = s.units := by unfold modTrain; split <;> rfl
@[simp] theorem modTrain_crefPhase (s : State) (t : Nat) (f : Train → Train) : (modTrain s t f).crefPhase = s.crefPhase := by unfold modTrain; split <;> rfl
@[simp] theorem modTrain_mem (s : State) (t : Nat) (f : Train → Train) : (modTrain s t f).mem = s.mem := by unfold modTrain; split <;> rfl
@[simp] theorem modTrain_poison (s : State) (t : Nat) (f : Train → Train) : (modTrain s t f).poison = s.poison := by unfold modTrain; split <;> rfl
@[simp] theorem modTrain_tags (s : State) (t : Nat) (f : Train → Train) : (modTrain s t f).tags = s.tags := by unfold modTrain; split <;> rfl
@[simp] theorem modTrain_enc (s : State) (t : Nat) (f : Train → Train) : (modTrain s t f).enc = s.enc := by unfold modTrain; split <;> rfl
@[simp] theorem modTrain_owner (s : State) (t : Nat) (f : Train → Train) : (modTrain s t f).owner = s.owner := by unfold modTrain; split <;> rfl
@[simp] theorem modTrain_stores (s : State) (t : Nat) (f : Train → Train) : (modTrain s t f).stores = s.stores := by unfold modTrain; split <;> rfl
@[simp] theorem modTrain_steps (s : State) (t : Nat) (f : Train → Train) : (modTrain s t f).steps = s.steps := by unfold modTrain; split <;> rfl
@[simp] theorem modTrain_cellar (s : State) (t : Nat) (f : Train → Train) : (modTrain s t f).cellar = s.cellar := by unfold modTrain; split <;> rfl
@[simp] theorem modTrain_cellarPoison (s : State) (t : Nat) (f : Train → Train) : (modTrain s t f).cellarPoison = s.cellarPoison := by unfold modTrain; split <;> rfl
@[simp] theorem modTrain_vintage (s : State) (t : Nat) (f : Train → Train) : (modTrain s t f).vintage = s.vintage := by unfold modTrain; split <;> rfl
@[simp] theorem modTrain_clusters (s : State) (t : Nat) (f : Train → Train) : (modTrain s t f).clusters = s.clusters := by unfold modTrain; split <;> rfl
@[simp] theorem modTrain_cores (s : State) (t : Nat) (f : Train → Train) : (modTrain s t f).cores = s.cores := by unfold modTrain; split <;> rfl
@[simp] theorem modTrain_ports (s : State) (t : Nat) (f : Train → Train) : (modTrain s t f).ports = s.ports := by unfold modTrain; split <;> rfl
@[simp] theorem modTrain_trainNext (s : State) (t : Nat) (f : Train → Train) : (modTrain s t f).trainNext = s.trainNext := by unfold modTrain; split <;> rfl
@[simp] theorem modTrain_placeSeq (s : State) (t : Nat) (f : Train → Train) : (modTrain s t f).placeSeq = s.placeSeq := by unfold modTrain; split <;> rfl
@[simp] theorem modTrain_queues (s : State) (t : Nat) (f : Train → Train) : (modTrain s t f).queues = s.queues := by unfold modTrain; split <;> rfl
@[simp] theorem modTrain_levels (s : State) (t : Nat) (f : Train → Train) : (modTrain s t f).levels = s.levels := by unfold modTrain; split <;> rfl
@[simp] theorem modTrain_lbars (s : State) (t : Nat) (f : Train → Train) : (modTrain s t f).lbars = s.lbars := by unfold modTrain; split <;> rfl
@[simp] theorem modTrain_fills (s : State) (t : Nat) (f : Train → Train) : (modTrain s t f).fills = s.fills := by unfold modTrain; split <;> rfl
@[simp] theorem modTrain_pointers (s : State) (t : Nat) (f : Train → Train) : (modTrain s t f).pointers = s.pointers := by unfold modTrain; split <;> rfl
@[simp] theorem modTrain_ctxs (s : State) (t : Nat) (f : Train → Train) : (modTrain s t f).ctxs = s.ctxs := by unfold modTrain; split <;> rfl
@[simp] theorem modTrain_gates (s : State) (t : Nat) (f : Train → Train) : (modTrain s t f).gates = s.gates := by unfold modTrain; split <;> rfl
@[simp] theorem modTrain_host (s : State) (t : Nat) (f : Train → Train) : (modTrain s t f).host = s.host := by unfold modTrain; split <;> rfl

/-! #### modCoach -/

@[simp] theorem modCoach_agenda (s : State) (t : Nat) (c : CoachId) (f : Coach → Coach) : (modCoach s t c f).agenda = s.agenda := modTrain_agenda s t _
@[simp] theorem modCoach_cur (s : State) (t : Nat) (c : CoachId) (f : Coach → Coach) : (modCoach s t c f).cur = s.cur := modTrain_cur s t _
@[simp] theorem modCoach_defer (s : State) (t : Nat) (c : CoachId) (f : Coach → Coach) : (modCoach s t c f).defer = s.defer := modTrain_defer s t _
@[simp] theorem modCoach_stalled (s : State) (t : Nat) (c : CoachId) (f : Coach → Coach) : (modCoach s t c f).stalled = s.stalled := modTrain_stalled s t _
@[simp] theorem modCoach_ev (s : State) (t : Nat) (c : CoachId) (f : Coach → Coach) : (modCoach s t c f).ev = s.ev := modTrain_ev s t _
@[simp] theorem modCoach_beat (s : State) (t : Nat) (c : CoachId) (f : Coach → Coach) : (modCoach s t c f).beat = s.beat := modTrain_beat s t _
@[simp] theorem modCoach_fresh (s : State) (t : Nat) (c : CoachId) (f : Coach → Coach) : (modCoach s t c f).fresh = s.fresh := modTrain_fresh s t _
@[simp] theorem modCoach_nextId (s : State) (t : Nat) (c : CoachId) (f : Coach → Coach) : (modCoach s t c f).nextId = s.nextId := modTrain_nextId s t _
@[simp] theorem modCoach_waitSeq (s : State) (t : Nat) (c : CoachId) (f : Coach → Coach) : (modCoach s t c f).waitSeq = s.waitSeq := modTrain_waitSeq s t _
@[simp] theorem modCoach_rtime (s : State) (t : Nat) (c : CoachId) (f : Coach → Coach) : (modCoach s t c f).rtime = s.rtime := modTrain_rtime s t _
@[simp] theorem modCoach_timers (s : State) (t : Nat) (c : CoachId) (f : Coach → Coach) : (modCoach s t c f).timers = s.timers := modTrain_timers s t _
@[simp] theorem modCoach_clocks (s : State) (t : Nat) (c : CoachId) (f : Coach → Coach) : (modCoach s t c f).clocks = s.clocks := modTrain_clocks s t _
@[simp] theorem modCoach_units (s : State) (t : Nat) (c : CoachId) (f : Coach → Coach) : (modCoach s t c f).units = s.units := modTrain_units s t _
@[simp] theorem modCoach_crefPhase (s : State) (t : Nat) (c : CoachId) (f : Coach → Coach) : (modCoach s t c f).crefPhase = s.crefPhase := modTrain_crefPhase s t _
@[simp] theorem modCoach_mem (s : State) (t : Nat) (c : CoachId) (f : Coach → Coach) : (modCoach s t c f).mem = s.mem := modTrain_mem s t _
@[simp] theorem modCoach_poison (s : State) (t : Nat) (c : CoachId) (f : Coach → Coach) : (modCoach s t c f).poison = s.poison := modTrain_poison s t _
@[simp] theorem modCoach_tags (s : State) (t : Nat) (c : CoachId) (f : Coach → Coach) : (modCoach s t c f).tags = s.tags := modTrain_tags s t _
@[simp] theorem modCoach_enc (s : State) (t : Nat) (c : CoachId) (f : Coach → Coach) : (modCoach s t c f).enc = s.enc := modTrain_enc s t _
@[simp] theorem modCoach_owner (s : State) (t : Nat) (c : CoachId) (f : Coach → Coach) : (modCoach s t c f).owner = s.owner := modTrain_owner s t _
@[simp] theorem modCoach_stores (s : State) (t : Nat) (c : CoachId) (f : Coach → Coach) : (modCoach s t c f).stores = s.stores := modTrain_stores s t _
@[simp] theorem modCoach_steps (s : State) (t : Nat) (c : CoachId) (f : Coach → Coach) : (modCoach s t c f).steps = s.steps := modTrain_steps s t _
@[simp] theorem modCoach_cellar (s : State) (t : Nat) (c : CoachId) (f : Coach → Coach) : (modCoach s t c f).cellar = s.cellar := modTrain_cellar s t _
@[simp] theorem modCoach_cellarPoison (s : State) (t : Nat) (c : CoachId) (f : Coach → Coach) : (modCoach s t c f).cellarPoison = s.cellarPoison := modTrain_cellarPoison s t _
@[simp] theorem modCoach_vintage (s : State) (t : Nat) (c : CoachId) (f : Coach → Coach) : (modCoach s t c f).vintage = s.vintage := modTrain_vintage s t _
@[simp] theorem modCoach_clusters (s : State) (t : Nat) (c : CoachId) (f : Coach → Coach) : (modCoach s t c f).clusters = s.clusters := modTrain_clusters s t _
@[simp] theorem modCoach_cores (s : State) (t : Nat) (c : CoachId) (f : Coach → Coach) : (modCoach s t c f).cores = s.cores := modTrain_cores s t _
@[simp] theorem modCoach_ports (s : State) (t : Nat) (c : CoachId) (f : Coach → Coach) : (modCoach s t c f).ports = s.ports := modTrain_ports s t _
@[simp] theorem modCoach_trainNext (s : State) (t : Nat) (c : CoachId) (f : Coach → Coach) : (modCoach s t c f).trainNext = s.trainNext := modTrain_trainNext s t _
@[simp] theorem modCoach_placeSeq (s : State) (t : Nat) (c : CoachId) (f : Coach → Coach) : (modCoach s t c f).placeSeq = s.placeSeq := modTrain_placeSeq s t _
@[simp] theorem modCoach_queues (s : State) (t : Nat) (c : CoachId) (f : Coach → Coach) : (modCoach s t c f).queues = s.queues := modTrain_queues s t _
@[simp] theorem modCoach_levels (s : State) (t : Nat) (c : CoachId) (f : Coach → Coach) : (modCoach s t c f).levels = s.levels := modTrain_levels s t _
@[simp] theorem modCoach_lbars (s : State) (t : Nat) (c : CoachId) (f : Coach → Coach) : (modCoach s t c f).lbars = s.lbars := modTrain_lbars s t _
@[simp] theorem modCoach_fills (s : State) (t : Nat) (c : CoachId) (f : Coach → Coach) : (modCoach s t c f).fills = s.fills := modTrain_fills s t _
@[simp] theorem modCoach_pointers (s : State) (t : Nat) (c : CoachId) (f : Coach → Coach) : (modCoach s t c f).pointers = s.pointers := modTrain_pointers s t _
@[simp] theorem modCoach_ctxs (s : State) (t : Nat) (c : CoachId) (f : Coach → Coach) : (modCoach s t c f).ctxs = s.ctxs := modTrain_ctxs s t _
@[simp] theorem modCoach_gates (s : State) (t : Nat) (c : CoachId) (f : Coach → Coach) : (modCoach s t c f).gates = s.gates := modTrain_gates s t _
@[simp] theorem modCoach_host (s : State) (t : Nat) (c : CoachId) (f : Coach → Coach) : (modCoach s t c f).host = s.host := modTrain_host s t _

/-! #### modFrag -/

@[simp] theorem modFrag_agenda (s : State) (r : FragRef) (f : Frag → Frag) : (modFrag s r f).agenda = s.agenda := modCoach_agenda s r.train r.coach _
@[simp] theorem modFrag_cur (s : State) (r : FragRef) (f : Frag → Frag) : (modFrag s r f).cur = s.cur := modCoach_cur s r.train r.coach _
@[simp] theorem modFrag_defer (s : State) (r : FragRef) (f : Frag → Frag) : (modFrag s r f).defer = s.defer := modCoach_defer s r.train r.coach _
@[simp] theorem modFrag_stalled (s : State) (r : FragRef) (f : Frag → Frag) : (modFrag s r f).stalled = s.stalled := modCoach_stalled s r.train r.coach _
@[simp] theorem modFrag_ev (s : State) (r : FragRef) (f : Frag → Frag) : (modFrag s r f).ev = s.ev := modCoach_ev s r.train r.coach _
@[simp] theorem modFrag_beat (s : State) (r : FragRef) (f : Frag → Frag) : (modFrag s r f).beat = s.beat := modCoach_beat s r.train r.coach _
@[simp] theorem modFrag_fresh (s : State) (r : FragRef) (f : Frag → Frag) : (modFrag s r f).fresh = s.fresh := modCoach_fresh s r.train r.coach _
@[simp] theorem modFrag_nextId (s : State) (r : FragRef) (f : Frag → Frag) : (modFrag s r f).nextId = s.nextId := modCoach_nextId s r.train r.coach _
@[simp] theorem modFrag_waitSeq (s : State) (r : FragRef) (f : Frag → Frag) : (modFrag s r f).waitSeq = s.waitSeq := modCoach_waitSeq s r.train r.coach _
@[simp] theorem modFrag_rtime (s : State) (r : FragRef) (f : Frag → Frag) : (modFrag s r f).rtime = s.rtime := modCoach_rtime s r.train r.coach _
@[simp] theorem modFrag_timers (s : State) (r : FragRef) (f : Frag → Frag) : (modFrag s r f).timers = s.timers := modCoach_timers s r.train r.coach _
@[simp] theorem modFrag_clocks (s : State) (r : FragRef) (f : Frag → Frag) : (modFrag s r f).clocks = s.clocks := modCoach_clocks s r.train r.coach _
@[simp] theorem modFrag_units (s : State) (r : FragRef) (f : Frag → Frag) : (modFrag s r f).units = s.units := modCoach_units s r.train r.coach _
@[simp] theorem modFrag_crefPhase (s : State) (r : FragRef) (f : Frag → Frag) : (modFrag s r f).crefPhase = s.crefPhase := modCoach_crefPhase s r.train r.coach _
@[simp] theorem modFrag_mem (s : State) (r : FragRef) (f : Frag → Frag) : (modFrag s r f).mem = s.mem := modCoach_mem s r.train r.coach _
@[simp] theorem modFrag_poison (s : State) (r : FragRef) (f : Frag → Frag) : (modFrag s r f).poison = s.poison := modCoach_poison s r.train r.coach _
@[simp] theorem modFrag_tags (s : State) (r : FragRef) (f : Frag → Frag) : (modFrag s r f).tags = s.tags := modCoach_tags s r.train r.coach _
@[simp] theorem modFrag_enc (s : State) (r : FragRef) (f : Frag → Frag) : (modFrag s r f).enc = s.enc := modCoach_enc s r.train r.coach _
@[simp] theorem modFrag_owner (s : State) (r : FragRef) (f : Frag → Frag) : (modFrag s r f).owner = s.owner := modCoach_owner s r.train r.coach _
@[simp] theorem modFrag_stores (s : State) (r : FragRef) (f : Frag → Frag) : (modFrag s r f).stores = s.stores := modCoach_stores s r.train r.coach _
@[simp] theorem modFrag_steps (s : State) (r : FragRef) (f : Frag → Frag) : (modFrag s r f).steps = s.steps := modCoach_steps s r.train r.coach _
@[simp] theorem modFrag_cellar (s : State) (r : FragRef) (f : Frag → Frag) : (modFrag s r f).cellar = s.cellar := modCoach_cellar s r.train r.coach _
@[simp] theorem modFrag_cellarPoison (s : State) (r : FragRef) (f : Frag → Frag) : (modFrag s r f).cellarPoison = s.cellarPoison := modCoach_cellarPoison s r.train r.coach _
@[simp] theorem modFrag_vintage (s : State) (r : FragRef) (f : Frag → Frag) : (modFrag s r f).vintage = s.vintage := modCoach_vintage s r.train r.coach _
@[simp] theorem modFrag_clusters (s : State) (r : FragRef) (f : Frag → Frag) : (modFrag s r f).clusters = s.clusters := modCoach_clusters s r.train r.coach _
@[simp] theorem modFrag_cores (s : State) (r : FragRef) (f : Frag → Frag) : (modFrag s r f).cores = s.cores := modCoach_cores s r.train r.coach _
@[simp] theorem modFrag_ports (s : State) (r : FragRef) (f : Frag → Frag) : (modFrag s r f).ports = s.ports := modCoach_ports s r.train r.coach _
@[simp] theorem modFrag_trainNext (s : State) (r : FragRef) (f : Frag → Frag) : (modFrag s r f).trainNext = s.trainNext := modCoach_trainNext s r.train r.coach _
@[simp] theorem modFrag_placeSeq (s : State) (r : FragRef) (f : Frag → Frag) : (modFrag s r f).placeSeq = s.placeSeq := modCoach_placeSeq s r.train r.coach _
@[simp] theorem modFrag_queues (s : State) (r : FragRef) (f : Frag → Frag) : (modFrag s r f).queues = s.queues := modCoach_queues s r.train r.coach _
@[simp] theorem modFrag_levels (s : State) (r : FragRef) (f : Frag → Frag) : (modFrag s r f).levels = s.levels := modCoach_levels s r.train r.coach _
@[simp] theorem modFrag_lbars (s : State) (r : FragRef) (f : Frag → Frag) : (modFrag s r f).lbars = s.lbars := modCoach_lbars s r.train r.coach _
@[simp] theorem modFrag_fills (s : State) (r : FragRef) (f : Frag → Frag) : (modFrag s r f).fills = s.fills := modCoach_fills s r.train r.coach _
@[simp] theorem modFrag_pointers (s : State) (r : FragRef) (f : Frag → Frag) : (modFrag s r f).pointers = s.pointers := modCoach_pointers s r.train r.coach _
@[simp] theorem modFrag_ctxs (s : State) (r : FragRef) (f : Frag → Frag) : (modFrag s r f).ctxs = s.ctxs := modCoach_ctxs s r.train r.coach _
@[simp] theorem modFrag_gates (s : State) (r : FragRef) (f : Frag → Frag) : (modFrag s r f).gates = s.gates := modCoach_gates s r.train r.coach _
@[simp] theorem modFrag_host (s : State) (r : FragRef) (f : Frag → Frag) : (modFrag s r f).host = s.host := modCoach_host s r.train r.coach _

/-! #### wr -/

@[simp] theorem wr_agenda (s : State) (x : Ix) (o : Operand) (n : Nat) (rs : List (Nat × Nat)) : (wr s x o n rs).agenda = s.agenda := modCoach_agenda s x.ref.train x.ref.coach _
@[simp] theorem wr_cur (s : State) (x : Ix) (o : Operand) (n : Nat) (rs : List (Nat × Nat)) : (wr s x o n rs).cur = s.cur := modCoach_cur s x.ref.train x.ref.coach _
@[simp] theorem wr_defer (s : State) (x : Ix) (o : Operand) (n : Nat) (rs : List (Nat × Nat)) : (wr s x o n rs).defer = s.defer := modCoach_defer s x.ref.train x.ref.coach _
@[simp] theorem wr_stalled (s : State) (x : Ix) (o : Operand) (n : Nat) (rs : List (Nat × Nat)) : (wr s x o n rs).stalled = s.stalled := modCoach_stalled s x.ref.train x.ref.coach _
@[simp] theorem wr_ev (s : State) (x : Ix) (o : Operand) (n : Nat) (rs : List (Nat × Nat)) : (wr s x o n rs).ev = s.ev := modCoach_ev s x.ref.train x.ref.coach _
@[simp] theorem wr_beat (s : State) (x : Ix) (o : Operand) (n : Nat) (rs : List (Nat × Nat)) : (wr s x o n rs).beat = s.beat := modCoach_beat s x.ref.train x.ref.coach _
@[simp] theorem wr_fresh (s : State) (x : Ix) (o : Operand) (n : Nat) (rs : List (Nat × Nat)) : (wr s x o n rs).fresh = s.fresh := modCoach_fresh s x.ref.train x.ref.coach _
@[simp] theorem wr_nextId (s : State) (x : Ix) (o : Operand) (n : Nat) (rs : List (Nat × Nat)) : (wr s x o n rs).nextId = s.nextId := modCoach_nextId s x.ref.train x.ref.coach _
@[simp] theorem wr_waitSeq (s : State) (x : Ix) (o : Operand) (n : Nat) (rs : List (Nat × Nat)) : (wr s x o n rs).waitSeq = s.waitSeq := modCoach_waitSeq s x.ref.train x.ref.coach _
@[simp] theorem wr_rtime (s : State) (x : Ix) (o : Operand) (n : Nat) (rs : List (Nat × Nat)) : (wr s x o n rs).rtime = s.rtime := modCoach_rtime s x.ref.train x.ref.coach _
@[simp] theorem wr_timers (s : State) (x : Ix) (o : Operand) (n : Nat) (rs : List (Nat × Nat)) : (wr s x o n rs).timers = s.timers := modCoach_timers s x.ref.train x.ref.coach _
@[simp] theorem wr_clocks (s : State) (x : Ix) (o : Operand) (n : Nat) (rs : List (Nat × Nat)) : (wr s x o n rs).clocks = s.clocks := modCoach_clocks s x.ref.train x.ref.coach _
@[simp] theorem wr_units (s : State) (x : Ix) (o : Operand) (n : Nat) (rs : List (Nat × Nat)) : (wr s x o n rs).units = s.units := modCoach_units s x.ref.train x.ref.coach _
@[simp] theorem wr_crefPhase (s : State) (x : Ix) (o : Operand) (n : Nat) (rs : List (Nat × Nat)) : (wr s x o n rs).crefPhase = s.crefPhase := modCoach_crefPhase s x.ref.train x.ref.coach _
@[simp] theorem wr_mem (s : State) (x : Ix) (o : Operand) (n : Nat) (rs : List (Nat × Nat)) : (wr s x o n rs).mem = s.mem := modCoach_mem s x.ref.train x.ref.coach _
@[simp] theorem wr_poison (s : State) (x : Ix) (o : Operand) (n : Nat) (rs : List (Nat × Nat)) : (wr s x o n rs).poison = s.poison := modCoach_poison s x.ref.train x.ref.coach _
@[simp] theorem wr_tags (s : State) (x : Ix) (o : Operand) (n : Nat) (rs : List (Nat × Nat)) : (wr s x o n rs).tags = s.tags := modCoach_tags s x.ref.train x.ref.coach _
@[simp] theorem wr_enc (s : State) (x : Ix) (o : Operand) (n : Nat) (rs : List (Nat × Nat)) : (wr s x o n rs).enc = s.enc := modCoach_enc s x.ref.train x.ref.coach _
@[simp] theorem wr_owner (s : State) (x : Ix) (o : Operand) (n : Nat) (rs : List (Nat × Nat)) : (wr s x o n rs).owner = s.owner := modCoach_owner s x.ref.train x.ref.coach _
@[simp] theorem wr_stores (s : State) (x : Ix) (o : Operand) (n : Nat) (rs : List (Nat × Nat)) : (wr s x o n rs).stores = s.stores := modCoach_stores s x.ref.train x.ref.coach _
@[simp] theorem wr_steps (s : State) (x : Ix) (o : Operand) (n : Nat) (rs : List (Nat × Nat)) : (wr s x o n rs).steps = s.steps := modCoach_steps s x.ref.train x.ref.coach _
@[simp] theorem wr_cellar (s : State) (x : Ix) (o : Operand) (n : Nat) (rs : List (Nat × Nat)) : (wr s x o n rs).cellar = s.cellar := modCoach_cellar s x.ref.train x.ref.coach _
@[simp] theorem wr_cellarPoison (s : State) (x : Ix) (o : Operand) (n : Nat) (rs : List (Nat × Nat)) : (wr s x o n rs).cellarPoison = s.cellarPoison := modCoach_cellarPoison s x.ref.train x.ref.coach _
@[simp] theorem wr_vintage (s : State) (x : Ix) (o : Operand) (n : Nat) (rs : List (Nat × Nat)) : (wr s x o n rs).vintage = s.vintage := modCoach_vintage s x.ref.train x.ref.coach _
@[simp] theorem wr_clusters (s : State) (x : Ix) (o : Operand) (n : Nat) (rs : List (Nat × Nat)) : (wr s x o n rs).clusters = s.clusters := modCoach_clusters s x.ref.train x.ref.coach _
@[simp] theorem wr_cores (s : State) (x : Ix) (o : Operand) (n : Nat) (rs : List (Nat × Nat)) : (wr s x o n rs).cores = s.cores := modCoach_cores s x.ref.train x.ref.coach _
@[simp] theorem wr_ports (s : State) (x : Ix) (o : Operand) (n : Nat) (rs : List (Nat × Nat)) : (wr s x o n rs).ports = s.ports := modCoach_ports s x.ref.train x.ref.coach _
@[simp] theorem wr_trainNext (s : State) (x : Ix) (o : Operand) (n : Nat) (rs : List (Nat × Nat)) : (wr s x o n rs).trainNext = s.trainNext := modCoach_trainNext s x.ref.train x.ref.coach _
@[simp] theorem wr_placeSeq (s : State) (x : Ix) (o : Operand) (n : Nat) (rs : List (Nat × Nat)) : (wr s x o n rs).placeSeq = s.placeSeq := modCoach_placeSeq s x.ref.train x.ref.coach _
@[simp] theorem wr_queues (s : State) (x : Ix) (o : Operand) (n : Nat) (rs : List (Nat × Nat)) : (wr s x o n rs).queues = s.queues := modCoach_queues s x.ref.train x.ref.coach _
@[simp] theorem wr_levels (s : State) (x : Ix) (o : Operand) (n : Nat) (rs : List (Nat × Nat)) : (wr s x o n rs).levels = s.levels := modCoach_levels s x.ref.train x.ref.coach _
@[simp] theorem wr_lbars (s : State) (x : Ix) (o : Operand) (n : Nat) (rs : List (Nat × Nat)) : (wr s x o n rs).lbars = s.lbars := modCoach_lbars s x.ref.train x.ref.coach _
@[simp] theorem wr_fills (s : State) (x : Ix) (o : Operand) (n : Nat) (rs : List (Nat × Nat)) : (wr s x o n rs).fills = s.fills := modCoach_fills s x.ref.train x.ref.coach _
@[simp] theorem wr_pointers (s : State) (x : Ix) (o : Operand) (n : Nat) (rs : List (Nat × Nat)) : (wr s x o n rs).pointers = s.pointers := modCoach_pointers s x.ref.train x.ref.coach _
@[simp] theorem wr_ctxs (s : State) (x : Ix) (o : Operand) (n : Nat) (rs : List (Nat × Nat)) : (wr s x o n rs).ctxs = s.ctxs := modCoach_ctxs s x.ref.train x.ref.coach _
@[simp] theorem wr_gates (s : State) (x : Ix) (o : Operand) (n : Nat) (rs : List (Nat × Nat)) : (wr s x o n rs).gates = s.gates := modCoach_gates s x.ref.train x.ref.coach _
@[simp] theorem wr_host (s : State) (x : Ix) (o : Operand) (n : Nat) (rs : List (Nat × Nat)) : (wr s x o n rs).host = s.host := modCoach_host s x.ref.train x.ref.coach _

/-! #### wrPred -/

@[simp] theorem wrPred_agenda (s : State) (x : Ix) (p : BitVec 4) (rs : List (Nat × Bool)) : (wrPred s x p rs).agenda = s.agenda := modCoach_agenda s x.ref.train x.ref.coach _
@[simp] theorem wrPred_cur (s : State) (x : Ix) (p : BitVec 4) (rs : List (Nat × Bool)) : (wrPred s x p rs).cur = s.cur := modCoach_cur s x.ref.train x.ref.coach _
@[simp] theorem wrPred_defer (s : State) (x : Ix) (p : BitVec 4) (rs : List (Nat × Bool)) : (wrPred s x p rs).defer = s.defer := modCoach_defer s x.ref.train x.ref.coach _
@[simp] theorem wrPred_stalled (s : State) (x : Ix) (p : BitVec 4) (rs : List (Nat × Bool)) : (wrPred s x p rs).stalled = s.stalled := modCoach_stalled s x.ref.train x.ref.coach _
@[simp] theorem wrPred_ev (s : State) (x : Ix) (p : BitVec 4) (rs : List (Nat × Bool)) : (wrPred s x p rs).ev = s.ev := modCoach_ev s x.ref.train x.ref.coach _
@[simp] theorem wrPred_beat (s : State) (x : Ix) (p : BitVec 4) (rs : List (Nat × Bool)) : (wrPred s x p rs).beat = s.beat := modCoach_beat s x.ref.train x.ref.coach _
@[simp] theorem wrPred_fresh (s : State) (x : Ix) (p : BitVec 4) (rs : List (Nat × Bool)) : (wrPred s x p rs).fresh = s.fresh := modCoach_fresh s x.ref.train x.ref.coach _
@[simp] theorem wrPred_nextId (s : State) (x : Ix) (p : BitVec 4) (rs : List (Nat × Bool)) : (wrPred s x p rs).nextId = s.nextId := modCoach_nextId s x.ref.train x.ref.coach _
@[simp] theorem wrPred_waitSeq (s : State) (x : Ix) (p : BitVec 4) (rs : List (Nat × Bool)) : (wrPred s x p rs).waitSeq = s.waitSeq := modCoach_waitSeq s x.ref.train x.ref.coach _
@[simp] theorem wrPred_rtime (s : State) (x : Ix) (p : BitVec 4) (rs : List (Nat × Bool)) : (wrPred s x p rs).rtime = s.rtime := modCoach_rtime s x.ref.train x.ref.coach _
@[simp] theorem wrPred_timers (s : State) (x : Ix) (p : BitVec 4) (rs : List (Nat × Bool)) : (wrPred s x p rs).timers = s.timers := modCoach_timers s x.ref.train x.ref.coach _
@[simp] theorem wrPred_clocks (s : State) (x : Ix) (p : BitVec 4) (rs : List (Nat × Bool)) : (wrPred s x p rs).clocks = s.clocks := modCoach_clocks s x.ref.train x.ref.coach _
@[simp] theorem wrPred_units (s : State) (x : Ix) (p : BitVec 4) (rs : List (Nat × Bool)) : (wrPred s x p rs).units = s.units := modCoach_units s x.ref.train x.ref.coach _
@[simp] theorem wrPred_crefPhase (s : State) (x : Ix) (p : BitVec 4) (rs : List (Nat × Bool)) : (wrPred s x p rs).crefPhase = s.crefPhase := modCoach_crefPhase s x.ref.train x.ref.coach _
@[simp] theorem wrPred_mem (s : State) (x : Ix) (p : BitVec 4) (rs : List (Nat × Bool)) : (wrPred s x p rs).mem = s.mem := modCoach_mem s x.ref.train x.ref.coach _
@[simp] theorem wrPred_poison (s : State) (x : Ix) (p : BitVec 4) (rs : List (Nat × Bool)) : (wrPred s x p rs).poison = s.poison := modCoach_poison s x.ref.train x.ref.coach _
@[simp] theorem wrPred_tags (s : State) (x : Ix) (p : BitVec 4) (rs : List (Nat × Bool)) : (wrPred s x p rs).tags = s.tags := modCoach_tags s x.ref.train x.ref.coach _
@[simp] theorem wrPred_enc (s : State) (x : Ix) (p : BitVec 4) (rs : List (Nat × Bool)) : (wrPred s x p rs).enc = s.enc := modCoach_enc s x.ref.train x.ref.coach _
@[simp] theorem wrPred_owner (s : State) (x : Ix) (p : BitVec 4) (rs : List (Nat × Bool)) : (wrPred s x p rs).owner = s.owner := modCoach_owner s x.ref.train x.ref.coach _
@[simp] theorem wrPred_stores (s : State) (x : Ix) (p : BitVec 4) (rs : List (Nat × Bool)) : (wrPred s x p rs).stores = s.stores := modCoach_stores s x.ref.train x.ref.coach _
@[simp] theorem wrPred_steps (s : State) (x : Ix) (p : BitVec 4) (rs : List (Nat × Bool)) : (wrPred s x p rs).steps = s.steps := modCoach_steps s x.ref.train x.ref.coach _
@[simp] theorem wrPred_cellar (s : State) (x : Ix) (p : BitVec 4) (rs : List (Nat × Bool)) : (wrPred s x p rs).cellar = s.cellar := modCoach_cellar s x.ref.train x.ref.coach _
@[simp] theorem wrPred_cellarPoison (s : State) (x : Ix) (p : BitVec 4) (rs : List (Nat × Bool)) : (wrPred s x p rs).cellarPoison = s.cellarPoison := modCoach_cellarPoison s x.ref.train x.ref.coach _
@[simp] theorem wrPred_vintage (s : State) (x : Ix) (p : BitVec 4) (rs : List (Nat × Bool)) : (wrPred s x p rs).vintage = s.vintage := modCoach_vintage s x.ref.train x.ref.coach _
@[simp] theorem wrPred_clusters (s : State) (x : Ix) (p : BitVec 4) (rs : List (Nat × Bool)) : (wrPred s x p rs).clusters = s.clusters := modCoach_clusters s x.ref.train x.ref.coach _
@[simp] theorem wrPred_cores (s : State) (x : Ix) (p : BitVec 4) (rs : List (Nat × Bool)) : (wrPred s x p rs).cores = s.cores := modCoach_cores s x.ref.train x.ref.coach _
@[simp] theorem wrPred_ports (s : State) (x : Ix) (p : BitVec 4) (rs : List (Nat × Bool)) : (wrPred s x p rs).ports = s.ports := modCoach_ports s x.ref.train x.ref.coach _
@[simp] theorem wrPred_trainNext (s : State) (x : Ix) (p : BitVec 4) (rs : List (Nat × Bool)) : (wrPred s x p rs).trainNext = s.trainNext := modCoach_trainNext s x.ref.train x.ref.coach _
@[simp] theorem wrPred_placeSeq (s : State) (x : Ix) (p : BitVec 4) (rs : List (Nat × Bool)) : (wrPred s x p rs).placeSeq = s.placeSeq := modCoach_placeSeq s x.ref.train x.ref.coach _
@[simp] theorem wrPred_queues (s : State) (x : Ix) (p : BitVec 4) (rs : List (Nat × Bool)) : (wrPred s x p rs).queues = s.queues := modCoach_queues s x.ref.train x.ref.coach _
@[simp] theorem wrPred_levels (s : State) (x : Ix) (p : BitVec 4) (rs : List (Nat × Bool)) : (wrPred s x p rs).levels = s.levels := modCoach_levels s x.ref.train x.ref.coach _
@[simp] theorem wrPred_lbars (s : State) (x : Ix) (p : BitVec 4) (rs : List (Nat × Bool)) : (wrPred s x p rs).lbars = s.lbars := modCoach_lbars s x.ref.train x.ref.coach _
@[simp] theorem wrPred_fills (s : State) (x : Ix) (p : BitVec 4) (rs : List (Nat × Bool)) : (wrPred s x p rs).fills = s.fills := modCoach_fills s x.ref.train x.ref.coach _
@[simp] theorem wrPred_pointers (s : State) (x : Ix) (p : BitVec 4) (rs : List (Nat × Bool)) : (wrPred s x p rs).pointers = s.pointers := modCoach_pointers s x.ref.train x.ref.coach _
@[simp] theorem wrPred_ctxs (s : State) (x : Ix) (p : BitVec 4) (rs : List (Nat × Bool)) : (wrPred s x p rs).ctxs = s.ctxs := modCoach_ctxs s x.ref.train x.ref.coach _
@[simp] theorem wrPred_gates (s : State) (x : Ix) (p : BitVec 4) (rs : List (Nat × Bool)) : (wrPred s x p rs).gates = s.gates := modCoach_gates s x.ref.train x.ref.coach _
@[simp] theorem wrPred_host (s : State) (x : Ix) (p : BitVec 4) (rs : List (Nat × Bool)) : (wrPred s x p rs).host = s.host := modCoach_host s x.ref.train x.ref.coach _

/-! ### Within a coach and a lane -/

@[simp] theorem Lane.setReg_fid (l : Lane) (i : Nat) (x : Word32) : (l.setReg i x).fid = l.fid := rfl
@[simp] theorem Lane.setReg_preds (l : Lane) (i : Nat) (x : Word32) : (l.setReg i x).preds = l.preds := rfl
@[simp] theorem Lane.setReg_rfc (l : Lane) (i : Nat) (x : Word32) : (l.setReg i x).rfc = l.rfc := rfl
@[simp] theorem Lane.setReg_arrived (l : Lane) (i : Nat) (x : Word32) : (l.setReg i x).arrived = l.arrived := rfl
@[simp] theorem Lane.setPred_fid (l : Lane) (i : BitVec 4) (b : Bool) : (l.setPred i b).fid = l.fid := by unfold Lane.setPred; split <;> rfl
@[simp] theorem Lane.setPred_rfc (l : Lane) (i : BitVec 4) (b : Bool) : (l.setPred i b).rfc = l.rfc := by unfold Lane.setPred; split <;> rfl
@[simp] theorem Lane.setPred_arrived (l : Lane) (i : BitVec 4) (b : Bool) : (l.setPred i b).arrived = l.arrived := by unfold Lane.setPred; split <;> rfl
@[simp] theorem Lane.setPred_v (l : Lane) (i : BitVec 4) (b : Bool) : (l.setPred i b).v = l.v := by unfold Lane.setPred; split <;> rfl
@[simp] theorem Lane.setPred_bad (l : Lane) (i : BitVec 4) (b : Bool) : (l.setPred i b).bad = l.bad := by unfold Lane.setPred; split <;> rfl
@[simp] theorem Coach.setSreg_gen (co : Coach) (i : Nat) (x : Word32) : (co.setSreg i x).gen = co.gen := rfl
@[simp] theorem Coach.setSreg_step (co : Coach) (i : Nat) (x : Word32) : (co.setSreg i x).step = co.step := rfl
@[simp] theorem Coach.setSreg_frags (co : Coach) (i : Nat) (x : Word32) : (co.setSreg i x).frags = co.frags := rfl
@[simp] theorem Coach.setSreg_lanes (co : Coach) (i : Nat) (x : Word32) : (co.setSreg i x).lanes = co.lanes := rfl
@[simp] theorem Coach.setSreg_pend (co : Coach) (i : Nat) (x : Word32) : (co.setSreg i x).pend = co.pend := rfl
@[simp] theorem Coach.setSreg_frames (co : Coach) (i : Nat) (x : Word32) : (co.setSreg i x).frames = co.frames := rfl
@[simp] theorem Coach.setSreg_passed (co : Coach) (i : Nat) (x : Word32) : (co.setSreg i x).passed = co.passed := rfl
@[simp] theorem Coach.setSreg_ras (co : Coach) (i : Nat) (x : Word32) : (co.setSreg i x).ras = co.ras := rfl
@[simp] theorem Coach.setSreg_left (co : Coach) (i : Nat) (x : Word32) : (co.setSreg i x).left = co.left := rfl
@[simp] theorem modLane_gen (co : Coach) (i : Nat) (f : Lane → Lane) : (modLane co i f).gen = co.gen := by unfold modLane; split <;> rfl
@[simp] theorem modLane_step (co : Coach) (i : Nat) (f : Lane → Lane) : (modLane co i f).step = co.step := by unfold modLane; split <;> rfl
@[simp] theorem modLane_sregs (co : Coach) (i : Nat) (f : Lane → Lane) : (modLane co i f).sregs = co.sregs := by unfold modLane; split <;> rfl
@[simp] theorem modLane_sbad (co : Coach) (i : Nat) (f : Lane → Lane) : (modLane co i f).sbad = co.sbad := by unfold modLane; split <;> rfl
@[simp] theorem modLane_frags (co : Coach) (i : Nat) (f : Lane → Lane) : (modLane co i f).frags = co.frags := by unfold modLane; split <;> rfl
@[simp] theorem modLane_pend (co : Coach) (i : Nat) (f : Lane → Lane) : (modLane co i f).pend = co.pend := by unfold modLane; split <;> rfl
@[simp] theorem modLane_frames (co : Coach) (i : Nat) (f : Lane → Lane) : (modLane co i f).frames = co.frames := by unfold modLane; split <;> rfl
@[simp] theorem modLane_passed (co : Coach) (i : Nat) (f : Lane → Lane) : (modLane co i f).passed = co.passed := by unfold modLane; split <;> rfl
@[simp] theorem modLane_ras (co : Coach) (i : Nat) (f : Lane → Lane) : (modLane co i f).ras = co.ras := by unfold modLane; split <;> rfl
@[simp] theorem modLane_left (co : Coach) (i : Nat) (f : Lane → Lane) : (modLane co i f).left = co.left := by unfold modLane; split <;> rfl
@[simp] theorem Ctx.setBucket_parent (c : Ctx) (k : Bucket) (b : BucketSt) : (c.setBucket k b).parent = c.parent := by cases k <;> rfl
@[simp] theorem Ctx.setBucket_depth (c : Ctx) (k : Bucket) (b : BucketSt) : (c.setBucket k b).depth = c.depth := by cases k <;> rfl
@[simp] theorem Ctx.setBucket_st (c : Ctx) (k : Bucket) (b : BucketSt) : (c.setBucket k b).st = c.st := by cases k <;> rfl
@[simp] theorem Ctx.setBucket_s1root (c : Ctx) (k : Bucket) (b : BucketSt) : (c.setBucket k b).s1root = c.s1root := by cases k <;> rfl
@[simp] theorem Ctx.setBucket_lvbase (c : Ctx) (k : Bucket) (b : BucketSt) : (c.setBucket k b).lvbase = c.lvbase := by cases k <;> rfl
@[simp] theorem Ctx.setBucket_lvlen (c : Ctx) (k : Bucket) (b : BucketSt) : (c.setBucket k b).lvlen = c.lvlen := by cases k <;> rfl
@[simp] theorem Ctx.setBucket_fqbase (c : Ctx) (k : Bucket) (b : BucketSt) : (c.setBucket k b).fqbase = c.fqbase := by cases k <;> rfl
@[simp] theorem Ctx.setBucket_fqsize (c : Ctx) (k : Bucket) (b : BucketSt) : (c.setBucket k b).fqsize = c.fqsize := by cases k <;> rfl
@[simp] theorem Ctx.setBucket_fqcard (c : Ctx) (k : Bucket) (b : BucketSt) : (c.setBucket k b).fqcard = c.fqcard := by cases k <;> rfl
@[simp] theorem Ctx.setBucket_fqqueue (c : Ctx) (k : Bucket) (b : BucketSt) : (c.setBucket k b).fqqueue = c.fqqueue := by cases k <;> rfl
@[simp] theorem Ctx.setBucket_save (c : Ctx) (k : Bucket) (b : BucketSt) : (c.setBucket k b).save = c.save := by cases k <;> rfl
@[simp] theorem Ctx.setBucket_savelen (c : Ctx) (k : Bucket) (b : BucketSt) : (c.setBucket k b).savelen = c.savelen := by cases k <;> rfl
@[simp] theorem Ctx.setBucket_reflect (c : Ctx) (k : Bucket) (b : BucketSt) : (c.setBucket k b).reflect = c.reflect := by cases k <;> rfl
@[simp] theorem Ctx.setBucket_gmap (c : Ctx) (k : Bucket) (b : BucketSt) : (c.setBucket k b).gmap = c.gmap := by cases k <;> rfl
@[simp] theorem Ctx.setBucket_dies (c : Ctx) (k : Bucket) (b : BucketSt) : (c.setBucket k b).dies = c.dies := by cases k <;> rfl
@[simp] theorem Ctx.setBucket_clusters (c : Ctx) (k : Bucket) (b : BucketSt) : (c.setBucket k b).clusters = c.clusters := by cases k <;> rfl
@[simp] theorem Ctx.setBucket_cores (c : Ctx) (k : Bucket) (b : BucketSt) : (c.setBucket k b).cores = c.cores := by cases k <;> rfl
@[simp] theorem Ctx.setBucket_slices (c : Ctx) (k : Bucket) (b : BucketSt) : (c.setBucket k b).slices = c.slices := by cases k <;> rfl
@[simp] theorem Ctx.setBucket_casks (c : Ctx) (k : Bucket) (b : BucketSt) : (c.setBucket k b).casks = c.casks := by cases k <;> rfl
@[simp] theorem Ctx.setBucket_keys (c : Ctx) (k : Bucket) (b : BucketSt) : (c.setBucket k b).keys = c.keys := by cases k <;> rfl
@[simp] theorem Ctx.setBucket_endpoints (c : Ctx) (k : Bucket) (b : BucketSt) : (c.setBucket k b).endpoints = c.endpoints := by cases k <;> rfl
@[simp] theorem Ctx.setBucket_engines (c : Ctx) (k : Bucket) (b : BucketSt) : (c.setBucket k b).engines = c.engines := by cases k <;> rfl
@[simp] theorem Ctx.setBucket_ticket (c : Ctx) (k : Bucket) (b : BucketSt) : (c.setBucket k b).ticket = c.ticket := by cases k <;> rfl
@[simp] theorem Ctx.setBucket_tickDone (c : Ctx) (k : Bucket) (b : BucketSt) : (c.setBucket k b).tickDone = c.tickDone := by cases k <;> rfl
@[simp] theorem Ctx.setBucket_op (c : Ctx) (k : Bucket) (b : BucketSt) : (c.setBucket k b).op = c.op := by cases k <;> rfl
@[simp] theorem Ctx.setBucket_fqTail (c : Ctx) (k : Bucket) (b : BucketSt) : (c.setBucket k b).fqTail = c.fqTail := by cases k <;> rfl
@[simp] theorem Ctx.setBucket_fqWait (c : Ctx) (k : Bucket) (b : BucketSt) : (c.setBucket k b).fqWait = c.fqWait := by cases k <;> rfl
@[simp] theorem Ctx.setBucket_fqNotify (c : Ctx) (k : Bucket) (b : BucketSt) : (c.setBucket k b).fqNotify = c.fqNotify := by cases k <;> rfl
@[simp] theorem Ctx.setBucket_bufs (c : Ctx) (k : Bucket) (b : BucketSt) : (c.setBucket k b).bufs = c.bufs := by cases k <;> rfl
@[simp] theorem Ctx.setBucket_hcallSeq (c : Ctx) (k : Bucket) (b : BucketSt) : (c.setBucket k b).hcallSeq = c.hcallSeq := by cases k <;> rfl
@[simp] theorem Ctx.setBucket_answers (c : Ctx) (k : Bucket) (b : BucketSt) : (c.setBucket k b).answers = c.answers := by cases k <;> rfl
@[simp] theorem Ctx.setBucket_hcalls (c : Ctx) (k : Bucket) (b : BucketSt) : (c.setBucket k b).hcalls = c.hcalls := by cases k <;> rfl
@[simp] theorem Ctx.setBucket_conflicts (c : Ctx) (k : Bucket) (b : BucketSt) : (c.setBucket k b).conflicts = c.conflicts := by cases k <;> rfl
@[simp] theorem Ctx.setBucket_sys (c : Ctx) (k : Bucket) (b : BucketSt) : (c.setBucket k b).sys = c.sys := by cases k <;> rfl
@[simp] theorem Ctx.setBucket_watch (c : Ctx) (k : Bucket) (b : BucketSt) : (c.setBucket k b).watch = c.watch := by cases k <;> rfl
@[simp] theorem Train.setCoach_ctx (t : Train) (c : CoachId) (x : Coach) : (t.setCoach c x).ctx = t.ctx := by cases c <;> rfl
@[simp] theorem Train.setCoach_queue (t : Train) (c : CoachId) (x : Coach) : (t.setCoach c x).queue = t.queue := by cases c <;> rfl
@[simp] theorem Train.setCoach_launch (t : Train) (c : CoachId) (x : Coach) : (t.setCoach c x).launch = t.launch := by cases c <;> rfl
@[simp] theorem Train.setCoach_graph (t : Train) (c : CoachId) (x : Coach) : (t.setCoach c x).graph = t.graph := by cases c <;> rfl
@[simp] theorem Train.setCoach_phase (t : Train) (c : CoachId) (x : Coach) : (t.setCoach c x).phase = t.phase := by cases c <;> rfl
@[simp] theorem Train.setCoach_job (t : Train) (c : CoachId) (x : Coach) : (t.setCoach c x).job = t.job := by cases c <;> rfl
@[simp] theorem Train.setCoach_argbase (t : Train) (c : CoachId) (x : Coach) : (t.setCoach c x).argbase = t.argbase := by cases c <;> rfl
@[simp] theorem Train.setCoach_first (t : Train) (c : CoachId) (x : Coach) : (t.setCoach c x).first = t.first := by cases c <;> rfl
@[simp] theorem Train.setCoach_count (t : Train) (c : CoachId) (x : Coach) : (t.setCoach c x).count = t.count := by cases c <;> rfl
@[simp] theorem Train.setCoach_num (t : Train) (c : CoachId) (x : Coach) : (t.setCoach c x).num = t.num := by cases c <;> rfl
@[simp] theorem Train.setCoach_nest (t : Train) (c : CoachId) (x : Coach) : (t.setCoach c x).nest = t.nest := by cases c <;> rfl
@[simp] theorem Train.setCoach_pub (t : Train) (c : CoachId) (x : Coach) : (t.setCoach c x).pub = t.pub := by cases c <;> rfl
@[simp] theorem Train.setCoach_claimed (t : Train) (c : CoachId) (x : Coach) : (t.setCoach c x).claimed = t.claimed := by cases c <;> rfl
@[simp] theorem Train.setCoach_entry (t : Train) (c : CoachId) (x : Coach) : (t.setCoach c x).entry = t.entry := by cases c <;> rfl
@[simp] theorem Train.setCoach_window (t : Train) (c : CoachId) (x : Coach) : (t.setCoach c x).window = t.window := by cases c <;> rfl
@[simp] theorem Train.setCoach_scratch (t : Train) (c : CoachId) (x : Coach) : (t.setCoach c x).scratch = t.scratch := by cases c <;> rfl
@[simp] theorem Train.setCoach_acc (t : Train) (c : CoachId) (x : Coach) : (t.setCoach c x).acc = t.acc := by cases c <;> rfl
@[simp] theorem Train.setCoach_yokes (t : Train) (c : CoachId) (x : Coach) : (t.setCoach c x).yokes = t.yokes := by cases c <;> rfl
@[simp] theorem Train.setCoach_nfib (t : Train) (c : CoachId) (x : Coach) : (t.setCoach c x).nfib = t.nfib := by cases c <;> rfl
@[simp] theorem Train.setCoach_ncoach (t : Train) (c : CoachId) (x : Coach) : (t.setCoach c x).ncoach = t.ncoach := by cases c <;> rfl
@[simp] theorem Train.setCoach_gbar (t : Train) (c : CoachId) (x : Coach) : (t.setCoach c x).gbar = t.gbar := by cases c <;> rfl
@[simp] theorem Train.setCoach_cores (t : Train) (c : CoachId) (x : Coach) : (t.setCoach c x).cores = t.cores := by cases c <;> rfl
@[simp] theorem Train.setCoach_rankOf (t : Train) (c : CoachId) (x : Coach) : (t.setCoach c x).rankOf = t.rankOf := by cases c <;> rfl
@[simp] theorem Train.setCoach_sbase (t : Train) (c : CoachId) (x : Coach) : (t.setCoach c x).sbase = t.sbase := by cases c <;> rfl
@[simp] theorem Train.setCoach_spined (t : Train) (c : CoachId) (x : Coach) : (t.setCoach c x).spined = t.spined := by cases c <;> rfl
@[simp] theorem Train.setCoach_spineCl (t : Train) (c : CoachId) (x : Coach) : (t.setCoach c x).spineCl = t.spineCl := by cases c <;> rfl
@[simp] theorem Train.setCoach_fidNext (t : Train) (c : CoachId) (x : Coach) : (t.setCoach c x).fidNext = t.fidNext := by cases c <;> rfl
@[simp] theorem Train.setCoach_bars (t : Train) (c : CoachId) (x : Coach) : (t.setCoach c x).bars = t.bars := by cases c <;> rfl
@[simp] theorem Train.setCoach_och (t : Train) (c : CoachId) (x : Coach) : (t.setCoach c x).och = t.och := by cases c <;> rfl
@[simp] theorem Train.setCoach_scr (t : Train) (c : CoachId) (x : Coach) : (t.setCoach c x).scr = t.scr := by cases c <;> rfl
@[simp] theorem Train.setCoach_scrPoison (t : Train) (c : CoachId) (x : Coach) : (t.setCoach c x).scrPoison = t.scrPoison := by cases c <;> rfl
@[simp] theorem Train.setCoach_tiles (t : Train) (c : CoachId) (x : Coach) : (t.setCoach c x).tiles = t.tiles := by cases c <;> rfl
@[simp] theorem Train.setCoach_tilePoison (t : Train) (c : CoachId) (x : Coach) : (t.setCoach c x).tilePoison = t.tilePoison := by cases c <;> rfl
@[simp] theorem Train.setCoach_yk (t : Train) (c : CoachId) (x : Coach) : (t.setCoach c x).yk = t.yk := by cases c <;> rfl
@[simp] theorem Train.setCoach_mmas (t : Train) (c : CoachId) (x : Coach) : (t.setCoach c x).mmas = t.mmas := by cases c <;> rfl
@[simp] theorem Train.setCoach_latch (t : Train) (c : CoachId) (x : Coach) : (t.setCoach c x).latch = t.latch := by cases c <;> rfl
@[simp] theorem Train.setCoach_drays (t : Train) (c : CoachId) (x : Coach) : (t.setCoach c x).drays = t.drays := by cases c <;> rfl
@[simp] theorem Train.setCoach_dimg (t : Train) (c : CoachId) (x : Coach) : (t.setCoach c x).dimg = t.dimg := by cases c <;> rfl
@[simp] theorem Train.setCoach_res (t : Train) (c : CoachId) (x : Coach) : (t.setCoach c x).res = t.res := by cases c <;> rfl
@[simp] theorem Train.setCoach_placed (t : Train) (c : CoachId) (x : Coach) : (t.setCoach c x).placed = t.placed := by cases c <;> rfl
@[simp] theorem Train.setCoach_held (t : Train) (c : CoachId) (x : Coach) : (t.setCoach c x).held = t.held := by cases c <;> rfl
@[simp] theorem Train.setCoach_lateFaults (t : Train) (c : CoachId) (x : Coach) : (t.setCoach c x).lateFaults = t.lateFaults := by cases c <;> rfl

end Sys2Proof.Machine
end

