-- ==== Sys2Proof/Laws/Access.lean ====
section
/-! SUPPORT. Reading a part of the state after a part has been changed: trains, coaches, fragments, lanes and their registers,
contexts, cores, clusters, queues. -/

namespace Sys2Proof.Machine

open Sys2Proof

@[simp] theorem mgetD_mset_self {α : Type} (m : SMap α) (k : Nat) (v d : α) : mgetD (mset m k v) k d = v := by
  simp [mgetD]

theorem mgetD_mset_of_ne {α : Type} (m : SMap α) {k j : Nat} (v d : α) (h : j ≠ k) : mgetD (mset m k v) j d = mgetD m j d := by
  simp [mgetD, mget_mset_of_ne m v h]

/-! ### Trains and coaches -/

@[simp] theorem setTrain_get (s : State) (t : Nat) (x : Train) : mget (setTrain s t x).trains t = some x := by simp [setTrain]

theorem modTrain_get {s : State} {t : Nat} {tr : Train} (h : mget s.trains t = some tr) (f : Train → Train) :
    mget (modTrain s t f).trains t = some (f tr) := by simp [modTrain, h]

theorem modTrain_get_of_ne (s : State) {t k : Nat} (f : Train → Train) (h : k ≠ t) :
    mget (modTrain s t f).trains k = mget s.trains k := by
  simp only [modTrain]
  cases mget s.trains t with
  | none => rfl
  | some tr => simp [setTrain, mget_mset_of_ne _ _ h]

@[simp] theorem setCoach_coach (t : Train) (c : CoachId) (x : Coach) : (t.setCoach c x).coach? c = some x := by
  cases c <;> simp [Train.setCoach, Train.coach?]

theorem setCoach_coach_of_ne (t : Train) {c k : CoachId} (x : Coach) (h : k ≠ c) : (t.setCoach c x).coach? k = t.coach? k := by
  cases c with
  | spine => cases k with
    | spine => exact absurd rfl h
    | coach n => rfl
  | coach m => cases k with
    | spine => rfl
    | coach n =>
      have hn : n ≠ m := fun e => h (by rw [e])
      simp [Train.setCoach, Train.coach?, mget_mset_of_ne _ _ hn]

theorem coachAt_eq (s : State) (t : Nat) (c : CoachId) : coachAt s t c = (mget s.trains t).bind fun tr => tr.coach? c := rfl

theorem modCoach_get {s : State} {t : Nat} {c : CoachId} {co : Coach} (h : coachAt s t c = some co) (f : Coach → Coach) :
    coachAt (modCoach s t c f) t c = some (f co) := by
  rw [coachAt_eq, Option.bind_eq_some_iff] at h
  obtain ⟨tr, ht, hc⟩ := h
  simp [coachAt_eq, modCoach, modTrain_get ht, hc]

theorem modCoach_get_of_ne (s : State) {t k : Nat} {c d : CoachId} (f : Coach → Coach) (h : k ≠ t ∨ d ≠ c) :
    coachAt (modCoach s t c f) k d = coachAt s k d := by
  rw [coachAt_eq, coachAt_eq, modCoach]
  by_cases hk : k = t
  · subst hk
    have hd : d ≠ c := h.resolve_left fun n => n rfl
    cases ht : mget s.trains k with
    | none => simp [modTrain, ht]
    | some tr =>
      rw [modTrain_get ht, Option.bind_some, Option.bind_some]
      cases tr.coach? c with
      | none => rfl
      | some co => exact setCoach_coach_of_ne tr _ hd
  · rw [modTrain_get_of_ne s _ hk]

theorem modCoach_none {s : State} {t : Nat} {c : CoachId} (h : coachAt s t c = none) (f : Coach → Coach) :
    coachAt (modCoach s t c f) t c = none := by
  rw [coachAt_eq] at h ⊢
  cases ht : mget s.trains t with
  | none => simp [modCoach, modTrain, ht]
  | some tr =>
    rw [ht, Option.bind_some] at h
    simp [modCoach, modTrain_get ht, h]

/-- A coach after a change of one coach. -/
theorem modCoach_at (s : State) (t k : Nat) (c d : CoachId) (f : Coach → Coach) :
    coachAt (modCoach s t c f) k d = if k = t ∧ d = c then (coachAt s k d).map f else coachAt s k d := by
  by_cases h : k = t ∧ d = c
  · obtain ⟨rfl, rfl⟩ := h
    rw [if_pos ⟨rfl, rfl⟩]
    cases hc : coachAt s k d with
    | none => exact modCoach_none hc f
    | some co => exact modCoach_get hc f
  · rw [if_neg h]
    exact modCoach_get_of_ne s f (by rcases Decidable.em (k = t) with e | e
                                     · exact .inr fun q => h ⟨e, q⟩
                                     · exact .inl e)

theorem coachOf_eq (s : State) (t : Nat) (c : CoachId) : coachOf s t c = coachAt s t c := by
  rw [coachAt_eq, coachOf]
  cases mget s.trains t <;> rfl

theorem frag?_eq (s : State) (r : FragRef) : s.frag? r = (coachAt s r.train r.coach).bind fun co => mget co.frags r.frag := by
  rw [coachAt_eq, State.frag?]
  cases mget s.trains r.train <;> rfl

/-! ### Fragments -/

theorem modFrag_get {s : State} {r : FragRef} {f : Frag} (h : s.frag? r = some f) (g : Frag → Frag) :
    (modFrag s r g).frag? r = some (g f) := by
  rw [frag?_eq, Option.bind_eq_some_iff] at h
  obtain ⟨co, hc, hf⟩ := h
  rw [frag?_eq, modFrag, modCoach_get hc]
  simp [hf]

/-! ### Lanes and registers -/

@[simp] theorem modLane_get_of_ne (co : Coach) {i j : Nat} (f : Lane → Lane) (h : j ≠ i) :
    mget (modLane co i f).lanes j = mget co.lanes j := by
  simp only [modLane]
  cases mget co.lanes i <;> simp [mget_mset_of_ne _ _ h]

theorem modLane_get (co : Coach) (i : Nat) (f : Lane → Lane) : mget (modLane co i f).lanes i = (mget co.lanes i).map f := by
  cases h : mget co.lanes i <;> simp [modLane, h]

/-! ### Contexts, cores, clusters, queues -/

theorem modCtx_get {s : State} {c : Nat} (h : s.hasCtx c = true) (f : Ctx → Ctx) : (modCtx s c f).ctx c = f (s.ctx c) := by
  simp only [State.hasCtx, Option.isSome_iff_exists] at h
  obtain ⟨x, hx⟩ := h
  simp [modCtx, State.ctx, hx, mgetD]

theorem modCtx_get_of_ne (s : State) {c k : Nat} (f : Ctx → Ctx) (h : k ≠ c) : (modCtx s c f).ctx k = s.ctx k := by
  simp only [modCtx, State.ctx]
  cases mget s.ctxs c with
  | none => rfl
  | some x => exact mgetD_mset_of_ne _ _ _ h

@[simp] theorem modCore_get (s : State) (n : Nat) (f : Core → Core) : (modCore s n f).core n = f (s.core n) := by
  simp [modCore, State.core]
theorem modCore_get_of_ne (s : State) {n k : Nat} (f : Core → Core) (h : k ≠ n) : (modCore s n f).core k = s.core k := by
  simp [modCore, State.core, mgetD_mset_of_ne _ _ _ h]
@[simp] theorem modCluster_get (s : State) (n : Nat) (f : Cluster → Cluster) : (modCluster s n f).cluster n = f (s.cluster n) := by
  simp [modCluster, State.cluster]
theorem modCluster_get_of_ne (s : State) {n k : Nat} (f : Cluster → Cluster) (h : k ≠ n) :
    (modCluster s n f).cluster k = s.cluster k := by
  simp [modCluster, State.cluster, mgetD_mset_of_ne _ _ _ h]
@[simp] theorem setQueue_get (s : State) (q : Nat) (x : Queue) : (setQueue s q x).queue q = x := by
  simp [setQueue, State.queue]
theorem setQueue_get_of_ne (s : State) {q k : Nat} (x : Queue) (h : k ≠ q) : (setQueue s q x).queue k = s.queue k := by
  simp [setQueue, State.queue, mgetD_mset_of_ne _ _ _ h]

end Sys2Proof.Machine
end

