-- ==== Sys2Proof/Laws/Issue.lean ====
section
/-! SUPPORT. What issuing an instruction does: the one group of lanes that falls through, the state after it, and the
state after a body that writes its lanes. -/

namespace Sys2Proof.Machine

open Sys2Proof

/-! ### Masks and lanes -/

theorem getLsbD_bitOf (a j : Nat) : (bitOf a).getLsbD j = (decide (j < 32) && decide (a = j)) := by
  simp only [bitOf, BitVec.getLsbD_shiftLeft, BitVec.getLsbD_one]
  by_cases hj : j < 32
  · by_cases ha : a = j
    · subst ha; simp [hj]
    · by_cases h3 : j < a
      · simp [h3, ha]
      · have : ¬ (j - a = 0) := by omega
        simp [this, ha]
  · simp [hj]

theorem getLsbD_foldl_bitOf (ls : List Nat) (m : Word32) (j : Nat) :
    (ls.foldl (fun k i => k ||| bitOf i) m).getLsbD j = (m.getLsbD j || (decide (j < 32) && ls.any fun i => i = j)) := by
  induction ls generalizing m with
  | nil => simp
  | cons a t ih =>
    rw [List.foldl_cons, ih, List.any_cons, BitVec.getLsbD_or, getLsbD_bitOf, Bool.and_or_distrib_left, Bool.or_assoc]

theorem mem_lanesOf (m : Word32) (i : Nat) : i ∈ lanesOf m ↔ m.getLsbD i = true := by
  simp only [lanesOf, List.mem_filter, List.mem_range]
  constructor
  · exact fun h => h.2
  · intro h
    exact ⟨BitVec.lt_of_getLsbD h, h⟩

/-- The lanes of a mask make the mask. -/
theorem foldl_lanesOf (m : Word32) : (lanesOf m).foldl (fun k i => k ||| bitOf i) 0 = m := by
  apply BitVec.eq_of_getLsbD_eq
  intro j hj
  have h0 : (0 : Word32).getLsbD j = false := BitVec.getLsbD_zero
  rw [getLsbD_foldl_bitOf, h0, Bool.false_or, decide_eq_true hj, Bool.true_and, Bool.eq_iff_iff, List.any_eq_true]
  constructor
  · rintro ⟨i, hi, he⟩
    rw [decide_eq_true_eq] at he
    subst he
    exact (mem_lanesOf m i).1 hi
  · intro h
    exact ⟨j, (mem_lanesOf m j).2 h, by simp⟩

theorem maskOf_lanesOf (m : Word32) : maskOf (lanesOf m) = m := foldl_lanesOf m

theorem lanesOf_eq_nil (m : Word32) (h : lanesOf m = []) : m = 0 := by
  rw [← foldl_lanesOf m, h]
  rfl

/-! ### Falling through -/

theorem foldl_addGroup_same (mv : Move) (ls : List Nat) (k : Word32) :
    ls.foldl (fun g l => addGroup mv l g) [(mv, k)] = [(mv, ls.foldl (fun k i => k ||| bitOf i) k)] := by
  induction ls generalizing k with
  | nil => rfl
  | cons a t ih => simp only [List.foldl_cons, addGroup, if_true, ih]

/-- With no lane sent elsewhere, all lanes form one group at the next word. -/
theorem groups_nil (pc : Word64) (m : Word32) (h : m ≠ 0) : groups [] pc m = [(.go (pc + 12), m)] := by
  have hm : ∀ l, moveOf [] pc l = .go (pc + 12) := fun _ => rfl
  simp only [groups, hm]
  cases hl : lanesOf m with
  | nil => exact absurd (lanesOf_eq_nil m hl) h
  | cons a t =>
    simp only [List.foldl_cons, addGroup]
    rw [foldl_addGroup_same]
    have := foldl_lanesOf m
    rw [hl] at this
    have hz : (0 : Word32) ||| bitOf a = bitOf a := BitVec.zero_or
    rw [List.foldl_cons, hz] at this
    rw [this]

theorem fresh_mask_ne_zero (x : Ix) (a : Args) (h : enabled x a ≠ []) : x.fr.mask ≠ 0 := by
  intro h0
  apply h
  simp [enabled, h0, lanesOf]

theorem finish_through (t : State) (x : Ix) (w : Word96) (keep : Frag → Frag) (hm : x.fr.mask ≠ 0)
    (hs : (x.co.step && (x.co.frameOf x.fr.mask).isNone) = false) :
    finish t x w [] none keep = onwardAt t x (x.fr.pc + 12) keep := by
  simp only [finish, groups_nil _ _ hm, hs, List.foldl_cons, List.foldl_nil, List.any_cons, List.any_nil]
  simp only [regroup, onwardAt, clearRefaults, Bool.false_eq_true, if_false]
  rfl

theorem commit_through (s0 : State) (x : Ix) (a : Args) (w : Instr) (y : Bool) (t : State) (keep : Frag → Frag)
    (hm : x.fr.mask ≠ 0) (hs : (x.co.step && (x.co.frameOf x.fr.mask).isNone) = false)
    (hc : canonical (x.fr.pc + 12).toNat = true) :
    commit s0 x a w y t [] none keep = noteIssue (onwardAt t x (x.fr.pc + 12) keep) x w a y := by
  have hl : lacksFrame t x none = false := by simp [lacksFrame, hs]
  simp only [commit, hc, hl]
  simp [finish_through t x _ keep hm hs]

/-! ### Issue -/

/-- An instruction that issues does what its body does on the enabled lanes. -/
theorem issue_body {i : Instr} {a : Args} {s : State} {x : Ix} (h : Issues i a s x) (whole : Bool)
    (body : Ix → List Nat → State → Res) :
    issue i a whole body x s =
      match body x (enabled x a) (drawn i a s x) with
      | .done t ms after => commit s x a i a.yld t ms after id
      | .goOn t yld keep => commit s x a i (a.yld || yld) t [] none keep
      | .wait w f => stall (f s) x.ref w
      | .trap t => trapB s x t (encodeVamer i)
      | .own t => t := by
  have he : (enabled x a).isEmpty = false := by
    have := h.lanes
    revert this
    cases enabled x a <;> simp
  have hf : (caskFields i a true).find? (fun k => (caskIndex s x.ctx x.cluster k.2.1.toNat).isNone) = none := by
    rw [List.find?_eq_none]
    intro k hk
    have := h.casks k hk
    simp [Option.isSome_iff_ne_none] at this ⊢
    exact this
  have hn : (!(operandCasks i a s x).isEmpty && !caskReady s x (operandCasks i a s x)) = false := by
    rcases h.full with h1 | h1
    · simp [h1]
    · simp [h1]
  unfold issue
  simp only [h.window, h.ready.1, h.ready.2, he, hf, Bool.or_self, if_false, Bool.false_and, Bool.false_eq_true]
  have hb := h.clean
  simp only [operandCasks] at hn hb
  simp only [hn, hb, Bool.false_eq_true, if_false]
  rfl

theorem vamer_body {i : Instr} {a : Args} {s : State} {x : Ix} (h : Issues i a s x) (whole : Bool)
    (body : Ix → List Nat → State → Res) : vamer i a whole body s = .next (issue i a whole body x s) := by
  simp only [vamer, h.turn, h.here]

/-- A body that is performed with every lane falling through. -/
theorem vamer_done {i : Instr} {a : Args} {s : State} {x : Ix} (h : Issues i a s x) (whole : Bool)
    (body : Ix → List Nat → State → Res) {t : State} (hb : body x (enabled x a) (drawn i a s x) = .done t [] none) :
    vamer i a whole body s = .next (through i t x a) := by
  rw [vamer_body h, issue_body h, hb]
  simp only [commit_through s x a _ _ t id (fresh_mask_ne_zero x a h.lanes) h.noStep h.space, through]

/-- A body that writes one value per lane. -/
theorem vamer_lanewise {i : Instr} {a : Args} {s : State} {x : Ix} (h : Issues i a s x) (o : Operand) (bits : Nat)
    (f : State → Ix → Nat → Nat) : vamer i a false (lanewise o bits f) s = .next (sets i a s x o bits fun t l => f t x l) :=
  vamer_done h false _ rfl

/-- A body that writes one value and one flag per lane. -/
theorem vamer_lanewiseP {i : Instr} {a : Args} {s : State} {x : Ix} (h : Issues i a s x) (o : Operand) (bits : Nat)
    (pd : Option (BitVec 4)) (f : State → Ix → Nat → Nat × Bool) :
    vamer i a false (lanewiseP o bits pd f) s = .next (setsFlag i a s x o bits pd fun t l => f t x l) :=
  vamer_done h false _ rfl

/-- A body that rounds (R98, R100). -/
theorem vamer_rounded {i : Instr} {a : Args} {s : State} {x : Ix} (h : Issues i a s x) (o : Operand) (bits n : Nat)
    (rm : RMode) (f : State → Ix → Nat → (Nat → Nat) → Nat) :
    vamer i a false (rounded o bits n rm f) s = .next (setsRounded i a s x o bits n rm fun t => f t x) :=
  vamer_done h false _ rfl

/-- A body whose lanes go their own ways: the fragments of R144 form. -/
theorem vamer_parts {i : Instr} {a : Args} {s : State} {x : Ix} (h : Issues i a s x) (whole : Bool)
    (body : Ix → List Nat → State → Res) {t : State} {ms : List (Nat × Move)}
    (hb : body x (enabled x a) (drawn i a s x) = .done t ms none) :
    vamer i a whole body s = .next (parts i t x a ms) := by
  have hl : lacksFrame t x none = false := by simp [lacksFrame, h.noStep]
  rw [vamer_body h, issue_body h, hb]
  simp only [commit, hl, h.space, parts]
  simp

/-- A body that leaves something to the fragment that goes on. -/
theorem vamer_goOn {i : Instr} {a : Args} {s : State} {x : Ix} (h : Issues i a s x) (whole : Bool)
    (body : Ix → List Nat → State → Res) {t : State} {y : Bool} {keep : Frag → Frag}
    (hb : body x (enabled x a) (drawn i a s x) = .goOn t y keep) :
    vamer i a whole body s = .next (noteIssue (onwardAt t x (x.fr.pc + 12) keep) x i a (a.yld || y)) := by
  rw [vamer_body h, issue_body h, hb]
  simp only [commit_through s x a _ _ t keep (fresh_mask_ne_zero x a h.lanes) h.noStep h.space]

theorem vamer_own {i : Instr} {a : Args} {s : State} {x : Ix} (h : Issues i a s x) (whole : Bool)
    (body : Ix → List Nat → State → Res) {t : State} (hb : body x (enabled x a) (drawn i a s x) = .own t) :
    vamer i a whole body s = .next t := by
  rw [vamer_body h, issue_body h, hb]

theorem withRelease_ok (x : Ix) (sc : Scope) (s : State) (k : State → Res) (h : canRelease x sc s = true) :
    withRelease x sc s k = k (released x sc s) := by
  simp only [canRelease, Bool.and_eq_true, Bool.not_eq_true'] at h
  simp only [withRelease, whenSettled, h.1, h.2]
  rfl

theorem withAcquire_ok (x : Ix) (sc : Scope) (s : State) (k : State → Res) (h : canAcquire x sc s = true) :
    withAcquire x sc s k = k (acquired x sc s) := by
  simp only [canAcquire, Bool.and_eq_true, Bool.not_eq_true'] at h
  simp only [withAcquire, whenSettled, h.1, h.2]
  rfl

/-- A rejoin that releases is performed by the fragment that it makes. -/
theorem rejoinBody_ok (i : Instr) (a : Args) (kind : JoinKind) (masks : State → Ix → Nat → Word32)
    (group : Ix → List CoachId) (perform : Ix → List Nat → State → Res) (x y : Ix) (s u : State)
    (h : rejoins i x a kind (masks s x) (group x) s = some (u, y)) (hc : canonical (x.fr.pc + 12).toNat = true) :
    ∃ v, rejoinBody i a kind masks group perform x (enabled x a) s =
      match perform y (lanesOf y.fr.mask) u with
      | .done s' ms after => .own (commit v y a i a.yld s' ms after id)
      | r => r := by
  simp only [rejoins, rejoinBody] at h ⊢
  split at h
  · next j hj =>
    try simp only [hj]
    obtain ⟨y', hy, he⟩ := Option.map_eq_some_iff.mp h
    cases he
    simp only [hy]
    exact ⟨_, rfl⟩
  · next hj =>
    try simp only [hj]
    split at h
    · simp at h
    · next hn =>
      simp only [Bool.or_eq_true, not_or, decide_eq_true_eq, Bool.not_eq_true, Option.isSome_eq_false_iff,
        Option.isNone_iff_eq_none] at hn
      obtain ⟨y', hy, he⟩ := Option.map_eq_some_iff.mp h
      cases he
      simp only [hn.1, hn.2, if_false, hc, Bool.not_true, Bool.false_eq_true, hy]
      exact ⟨_, rfl⟩

/-- The state that a rejoin makes is performed whole. -/
theorem commit_goes (v : State) (y : Ix) (a : Args) (w : Instr) (t : State) (h : Goes y) :
    commit v y a w a.yld t [] none id = through w t y a :=
  commit_through v y a w a.yld t id h.lanes h.noStep h.space

/-! ### Global accesses -/

/-- When every lane translates no page has failed, and every lane has its access. -/
theorem failPages_ok (rs : List (Nat × Nat × Xl)) (h : ∀ r ∈ rs, ∃ ma key, r.2.2 = .ok ma key) : failPages rs = [] := by
  simp only [failPages]
  induction rs with
  | nil => rfl
  | cons b r ih =>
    obtain ⟨ma, key, hb⟩ := h b (List.mem_cons_self ..)
    rw [List.foldl_cons]
    simp only [hb]
    exact ih fun q hq => h q (List.mem_cons_of_mem _ hq)

theorem walkHeld_ok (rs : List (Nat × Nat × Xl)) (h : ∀ r ∈ rs, ∃ ma key, r.2.2 = .ok ma key) : walkHeld rs = false := by
  rw [walkHeld, List.any_eq_false]
  intro r hr
  obtain ⟨ma, key, e⟩ := h r hr
  simp [e]

theorem okLanes_ok (rs : List (Nat × Nat × Xl)) (h : ∀ r ∈ rs, ∃ ma key, r.2.2 = .ok ma key) :
    (okLanes rs).map (·.lane) = rs.map (·.1) := by
  simp only [okLanes]
  induction rs with
  | nil => rfl
  | cons b r ih =>
    obtain ⟨ma, key, hb⟩ := h b (List.mem_cons_self ..)
    rw [List.filterMap_cons]
    simp only [hb, List.map_cons]
    rw [ih fun q hq => h q (List.mem_cons_of_mem _ hq)]

theorem xlateLanes_lanes (x : Ix) (acc : Access) (ls : List (Nat × Nat)) (seen : List (Nat × Xl)) (s : State) :
    (xlateLanes x acc ls seen s).1.map (fun r => (r.1, r.2.1)) = ls := by
  induction ls generalizing seen s with
  | nil => rfl
  | cons b r ih =>
    obtain ⟨l, va⟩ := b
    simp only [xlateLanes]
    split
    · simp [ih]
    · simp [ih]

theorem accesses_lanes {x : Ix} {acc : Access} {n : Nat} {w hb : Bool} {c : State → LAcc → Bool} {as : List (Nat × Nat)}
    {s : State} (h : Reaches x acc n w hb c as s) : (accesses x acc as s).map (·.lane) = as.map (·.1) := by
  have h1 := congrArg (List.map Prod.fst) (xlateLanes_lanes x acc as [] s)
  rw [List.map_map] at h1
  exact (okLanes_ok _ h.pages).trans h1

/-- The first access is the lowest lane's. -/
theorem accesses_first {x : Ix} {acc : Access} {n : Nat} {w hb : Bool} {c : State → LAcc → Bool} {ls : List Nat}
    {f : Nat → Nat} {s : State} (h : Reaches x acc n w hb c (ls.map fun l => (l, f l)) s) :
    ((accesses x acc (ls.map fun l => (l, f l)) s).head?.map (·.lane)).getD 0 = ls.headD 0 := by
  have hh := congrArg List.head? (accesses_lanes h)
  rw [List.head?_map] at hh
  rw [hh]
  cases ls <;> rfl

theorem globalAccess_ok {x : Ix} {acc : Access} {n : Nat} {writes hbmOnly : Bool} {closed : State → LAcc → Bool}
    {as : List (Nat × Nat)} {s : State} (h : Reaches x acc n writes hbmOnly closed as s) {byp : Bool}
    (ht : InTurn x acc n byp as s) (perform : State → List LAcc → State × Option Trap) :
    globalAccess x acc n writes hbmOnly byp closed as perform s =
      .done (perform (reached x acc n byp as s) (accesses x acc as s)).1 []
        (perform (reached x acc n byp as s) (accesses x acc as s)).2 := by
  simp only [InTurn, reached, walked, accesses] at ht
  simp only [globalAccess, h.before, h.after, walkHeld_ok _ h.pages, failPages_ok _ h.pages, ht, List.isEmpty_nil, if_true,
    Bool.false_eq_true, if_false]
  rfl

theorem withAcquireLoad_ok {x : Ix} {sc : Scope} {s : State} {k : State → Res} {u : State} {ms : List (Nat × Move)}
    {t : Option Trap} (hk : k (acquireAt x (clampScope x.ctx sc) s) = .done u ms t)
    (hc : (clampScope x.ctx sc = .sy && !s.host.cxlIn.isEmpty) = false) 
    (hp : ((pendingIds u x.ref.train x.ref.coach true).any (s.nextId ≤ ·)) = false) :
    withAcquireLoad x sc s k = .done u ms t := by
  simp only [withAcquireLoad, hc, hk, hp, Bool.false_eq_true, if_false]

/-- An access to a scratchpad whose earlier ones have been performed goes on in the state that they leave. -/
theorem afterScr_ok {x : Ix} {rank n : Nat} {as : List (Nat × Nat)} {s : State} (h : ScrInTurn x rank n as s) (k : State → Res) :
    afterScr x rank n as s k = k (scrFollowed x rank n as s) := by
  simp only [ScrInTurn, scrFollowed] at h
  simp only [afterScr, scrFollowed, h, Bool.false_eq_true, if_false]

/-! ### Cards and structures -/

theorem onCard_ok {x : Ix} {va : Nat} {ls : List Nat} {s u : State} {bs : List Byte} (h : cardRead x va s = some (bs, u))
    (f : List Byte → State → Res) : onCard x va ls s f = f bs u := by
  unfold cardRead at h
  split at h
  · exact nomatch h
  · next hc =>
    simp only [ne_eq, Bool.or_eq_true, decide_eq_true_eq, not_or, Decidable.not_not, Bool.not_eq_true', Bool.not_eq_false] at hc
    have h1 : ¬ (va % 128 ≠ 0) := fun hn => hn hc.1
    have h2 : ¬ ((!canonical va) = true) := by rw [hc.2]; decide
    unfold onCard
    refine (if_neg h1).trans ((if_neg h2).trans ?_)
    split at h
    · next ma key v hx =>
      split at h
      · exact nomatch h
      · next hk =>
        simp only [Bool.or_eq_true, Bool.not_eq_true', not_or, Bool.not_eq_false, Bool.not_eq_true] at hk
        split at h
        · next g w hg =>
          split at h
          · exact nomatch h
          · next hp =>
            cases h
            simp only [hx, hk.1, hk.2, hg, Bool.not_true, Bool.false_eq_true, if_false, hp]
        · exact nomatch h
    · exact nomatch h

theorem structFails_nil {bad : Word32} {r : List (Nat × Nat × Xl)} (h : ¬ (!(structFails 0 r).isEmpty) = true) :
    structFails bad r = [] := by
  have h : structFails 0 r = [] := by
    cases hs : structFails 0 r
    · rfl
    · rw [hs] at h; exact absurd rfl h
  unfold structFails at h ⊢
  rw [List.filterMap_eq_nil_iff] at h ⊢
  intro e he
  have := h e he
  revert this
  cases e.2.2 <;> simp

theorem onStruct_ok {x : Ix} {acc : Access} {va n : Nat} {ls : List Nat} {s u : State}
    {ps : List (Nat × Nat × Nat × Byte)} (h : structAt x acc va n s = some (ps, u))
    (f : List (Nat × Nat × Nat × Byte) → State → Res) : onStruct x acc va n ls s f = f ps u := by
  unfold structAt at h
  split at h
  · exact nomatch h
  · next hc =>
    unfold onStruct
    refine (if_neg hc).trans ?_
    dsimp only at h ⊢
    split at h
    · exact nomatch h
    · next ha =>
      have hf : structFails (maskOf ls) (structXlate x acc (structPages va n) s).1 = [] := structFails_nil ha
      split at h
      · exact nomatch h
      · next hk =>
        cases h
        simp only [Bool.or_eq_true, not_or, Bool.not_eq_true] at hk
        simp only [hf, List.isEmpty_nil, Bool.not_true, Bool.false_eq_true, if_false]
        rw [if_neg (by simp), if_neg (by rw [hk.1.1]; decide), if_neg (by rw [hk.1.2]; decide), if_neg (by rw [hk.2]; decide)]

theorem readStruct_ok {x : Ix} {va n : Nat} {ls : List Nat} {s u : State} {bs : List Byte}
    (h : structRead x va n s = some (bs, u)) (f : List Byte → State → Res) : readStruct x va n ls s f = f bs u := by
  unfold structRead at h
  rw [Option.bind_eq_some_iff] at h
  obtain ⟨r, hr, h⟩ := h
  unfold readStruct
  refine (onStruct_ok (ps := r.1) (u := r.2) hr _).trans ?_
  split at h
  · next hs =>
    cases h
    simp only [hs, Bool.false_eq_true, if_false]
  · exact nomatch h

theorem writeStruct_ok {x : Ix} {va : Nat} {bs : List Byte} {ls : List Nat} {s u : State}
    (h : structWrite x va bs s = some u) (f : State → Res) : writeStruct x va bs ls s f = f u := by
  unfold structWrite at h
  rw [Option.bind_eq_some_iff] at h
  obtain ⟨r, hr, h⟩ := h
  unfold writeStruct
  refine (onStruct_ok (ps := r.1) (u := r.2) hr _).trans ?_
  split at h
  · exact nomatch h
  · next ho =>
    cases h
    exact if_neg ho

theorem give_ok (x : Ix) (a : Args) (n : Nat) (s : State) : give x a (enabled x a) n s = .done (gave x a n s) [] none := rfl

/-! ### Drays -/

theorem dray_ok {s : State} {x : Dx} (h : DrayTurn s x) {body : Dx → State → DRes} {t : State} {f : Dray → Dray}
    (hb : body x s = .ok t f) : dray body s = .next (drayDone t x f) := by
  simp only [dray, h.1, h.2, hb, drayDone]

theorem dray_exc {s : State} {x : Dx} (h : DrayTurn s x) {body : Dx → State → DRes} {c : Nat} {v : Word32}
    (hb : body x s = .exc c v) : dray body s = .next (modDray s x.t x.key fun d => d.raise c v) := by
  simp only [dray, h.1, h.2, hb]

theorem drayObject_ok {x : Dx} {off : Word32} (h : DrayFits x off 16) (f : MbObj → DRes) :
    drayObject x off f = f (mbGet x.tr x.rank off.toNat) := by
  have h2 : ¬ (off.toNat + 16 > x.tr.scratch) := by have := h.2; omega
  simp only [drayObject, h.1, h2, ne_eq, not_true_eq_false, if_false]

end Sys2Proof.Machine
end

