-- ==== Sys2Proof/Laws/Frames.lean ====
section
/-! SUPPORT. What the shared operations of an issue leave unchanged: writing a destination, drawing casks, going on, and
counting the issue. -/

namespace Sys2Proof.Machine

open Sys2Proof

/-! ### The three relations compose -/

theorem SameMachine.refl (s : State) : SameMachine s s :=
  ⟨⟨fun _ _ => rfl, rfl, fun _ _ => rfl, ⟨rfl, rfl⟩, fun _ => rfl, ⟨rfl, rfl⟩⟩, fun _ => rfl, fun _ _ => rfl, fun _ => rfl,
    fun _ => rfl, ⟨rfl, rfl, rfl, rfl, rfl⟩, rfl, ⟨rfl, rfl, rfl, rfl⟩, rfl⟩

theorem SameMachine.trans {s t u : State} (h : SameMachine s t) (k : SameMachine t u) : SameMachine s u where
  memory := ⟨fun a b => (k.memory.home a b).trans (h.memory.home a b), k.memory.poison.trans h.memory.poison,
    fun a b => (k.memory.l1 a b).trans (h.memory.l1 a b),
    ⟨k.memory.cellar.1.trans h.memory.cellar.1, k.memory.cellar.2.trans h.memory.cellar.2⟩,
    fun a => (k.memory.scratch a).trans (h.memory.scratch a),
    ⟨k.memory.coming.1.trans h.memory.coming.1, k.memory.coming.2.trans h.memory.coming.2⟩⟩
  trains a := (k.trains a).trans (h.trains a)
  frames a b := (k.frames a b).trans (h.frames a b)
  contexts a := (k.contexts a).trans (h.contexts a)
  clusters a := (k.clusters a).trans (h.clusters a)
  tables := ⟨k.tables.1.trans h.tables.1, k.tables.2.1.trans h.tables.2.1, k.tables.2.2.1.trans h.tables.2.2.1,
    k.tables.2.2.2.1.trans h.tables.2.2.2.1, k.tables.2.2.2.2.trans h.tables.2.2.2.2⟩
  host := k.host.trans h.host
  keys := ⟨k.keys.1.trans h.keys.1, k.keys.2.1.trans h.keys.2.1, k.keys.2.2.1.trans h.keys.2.2.1,
    k.keys.2.2.2.trans h.keys.2.2.2⟩
  clock := k.clock.trans h.clock

theorem SameRegs.refl (x : Ix) (ls : List Nat) (o : Operand) (bits : Nat) (p : BitVec 4 → Bool) (s : State) :
    SameRegs x ls o bits p s s := ⟨fun _ _ _ _ _ => rfl, fun _ _ _ _ => rfl, fun _ _ _ _ _ => rfl⟩

theorem SameRegs.trans {x : Ix} {ls : List Nat} {o : Operand} {bits : Nat} {p : BitVec 4 → Bool} {s t u : State}
    (h : SameRegs x ls o bits p s t) (k : SameRegs x ls o bits p t u) : SameRegs x ls o bits p s u :=
  ⟨fun a b c d e => (k.v a b c d e).trans (h.v a b c d e), fun a b c d => (k.u a b c d).trans (h.u a b c d),
    fun a b c d e => (k.p a b c d e).trans (h.p a b c d e)⟩

theorem SameGens.trans {s t u : State} (h : SameGens s t) (k : SameGens t u) : SameGens s u :=
  fun a b => (k a b).trans (h a b)

/-! ### Coaches -/

theorem setCoach_rest (t : Train) (c : CoachId) (x : Coach) : (t.setCoach c x).rest = t.rest := by cases c <;> rfl

theorem rest_scr {t u : Train} (h : t.rest = u.rest) : (t.scr, t.scrPoison) = (u.scr, u.scrPoison) := by
  have h1 : t.rest.scr = u.rest.scr := by rw [h]
  have h2 : t.rest.scrPoison = u.rest.scrPoison := by rw [h]
  exact Prod.ext h1 h2

/-- A change of one coach leaves every train but for its coaches. -/
theorem modCoach_rest (s : State) (t : Nat) (c : CoachId) (f : Coach → Coach) (k : Nat) :
    (mget (modCoach s t c f).trains k).map Train.rest = (mget s.trains k).map Train.rest := by
  by_cases hk : k = t
  · subst hk
    cases ht : mget s.trains k with
    | none => simp [modCoach, modTrain, ht]
    | some tr =>
      rw [modCoach, modTrain_get ht]
      simp only [Option.map_some]
      cases tr.coach? c with
      | none => rfl
      | some co => simp [setCoach_rest]
  · rw [modCoach, modTrain_get_of_ne s _ hk]

/-- A state that differs in its trains alone. -/
theorem modCoach_eq (s : State) (t : Nat) (c : CoachId) (f : Coach → Coach) :
    ∃ ts, modCoach s t c f = { s with trains := ts } := by
  simp only [modCoach, modTrain]
  cases mget s.trains t with
  | none => exact ⟨s.trains, rfl⟩
  | some tr => exact ⟨_, rfl⟩

theorem modCoach_machine (s : State) (t : Nat) (c : CoachId) (f : Coach → Coach) (h : ∀ co, (f co).frames = co.frames) :
    SameMachine s (modCoach s t c f) := by
  have hr := modCoach_rest s t c f
  have hf : ∀ k d, (coachAt (modCoach s t c f) k d).map (·.frames) = (coachAt s k d).map (·.frames) := by
    intro k d
    rw [modCoach_at]
    split
    · cases coachAt s k d <;> simp [h]
    · rfl
  obtain ⟨ts, hs⟩ := modCoach_eq s t c f
  rw [hs] at hr hf ⊢
  refine ⟨⟨fun _ _ => rfl, rfl, fun _ _ => rfl, ⟨rfl, rfl⟩, fun k => ?_, ⟨rfl, rfl⟩⟩, hr, hf, fun _ => rfl, fun _ => rfl,
    ⟨rfl, rfl, rfl, rfl, rfl⟩, rfl, ⟨rfl, rfl, rfl, rfl⟩, rfl⟩
  have := hr k
  revert this
  dsimp only
  cases mget ts k <;> cases mget s.trains k <;> simp
  exact fun e => by have := rest_scr e; simpa using this

theorem modCoach_gens (s : State) (t : Nat) (c : CoachId) (f : Coach → Coach) (h : ∀ co, (f co).gen = co.gen) :
    SameGens s (modCoach s t c f) := by
  intro k d
  rw [modCoach_at]
  split
  · cases coachAt s k d <;> simp [h]
  · rfl

theorem modCoach_gensElse (s : State) (x : Ix) (f : Coach → Coach) : GensElse x s (modCoach s x.ref.train x.ref.coach f) := by
  intro k c h
  rw [modCoach_at, if_neg h]

theorem SameGens.others {s t : State} (h : SameGens s t) (x : Ix) : GensElse x s t := fun k c _ => h k c

theorem GensElse.trans {x : Ix} {s t u : State} (h : GensElse x s t) (k : GensElse x t u) : GensElse x s u :=
  fun n c hn => (k n c hn).trans (h n c hn)

/-- A change of the coach of `x` that touches only what a destination names. -/
structure CoachRegs (ls : List Nat) (o : Operand) (bits : Nat) (p : BitVec 4 → Bool) (co cn : Coach) : Prop where
  v : ∀ l n, ¬ (l ∈ ls ∧ namesV o bits n = true) → (mget cn.lanes l).map (·.reg n) = (mget co.lanes l).map (·.reg n)
  u : ∀ n, ¬ namesS o bits n = true → cn.sreg n = co.sreg n
  p : ∀ l q, ¬ (l ∈ ls ∧ p q = true) → (mget cn.lanes l).map (·.pred q) = (mget co.lanes l).map (·.pred q)

theorem CoachRegs.refl (ls : List Nat) (o : Operand) (bits : Nat) (p : BitVec 4 → Bool) (co : Coach) :
    CoachRegs ls o bits p co co := ⟨fun _ _ _ => rfl, fun _ _ => rfl, fun _ _ _ => rfl⟩

theorem CoachRegs.trans {ls : List Nat} {o : Operand} {bits : Nat} {p : BitVec 4 → Bool} {a b c : Coach}
    (h : CoachRegs ls o bits p a b) (k : CoachRegs ls o bits p b c) : CoachRegs ls o bits p a c :=
  ⟨fun l n e => (k.v l n e).trans (h.v l n e), fun n e => (k.u n e).trans (h.u n e),
    fun l q e => (k.p l q e).trans (h.p l q e)⟩

theorem laneAt_eq (s : State) (k : Nat) (c : CoachId) (l : Nat) :
    laneAt s k c l = (coachAt s k c).bind fun co => mget co.lanes l := by
  simp only [laneAt, coachAt]
  cases mget s.trains k <;> rfl

theorem modCoach_regs (s : State) (x : Ix) (ls : List Nat) (o : Operand) (bits : Nat) (p : BitVec 4 → Bool)
    (f : Coach → Coach) (h : ∀ co, CoachRegs ls o bits p co (f co)) :
    SameRegs x ls o bits p s (modCoach s x.ref.train x.ref.coach f) := by
  refine ⟨fun k c l n e => ?_, fun k c n e => ?_, fun k c l q e => ?_⟩
  · simp only [vReg, laneAt_eq, modCoach_at]
    split
    · next hk =>
      cases hc : coachAt s k c with
      | none => rfl
      | some co => exact (h co).v l n fun g => e ⟨hk.1, hk.2, g⟩
    · rfl
  · simp only [sReg, modCoach_at]
    split
    · next hk =>
      cases hc : coachAt s k c with
      | none => rfl
      | some co => exact congrArg some ((h co).u n fun g => e ⟨hk.1, hk.2, g⟩)
    · rfl
  · simp only [pReg, laneAt_eq, modCoach_at]
    split
    · next hk =>
      cases hc : coachAt s k c with
      | none => rfl
      | some co => exact (h co).p l q fun g => e ⟨hk.1, hk.2, g⟩
    · rfl

/-! ### Lanes -/

theorem setReg_reg (l : Lane) (i n : Nat) (v : Word32) : (l.setReg i v).reg n = if n = i then v else l.reg n := by
  simp only [Lane.setReg, Lane.reg]
  exact mgetD_mput 0 l.v i n v

theorem setReg_pred (l : Lane) (i : Nat) (v : Word32) (q : BitVec 4) : (l.setReg i v).pred q = l.pred q := rfl

theorem setRegs_fold (l : Lane) (i x : Nat) (js : List Nat) (n : Nat) (h : ∀ j ∈ js, n ≠ i + j) :
    (js.foldl (fun l j => l.setReg (i + j) (w32 (x / 2 ^ (32 * j)))) l).reg n = l.reg n := by
  induction js generalizing l with
  | nil => rfl
  | cons j js ih =>
    rw [List.foldl_cons, ih _ fun k hk => h k (List.mem_cons_of_mem _ hk), setReg_reg, if_neg (h j List.mem_cons_self)]

theorem setRegs_pred (l : Lane) (i m x : Nat) (q : BitVec 4) : (setRegs l i m x).pred q = l.pred q := by
  unfold setRegs
  generalize List.range m = js
  induction js generalizing l with
  | nil => rfl
  | cons j js ih => rw [List.foldl_cons, ih]; rfl

theorem setRegs_reg_of_ne (l : Lane) (i m x n : Nat) (h : ¬ (i ≤ n ∧ n < i + m)) : (setRegs l i m x).reg n = l.reg n := by
  refine setRegs_fold l i x _ n fun j hj e => h ?_
  have := List.mem_range.mp hj
  omega

theorem setSreg_sreg (co : Coach) (i n : Nat) (v : Word32) : (co.setSreg i v).sreg n = if n = i then v else co.sreg n := by
  simp only [Coach.setSreg, Coach.sreg]
  exact mgetD_mput 0 co.sregs i n v

theorem setSregs_spec (co : Coach) (i m x : Nat) : (setSregs co i m x).lanes = co.lanes ∧ (setSregs co i m x).gen = co.gen ∧
    (setSregs co i m x).frames = co.frames ∧ ∀ n, ¬ (i ≤ n ∧ n < i + m) → (setSregs co i m x).sreg n = co.sreg n := by
  unfold setSregs
  have hm : ∀ j ∈ List.range m, j < m := fun j hj => List.mem_range.mp hj
  revert hm
  generalize List.range m = js
  intro hm
  induction js generalizing co with
  | nil => exact ⟨rfl, rfl, rfl, fun _ _ => rfl⟩
  | cons j js ih =>
    rw [List.foldl_cons]
    obtain ⟨h1, h2, h3, h4⟩ := ih (co.setSreg (i + j) (w32 (x / 2 ^ (32 * j)))) fun k hk => hm k (List.mem_cons_of_mem _ hk)
    refine ⟨h1, h2, h3, fun n hn => ?_⟩
    have hj := hm j List.mem_cons_self
    rw [h4 n hn, setSreg_sreg, if_neg (by omega)]

theorem setPred_pred (l : Lane) (i q : BitVec 4) (b : Bool) (h : q ≠ i) : (l.setPred i b).pred q = l.pred q := by
  unfold Lane.setPred
  split
  · rfl
  · unfold Lane.pred
    split
    · rfl
    · dsimp only
      have hi : i.toNat ≠ q.toNat := fun e => h (BitVec.eq_of_toNat_eq e.symm)
      cases b
      · simp only [Bool.false_eq_true, if_false, BitVec.getLsbD_and, BitVec.getLsbD_not, BitVec.getLsbD_shiftLeft]
        by_cases hq : q.toNat < 15
        · by_cases hlt : q.toNat < i.toNat
          · simp [hq, hlt]
          · have : q.toNat - i.toNat ≠ 0 := by omega
            simp [hq, hlt, this]
        · simp [hq, BitVec.getLsbD_of_ge _ _ (Nat.le_of_not_lt hq)]
      · simp only [if_true, BitVec.getLsbD_or, BitVec.getLsbD_shiftLeft]
        by_cases hlt : q.toNat < i.toNat
        · simp [hlt]
        · have : q.toNat - i.toNat ≠ 0 := by omega
          simp [hlt, this]

theorem setPred_reg (l : Lane) (i : BitVec 4) (b : Bool) (n : Nat) : (l.setPred i b).reg n = l.reg n := by
  unfold Lane.setPred; split <;> rfl

/-- One lane changes in what a destination names. -/
theorem modLane_regs (ls : List Nat) (o : Operand) (bits : Nat) (p : BitVec 4 → Bool) (co : Coach) (i : Nat) (f : Lane → Lane)
    (hi : i ∈ ls) (hv : ∀ l n, ¬ namesV o bits n = true → (f l).reg n = l.reg n)
    (hp : ∀ l q, ¬ p q = true → (f l).pred q = l.pred q) : CoachRegs ls o bits p co (modLane co i f) := by
  refine ⟨fun l n h => ?_, fun n _ => ?_, fun l q h => ?_⟩
  · by_cases hl : l = i
    · subst hl
      rw [modLane_get]
      cases mget co.lanes l with
      | none => rfl
      | some y => exact congrArg some (hv y n fun e => h ⟨hi, e⟩)
    · rw [modLane_get_of_ne co f hl]
  · simp only [modLane]; cases mget co.lanes i <;> rfl
  · by_cases hl : l = i
    · subst hl
      rw [modLane_get]
      cases mget co.lanes l with
      | none => rfl
      | some y => exact congrArg some (hp y q fun e => h ⟨hi, e⟩)
    · rw [modLane_get_of_ne co f hl]

theorem modLane_rest (co : Coach) (i : Nat) (f : Lane → Lane) :
    (modLane co i f).gen = co.gen ∧ (modLane co i f).frames = co.frames := by
  simp only [modLane]; cases mget co.lanes i <;> exact ⟨rfl, rfl⟩

/-! ### Destinations -/

theorem setLane_spec (ls : List Nat) (o : Operand) (bits : Nat) (p : BitVec 4 → Bool) (ho : ∀ n, o ≠ .sr n)
    (hp : ∀ q, o = .pred q → p q = true) (co : Coach) (i x : Nat) (hi : i ∈ ls) :
    CoachRegs ls o bits p co (setLane co o bits i x) ∧ (setLane co o bits i x).gen = co.gen ∧
      (setLane co o bits i x).frames = co.frames := by
  cases o with
  | v j =>
    refine ⟨modLane_regs ls _ bits p co i _ hi (fun l n h => setRegs_reg_of_ne l _ _ x n fun e => h ?_) (fun l q _ =>
      setRegs_pred l _ _ x q), modLane_rest co i _⟩
    simpa [namesV] using e
  | pred q =>
    refine ⟨modLane_regs ls _ bits p co i _ hi (fun l n _ => setPred_reg l q _ n) (fun l r h => setPred_pred l q r _ ?_),
      modLane_rest co i _⟩
    intro e
    exact h (hp r (by rw [e]))
  | sr n => exact absurd rfl (ho n)
  | _ => exact ⟨CoachRegs.refl .., rfl, rfl⟩

theorem putDst_spec (ls : List Nat) (o : Operand) (bits : Nat) (p : BitVec 4 → Bool) (ho : ∀ n, o ≠ .sr n)
    (hp : ∀ q, o = .pred q → p q = true) (co : Coach) (rs : List (Nat × Nat)) (hr : ∀ r ∈ rs, r.1 ∈ ls) :
    CoachRegs ls o bits p co (putDst co o bits rs) ∧ (putDst co o bits rs).gen = co.gen ∧
      (putDst co o bits rs).frames = co.frames := by
  have key : CoachRegs ls o bits p co (rs.foldl (fun co r => setLane co o bits r.1 r.2) co) ∧
      (rs.foldl (fun co r => setLane co o bits r.1 r.2) co).gen = co.gen ∧
      (rs.foldl (fun co r => setLane co o bits r.1 r.2) co).frames = co.frames := by
    induction rs generalizing co with
    | nil => exact ⟨CoachRegs.refl .., rfl, rfl⟩
    | cons r rs ih =>
      obtain ⟨h1, h2, h3⟩ := setLane_spec ls o bits p ho hp co r.1 r.2 (hr r List.mem_cons_self)
      obtain ⟨k1, k2, k3⟩ := ih (setLane co o bits r.1 r.2) fun e he => hr e (List.mem_cons_of_mem _ he)
      exact ⟨h1.trans k1, k2.trans h2, k3.trans h3⟩
  cases o with
  | s i =>
    cases rs with
    | nil => exact ⟨CoachRegs.refl .., rfl, rfl⟩
    | cons r rs =>
      obtain ⟨h1, h2, h3, h4⟩ := setSregs_spec co i.toNat (bits / 32) r.2
      refine ⟨⟨fun l n _ => ?_, fun n h => h4 n fun e => h ?_, fun l q _ => ?_⟩, h2, h3⟩
      · exact congrArg (fun m => (mget m l).map (·.reg n)) h1
      · simpa [namesS] using e
      · exact congrArg (fun m => (mget m l).map (·.pred q)) h1
  | _ => exact key

theorem putPred_spec (ls : List Nat) (o : Operand) (bits : Nat) (p : BitVec 4 → Bool) (q : BitVec 4) (hq : p q = true) (co : Coach)
    (rs : List (Nat × Bool)) (hr : ∀ r ∈ rs, r.1 ∈ ls) : CoachRegs ls o bits p co (putPred co q rs) ∧
      (putPred co q rs).gen = co.gen ∧ (putPred co q rs).frames = co.frames := by
  unfold putPred
  induction rs generalizing co with
  | nil => exact ⟨CoachRegs.refl .., rfl, rfl⟩
  | cons r rs ih =>
    have h1 : CoachRegs ls o bits p co (modLane co r.1 fun l => l.setPred q r.2) :=
      modLane_regs ls o bits p co r.1 _ (hr r List.mem_cons_self) (fun l n _ => setPred_reg l q _ n)
        (fun l j h => setPred_pred l q j _ fun e => h (by rw [e, hq]))
    obtain ⟨h2, h3⟩ := modLane_rest co r.1 fun l => l.setPred q r.2
    obtain ⟨k1, k2, k3⟩ := ih (modLane co r.1 fun l => l.setPred q r.2) fun e he => hr e (List.mem_cons_of_mem _ he)
    exact ⟨h1.trans k1, k2.trans h2, k3.trans h3⟩

/-- A destination write changes what the destination names, and nothing else. -/
theorem wr_frame (s : State) (x : Ix) (ls : List Nat) (o : Operand) (bits : Nat) (p : BitVec 4 → Bool) (ho : ∀ n, o ≠ .sr n)
    (hp : ∀ q, o = .pred q → p q = true) (rs : List (Nat × Nat)) (hr : ∀ r ∈ rs, r.1 ∈ ls) :
    SameRegs x ls o bits p s (wr s x o bits rs) ∧ SameMachine s (wr s x o bits rs) ∧ SameGens s (wr s x o bits rs) :=
  have h := fun co => putDst_spec ls o bits p ho hp co rs hr
  ⟨modCoach_regs s x ls o bits p _ fun co => (h co).1, modCoach_machine s _ _ _ fun co => (h co).2.2,
    modCoach_gens s _ _ _ fun co => (h co).2.1⟩

theorem wrPred_frame (s : State) (x : Ix) (ls : List Nat) (o : Operand) (bits : Nat) (p : BitVec 4 → Bool) (q : BitVec 4)
    (hq : p q = true) (rs : List (Nat × Bool)) (hr : ∀ r ∈ rs, r.1 ∈ ls) :
    SameRegs x ls o bits p s (wrPred s x q rs) ∧ SameMachine s (wrPred s x q rs) ∧ SameGens s (wrPred s x q rs) :=
  have h := fun co => putPred_spec ls o bits p q hq co rs hr
  ⟨modCoach_regs s x ls o bits p _ fun co => (h co).1, modCoach_machine s _ _ _ fun co => (h co).2.2,
    modCoach_gens s _ _ _ fun co => (h co).2.1⟩

/-! ### Casks, going on, counting -/

theorem caskPut_machine (s : State) (cl k : Nat) (c : Cask) : SameMachine s (caskPut s cl k c) := by
  have hu : ∀ n, (caskPut s cl k c).cluster n = if n = cl then { s.cluster cl with casks := mput Cask.init (s.cluster cl).casks k c }
      else s.cluster n := by
    intro n
    simp only [caskPut, modCluster, State.cluster, mgetD, mget_mset]
    split <;> simp_all
  refine ⟨⟨fun _ _ => rfl, rfl, fun n wa => ?_, ⟨rfl, rfl⟩, fun _ => rfl, ⟨rfl, rfl⟩⟩, fun _ => rfl, fun _ _ => rfl,
    fun _ => rfl, fun n => ?_, ⟨rfl, rfl, rfl, rfl, rfl⟩, rfl, ⟨rfl, rfl, rfl, rfl⟩, rfl⟩
  · unfold l1Get
    rw [hu n]
    split
    · next h => subst h; rfl
    · rfl
  · rw [hu n]
    split
    · next h => subst h; rfl
    · rfl

/-- Draws change casks alone. -/
theorem drawn_frame (i : Instr) (a : Args) (s : State) (x : Ix) : (drawn i a s x).trains = s.trains ∧
    SameMachine s (drawn i a s x) ∧ ((∀ k ∈ caskFields i a false, k.2.2 = false) → (drawn i a s x).clusters = s.clusters) := by
  unfold drawn
  generalize caskFields i a false = ks
  induction ks generalizing s with
  | nil => exact ⟨rfl, SameMachine.refl s, fun _ => rfl⟩
  | cons k ks ih =>
    rw [List.foldl_cons]
    cases hk : k.2.2 with
    | false =>
      simp only [Bool.false_eq_true, if_false]
      obtain ⟨h1, h2, h3⟩ := ih s
      exact ⟨h1, h2, fun h => h3 fun e he => h e (List.mem_cons_of_mem _ he)⟩
    | true =>
      simp only [if_true]
      cases caskIndex s x.ctx x.cluster k.2.1.toNat with
      | none =>
        obtain ⟨h1, h2, h3⟩ := ih s
        exact ⟨h1, h2, fun h => h3 fun e he => h e (List.mem_cons_of_mem _ he)⟩
      | some c =>
        obtain ⟨h1, h2, h3⟩ := ih (caskPut s x.cluster c (caskGet s x.cluster c).draw)
        refine ⟨h1, (caskPut_machine ..).trans h2, fun h => ?_⟩
        have := h k List.mem_cons_self
        rw [hk] at this
        cases this

theorem clearRefaults_get (lanes : SMap Lane) (m : Word32) (l : Nat) :
    ∃ g : Lane → Lane, mget (clearRefaults lanes m) l = (mget lanes l).map g ∧ ∀ y, (g y).v = y.v ∧ (g y).preds = y.preds := by
  unfold clearRefaults
  generalize lanesOf m = ks
  induction ks generalizing lanes with
  | nil => exact ⟨id, by simp, fun _ => ⟨rfl, rfl⟩⟩
  | cons i ks ih =>
    rw [List.foldl_cons]
    cases hi : mget lanes i with
    | none => exact ih lanes
    | some y =>
      dsimp only
      split
      · exact ih lanes
      · obtain ⟨g, hg, hk⟩ := ih (mset lanes i { y with rfc := 0 })
        by_cases hl : l = i
        · subst hl
          refine ⟨fun z => g { z with rfc := 0 }, ?_, fun z => hk _⟩
          rw [hg, hi]; simp
        · exact ⟨g, by rw [hg, mget_mset_of_ne _ _ hl], hk⟩

theorem onwardAt_frame (s : State) (x : Ix) (pc : Word64) (keep : Frag → Frag) (ls : List Nat) (o : Operand) (bits : Nat)
    (p : BitVec 4 → Bool) : SameRegs x ls o bits p s (onwardAt s x pc keep) ∧ SameMachine s (onwardAt s x pc keep) ∧
      SameGens s (onwardAt s x pc keep) := by
  refine ⟨modCoach_regs s x ls o bits p _ fun co => ⟨fun l n _ => ?_, fun _ _ => rfl, fun l q _ => ?_⟩,
    modCoach_machine s _ _ _ fun _ => rfl, modCoach_gens s _ _ _ fun _ => rfl⟩
  · obtain ⟨g, hg, hk⟩ := clearRefaults_get co.lanes x.fr.mask l
    dsimp only
    rw [hg]
    cases mget co.lanes l with
    | none => rfl
    | some y => simp [Lane.reg, (hk y).1]
  · obtain ⟨g, hg, hk⟩ := clearRefaults_get co.lanes x.fr.mask l
    dsimp only
    rw [hg]
    cases mget co.lanes l with
    | none => rfl
    | some y => simp [Lane.pred, (hk y).2]

/-- A state that differs in counts alone. -/
structure CountsOnly (s t : State) : Prop where
  same : ∃ us cs, t = { s with units := us, ctxs := cs }
  ctx : ∀ c, (t.ctx c).uncounted = (s.ctx c).uncounted

theorem CountsOnly.refl (s : State) : CountsOnly s s := ⟨⟨s.units, s.ctxs, rfl⟩, fun _ => rfl⟩

theorem CountsOnly.trans {s t u : State} (h : CountsOnly s t) (k : CountsOnly t u) : CountsOnly s u := by
  obtain ⟨⟨a, b, h1⟩, h2⟩ := h
  obtain ⟨⟨c, d, k1⟩, k2⟩ := k
  exact ⟨⟨c, d, by rw [k1, h1]⟩, fun e => (k2 e).trans (h2 e)⟩

theorem CountsOnly.machine {s t : State} (h : CountsOnly s t) : SameMachine s t ∧ t.trains = s.trains ∧ t.clusters = s.clusters := by
  obtain ⟨⟨us, cs, rfl⟩, h2⟩ := h
  exact ⟨⟨⟨fun _ _ => rfl, rfl, fun _ _ => rfl, ⟨rfl, rfl⟩, fun _ => rfl, ⟨rfl, rfl⟩⟩, fun _ => rfl, fun _ _ => rfl, h2,
    fun _ => rfl, ⟨rfl, rfl, rfl, rfl, rfl⟩, rfl, ⟨rfl, rfl, rfl, rfl⟩, rfl⟩, rfl, rfl⟩

theorem modSys_counts (s : State) (c : Nat) (f : SysRegs → SysRegs)
    (h : ∀ y, { f y with cntVal := [], cntOvf := [] } = { y with cntVal := [], cntOvf := [] }) : CountsOnly s (modSys s c f) := by
  unfold modSys modCtx
  cases hc : mget s.ctxs c with
  | none => exact CountsOnly.refl s
  | some y =>
    refine ⟨⟨s.units, mset s.ctxs c { y with sys := f y.sys }, rfl⟩, fun e => ?_⟩
    simp only [State.ctx, mgetD, mget_mset]
    split
    · next he => subst he; simp [hc, Ctx.uncounted, h]
    · rfl

theorem countEvent_counts (s : State) (c code phys : Nat) (unit : Nat → Option Nat) (n : Nat) :
    CountsOnly s (countEvent s c code phys unit n) := by
  unfold countEvent
  dsimp only
  generalize hu : (if n = 0 then s.units else mset s.units (65536 * code + phys)
    (BitVec.ofNat 48 ((mgetD s.units (65536 * code + phys) 0).toNat + n))) = us
  have h0 : CountsOnly s { s with units := us } := ⟨⟨us, s.ctxs, rfl⟩, fun _ => rfl⟩
  refine h0.trans ?_
  generalize ({ s with units := us } : State) = s
  generalize ancestors _ c = as
  induction as generalizing s with
  | nil => exact CountsOnly.refl s
  | cons a as ih =>
    rw [List.foldl_cons]
    refine CountsOnly.trans ?_ (ih _)
    split
    · exact CountsOnly.refl s
    · next hx =>
      clear hx
      generalize List.range 8 = is
      generalize s.ctx a = y
      induction is generalizing s with
      | nil => exact CountsOnly.refl s
      | cons i is ih2 =>
        rw [List.foldl_cons]
        refine CountsOnly.trans ?_ (ih2 _)
        split
        · exact modSys_counts s a _ fun _ => rfl
        · exact CountsOnly.refl s

/-- What no coach tells apart leaves the registers and the generators as they are. -/
theorem coaches_regs {s t : State} (h : ∀ k c, coachAt t k c = coachAt s k c) (x : Ix) (ls : List Nat) (o : Operand) (bits : Nat)
    (p : BitVec 4 → Bool) : SameRegs x ls o bits p s t ∧ SameGens s t := by
  have hl : ∀ k c l, laneAt t k c l = laneAt s k c l := by
    intro k c l
    have e : ∀ u, laneAt u k c l = (coachAt u k c).bind fun co => mget co.lanes l := by
      intro u; unfold laneAt coachAt; cases mget u.trains k <;> rfl
    rw [e, e, h]
  exact ⟨⟨fun k c l n _ => by rw [vReg, vReg, hl], fun k c n _ => by rw [sReg, sReg, h], fun k c l q _ => by rw [pReg, pReg, hl]⟩,
    fun k c => by rw [h]⟩

theorem trains_regs {s t : State} (h : t.trains = s.trains) (x : Ix) (ls : List Nat) (o : Operand) (bits : Nat) (p : BitVec 4 → Bool) :
    SameRegs x ls o bits p s t ∧ SameGens s t :=
  coaches_regs (fun k c => by unfold coachAt; rw [h]) x ls o bits p

theorem noteAnchor_rest (t : Train) (rank : Nat) (y : Yoke) : { y.noteAnchor t rank with past := [] } = { y with past := [] } := by
  unfold Yoke.noteAnchor
  split
  · split <;> rfl
  · rfl

theorem noteAnchors_trains (s : State) (x : Ix) (k : Nat) :
    (mget (noteAnchors s x).trains k).map Train.rest = (mget s.trains k).map Train.rest ∧
    (∀ c, coachAt (noteAnchors s x) k c = coachAt s k c) ∧
    (mget (noteAnchors s x).trains k).map (fun tr => (tr.scr, tr.scrPoison)) = (mget s.trains k).map fun tr => (tr.scr, tr.scrPoison) := by
  unfold noteAnchors modTrain coachAt
  cases ht : mget s.trains x.ref.train with
  | none => exact ⟨rfl, fun _ => rfl, rfl⟩
  | some tr =>
    simp only [setTrain, mget_mset]
    by_cases hk : k = x.ref.train
    · subst hk
      simp only [if_true, ht, Option.map_some, Option.bind_some]
      refine ⟨congrArg some ?_, fun c => ?_, trivial⟩
      · unfold Train.rest
        simp only [List.map_map]
        congr 1
        refine List.map_congr_left fun r _ => ?_
        simp only [Function.comp]
        congr 1
        split
        · rw [List.map_map]
          refine List.map_congr_left fun y _ => ?_
          simp only [Function.comp, noteAnchor_rest]
        · rfl
      · cases c <;> rfl
    · simp only [if_neg hk]
      exact ⟨trivial, fun _ => trivial, trivial⟩

/-- What ended anchors leave is noted in the yokes of the core, and changes nothing else. -/
theorem noteAnchors_frame (s : State) (x : Ix) : SameMachine s (noteAnchors s x) ∧
    (∀ k c, coachAt (noteAnchors s x) k c = coachAt s k c) ∧ (noteAnchors s x).clusters = s.clusters := by
  have hs : ∃ ts, noteAnchors s x = { s with trains := ts } := by
    unfold noteAnchors modTrain
    cases mget s.trains x.ref.train with
    | none => exact ⟨s.trains, rfl⟩
    | some tr => exact ⟨_, rfl⟩
  have h := noteAnchors_trains s x
  obtain ⟨ts, e⟩ := hs
  rw [e] at h ⊢
  exact ⟨⟨⟨fun _ _ => rfl, rfl, fun _ _ => rfl, ⟨rfl, rfl⟩, fun k => (h k).2.2, ⟨rfl, rfl⟩⟩, fun k => (h k).1,
    fun k c => congrArg _ ((h k).2.1 c), fun _ => rfl, fun _ => rfl, ⟨rfl, rfl, rfl, rfl, rfl⟩, rfl, ⟨rfl, rfl, rfl, rfl⟩, rfl⟩,
    fun k c => (h k).2.1 c, rfl⟩

/-- Counting an issue changes no register and nothing of the machine. -/
theorem noteIssue_frame (s : State) (x : Ix) (i : Instr) (a : Args) (y : Bool) : SameMachine s (noteIssue s x i a y) ∧
    (∀ k c, coachAt (noteIssue s x i a y) k c = coachAt s k c) ∧ (noteIssue s x i a y).clusters = s.clusters := by
  unfold noteIssue
  cases x.ref.coach with
  | spine => exact ⟨SameMachine.refl s, fun _ _ => rfl, rfl⟩
  | coach n =>
    obtain ⟨h1, h2, h3⟩ := (countEvent_counts (noteAnchors { s with ports := _, cores := _ } x) _ _ _ _ _).machine
    obtain ⟨k1, k2, k3⟩ := noteAnchors_frame { s with ports := _, cores := _ } x
    refine ⟨SameMachine.trans (t := { s with ports := _, cores := _ }) ?_ (k1.trans h1), fun k c => ?_, h3.trans k3⟩
    · exact ⟨⟨fun _ _ => rfl, rfl, fun _ _ => rfl, ⟨rfl, rfl⟩, fun _ => rfl, ⟨rfl, rfl⟩⟩, fun _ => rfl, fun _ _ => rfl,
        fun _ => rfl, fun _ => rfl, ⟨rfl, rfl, rfl, rfl, rfl⟩, rfl, ⟨rfl, rfl, rfl, rfl⟩, rfl⟩
    · refine Eq.trans ?_ (k2 k c)
      unfold coachAt
      rw [h2]

/-- Every lane falls through: only the fragments of the coach and the counts change. -/
theorem through_frame (i : Instr) (s : State) (x : Ix) (a : Args) (ls : List Nat) (o : Operand) (bits : Nat) (p : BitVec 4 → Bool) :
    SameRegs x ls o bits p s (through i s x a) ∧ SameMachine s (through i s x a) ∧ SameGens s (through i s x a) ∧
      (through i s x a).clusters = s.clusters := by
  obtain ⟨h1, h2, h3⟩ := onwardAt_frame s x (x.fr.pc + 12) id ls o bits p
  obtain ⟨k1, k2, k3⟩ := noteIssue_frame (onwardAt s x (x.fr.pc + 12) id) x i a a.yld
  obtain ⟨r1, r2⟩ := coaches_regs k2 x ls o bits p
  refine ⟨h1.trans r1, h2.trans k1, h3.trans r2, k3.trans ?_⟩
  exact modCoach_clusters ..

/-- What an instruction that writes one destination per lane leaves unchanged. -/
theorem sets_frame (i : Instr) (a : Args) (s : State) (x : Ix) (o : Operand) (bits : Nat) (val : State → Nat → Nat)
    (ls : List Nat) (p : BitVec 4 → Bool) (hl : ∀ l ∈ enabled x a, l ∈ ls) (ho : ∀ n, o ≠ .sr n)
    (hp : ∀ q, o = .pred q → p q = true) :
    SameRegs x ls o bits p s (sets i a s x o bits val) ∧ SameMachine s (sets i a s x o bits val) ∧
      SameGens s (sets i a s x o bits val) ∧
      ((∀ k ∈ caskFields i a false, k.2.2 = false) → (sets i a s x o bits val).clusters = s.clusters) := by
  obtain ⟨d1, d2, d3⟩ := drawn_frame i a s x
  obtain ⟨r1, r2⟩ := trains_regs d1 x ls o bits p
  obtain ⟨w1, w2, w3⟩ := wr_frame (drawn i a s x) x ls o bits p ho hp ((enabled x a).map fun l => (l, val (drawn i a s x) l))
    (by simpa using hl)
  obtain ⟨t1, t2, t3, t4⟩ := through_frame i (wr (drawn i a s x) x o bits ((enabled x a).map fun l => (l, val (drawn i a s x) l))) x
    a ls o bits p
  exact ⟨r1.trans (w1.trans t1), d2.trans (w2.trans t2), r2.trans (w3.trans t3),
    fun h => t4.trans ((modCoach_clusters ..).trans (d3 h))⟩

/-- The same for one that writes a flag too. -/
theorem setsFlag_frame (i : Instr) (a : Args) (s : State) (x : Ix) (o : Operand) (bits : Nat) (pd : Option (BitVec 4))
    (val : State → Nat → Nat × Bool) (ls : List Nat) (p : BitVec 4 → Bool) (hl : ∀ l ∈ enabled x a, l ∈ ls) (ho : ∀ n, o ≠ .sr n)
    (hp : ∀ q, o = .pred q ∨ pd = some q → p q = true) :
    SameRegs x ls o bits p s (setsFlag i a s x o bits pd val) ∧ SameMachine s (setsFlag i a s x o bits pd val) ∧
      SameGens s (setsFlag i a s x o bits pd val) ∧
      ((∀ k ∈ caskFields i a false, k.2.2 = false) → (setsFlag i a s x o bits pd val).clusters = s.clusters) := by
  obtain ⟨d1, d2, d3⟩ := drawn_frame i a s x
  obtain ⟨r1, r2⟩ := trains_regs d1 x ls o bits p
  unfold setsFlag
  dsimp only
  generalize hr : (enabled x a).map (fun l => (l, val (drawn i a s x) l)) = rs
  have hrl : ∀ r ∈ rs, r.1 ∈ ls := by rw [← hr]; simpa using hl
  obtain ⟨w1, w2, w3⟩ := wr_frame (drawn i a s x) x ls o bits p ho (fun q h => hp q (.inl h)) (rs.map fun r => (r.1, r.2.1))
    (by intro r hr'; obtain ⟨e, he, rfl⟩ := List.mem_map.mp hr'; exact hrl e he)
  have w4 : (wr (drawn i a s x) x o bits (rs.map fun r => (r.1, r.2.1))).clusters = (drawn i a s x).clusters := modCoach_clusters ..
  cases pd with
  | none =>
    obtain ⟨t1, t2, t3, t4⟩ := through_frame i (wr (drawn i a s x) x o bits (rs.map fun r => (r.1, r.2.1))) x a ls o bits p
    exact ⟨r1.trans (w1.trans t1), d2.trans (w2.trans t2), r2.trans (w3.trans t3), fun h => t4.trans (w4.trans (d3 h))⟩
  | some q =>
    obtain ⟨p1, p2, p3⟩ := wrPred_frame (wr (drawn i a s x) x o bits (rs.map fun r => (r.1, r.2.1))) x ls o bits p q
      (hp q (.inr rfl)) (rs.map fun r => (r.1, r.2.2))
      (by intro r hr'; obtain ⟨e, he, rfl⟩ := List.mem_map.mp hr'; exact hrl e he)
    obtain ⟨t1, t2, t3, t4⟩ := through_frame i (wrPred (wr (drawn i a s x) x o bits (rs.map fun r => (r.1, r.2.1))) x q
      (rs.map fun r => (r.1, r.2.2))) x a ls o bits p
    exact ⟨r1.trans (w1.trans (p1.trans t1)), d2.trans (w2.trans (p2.trans t2)), r2.trans (w3.trans (p3.trans t3)),
      fun h => t4.trans ((modCoach_clusters ..).trans (w4.trans (d3 h)))⟩

/-- The lanes of a rounding instruction's results are those that it was given; the generator moves in the mode sr alone. -/
theorem drawLanes_lanes (n : Nat) (rm : RMode) (f : Nat → (Nat → Nat) → Nat) (ls : List Nat) (g : Word32) :
    (∀ r ∈ (drawLanes n rm f ls g).1, r.1 ∈ ls) ∧ (rm ≠ .sr → (drawLanes n rm f ls g).2 = g) := by
  induction ls generalizing g with
  | nil => exact ⟨by simp [drawLanes], fun _ => rfl⟩
  | cons l ls ih =>
    simp only [drawLanes]
    refine ⟨fun r hr => ?_, fun h => ?_⟩
    · rcases List.mem_cons.mp hr with e | e
      · rw [e]; exact List.mem_cons_self
      · exact List.mem_cons_of_mem _ ((ih _).1 r e)
    · rw [if_neg h]; exact (ih g).2 h

/-- The issuing fragment stands in its coach. -/
theorem ixOf_coach {s : State} {r : FragRef} {x : Ix} (h : ixOf s r = some x) :
    x.ref = r ∧ mget s.trains r.train = some x.tr ∧ coachAt s r.train r.coach = some x.co := by
  simp only [ixOf, Option.bind_eq_bind, Option.bind_eq_some_iff] at h
  obtain ⟨tr, h1, co, h2, fr, h3, h4⟩ := h
  cases hc : r.coach <;> rw [hc] at h4 h2 <;> simp only [Option.some.injEq] at h4 <;> subst h4 <;>
    exact ⟨rfl, h1, by rw [coachAt, h1]; exact h2⟩

/-- What an instruction that rounds leaves unchanged. -/
theorem setsRounded_frame {i : Instr} {a : Args} {s : State} {x : Ix} (hi : Issues i a s x) (o : Operand) (bits n : Nat)
    (rm : RMode) (val : State → Nat → (Nat → Nat) → Nat) (p : BitVec 4 → Bool) (ho : ∀ n, o ≠ .sr n)
    (hp : ∀ q, o = .pred q → p q = true) :
    SameRegs x (enabled x a) o bits p s (setsRounded i a s x o bits n rm val) ∧
      SameMachine s (setsRounded i a s x o bits n rm val) ∧ (rm ≠ .sr → SameGens s (setsRounded i a s x o bits n rm val)) ∧
      GensElse x s (setsRounded i a s x o bits n rm val) ∧
      ((∀ k ∈ caskFields i a false, k.2.2 = false) → (setsRounded i a s x o bits n rm val).clusters = s.clusters) := by
  obtain ⟨d1, d2, d3⟩ := drawn_frame i a s x
  obtain ⟨r1, r2⟩ := trains_regs d1 x (enabled x a) o bits p
  unfold setsRounded
  dsimp only
  obtain ⟨l1, l2⟩ := drawLanes_lanes n rm (val (drawn i a s x)) (enabled x a) x.co.gen
  generalize drawLanes n rm (val (drawn i a s x)) (enabled x a) x.co.gen = r at l1 l2
  let u := modCoach (drawn i a s x) x.ref.train x.ref.coach fun co => { co with gen := r.2 }
  have u1 : SameRegs x (enabled x a) o bits p (drawn i a s x) u :=
    modCoach_regs _ x _ o bits p _ fun co => ⟨fun _ _ _ => rfl, fun _ _ => rfl, fun _ _ _ => rfl⟩
  have u2 : SameMachine (drawn i a s x) u := modCoach_machine _ _ _ _ fun _ => rfl
  have u3 : rm ≠ .sr → SameGens (drawn i a s x) u := by
    intro h k c
    simp only [u, modCoach_at, l2 h]
    split
    · next hk =>
      have hx := (ixOf_coach hi.here).2.2
      have : coachAt (drawn i a s x) k c = some x.co := by
        rw [hk.1, hk.2, coachAt, d1]; exact hx
      rw [this]; rfl
    · rfl
  obtain ⟨w1, w2, w3⟩ := wr_frame u x (enabled x a) o bits p ho hp r.1 l1
  obtain ⟨t1, t2, t3, t4⟩ := through_frame i (wr u x o bits r.1) x a (enabled x a) o bits p
  exact ⟨r1.trans (u1.trans (w1.trans t1)), d2.trans (u2.trans (w2.trans t2)),
    fun h => r2.trans ((u3 h).trans (w3.trans t3)),
    (SameGens.others r2 x).trans ((modCoach_gensElse _ x _).trans (SameGens.others (w3.trans t3) x)),
    fun h => t4.trans ((modCoach_clusters ..).trans ((modCoach_clusters ..).trans (d3 h)))⟩

/-! ### Fragments that form -/

theorem addGroup_go (m : Move) (l : Nat) (g : List (Move × Word32)) (hm : m.isGo = true) (h : ∀ e ∈ g, e.1.isGo = true) :
    ∀ e ∈ addGroup m l g, e.1.isGo = true := by
  induction g with
  | nil => intro e he; simp only [addGroup, List.mem_singleton] at he; rw [he]; exact hm
  | cons b t ih =>
    intro e he
    simp only [addGroup] at he
    split at he
    · rcases List.mem_cons.mp he with r | r
      · rw [r]; exact h b List.mem_cons_self
      · exact h e (List.mem_cons_of_mem _ r)
    · rcases List.mem_cons.mp he with r | r
      · rw [r]; exact h b List.mem_cons_self
      · exact ih (fun e he => h e (List.mem_cons_of_mem _ he)) e r

/-- Where no lane ends, parks or locks up, every group goes on. -/
theorem groups_go (ms : List (Nat × Move)) (pc : Word64) (mask : Word32) (h : ∀ e ∈ ms, e.2.isGo = true) :
    ∀ e ∈ groups ms pc mask, e.1.isGo = true := by
  have hm : ∀ l, (moveOf ms pc l).isGo = true := by
    intro l
    unfold moveOf
    cases hf : ms.find? fun e => e.1 = l with
    | none => rfl
    | some e => exact h e (List.mem_of_find?_eq_some hf)
  unfold groups
  suffices ∀ (ls : List Nat) (g : List (Move × Word32)), (∀ e ∈ g, e.1.isGo = true) →
      ∀ e ∈ ls.foldl (fun g l => addGroup (moveOf ms pc l) l g) g, e.1.isGo = true from this _ _ (by simp)
  intro ls
  induction ls with
  | nil => exact fun g hg => hg
  | cons l ls ih => exact fun g hg => ih _ (addGroup_go _ l g (hm l) hg)

/-- A coach whose fragments form anew among lanes that all go on keeps its registers, frames and generator. -/
theorem regroup_frame (s : State) (x : Ix) (pc : Word64) (gs : List (Move × Word32)) (keep : Frag → Frag) (ls : List Nat)
    (o : Operand) (bits : Nat) (p : BitVec 4 → Bool) (h : ∀ e ∈ gs, e.1.isGo = true) :
    SameRegs x ls o bits p s (regroup s x pc gs keep) ∧ SameMachine s (regroup s x pc gs keep) ∧
      SameGens s (regroup s x pc gs keep) := by
  have key : ∀ (F : Coach → Coach), (∀ co, CoachRegs ls o bits p co (F co) ∧ (F co).gen = co.gen ∧ (F co).frames = co.frames) →
      SameRegs x ls o bits p s (modCoach s x.ref.train x.ref.coach F) ∧
        SameMachine s (modCoach s x.ref.train x.ref.coach F) ∧ SameGens s (modCoach s x.ref.train x.ref.coach F) := fun F hF =>
    ⟨modCoach_regs s x ls o bits p F fun co => (hF co).1, modCoach_machine s _ _ F fun co => (hF co).2.2,
      modCoach_gens s _ _ F fun co => (hF co).2.1⟩
  refine key _ fun co => ?_
  dsimp only
  generalize (if (gs.filter fun g => g.1 ≠ .ended).length ≤ 1 then x.fr.pfrag else some x.ref.frag) = pf
  have h0 : CoachRegs ls o bits p co { co with frags := mdel co.frags x.ref.frag } ∧
      ({ co with frags := mdel co.frags x.ref.frag } : Coach).gen = co.gen ∧
      ({ co with frags := mdel co.frags x.ref.frag } : Coach).frames = co.frames :=
    ⟨⟨fun _ _ _ => rfl, fun _ _ => rfl, fun _ _ _ => rfl⟩, rfl, rfl⟩
  revert h0
  generalize ({ co with frags := mdel co.frags x.ref.frag } : Coach) = c0
  clear key
  induction gs generalizing c0 with
  | nil => exact fun hc => hc
  | cons g gs ih =>
    intro hc
    have hg := h
    rw [List.foldl_cons]
    refine ih (fun e he => hg e (List.mem_cons_of_mem _ he)) _ ?_
    have h1 := hg g List.mem_cons_self
    cases hm : g.1 with
    | go q =>
      dsimp only
      refine ⟨hc.1.trans ⟨fun l n _ => ?_, fun _ _ => rfl, fun l q _ => ?_⟩, hc.2⟩
      · obtain ⟨f, hf, hk⟩ := clearRefaults_get c0.lanes g.2 l
        refine (congrArg (Option.map fun y => Lane.reg y n) hf).trans ?_
        cases mget c0.lanes l with
        | none => rfl
        | some y => simp [Lane.reg, (hk y).1]
      · obtain ⟨f, hf, hk⟩ := clearRefaults_get c0.lanes g.2 l
        refine (congrArg (Option.map fun y => Lane.pred y q) hf).trans ?_
        cases mget c0.lanes l with
        | none => rfl
        | some y => simp [Lane.pred, (hk y).2]
    | ended => rw [hm] at h1; cases h1
    | park p => rw [hm] at h1; cases h1
    | livelock t => rw [hm] at h1; cases h1

/-- Lanes that all go on, each to its place: only the fragments of the coach and the counts change. -/
theorem parts_frame (i : Instr) (s : State) (x : Ix) (a : Args) (ms : List (Nat × Move)) (ls : List Nat) (o : Operand)
    (bits : Nat) (p : BitVec 4 → Bool) (hm : ∀ e ∈ ms, e.2.isGo = true)
    (hs : (x.co.step && (x.co.frameOf x.fr.mask).isNone) = false) :
    SameRegs x ls o bits p s (parts i s x a ms) ∧ SameMachine s (parts i s x a ms) ∧ SameGens s (parts i s x a ms) := by
  have hg := groups_go ms x.fr.pc x.fr.mask hm
  have hf : finish s x (encodeVamer i) ms none id = regroup s x x.fr.pc (groups ms x.fr.pc x.fr.mask) id := by
    have h1 : ((groups ms x.fr.pc x.fr.mask).any fun g => g.1 = .ended) = false := by
      rw [List.any_eq_false]
      intro e he h
      have := hg e he
      simp only [decide_eq_true_eq] at h
      rw [h] at this; cases this
    simp only [finish, h1, hs, Bool.false_eq_true, if_false]
    generalize regroup s x x.fr.pc (groups ms x.fr.pc x.fr.mask) id = u
    revert hg
    generalize groups ms x.fr.pc x.fr.mask = gs
    clear hm h1
    intro hg
    induction gs generalizing u with
    | nil => rfl
    | cons g gs ih =>
      rw [List.foldl_cons]
      have h2 := hg g List.mem_cons_self
      cases hgm : g.1 with
      | go q => exact ih u fun e he => hg e (List.mem_cons_of_mem _ he)
      | ended => rw [hgm] at h2; cases h2
      | park p => rw [hgm] at h2; cases h2
      | livelock t => rw [hgm] at h2; cases h2
  obtain ⟨h1, h2, h3⟩ := regroup_frame s x x.fr.pc (groups ms x.fr.pc x.fr.mask) id ls o bits p hg
  rw [← hf] at h1 h2 h3
  obtain ⟨k1, k2, k3⟩ := noteIssue_frame (finish s x (encodeVamer i) ms none id) x i a a.yld
  obtain ⟨r1, r2⟩ := coaches_regs k2 x ls o bits p
  exact ⟨h1.trans r1, h2.trans k1, h3.trans r2⟩

end Sys2Proof.Machine
end

