-- ==== Sys2Proof/Laws/MemFrames.lean ====
section
/-! SUPPORT. What the operations of the home and of the L1s leave unchanged (R17 to R19, R191 to R194, R361, R370). -/

namespace Sys2Proof.Machine

open Sys2Proof

/-! ### Bytes at home -/

/-- Bytes written one by one. -/
theorem read_writes (bs : List Byte) (off j : Nat) (is : List Nat) (m : Memory) :
    Memory.read (is.foldl (fun m i => Memory.write m (off + i) (bs.getD i 0)) m) j =
      if off ≤ j ∧ j - off ∈ is then bs.getD (j - off) 0 else Memory.read m j := by
  induction is generalizing m with
  | nil => simp
  | cons i is ih =>
    rw [List.foldl_cons, ih, Memory.read_write]
    by_cases h1 : off ≤ j ∧ j - off ∈ is
    · rw [if_pos h1, if_pos ⟨h1.1, List.mem_cons_of_mem _ h1.2⟩]
    · rw [if_neg h1]
      by_cases h2 : j = off + i
      · subst h2; simp
      · rw [if_neg h2, if_neg]
        rintro ⟨h3, h4⟩
        rcases List.mem_cons.mp h4 with h4 | h4
        · omega
        · exact h1 ⟨h3, h4⟩

/-- A byte reads alike where its block is stored alike. -/
theorem homeByte_block {s t : State} {ma : Nat} (he : encKey t ma = encKey s ma)
    (hm : ∀ i, i < 16 → Memory.read t.mem (ma / 16 * 16 + i) = Memory.read s.mem (ma / 16 * 16 + i)) (key : Byte) :
    homeByte t ma key = homeByte s ma key := by
  unfold homeByte
  have h1 : Memory.read t.mem ma = Memory.read s.mem ma := by
    have := hm (ma % 16) (Nat.mod_lt _ (by decide))
    rwa [show ma / 16 * 16 + ma % 16 = ma by omega] at this
  have h2 : (List.range 16).map (fun i => Memory.read t.mem (ma / 16 * 16 + i)) =
      (List.range 16).map fun i => Memory.read s.mem (ma / 16 * 16 + i) :=
    List.map_congr_left fun i hi => hm i (List.mem_range.mp hi)
  rw [he, h1, h2]

theorem homeByte_own {s : State} {ma : Nat} {key : Byte} (h : encKey s ma = key) : homeByte s ma key = Memory.read s.mem ma := by
  unfold homeByte; exact if_pos h

/-- Encrypting a block again changes no other block, and no byte as its new key reads it. -/
theorem rekey_spec (s : State) (b : Nat) (key : Byte) :
    (∃ m e, rekey s b key = { s with mem := m, enc := e }) ∧ mgetD (rekey s b key).enc b 0 = key ∧
    (∀ ma, ma / 16 ≠ b → encKey (rekey s b key) ma = encKey s ma ∧ Memory.read (rekey s b key).mem ma = Memory.read s.mem ma) ∧
    ∀ ma, homeByte (rekey s b key) ma key = homeByte s ma key := by
  unfold rekey
  split
  · next h => exact ⟨⟨s.mem, s.enc, rfl⟩, h, fun _ _ => ⟨rfl, rfl⟩, fun _ => rfl⟩
  · next h =>
    dsimp only
    refine ⟨⟨_, _, rfl⟩, by rw [mgetD_mput, if_pos rfl], ?_, ?_⟩
    · intro ma hma
      refine ⟨by simp only [encKey]; rw [mgetD_mput, if_neg hma], ?_⟩
      rw [read_writes, if_neg]
      rintro ⟨h1, h2⟩
      have := List.mem_range.mp h2
      omega
    · intro ma
      by_cases hma : ma / 16 = b
      · subst hma
        rw [homeByte_own (by simp only [encKey]; rw [mgetD_mput, if_pos rfl]), read_writes]
        have h3 : ma - 16 * (ma / 16) < 16 := by omega
        rw [if_pos ⟨by omega, List.mem_range.mpr h3⟩]
        simp only [List.getD_eq_getElem?_getD, List.getElem?_map, List.getElem?_range h3, Option.map_some, Option.getD_some]
        rw [show 16 * (ma / 16) + (ma - 16 * (ma / 16)) = ma by omega]
      · refine homeByte_block (by simp only [encKey]; rw [mgetD_mput, if_neg hma]) ?_ key
        intro i hi
        rw [read_writes, if_neg]
        rintro ⟨h1, h2⟩
        have := List.mem_range.mp h2
        omega

theorem mem_blocksOf {ma n b : Nat} : b ∈ blocksOf ma n ↔ ∃ a, ma ≤ a ∧ a < ma + n ∧ a / 16 = b := by
  unfold blocksOf
  split
  · next h => subst h; simp; omega
  · next h =>
    simp only [List.mem_map, List.mem_range]
    constructor
    · rintro ⟨i, hi, rfl⟩
      by_cases h0 : i = 0
      · exact ⟨ma, Nat.le_refl _, by omega, by omega⟩
      · exact ⟨16 * (ma / 16 + i), by omega, by omega, by omega⟩
    · rintro ⟨a, h1, h2, rfl⟩
      exact ⟨a / 16 - ma / 16, by omega, by omega⟩

theorem mem_wordsOf {ma n b : Nat} : b ∈ wordsOf ma n ↔ ∃ a, ma ≤ a ∧ a < ma + n ∧ a / 4 = b := by
  unfold wordsOf
  split
  · next h => subst h; simp; omega
  · next h =>
    simp only [List.mem_map, List.mem_range]
    constructor
    · rintro ⟨i, hi, rfl⟩
      by_cases h0 : i = 0
      · exact ⟨ma, Nat.le_refl _, by omega, by omega⟩
      · exact ⟨4 * (ma / 4 + i), by omega, by omega, by omega⟩
    · rintro ⟨a, h1, h2, rfl⟩
      exact ⟨a / 4 - ma / 4, by omega, by omega⟩

/-- The blocks of a write are encrypted again, each under the key of its frame. -/
theorem rekeys_spec (s : State) (bs : List Nat) :
    let t := bs.foldl (fun s b => rekey s b (frameKey s (16 * b))) s
    (∃ m e, t = { s with mem := m, enc := e }) ∧
    (∀ ma, ma / 16 ∉ bs → encKey t ma = encKey s ma ∧ Memory.read t.mem ma = Memory.read s.mem ma) ∧
    ∀ ma key, mget s.tags (ma / 65536) = some key → homeByte t ma key = homeByte s ma key ∧ (ma / 16 ∈ bs → encKey t ma = key) := by
  induction bs generalizing s with
  | nil => exact ⟨⟨s.mem, s.enc, rfl⟩, fun _ _ => ⟨rfl, rfl⟩, fun _ _ _ => ⟨rfl, fun h => absurd h (by simp)⟩⟩
  | cons b bs ih =>
    intro t
    obtain ⟨⟨m, e, h1⟩, h2, h3, h4⟩ := rekey_spec s b (frameKey s (16 * b))
    obtain ⟨⟨m', e', k1⟩, k2, k3⟩ := ih (rekey s b (frameKey s (16 * b)))
    have ht : (rekey s b (frameKey s (16 * b))).tags = s.tags := by rw [h1]
    refine ⟨⟨m', e', ?_⟩, ?_, ?_⟩
    · show bs.foldl _ _ = _
      rw [k1, h1]
    · intro ma hma
      have hb : ma / 16 ≠ b := fun h => hma (by rw [h]; exact List.mem_cons_self)
      obtain ⟨a1, a2⟩ := k2 ma fun h => hma (List.mem_cons_of_mem _ h)
      obtain ⟨b1, b2⟩ := h3 ma hb
      exact ⟨a1.trans b1, a2.trans b2⟩
    · intro ma key hk
      have hk' : mget (rekey s b (frameKey s (16 * b))).tags (ma / 65536) = some key := by rw [ht]; exact hk
      obtain ⟨a1, a2⟩ := k3 ma key hk'
      by_cases hb : ma / 16 = b
      · have hf : frameKey s (16 * b) = key := by
          unfold frameKey
          rw [show 16 * b / 65536 = ma / 65536 by omega, hk]; rfl
        refine ⟨a1.trans ?_, fun _ => ?_⟩
        · have := h4 ma; rwa [hf] at this ⊢
        · by_cases hbs : ma / 16 ∈ bs
          · exact a2 hbs
          · refine ((k2 ma hbs).1).trans ?_
            unfold encKey
            rw [hb, h2, hf]
      · refine ⟨a1.trans ?_, fun h => ?_⟩
        · refine homeByte_block (h3 ma hb).1 (fun i hi => (h3 _ ?_).2) key
          omega
        · rcases List.mem_cons.mp h with h | h
          · exact absurd h hb
          · exact a2 h

/-- A write at home: the bytes written, every other byte as its frame's key reads it, every other block. -/
theorem homeWrite_spec (s : State) (ma : Nat) (bs : List Byte) (poison : Bool) :
    let t := homeWrite s ma bs poison
    (∃ m e po b, t = { s with mem := m, enc := e, poison := po, host := { s.host with backInv := b } }) ∧
    (∀ a key, a / 16 ∉ blocksOf ma bs.length → homeByte t a key = homeByte s a key) ∧
    (∀ a key, mget s.tags (a / 65536) = some key → ¬ (ma ≤ a ∧ a < ma + bs.length) → homeByte t a key = homeByte s a key) ∧
    (∀ a key, mget s.tags (a / 65536) = some key → ma ≤ a → a < ma + bs.length → homeByte t a key = bs.getD (a - ma) 0) ∧
    ∀ a, ¬ (ma ≤ a ∧ a < ma + bs.length) → isPoison t a = isPoison s a := by
  intro t
  obtain ⟨⟨m, e, h1⟩, h2, h3⟩ := rekeys_spec s (blocksOf ma bs.length)
  generalize hr : (blocksOf ma bs.length).foldl (fun s b => rekey s b (frameKey s (16 * b))) s = r at h1 h2 h3
  have hb : ∃ b, t = { homePut s ma bs poison with host := { s.host with backInv := b } } := by
    show ∃ b, noteBackInv (homePut s ma bs poison) ma bs.length = _
    have : (homePut s ma bs poison).host = s.host := by unfold homePut; rw [hr, h1]
    unfold noteBackInv
    split
    · exact ⟨s.host.backInv, by rw [← this]⟩
    · exact ⟨_, by rw [← this]⟩
  obtain ⟨b, hb⟩ := hb
  have hp : homePut s ma bs poison = { r with
      mem := (List.range bs.length).foldl (fun m i => Memory.write m (ma + i) (bs.getD i 0)) r.mem
      poison := if poison then (List.range bs.length).map (ma + ·) ++ r.poison.filter (fun a => a < ma || ma + bs.length ≤ a)
        else r.poison.filter fun a => a < ma || ma + bs.length ≤ a } := by
    unfold homePut; rw [hr]
  have hmem : ∀ a, Memory.read t.mem a = if ma ≤ a ∧ a < ma + bs.length then bs.getD (a - ma) 0 else Memory.read r.mem a := by
    intro a
    rw [hb, hp]
    show Memory.read ((List.range bs.length).foldl _ r.mem) a = _
    rw [read_writes]
    simp only [List.mem_range]
    refine if_congr ?_ rfl rfl
    omega
  have henc : ∀ a, encKey t a = encKey r a := by intro a; rw [hb, hp]; rfl
  have hin : ∀ a, ma ≤ a → a < ma + bs.length → a / 16 ∈ blocksOf ma bs.length := fun a h4 h5 => mem_blocksOf.mpr ⟨a, h4, h5, rfl⟩
  refine ⟨?_, ?_, ?_, ?_, ?_⟩
  · rw [hb, hp, h1]
    exact ⟨_, _, _, _, rfl⟩
  · intro a key ha
    refine homeByte_block ((henc a).trans (h2 a ha).1) (fun i hi => ?_) key
    rw [hmem, if_neg, (h2 _ (by rwa [show (a / 16 * 16 + i) / 16 = a / 16 by omega])).2]
    rintro ⟨h4, h5⟩
    have := hin _ h4 h5
    rw [show (a / 16 * 16 + i) / 16 = a / 16 by omega] at this
    exact ha this
  · intro a key hk ha
    obtain ⟨h4, h5⟩ := h3 a key hk
    rw [← h4]
    by_cases hbl : a / 16 ∈ blocksOf ma bs.length
    · rw [homeByte_own ((henc a).trans (h5 hbl)), homeByte_own (h5 hbl), hmem, if_neg ha]
    · refine homeByte_block (henc a) (fun i hi => ?_) key
      rw [hmem, if_neg]
      rintro ⟨h6, h7⟩
      have := hin _ h6 h7
      rw [show (a / 16 * 16 + i) / 16 = a / 16 by omega] at this
      exact hbl this
  · intro a key hk h4 h5
    rw [homeByte_own ((henc a).trans ((h3 a key hk).2 (hin a h4 h5))), hmem, if_pos ⟨h4, h5⟩]
  · intro a ha
    have : t.poison = if poison then (List.range bs.length).map (ma + ·) ++ s.poison.filter (fun a => a < ma || ma + bs.length ≤ a)
        else s.poison.filter fun a => a < ma || ma + bs.length ≤ a := by rw [hb, hp, h1]
    unfold isPoison
    rw [this]
    have hf : (s.poison.filter fun a => decide (a < ma) || decide (ma + bs.length ≤ a)).contains a = s.poison.contains a := by
      rw [Bool.eq_iff_iff]
      simp only [List.contains_iff_mem, List.mem_filter, Bool.or_eq_true, decide_eq_true_eq]
      exact ⟨fun h => h.1, fun h => ⟨h, by omega⟩⟩
    split
    · rw [Bool.eq_iff_iff] at hf ⊢
      simp only [List.contains_iff_mem, List.mem_append, List.mem_map, List.mem_range] at hf ⊢
      rw [hf]
      constructor
      · rintro (⟨i, hi, rfl⟩ | h)
        · exact absurd ⟨by omega, by omega⟩ ha
        · exact h
      · exact .inr
    · exact hf

/-! ### The relation composes -/

variable {cl : Nat} {p w f : Nat → Prop} {s t u : State}

theorem WordsOnly.refl (s : State) : WordsOnly cl p w f s s :=
  ⟨fun _ _ h => h, fun _ _ _ => rfl, fun _ _ _ _ => rfl, fun _ _ _ _ => .inl rfl, fun _ _ _ v h _ _ hd => ⟨v, h, hd, rfl⟩,
    fun _ _ => rfl, fun _ _ _ _ => rfl, ⟨rfl, rfl⟩, fun _ => rfl, fun _ _ => rfl, fun _ => rfl, fun _ => rfl,
    ⟨rfl, rfl, rfl, rfl, rfl⟩, rfl, ⟨rfl, rfl⟩⟩

theorem WordsOnly.trans (h : WordsOnly cl p w f s t) (k : WordsOnly cl p w f t u) : WordsOnly cl p w f s u where
  tags n key e := k.tags n key (h.tags n key e)
  home ma key e := (k.home ma key e).trans (h.home ma key e)
  tagged ma key e n := (k.tagged ma key (h.tags _ _ e) n).trans (h.tagged ma key e n)
  bytes ma key e n := by
    rcases k.bytes ma key (h.tags _ _ e) n with k1 | ⟨c, v, k1, k2, k3⟩
    · rw [k1]; exact h.bytes ma key e n
    · have hm : 4 * (ma / 4) + ma % 4 = ma := by omega
      obtain ⟨v', h1, h2, h3⟩ := h.dirty c (ma / 4) (ma % 4) v k1 (Nat.mod_lt _ (by decide)) (by rwa [hm]) k2
      exact .inr ⟨c, v', h1, h2, k3.trans h3.symm⟩
  dirty c wa i v e hi n hd := by
    obtain ⟨v1, k1, k2, k3⟩ := k.dirty c wa i v e hi n hd
    obtain ⟨v2, h1, h2, h3⟩ := h.dirty c wa i v1 k1 hi n k2
    exact ⟨v2, h1, h2, h3.trans k3⟩
  poison ma n := (k.poison ma n).trans (h.poison ma n)
  l1 c wa n g := by
    have h1 := h.l1 c wa n g
    rw [← h1]
    exact k.l1 c wa n fun e => g ⟨e.1, e.2.1, h1 ▸ e.2.2⟩
  cellar := ⟨k.cellar.1.trans h.cellar.1, k.cellar.2.trans h.cellar.2⟩
  trains n := (k.trains n).trans (h.trains n)
  frames n c := (k.frames n c).trans (h.frames n c)
  contexts c := (k.contexts c).trans (h.contexts c)
  clusters c := (k.clusters c).trans (h.clusters c)
  tables := ⟨k.tables.1.trans h.tables.1, k.tables.2.1.trans h.tables.2.1, k.tables.2.2.1.trans h.tables.2.2.1,
    k.tables.2.2.2.1.trans h.tables.2.2.2.1, k.tables.2.2.2.2.trans h.tables.2.2.2.2⟩
  host := k.host.trans h.host
  clock := ⟨k.clock.1.trans h.clock.1, k.clock.2.trans h.clock.2⟩

theorem SameMachine.words (h : SameMachine s t) : WordsOnly cl p w f s t where
  tags n key e := by rw [h.keys.1]; exact e
  home ma key _ := h.memory.home ma key
  tagged ma key _ _ := h.memory.home ma key
  bytes ma key _ _ := .inl (h.memory.home ma key)
  dirty c wa i v e _ _ hd := ⟨v, by rw [← h.memory.l1]; exact e, hd, rfl⟩
  poison ma _ := by unfold isPoison; rw [h.memory.poison]
  l1 c wa _ _ := h.memory.l1 c wa
  cellar := h.memory.cellar
  trains := h.trains
  frames := h.frames
  contexts c := by
    show (t.ctx c).uncounted.unpaid = (s.ctx c).uncounted.unpaid
    rw [h.contexts c]
  clusters c := by
    show (t.cluster c).uncasked.unlined = (s.cluster c).uncasked.unlined
    rw [h.clusters c]
  tables := h.tables
  host := by rw [h.host]
  clock := ⟨h.clock, h.keys.2.2.2⟩

theorem KeepsCopies.refl (s : State) : KeepsCopies p s s := fun _ _ v h => ⟨v, h, fun _ _ _ => rfl⟩

theorem KeepsCopies.trans (h : KeepsCopies p s t) (k : KeepsCopies p t u) : KeepsCopies p s u := by
  intro c wa v e
  obtain ⟨v1, h1, h2⟩ := h c wa v e
  obtain ⟨v2, k1, k2⟩ := k c wa v1 h1
  exact ⟨v2, k1, fun i hi n => (k2 i hi n).trans (h2 i hi n)⟩

theorem keepsCopies_of_l1 (h : ∀ c wa, l1Get t c wa = l1Get s c wa) : KeepsCopies p s t :=
  fun c wa v e => ⟨v, (h c wa).trans e, fun _ _ _ => rfl⟩

/-- A change of the home and the L1s: words, and nothing of trains; the lines of cluster `cl` stay or are among `L`, and no store is
put on its way. -/
structure MemStep (cl : Nat) (p w f : Nat → Prop) (L : List Nat) (s t : State) : Prop where
  words : WordsOnly cl p w f s t
  trains : t.trains = s.trains
  lines : ∀ n ∈ heldLines t cl, n ∈ heldLines s cl ∨ n ∈ L
  stores : ∀ q ∈ t.stores, q ∈ s.stores
  defer : t.defer = s.defer

variable {L : List Nat}

theorem MemStep.refl (s : State) : MemStep cl p w f L s s :=
  ⟨WordsOnly.refl s, rfl, fun _ h => .inl h, fun _ h => h, rfl⟩

theorem MemStep.trans (h : MemStep cl p w f L s t) (k : MemStep cl p w f L t u) : MemStep cl p w f L s u :=
  ⟨h.words.trans k.words, k.trains.trans h.trains, fun n e => (k.lines n e).elim (h.lines n) .inr,
    fun q e => h.stores q (k.stores q e), k.defer.trans h.defer⟩

theorem foldl_memStep {α : Type} (g : State → α → State) (l : List α) (h : ∀ s, ∀ e ∈ l, MemStep cl p w f L s (g s e)) (s : State) :
    MemStep cl p w f L s (l.foldl g s) := by
  induction l generalizing s with
  | nil => exact MemStep.refl s
  | cons e l ih => exact (h s e List.mem_cons_self).trans (ih (fun s e he => h s e (List.mem_cons_of_mem _ he)) _)

theorem foldl_keeps {α : Type} (g : State → α → State) (l : List α) (h : ∀ s, ∀ e ∈ l, KeepsCopies p s (g s e)) (s : State) :
    KeepsCopies p s (l.foldl g s) := by
  induction l generalizing s with
  | nil => exact KeepsCopies.refl s
  | cons e l ih => exact (h s e List.mem_cons_self).trans (ih (fun s e he => h s e (List.mem_cons_of_mem _ he)) _)

/-- Owners, free values, steps and numbers are no part of the relation, and fewer stores may be on their way. -/
theorem memStep_aside (s : State) (ow : SMap Nat) (st : List PStore) (fr nx : Nat) (h : ∀ q ∈ st, q ∈ s.stores) :
    MemStep cl p w f L s { s with owner := ow, stores := st, fresh := fr, nextId := nx } :=
  ⟨⟨fun _ _ h => h, fun _ _ _ => rfl, fun _ _ _ _ => rfl, fun _ _ _ _ => .inl rfl, fun _ _ _ v h _ _ hd => ⟨v, h, hd, rfl⟩,
    fun _ _ => rfl, fun _ _ _ _ => rfl, ⟨rfl, rfl⟩, fun _ => rfl, fun _ _ => rfl, fun _ => rfl, fun _ => rfl,
    ⟨rfl, rfl, rfl, rfl, rfl⟩, rfl, ⟨rfl, rfl⟩⟩, rfl, fun _ h => .inl h, h, rfl⟩

/-! ### Counting and paying -/

theorem countsOnly_memStep (h : CountsOnly s t) : MemStep cl p w f L s t := by
  refine ⟨h.machine.1.words, h.machine.2.1, fun n e => .inl ?_, fun q e => ?_, ?_⟩
  · unfold heldLines State.cluster at *; rwa [h.machine.2.2] at e
  · obtain ⟨⟨us, cs, rfl⟩, _⟩ := h; exact e
  · obtain ⟨⟨us, cs, rfl⟩, _⟩ := h; rfl

theorem modCtx_memStep (s : State) (c : Nat) (g : Ctx → Ctx) (h : ∀ y, (g y).unpaid = y.unpaid) :
    MemStep cl p w f L s (modCtx s c g) := by
  unfold modCtx
  cases hc : mget s.ctxs c with
  | none => exact MemStep.refl s
  | some y =>
    refine ⟨⟨fun _ _ h => h, fun _ _ _ => rfl, fun _ _ _ _ => rfl, fun _ _ _ _ => .inl rfl, fun _ _ _ v h _ _ hd => ⟨v, h, hd, rfl⟩,
      fun _ _ => rfl, fun _ _ _ _ => rfl, ⟨rfl, rfl⟩, fun _ => rfl, fun _ _ => rfl, fun e => ?_, fun _ => rfl,
      ⟨rfl, rfl, rfl, rfl, rfl⟩, rfl, ⟨rfl, rfl⟩⟩, rfl, fun _ h => .inl h, fun _ h => h, rfl⟩
    simp only [State.ctx, mgetD, mget_mset]
    split
    · next he => subst he; simp [hc, h]
    · rfl

theorem homeAccess_memStep (s : State) (ctx ma n : Nat) : MemStep cl p w f L s (homeAccess s ctx ma n) := by
  unfold homeAccess
  dsimp only
  refine MemStep.trans ?_ (countsOnly_memStep (countEvent_counts ..))
  refine MemStep.trans ?_ (countsOnly_memStep (countEvent_counts ..))
  refine MemStep.trans ?_ (countsOnly_memStep (countEvent_counts ..))
  refine (memStep_aside s s.owner s.stores (s.fresh + 1) s.nextId fun _ h => h).trans ?_
  unfold charge
  split
  · exact modCtx_memStep _ _ _ fun y => rfl
  · exact MemStep.refl _

theorem homeAccess_l1 (s : State) (ctx ma n c wa : Nat) : l1Get (homeAccess s ctx ma n) c wa = l1Get s c wa := by
  have := (homeAccess_memStep (cl := c) (p := fun _ => False) (w := fun _ => False) (f := fun _ => False) (L := []) s ctx ma n).words.l1 c wa
  exact this (fun h => h) fun h => h.2.1

/-! ### L1 words -/

theorem l1Get_set (s : State) (a wa : Nat) (v : L1Word) (c wb : Nat) :
    l1Get (l1Set s a wa v) c wb = if c = a ∧ wb = wa then some v else l1Get s c wb := by
  unfold l1Get l1Set
  by_cases hc : c = a
  · subst hc
    rw [modCluster_get, mget_mset]
    by_cases hw : wb = wa <;> simp [hw]
  · rw [modCluster_get_of_ne _ _ hc, if_neg fun e => hc e.1]

theorem l1Get_del (s : State) (a wa c wb : Nat) :
    l1Get (l1Del s a wa) c wb = if c = a ∧ wb = wa then none else l1Get s c wb := by
  unfold l1Get l1Del
  by_cases hc : c = a
  · subst hc
    rw [modCluster_get, mget_mdel]
    by_cases hw : wb = wa <;> simp [hw]
  · rw [modCluster_get_of_ne _ _ hc, if_neg fun e => hc e.1]

theorem mem_of_mget {α : Type} {m : SMap α} {k : Nat} {v : α} (h : mget m k = some v) : ∃ e ∈ m, e.1 = k := by
  induction m with
  | nil => simp at h
  | cons e m ih =>
    obtain ⟨a, x⟩ := e
    simp only [mget] at h
    split at h
    · next he => exact ⟨(a, x), List.mem_cons_self, by simpa using he⟩
    · obtain ⟨e, he, hk⟩ := ih h
      exact ⟨e, List.mem_cons_of_mem _ he, hk⟩

theorem mem_mset {α : Type} {m : SMap α} {k : Nat} {v : α} {e : Nat × α} (h : e ∈ mset m k v) : e.1 = k ∨ e ∈ m := by
  induction m with
  | nil => simp only [mset, List.mem_singleton] at h; exact .inl (by rw [h])
  | cons a m ih =>
    obtain ⟨b, x⟩ := a
    simp only [mset] at h
    split at h
    · rcases List.mem_cons.mp h with h | h
      · exact .inl (by rw [h])
      · exact .inr h
    · split at h
      · rcases List.mem_cons.mp h with h | h
        · exact .inl (by rw [h])
        · exact .inr (List.mem_cons_of_mem _ h)
      · rcases List.mem_cons.mp h with h | h
        · exact .inr (by rw [h]; exact List.mem_cons_self)
        · exact (ih h).imp id (List.mem_cons_of_mem _)

/-- A change of the L1 of one cluster. -/
theorem modL1_memStep (s : State) (a : Nat) (g : SMap L1Word → SMap L1Word)
    (hd : ∀ wa i v, mget (g (s.cluster a).l1) wa = some v → i < 4 → ¬ p (4 * wa + i) → v.dirty.getLsbD i = true →
      ∃ v', mget (s.cluster a).l1 wa = some v' ∧ v'.dirty.getLsbD i = true ∧ byteOf v'.val i = byteOf v.val i)
    (hl : ∀ wa, ¬ w wa → ¬ (a = cl ∧ f wa ∧ mget (s.cluster a).l1 wa = none) → mget (g (s.cluster a).l1) wa = mget (s.cluster a).l1 wa)
    (hn : a = cl → ∀ e ∈ g (s.cluster a).l1, e.1 / 32 ∈ heldLines s cl ∨ e.1 / 32 ∈ L) :
    MemStep cl p w f L s (modCluster s a fun c => { c with l1 := g c.l1 }) := by
  have hg : ∀ c, (modCluster s a fun c => { c with l1 := g c.l1 }).cluster c =
      if c = a then { s.cluster a with l1 := g (s.cluster a).l1 } else s.cluster c := by
    intro c
    by_cases hc : c = a
    · subst hc; rw [modCluster_get, if_pos rfl]
    · rw [modCluster_get_of_ne _ _ hc, if_neg hc]
  refine ⟨⟨fun _ _ h => h, fun _ _ _ => rfl, fun _ _ _ _ => rfl, fun _ _ _ _ => .inl rfl, ?_,
      fun _ _ => rfl, ?_, ⟨rfl, rfl⟩, fun _ => rfl, fun _ _ => rfl, fun _ => rfl, ?_,
      ⟨rfl, rfl, rfl, rfl, rfl⟩, rfl, ⟨rfl, rfl⟩⟩, rfl, ?_, fun _ h => h, rfl⟩
  · intro c wa i v h hi hp hv
    unfold l1Get at h ⊢
    rw [hg] at h
    split at h
    · next hc => subst hc; exact hd wa i v h hi hp hv
    · exact ⟨v, h, hv, rfl⟩
  · intro c wa h1 h2
    unfold l1Get at h2 ⊢
    rw [hg]
    split
    · next hc => subst hc; exact hl wa h1 h2
    · rfl
  · intro c
    rw [hg]
    split
    · next hc => subst hc; rfl
    · rfl
  · intro n h
    unfold heldLines at h
    rw [hg] at h
    split at h
    · next hc =>
      obtain ⟨e, he, rfl⟩ := List.mem_map.mp h
      exact hn hc.symm e he
    · exact .inl h

/-- A word of an L1 is set: present already, or of a line of `L`. -/
theorem l1Set_memStep (s : State) (a wa : Nat) (v : L1Word) (hw : w wa) (hn : (l1Get s a wa).isSome = true ∨ wa / 32 ∈ L)
    (hd : ∀ i, i < 4 → ¬ p (4 * wa + i) → v.dirty.getLsbD i = true →
      ∃ v', l1Get s a wa = some v' ∧ v'.dirty.getLsbD i = true ∧ byteOf v'.val i = byteOf v.val i) :
    MemStep cl p w f L s (l1Set s a wa v) := by
  refine modL1_memStep s a (fun l => mset l wa v) ?_ ?_ ?_
  · intro wb i v' h hi hp hv
    rw [mget_mset] at h
    split at h
    · next hb => cases h; subst hb; exact hd i hi hp hv
    · exact ⟨v', h, hv, rfl⟩
  · intro wb h _
    rw [mget_mset, if_neg (by rintro rfl; exact h hw)]
  · rintro rfl e he
    rcases mem_mset he with h | h
    · rcases hn with hn | hn
      · obtain ⟨v', hv⟩ := Option.isSome_iff_exists.mp hn
        obtain ⟨e', he', hk⟩ := mem_of_mget hv
        exact .inl (List.mem_map.mpr ⟨e', he', by rw [hk, h]⟩)
      · exact .inr (h ▸ hn)
    · exact .inl (List.mem_map.mpr ⟨e, h, rfl⟩)

theorem l1Del_memStep (s : State) (a wa : Nat) (hw : w wa) : MemStep cl p w f L s (l1Del s a wa) := by
  refine modL1_memStep s a (fun l => mdel l wa) ?_ ?_ ?_
  · intro wb i v h _ _ hv
    rw [mget_mdel] at h
    split at h
    · simp at h
    · exact ⟨v, h, hv, rfl⟩
  · intro wb h _
    rw [mget_mdel, if_neg (by rintro rfl; exact h hw)]
  · rintro rfl e he
    exact .inl (List.mem_map.mpr ⟨e, (List.mem_filter.mp he).1, rfl⟩)

theorem l1Set_keeps (s : State) (a wa : Nat) (v : L1Word)
    (h : ∀ v', l1Get s a wa = some v' → ∀ i, i < 4 → ¬ p (4 * wa + i) → byteOf v.val i = byteOf v'.val i) :
    KeepsCopies p s (l1Set s a wa v) := by
  intro c wb v' e
  rw [l1Get_set]
  split
  · next hc => obtain ⟨rfl, rfl⟩ := hc; exact ⟨v, rfl, h v' e⟩
  · exact ⟨v', e, fun _ _ _ => rfl⟩

/-! ### Writing back, registering, tagging -/

/-- A write at home of bytes that `p` and `w` select. -/
theorem homeWrite_memStep (s : State) (ma : Nat) (bs : List Byte) (poison : Bool)
    (hp : ∀ a, ma ≤ a → a < ma + bs.length → p a ∧ w (a / 4)) : MemStep cl p w f L s (homeWrite s ma bs poison) := by
  obtain ⟨⟨m, e, po, b, h1⟩, h2, h3, h4, h5⟩ := homeWrite_spec s ma bs poison
  have hl : ∀ c wa, l1Get (homeWrite s ma bs poison) c wa = l1Get s c wa := by intro c wa; rw [h1]; rfl
  refine ⟨⟨?_, ?_, ?_, ?_, ?_, ?_, ?_, ?_, ?_, ?_, ?_, ?_, ?_, ?_, ?_⟩, by rw [h1], ?_, ?_, by rw [h1]⟩
  · intro n key h; rw [h1]; exact h
  · intro a key h
    refine h2 a key fun hb => ?_
    obtain ⟨c, c1, c2, c3⟩ := mem_blocksOf.mp hb
    exact h _ (hp c c1 c2).2 (by omega)
  · exact fun a key h n => h3 a key h fun hr => n (hp a hr.1 hr.2).2
  · exact fun a key h n => .inl (h3 a key h fun hr => n (hp a hr.1 hr.2).1)
  · exact fun c wa i v h _ _ hd => ⟨v, (hl c wa) ▸ h, hd, rfl⟩
  · exact fun a n => h5 a fun hr => n (hp a hr.1 hr.2).2
  · exact fun c wa _ _ => hl c wa
  · rw [h1]; exact ⟨rfl, rfl⟩
  · intro k; rw [h1]
  · intro k c; rw [h1]; rfl
  · intro c; rw [h1]; rfl
  · intro c; rw [h1]; rfl
  · rw [h1]; exact ⟨rfl, rfl, rfl, rfl, rfl⟩
  · rw [h1]
  · rw [h1]; exact ⟨rfl, rfl⟩
  · intro n h; unfold heldLines State.cluster at *; rw [h1] at h; exact .inl h
  · intro q h; rw [h1] at h; exact h

/-- The dirty bytes of a word written home, one by one. -/
theorem mergeFold_spec (wa : Nat) (v : L1Word) (is : List Nat) (hi : ∀ i ∈ is, i < 4) (s : State) :
    let t := is.foldl (fun s i => if v.dirty.getLsbD i then homeWrite s (4 * wa + i) [byteOf v.val i] (v.poison.getLsbD i) else s) s
    (∃ m e po b, t = { s with mem := m, enc := e, poison := po, host := { s.host with backInv := b } }) ∧
    (∀ a key, a / 16 ≠ wa / 4 → homeByte t a key = homeByte s a key) ∧
    (∀ a key, mget s.tags (a / 65536) = some key → a / 4 ≠ wa → homeByte t a key = homeByte s a key) ∧
    (∀ a key, mget s.tags (a / 65536) = some key → a / 4 = wa → homeByte t a key = homeByte s a key ∨
      (v.dirty.getLsbD (a % 4) = true ∧ homeByte t a key = byteOf v.val (a % 4))) ∧
    ∀ a, a / 4 ≠ wa → isPoison t a = isPoison s a := by
  induction is generalizing s with
  | nil => exact ⟨⟨s.mem, s.enc, s.poison, s.host.backInv, rfl⟩, fun _ _ _ => rfl, fun _ _ _ _ => rfl, fun _ _ _ _ => .inl rfl, fun _ _ => rfl⟩
  | cons i is ih =>
    intro t
    have ih := ih fun j hj => hi j (List.mem_cons_of_mem _ hj)
    have hi4 := hi i List.mem_cons_self
    by_cases hd : v.dirty.getLsbD i = true
    · obtain ⟨⟨m, e, po, b, h1⟩, h2, h3, h4, h5⟩ := homeWrite_spec s (4 * wa + i) [byteOf v.val i] (v.poison.getLsbD i)
      have ht : t = is.foldl (fun s i => if v.dirty.getLsbD i then homeWrite s (4 * wa + i) [byteOf v.val i] (v.poison.getLsbD i) else s)
          (homeWrite s (4 * wa + i) [byteOf v.val i] (v.poison.getLsbD i)) := by
        show List.foldl _ _ (i :: is) = _
        rw [List.foldl_cons, if_pos hd]
      generalize homeWrite s (4 * wa + i) [byteOf v.val i] (v.poison.getLsbD i) = s1 at h1 h2 h3 h4 h5 ht
      obtain ⟨⟨m', e', po', b', k1⟩, k2, k3, k4, k5⟩ := ih s1
      rw [← ht] at k1 k2 k3 k4 k5
      have htag : s1.tags = s.tags := by rw [h1]
      rw [htag] at k3 k4
      simp only [List.length_singleton] at h2 h3 h4 h5
      refine ⟨⟨m', e', po', b', by rw [k1, h1]⟩, ?_, ?_, ?_, ?_⟩
      · intro a key ha
        refine (k2 a key ha).trans (h2 a key fun hb => ?_)
        obtain ⟨c, c1, c2, c3⟩ := mem_blocksOf.mp hb
        omega
      · exact fun a key hk ha => (k3 a key hk ha).trans (h3 a key hk (by omega))
      · intro a key hk ha
        rcases k4 a key hk ha with g | ⟨g1, g2⟩
        · by_cases hai : a = 4 * wa + i
          · right
            have hm : a % 4 = i := by omega
            rw [hm]
            refine ⟨hd, g.trans ?_⟩
            rw [h4 a key hk (by omega) (by omega), hai, Nat.sub_self]; rfl
          · exact .inl (g.trans (h3 a key hk (by omega)))
        · exact .inr ⟨g1, g2⟩
      · exact fun a ha => (k5 a ha).trans (h5 a (by omega))
    · have ht : t = is.foldl (fun s i => if v.dirty.getLsbD i then homeWrite s (4 * wa + i) [byteOf v.val i] (v.poison.getLsbD i) else s) s := by
        show List.foldl _ _ (i :: is) = _
        rw [List.foldl_cons, if_neg hd]
      rw [ht]
      exact ih s

theorem mergeDirty_memStep (s : State) (c wa : Nat) (hw : w wa) : MemStep cl p w f L s (mergeDirty s c wa) := by
  unfold mergeDirty
  cases hv : l1Get s c wa with
  | none => exact MemStep.refl s
  | some v =>
    dsimp only
    split
    · exact MemStep.refl s
    · obtain ⟨⟨m, e, po, b, h1⟩, h2, h3, h4, h5⟩ := mergeFold_spec wa v (List.range 4) (fun i h => List.mem_range.mp h) s
      generalize (List.range 4).foldl (fun s i => if v.dirty.getLsbD i then homeWrite s (4 * wa + i) [byteOf v.val i] (v.poison.getLsbD i) else s) s = u at *
      have hl : ∀ c wa, l1Get u c wa = l1Get s c wa := by intro c wa; rw [h1]; rfl
      refine MemStep.trans (t := u) ?_ (l1Set_memStep u c wa _ hw (.inl (by rw [hl, hv]; rfl)) fun i _ _ hd => absurd hd (by simp))
      refine ⟨⟨?_, ?_, ?_, ?_, ?_, ?_, ?_, ?_, ?_, ?_, ?_, ?_, ?_, ?_, ?_⟩, by rw [h1], ?_, ?_, by rw [h1]⟩
      · intro n key h; rw [h1]; exact h
      · exact fun a key h => h2 a key fun e => h wa hw e.symm
      · exact fun a key h n => h3 a key h fun e => n (e ▸ hw)
      · intro a key h _
        by_cases ha : a / 4 = wa
        · rcases h4 a key h ha with g | ⟨g1, g2⟩
          · exact .inl g
          · exact .inr ⟨c, v, by rw [ha]; exact hv, g1, g2⟩
        · exact .inl (h3 a key h ha)
      · exact fun c wa i v h _ _ hd => ⟨v, (hl c wa) ▸ h, hd, rfl⟩
      · exact fun a n => h5 a fun e => n (e ▸ hw)
      · exact fun c wa _ _ => hl c wa
      · rw [h1]; exact ⟨rfl, rfl⟩
      · intro k; rw [h1]
      · intro k c; rw [h1]; rfl
      · intro c; rw [h1]; rfl
      · intro c; rw [h1]; rfl
      · rw [h1]; exact ⟨rfl, rfl, rfl, rfl, rfl⟩
      · rw [h1]
      · rw [h1]; exact ⟨rfl, rfl⟩
      · intro n h; unfold heldLines State.cluster at *; rw [h1] at h; exact .inl h
      · intro q h; rw [h1] at h; exact h

/-- What the L1s hold after a write-back: the word clean, every other word as it was. -/
theorem mergeDirty_l1 (s : State) (c wa : Nat) (c' wb : Nat) :
    l1Get (mergeDirty s c wa) c' wb = if c' = c ∧ wb = wa then (l1Get s c wa).map fun v => { v with dirty := 0 } else l1Get s c' wb := by
  unfold mergeDirty
  cases hv : l1Get s c wa with
  | none =>
    dsimp only
    split
    · next h => rw [h.1, h.2, hv]; rfl
    · rfl
  | some v =>
    dsimp only
    split
    · next hd =>
      split
      · next h =>
        rw [h.1, h.2, hv]
        have : v = { v with dirty := 0 } := by rw [← hd]
        rw [Option.map_some, ← this]
      · rfl
    · obtain ⟨⟨m, e, po, b, h1⟩, _⟩ := mergeFold_spec wa v (List.range 4) (fun i h => List.mem_range.mp h) s
      rw [l1Get_set]
      split
      · rfl
      · rw [h1]; rfl

theorem mergeDirty_keeps (s : State) (c wa : Nat) : KeepsCopies p s (mergeDirty s c wa) := by
  intro c' wb v h
  rw [mergeDirty_l1]
  split
  · next e => rw [← e.1, ← e.2, h]; exact ⟨_, rfl, fun _ _ _ => rfl⟩
  · exact ⟨v, h, fun _ _ _ => rfl⟩

theorem payBack_memStep (s : State) (c wa : Nat) : MemStep cl p w f L s (payBack s c wa) := by
  unfold payBack
  split
  · split
    · exact MemStep.refl s
    · exact homeAccess_memStep ..
  · exact MemStep.refl s

theorem payBack_l1 (s : State) (c wa c' wb : Nat) : l1Get (payBack s c wa) c' wb = l1Get s c' wb := by
  unfold payBack
  split
  · split
    · rfl
    · exact homeAccess_l1 ..
  · rfl

/-- A change of a word's owned bit, or of what `p` selects. -/
theorem ownedSet_memStep (s : State) (c wa : Nat) (v : L1Word) (b : Bool) (hw : w wa) (hv : l1Get s c wa = some v) :
    MemStep cl p w f L s (l1Set s c wa { v with owned := b }) :=
  l1Set_memStep s c wa _ hw (.inl (by rw [hv]; rfl)) fun i _ _ hd => ⟨v, hv, hd, rfl⟩

theorem ownedSet_keeps (s : State) (c wa : Nat) (v : L1Word) (b : Bool) (hv : l1Get s c wa = some v) :
    KeepsCopies p s (l1Set s c wa { v with owned := b }) :=
  l1Set_keeps s c wa _ fun v' h i _ _ => by rw [hv] at h; cases h; rfl

theorem owner_memStep (s : State) (o : SMap Nat) : MemStep cl p w f L s { s with owner := o } :=
  memStep_aside s o s.stores s.fresh s.nextId fun _ h => h

theorem dropOwner_memStep (s : State) (wa : Nat) (hw : w wa) : MemStep cl p w f L s (dropOwner s wa) := by
  unfold dropOwner
  cases mget s.owner wa with
  | none => exact MemStep.refl s
  | some o =>
    dsimp only
    refine (payBack_memStep s o wa).trans ((mergeDirty_memStep _ o wa hw).trans (MemStep.trans ?_ (owner_memStep ..)))
    split
    · next v hv => exact ownedSet_memStep _ o wa v false hw hv
    · exact MemStep.refl _

theorem dropOwner_keeps (s : State) (wa : Nat) : KeepsCopies p s (dropOwner s wa) := by
  unfold dropOwner
  cases mget s.owner wa with
  | none => exact KeepsCopies.refl s
  | some o =>
    dsimp only
    refine (keepsCopies_of_l1 (payBack_l1 s o wa)).trans ((mergeDirty_keeps _ o wa).trans ?_)
    split
    · next v hv => exact (ownedSet_keeps _ o wa v false hv).trans (keepsCopies_of_l1 fun _ _ => rfl)
    · exact keepsCopies_of_l1 fun _ _ => rfl

theorem register_memStep (s : State) (c wa : Nat) (hw : w wa) : MemStep cl p w f L s (register s c wa) := by
  unfold register
  dsimp only
  refine MemStep.trans (t := if (regsOf s c wa).isEmpty then s
    else { s with stores := s.stores.filter fun p => !(p.reg && p.cluster = c && p.ma / 4 = wa) }) ?_ ?_
  · split
    · exact MemStep.refl s
    · exact memStep_aside s s.owner _ s.fresh s.nextId fun q h => (List.mem_filter.mp h).1
  · generalize (if (regsOf s c wa).isEmpty then s
      else { s with stores := s.stores.filter fun p => !(p.reg && p.cluster = c && p.ma / 4 = wa) }) = u
    split
    · exact MemStep.refl _
    · refine (dropOwner_memStep _ wa hw).trans ((owner_memStep _ (mset (dropOwner u wa).owner wa c)).trans ?_)
      split
      · next v hv => exact ownedSet_memStep _ c wa v true hw hv
      · exact MemStep.refl _

theorem register_keeps (s : State) (c wa : Nat) : KeepsCopies p s (register s c wa) := by
  unfold register
  dsimp only
  refine KeepsCopies.trans (t := if (regsOf s c wa).isEmpty then s
    else { s with stores := s.stores.filter fun p => !(p.reg && p.cluster = c && p.ma / 4 = wa) }) ?_ ?_
  · split
    · exact KeepsCopies.refl s
    · exact keepsCopies_of_l1 fun _ _ => rfl
  · generalize (if (regsOf s c wa).isEmpty then s
      else { s with stores := s.stores.filter fun p => !(p.reg && p.cluster = c && p.ma / 4 = wa) }) = u
    split
    · exact KeepsCopies.refl _
    · refine (dropOwner_keeps _ wa).trans (KeepsCopies.trans (keepsCopies_of_l1 fun _ _ => rfl) ?_)
      split
      · next v hv => exact ownedSet_keeps _ c wa v true hv
      · exact KeepsCopies.refl _

theorem writeBack_memStep (s : State) (c wa : Nat) (hw : w wa) : MemStep cl p w f L s (writeBack s c wa) := by
  unfold writeBack writeBack'
  split
  · split
    · exact MemStep.refl s
    · refine (payBack_memStep s c wa).trans ?_
      split
      · split
        · exact MemStep.refl _
        · exact (register_memStep _ c wa hw).trans (mergeDirty_memStep _ c wa hw)
      · exact MemStep.refl _
  · exact MemStep.refl s

theorem writeBack_keeps (s : State) (c wa : Nat) : KeepsCopies p s (writeBack s c wa) := by
  unfold writeBack writeBack'
  split
  · split
    · exact KeepsCopies.refl s
    · refine (keepsCopies_of_l1 (payBack_l1 s c wa)).trans ?_
      split
      · split
        · exact KeepsCopies.refl _
        · exact (register_keeps _ c wa).trans (mergeDirty_keeps _ c wa)
      · exact KeepsCopies.refl _
  · exact KeepsCopies.refl s

theorem tagFrame_memStep (s : State) (ma : Nat) (key : Byte) : MemStep cl p w f L s (tagFrame s ma key) := by
  unfold tagFrame
  split
  · exact MemStep.refl s
  · next h =>
    refine ⟨⟨fun n k e => ?_, fun _ _ _ => rfl, fun _ _ _ _ => rfl, fun _ _ _ _ => .inl rfl, fun _ _ _ v h _ _ hd => ⟨v, h, hd, rfl⟩,
      fun _ _ => rfl, fun _ _ _ _ => rfl, ⟨rfl, rfl⟩, fun _ => rfl, fun _ _ => rfl, fun _ => rfl, fun _ => rfl,
      ⟨rfl, rfl, rfl, rfl, rfl⟩, rfl, ⟨rfl, rfl⟩⟩, rfl, fun _ h => .inl h, fun _ h => h, rfl⟩
    show mget (mset s.tags (ma / 65536) key) n = some k
    rw [mget_mset_of_ne _ _ (by rintro rfl; rw [h] at e; cases e)]
    exact e

theorem tagFrame_keeps (s : State) (ma : Nat) (key : Byte) : KeepsCopies p s (tagFrame s ma key) := by
  unfold tagFrame
  split <;> exact keepsCopies_of_l1 fun _ _ => rfl

/-! ### Lines and room -/

theorem nodup_eraseDups (l : List Nat) : l.eraseDups.Nodup := by
  induction h : l.length using Nat.strong_induction_on generalizing l with
  | _ n ih =>
    subst h
    cases l with
    | nil => exact List.nodup_nil
    | cons a l =>
      rw [List.eraseDups_cons, List.nodup_cons]
      refine ⟨?_, ih _ (Nat.lt_succ_of_le (List.length_filter_le _ l)) _ rfl⟩
      simp [List.mem_eraseDups]

theorem roomFor_free {c la : Nat} (h : RoomFor s c L) (hl : la ∈ L) (hn : la ∉ heldLines s c) :
    (heldLines s c).eraseDups.length < l1Lines := by
  have h1 : (la :: (heldLines s c).eraseDups).length ≤ (heldLines s c ++ L).eraseDups.length := by
    refine List.Subperm.length_le (List.Nodup.subperm ?_ ?_)
    · exact List.nodup_cons.mpr ⟨by rwa [List.mem_eraseDups], nodup_eraseDups _⟩
    · intro e he
      rw [List.mem_eraseDups, List.mem_append]
      rcases List.mem_cons.mp he with he | he
      · exact .inr (he ▸ hl)
      · exact .inl (List.mem_eraseDups.mp he)
  have := Nat.le_trans h1 h
  simpa using this

theorem makeRoom_eq {c la : Nat} (h : RoomFor s c L) (hl : la ∈ L) : makeRoom s c la = s := by
  unfold makeRoom
  dsimp only
  split
  · rfl
  · rw [if_pos]
    by_cases hn : la ∈ heldLines s c
    · simp only [Bool.or_eq_true, List.contains_iff_mem]
      exact .inr (List.mem_eraseDups.mpr hn)
    · simp only [Bool.or_eq_true, decide_eq_true_eq]
      exact .inl (roomFor_free h hl hn)

theorem roomFor_mono (h : RoomFor s cl L) (k : ∀ n ∈ heldLines t cl, n ∈ heldLines s cl ∨ n ∈ L) : RoomFor t cl L := by
  refine Nat.le_trans (List.Subperm.length_le (List.Nodup.subperm (nodup_eraseDups _) ?_)) h
  intro e he
  rw [List.mem_eraseDups, List.mem_append] at he ⊢
  rcases he with he | he
  · exact k e he
  · exact .inr he

theorem MemStep.room (h : MemStep cl p w f L s t) (r : RoomFor s cl L) : RoomFor t cl L := roomFor_mono r h.lines

/-- A fold of steps while the L1 keeps room. -/
theorem foldl_room {α : Type} (g : State → α → State) (l : List α)
    (h : ∀ s, RoomFor s cl L → ∀ e ∈ l, MemStep cl p w f L s (g s e)) (s : State) (r : RoomFor s cl L) :
    MemStep cl p w f L s (l.foldl g s) := by
  induction l generalizing s with
  | nil => exact MemStep.refl s
  | cons e l ih =>
    have h1 := h s r e List.mem_cons_self
    exact h1.trans (ih (fun s r e he => h s r e (List.mem_cons_of_mem _ he)) _ (h1.room r))

theorem foldl_roomKeeps {α : Type} (g : State → α → State) (l : List α)
    (h : ∀ s, RoomFor s cl L → ∀ e ∈ l, MemStep cl p w f L s (g s e) ∧ KeepsCopies p s (g s e)) (s : State) (r : RoomFor s cl L) :
    KeepsCopies p s (l.foldl g s) := by
  induction l generalizing s with
  | nil => exact KeepsCopies.refl s
  | cons e l ih =>
    have h1 := h s r e List.mem_cons_self
    exact h1.2.trans (ih (fun s r e he => h s r e (List.mem_cons_of_mem _ he)) _ (h1.1.room r))

theorem fetchLine_memStep (s : State) (la : Nat) (key : Byte) (hl : la ∈ L) (r : RoomFor s cl L)
    (hf : ∀ wa, wa / 32 = la → f wa) : MemStep cl p w f L s (fetchLine s cl la key) := by
  unfold fetchLine
  rw [makeRoom_eq r hl]
  have key' : ∀ (is : List Nat), (∀ i ∈ is, i < 32) → ∀ l : SMap L1Word,
      let g := is.foldl (fun l i => match mget l (32 * la + i) with | some _ => l | none => mset l (32 * la + i) (homeWord s (32 * la + i) key)) l
      (∀ wa v, mget g wa = some v → mget l wa = some v ∨ v.dirty = 0) ∧
      (∀ wa, ¬ (wa / 32 = la ∧ mget l wa = none) → mget g wa = mget l wa) ∧
      ∀ e ∈ g, e ∈ l ∨ e.1 / 32 = la := by
    intro is
    induction is with
    | nil => intro _ l; exact ⟨fun _ _ h => .inl h, fun _ _ => rfl, fun _ h => .inl h⟩
    | cons i is ih =>
      intro hi l g
      have hi32 := hi i List.mem_cons_self
      have ih := ih fun j hj => hi j (List.mem_cons_of_mem _ hj)
      cases hm : mget l (32 * la + i) with
      | some v =>
        have : g = is.foldl (fun l i => match mget l (32 * la + i) with | some _ => l | none => mset l (32 * la + i) (homeWord s (32 * la + i) key)) l := by
          show List.foldl _ _ (i :: is) = _
          rw [List.foldl_cons, hm]
        rw [this]; exact ih l
      | none =>
        have : g = is.foldl (fun l i => match mget l (32 * la + i) with | some _ => l | none => mset l (32 * la + i) (homeWord s (32 * la + i) key))
            (mset l (32 * la + i) (homeWord s (32 * la + i) key)) := by
          show List.foldl _ _ (i :: is) = _
          rw [List.foldl_cons, hm]
        rw [this]
        obtain ⟨k1, k2, k3⟩ := ih (mset l (32 * la + i) (homeWord s (32 * la + i) key))
        refine ⟨fun wa v h => ?_, fun wa h => ?_, fun e h => ?_⟩
        · rcases k1 wa v h with h | h
          · rw [mget_mset] at h
            split at h
            · cases h; exact .inr rfl
            · exact .inl h
          · exact .inr h
        · have hne : wa ≠ 32 * la + i := by rintro rfl; exact h ⟨by omega, hm⟩
          rw [k2 wa (by rwa [mget_mset_of_ne _ _ hne]), mget_mset_of_ne _ _ hne]
        · rcases k3 e h with h | h
          · rcases mem_mset h with h | h
            · exact .inr (by omega)
            · exact .inl h
          · exact .inr h
  obtain ⟨k1, k2, k3⟩ := key' (List.range 32) (fun i h => List.mem_range.mp h) (s.cluster cl).l1
  refine modL1_memStep s cl (fun l => (List.range 32).foldl (fun l i => match mget l (32 * la + i) with
    | some _ => l | none => mset l (32 * la + i) (homeWord s (32 * la + i) key)) l) ?_ ?_ ?_
  · intro wa i v h _ _ hd
    rcases k1 wa v h with h | h
    · exact ⟨v, h, hd, rfl⟩
    · rw [h] at hd; simp at hd
  · intro wa _ h
    exact k2 wa fun e => h ⟨rfl, hf wa e.1, e.2⟩
  · intro _ e he
    rcases k3 e he with h | h
    · exact .inl (List.mem_map.mpr ⟨e, h, rfl⟩)
    · exact .inr (h ▸ hl)

/-! ### Bytes of a word -/

theorem byteOf_setByte (v : Word32) (i j : Nat) (b : Byte) (hi : i < 4) (hj : j < 4) :
    byteOf (setByte v i b) j = if j = i then b else byteOf v j := by
  apply BitVec.eq_of_getLsbD_eq
  intro k hk
  unfold byteOf setByte
  have h255 : ∀ m, (0xFF#32 : BitVec 32).getLsbD m = decide (m < 8) := by
    intro m
    by_cases hm : m < 32
    · revert m; decide
    · rw [BitVec.getLsbD_of_ge _ _ (by omega)]; simp; omega
  simp only [BitVec.getLsbD_extractLsb', BitVec.getLsbD_or, BitVec.getLsbD_and, BitVec.getLsbD_not, BitVec.getLsbD_shiftLeft,
    BitVec.getLsbD_setWidth, h255]
  by_cases h : j = i
  · subst h
    have h1 : 8 * j + k < 32 := by omega
    have h2 : ¬ 8 * j + k < 8 * j := by omega
    simp [hk, h1, show k < 32 by omega]
  · rw [if_neg h]
    by_cases h3 : 8 * j + k < 8 * i
    · simp [hk, h3, show 8 * j + k < 32 by omega]
    · have h4 : ¬ 8 * j + k - 8 * i < 8 := by omega
      simp [hk, h3, h4, show 8 * j + k < 32 by omega, BitVec.getLsbD_of_ge b _ (show 8 ≤ 8 * j + k - 8 * i by omega)]

theorem dirty_or (d : BitVec 4) (i j : Nat) (hi : i < 4) (hj : j < 4) : (d ||| 1#4 <<< i).getLsbD j = (d.getLsbD j || decide (j = i)) := by
  have : ∀ d : BitVec 4, ∀ i < 4, ∀ j < 4, (d ||| 1#4 <<< i).getLsbD j = (d.getLsbD j || decide (j = i)) := by decide
  exact this d i hi j hj

/-- Bytes put into a word at their places. -/
theorem putBytes_spec (ma wa : Nat) (bs : List Byte) (poison mark : Bool) (is : List Nat) (hi : ∀ i ∈ is, i < 4) (v : L1Word) :
    let g := is.foldl (fun (v : L1Word) i =>
      let a := 4 * wa + i
      if ma ≤ a && a < ma + bs.length then
        let m : BitVec 4 := 1#4 <<< i
        { v with
          val := setByte v.val i (bs.getD (a - ma) 0)
          dirty := if mark then v.dirty ||| m else v.dirty
          poison := if poison then v.poison ||| m else v.poison &&& ~~~m }
      else v) v
    ∀ j, j < 4 → ¬ (ma ≤ 4 * wa + j ∧ 4 * wa + j < ma + bs.length) →
      byteOf g.val j = byteOf v.val j ∧ g.dirty.getLsbD j = v.dirty.getLsbD j := by
  induction is generalizing v with
  | nil => exact fun j _ _ => ⟨rfl, rfl⟩
  | cons i is ih =>
    intro g j hj hn
    have ih := ih fun k hk => hi k (List.mem_cons_of_mem _ hk)
    have hi4 := hi i List.mem_cons_self
    obtain ⟨k1, k2⟩ := ih (if decide (ma ≤ 4 * wa + i) && decide (4 * wa + i < ma + bs.length) then
        { v with
          val := setByte v.val i (bs.getD (4 * wa + i - ma) 0)
          dirty := if mark then v.dirty ||| 1#4 <<< i else v.dirty
          poison := if poison then v.poison ||| 1#4 <<< i else v.poison &&& ~~~(1#4 <<< i) }
      else v) j hj hn
    refine ⟨k1.trans ?_, k2.trans ?_⟩
    · split
      · next h =>
        have : j ≠ i := by rintro rfl; simp only [Bool.and_eq_true, decide_eq_true_eq] at h; exact hn h
        dsimp only
        rw [byteOf_setByte _ _ _ _ hi4 hj, if_neg this]
      · rfl
    · split
      · next h =>
        have : j ≠ i := by rintro rfl; simp only [Bool.and_eq_true, decide_eq_true_eq] at h; exact hn h
        dsimp only
        cases mark
        · rfl
        · simp [dirty_or _ _ _ hi4 hj, this]
      · rfl

/-! ### Stores -/

/-- The bytes of a store are among those that `p` selects, their words among those of `w`, and their lines among `L`. -/
def Within (p w : Nat → Prop) (L : List Nat) (ma n : Nat) : Prop :=
  (∀ a, ma ≤ a → a < ma + n → p a) ∧ (∀ wa ∈ wordsOf ma n, w wa) ∧ ∀ wa ∈ wordsOf ma n, wa / 32 ∈ L

/-- A word of a plain store, once the L1 has room for it: registered or not, with the bytes stored. -/
theorem storeWord_step (s : State) (ctx ma : Nat) (bs : List Byte) (key : Byte) (poison reg : Bool) (wa : Nat) (hw : w wa) (hl : wa / 32 ∈ L)
    (hp : ∀ a, ma ≤ a → a < ma + bs.length → p a) (r : RoomFor s cl L) :
    let g : State := (fun (s : State) (wa : Nat) =>
      let s := if (l1Get s cl wa).isSome then s else makeRoom s cl (wa / 32)
      let s := if reg then register s cl wa else s
      let v := (l1Get s cl wa).getD (homeWord s wa key)
      let v := (List.range 4).foldl (fun (v : L1Word) i =>
        let a := 4 * wa + i
        if ma ≤ a && a < ma + bs.length then
          let m : BitVec 4 := 1#4 <<< i
          { v with
            val := setByte v.val i (bs.getD (a - ma) 0)
            dirty := v.dirty ||| m
            poison := if poison then v.poison ||| m else v.poison &&& ~~~m }
        else v) v
      l1Set s cl wa { v with owned := mget s.owner wa = some cl, ctx := ctx }) s wa
    MemStep cl p w f L s g ∧ KeepsCopies p s g := by
  intro g
  have h0 : (if (l1Get s cl wa).isSome then s else makeRoom s cl (wa / 32)) = s := by rw [makeRoom_eq r hl, ite_self]
  have h1 : MemStep cl p w f L s (if reg then register s cl wa else s) ∧ KeepsCopies p s (if reg then register s cl wa else s) := by
    split
    · exact ⟨register_memStep s cl wa hw, register_keeps s cl wa⟩
    · exact ⟨MemStep.refl s, KeepsCopies.refl s⟩
  have hg : ∃ v : L1Word, g = l1Set (if reg then register s cl wa else s) cl wa v ∧
      ∀ j, j < 4 → ¬ (ma ≤ 4 * wa + j ∧ 4 * wa + j < ma + bs.length) →
        let v0 := (l1Get (if reg then register s cl wa else s) cl wa).getD (homeWord (if reg then register s cl wa else s) wa key)
        byteOf v.val j = byteOf v0.val j ∧ v.dirty.getLsbD j = v0.dirty.getLsbD j := by
    have hs := putBytes_spec ma wa bs poison true (List.range 4) (fun i h => List.mem_range.mp h)
      ((l1Get (if reg then register s cl wa else s) cl wa).getD (homeWord (if reg then register s cl wa else s) wa key))
    refine ⟨_, by show _ = _; dsimp only [g]; rw [h0], ?_⟩
    exact hs
  obtain ⟨v, hg, hv⟩ := hg
  rw [hg]
  generalize (if reg then register s cl wa else s) = u at h1 hv
  refine ⟨h1.1.trans (l1Set_memStep u cl wa v hw (.inr hl) ?_), h1.2.trans (l1Set_keeps u cl wa v ?_)⟩
  · intro i hi hpi hd
    obtain ⟨e1, e2⟩ := hv i hi fun h => hpi (hp _ h.1 h.2)
    cases hu : l1Get u cl wa with
    | none =>
      rw [hu] at e2
      rw [e2] at hd
      simp [homeWord] at hd
    | some v0 =>
      rw [hu] at e1 e2
      exact ⟨v0, rfl, e2 ▸ hd, e1.symm⟩
  · intro v' hu i hi hpi
    obtain ⟨e1, _⟩ := hv i hi fun h => hpi (hp _ h.1 h.2)
    rw [hu] at e1
    exact e1

theorem storePlain_step (s : State) (ctx ma : Nat) (bs : List Byte) (key : Byte) (poison reg : Bool) (h : Within p w L ma bs.length)
    (r : RoomFor s cl L) : MemStep cl p w f L s (storePlain s cl ctx ma bs key poison reg) ∧
      KeepsCopies p s (storePlain s cl ctx ma bs key poison reg) := by
  unfold storePlain
  have ht := tagFrame_memStep (cl := cl) (p := p) (w := w) (f := f) (L := L) s ma key
  have := fun (s : State) (r : RoomFor s cl L) (wa : Nat) (hwa : wa ∈ wordsOf ma bs.length) =>
    storeWord_step (f := f) s ctx ma bs key poison reg wa (h.2.1 wa hwa) (h.2.2 wa hwa) h.1 r
  exact ⟨ht.trans (foldl_room _ _ (fun s r e he => (this s r e he).1) _ (ht.room r)),
    (tagFrame_keeps s ma key).trans (foldl_roomKeeps (cl := cl) (w := w) (f := f) (L := L) _ _ this _ (ht.room r))⟩

theorem storeBypass_step (s : State) (c ma : Nat) (bs : List Byte) (key : Byte) (poison : Bool)
    (hp : ∀ a, ma ≤ a → a < ma + bs.length → p a) (hw : ∀ wa ∈ wordsOf ma bs.length, w wa) :
    MemStep cl p w f L s (storeBypass s c ma bs key poison) ∧ KeepsCopies p s (storeBypass s c ma bs key poison) := by
  unfold storeBypass
  dsimp only
  have h1 := tagFrame_memStep (cl := cl) (p := p) (w := w) (f := f) (L := L) s ma key
  have k1 := tagFrame_keeps (p := p) s ma key
  generalize tagFrame s ma key = s1 at *
  have h2 : MemStep cl p w f L s1 ((wordsOf ma bs.length).foldl (fun s wa => dropOwner (writeBack s c wa) wa) s1) :=
    foldl_memStep _ _ (fun s e he => (writeBack_memStep s c e (hw e he)).trans (dropOwner_memStep _ e (hw e he))) s1
  have k2 : KeepsCopies p s1 ((wordsOf ma bs.length).foldl (fun s wa => dropOwner (writeBack s c wa) wa) s1) :=
    foldl_keeps _ _ (fun s e he => (writeBack_keeps s c e).trans (dropOwner_keeps _ e)) s1
  generalize (wordsOf ma bs.length).foldl (fun s wa => dropOwner (writeBack s c wa) wa) s1 = s2 at *
  have h3 : MemStep cl p w f L s2 (homeWrite s2 ma bs poison) :=
    homeWrite_memStep s2 ma bs poison fun a h h' => ⟨hp a h h', hw _ (mem_wordsOf.mpr ⟨a, h, h', rfl⟩)⟩
  have k3 : KeepsCopies p s2 (homeWrite s2 ma bs poison) := by
    obtain ⟨⟨m, e, po, b, g⟩, _⟩ := homeWrite_spec s2 ma bs poison
    exact keepsCopies_of_l1 fun c wa => by rw [g]; rfl
  generalize homeWrite s2 ma bs poison = s3 at *
  have put : ∀ (u : State) (wa : Nat), wa ∈ wordsOf ma bs.length → ∀ v : L1Word, l1Get u c wa = some v →
      let v' := (List.range 4).foldl (fun (v : L1Word) i =>
        let a := 4 * wa + i
        if ma ≤ a && a < ma + bs.length then
          let m : BitVec 4 := 1#4 <<< i
          { v with
            val := setByte v.val i (bs.getD (a - ma) 0)
            poison := if poison then v.poison ||| m else v.poison &&& ~~~m }
        else v) v
      MemStep cl p w f L u (l1Set u c wa { v' with owned := false }) ∧ KeepsCopies p u (l1Set u c wa { v' with owned := false }) := by
    intro u wa he v hv v'
    have hs : ∀ j, j < 4 → ¬ (ma ≤ 4 * wa + j ∧ 4 * wa + j < ma + bs.length) →
        byteOf v'.val j = byteOf v.val j ∧ v'.dirty.getLsbD j = v.dirty.getLsbD j :=
      putBytes_spec ma wa bs poison false (List.range 4) (fun i h => List.mem_range.mp h) v
    refine ⟨l1Set_memStep u c wa _ (hw wa he) (.inl (by rw [hv]; rfl)) fun i hi hpi hd => ?_, l1Set_keeps u c wa _ fun w0 hw0 i hi hpi => ?_⟩
    · obtain ⟨e1, e2⟩ := hs i hi fun h => hpi (hp _ h.1 h.2)
      exact ⟨v, hv, by rw [← e2]; exact hd, e1.symm⟩
    · obtain ⟨e1, _⟩ := hs i hi fun h => hpi (hp _ h.1 h.2)
      rw [hv] at hw0; cases hw0; exact e1
  refine ⟨h1.trans (h2.trans (h3.trans (foldl_memStep _ _ (fun u wa he => ?_) s3))), k1.trans (k2.trans (k3.trans (foldl_keeps _ _ (fun u wa he => ?_) s3)))⟩
  · split
    · next v hv => exact (put u wa he v hv).1
    · exact MemStep.refl u
  · split
    · next v hv => exact (put u wa he v hv).2
    · exact KeepsCopies.refl u

/-! ### Stores of an instruction -/

/-- What a store of an instruction may change: words, as `MemStep`, with every copy kept; stores may be put on their way. -/
structure MemMove (cl : Nat) (p w f : Nat → Prop) (L : List Nat) (s t : State) : Prop where
  words : WordsOnly cl p w f s t
  trains : t.trains = s.trains
  lines : ∀ n ∈ heldLines t cl, n ∈ heldLines s cl ∨ n ∈ L
  keeps : KeepsCopies p s t

theorem MemMove.refl (s : State) : MemMove cl p w f L s s :=
  ⟨WordsOnly.refl s, rfl, fun _ h => .inl h, KeepsCopies.refl s⟩

theorem MemMove.trans (h : MemMove cl p w f L s t) (k : MemMove cl p w f L t u) : MemMove cl p w f L s u :=
  ⟨h.words.trans k.words, k.trains.trans h.trains, fun n e => (k.lines n e).elim (h.lines n) .inr, h.keeps.trans k.keeps⟩

theorem MemStep.move (h : MemStep cl p w f L s t) (k : KeepsCopies p s t) : MemMove cl p w f L s t := ⟨h.words, h.trains, h.lines, k⟩

/-- Stores are put on their way. -/
theorem sent_move (s : State) (st : List PStore) (nx : Nat) : MemMove cl p w f L s { s with stores := st, nextId := nx } :=
  ⟨⟨fun _ _ h => h, fun _ _ _ => rfl, fun _ _ _ _ => rfl, fun _ _ _ _ => .inl rfl, fun _ _ _ v h _ _ hd => ⟨v, h, hd, rfl⟩,
    fun _ _ => rfl, fun _ _ _ _ => rfl, ⟨rfl, rfl⟩, fun _ => rfl, fun _ _ => rfl, fun _ => rfl, fun _ => rfl,
    ⟨rfl, rfl, rfl, rfl, rfl⟩, rfl, ⟨rfl, rfl⟩⟩, rfl, fun _ h => .inl h, keepsCopies_of_l1 fun _ _ => rfl⟩

/-- A store on its way writes bytes that `p` selects, in words that `w` selects. -/
def Fits (p w : Nat → Prop) (q : PStore) : Prop :=
  (∀ a, q.ma ≤ a → a < q.ma + q.bytes.length → p a) ∧ ∀ wa ∈ wordsOf q.ma q.bytes.length, w wa

theorem putStore_step (s : State) (q : PStore) (h : Fits p w q) :
    MemStep cl p w f L s (putStore s q) ∧ KeepsCopies p s (putStore s q) := by
  unfold putStore
  have h1 := memStep_aside (cl := cl) (p := p) (w := w) (f := f) (L := L) s s.owner (s.stores.filter fun r => r.id ≠ q.id) s.fresh s.nextId
    fun r hr => (List.mem_filter.mp hr).1
  obtain ⟨h2, h3⟩ := storeBypass_step (cl := cl) (f := f) (L := L) { s with stores := s.stores.filter fun r => r.id ≠ q.id } q.cluster q.ma q.bytes q.key
    q.poison h.1 h.2
  exact ⟨h1.trans h2, (keepsCopies_of_l1 fun _ _ => rfl).trans h3⟩

theorem foldl_steps {α : Type} (g : State → α → State) (l : List α)
    (h : ∀ s, ∀ e ∈ l, MemStep cl p w f L s (g s e) ∧ KeepsCopies p s (g s e)) (s : State) :
    MemStep cl p w f L s (l.foldl g s) ∧ KeepsCopies p s (l.foldl g s) :=
  ⟨foldl_memStep g l (fun s e he => (h s e he).1) s, foldl_keeps g l (fun s e he => (h s e he).2) s⟩

/-- A store that reaches the home, with the others of its request. -/
theorem tryStore_step (s : State) (q : PStore) (hq : q.reg = false) (h : ∀ r ∈ withStore s q, Fits p w r) :
    MemStep cl p w f L s (tryStore s q) ∧ KeepsCopies p s (tryStore s q) := by
  unfold tryStore performStore
  split
  · rw [if_neg (by rw [hq]; decide)]
    have h1 : MemStep cl p w f L s (if paysFor q then homeAccess s (agentCtx s q.who) q.ma 1 else s) ∧
        KeepsCopies p s (if paysFor q then homeAccess s (agentCtx s q.who) q.ma 1 else s) := by
      split
      · exact ⟨homeAccess_memStep .., keepsCopies_of_l1 (homeAccess_l1 _ _ _ _)⟩
      · exact ⟨MemStep.refl s, KeepsCopies.refl s⟩
    obtain ⟨h2, h3⟩ := foldl_steps (cl := cl) (f := f) (L := L) putStore (withStore s q) (fun u r hr => putStore_step u r (h r hr))
      (if paysFor q then homeAccess s (agentCtx s q.who) q.ma 1 else s)
    exact ⟨h1.1.trans h2, h1.2.trans h3⟩
  · exact ⟨MemStep.refl s, KeepsCopies.refl s⟩

theorem foldl_tryStore (ps : List PStore) (s : State) (hp : ∀ q ∈ ps, q.reg = false ∧ Fits p w q)
    (hs : ∀ q ∈ ps, ∀ r ∈ s.stores, r.grp = q.grp → r.reg = false → Fits p w r) :
    MemStep cl p w f L s (ps.foldl tryStore s) ∧ KeepsCopies p s (ps.foldl tryStore s) := by
  induction ps generalizing s with
  | nil => exact ⟨MemStep.refl s, KeepsCopies.refl s⟩
  | cons q ps ih =>
    obtain ⟨h1, h2⟩ := tryStore_step (cl := cl) (p := p) (w := w) (f := f) (L := L) s q (hp q List.mem_cons_self).1 fun r hr => by
      unfold withStore at hr
      split at hr
      · rw [List.mem_singleton.mp hr]; exact (hp q List.mem_cons_self).2
      · obtain ⟨a1, a2⟩ := List.mem_filter.mp hr
        simp only [Bool.and_eq_true, decide_eq_true_eq, Bool.not_eq_true'] at a2
        exact hs q List.mem_cons_self r a1 a2.1 a2.2
    obtain ⟨k1, k2⟩ := ih (tryStore s q) (fun r hr => hp r (List.mem_cons_of_mem _ hr))
      fun r hr r' hr' => hs r (List.mem_cons_of_mem _ hr) r' (h1.stores r' hr')
    exact ⟨h1.trans k1, h2.trans k2⟩

theorem sendStores_move (s : State) (ps : List PStore) (hp : ∀ q ∈ ps, q.reg = false ∧ s.nextId ≤ q.grp ∧ Fits p w q)
    (hs : ∀ r ∈ s.stores, s.nextId ≤ r.grp → r.reg = false → Fits p w r) : MemMove cl p w f L s (sendStores s ps) := by
  unfold sendStores
  dsimp only
  have h0 := sent_move (cl := cl) (p := p) (w := w) (f := f) (L := L) s (s.stores ++ ps) (s.nextId + ps.length)
  split
  · exact h0
  · obtain ⟨h1, h2⟩ := foldl_tryStore (cl := cl) (p := p) (w := w) (f := f) (L := L) ps
      { s with stores := s.stores ++ ps, nextId := s.nextId + ps.length } (fun q hq => ⟨(hp q hq).1, (hp q hq).2.2⟩)
      fun q hq r hr hg hreg => by
        rcases List.mem_append.mp hr with hr | hr
        · exact hs r hr (hg ▸ (hp q hq).2.1) hreg
        · exact (hp r hr).2.2
    exact h0.trans (h1.move h2)

theorem mem_newStores {x : Ix} {id : Nat} {chan : LAcc → Option Nat} {ks : List (LAcc × List Byte)} {q : PStore}
    (h : q ∈ newStores x id chan ks) : q.reg = false ∧ id ≤ q.grp ∧ ∃ k ∈ ks, q.ma = k.1.ma ∧ q.bytes = k.2 := by
  obtain ⟨e, he, rfl⟩ := List.mem_map.mp h
  exact ⟨rfl, Nat.le_add_right _ _, e.1, List.fst_mem_of_mem_zipIdx he, rfl, rfl⟩

theorem storeThrough_move (x : Ix) (s : State) (k : LAcc × List Byte) (h : Within p w L k.1.ma k.2.length) (r : RoomFor s x.cluster L) :
    MemMove x.cluster p w f L s (storeThrough x s k) := by
  unfold storeThrough
  dsimp only
  generalize newRegs s x k = rs
  generalize (s.defer || rs.any fun p => !storeReady s p) = later
  obtain ⟨h1, h2⟩ := storePlain_step (cl := x.cluster) (f := f) s x.ctx k.1.ma k.2 k.1.key false (!later) h r
  split
  · exact (h1.move h2).trans (sent_move ..)
  · exact h1.move h2

theorem watchAfter_step (s : State) (x : Ix) (ld st : Bool) (n : Nat) (as : List LAcc) :
    MemStep cl p w f L s (watchAfter s x ld st n as).1 ∧ KeepsCopies p s (watchAfter s x ld st n as).1 := by
  unfold watchAfter
  dsimp only
  split
  · exact ⟨MemStep.refl s, KeepsCopies.refl s⟩
  · refine ⟨modCtx_memStep _ _ _ fun y => rfl, keepsCopies_of_l1 fun _ _ => ?_⟩
    unfold modSys modCtx
    split <;> rfl

theorem watchAfter_move (s : State) (x : Ix) (ld st : Bool) (n : Nat) (as : List LAcc) :
    MemMove cl p w f L s (watchAfter s x ld st n as).1 :=
  have h := watchAfter_step (cl := cl) (p := p) (w := w) (f := f) (L := L) s x ld st n as
  h.1.move h.2

theorem mem_lastLanes {as : List LAcc} {b : LAcc} (h : b ∈ lastLanes as) : b ∈ as := by
  induction as with
  | nil => exact h
  | cons a as ih =>
    simp only [lastLanes] at h
    split at h
    · exact List.mem_cons_of_mem _ (ih h)
    · rcases List.mem_cons.mp h with h | h
      · rw [h]; exact List.mem_cons_self
      · exact List.mem_cons_of_mem _ (ih h)

/-- The store of lanes that translate to HBM4. -/
theorem storeLanes_move (s : State) (x : Ix) (bypass : Bool) (chan : LAcc → Option Nat) (n : Nat) (data : Nat → List Byte) (as : List LAcc)
    (hm : ∀ b ∈ as, isMmio b.ma = false) (hd : ∀ l, (data l).length = n) (h : ∀ b ∈ as, Within p w L b.ma n)
    (hs : bypass = true → ∀ r ∈ s.stores, s.nextId ≤ r.grp → r.reg = false → Fits p w r) (r : bypass = false → RoomFor s x.cluster L) :
    MemMove x.cluster p w f L s (storeLanes s x bypass chan n data as).1 := by
  unfold storeLanes
  dsimp only
  have hmm : ((lastLanes as).map fun a => (a, data a.lane)).filter (fun k => isMmio k.1.ma) = [] := by
    rw [List.filter_eq_nil_iff]
    intro k hk
    obtain ⟨b, hb, rfl⟩ := List.mem_map.mp hk
    simp [hm b (mem_lastLanes hb)]
  have hk : ∀ k ∈ ((lastLanes as).map fun a => (a, data a.lane)).filter (fun k => !isMmio k.1.ma), Within p w L k.1.ma k.2.length := by
    intro k hk
    obtain ⟨b, hb, rfl⟩ := List.mem_map.mp (List.mem_filter.mp hk).1
    rw [hd]; exact h b (mem_lastLanes hb)
  rw [hmm, List.foldl_nil]
  generalize ((lastLanes as).map fun a => (a, data a.lane)).filter (fun k => !isMmio k.1.ma) = ks at hk
  refine MemMove.trans ?_ (watchAfter_move ..)
  split
  · next hb =>
    refine sendStores_move s _ (fun q hq => ?_) (hs hb)
    obtain ⟨h1, h2, k, hk1, h3, h4⟩ := mem_newStores hq
    refine ⟨h1, h2, ?_, ?_⟩
    · rw [h3, h4]; exact (hk k hk1).1
    · rw [h3, h4]; exact (hk k hk1).2.1
  · next hb =>
    have hr := r (by simpa using hb)
    clear hs hmm
    induction ks generalizing s with
    | nil => exact MemMove.refl s
    | cons k ks ih =>
      have h1 := storeThrough_move (f := f) x s k (hk k List.mem_cons_self) hr
      exact h1.trans (ih _ (fun _ => roomFor_mono hr h1.lines) (fun e he => hk e (List.mem_cons_of_mem _ he)) (roomFor_mono hr h1.lines))

/-! ### Loads -/

theorem loadBypass_step (s : State) (c ma n : Nat) (key : Byte) (hw : ∀ wa ∈ wordsOf ma n, w wa) :
    MemStep cl p w f L s (loadBypass s c ma n key).2 := by
  unfold loadBypass
  refine foldl_memStep _ _ (fun u wa he => ?_) s
  refine (writeBack_memStep u c wa (hw wa he)).trans ?_
  dsimp only
  split
  · split
    · exact MemStep.refl _
    · exact l1Del_memStep _ c wa (hw wa he)
  · exact MemStep.refl _

theorem loadPlain_step (s : State) (ma n : Nat) (key : Byte) (hl : ∀ wa ∈ wordsOf ma n, wa / 32 ∈ L)
    (hf : ∀ wa ∈ wordsOf ma n, ∀ wb, wb / 32 = wa / 32 → f wb) (r : RoomFor s cl L) : MemStep cl p w f L s (loadPlain s cl ma n key).2 := by
  unfold loadPlain
  refine foldl_room _ _ (fun u r wa he => ?_) s r
  split
  · exact MemStep.refl u
  · exact fetchLine_memStep u (wa / 32) key (hl wa he) r (hf wa he)

/-- The words, and the lines, that loads may change: the words of one past the L1, the lines of one through it. -/
def Loads (cl : Nat) (w f : Nat → Prop) (L : List Nat) (n : Nat) (s : State) (l : Loc) : Prop :=
  match l with
  | .glob c ma true _ => c = cl ∧ ∀ wa ∈ wordsOf ma n, w wa
  | .glob c ma false _ => c = cl ∧ RoomFor s cl L ∧ (∀ wa ∈ wordsOf ma n, wa / 32 ∈ L) ∧ ∀ wa ∈ wordsOf ma n, ∀ wb, wb / 32 = wa / 32 → f wb
  | _ => True

theorem Loads.mono {n : Nat} {l : Loc} (h : Loads cl w f L n s l) (k : MemStep cl p w f L s t) : Loads cl w f L n t l := by
  unfold Loads at *
  split
  · exact h
  · exact ⟨h.1, k.room h.2.1, h.2.2⟩
  · trivial

theorem loadGlob_step {s : State} {ctx c ma n : Nat} {bypass : Bool} {key : Byte} {paid : Bool} {r : Got × State}
    (e : loadGlob s ctx c ma n bypass key paid = some r) (h : Loads cl w f L n s (.glob c ma bypass key)) : MemStep cl p w f L s r.2 := by
  unfold loadGlob at e
  dsimp only at e
  split at e
  · cases e
  · cases bypass
    · obtain ⟨rfl, h1, h2, h3⟩ := h
      simp only [Bool.false_eq_true, if_false, Option.some.injEq] at e
      subst e
      dsimp only
      refine (loadPlain_step s ma n key h2 h3 h1).trans ?_
      split
      · exact MemStep.refl _
      · split
        · exact countsOnly_memStep (countEvent_counts ..)
        · exact (countsOnly_memStep (countEvent_counts ..)).trans (homeAccess_memStep ..)
    · simp only [if_true, Option.some.injEq] at e
      subst e
      dsimp only
      refine (loadBypass_step s c ma n key h.2).trans ?_
      split
      · exact MemStep.refl _
      · exact homeAccess_memStep ..

theorem readLoc_step {s : State} {ctx n : Nat} {l : Loc} {seen : List Nat} {r : Got × State} (e : readLoc s ctx n l seen = some r)
    (h : Loads cl w f L n s l) : MemStep cl p w f L s r.2 := by
  unfold readLoc at e
  split at e
  · exact loadGlob_step e h
  all_goals (repeat' split at e) <;> first | (cases e; exact MemStep.refl _) | cases e

theorem readLanes_step (ctx n : Nat) (sx defer : Bool) (ls : List (Nat × Loc)) (seen : List Nat) (s : State)
    (h : ∀ e ∈ ls, Loads cl w f L n s e.2) :
    MemStep cl p w f L s (readLanes ctx n sx defer ls seen s).2 ∧ ∀ e ∈ (readLanes ctx n sx defer ls seen s).1.vals, ∃ e' ∈ ls, e'.1 = e.1 := by
  induction ls generalizing seen s with
  | nil => exact ⟨MemStep.refl s, fun e he => absurd he (by simp [readLanes])⟩
  | cons e ls ih =>
    obtain ⟨l, loc⟩ := e
    unfold readLanes
    split
    · obtain ⟨h1, h2⟩ := ih seen s fun e he => h e (List.mem_cons_of_mem _ he)
      refine ⟨h1, fun e he => ?_⟩
      obtain ⟨e', he', hk⟩ := h2 e he
      exact ⟨e', List.mem_cons_of_mem _ he', hk⟩
    · next g s1 hg =>
      have hg : readLoc s ctx n loc seen = some (g, s1) := by
        split at hg
        · cases hg
        · exact hg
      have h0 : MemStep cl p w f L s s1 := readLoc_step hg (h _ List.mem_cons_self)
      obtain ⟨h1, h2⟩ := ih (seen ++ loc.line.toList) s1 fun e he => (h e (List.mem_cons_of_mem _ he)).mono h0
      refine ⟨h0.trans h1, fun e he => ?_⟩
      dsimp only at he
      split at he
      · obtain ⟨e', he', hk⟩ := h2 e he
        exact ⟨e', List.mem_cons_of_mem _ he', hk⟩
      · rcases List.mem_cons.mp he with he | he
        · exact ⟨(l, loc), List.mem_cons_self, by rw [he]⟩
        · obtain ⟨e', he', hk⟩ := h2 e he
          exact ⟨e', List.mem_cons_of_mem _ he', hk⟩

/-! ### Results of loads and atomics -/

/-- Words may have changed, the registers of a destination, and no generator. -/
structure Changed (x : Ix) (p w f : Nat → Prop) (ls : List Nat) (o : Operand) (bits : Nat) (s t : State) : Prop where
  words : WordsOnly x.cluster p w f s t
  regs : SameRegs x ls o bits (fun q => o = .pred q) s t
  gens : SameGens s t

theorem Changed.trans {x : Ix} {ls : List Nat} {o : Operand} {bits : Nat} (h : Changed x p w f ls o bits s t)
    (k : Changed x p w f ls o bits t u) : Changed x p w f ls o bits s u :=
  ⟨h.words.trans k.words, h.regs.trans k.regs, h.gens.trans k.gens⟩

theorem Changed.refl (x : Ix) (ls : List Nat) (o : Operand) (bits : Nat) (s : State) : Changed x p w f ls o bits s s :=
  ⟨WordsOnly.refl s, SameRegs.refl .., fun _ _ => rfl⟩

theorem changed_of_trains {x : Ix} {ls : List Nat} {o : Operand} {bits : Nat} (h : WordsOnly x.cluster p w f s t) (k : t.trains = s.trains) :
    Changed x p w f ls o bits s t :=
  ⟨h, (trains_regs k x ls o bits _).1, (trains_regs k x ls o bits (fun q => o = .pred q)).2⟩

theorem changed_of_machine {x : Ix} {ls : List Nat} {o : Operand} {bits : Nat} (h : SameMachine s t)
    (r : SameRegs x ls o bits (fun q => o = .pred q) s t) (g : SameGens s t) : Changed x p w f ls o bits s t := ⟨h.words, r, g⟩

/-- A result where an S register takes the first lane's alone. -/
theorem wrFirst_eq (s : State) (x : Ix) (o : Operand) (bits first : Nat) (rs : List (Nat × Nat)) :
    ∃ qs : List (Nat × Nat), (∀ r ∈ qs, r ∈ rs) ∧ wrFirst s x o bits first rs = if qs.isEmpty then s else wr s x o bits qs := by
  cases o with
  | s i => exact ⟨rs.filter fun r => r.1 = first, fun r h => (List.mem_filter.mp h).1, rfl⟩
  | _ => exact ⟨rs, fun r h => h, rfl⟩

theorem wrFirst_changed (s : State) (x : Ix) (o : Operand) (bits first : Nat) (rs : List (Nat × Nat)) (ls : List Nat) (ho : ∀ n, o ≠ .sr n)
    (hr : ∀ r ∈ rs, r.1 ∈ ls) : Changed x p w f ls o bits s (wrFirst s x o bits first rs) := by
  obtain ⟨qs, hq, e⟩ := wrFirst_eq s x o bits first rs
  rw [e]
  split
  · exact Changed.refl ..
  · obtain ⟨h1, h2, h3⟩ := wr_frame s x ls o bits (fun q => o = .pred q) ho (fun q h => by simp [h]) qs fun r h => hr r (hq r h)
    exact changed_of_machine h2 h1 h3

/-- A change of the pending instructions of a coach. -/
theorem pend_changed (s : State) (x : Ix) (tr : Nat) (c : CoachId) (g : Coach → List Pend) (ls : List Nat) (o : Operand) (bits : Nat) :
    Changed x p w f ls o bits s (modCoach s tr c fun co => { co with pend := g co }) := by
  refine changed_of_machine (modCoach_machine s tr c _ fun _ => rfl) ⟨?_, ?_, ?_⟩ (modCoach_gens s tr c _ fun _ => rfl)
  · intro k d l n _
    simp only [vReg, laneAt_eq, modCoach_at]
    split
    · cases coachAt s k d <;> rfl
    · rfl
  · intro k d n _
    simp only [sReg, modCoach_at]
    split
    · cases coachAt s k d <;> rfl
    · rfl
  · intro k d l q _
    simp only [pReg, laneAt_eq, modCoach_at]
    split
    · cases coachAt s k d <;> rfl
    · rfl

theorem through_changed (i : Instr) (s : State) (x : Ix) (a : Args) (ls : List Nat) (o : Operand) (bits : Nat) :
    Changed x p w f ls o bits s (through i s x a) := by
  obtain ⟨t1, t2, t3, _⟩ := through_frame i s x a ls o bits (fun q => o = .pred q)
  exact changed_of_machine t2 t1 t3

theorem drawn_changed (i : Instr) (a : Args) (s : State) (x : Ix) (ls : List Nat) (o : Operand) (bits : Nat) :
    Changed x p w f ls o bits s (drawn i a s x) := by
  obtain ⟨d1, d2, d3⟩ := drawn_frame i a s x
  obtain ⟨r1, r2⟩ := trains_regs d1 x ls o bits (fun q => o = .pred q)
  exact changed_of_machine d2 r1 r2

theorem finishLoad_changed (s : State) (x : Ix) (k : LoadIn) (first : Nat) (o : LoadOut) (ls : List Nat) (ho : ∀ n, k.dst ≠ .sr n)
    (hr : ∀ r ∈ o.vals, r.1 ∈ ls) :
    Changed x p w f ls k.dst (if k.bytes ≤ 4 then 32 else 8 * k.bytes) s (finishLoad s x k first o).1 := by
  unfold finishLoad
  dsimp only
  have h := wrFirst_changed (p := p) (w := w) (f := f) s x k.dst (if k.bytes ≤ 4 then 32 else 8 * k.bytes) first o.vals ls ho hr
  generalize (if k.bytes ≤ 4 then 32 else 8 * k.bytes) = bits at *
  generalize wrFirst s x k.dst bits first o.vals = u at h
  split
  · exact h
  · refine h.trans ((changed_of_trains (t := { u with nextId := u.nextId + 1 }) (sent_move (L := []) u u.stores (u.nextId + 1)).words rfl).trans ?_)
    exact pend_changed ..

/-- Loads from given places. -/
theorem readLanes_changed (ctx n : Nat) (sx defer : Bool) (ls : List (Nat × Loc)) (s : State) (x : Ix) (es : List Nat) (o : Operand) (bits : Nat)
    (h : ∀ e ∈ ls, Loads x.cluster w f L n s e.2) :
    Changed x p w f es o bits s (readLanes ctx n sx defer ls [] s).2 := by
  have := (readLanes_step (p := p) ctx n sx defer ls [] s h).1
  exact changed_of_trains this.words this.trains

theorem loadPlaces_changed (s : State) (x : Ix) (k : LoadIn) (defer : Bool) (ls : List (Nat × Loc)) (ho : ∀ n, k.dst ≠ .sr n)
    (h : ∀ e ∈ ls, Loads x.cluster w f L k.bytes s e.2) (es : List Nat) (he : ∀ e ∈ ls, e.1 ∈ es) :
    Changed x p w f es k.dst (if k.bytes ≤ 4 then 32 else 8 * k.bytes) s (loadPlaces s x k defer ls).1 := by
  unfold loadPlaces
  refine (readLanes_changed x.ctx k.bytes k.sx defer ls s x es k.dst _ h).trans (finishLoad_changed _ x k _ _ es ho ?_)
  intro r hr
  obtain ⟨e', he', hk⟩ := (readLanes_step (p := p) x.ctx k.bytes k.sx defer ls [] s h).2 r hr
  exact hk ▸ he e' he'

/-- The load of lanes that translate to HBM4 or to the cellar. -/
theorem loadLanes_changed (s : State) (x : Ix) (k : LoadIn) (bypass : Bool) (as : List LAcc) (first : Nat) (hm : ∀ b ∈ as, isMmio b.ma = false)
    (ho : ∀ n, k.dst ≠ .sr n) (h : ∀ b ∈ as, isCellar b.ma = false → Loads x.cluster w f L k.bytes s (.glob x.cluster b.ma bypass b.key))
    (es : List Nat) (he : ∀ b ∈ as, b.lane ∈ es) :
    Changed x p w f es k.dst (if k.bytes ≤ 4 then 32 else 8 * k.bytes) s (loadLanes s x k bypass as first).1 := by
  unfold loadLanes
  have h0 : as.filter (fun a => isMmio a.ma) = [] := by
    rw [List.filter_eq_nil_iff]; intro b hb; simp [hm b hb]
  have h1 : as.filter (fun a => !isMmio a.ma) = as := by
    rw [List.filter_eq_self]; intro b hb; simp [hm b hb]
  rw [h0, h1]
  dsimp only [mmioLanes]
  rw [List.nil_append]
  have hl : ∀ e ∈ as.map (fun a => (a.lane, locOf x bypass a)), Loads x.cluster w f L k.bytes s e.2 := by
    intro e he
    obtain ⟨b, hb, rfl⟩ := List.mem_map.mp he
    dsimp only [locOf]
    cases hc : isCellar b.ma
    · simp only [Bool.false_eq_true, if_false]; exact h b hb hc
    · simp only [if_true]; trivial
  have hc := readLanes_changed (p := p) x.ctx k.bytes k.sx s.defer _ s x es k.dst (if k.bytes ≤ 4 then 32 else 8 * k.bytes) hl
  have hv := (readLanes_step (p := p) x.ctx k.bytes k.sx s.defer _ [] s hl).2
  generalize readLanes x.ctx k.bytes k.sx s.defer (as.map fun a => (a.lane, locOf x bypass a)) [] s = r at *
  refine hc.trans ((finishLoad_changed r.2 x k first ⟨r.1.vals, r.1.bad, r.1.left⟩ es ho fun e h => ?_).trans ?_)
  · obtain ⟨e', he', hk⟩ := hv e h
    obtain ⟨b, hb, rfl⟩ := List.mem_map.mp he'
    exact hk ▸ he b hb
  · have := watchAfter_step (cl := x.cluster) (p := p) (w := w) (f := f) (L := []) (finishLoad r.2 x k first ⟨r.1.vals, r.1.bad, r.1.left⟩).1
      x true false k.bytes as
    exact changed_of_trains this.1.words this.1.trains

/-- Lanes that translate are among those of the access, each with its address. -/
theorem mem_accesses {x : Ix} {acc : Access} {as : List (Nat × Nat)} {b : LAcc} (h : b ∈ accesses x acc as s) : (b.lane, b.va) ∈ as := by
  unfold accesses at h
  have key : ∀ (as : List (Nat × Nat)) (seen : List (Nat × Xl)) (s : State), ∀ e ∈ (xlateLanes x acc as seen s).1, (e.1, e.2.1) ∈ as := by
    intro as
    induction as with
    | nil => intro seen s e he; simp [xlateLanes] at he
    | cons a as ih =>
      intro seen s e he
      obtain ⟨l, va⟩ := a
      unfold xlateLanes at he
      dsimp only at he
      split at he
      · rcases List.mem_cons.mp he with he | he
        · rw [he]; exact List.mem_cons_self
        · exact List.mem_cons_of_mem _ (ih _ _ e he)
      · rcases List.mem_cons.mp he with he | he
        · rw [he]; exact List.mem_cons_self
        · exact List.mem_cons_of_mem _ (ih _ _ e he)
  unfold okLanes at h
  obtain ⟨e, he, hb⟩ := List.mem_filterMap.mp h
  split at hb
  · cases hb; exact key as [] s e he
  · cases hb

/-! ### Atomics -/

theorem homeStep_step (s : State) (c ma : Nat) (w64 : Bool) (key : Byte) (op : AOp) (cmp : Option Nat) (arg : Nat)
    (hp : ∀ a, ma ≤ a → a < ma + (if w64 then 8 else 4) → p a) (hw : ∀ wa ∈ wordsOf ma (if w64 then 8 else 4), w wa) :
    MemStep cl p w f L s (homeStep s c ma w64 key op cmp arg).2 := by
  unfold homeStep
  dsimp only
  generalize (if w64 then 8 else 4) = n at *
  have h1 : MemStep cl p w f L s ((wordsOf ma n).foldl (fun s wa => dropOwner (writeBack s c wa) wa) s) :=
    foldl_memStep _ _ (fun s e he => (writeBack_memStep s c e (hw e he)).trans (dropOwner_memStep _ e (hw e he))) s
  generalize (wordsOf ma n).foldl (fun s wa => dropOwner (writeBack s c wa) wa) s = s1 at *
  split
  · exact h1
  · dsimp only
    refine h1.trans ((tagFrame_memStep s1 ma key).trans ((homeWrite_memStep _ ma _ false fun a h h' => ?_).trans
      (foldl_memStep _ _ (fun u wa he => ?_) _)))
    · have hl : ∀ n v, (leBytes n v).length = n := by
        intro n; induction n with
        | zero => intro v; rfl
        | succ n ih => intro v; simp [leBytes, ih]
      rw [hl] at h'
      exact ⟨hp a h h', hw _ (mem_wordsOf.mpr ⟨a, h, h', rfl⟩)⟩
    · split
      · split
        · exact MemStep.refl u
        · exact l1Del_memStep u c wa (hw wa he)
      · exact MemStep.refl u

/-- The bytes and words of the atomic steps at some places. -/
def StepsIn (p w : Nat → Prop) (ma n : Nat) : Prop := (∀ a, ma ≤ a → a < ma + n → p a) ∧ ∀ wa ∈ wordsOf ma n, w wa

theorem stepsNow_step (x : Ix) (m : AtomMod) (ks : List (LAcc × LStep)) (seen : List Nat) (s : State)
    (h : ∀ k ∈ ks, StepsIn p w k.1.ma (if m.w64 then 8 else 4)) :
    MemStep cl p w f L s (stepsNow x m ks seen s).2.2 ∧ ∀ e ∈ (stepsNow x m ks seen s).1, ∃ k ∈ ks, k.1.lane = e.1 := by
  induction ks generalizing seen s with
  | nil => exact ⟨MemStep.refl s, fun e he => absurd he (by simp [stepsNow])⟩
  | cons k ks ih =>
    obtain ⟨a, k⟩ := k
    unfold stepsNow
    dsimp only
    have h0 : MemStep cl p w f L s (if seen.contains (a.ma / 128) then s else homeAccess s x.ctx a.ma 1) := by
      split
      · exact MemStep.refl s
      · exact homeAccess_memStep ..
    generalize (if seen.contains (a.ma / 128) then s else homeAccess s x.ctx a.ma 1) = s0 at *
    have hk := h _ List.mem_cons_self
    have h1 : MemStep cl p w f L s0 (homeStep s0 x.cluster a.ma m.w64 a.key m.op k.cmp k.arg).2 := homeStep_step _ _ _ _ _ _ _ _ hk.1 hk.2
    obtain ⟨h2, h3⟩ := ih (seen ++ [a.ma / 128]) (homeStep s0 x.cluster a.ma m.w64 a.key m.op k.cmp k.arg).2
      fun e he => h e (List.mem_cons_of_mem _ he)
    split
    · next old s2 hs =>
      rw [hs] at h1 h2 h3
      refine ⟨h0.trans (h1.trans h2), fun e he => ?_⟩
      rcases List.mem_cons.mp he with he | he
      · exact ⟨(a, k), List.mem_cons_self, by rw [he]⟩
      · obtain ⟨k', hk', e'⟩ := h3 e he
        exact ⟨k', List.mem_cons_of_mem _ hk', e'⟩
    · next s2 hs =>
      rw [hs] at h1 h2 h3
      refine ⟨h0.trans (h1.trans h2), fun e he => ?_⟩
      obtain ⟨k', hk', e'⟩ := h3 e he
      exact ⟨k', List.mem_cons_of_mem _ hk', e'⟩

/-- A step that reaches the head of its queue. -/
theorem tryStep_changed (s : State) (a : AStep) (x : Ix) (ls : List Nat) (o : Operand) (bits : Nat)
    (h : StepsIn p w a.ma (if a.w64 then 8 else 4)) : Changed x p w f ls o bits s (tryStep s a) := by
  unfold tryStep
  split
  · dsimp only
    have h0 : Changed x p w f ls o bits s { s with steps := s.steps.filter fun b => b.id ≠ a.id } :=
      changed_of_trains ⟨fun _ _ h => h, fun _ _ _ => rfl, fun _ _ _ _ => rfl, fun _ _ _ _ => .inl rfl,
        fun _ _ _ v h _ _ hd => ⟨v, h, hd, rfl⟩, fun _ _ => rfl, fun _ _ _ _ => rfl, ⟨rfl, rfl⟩, fun _ => rfl, fun _ _ => rfl,
        fun _ => rfl, fun _ => rfl, ⟨rfl, rfl, rfl, rfl, rfl⟩, rfl, ⟨rfl, rfl⟩⟩ rfl
    refine h0.trans ?_
    generalize ({ s with steps := s.steps.filter fun b => b.id ≠ a.id } : State) = s1
    have h1 : Changed x p w f ls o bits s1 (if a.id = a.grp then homeAccess s1 (agentCtx s a.who) a.ma 1 else s1) := by
      split
      · have := homeAccess_memStep (cl := x.cluster) (p := p) (w := w) (f := f) (L := []) s1 (agentCtx s a.who) a.ma 1
        exact changed_of_trains this.words this.trains
      · exact Changed.refl ..
    refine h1.trans ?_
    generalize (if a.id = a.grp then homeAccess s1 (agentCtx s a.who) a.ma 1 else s1) = s2
    unfold performStep
    dsimp only
    have h2 := homeStep_step (cl := x.cluster) (p := p) (w := w) (f := f) (L := []) s2 a.cluster a.ma a.w64 a.key a.op (a.cmp.map (·.toNat)) a.arg.toNat h.1 h.2
    refine (changed_of_trains h2.words h2.trains).trans ?_
    unfold stepReply
    split
    · exact pend_changed ..
    · exact Changed.refl ..
  · exact Changed.refl ..

theorem foldl_changed {α : Type} (g : State → α → State) (l : List α) {x : Ix} {ls : List Nat} {o : Operand} {bits : Nat}
    (h : ∀ s, ∀ e ∈ l, Changed x p w f ls o bits s (g s e)) (s : State) : Changed x p w f ls o bits s (l.foldl g s) := by
  induction l generalizing s with
  | nil => exact Changed.refl ..
  | cons e l ih => exact (h s e List.mem_cons_self).trans (ih (fun s e he => h s e (List.mem_cons_of_mem _ he)) _)

/-- The state in which an atomic's own steps are performed: the steps queued at their locations before have been, as far as they
can be (R221). -/
theorem queued_changed (s : State) (x : Ix) (as : List LAcc) (n : Nat) (ls : List Nat) (o : Operand) (bits : Nat)
    (h : ∀ q ∈ queuedAt s as n, StepsIn p w q.ma (if q.w64 then 8 else 4)) :
    Changed x p w f ls o bits s (if s.defer then s else (queuedAt s as n).foldl tryStep s) := by
  split
  · exact Changed.refl ..
  · exact foldl_changed _ _ (fun u q hq => tryStep_changed u q x ls o bits (h q hq)) s

/-- The steps of an instruction's lanes, performed at once or all left in their queues. -/
theorem atomLanes_changed (x : Ix) (m : AtomMod) (word : Word96) (dst : Option Operand) (first : Nat) (lane : Nat → LStep) (s : State)
    (as : List LAcc) (ls : List Nat) (ho : ∀ n, dst ≠ some (.sr n)) (hl : ∀ b ∈ as, b.lane ∈ ls)
    (h : ∀ b ∈ as, StepsIn p w b.ma (if m.w64 then 8 else 4))
    (hq : ∀ q ∈ queuedAt s as (if m.w64 then 8 else 4), StepsIn p w q.ma (if q.w64 then 8 else 4))
    (hd : s.defer = true ∨ stepsFree (if s.defer then s else (queuedAt s as (if m.w64 then 8 else 4)).foldl tryStep s) x as (if m.w64 then 8 else 4) = true) :
    Changed x p w f ls (dst.getD .zero) (8 * (if m.w64 then 8 else 4)) s (atomLanes x m word dst first lane s as).1 := by
  have hw : ∀ u : State, Changed x p w f ls (dst.getD .zero) (8 * (if m.w64 then 8 else 4)) u
      (watchAfter u x true true (if m.w64 then 8 else 4) as).1 := by
    intro u
    have := watchAfter_step (cl := x.cluster) (p := p) (w := w) (f := f) (L := []) u x true true (if m.w64 then 8 else 4) as
    exact changed_of_trains this.1.words this.1.trains
  have h0 := queued_changed (p := p) (w := w) (f := f) s x as (if m.w64 then 8 else 4) ls (dst.getD .zero) (8 * (if m.w64 then 8 else 4)) hq
  unfold atomLanes
  dsimp only
  generalize hn : (if m.w64 then 8 else 4) = n at *
  generalize hs : (if s.defer then s else (queuedAt s as n).foldl tryStep s) = s1 at h0 hd
  refine h0.trans (Changed.trans ?_ (hw _))
  split
  · next hf =>
    have hdef : s.defer = true := hd.resolve_right fun e => by rw [e] at hf; simp at hf
    rw [if_pos hdef] at hs
    subst hs
    dsimp only
    unfold stepsLater
    split
    · exact Changed.refl ..
    · dsimp only
      refine Changed.trans (changed_of_trains ?_ ?_) (pend_changed ..)
      · exact ⟨fun _ _ h => h, fun _ _ _ => rfl, fun _ _ _ _ => rfl, fun _ _ _ _ => .inl rfl,
          fun _ _ _ v h _ _ hd => ⟨v, h, hd, rfl⟩, fun _ _ => rfl, fun _ _ _ _ => rfl, ⟨rfl, rfl⟩, fun _ => rfl, fun _ _ => rfl,
          fun _ => rfl, fun _ => rfl, ⟨rfl, rfl, rfl, rfl, rfl⟩, rfl, ⟨rfl, rfl⟩⟩
      · rfl
  · obtain ⟨h1, h2⟩ := stepsNow_step (cl := x.cluster) (p := p) (w := w) (f := f) (L := []) x m (as.map fun a => (a, lane a.lane)) [] s1 fun k hk => by
      obtain ⟨b, hb, rfl⟩ := List.mem_map.mp hk; rw [hn]; exact h b hb
    refine (changed_of_trains h1.words h1.trains).trans ?_
    cases dst with
    | none => exact Changed.refl ..
    | some o =>
      refine wrFirst_changed _ x o _ first _ ls (fun n e => ho n (by rw [e])) fun r hr => ?_
      obtain ⟨k, hk, e⟩ := h2 r hr
      obtain ⟨b, hb, rfl⟩ := List.mem_map.mp hk
      exact e ▸ hl b hb

end Sys2Proof.Machine
end

