-- ==== Sys2Proof/Laws/ScratchFrames.lean ====
section
/-! SUPPORT. What accesses to a scratchpad leave unchanged (R187 to R189, R224, R249). -/

namespace Sys2Proof.Machine

open Sys2Proof

/-- A change of one scratchpad of a train: only the bytes of one rank that `p` selects. -/
structure ScrPart (rank : Nat) (p : Nat → Prop) (t u : Train) : Prop where
  coaches : u.coaches = t.coaches
  spine : u.spine = t.spine
  tiles : u.tiles = t.tiles
  bars : u.bars = t.bars
  bytes : ∀ r j, ¬ (r = rank ∧ p j) → Memory.read (mgetD u.scr r []) j = Memory.read (mgetD t.scr r []) j

theorem ScrPart.refl (rank : Nat) (p : Nat → Prop) (t : Train) : ScrPart rank p t t := ⟨rfl, rfl, rfl, rfl, fun _ _ _ => rfl⟩

theorem ScrPart.trans {rank : Nat} {p : Nat → Prop} {t u v : Train} (h : ScrPart rank p t u) (k : ScrPart rank p u v) : ScrPart rank p t v :=
  ⟨k.coaches.trans h.coaches, k.spine.trans h.spine, k.tiles.trans h.tiles, k.bars.trans h.bars,
    fun r j n => (k.bytes r j n).trans (h.bytes r j n)⟩

theorem scrPut_part (t : Train) (rank off : Nat) (bs : List Byte) (poison : Bool) (p : Nat → Prop)
    (hp : ∀ j, off ≤ j → j < off + bs.length → p j) : ScrPart rank p t (scrPut t rank off bs poison) := by
  unfold scrPut
  refine ⟨rfl, rfl, rfl, rfl, fun r j h => ?_⟩
  dsimp only
  rw [mgetD_mput]
  split
  · next hr =>
    subst hr
    rw [read_writes, if_neg]
    rintro ⟨h1, h2⟩
    have := List.mem_range.mp h2
    exact h ⟨rfl, hp j h1 (by omega)⟩
  · rfl

theorem noteScr_part (t : Train) (rank off n : Nat) (fids : List Nat) (late : MmaRec → Bool) (p : Nat → Prop) :
    ScrPart rank p t (noteScr t rank off n fids late) := by
  unfold noteScr
  cases mget t.mmas rank <;> dsimp only <;> split <;> exact ⟨rfl, rfl, rfl, rfl, fun _ _ _ => rfl⟩

theorem scrStore_part (t : Train) (rank off : Nat) (bs : List Byte) (poison : Bool) (fids : List Nat) (p : Nat → Prop)
    (hp : ∀ j, off ≤ j → j < off + bs.length → p j) : ScrPart rank p t (scrStore t rank off bs poison fids) :=
  (scrPut_part t rank off bs poison p hp).trans (noteScr_part ..)

theorem leBytes_length (n v : Nat) : (leBytes n v).length = n := by
  induction n generalizing v with
  | zero => rfl
  | succ n ih => simp [leBytes, ih]

theorem foldl_part {α : Type} {rank : Nat} {p : Nat → Prop} (g : Train → α → Train) (l : List α) (h : ∀ t, ∀ e ∈ l, ScrPart rank p t (g t e))
    (t : Train) : ScrPart rank p t (l.foldl g t) := by
  induction l generalizing t with
  | nil => exact ScrPart.refl ..
  | cons e l ih => exact (h t e List.mem_cons_self).trans (ih (fun t e he => h t e (List.mem_cons_of_mem _ he)) _)

variable {ls : List Nat} {o : Operand} {bits : Nat}

theorem machine_scratchOnly {x : Ix} {k : Nat} {p : Nat → Prop} {s t : State} (r : SameRegs x ls o bits (fun q => o = .pred q) s t)
    (g : SameGens s t) (m : SameMachine s t) : ScratchOnly x ls o bits k p s t where
  regs := r
  gens := g
  bytes := by
    intro k r off _
    have := m.memory.scratch k
    unfold scrByte
    revert this
    cases mget t.trains k <;> cases mget s.trains k <;> simp
    intro h1 _; rw [h1]
  home := m.memory.home
  l1 := m.memory.l1
  rest := ⟨m.memory.cellar.1, m.host, m.tables.1⟩
  contexts := m.contexts
  frames := m.frames
  tiles := by
    intro k
    have := m.trains k
    revert this
    cases mget t.trains k <;> cases mget s.trains k <;> simp
    intro h1
    exact ⟨(congrArg Train.tiles h1 :), (congrArg Train.bars h1 :)⟩

theorem ScratchOnly.refl (x : Ix) (k : Nat) (p : Nat → Prop) (s : State) : ScratchOnly x ls o bits k p s s :=
  machine_scratchOnly (SameRegs.refl ..) (fun _ _ => rfl) (SameMachine.refl s)

theorem ScratchOnly.trans {x : Ix} {k : Nat} {p : Nat → Prop} {s t u : State} (h : ScratchOnly x ls o bits k p s t) (g : ScratchOnly x ls o bits k p t u) :
    ScratchOnly x ls o bits k p s u where
  regs := h.regs.trans g.regs
  gens := h.gens.trans g.gens
  bytes := fun k r off hn => (g.bytes k r off hn).trans (h.bytes k r off hn)
  home := fun ma key => (g.home ma key).trans (h.home ma key)
  l1 := fun cl wa => (g.l1 cl wa).trans (h.l1 cl wa)
  rest := ⟨g.rest.1.trans h.rest.1, g.rest.2.1.trans h.rest.2.1, g.rest.2.2.trans h.rest.2.2⟩
  contexts := fun c => (g.contexts c).trans (h.contexts c)
  frames := fun k c => (g.frames k c).trans (h.frames k c)
  tiles := fun k => (g.tiles k).trans (h.tiles k)

theorem through_scratchOnly (i : Instr) (s : State) (x : Ix) (a : Args) (k : Nat) (p : Nat → Prop) : ScratchOnly x ls o bits k p s (through i s x a) := by
  obtain ⟨t1, t2, t3, t4⟩ := through_frame i s x a ls o bits (fun q => o = .pred q)
  exact machine_scratchOnly t1 t3 t2

theorem drawn_scratchOnly (i : Instr) (a : Args) (s : State) (x : Ix) (k : Nat) (p : Nat → Prop) : ScratchOnly x ls o bits k p s (drawn i a s x) := by
  obtain ⟨d1, d2, d3⟩ := drawn_frame i a s x
  obtain ⟨r1, r2⟩ := trains_regs d1 x ls o bits (fun q => o = .pred q)
  exact machine_scratchOnly r1 r2 d2

theorem countRank_scratchOnly (s : State) (x : Ix) (rank n : Nat) (as : List (Nat × Nat)) (k : Nat) (p : Nat → Prop) :
    ScratchOnly x ls o bits k p s (countRank s x rank n as) := by
  obtain ⟨d1, d2, d3⟩ := (countEvent_counts s x.ctx 0x030 (x.tr.cores.getD rank 0) (fun c => relCore s c (x.tr.cores.getD rank 0))
    (((as.map (·.2)).flatMap fun o => blocksOf (x.tr.sbase.getD rank 0 + o) n).eraseDups.length -
      ((((as.map (·.2)).flatMap fun o => blocksOf (x.tr.sbase.getD rank 0 + o) n).eraseDups.map (· % 64)).eraseDups).length)).machine
  obtain ⟨r1, r2⟩ := trains_regs d2 x ls o bits (fun q => o = .pred q)
  exact machine_scratchOnly r1 r2 d1

/-- A change of a scratchpad of the train of `x`. -/
theorem modTrain_scratchOnly (s : State) (x : Ix) (rank : Nat) (p : Nat → Prop) (g : Train → Train) (h : ∀ t, ScrPart rank p t (g t)) :
    ScratchOnly x ls o bits rank p s (modTrain s x.ref.train g) := by
  have e1 : ∃ ts, modTrain s x.ref.train g = { s with trains := ts } := by
    unfold modTrain
    cases mget s.trains x.ref.train with
    | none => exact ⟨s.trains, rfl⟩
    | some t => exact ⟨_, rfl⟩
  have e2 : ∀ k c, coachAt (modTrain s x.ref.train g) k c = coachAt s k c := by
    intro k c
    by_cases hk : k = x.ref.train
    · subst hk
      cases ht : mget s.trains x.ref.train with
      | none => simp [coachAt, modTrain, ht]
      | some t => cases c <;> simp [coachAt, modTrain_get ht, ht, Train.coach?, (h t).coaches, (h t).spine]
    · simp [coachAt, modTrain_get_of_ne s _ hk]
  have e3 : ∀ k, (mget (modTrain s x.ref.train g).trains k).map (fun tr => (tr.tiles, tr.bars)) =
      (mget s.trains k).map fun tr => (tr.tiles, tr.bars) := by
    intro k
    by_cases hk : k = x.ref.train
    · subst hk
      cases ht : mget s.trains x.ref.train with
      | none => simp [modTrain, ht]
      | some t => simp [modTrain_get ht, (h t).tiles, (h t).bars]
    · simp [modTrain_get_of_ne s _ hk]
  obtain ⟨ts, e1⟩ := e1
  refine ⟨⟨fun k c l n _ => ?_, fun k c n _ => ?_, fun k c l q _ => ?_⟩, fun k c => by rw [e2], fun k r j n => ?_, ?_, ?_,
    ⟨?_, ?_, ?_⟩, ?_, fun k c => by rw [e2], e3⟩
  · simp only [vReg, laneAt_eq, e2]
  · simp only [sReg, e2]
  · simp only [pReg, laneAt_eq, e2]
  · by_cases hk : k = x.ref.train
    · subst hk
      cases ht : mget s.trains x.ref.train with
      | none => simp [scrByte, modTrain, ht]
      | some t =>
        simp only [scrByte, modTrain_get ht, ht, Option.map_some]
        exact congrArg some ((h t).bytes r j fun e => n ⟨rfl, e⟩)
    · simp [scrByte, modTrain_get_of_ne s _ hk]
  all_goals rw [e1]
  all_goals intros; rfl

theorem scrStored_only (s : State) (x : Ix) (rank n : Nat) (bytes : Nat → List Byte) (hb : ∀ l, (bytes l).length = n) (as : List (Nat × Nat))
    (p : Nat → Prop) (hp : ∀ e ∈ as, ∀ off, e.2 ≤ off → off < e.2 + n → p off) :
    ScratchOnly x ls o bits rank p s (scrStored s x rank bytes as) :=
  modTrain_scratchOnly s x rank p _ fun t => foldl_part _ as (fun t e he => scrStore_part t rank e.2 _ false _ p fun j h1 h2 =>
    hp e he j h1 (by rwa [hb] at h2)) t

theorem wr_scratchOnly (s : State) (x : Ix) (rank : Nat) (p : Nat → Prop) (ho : ∀ n, o ≠ .sr n) (rs : List (Nat × Nat))
    (hr : ∀ r ∈ rs, r.1 ∈ ls) : ScratchOnly x ls o bits rank p s (wr s x o bits rs) := by
  obtain ⟨h1, h2, h3⟩ := wr_frame s x ls o bits (fun q => o = .pred q) ho (fun q h => by simp [h]) rs hr
  exact machine_scratchOnly h1 h3 h2

theorem wrFirst_scratchOnly (s : State) (x : Ix) (rank : Nat) (p : Nat → Prop) (first : Nat) (ho : ∀ n, o ≠ .sr n) (rs : List (Nat × Nat))
    (hr : ∀ r ∈ rs, r.1 ∈ ls) : ScratchOnly x ls o bits rank p s (wrFirst s x o bits first rs) := by
  obtain ⟨qs, hq, e⟩ := wrFirst_eq s x o bits first rs
  rw [e]
  split
  · exact ScratchOnly.refl ..
  · exact wr_scratchOnly s x rank p ho qs fun r h => hr r (hq r h)

/-- The atomic steps of lanes in a scratchpad. -/
theorem scrSteps_part (x : Ix) (m : AtomMod) (p : Nat → Prop) (ks : List (Nat × LStep))
    (h : ∀ k ∈ ks, ∀ j, k.1 ≤ j → j < k.1 + (if m.w64 then 8 else 4) → p j) (t : Train) :
    ScrPart x.rank p t (scrSteps x m ks t).2.2 ∧ ∀ e ∈ (scrSteps x m ks t).1, ∃ k ∈ ks, k.2.lane = e.1 := by
  induction ks generalizing t with
  | nil => exact ⟨ScrPart.refl .., fun e he => absurd he (by simp [scrSteps])⟩
  | cons k ks ih =>
    obtain ⟨off, k⟩ := k
    have h0 : ScrPart x.rank p t (scrStep t x m off k).2 := by
      unfold scrStep
      have hp := h _ List.mem_cons_self
      dsimp only at hp ⊢
      generalize (if m.w64 then 8 else 4) = n at hp ⊢
      split
      · exact ScrPart.refl ..
      · exact scrStore_part t x.rank off _ false _ p fun j h1 h2 => hp j h1 (by rwa [leBytes_length] at h2)
    unfold scrSteps
    obtain ⟨h1, h2⟩ := ih (fun e he => h e (List.mem_cons_of_mem _ he)) (scrStep t x m off k).2
    split
    · next old t1 e =>
      rw [e] at h0 h1 h2
      refine ⟨h0.trans h1, fun e he => ?_⟩
      rcases List.mem_cons.mp he with he | he
      · exact ⟨(off, k), List.mem_cons_self, by rw [he]⟩
      · obtain ⟨k', hk', e'⟩ := h2 e he
        exact ⟨k', List.mem_cons_of_mem _ hk', e'⟩
    · next t1 e =>
      rw [e] at h0 h1 h2
      refine ⟨h0.trans h1, fun e he => ?_⟩
      obtain ⟨k', hk', e'⟩ := h2 e he
      exact ⟨k', List.mem_cons_of_mem _ hk', e'⟩

theorem scrAtomics_only (s : State) (x : Ix) (m : AtomMod) (p : Nat → Prop) (ks : List (Nat × LStep))
    (h : ∀ k ∈ ks, ∀ j, k.1 ≤ j → j < k.1 + (if m.w64 then 8 else 4) → p j) :
    ScratchOnly x ls o bits x.rank p s (scrAtomics s x m ks).2.2 ∧ ∀ e ∈ (scrAtomics s x m ks).1, ∃ k ∈ ks, k.2.lane = e.1 := by
  unfold scrAtomics
  cases ht : mget s.trains x.ref.train with
  | none => exact ⟨ScratchOnly.refl .., fun e he => absurd he (by simp)⟩
  | some t =>
    dsimp only
    have : setTrain s x.ref.train (scrSteps x m ks t).2.2 = modTrain s x.ref.train fun u => (scrSteps x m ks u).2.2 := by
      unfold modTrain; rw [ht]
    rw [this]
    exact ⟨modTrain_scratchOnly s x x.rank p _ fun u => (scrSteps_part x m p ks h u).1, (scrSteps_part x m p ks h t).2⟩

theorem mbBytesOf_length (b : MbObj) : (mbBytesOf b).length = 16 := by simp [mbBytesOf, leBytes_length]

/-- A barrier object is written, or changed, in its 16 bytes (R249, R251). -/
theorem mbPut_only (s : State) (x : Ix) (off : Nat) (g : Train → MbObj) :
    ScratchOnly x ls o bits x.rank (fun j => off ≤ j ∧ j < off + 16) s (modTrain s x.ref.train fun t => mbPut t x.rank off (g t)) :=
  modTrain_scratchOnly s x x.rank _ _ fun t => scrPut_part t x.rank off _ false _ fun j h1 h2 => ⟨h1, by rwa [mbBytesOf_length] at h2⟩

theorem modMb_only (s : State) (x : Ix) (off : Nat) (g : MbObj → MbObj) :
    ScratchOnly x ls o bits x.rank (fun j => off ≤ j ∧ j < off + 16) s (modMb s x.ref.train x.rank off g) :=
  modTrain_scratchOnly s x x.rank _ _ fun t => by
    split
    · exact ScrPart.refl ..
    · exact scrPut_part t x.rank off _ false _ fun j h1 h2 => ⟨h1, by rwa [mbBytesOf_length] at h2⟩

/-! ### Registers and casks -/

variable {pd : Option (BitVec 4)} {x : Ix}

theorem RegsOnly.refl (s : State) : RegsOnly x ls o bits pd s s := ⟨SameRegs.refl .., SameMachine.refl s, fun _ _ => rfl⟩

theorem RegsOnly.trans {s t u : State} (h : RegsOnly x ls o bits pd s t) (k : RegsOnly x ls o bits pd t u) : RegsOnly x ls o bits pd s u :=
  ⟨h.regs.trans k.regs, h.machine.trans k.machine, h.gens.trans k.gens⟩

theorem through_regsOnly (i : Instr) (s : State) (y : Ix) (a : Args) : RegsOnly x ls o bits pd s (through i s y a) := by
  obtain ⟨h1, h2, h3, h4⟩ := through_frame i s y a [] .zero 32 (fun _ => false)
  exact ⟨⟨fun k c l n _ => h1.v k c l n fun e => absurd e.2.2.1 (by simp), fun k c n _ => h1.u k c n fun e => absurd e.2.2 (by simp [namesS]),
    fun k c l q _ => h1.p k c l q fun e => absurd e.2.2.1 (by simp)⟩, h2, h3⟩

theorem drawn_regsOnly (i : Instr) (a : Args) (s : State) (y : Ix) : RegsOnly x ls o bits pd s (drawn i a s y) := by
  obtain ⟨d1, d2, _⟩ := drawn_frame i a s y
  obtain ⟨r1, r2⟩ := trains_regs d1 x ls o bits (fun q => o = .pred q || pd = some q)
  exact ⟨r1, d2, r2⟩

theorem caskPut_regsOnly (s : State) (cl k : Nat) (c : Cask) : RegsOnly x ls o bits pd s (caskPut s cl k c) := by
  obtain ⟨r1, r2⟩ := trains_regs (s := s) (t := caskPut s cl k c) rfl x ls o bits (fun q => o = .pred q || pd = some q)
  exact ⟨r1, caskPut_machine s cl k c, r2⟩

theorem wr_regsOnly (s : State) (ho : ∀ n, o ≠ .sr n) (rs : List (Nat × Nat)) (hr : ∀ r ∈ rs, r.1 ∈ ls) :
    RegsOnly x ls o bits pd s (wr s x o bits rs) := by
  obtain ⟨h1, h2, h3⟩ := wr_frame s x ls o bits (fun q => o = .pred q || pd = some q) ho (fun q h => by simp [h]) rs hr
  exact ⟨h1, h2, h3⟩

theorem wrPred_regsOnly (s : State) (p : BitVec 4) (rs : List (Nat × Bool)) (hr : ∀ r ∈ rs, r.1 ∈ ls) :
    RegsOnly x ls o bits (some p) s (wrPred s x p rs) := by
  obtain ⟨h1, h2, h3⟩ := wrPred_frame s x ls o bits (fun q => o = .pred q || some p = some q) p (by simp) rs hr
  exact ⟨h1, h2, h3⟩

theorem OtherCasks.trans {k : Nat} {s t u : State} (h : OtherCasks x k s t) (g : OtherCasks x k t u) : OtherCasks x k s u :=
  fun cl j n => (g cl j n).trans (h cl j n)

theorem otherCasks_of_clusters {k : Nat} {s t : State} (h : t.clusters = s.clusters) : OtherCasks x k s t :=
  fun cl j _ => by unfold caskGet State.cluster; rw [h]

theorem caskPut_others (s : State) (k : Nat) (c : Cask) : OtherCasks x k s (caskPut s x.cluster k c) := by
  intro cl j h
  unfold caskGet caskPut
  by_cases hc : cl = x.cluster
  · subst hc
    rw [modCluster_get, mgetD_mput, if_neg fun e => h ⟨rfl, e⟩]
  · rw [modCluster_get_of_ne _ _ hc]

theorem wr_others (s : State) (k bits : Nat) (o : Operand) (rs : List (Nat × Nat)) : OtherCasks x k s (wr s x o bits rs) :=
  otherCasks_of_clusters (modCoach_clusters ..)

theorem wrPred_others (s : State) (k : Nat) (p : BitVec 4) (rs : List (Nat × Bool)) : OtherCasks x k s (wrPred s x p rs) :=
  otherCasks_of_clusters (modCoach_clusters ..)

theorem through_others (i : Instr) (s : State) (a : Args) (k : Nat) : OtherCasks x k s (through i s x a) :=
  otherCasks_of_clusters (through_frame i s x a [] .zero 32 (fun _ => false)).2.2.2

theorem mem_lanes {α : Type} (ls : List Nat) (g : Nat → α) : ∀ r ∈ ls.map (fun l => (l, g l)), r.1 ∈ ls := by
  intro r hr
  obtain ⟨l, hl, rfl⟩ := List.mem_map.mp hr
  exact hl

/-! ### Arrivals at barriers -/

theorem RegsOnly.arrival {s t : State} (h : RegsOnly x ls o 32 none s t) : ArrivalOnly x ls o s t where
  regs := ⟨h.regs.v, h.regs.u, fun k c l q n => h.regs.p k c l q (by simpa using n)⟩
  gens := h.gens
  memory := h.machine.memory
  trains k := by
    have := congrArg (Option.map fun tr : Train => { tr with bars := [] }) (h.machine.trains k)
    simpa only [Option.map_map, Function.comp_def] using this
  frames := h.machine.frames
  contexts := h.machine.contexts
  clusters := h.machine.clusters
  tables := ⟨h.machine.tables.1, h.machine.tables.2.1, h.machine.tables.2.2.2⟩
  host := h.machine.host
  clock := h.machine.clock

theorem ArrivalOnly.trans {s t u : State} (h : ArrivalOnly x ls o s t) (k : ArrivalOnly x ls o t u) : ArrivalOnly x ls o s u where
  regs := h.regs.trans k.regs
  gens := h.gens.trans k.gens
  memory := ⟨fun a b => (k.memory.home a b).trans (h.memory.home a b), k.memory.poison.trans h.memory.poison,
    fun a b => (k.memory.l1 a b).trans (h.memory.l1 a b),
    ⟨k.memory.cellar.1.trans h.memory.cellar.1, k.memory.cellar.2.trans h.memory.cellar.2⟩,
    fun a => (k.memory.scratch a).trans (h.memory.scratch a),
    ⟨k.memory.coming.1.trans h.memory.coming.1, k.memory.coming.2.trans h.memory.coming.2⟩⟩
  trains n := (k.trains n).trans (h.trains n)
  frames n c := (k.frames n c).trans (h.frames n c)
  contexts c := (k.contexts c).trans (h.contexts c)
  clusters c := (k.clusters c).trans (h.clusters c)
  tables := ⟨k.tables.1.trans h.tables.1, k.tables.2.1.trans h.tables.2.1, k.tables.2.2.1.trans h.tables.2.2.1,
    k.tables.2.2.2.trans h.tables.2.2.2⟩
  host := k.host.trans h.host
  clock := k.clock.trans h.clock

/-- Lanes of a coach that differ in their arrivals alone. -/
structure SameLanes (co co' : Coach) : Prop where
  lanes : ∀ l, (mget co'.lanes l).map (fun k => { k with arrived := 0 }) = (mget co.lanes l).map fun k => { k with arrived := 0 }
  rest : { co' with lanes := [] } = { co with lanes := [] }

theorem SameLanes.refl (co : Coach) : SameLanes co co := ⟨fun _ => rfl, rfl⟩

theorem SameLanes.trans {a b c : Coach} (h : SameLanes a b) (k : SameLanes b c) : SameLanes a c :=
  ⟨fun l => (k.lanes l).trans (h.lanes l), k.rest.trans h.rest⟩

/-- Trains that differ in barriers and in the arrivals of lanes, and barriers of launches, are all that differ. -/
theorem arrival_of_trains {s t : State} (e : ∃ ts lb, t = { s with trains := ts, lbars := lb })
    (h : ∀ k c, Option.Rel SameLanes (coachAt s k c) (coachAt t k c))
    (r : ∀ k, (mget t.trains k).map (fun tr => { tr.rest with bars := [] }) = (mget s.trains k).map fun tr => { tr.rest with bars := [] }) :
    ArrivalOnly x ls o s t := by
  have lane : ∀ (g : Lane → Word32), (∀ k : Lane, ∀ m, g { k with arrived := m } = g k) → ∀ k c l, (laneAt t k c l).map g = (laneAt s k c l).map g := by
    intro g hg k c l
    rw [laneAt_eq, laneAt_eq]
    have := h k c
    revert this
    cases coachAt s k c <;> cases coachAt t k c <;> intro hr
    · rfl
    · cases hr
    · cases hr
    · cases hr with
      | some hr =>
        have h1 := congrArg (Option.map g) (hr.lanes l)
        simpa only [Option.bind_some, Option.map_map, Function.comp_def, hg] using h1
  have coach : ∀ {α : Type} (g : Coach → α), (∀ co : Coach, ∀ m, g { co with lanes := m } = g co) → ∀ k c, (coachAt t k c).map g = (coachAt s k c).map g := by
    intro α g hg k c
    have := h k c
    revert this
    cases coachAt s k c <;> cases coachAt t k c <;> intro hr
    · rfl
    · cases hr
    · cases hr
    · next a b =>
      cases hr with
      | some hr =>
        exact congrArg some ((hg b []).symm.trans ((congrArg g hr.rest).trans (hg a [])))
  have scr : ∀ k, (mget t.trains k).map (fun tr => (tr.scr, tr.scrPoison)) = (mget s.trains k).map fun tr => (tr.scr, tr.scrPoison) := by
    intro k
    have := congrArg (Option.map fun tr : Train => (tr.scr, tr.scrPoison)) (r k)
    simpa only [Option.map_map, Function.comp_def, Train.rest] using this
  have pr : ∀ k c l q, pReg t k c l q = pReg s k c l q := by
    intro k c l q
    have h1 : (laneAt t k c l).map (fun k => k.pred q) = (laneAt s k c l).map fun k => k.pred q := by
      rw [laneAt_eq, laneAt_eq]
      have := h k c
      revert this
      cases coachAt s k c <;> cases coachAt t k c <;> intro hr
      · rfl
      · cases hr
      · cases hr
      · cases hr with
        | some hr =>
          have h1 := congrArg (Option.map fun k : Lane => k.pred q) (hr.lanes l)
          simpa only [Option.bind_some, Option.map_map, Function.comp_def, Lane.pred] using h1
    exact h1
  obtain ⟨ts, lb, e⟩ := e
  refine ⟨⟨fun k c l n _ => lane (fun k => k.reg n) (fun _ _ => rfl) k c l, fun k c n _ => coach (fun co => co.sreg n) (fun _ _ => rfl) k c,
    fun k c l q _ => pr k c l q⟩, fun k c => coach (·.gen) (fun _ _ => rfl) k c, ⟨?_, ?_, ?_, ?_, scr, ?_⟩, r,
    fun k c => coach (·.frames) (fun _ _ => rfl) k c, ?_, ?_, ?_, ?_, ?_⟩
  all_goals rw [e]
  all_goals first | (intros; rfl) | exact ⟨rfl, rfl⟩ | exact ⟨rfl, rfl, rfl, rfl⟩

theorem SameLanes.rel {a b : Option Coach} (h : a = b) : Option.Rel SameLanes a b := by
  subst h
  cases a
  · exact .none
  · exact .some (SameLanes.refl _)

theorem sameLanes_modLane (co : Coach) (i : Nat) (f : Lane → Lane) (h : ∀ k, { f k with arrived := 0 } = { k with arrived := 0 }) :
    SameLanes co (modLane co i f) := by
  refine ⟨fun l => ?_, by unfold modLane; split <;> rfl⟩
  by_cases e : l = i
  · subst e
    rw [modLane_get]
    cases mget co.lanes l
    · rfl
    · exact congrArg some (h _)
  · rw [modLane_get_of_ne _ _ e]

theorem setArrived_same (b : Nat) (ls : List Nat) (co : Coach) : SameLanes co (setArrived b ls co) := by
  unfold setArrived
  induction ls generalizing co with
  | nil => exact SameLanes.refl co
  | cons l ls ih => exact (sameLanes_modLane co l (fun k => { k with arrived := k.arrived ||| (1#17 <<< b) }) fun _ => rfl).trans (ih _)

theorem mget_map {α β : Type} (f : Nat → α → β) (m : SMap α) (k : Nat) : mget (m.map fun e => (e.1, f e.1 e.2)) k = (mget m k).map (f k) := by
  induction m with
  | nil => rfl
  | cons e m ih =>
    simp only [List.map_cons, mget]
    split
    · next h => rw [h]; rfl
    · exact ih

/-- A train after which only arrivals of lanes, barrier `b` if there is one, and what `Train.rest` leaves out differ. -/
structure Arrives (b : Option Nat) (t u : Train) : Prop where
  coach : ∀ c, Option.Rel SameLanes (t.coach? c) (u.coach? c)
  rest : { u.rest with bars := [] } = { t.rest with bars := [] }
  whole : b = none → u.bars = t.bars
  others : ∀ j, b ≠ some j → u.barrier j = t.barrier j

theorem Arrives.refl (b : Option Nat) (t : Train) : Arrives b t t := ⟨fun _ => SameLanes.rel rfl, rfl, fun _ => rfl, fun _ _ => rfl⟩

theorem Arrives.trans {b : Option Nat} {t u v : Train} (h : Arrives b t u) (k : Arrives b u v) : Arrives b t v := by
  refine ⟨fun c => ?_, k.rest.trans h.rest, fun e => (k.whole e).trans (h.whole e), fun j n => (k.others j n).trans (h.others j n)⟩
  have h1 := h.coach c
  have h2 := k.coach c
  revert h1 h2
  cases t.coach? c <;> cases u.coach? c <;> cases v.coach? c <;> intro h1 h2 <;> first | exact .none | (cases h1; done) | (cases h2; done) | skip
  cases h1 with | some h1 => cases h2 with | some h2 => exact .some (h1.trans h2)

theorem train_eq {t u : Train} (h : { u with bars := [] } = { t with bars := [] }) (e : u.bars = t.bars) : u = t := by
  cases t
  cases u
  simp only [Train.mk.injEq] at h e ⊢
  simp only [h, e, and_self]

theorem Arrives.full {t u : Train} (h : Arrives none t u) : u.rest = t.rest := train_eq h.rest (h.whole rfl)

theorem mapLanes_arrives (b : Option Nat) (t : Train) (n : Nat) : Arrives b t (t.mapLanes (Lane.clearArrived n)) := by
  have one : ∀ co : Coach, SameLanes co { co with lanes := co.lanes.map fun l => (l.1, Lane.clearArrived n l.2) } := by
    refine fun co => ⟨fun l => ?_, rfl⟩
    dsimp only
    rw [mget_map fun _ => Lane.clearArrived n]
    cases mget co.lanes l <;> rfl
  refine ⟨fun c => ?_, rfl, fun _ => rfl, fun _ _ => rfl⟩
  cases c with
  | spine =>
    simp only [Train.mapLanes, Train.coach?]
    cases t.spine
    · exact .none
    · exact .some (one _)
  | coach c =>
    let g (co : Coach) : Coach := { co with lanes := co.lanes.map fun l => (l.1, Lane.clearArrived n l.2) }
    have e : (t.mapLanes (Lane.clearArrived n)).coach? (.coach c) = (mget t.coaches c).map g := mget_map (fun _ => g) t.coaches c
    rw [e, show t.coach? (.coach c) = mget t.coaches c from rfl]
    cases mget t.coaches c
    · exact .none
    · exact .some (one _)

theorem setBar_arrives (t : Train) (b : Nat) (r : Barrier) : Arrives (some b) t { t with bars := mset t.bars b r } := by
  refine ⟨fun c => SameLanes.rel (by cases c <;> rfl), rfl, fun e => (nomatch e), fun j n => ?_⟩
  exact mgetD_mset_of_ne _ _ _ fun e => n (congrArg some e.symm)

theorem testBar_arrives (t : Train) (b : Nat) : Arrives (some b) t (t.testBar b) := by
  unfold Train.testBar
  dsimp only
  generalize (decide ((t.barrier b).narr > 0) && _) = q
  split
  · exact (mapLanes_arrives _ t b).trans (setBar_arrives (t.mapLanes (Lane.clearArrived b)) b ⟨(t.barrier b).ph + 1, 0, 0⟩)
  · exact Arrives.refl _ t

theorem setCoach_arrives (b : Option Nat) (t : Train) (c : CoachId) (co co' : Coach) (h : t.coach? c = some co) (hs : SameLanes co co') :
    Arrives b t (t.setCoach c co') := by
  refine ⟨fun d => ?_, by rw [setCoach_rest], fun _ => by cases c <;> rfl, fun _ _ => by cases c <;> rfl⟩
  by_cases e : d = c
  · subst e
    rw [h, setCoach_coach]
    exact .some hs
  · rw [setCoach_coach_of_ne t co' e]
    exact SameLanes.rel rfl

/-- Trains of which each differs as `Arrives` says, and barriers of launches, are all that differ. -/
structure TrainsArrive (b : Nat → Option Nat) (s t : State) : Prop where
  rest : ∃ ts lb, t = { s with trains := ts, lbars := lb }
  each : ∀ k, Option.Rel (Arrives (b k)) (mget s.trains k) (mget t.trains k)

theorem TrainsArrive.refl (b : Nat → Option Nat) (s : State) : TrainsArrive b s s :=
  ⟨⟨s.trains, s.lbars, rfl⟩, fun k => by cases mget s.trains k; exacts [.none, .some (Arrives.refl _ _)]⟩

theorem TrainsArrive.trans {b : Nat → Option Nat} {s t u : State} (h : TrainsArrive b s t) (k : TrainsArrive b t u) : TrainsArrive b s u := by
  refine ⟨?_, fun n => ?_⟩
  · obtain ⟨ts, lb, h⟩ := h.rest
    obtain ⟨us, mb, k⟩ := k.rest
    exact ⟨us, mb, by rw [k, h]⟩
  · have h1 := h.each n
    have h2 := k.each n
    revert h1 h2
    cases mget s.trains n <;> cases mget t.trains n <;> cases mget u.trains n <;> intro h1 h2 <;>
      first | exact .none | (cases h1; done) | (cases h2; done) | skip
    cases h1 with | some h1 => cases h2 with | some h2 => exact .some (h1.trans h2)

theorem modTrain_trainsArrive (b : Nat → Option Nat) (s : State) (k : Nat) (f : Train → Train) (h : ∀ t, Arrives (b k) t (f t)) :
    TrainsArrive b s (modTrain s k f) := by
  refine ⟨?_, fun n => ?_⟩
  · unfold modTrain setTrain
    cases mget s.trains k
    · exact ⟨s.trains, s.lbars, rfl⟩
    · exact ⟨_, s.lbars, rfl⟩
  · by_cases e : n = k
    · subst e
      cases ht : mget s.trains n with
      | none => simp only [modTrain, ht]; exact .none
      | some t => rw [modTrain_get ht]; exact .some (h t)
    · rw [modTrain_get_of_ne s f e]
      cases mget s.trains n
      exacts [.none, .some (Arrives.refl _ _)]

theorem modCoach_trainsArrive (b : Nat → Option Nat) (s : State) (k : Nat) (c : CoachId) (f : Coach → Coach) (h : ∀ co, SameLanes co (f co)) :
    TrainsArrive b s (modCoach s k c f) :=
  modTrain_trainsArrive b s k _ fun t => by
    split
    · next co e => exact setCoach_arrives _ t c co _ e (h co)
    · exact Arrives.refl _ t

theorem barArrive_trains (s : State) (x : Ix) (b c : Nat) (ls : List Nat) :
    TrainsArrive (fun k => if k = x.ref.train then some b else none) s (barArrive s x b c ls) := by
  have h2 : ∀ s : State, TrainsArrive (fun k => if k = x.ref.train then some b else none) s
      (modTrain s x.ref.train fun t => Train.testBar { t with bars := mset t.bars b ⟨(t.barrier b).ph, c, (t.barrier b).narr + ls.length⟩ } b) := by
    refine fun s => modTrain_trainsArrive _ s _ _ fun t => ?_
    rw [if_pos rfl]
    exact (setBar_arrives t b _).trans (testBar_arrives _ b)
  unfold barArrive
  split
  · exact (modCoach_trainsArrive _ s _ _ _ (setArrived_same b ls)).trans (h2 _)
  · exact h2 s

theorem ite_rec {α : Type} (p : α → Prop) {c : Prop} [Decidable c] {a b : α} (h : c → p a) (k : ¬ c → p b) : p (if c then a else b) := by
  split
  · exact h ‹_›
  · exact k ‹_›

theorem lbars_trainsArrive (b : Nat → Option Nat) (s : State) (lb : SMap LBar) : TrainsArrive b s { s with lbars := lb } :=
  ⟨⟨s.trains, lb, rfl⟩, (TrainsArrive.refl b s).each⟩

theorem arriveLaunch_trains (b : Nat → Option Nat) (s : State) (k : Nat) : TrainsArrive b s (arriveLaunch s k) := by
  unfold arriveLaunch
  cases mget s.trains k with
  | none => exact TrainsArrive.refl b s
  | some tr =>
    refine ite_rec (TrainsArrive b s) (fun _ => lbars_trainsArrive b s _) fun _ => TrainsArrive.refl b s

theorem testLaunch_trains (b : Nat → Option Nat) (s : State) (k : Nat) : TrainsArrive b s (testLaunch s k) := by
  unfold testLaunch
  dsimp only
  split
  · refine ⟨⟨_, _, rfl⟩, fun n => ?_⟩
    let g (t : Train) : Train := if (t.gbar && decide (lbarKey t = k)) = true then t.mapLanes (Lane.clearArrived 16) else t
    have e : mget (s.trains.map fun e => if (e.2.gbar && decide (lbarKey e.2 = k)) = true then (e.1, e.2.mapLanes (Lane.clearArrived 16)) else e) n =
        (mget s.trains n).map g := by
      rw [← mget_map fun _ => g]
      congr 2
      funext e
      dsimp only [g]
      split <;> rfl
    dsimp only
    rw [e]
    cases mget s.trains n
    · exact .none
    · exact .some (ite_rec (Arrives _ _) (fun _ => mapLanes_arrives ..) fun _ => Arrives.refl _ _)
  · exact TrainsArrive.refl b s

theorem arriveLaunch_lbars (s : State) (k j : Nat) (h : ∀ tr, mget s.trains k = some tr → j ≠ lbarKey tr) :
    lbarOf (arriveLaunch s k) j = lbarOf s j := by
  unfold arriveLaunch
  cases e : mget s.trains k with
  | none => rfl
  | some tr =>
    exact ite_rec (fun t => lbarOf t j = lbarOf s j) (fun _ => mgetD_mset_of_ne _ _ _ (h tr e)) fun _ => rfl

theorem testLaunch_lbars (s : State) (k j : Nat) (h : j ≠ k) : lbarOf (testLaunch s k) j = lbarOf s j := by
  unfold testLaunch
  dsimp only
  split
  · exact mgetD_mset_of_ne _ _ _ h
  · rfl

theorem TrainsArrive.arrival {b : Nat → Option Nat} {s t : State} (h : TrainsArrive b s t) : ArrivalOnly x ls o s t := by
  refine arrival_of_trains h.rest (fun k c => ?_) fun k => ?_
  · have := h.each k
    simp only [coachAt]
    revert this
    cases mget s.trains k <;> cases mget t.trains k <;> intro hr <;> first | exact .none | (cases hr; done) | skip
    cases hr with | some hr => exact hr.coach c
  · have := h.each k
    revert this
    cases mget s.trains k <;> cases mget t.trains k <;> intro hr <;> first | rfl | (cases hr; done) | skip
    cases hr with | some hr => exact congrArg some hr.rest

theorem TrainsArrive.full {b : Nat → Option Nat} {s t : State} (h : TrainsArrive b s t) (k : Nat) (e : b k = none) :
    (mget t.trains k).map Train.rest = (mget s.trains k).map Train.rest := by
  have := h.each k
  rw [e] at this
  revert this
  cases mget s.trains k <;> cases mget t.trains k <;> intro hr <;> first | rfl | (cases hr; done) | skip
  cases hr with | some hr => exact congrArg some hr.full

theorem TrainsArrive.bars {b : Nat → Option Nat} {s t : State} (h : TrainsArrive b s t) (k j : Nat) (n : b k ≠ some j) :
    (mget t.trains k).map (·.barrier j) = (mget s.trains k).map (·.barrier j) := by
  have := h.each k
  revert this
  cases mget s.trains k <;> cases mget t.trains k <;> intro hr <;> first | rfl | (cases hr; done) | skip
  cases hr with | some hr => exact congrArg some (hr.others j n)

theorem onward_regsOnly (s : State) (y : Ix) (pc : Word64) (keep : Frag → Frag) (i : Instr) (a : Args) (q : Bool) :
    RegsOnly x ls o bits pd s (noteIssue (onwardAt s y pc keep) y i a q) := by
  obtain ⟨a1, a2, a3⟩ := onwardAt_frame s y pc keep [] .zero 32 (fun _ => false)
  obtain ⟨b1, b2, _⟩ := noteIssue_frame (onwardAt s y pc keep) y i a q
  obtain ⟨c1, c2⟩ := coaches_regs b2 x ls o bits (fun q => o = .pred q || pd = some q)
  exact ⟨SameRegs.trans ⟨fun k c l n _ => a1.v k c l n fun e => absurd e.2.2.1 (by simp), fun k c n _ => a1.u k c n fun e => absurd e.2.2 (by simp [namesS]),
    fun k c l q _ => a1.p k c l q fun e => absurd e.2.2.1 (by simp)⟩ c1, a2.trans b1, a3.trans c2⟩

theorem RegsOnly.rests {s t : State} (h : RegsOnly x ls o bits pd s t) (k : Nat) :
    (mget t.trains k).map Train.rest = (mget s.trains k).map Train.rest := h.machine.trains k

theorem RegsOnly.bars {s t : State} (h : RegsOnly x ls o bits pd s t) (k j : Nat) :
    (mget t.trains k).map (·.barrier j) = (mget s.trains k).map (·.barrier j) := by
  have := congrArg (Option.map fun tr : Train => tr.barrier j) (h.rests k)
  simpa only [Option.map_map, Function.comp_def, Train.rest, Train.barrier] using this

theorem RegsOnly.lbars {s t : State} (h : RegsOnly x ls o bits pd s t) : t.lbars = s.lbars := h.machine.tables.2.2.1

end Sys2Proof.Machine
end

