-- ==== Sys2Proof/Laws/Values.lean ====
section
/-! SUPPORT. What a destination holds after an instruction that writes one value, or one value and one flag, per lane. -/

namespace Sys2Proof.Machine

open Sys2Proof

/-! ### Registers of a lane and of a coach -/

theorem setRegs_reg (l : Lane) (i m x j : Nat) (h : j < m) : (setRegs l i m x).reg (i + j) = w32 (x / 2 ^ (32 * j)) := by
  unfold setRegs
  induction m with
  | zero => omega
  | succ m ih =>
    rw [List.range_succ, List.foldl_append, List.foldl_cons, List.foldl_nil, setReg_reg]
    split
    · next e => rw [Nat.add_left_cancel e]
    · next e => exact ih (by omega)

theorem setSregs_sreg (co : Coach) (i m x j : Nat) (h : j < m) : (setSregs co i m x).sreg (i + j) = w32 (x / 2 ^ (32 * j)) := by
  unfold setSregs
  induction m with
  | zero => omega
  | succ m ih =>
    rw [List.range_succ, List.foldl_append, List.foldl_cons, List.foldl_nil, setSreg_sreg]
    split
    · next e => rw [Nat.add_left_cancel e]
    · next e => exact ih (by omega)

/-- A predicate written reads back, and p15 reads 1 (R50). -/
theorem setPred_same (l : Lane) (q : BitVec 4) (b : Bool) : (l.setPred q b).pred q = (q = 15 || b) := by
  unfold Lane.setPred Lane.pred
  by_cases h : q = 15
  · simp [h]
  · have : q.toNat < 15 := by
      have := q.isLt
      have : q.toNat ≠ 15 := fun e => h (BitVec.eq_of_toNat_eq e)
      omega
    simp only [h, if_false, decide_false, Bool.false_or]
    cases b <;> simp [this]

/-! ### A fold over lanes -/

/-- Writes to lanes other than `l` leave it. -/
theorem foldLane_other {α : Type} (g : α → Lane → Lane) (rs : List (Nat × α)) (co : Coach) (l : Nat) (h : ∀ r ∈ rs, r.1 ≠ l) :
    mget (rs.foldl (fun co r => modLane co r.1 (g r.2)) co).lanes l = mget co.lanes l := by
  induction rs generalizing co with
  | nil => rfl
  | cons r rs ih =>
    rw [List.foldl_cons, ih _ fun e he => h e (List.mem_cons_of_mem _ he)]
    exact modLane_get_of_ne _ _ fun e => h r List.mem_cons_self e.symm

/-- One write per lane: lane `l` has its own. -/
theorem foldLane_get {α : Type} (g : α → Lane → Lane) (rs : List (Nat × α)) (co : Coach) (hn : (rs.map (·.1)).Nodup) (l : Nat)
    (v : α) (h : (l, v) ∈ rs) : mget (rs.foldl (fun co r => modLane co r.1 (g r.2)) co).lanes l = (mget co.lanes l).map (g v) := by
  induction rs generalizing co with
  | nil => cases h
  | cons r rs ih =>
    rw [List.map_cons, List.nodup_cons] at hn
    rw [List.foldl_cons]
    rcases List.mem_cons.mp h with rfl | h
    · rw [foldLane_other g rs _ l fun e he eq => hn.1 (List.mem_map.mpr ⟨e, he, eq⟩)]
      exact modLane_get _ _ _
    · rw [ih _ hn.2 h, modLane_get_of_ne _ _ fun e => hn.1 (List.mem_map.mpr ⟨(l, v), h, e⟩)]

/-! ### Enabled lanes -/

theorem lanesOf_sorted (m : Word32) : (lanesOf m).Pairwise (· < ·) := List.Pairwise.filter _ List.pairwise_lt_range

theorem enabled_sorted (x : Ix) (a : Args) : (enabled x a).Pairwise (· < ·) := List.Pairwise.filter _ (lanesOf_sorted _)

theorem enabled_nodup (x : Ix) (a : Args) : (enabled x a).Nodup := (enabled_sorted x a).imp fun h => Nat.ne_of_lt h

theorem enabled_lane {x : Ix} {a : Args} {l : Nat} (h : l ∈ enabled x a) : ∃ k, mget x.co.lanes l = some k := by
  have := (List.mem_filter.mp h).2
  cases hk : mget x.co.lanes l with
  | none => simp [hk] at this
  | some k => exact ⟨k, rfl⟩

/-- The lowest lane heads a list in ascending order. -/
theorem head_lowest {ls : List Nat} (h : ls.Pairwise (· < ·)) {l : Nat} (hl : l ∈ ls) (hm : ∀ k ∈ ls, l ≤ k) :
    ∃ t, ls = l :: t := by
  cases ls with
  | nil => cases hl
  | cons k t =>
    rcases List.mem_cons.mp hl with rfl | hl
    · exact ⟨t, rfl⟩
    · exact absurd (hm k List.mem_cons_self) (Nat.not_le.mpr (List.rel_of_pairwise_cons h hl))

/-! ### What a destination holds -/

/-- The coach after a destination write holds lane `l`'s value. -/
theorem wr_holds (s : State) (x : Ix) (o : Operand) (bits : Nat) (ls : List Nat) (val : Nat → Nat) (co : Coach)
    (hc : coachAt s x.ref.train x.ref.coach = some co) (hs : ls.Pairwise (· < ·)) (l : Nat) (hl : l ∈ ls)
    (hk : ∃ k, mget co.lanes l = some k) (hm : ∀ n, o = .s n → ∀ k ∈ ls, l ≤ k) :
    Holds (wr s x o bits (ls.map fun l => (l, val l))) x o bits l (val l) := by
  obtain ⟨k, hk⟩ := hk
  have hn : ((ls.map fun l => (l, val l)).map (·.1)).Nodup := by
    rw [List.map_map]
    simp only [Function.comp_def, List.map_id']
    exact hs.imp fun h => Nat.ne_of_lt h
  have hmem : (l, val l) ∈ ls.map fun l => (l, val l) := List.mem_map.mpr ⟨l, hl, rfl⟩
  cases o with
  | v i =>
    intro j hj
    simp only [vReg, laneAt_eq, wr, modCoach_at, and_self, if_true, hc, Option.map_some, Option.bind_some]
    have := foldLane_get (fun v (k : Lane) => setRegs k i.toNat (bits / 32) v) _ co hn l (val l) hmem
    simp only [putDst, setLane]
    rw [this, hk]
    exact congrArg some (setRegs_reg k i.toNat (bits / 32) (val l) j hj)
  | s i =>
    intro j hj
    simp only [sReg, wr, modCoach_at, and_self, if_true, hc, Option.map_some]
    obtain ⟨t, rfl⟩ := head_lowest hs hl (hm i rfl)
    exact congrArg some (setSregs_sreg co i.toNat (bits / 32) (val l) j hj)
  | pred q =>
    show pReg _ _ _ l q = _
    simp only [pReg, laneAt_eq, wr, modCoach_at, and_self, if_true, hc, Option.map_some, Option.bind_some]
    have := foldLane_get (fun v (k : Lane) => k.setPred q (v % 2 = 1)) _ co hn l (val l) hmem
    simp only [putDst, setLane]
    rw [this, hk]
    exact congrArg some (setPred_same k q _)
  | _ => trivial

theorem wrPred_holds (s : State) (x : Ix) (q : BitVec 4) (ls : List Nat) (val : Nat → Bool) (co : Coach)
    (hc : coachAt s x.ref.train x.ref.coach = some co) (hs : ls.Pairwise (· < ·)) (l : Nat) (hl : l ∈ ls)
    (hk : ∃ k, mget co.lanes l = some k) :
    pReg (wrPred s x q (ls.map fun l => (l, val l))) x.ref.train x.ref.coach l q = some (q = 15 || val l) := by
  obtain ⟨k, hk⟩ := hk
  have hn : ((ls.map fun l => (l, val l)).map (·.1)).Nodup := by
    rw [List.map_map]
    simp only [Function.comp_def, List.map_id']
    exact hs.imp fun h => Nat.ne_of_lt h
  simp only [pReg, laneAt_eq, wrPred, modCoach_at, and_self, if_true, hc, Option.map_some, Option.bind_some]
  have := foldLane_get (fun v (k : Lane) => k.setPred q v) _ co hn l (val l) (List.mem_map.mpr ⟨l, hl, rfl⟩)
  unfold putPred
  rw [this, hk]
  exact congrArg some (setPred_same k q _)

/-- `Holds` reads only registers that are the same. -/
theorem Holds.of_same {s t : State} {x : Ix} {ls : List Nat} {p : BitVec 4 → Bool} {o : Operand} {bits l v : Nat}
    (h : Holds s x o bits l v) (r : SameRegs x ls .unused 32 p s t) (hp : ∀ q, o = .pred q → p q = false) :
    Holds t x o bits l v := by
  cases o with
  | v i => exact fun j hj => (r.v _ _ _ _ (by simp [namesV])).trans (h j hj)
  | s i => exact fun j hj => (r.u _ _ _ (by simp [namesS])).trans (h j hj)
  | pred q => exact (r.p _ _ _ _ (by simp [hp q rfl])).trans h
  | _ => trivial

theorem wr_lanes (s : State) (x : Ix) (o : Operand) (bits : Nat) (rs : List (Nat × Nat)) (co : Coach)
    (hc : coachAt s x.ref.train x.ref.coach = some co) (l : Nat) (hk : ∃ k, mget co.lanes l = some k) :
    ∃ c, coachAt (wr s x o bits rs) x.ref.train x.ref.coach = some c ∧ ∃ k, mget c.lanes l = some k := by
  refine ⟨putDst co o bits rs, by simp [wr, modCoach_at, hc], ?_⟩
  have one (co : Coach) (i v : Nat) (h : ∃ k, mget co.lanes l = some k) : ∃ k, mget (setLane co o bits i v).lanes l = some k := by
    have lane (f : Lane → Lane) : ∃ k, mget (modLane co i f).lanes l = some k := by
      by_cases e : l = i
      · subst e
        obtain ⟨k, hk⟩ := h
        exact ⟨f k, by rw [modLane_get, hk]; rfl⟩
      · rw [modLane_get_of_ne _ _ e]; exact h
    cases o with
    | v j => exact lane _
    | pred q => exact lane _
    | sr n =>
      simp only [setLane]
      split
      · exact lane _
      · split <;> exact h
    | _ => exact h
  have fold (rs : List (Nat × Nat)) (co : Coach) (h : ∃ k, mget co.lanes l = some k) :
      ∃ k, mget (rs.foldl (fun co r => setLane co o bits r.1 r.2) co).lanes l = some k := by
    induction rs generalizing co with
    | nil => exact h
    | cons r rs ih => exact ih _ (one co r.1 r.2 h)
  cases o with
  | s i =>
    cases rs with
    | nil => exact hk
    | cons r rs => exact (setSregs_spec co i.toNat (bits / 32) r.2).1 ▸ hk
  | _ => exact fold rs co hk

/-- What an instruction that writes one destination per lane leaves there. -/
theorem sets_holds {i : Instr} {a : Args} {s : State} {x : Ix} (hx : ixOf s x.ref = some x) (o : Operand) (bits : Nat)
    (val : State → Nat → Nat) {l : Nat} (hl : l ∈ enabled x a) (hm : ∀ n, o = .s n → ∀ k ∈ enabled x a, l ≤ k) :
    Holds (sets i a s x o bits val) x o bits l (val (drawn i a s x) l) := by
  have hc : coachAt (drawn i a s x) x.ref.train x.ref.coach = some x.co := by
    have := (drawn_frame i a s x).1
    rw [coachAt, this]
    exact (ixOf_coach hx).2.2
  exact (wr_holds _ x o bits _ _ x.co hc (enabled_sorted x a) l hl (enabled_lane hl) hm).of_same
    (through_frame i _ x a [] .unused 32 fun _ => false).1 fun _ _ => rfl

/-- The same for one that writes a flag too. -/
theorem setsFlag_holds {i : Instr} {a : Args} {s : State} {x : Ix} (hx : ixOf s x.ref = some x) (o : Operand) (bits : Nat)
    (pd : Option (BitVec 4)) (val : State → Nat → Nat × Bool) {l : Nat} (hl : l ∈ enabled x a)
    (hp : ∀ q, pd = some q → o ≠ .pred q) :
    ((∀ n, o = .s n → ∀ k ∈ enabled x a, l ≤ k) → Holds (setsFlag i a s x o bits pd val) x o bits l (val (drawn i a s x) l).1) ∧
      ∀ q, pd = some q → pReg (setsFlag i a s x o bits pd val) x.ref.train x.ref.coach l q =
        some (q = 15 || (val (drawn i a s x) l).2) := by
  have hc : coachAt (drawn i a s x) x.ref.train x.ref.coach = some x.co := by
    have := (drawn_frame i a s x).1
    rw [coachAt, this]
    exact (ixOf_coach hx).2.2
  have hk := enabled_lane hl
  have w (hm) := wr_holds (drawn i a s x) x o bits (enabled x a) (fun l => (val (drawn i a s x) l).1) x.co hc (enabled_sorted x a) l
    hl hk hm
  have e1 : ((enabled x a).map fun l => (l, val (drawn i a s x) l)).map (fun r => (r.1, r.2.1)) =
      (enabled x a).map fun l => (l, (val (drawn i a s x) l).1) := by simp
  have e2 : ((enabled x a).map fun l => (l, val (drawn i a s x) l)).map (fun r => (r.1, r.2.2)) =
      (enabled x a).map fun l => (l, (val (drawn i a s x) l).2) := by simp
  unfold setsFlag
  dsimp only
  rw [e1, e2]
  cases pd with
  | none =>
    exact ⟨fun hm => (w hm).of_same (through_frame i _ x a [] .unused 32 fun _ => false).1 fun _ _ => rfl, fun q h => nomatch h⟩
  | some q =>
    obtain ⟨c, hc', hk'⟩ := wr_lanes (drawn i a s x) x o bits ((enabled x a).map fun l => (l, (val (drawn i a s x) l).1)) x.co hc l hk
    have v := wrPred_holds _ x q (enabled x a) (fun l => (val (drawn i a s x) l).2) c hc' (enabled_sorted x a) l hl hk'
    refine ⟨fun hm => ((w hm).of_same (wrPred_frame _ x (enabled x a) .unused 32 (fun r => r = q) q (by simp) _ ?_).1 ?_).of_same
      (through_frame i _ x a [] .unused 32 fun _ => false).1 fun _ _ => rfl, ?_⟩
    · intro r hr
      obtain ⟨e, he, rfl⟩ := List.mem_map.mp hr
      exact he
    · rintro r rfl
      have := hp q rfl
      simp only [ne_eq, Operand.pred.injEq] at this
      simpa using this
    · rintro r h
      cases h
      exact ((through_frame i _ x a [] .unused 32 fun _ => false).1.p _ _ _ _ (by simp)).trans v

end Sys2Proof.Machine
end

