-- ==== Sys2Proof/Tests/Demo.lean ====
section
/-! SUPPORT. A small state for the witnesses: one train of the root on core 0 of the package, with one coach of one lane. -/

namespace Sys2Proof.Tests

open Sys2Proof Sys2Proof.Machine

/-- The lane: v1 is 16, v2 is 3, v5 is 1, every other register 0. -/
def demoLane : Lane := { Lane.init 0 with v := [(1, 16), (2, 3), (5, 1)] }

def demoCoach : Coach := { Coach.oneFrag 1 0x9E3779B9 false with lanes := [(0, demoLane)] }

/-- The train, with a coach and other parts of its own. -/
def demoTrain (co : Coach) : Train := { Train.probe [] true with coaches := [(0, co)], nfib := 1 }

def demoRef : FragRef := ⟨0, .coach 0, 0⟩

/-- Page 0 of the root is machine page 0, to read, write and fetch. -/
def demoTlb : Tlb := ⟨0, 0, 0, 0, true, true, true, 0, true, true⟩

def stateOf (t : Train) : State :=
  { State.reset with cur := some (.frag demoRef), trains := [(0, t)], trainNext := 1, clusters := [(0, { Cluster.init with tlb := [demoTlb] })] }

def demo : State := stateOf (demoTrain demoCoach)

/-- The fragment in turn of a state. -/
def ixIn (s : State) : Ix :=
  match ixOf s demoRef with
  | some x => x
  | none => ⟨demoRef, demoTrain demoCoach, demoCoach, Frag.fresh 1 0 none, false, 0, 0, 0, 512⟩

def demoIx : Ix := ixIn demo

/-- An operand part with guard p15. -/
def ar (a b c : Operand) : Args := ⟨false, 15, 0, false, a, b, c, .unused, 0, 0⟩

/-- `Issues` as a computation, but for the fragment's place. -/
def issuesB (i : Instr) (a : Args) (s : State) (x : Ix) : Bool :=
  s.cur = some (.frag x.ref) && windowCheck i x a = none && !hazard i x a && !pendFull i x && !(enabled x a).isEmpty &&
  ((caskFields i a true).all fun k => (caskIndex s x.ctx x.cluster k.2.1.toNat).isSome) &&
  ((operandCasks i a s x).isEmpty || caskReady s x (operandCasks i a s x)) && !casksBad s x.cluster (operandCasks i a s x) && canonical (x.fr.pc + 12).toNat &&
  !(x.co.step && (x.co.frameOf x.fr.mask).isNone)

theorem issues_of {i : Instr} {a : Args} {s : State} {x : Ix} (h : ixOf s x.ref = some x) (b : issuesB i a s x = true) :
    Issues i a s x := by
  simp only [issuesB, Bool.and_eq_true, Bool.not_eq_true', decide_eq_true_eq, Bool.or_eq_true, List.all_eq_true,
    List.isEmpty_eq_false_iff, List.isEmpty_iff] at b
  obtain ⟨⟨⟨⟨⟨⟨⟨⟨⟨h1, h2⟩, h3⟩, h4⟩, h5⟩, h6⟩, h7⟩, h8⟩, h9⟩, h10⟩ := b
  exact ⟨h1, h, h2, ⟨h3, h4⟩, h5, h6, h7, h8, h9, h10⟩

/-- The same lane on the spine of the train. -/
def spineRef : FragRef := ⟨0, .spine, 0⟩
def spineDemo : State :=
  { stateOf { demoTrain demoCoach with spined := true, spine := some demoCoach } with cur := some (.frag spineRef) }
def spineIx : Ix :=
  match ixOf spineDemo spineRef with
  | some x => x
  | none => demoIx
theorem spine_here : ixOf spineDemo spineIx.ref = some spineIx := rfl

theorem demo_here : ixOf demo demoIx.ref = some demoIx := rfl

/-- `i` issues in the demo state. -/
theorem demo_issues {i : Instr} {a : Args} (b : issuesB i a demo demoIx = true) : Issues i a demo demoIx :=
  issues_of demo_here b

/-- Each instruction of a list issues in the demo state, with its own operand part. -/
theorem demo_all (l : List (Instr × Args)) (b : l.all (fun p => issuesB p.1 p.2 demo demoIx) = true) :
    ∀ p ∈ l, Issues p.1 p.2 demo demoIx := fun p hp => demo_issues (List.all_eq_true.mp b p hp)

/-- An operand part with field D. -/
def ard (a b c d : Operand) : Args := { ar a b c with d := d }

def vvv : Args := ar (.v 4) (.v 1) (.v 2)
def im : IntMod := ⟨.w32, false, false, .none, 0⟩
def im64 : IntMod := ⟨.w64, false, false, .none, 0⟩
def fm : FMod := ⟨.f32, .rn, false, false⟩

/-- Translations of lanes, as a computation. -/
theorem reaches_of {x : Ix} {acc : Access} {n : Nat} {wr hb : Bool} {cl : State → LAcc → Bool} {as : List (Nat × Nat)} {s : State}
    (h1 : (preCheck as n canonical).isNone = true)
    (h2 : ((xlateLanes x acc as [] s).1.all fun r => match r.2.2 with | .ok _ _ => true | _ => false) = true)
    (h3 : (postCheck (xlateLanes x acc as [] s).2 n wr hb (cl (xlateLanes x acc as [] s).2)
      (okLanes (xlateLanes x acc as [] s).1)).isNone = true) : Reaches x acc n wr hb cl as s := by
  refine ⟨Option.isNone_iff_eq_none.mp h1, fun r hr => ?_, Option.isNone_iff_eq_none.mp h3⟩
  have := List.all_eq_true.mp h2 r hr
  cases h : r.2.2 <;> simp [h] at this
  exact ⟨_, _, rfl⟩

/-- Every instruction of a list issues at a state with a fragment in its place. -/
theorem all_at {s : State} {x : Ix} (h : ixOf s x.ref = some x) (l : List (Instr × Args))
    (b : l.all (fun p => issuesB p.1 p.2 s x) = true) : ∀ p ∈ l, Issues p.1 p.2 s x :=
  fun p hp => issues_of h (List.all_eq_true.mp b p hp)

/-- What is read, as a computation. -/
theorem some_of {α β : Type} {o : Option (α × β)} {P : α → β → Bool} (h : (o.any fun r => P r.1 r.2) = true) :
    ∃ a b, o = some (a, b) ∧ P a b = true := by
  obtain - | ⟨a, b⟩ := o
  · simp at h
  · exact ⟨a, b, rfl, by simpa using h⟩

end Sys2Proof.Tests
end

