-- ==== Sys2Proof/Tests/Slice0.lean ====
section
/-! SUPPORT. Small tests: well-formedness, words of every family, and single instructions. Words and results are worked out
by hand from the encoding tables and rules named. -/

namespace Sys2Proof.Tests

open Sys2Proof Sys2Proof.Machine

/-! ### WellFormed: a term for each check, which the check refuses, beside one it accepts -/

def ok3 : Args := ar (.v 4) (.v 1) (.v 2)
def add3 (a : Args) : Instr := .add im a

theorem test_wf_accepts : (add3 ok3).wf false = true := by decide
/-- R38: GN with p15. -/
theorem test_wf_guard : (add3 { ok3 with gn := true }).wf false = false := by decide
/-- R48: two draws. -/
theorem test_wf_draws : (add3 (ar (.v 4) (.k 1 true) (.k 2 true))).wf false = false := by decide
/-- R37: a TAIL that no operand reads; XMOD outside form D. -/
theorem test_wf_tail : (add3 { ok3 with tail := 1 }).wf false = false ∧ (add3 { ok3 with xmod := 1 }).wf false = false := by decide
/-- R43, R70: a space that the field does not take; an unused field; D outside form D. -/
theorem test_wf_role : (add3 (ar (.tile 1) (.v 1) (.v 2))).wf false = false ∧ (add3 (ar .unused (.v 1) (.v 2))).wf false = false ∧
    (add3 (ard (.v 4) (.v 1) (.v 2) (.v 3))).wf false = false := by decide
/-- R44: an odd pair. -/
theorem test_wf_pair : (Instr.add im64 (ar (.v 5) (.v 0) (.v 2))).wf false = false := by decide
/-- R13: S and a vector operation on the spine. -/
theorem test_wf_spine : (add3 (ar (.s 4) (.v 1) (.v 2))).wf true = false ∧
    (Instr.shfl false false .at 0 (ard (.v 4) (.v 1) (.v 2) .unused)).wf true = false := by decide
/-- R51, R89: a special register that no program writes, and MOV to one. -/
theorem test_wf_special : (Instr.srseedWrite im (ar (.sr 0x00) (.v 1) .unused)).wf false = false ∧
    (Instr.predsWrite im (ar (.sr 0x0D) (.v 1) .unused)).wf false = false := by decide
/-- R237: a draw as the target of a cask instruction. -/
theorem test_wf_target : (Instr.ckclr (ar .unused (.k 1 true) .unused)).wf false = false := by decide
/-- R49: both results of SINCOS in one register. -/
theorem test_wf_dup : (Instr.sincos false (ard (.v 4) (.v 1) .unused (.v 4))).wf false = false := by decide
/-- R69, R171: SAT with MULH, and a segment width that SHFL does not have. -/
theorem test_wf_mod : (Instr.mulh ⟨.w32, false, true, .none, 0⟩ ok3).wf false = false ∧
    (Instr.shfl false false .at 6 (ard (.v 4) (.v 1) (.v 2) .unused)).wf false = false := by decide
/-- R169: XMOD of a lane exchange without a predicate. -/
theorem test_wf_xmod : (Instr.bcast false false { ok3 with c := .unused, xmod := 16 }).wf false = false := by decide
/-- R55, R57: words that belong to another constructor. -/
theorem test_wf_words : (Instr.ztrap 0x005E00800000000000000000).wf false = false ∧ (Instr.onesWord 0).wf false = false ∧
    (Instr.unassignedOpc 0).wf false = false := by decide
/-- RV32 offsets that no encoding holds, SUBI, and a length that is not this encoding's. -/
theorem test_wf_rv : (Rv.jal 1 1).wf = false ∧ (Rv.branch .beq 1 2 4096).wf = false ∧ (Rv.load .lw 1 2 2048).wf = false ∧
    (Rv.store .sw 1 2 2048).wf = false ∧ (Rv.opImm .sub 1 2 3).wf = false ∧ (Rv.opImm .sll 1 2 32).wf = false ∧
    (Rv.csr .rw 1 0x7C0 false 2).wf = false ∧ (Rv.illegal 0).wf = false ∧
    (Instr.rv32imcInstruction .fence 2).wf false = false := by decide

/-! ### Words: OPC is 64 × class + minor (R55), GP 15 (R38), operand fields by R43 -/

/-- Every word decodes, on a SIMT core, to an instruction that its test accepts. -/
def reads (l : List (Word96 × (Instr → Bool))) : Bool :=
  l.all fun e => match decodeVamer false e.1 with
    | .ok i => e.2 i
    | .error _ => false

/-- Class 0x0: integer arithmetic. -/
theorem test_words_int : reads [
    (0x0042BF840F10877400000000, fun i => i matches .add ..),
    (0x0082BF840F10877400000000, fun i => i matches .sub ..),
    (0x00F201119BC0080100000000, fun i => i matches .addc ..),
    (0x013201119BC0080100000000, fun i => i matches .subb ..),
    (0x0168BF919B7FE90200000000, fun i => i matches .mul ..),
    (0x01AC401401800C0400000000, fun i => i matches .mulh ..),
    (0x01E8BF919EE069021FE00000, fun i => i matches .mad ..),
    (0x023C01119B10857600000000, fun i => i matches .div ..),
    (0x027C01119B10857600000000, fun i => i matches .rem ..),
    (0x02AC401401800C0400000000, fun i => i matches .min ..),
    (0x02EC401401800C0400000000, fun i => i matches .max ..),
    (0x033C00B11E00035600000000, fun i => i matches .abs ..),
    (0x0357C0140001080000000000, fun i => i matches .and ..),
    (0x0397C0140001080000000000, fun i => i matches .or ..),
    (0x03D7C0140001080000000000, fun i => i matches .xor ..),
    (0x0417C0140000080000000000, fun i => i matches .not ..),
    (0x0457C0140110880000000000, fun i => i matches .shl ..),
    (0x0497C0140110880000000000, fun i => i matches .shr ..),
    (0x04D7C0140110880000000000, fun i => i matches .sar ..),
    (0x0517C0140110880000000000, fun i => i matches .rot ..),
    (0x056C40140118EC0400000000, fun i => i matches .bfx ..),
    (0x05AC8004102000068C000000, fun i => i matches .bfi ..),
    (0x05D641140000080000000000, fun i => i matches .popc ..),
    (0x061641140000080000000000, fun i => i matches .clz ..),
    (0x065641140000080000000000, fun i => i matches .ctz ..),
    (0x0697C0140000080000000000, fun i => i matches .brev ..),
    (0x06F40111BF18E8F700000000, fun i => i matches .sel ..),
    (0x072220118140080000000000, fun i => i matches .cmp ..),
    (0x075400110111E00788000001, fun i => i matches .plop ..),
    (0x0797C0140000080000000000, fun i => i matches .mov ..),
    (0x07E03FDC0140080788F00000, fun i => i matches .lea ..)] = true := by decide

/-- Class 0x1: conversions. -/
theorem test_words_fmt : reads [
    (0x1029C011BE0007DE00000000, fun i => i matches .cvt ..),
    (0x10560100100007B200000000, fun i => i matches .f2i ..),
    (0x10A9C014000007DE00000000, fun i => i matches .i2f ..),
    (0x10F400B40000078600000000, fun i => i matches .i2i ..),
    (0x112441040160148400000000, fun i => i matches .pack ..),
    (0x1162000BF800180000000000, fun i => i matches .unpk ..),
    (0x11B4BF83FCFFF80400000000, fun i => i matches .qnt ..),
    (0x11D7C0020000B5C100000000, fun i => i matches .dqnt ..),
    (0x121A3FC40E00180500000000, fun i => i matches .bscale ..),
    (0x125E410200000C0000000000, fun i => i matches .bmax ..),
    (0x129A40E4104000078C000000, fun i => i matches .bytx ..),
    (0x12D400000000000700000000, fun i => i matches .srstep ..)] = true := by decide

/-- Class 0x2: floating point. -/
theorem test_words_fp : reads [
    (0x201400A00001100100000000, fun i => i matches .fadd ..),
    (0x205400A00001100100000000, fun i => i matches .fsub ..),
    (0x209400A00001100100000000, fun i => i matches .fmul ..),
    (0x20D4800C003FCD82E0000000, fun i => i matches .ffma ..),
    (0x2114800C003FCD82E0000000, fun i => i matches .ffms ..),
    (0x2154800C003FCD82E0000000, fun i => i matches .fnma ..),
    (0x24D84003FC20148100000000, fun i => i matches .fdp2 ..),
    (0x244400A01040E5C100000000, fun i => i matches .fdiv ..),
    (0x2193C00410C0100600000000, fun i => i matches .fmin ..),
    (0x21D3C00410C0100600000000, fun i => i matches .fmax ..),
    (0x222C4017FE00180400000000, fun i => i matches .fabs ..),
    (0x226C4017FE00180400000000, fun i => i matches .fneg ..),
    (0x228A2003FCD9100600000000, fun i => i matches .fsgn ..),
    (0x22F400B4000118B700000000, fun i => i matches .fcmp ..),
    (0x232C4017FE80180400000000, fun i => i matches .fclass ..),
    (0x2344BF83FC000D8100000000, fun i => i matches .frint ..),
    (0x238400A01040E5C100000000, fun i => i matches .fscale ..),
    (0x23EC40000000088400000000, fun i => i matches .fgetx ..),
    (0x242C40000000088400000000, fun i => i matches .fgetm ..),
    (0x2499C01600800E8300000000, fun i => i matches .fsel ..)] = true := by decide

/-- Class 0x3: special functions. -/
theorem test_words_sf : reads [
    (0x300A2003FC00030600000000, fun i => i matches .rcp ..),
    (0x30564117FE00008000000000, fun i => i matches .rsq ..),
    (0x308A2003FC00030600000000, fun i => i matches .sqrt ..),
    (0x30D64117FE00008000000000, fun i => i matches .exp2 ..),
    (0x31164117FE00008000000000, fun i => i matches .log2 ..),
    (0x31564117FE00008000000000, fun i => i matches .sin ..),
    (0x31964117FE00008000000000, fun i => i matches .cos ..),
    (0x31EC8017FE00000620700000, fun i => i matches .sincos ..),
    (0x32164117FE00008000000000, fun i => i matches .tanh ..),
    (0x32564117FE00008000000000, fun i => i matches .sigm ..)] = true := by decide

/-- Class 0x4: control flow. -/
theorem test_words_control : reads [
    (0x401400000000000700000000, fun i => i matches .nop ..),
    (0x405400000000000700000000, fun i => i matches .bra ..),
    (0x4094000C0000000700000000, fun i => i matches .brx ..),
    (0x40D400000000000700000000, fun i => i matches .call ..),
    (0x4114000C0000000700000000, fun i => i matches .callx ..),
    (0x4154000C0000000700000000, fun i => i matches .ret ..),
    (0x41940017FF60000700000000, fun i => i matches .jtab ..),
    (0x41D401000000000700000000, fun i => i matches .loop ..),
    (0x421400110000000700000000, fun i => i matches .brany ..),
    (0x425400110000000700000000, fun i => i matches .brall ..),
    (0x4294BF83FC0000B900000000, fun i => i matches .fork ..),
    (0x431400000000000700000000, fun i => i matches .exit ..),
    (0x435401000000000700000000, fun i => i matches .rcvMark ..),
    (0x439600000000000800000000, fun i => i matches .rcvWait ..),
    (0x43D400000000000700000000, fun i => i matches .yield ..),
    (0x441400020000000700000000, fun i => i matches .nap ..),
    (0x4454000C003FC00700000000, fun i => i matches .icinv ..),
    (0x42D400000000000700000000, fun i => i matches .end_ ..)] = true := by decide

/-- Class 0x5: lane exchange. -/
theorem test_words_lane : reads [
    (0x50144111BE00072220000000, fun i => i matches .shfl ..),
    (0x505840F108000500B0000000, fun i => i matches .vote ..),
    (0x509600111E00008300000000, fun i => i matches .redux ..),
    (0x50D1C004100000C700000000, fun i => i matches .scan ..),
    (0x51603FDC0000080700000000, fun i => i matches .bcast ..),
    (0x51AC80110000000600000000, fun i => i matches .cmpct ..),
    (0x51DA00000000A80500000013, fun i => i matches .lperm ..),
    (0x513400041000050200000013, fun i => i matches .match_ ..)] = true := by decide

/-- Class 0x6: memory. -/
theorem test_words_mem : reads [
    (0x601C4002000006A7FFFFFFFF, fun i => i matches .ld ..),
    (0x606A0008008008A412345678, fun i => i matches .st ..),
    (0x60BA410FFE000CA100000000, fun i => i matches .ldu ..),
    (0x60CFC0000000068312345678, fun i => i matches .lds ..),
    (0x6106000D917FE88312345678, fun i => i matches .sts ..),
    (0x614FC0000000068370380000, fun i => i matches .ldx ..),
    (0x6186000D917FE8831000001F, fun i => i matches .stx ..),
    (0x61D8400410000C0212345678, fun i => i matches .ldw ..),
    (0x622A000FFE0006A000000000, fun i => i matches .ldb ..),
    (0x625A001C000008A700000000, fun i => i matches .stb ..),
    (0x6294000C0000000700000000, fun i => i matches .pref ..),
    (0x62D4000C0000000700000000, fun i => i matches .prefc ..),
    (0x6314000C0160000700000000, fun i => i matches .cinv ..),
    (0x6354000C0160000700000000, fun i => i matches .cwb ..),
    (0x6394000C0160000700000000, fun i => i matches .cdisc ..),
    (0x63C40000000000A000000000, fun i => i matches .fence ..),
    (0x6402001C0000002700000000, fun i => i matches .ochOpen ..),
    (0x6462000E0640E82200000000, fun i => i matches .ochSt ..),
    (0x6482001C0000002700000000, fun i => i matches .ochClose ..),
    (0x64D4000C0000000700000000, fun i => i matches .mdie ..)] = true := by decide

/-- Class 0x7: atomics. -/
theorem test_words_atomic : reads [
    (0x7025C00E06C0080000000000, fun i => i matches .atom ..),
    (0x705A011C004008076C800080, fun i => i matches .atomc ..),
    (0x70AC000E06400800FFFFFFFF, fun i => i matches .red ..),
    (0x70E4410E06C0080000000000, fun i => i matches .atomu ..),
    (0x7134BF97FF60080300000000, fun i => i matches .atoms ..),
    (0x7142401C000008071FE00010, fun i => i matches .atomsc ..),
    (0x7184000D90BF880000000000, fun i => i matches .reds ..),
    (0x71EC000E06400800FFFFFFFF, fun i => i matches .redu ..)] = true := by decide

/-- Class 0x8: casks and barriers. -/
theorem test_words_sync : reads [
    (0x8016000D9180080480000000, fun i => i matches .ckfill ..),
    (0x8057C00C0000080000000000, fun i => i matches .ckdraw ..),
    (0x8097C00C0000080000000000, fun i => i matches .ckpeek ..),
    (0x80F4010C00000C7700000000, fun i => i matches .cktry ..),
    (0x8106000D917FEA030000001F, fun i => i matches .ckseed ..),
    (0x8154000D90FFE80100000000, fun i => i matches .ckred ..),
    (0x8194000D9000000700000000, fun i => i matches .ckclr ..),
    (0x81D4000D9000000700000000, fun i => i matches .ckstat ..),
    (0x820400A00040E0B900000000, fun i => i matches .bar ..),
    (0x824400A00040E0B900000000, fun i => i matches .bara ..),
    (0x82840000100000B900000000, fun i => i matches .barw ..),
    (0x82C440001040E0B900000000, fun i => i matches .bart ..),
    (0x832C40000000010C00000000, fun i => i matches .gbar ..),
    (0x835600B7FE40E10000000000, fun i => i matches .gbart ..),
    (0x83940017FF60000700000000, fun i => i matches .mbinit ..),
    (0x83DE4102000000C000000000, fun i => i matches .mbarr ..),
    (0x841E4102004100C000000000, fun i => i matches .mbexp ..),
    (0x845800041000A08212345678, fun i => i matches .mbwait ..),
    (0x849800A41000A08212345678, fun i => i matches .mbtry ..),
    (0x84D800A41000A08210000010, fun i => i matches .mbtw ..),
    (0x851400109E3FC00700000000, fun i => i matches .yokeDecl ..),
    (0x855400109E00000700000000, fun i => i matches .yokeRst ..)] = true := by decide

/-- Class 0x9: copies. -/
theorem test_words_copy : reads [
    (0x90277FE2017FEC051FE00003, fun i => i matches .cpy ..),
    (0x90540017FF60000700000000, fun i => i matches .cpyl ..),
    (0x90AC2017FE01000620800000, fun i => i matches .cpyf ..),
    (0x90D40017FE00000700000000, fun i => i matches .cpyp ..),
    (0x911400000000000700000000, fun i => i matches .cpyq ..),
    (0x915800000180002212345678, fun i => i matches .cpwait ..),
    (0x91AC00ABF83FD601A0000000, fun i => i matches .xcpy ..),
    (0x91D40017FF60000700000000, fun i => i matches .xcpyl ..),
    (0x921400020000000700000000, fun i => i matches .xstat ..)] = true := by decide

/-- Class 0xA: matrix. -/
theorem test_words_matrix : reads [
    (0xA02F001C004004E584F00000, fun i => i matches .mma ..),
    (0xA06F00000A4004E584F00000, fun i => i matches .mmag ..),
    (0xA0AD07FC004004C784000000, fun i => i matches .mmaw ..),
    (0xA0D504000000000700000000, fun i => i matches .mscl ..),
    (0xA11504000000000700000000, fun i => i matches .aclr ..),
    (0xA15504080000000700000000, fun i => i matches .ald ..),
    (0xA19504080000000700000000, fun i => i matches .ast ..),
    (0xA1D504100000000700000000, fun i => i matches .amov ..),
    (0xA21904040E00096412345678, fun i => i matches .acvt ..),
    (0xA25704100000020000000000, fun i => i matches .aadd ..),
    (0xA29500000000000700000000, fun i => i matches .await ..),
    (0xA2D504000000000700000000, fun i => i matches .adrop ..)] = true := by decide

/-- Class 0xB: tasks. -/
theorem test_words_task : reads [
    (0xB0143FC00000000700000000, fun i => i matches .qclaim ..),
    (0xB05400020000000F00000000, fun i => i matches .qpubRsv ..),
    (0xB0540002003FC00700000000, fun i => i matches .qpub ..),
    (0xB0943FC20000000700000000, fun i => i matches .qstat ..),
    (0xB0D400020001000700000000, fun i => i matches .enq ..),
    (0xB11A40E80080000700500000, fun i => i matches .enqt ..),
    (0xB15400020001000700000000, fun i => i matches .spawn ..),
    (0xB19400020000000700000000, fun i => i matches .sjoin ..),
    (0xB1D600B7FE40E00800000000, fun i => i matches .lvwait ..),
    (0xB2164117FE00000800000000, fun i => i matches .lvrd ..),
    (0xB2540002003FC00700000000, fun i => i matches .lvinc ..),
    (0xB29400020000000700000000, fun i => i matches .cancel ..),
    (0xB29400020000000F00000000, fun i => i matches .cancelClr ..),
    (0xB2D400020001000700000000, fun i => i matches .cfill ..)] = true := by decide

/-- Class 0xC: contexts. -/
theorem test_words_ctx : reads [
    (0xC014000C0000000700000000, fun i => i matches .ctxNew ..),
    (0xC0540017FE01000700000000, fun i => i matches .ctxGrant ..),
    (0xC096410E0601000800000000, fun i => i matches .ctxRevoke ..),
    (0xC0DA40E80080000700500000, fun i => i matches .ctxRun ..),
    (0xC1140017FE00000700000000, fun i => i matches .ctxStopNow ..),
    (0xC1140017FE00000F00000000, fun i => i matches .ctxStopDrain ..),
    (0xC1140017FE00001700000000, fun i => i matches .ctxStopReset ..),
    (0xC1540017FE01000700000000, fun i => i matches .ctxBudget ..),
    (0xC1540017FE01000F00000000, fun i => i matches .ctxBudgetRd ..),
    (0xC19A40E80040000700000000, fun i => i matches .ctxReflectMask ..),
    (0xC19A40E80080000F00000000, fun i => i matches .ctxReflectDown ..),
    (0xC19A40E00080001700000000, fun i => i matches .ctxReflectUp ..),
    (0xC19A40E80040001F20800000, fun i => i matches .ctxReflectRet ..),
    (0xC1D400020001000700000000, fun i => i matches .gateNew ..),
    (0xC1D400020000000F00000000, fun i => i matches .gateNewDel ..),
    (0xC22C4017FE80001C00000000, fun i => i matches .gateAcl ..),
    (0xC253C004117FE04600000000, fun i => i matches .gpost ..),
    (0xC2B201180000A08100000000, fun i => i matches .gtake ..),
    (0xC2D400020000000700000000, fun i => i matches .gpeek ..),
    (0xC31A000D9040000700500000, fun i => i matches .tlbi ..),
    (0xC354000C0000000700000000, fun i => i matches .replay ..),
    (0xC39400020000000700000000, fun i => i matches .replayAll ..),
    (0xC3DA40080080000700000000, fun i => i matches .hcall ..)] = true := by decide

/-- Class 0xD: traps and debug. -/
theorem test_words_trap : reads [
    (0xD0140000003FC00700000000, fun i => i matches .trap ..),
    (0xD05400000000000700000000, fun i => i matches .tret ..),
    (0xD09400110001000700000000, fun i => i matches .assert ..),
    (0xD0D400000140000700000000, fun i => i matches .bkpt ..),
    (0xD117C017FE00080000000000, fun i => i matches .srd ..),
    (0xD1560017FF60080000000000, fun i => i matches .swr ..),
    (0xD19400020000000700000000, fun i => i matches .tfrd ..),
    (0xD1D40002003FC00700000000, fun i => i matches .tfwr ..),
    (0xD21A40E80040000720000000, fun i => i matches .fbpop ..),
    (0xD2564117FE40E00800000000, fun i => i matches .fbstat ..),
    (0xD2940000003FC00700000000, fun i => i matches .mark ..),
    (0xD2CA00000000A03600000000, fun i => i matches .watch ..)] = true := by decide

/-- Words that trap by name and the two forms of MOV that write special registers: A is 0x8C0 + n (R46). -/
theorem test_words_special : reads [
    (0, fun i => i matches .ztrap _),
    (0x003FFFFFFFFFFFFFFFFFFFFF, fun i => i matches .ztrap _),
    (0xFFFFFFFFFFFFFFFFFFFFFFFF, fun i => i matches .onesWord _),
    (0xFF0000000000000000000000, fun i => i matches .unassignedOpc _),
    (0x079F19A00200000000000000, fun i => i matches .srseedWrite ..),
    (0x079F19E00200000000000000, fun i => i matches .predsWrite ..)] = true := by decide

def okWord (w : Word96) (i : Instr) : Bool :=
  match decodeVamer false w with
  | .ok j => j = i
  | .error _ => false

/-- Words worked out field by field, with their whole instructions: guard, hints, modifiers, operands and TAIL. -/
theorem test_fields_int :
    okWord 0x006400E00780000300012345 (.add im ⟨true, 2, 1, true, .v 7, .v 3, .tail, .unused, 0x12345, 0⟩) = true ∧
    okWord 0x005E01000000889800000000 (.add ⟨.w64, false, false, .carry, 3⟩ (ar (.v 8) (.v 0) (.v 4))) = true := by decide
/-- The manual's QNT.e2m1 v4, v1, v3, 0, and its copy with DF 111. -/
theorem test_fields_quantize :
    okWord 0x119E00800200780000000000 (.qnt .e2m1 0 .rn false (ar (.v 4) (.v 1) (.v 3))) = true ∧
    (match decodeVamer false 0x119E008002007C0000000000 with | .error .mod => true | _ => false) = true := by decide
theorem test_fields_float :
    okWord 0x20DE00800400400000500000 (.ffma fm (ard (.v 4) (.v 2) (.v 2) (.v 5))) = true := by decide
theorem test_fields_rest :
    okWord 0x63DE0000000000A000000000 (.fence .acq .pt (ar .unused .unused .unused)) = true ∧
    okWord 0x815E000C0200B00000000000 (.ckred .fadd false (ar .unused (.k 1 false) (.v 5))) = true ∧
    okWord 0xB15E00140400800000000000 (.spawn (ar (.v 0) (.imm 2) (.v 4))) = true ∧
    okWord 0xD05E00000000000000000000 (.tret (ar .unused .unused .unused)) = true := by decide

/-- R69: PO 11 is reserved; R39: a vector operation on the spine is refused with field OPC. -/
theorem test_refused :
    (match decodeVamer false 0x005E00200400618000000000 with | .error .mod => true | _ => false) = true ∧
    (match decodeVamer true 0x501E00C00740220000000011 with | .error .opc => true | _ => false) = true := by decide

/-- Xdray words (R286): rd 5, rs1 6, rs2 7 where the instruction has them; the manual's own dwait; addi a0, x0, 10. -/
theorem test_words_dray :
    decodeDray 0x0003028B = .dcpy 5 6 ∧ decodeDray 0x0073128B = .dkick 5 6 7 ∧ decodeDray 0x0000228B = .dstat 5 ∧
    decodeDray 0x0203328B = .dck false true 5 6 ∧ decodeDray 0x0403328B = .dck true false 5 6 ∧
    decodeDray 0x000302AB = .darr 5 6 ∧ decodeDray 0x027312AB = .dexp true 5 6 7 ∧ decodeDray 0x00B5202B = .dwait 10 11 ∧
    decodeDray 0x007332AB = .dtry 5 6 7 ∧ decodeDray 0x7C029073 = .dfaultWrite .rw 0 false 5 ∧
    decodeDray 0x10500073 = .drayWfi ∧ decodeDray 0x00A00513 = .rv32imcInstruction (.opImm .add 10 0 10) 4 ∧
    decodeDray 0x00004501 = .rv32imcInstruction (.opImm .add 10 0 0) 2 ∧
    decodeDray 0x0003428B = .rv32imcInstruction (.illegal 0x0003428B) 4 := by decide

/-! ### Single instructions -/

/-- The demo state with other registers in its lane. -/
def withV (v : SMap Word32) : State :=
  stateOf (demoTrain { Coach.oneFrag 1 0x9E3779B9 false with lanes := [(0, { Lane.init 0 with v := v })] })

def after (v : SMap Word32) (i : Instr) (f : State → Option α) : Option α :=
  match exec i (withV v) with
  | .next t => f t
  | _ => none

def v4 (v : SMap Word32) (i : Instr) : Option Word32 := after v i fun t => vReg t 0 (.coach 0) 0 4
def p3 (v : SMap Word32) (i : Instr) : Option Bool := after v i fun t => pReg t 0 (.coach 0) 0 3
def pcOf (v : SMap Word32) (i : Instr) : Option Word64 := after v i fun t => (t.frag? ⟨0, .coach 0, 0⟩).map (·.pc)

/-- R73: 2^32 − 1 plus 1 wraps with a carry. -/
theorem test_add : v4 [(1, 0xFFFFFFFF), (2, 1)] (.add ⟨.w32, false, false, .carry, 3⟩ vvv) = some 0 ∧
    p3 [(1, 0xFFFFFFFF), (2, 1)] (.add ⟨.w32, false, false, .carry, 3⟩ vvv) = some true := by decide
/-- R73: 3 − 16 saturates at 0, unsigned. -/
theorem test_sub : v4 [(1, 3), (2, 16)] (.sub ⟨.w32, true, true, .none, 0⟩ vvv) = some 0 := by decide
/-- R77's table: −7 by 2. -/
theorem test_div : v4 [(1, 0xFFFFFFF9), (2, 2)] (.div im vvv) = some 0xFFFFFFFD ∧
    v4 [(1, 0xFFFFFFF9), (2, 2)] (.rem im vvv) = some 0xFFFFFFFF := by decide
theorem test_div_zero : v4 [(1, 7)] (.div im vvv) = some 0xFFFFFFFF ∧ v4 [(1, 7)] (.rem im vvv) = some 7 := by decide
/-- R81: an amount of 40. -/
theorem test_sar : v4 [(1, 0x80000000), (2, 40)] (.sar im vvv) = some 0xFFFFFFFF ∧
    v4 [(1, 0x80000000), (2, 40)] (.shr im vvv) = some 0 := by decide
/-- R83: bits 11 to 4, signed: 0xF00 >> 4 is 0xF0, which is −16. -/
theorem test_bfx : v4 [(1, 0xF00), (2, 0x0804)] (.bfx im vvv) = some 0xFFFFFFF0 := by decide
/-- 1 + 2 = 3. -/
theorem test_fadd : v4 [(1, 0x3F800000), (2, 0x40000000)] (.fadd fm vvv) = some 0x40400000 := by decide
/-- 1.5 × 2 + 0.25 = 3.25. -/
theorem test_ffma : v4 [(1, 0x3FC00000), (2, 0x40000000), (3, 0x3E800000)] (.ffma fm (ard (.v 4) (.v 1) (.v 2) (.v 3))) =
    some 0x40500000 := by decide
/-- 1/3 rounded to nearest even is 0x3EAAAAAB, towards zero 0x3EAAAAAA. -/
theorem test_fdiv : v4 [(1, 0x3F800000), (2, 0x40400000)] (.fdiv fm vvv) = some 0x3EAAAAAB ∧
    v4 [(1, 0x3F800000), (2, 0x40400000)] (.fdiv { fm with rm := .rz } vvv) = some 0x3EAAAAAA := by decide
/-- R136: RSQ of −0 is −infinity. -/
theorem test_rsq : v4 [(1, 0x80000000)] (.rsq false vvv) = some 0xFF800000 := by decide
/-- 65,520 lies halfway between FP16's greatest value and 2^16: it rounds to infinity, and to the greatest value with SAT. -/
theorem test_cvt : v4 [(1, 0x477FF000)] (.cvt .fp16 .fp32 .rn false vvv) = some 0x7C00 ∧
    v4 [(1, 0x477FF000)] (.cvt .fp16 .fp32 .rn true vvv) = some 0x7BFF := by decide
/-- R155: the target is the next address plus TAIL. -/
theorem test_bra : pcOf [] (.bra { vvv with tail := 0x18 }) = some 36 := by decide
/-- R158: a counter of 1 falls through, one of 0 wraps and branches. -/
theorem test_loop : pcOf [(4, 1)] (.loop { vvv with tail := 0xFFFFFFF4 }) = some 12 ∧
    pcOf [(4, 0)] (.loop { vvv with tail := 0xFFFFFFF4 }) = some 0 := by decide
/-- R176: no lane at or above 32 is reached. -/
theorem test_lperm : v4 [(1, 5), (2, 32)] (.lperm false false (ard (.v 4) (.v 1) (.v 2) .unused)) = some 5 := by decide
/-- R397, R398: TRAP 5 of a context without a handler is reflected with code 0x0B05. -/
theorem test_trap : after [] (.trap (ar .unused .unused (.imm 5))) (fun t =>
    ((t.ctx 0).fqWait.head?).map fun r => (r.code, r.pc, r.reflected)) = some (0x0B05, 0, false) := by decide
/-- R400: with TVEC 0x600 the fragment goes there, and TRET returns behind the instruction. -/
theorem test_handler :
    (match exec (.trap (ar .unused .unused (.imm 5))) (modSys (withV []) 0 fun r => { r with tvec := 0x600 }) with
     | .next t => match exec (.tret (ar .unused .unused .unused)) t with
        | .next u => [t, u].map fun s => (s.frag? ⟨0, .coach 0, 0⟩).map (·.pc)
        | _ => []
     | _ => []) = [some 0x600, some 12] := by decide
/-- A word at the program counter: ADD of v3 and 0x12345 into v7, in the lanes where p2 is false, which are all. -/
theorem test_fetch :
    (match step (State.reset.withFetchWord 96 0x006400E00780000300012345) with
     | .next t => vReg t 0 (.coach 0) 5 7
     | _ => none) = some 0x12345 := by decide
/-- A dray's word: addi a0, x0, 10. -/
theorem test_fetch_dray :
    (match step (State.reset.withFetchWord 32 0x00A00513) with
     | .next t => (dxOf t 0 0 0).map fun x => (x.d.reg 10, x.d.pc)
     | _ => none) = some (10, 4) := by decide
/-- A plain store and the load behind it in one cluster. -/
theorem test_store_load :
    (match exec (.st ⟨.b32, false, false, .cl, .dflt⟩ (ar .unused (.v 6) (.v 1))) (withV [(1, 0xCAFE)]) with
     | .next t => (match exec (.ld ⟨.b16, true, false, .cl, .dflt⟩ (ar (.v 4) (.v 6) .unused)) t with
         | .next u => vReg u 0 (.coach 0) 0 4
         | _ => none)
     | _ => none) = some 0xFFFFCAFE := by decide
/-- An atomic add at home gives the old value. -/
theorem test_atom :
    (match exec (.atom ⟨false, .add, .relaxed, .cl⟩ (ar (.v 4) (.v 6) (.v 1))) { withV [(1, 5)] with mem := [(0, 0x0A)] } with
     | .next t => (vReg t 0 (.coach 0) 0 4, t.mem)
     | _ => (none, [])) = (some 0x0A, [(0, 0x0F)]) := by decide

end Sys2Proof.Tests
end

