-- ==== Sys2Proof/Tests/WitnessCtx.lean ====
section
/-! SUPPORT. Witnesses for the statements about contexts, gates, replay, traps, frames, fault buffers and system registers. -/

namespace Sys2Proof.Tests

open Sys2Proof Sys2Proof.Machine

/-- The root's demo with two children, 1 idle and 2 with an operation outstanding, and 4, a child of 1. Register v3 holds 2, v7
is 0, v10 is 64, where a report names origin 9; fault buffer 0 holds an entry. -/
def kid (parent : Nat) : Ctx := { Ctx.root with parent := parent, depth := 1 }
def cxState (c : Nat) (f : Coach → Coach) : State :=
  { stateOf { demoTrain (f { demoCoach with lanes := [(0, { demoLane with v := [(1, 16), (2, 3), (3, 2), (5, 1), (10, 64)] })] }) with
      ctx := c } with
    clusters := [(0, { Cluster.init with tlb := [{ demoTlb with ctx := c }] })]
    mem := [(76, 9)]
    ctxs := [(0, { Ctx.root with answers := [(4, 7)], bufs := (countUp 16).map fun d => ⟨d, if d = 0 then [(0, Report.blank demo 0)] else [], false, 0, 0⟩ }),
      (1, kid 0), (2, { kid 0 with op := some ⟨.stopDrain, 0, 1, none, [], .running⟩ }), (4, kid 1)]
    gates := [(0, ⟨0, [⟨0, true, true⟩], 0, 0, [], [7], [], false⟩), (1, ⟨0, [], 0, 0, [], [], [], false⟩),
      (2, ⟨0, [⟨0, true, true⟩], 0, 0, [], [], [], false⟩)] }
def cx : State := cxState 0 id
def cxIx : Ix := ixIn cx
theorem cx_here : ixOf cx cxIx.ref = some cxIx := rfl
/-- The same fragment in context 1. -/
def sub1 : State := cxState 1 id
def subIx : Ix := ixIn sub1
theorem sub_here : ixOf sub1 subIx.ref = some subIx := rfl

/-- B is the context: v5 is 1, idle; v3 is 2, busy; v2 is 3, no child. The structure lies at address 0. -/
def cA (b : Operand) : Args := ard (.v 4) b (.v 6) (.v 0)

theorem witness_ContextComplete :
    let u := released cxIx (levelScope cxIx.ctx) cx
    let c (b : Operand) : Nat := ctxOperand u cxIx (cA b) b [0]
    (∀ b ∈ [Operand.v 5, .v 3, .v 2], ∀ i ∈ [Instr.ctxGrant (cA b), .ctxRevoke false { cA b with c := .zero },
        .ctxRevoke true (cA b), .ctxRun (cA b), .ctxStopNow (cA b), .ctxStopDrain (cA b), .ctxStopReset (cA b), .ctxBudget (cA b),
        .ctxBudgetRd (cA b), .ctxReflectMask (cA b), .ctxReflectDown (cA b)], ∀ a ∈ i.args, Issues i a cx cxIx) ∧
    canRelease cxIx (levelScope cxIx.ctx) cx = true ∧
    isChild u cxIx.ctx (c (.v 5)) = true ∧ ctxBusy u (c (.v 5)) = false ∧ (u.ctx (c (.v 5))).st ≠ .migrating ∧
    isChild u cxIx.ctx (c (.v 3)) = true ∧ ctxBusy u (c (.v 3)) = true ∧ isChild u cxIx.ctx (c (.v 2)) = false ∧
    (∀ n ∈ [32, 48, 64], (structRead cxIx (addrOp u cxIx (cA (.v 5)) (.v 6) [0]) n u).isSome = true) ∧
    ((structRead cxIx (addrOp u cxIx (cA (.v 5)) (.v 6) [0]) 32 u).any fun r => !mapStuck r.2 1) = true ∧
    (structWrite cxIx ((addrOp u cxIx (cA (.v 5)) (.v 6) [0] + 4) % 2 ^ 64) (budgetBytes (u.ctx 1)) u).isSome = true := by
  refine ⟨fun b hb i hi a ha => issues_of cx_here ?_, by rfl, by rfl, by rfl, by decide, by rfl, by rfl, by rfl, ?_, by decide +kernel, by decide +kernel⟩
  · revert a i b
    decide
  · intro n hn
    revert n
    decide +kernel

/-- CTX.NEW of the root; CTX.REFLECT.up and .ret of the root, which answers itself and its child 1, and of context 1. -/
theorem witness_ContextComplete_up :
    let new := ar (.v 4) (.v 6) .unused
    let up := ard (.v 4) .unused (.v 6) .unused
    let ret0 := ard (.v 4) (.imm 0x1FF) (.v 6) (.v 6)
    let ret1 := ard (.v 4) (.imm 4) (.v 6) (.v 6)
    let ret2 := ard (.v 4) (.v 5) (.v 6) (.v 6)
    let w := released cxIx (levelScope cxIx.ctx) cx
    let u := released subIx (levelScope subIx.ctx) sub1
    (∀ p ∈ [(Instr.ctxNew new, new), (.ctxReflectUp up, up), (.ctxReflectRet ret0, ret0), (.ctxReflectRet ret2, ret2)], Issues p.1 p.2 cx cxIx) ∧
    canRelease cxIx (levelScope cxIx.ctx) cx = true ∧ cxIx.ctx = 0 ∧
    (structRead cxIx (addrOp (released cxIx (levelScope cxIx.ctx) cx) cxIx new (.v 6) [0]) 64
      (released cxIx (levelScope cxIx.ctx) cx)).isSome = true ∧
    srcI cx cxIx ret0 32 ret0.b 0 % 4096 = 0xFFF ∧ canRelease cxIx .sy cx = true ∧
    (∀ p ∈ [(Instr.ctxReflectUp up, up), (.ctxReflectRet ret1, ret1)], Issues p.1 p.2 sub1 subIx) ∧ subIx.ctx ≠ 0 ∧
    canRelease subIx (levelScope subIx.ctx) sub1 = true ∧ (structRead subIx (addrOp u subIx up (.v 6) [0]) 64 u).isSome = true ∧
    isChild u subIx.ctx (ctxOperand u subIx ret1 ret1.b [0]) = true ∧ ctxBusy u (ctxOperand u subIx ret1 ret1.b [0]) = false ∧
    srcI cx cxIx ret2 32 ret2.b 0 % 4096 ≠ 0xFFF ∧ isChild w 0 (ctxOperand w cxIx ret2 ret2.b [0]) = true ∧
    ctxBusy w (ctxOperand w cxIx ret2 ret2.b [0]) = false :=
  ⟨all_at cx_here _ (by decide), by rfl, by rfl, by decide +kernel, by rfl, by rfl, all_at sub_here _ (by decide), by decide, by rfl,
    by decide +kernel, by rfl, by rfl, by decide, by rfl, by rfl⟩

/-- The gate that the fragment waited on has been deleted. -/
def gnDemo : State := cxState 0 fun co => { co with frags := [(0, { Frag.fresh 1 0 none with wait := some (0, .gateGone) })] }

/-- Gate 0 holds a value, gate 1 lists nobody, gate 2 is empty, gate 3 does not exist. -/
theorem witness_GateComplete :
    let a (b : Operand) : Args := ar (.v 4) b (.v 6)
    let d (b : Operand) : Args := ar (.v 4) b (.v 0)
    let n (b : Operand) : Args := ar (.v 4) b .unused
    let u := released cxIx (levelScope cxIx.ctx) cx
    let no (g : Nat) : Nat := waitNo cx cxIx (.gate g)
    (∀ b ∈ [Operand.v 0, .v 5, .v 3, .v 2], ∀ p ∈ [(Instr.gateNew (a b), a b), (.gateNewDel (n b), n b),
      (.gateAcl true false (d b), d b), (.gpost 3 (a b), a b), (.gtake false 3 (n b), n b), (.gtake true 3 (d b), d b), (.gpeek (n b), n b)],
      Issues p.1 p.2 cx cxIx) ∧
    [Operand.v 0, .v 5, .v 3, .v 2].map (fun b => gateOp cx cxIx (n b) [0]) = [0, 1, 2, 3] ∧
    canRelease cxIx (levelScope cxIx.ctx) cx = true ∧
    (structRead cxIx (addrOp u cxIx (a (.v 2)) (.v 6) [0]) 32 u).isSome = true ∧
    settled (settleX cxIx cx) cxIx.ref.train cxIx.ref.coach = true ∧ mget cx.gates 3 = none ∧
    ((mget cx.gates 1).map fun k => (k.mayTake 0, k.mayPost 0)) = some (false, false) ∧
    ((mget cx.gates 0).map fun k => (k.mayTake 0, k.values, k.frozen)) = some (true, [7], false) ∧
    tookGone cxIx = false ∧ Issues (.gtake false 3 (n (.v 0))) (n (.v 0)) gnDemo (ixIn gnDemo) ∧ tookGone (ixIn gnDemo) = true ∧
    earlierTaker cx 0 (no 0) = false ∧ ((mget cx.gates 2).map fun k => (k.mayTake 0, k.values)) = some (true, []) ∧
    cxIx.fr.deadline.getD (cx.rtime + rtCap (srcI cx cxIx (d (.v 3)) 32 (.v 0) 0)) ≤ cx.rtime := by
  refine ⟨fun b hb p hp => issues_of cx_here ?_, by rfl, by rfl, by decide +kernel, by rfl, by rfl, by rfl, by rfl, by rfl,
    issues_of (by rfl) (by decide), by rfl, by rfl, by rfl, by decide⟩
  revert p b
  decide

/-- The answer to HCALL 4, which waits for it, has come. -/
def hcDemo : State := cxState 0 fun co => { co with frags := [(0, { Frag.fresh 1 0 none with hcall := some ⟨4, .v 4, 1, 0⟩ })] }

theorem witness_ReplayComplete :
    let mine (c : Nat) : Bool := inSubtree cx cxIx.ctx c && cx.hasCtx c
    let tl (d : Operand) : Args := ard .unused (.v 6) (.v 2) d
    let rp (b : Operand) : Args := ar .unused b .unused
    let hc := ard (.v 4) (.v 2) (.v 6) .unused
    let u := settleCtx (dropPages (released cxIx .pt cx) 1 0 3) 1
    (∀ p ∈ [(Instr.tlbi (tl (.v 5)), tl (.v 5)), (.tlbi (tl (.imm 9)), tl (.imm 9)), (.replay (rp (.v 6)), rp (.v 6)),
      (.replay (rp (.v 10)), rp (.v 10)), (.replayAll (rp (.v 5)), rp (.v 5)), (.replayAll (rp (.imm 9)), rp (.imm 9))],
      Issues p.1 p.2 cx cxIx) ∧
    ctxOperand cx cxIx (tl (.v 5)) (.v 5) [0] = 1 ∧ mine 1 = true ∧ ctxOperand cx cxIx (tl (.imm 9)) (.imm 9) [0] = 9 ∧
    mine 9 = false ∧ canRelease cxIx .pt cx = true ∧ ctxSettled u 1 = true ∧
    ((structRead cxIx 0 64 cx).any fun r => inSubtree r.2 0 (reportOf r.1).origin.toNat && r.2.hasCtx (reportOf r.1).origin.toNat) = true ∧
    ((structRead cxIx 64 64 cx).any fun r => (reportOf r.1).origin.toNat = 9 && !r.2.hasCtx 9) = true ∧
    Issues (.hcall hc) hc cx cxIx ∧ ixOf hcDemo (ixIn hcDemo).ref = some (ixIn hcDemo) ∧ mayIssue hcDemo (ixIn hcDemo) = true ∧
    (ixIn hcDemo).fr.bar = none ∧ (ixIn hcDemo).fr.hcall = some ⟨4, .v 4, 1, 0⟩ ∧ mget (hcDemo.ctx 0).answers 4 = some 7 :=
  ⟨all_at cx_here _ (by decide), by rfl, by rfl, by rfl, by rfl, by rfl, by rfl, by decide +kernel, by decide +kernel,
    issues_of cx_here (by decide), by rfl, by rfl, by rfl, by rfl, by rfl⟩

/-- A fragment made of the lanes of frame 0. -/
def frDemo : State := cxState 0 fun co => { co with frames := [(0, { (default : Frame) with lanes := 1 })] }
def frIx : Ix := ixIn frDemo
theorem fr_here : ixOf frDemo frIx.ref = some frIx := rfl

/-- TRAP and BKPT reflected, as TVEC is 0; ASSERT of p15 and of p3, which is 0. -/
theorem witness_TrapComplete :
    let c := ar .unused .unused (.imm 5)
    let asr (p : BitVec 4) : Args := ar .unused (.pred p) (.v 6)
    let t := through (.assert (asr 3)) cx cxIx (asr 3)
    cx.cur = some (.frag cxIx.ref) ∧
    (∀ p ∈ [(Instr.trap c, c), (.bkpt c, c), (.assert (asr 15), asr 15), (.assert (asr 3), asr 3)], Issues p.1 p.2 cx cxIx) ∧
    lacksFrame cx cxIx (some { trapOf (0x0B00 + 5) with d0 := w64 5 }) = false ∧ lacksFrame cx cxIx (some (trapOf cBKPT)) = false ∧
    Issues (.tret (ar .unused .unused .unused)) (ar .unused .unused .unused) frDemo frIx ∧ returns frIx = true ∧
    ([0].filter fun l => srcI cx cxIx (asr 15) 32 (.pred 15) l = 0) = [] ∧
    ([0].filter fun l => srcI cx cxIx (asr 3) 32 (.pred 3) l = 0) ≠ [] ∧ t.stalled = false :=
  ⟨rfl, all_at cx_here _ (by decide), by rfl, by rfl, issues_of fr_here (by decide), by rfl, by rfl, by decide, by rfl⟩

theorem witness_FrameComplete :
    let f := ar (.v 4) (.v 1) .unused
    let g := ar .unused (.v 1) (.v 2)
    let pop (c : Operand) : Args := ard (.v 4) (.v 0) c (.v 6)
    let st (c : Operand) : Args := ar (.v 4) (.v 0) c
    (∀ p ∈ [(Instr.tfrd f, f), (.tfwr g, g)], Issues p.1 p.2 frDemo frIx) ∧ (frIx.co.frameOf frIx.fr.mask).isSome = true ∧
    srcI frDemo frIx f 32 (.v 1) 0 = 16 ∧
    (∀ p ∈ [(Instr.fbpop (pop (.v 0)), pop (.v 0)), (.fbpop (pop (.v 5)), pop (.v 5)), (.fbstat true (st (.v 0)), st (.v 0)),
      (.fbstat false (st (.v 1)), st (.v 1))], Issues p.1 p.2 cx cxIx) ∧
    ctxOperand cx cxIx (pop (.v 0)) (.v 0) [0] = 0 ∧ inSubtree cx cxIx.ctx 0 = true ∧ cx.hasCtx 0 = true ∧
    addrOp cx cxIx (pop (.v 0)) (.v 6) [0] % 64 = 0 ∧
    ((cx.ctx 0).bufs[0]?.any fun b => match b.entries with
      | e :: _ => (structWrite cxIx 0 (poppedEntry cx 0 0 e).bytes cx).isSome
      | [] => false) = true ∧
    ((cx.ctx 0).bufs[1]?.map (·.entries)) = some [] ∧ srcI cx cxIx (st (.v 1)) 32 (.v 1) 0 = 16 ∧ (cx.ctx 0).bufs[16]? = none :=
  ⟨all_at fr_here _ (by decide), by rfl, by rfl, all_at cx_here _ (by decide), by rfl, by rfl, by rfl, by rfl, by decide +kernel,
    by rfl, by rfl, by rfl⟩

/-- DRAINDL (1), STEP (2), TVEC (0), the read-only 7, the root's 0x2B, and 255, which is no register. -/
theorem witness_SysregComplete :
    let r (b : Operand) : Args := ar (.v 4) b .unused
    let w (b c : Operand) : Args := ar .unused b c
    let sel (b : Operand) : Option (Nat × Nat × Bool) := selector cx cxIx (srcI cx cxIx (r b) 32 b 0)
    let wa := ar .unused (.v 6) (.v 1)
    (∀ p ∈ [(Instr.srd false (r (.imm 255)), r (.imm 255)), (.srd false (r (.imm 1)), r (.imm 1)), (.srd true (r (.imm 0x2B)), r (.imm 0x2B)),
      (.swr false (w (.imm 255) (.v 1)), w (.imm 255) (.v 1)), (.swr false (w (.imm 7) (.v 1)), w (.imm 7) (.v 1)),
      (.swr false (w (.imm 0) (.v 2)), w (.imm 0) (.v 2)), (.swr false (w (.imm 1) (.v 1)), w (.imm 1) (.v 1)),
      (.swr false (w (.imm 2) (.v 5)), w (.imm 2) (.v 5)), (.mark (w .unused (.v 1)), w .unused (.v 1)),
      (.watch true false 0 wa, wa)], Issues p.1 p.2 cx cxIx) ∧
    Issues (.srd true (r (.imm 0x2B))) (r (.imm 0x2B)) sub1 subIx ∧ subIx.ctx ≠ 0 ∧
    selector sub1 subIx 0x2B = some (1, 0x2B, false) ∧ sel (.imm 255) = none ∧ sel (.imm 1) = some (0, 1, false) ∧
    sel (.imm 0x2B) = some (0, 0x2B, false) ∧ cxIx.ctx = 0 ∧ sel (.imm 7) = some (0, 7, false) ∧ sysWriter cx 0 0 7 false = false ∧
    sel (.imm 0) = some (0, 0, false) ∧ sysWriter cx 0 0 0 false = true ∧ sysRange 0 (swrValue cx 0 0 false 3) = false ∧
    sysWriter cx 0 0 1 false = true ∧ sysRange 1 (swrValue cx 0 1 false 16) = true ∧ sel (.imm 2) = some (0, 2, false) ∧
    sysWriter cx 0 0 2 false = true ∧ sysRange 2 (swrValue cx 0 2 false 1) = true :=
  ⟨all_at cx_here _ (by decide), issues_of sub_here (by decide), by decide, by rfl, by rfl, by rfl, by rfl, by rfl, by rfl, by rfl,
    by rfl, by rfl, by rfl, by rfl, by rfl, by rfl, by rfl, by rfl⟩

end Sys2Proof.Tests
end

