-- ==== Sys2Proof/Tests/WitnessUnit.lean ====
section
/-! SUPPORT. Witnesses for the statements about copies, drays, the matrix unit, queues and levels. -/

namespace Sys2Proof.Tests

open Sys2Proof Sys2Proof.Machine

/-! ### Copies: no barrier object (all ones in A), 16 bytes (v1 in D), both sides at 0 -/

/-- A copy descriptor at offset 16: 16 bytes from global address 0 to offset 0. -/
def descAt : Memory :=
  bytesAt 16 ([0, 0, 0, 0, 0, 0, 0, 0, 0, 0, 0, 0, 0, 0, 0, 0, 16, 0, 0, 0, 0, 0, 1, 0, 1, 0, 1, 0] ++ List.replicate 24 0 ++
    [0xFF, 0xFF, 0xFF, 0xFF, 0, 0, 0, 0, 0, 0, 0, 0])

def cpDemo : State := stateOf { demoTrain demoCoach with scr := [(0, descAt)] }
def cpIx : Ix := ixIn cpDemo
theorem cp_here : ixOf cpDemo cpIx.ref = some cpIx := rfl

def noMb : Operand := .imm 0x1FF
def cpA : Args := ard noMb (.v 6) (.v 8) (.v 1)

theorem witness_CopyComplete :
    let sd (k : Nat) (ls : Bool) : Desc := Desc.simple k false ls false 0 0xFFFFFFFF 16 0 0
    let q : Args := ar (.v 4) (.v 1) (.v 2)
    let off : Args := ar .unused (.v 1) .unused
    (∀ p ∈ [(Instr.cpy .g2s false cpA, cpA), (.cpy .s2g false cpA, cpA), (.cpyf false cpA, cpA), (.cpyp off, off), (.cpyl q, q),
      (.xcpyl q, q), (.cpyq q, q), (.cpwait .cl q, q), (.xcpy false true false false cpA, cpA),
      (.xcpy true true false false cpA, cpA), (.xstat q, q)], Issues p.1 p.2 cpDemo cpIx) ∧
    srcI cpDemo cpIx cpA 32 cpA.a 0 = 0xFFFFFFFF ∧ srcI cpDemo cpIx cpA 32 cpA.d 0 = 16 ∧
    srcI cpDemo cpIx cpA 64 cpA.b 0 = 0 ∧ srcI cpDemo cpIx cpA 64 cpA.c 0 = 0 ∧
    (sd 0 false).check cpIx.tr cpIx.rank [0, 1, 2, 3, 4] = 0 ∧ (sd 1 false).check cpIx.tr cpIx.rank [0, 1, 2, 3, 4] = 0 ∧
    (sd 4 false).check cpIx.tr cpIx.rank [0, 1, 2, 3, 4] = 0 ∧ (sd 5 true).check cpIx.tr cpIx.rank [5, 6] = 0 ∧
    (sd 6 true).check cpIx.tr cpIx.rank [5, 6] = 0 ∧ freeEngineSlot cpDemo cpIx.core = some 0 ∧
    canRelease cpIx .pt cpDemo = true ∧ canRelease cpIx .cl cpDemo = true ∧
    offVa cpDemo cpIx off .disp 0 = 16 ∧ 16 + 64 ≤ cpIx.tr.scratch ∧
    rangeBusy cpDemo cpIx.core cpIx.ref.train 16 64 = false ∧ (scrGet cpIx.tr cpIx.rank 16 64).poison = false ∧
    (descOf (scrGet cpIx.tr cpIx.rank 16 64).bytes).check cpIx.tr cpIx.rank [0, 1, 2, 3, 4] = 0 ∧
    listCheck cpIx.tr (srcI cpDemo cpIx q 32 q.b 0) (srcI cpDemo cpIx q 32 q.c 0) = 0 ∧
    mineSlots cpDemo cpIx.core cpIx.ref.train ≤ srcI cpDemo cpIx q 32 q.c 0 ∧
    acqMay true .cl cpIx (countClamp cpDemo cpIx.ctx .cl) (acqStart true .cl cpIx (countClamp cpDemo cpIx.ctx .cl)) :=
  ⟨all_at cp_here _ (by decide), by rfl, by rfl, by rfl, by rfl, by rfl, by rfl, by rfl, by rfl, by rfl, by rfl, by rfl, by rfl,
    by rfl, by decide, by rfl, by rfl, by decide +kernel, by rfl, by decide, fun _ => ⟨by decide, by rfl⟩⟩

/-! ### Drays: x5 is 16, x6 is 8, x7 is 0x10000, x8 is 0x20000010, x9 is 1, x10 is 17, x11 is 9 -/

def demoDray : Dray := { Dray.init [] with x := [(5, 16), (6, 8), (7, 0x10000), (8, 0x20000010), (9, 1), (10, 17), (11, 9)] }

/-- A dray beside the demo fragment; casks 8 and 9 are full, cask 9 with poisoned bytes. -/
def drayOf (f : Train → Train) : State :=
  { stateOf (f { demoTrain demoCoach with drays := [(0, demoDray)] }) with
    cur := some (.dray 0 0 0)
    clusters := [(0, { Cluster.init with casks := [(8, ⟨7, true, false, .add, 0, 2, false⟩), (9, ⟨7, true, false, .add, 0, 2, true⟩)] })] }
def dxIn (s : State) : Dx :=
  match dxOf s 0 0 0 with
  | some x => x
  | none => ⟨0, 0, 0, demoTrain demoCoach, demoDray, 0⟩

/-- A descriptor at 16. -/
def drDemo : State := drayOf fun t => { t with scr := [(0, descAt)] }
def drDx : Dx := dxIn drDemo
/-- A barrier object of one arrival at 16, its phase 0. -/
def dmDemo : State := drayOf fun t => mbPut t 0 16 ⟨0, 0, 1, 1, 0⟩
def dmDx : Dx := dxIn dmDemo

theorem witness_XdrayComplete :
    DrayTurn drDemo drDx ∧ DrayFits drDx (drDx.d.reg 5) 64 ∧ rangeBusy drDemo drDx.core drDx.t 16 64 = false ∧
    (descOf (scrGet drDx.tr drDx.rank 16 64).bytes).check drDx.tr drDx.rank [0, 1, 2, 3, 4] = 0 ∧
    freeEngineSlot drDemo drDx.core = some 0 ∧ listCheck drDx.tr (drDx.d.reg 5).toNat (drDx.d.reg 9).toNat = 0 ∧
    listCheck drDx.tr (drDx.d.reg 10).toNat (drDx.d.reg 9).toNat ≠ 0 ∧
    caskIndex drDemo drDx.tr.ctx drDx.cluster ((drDx.d.reg 6).toNat % 256) = some 8 ∧
    needsMet drDemo drDx.cluster [(8, .full)] = true ∧
    earlierCask drDemo drDx.cluster (drayWaitNo drDemo drDx (.cask drDx.cluster [(8, .full)])) [(8, .full)] = false ∧
    (caskGet drDemo drDx.cluster 8).poison = false ∧
    caskIndex drDemo drDx.tr.ctx drDx.cluster ((drDx.d.reg 11).toNat % 256) = some 9 ∧
    needsMet drDemo drDx.cluster [(9, .full)] = true ∧
    earlierCask drDemo drDx.cluster (drayWaitNo drDemo drDx (.cask drDx.cluster [(9, .full)])) [(9, .full)] = false ∧
    (caskGet drDemo drDx.cluster 9).poison = true ∧
    DrayTurn dmDemo dmDx ∧ DrayFits dmDx (dmDx.d.reg 5) 64 ∧ DrayFits dmDx (dmDx.d.reg 5) 16 ∧
    (descOf (scrGet dmDx.tr dmDx.rank 16 64).bytes).check dmDx.tr dmDx.rank [0, 1, 2, 3, 4] ≠ 0 ∧
    rangeBusy dmDemo dmDx.core dmDx.t 16 64 = false ∧
    (mbGet dmDx.tr dmDx.rank 16).init = 1 ∧ (mbGet dmDx.tr dmDx.rank 16).ph ≠ (dmDx.d.reg 9).toNat % 65536 :=
  ⟨⟨rfl, rfl⟩, ⟨by rfl, by decide⟩, by rfl, by decide +kernel, by rfl, by rfl, by decide, by rfl, by rfl, by rfl, by rfl, by rfl, by rfl, by rfl, by rfl, ⟨rfl, rfl⟩,
    ⟨by rfl, by decide⟩, ⟨by rfl, by decide⟩, by decide +kernel, by rfl, by rfl, by decide⟩

/-- Addresses in each part of the map; CSRs that exist, one written, one only read. -/
theorem witness_RvComplete :
    DrayTurn drDemo drDx ∧ (drDx.d.reg 5 + 0).toNat % 4 = 0 ∧ drayPlace (drDx.d.reg 5 + 0).toNat drDx.tr.scratch = .store 16 ∧
    (drDx.d.reg 7 + 0).toNat % 4 = 0 ∧ drayPlace (drDx.d.reg 7 + 0).toNat drDx.tr.scratch = .priv 0 ∧
    (drDx.d.reg 8 + 0).toNat % 4 = 0 ∧ drayPlace (drDx.d.reg 8 + 0).toNat drDx.tr.scratch = .scr 16 ∧
    rangeBusy drDemo drDx.core drDx.t 16 4 = false ∧ (scrGet drDx.tr drDx.rank 16 4).poison = false ∧
    csrRead drDemo drDx 0x340 = some 0 ∧ csrNew .rw (w32 0) (drDx.d.reg 5) 5 = some 16 ∧ csrWritable 0x340 = true ∧
    csrRead drDemo drDx 0xFC2 = some 0 ∧ csrNew .rs (w32 0) (drDx.d.reg 0) 0 = none :=
  ⟨⟨rfl, rfl⟩, by rfl, by rfl, by rfl, by rfl, by rfl, by rfl, by rfl, by rfl, by rfl, by rfl, by rfl, by rfl, by rfl⟩

/-! ### The matrix unit: yoke 1 collects one signature, yoke 2 two -/

def mxDemo : State :=
  stateOf { demoTrain demoCoach with yk := [(0, [(1, { Yoke.init with count := 1 }), (2, { Yoke.init with count := 2 })])] }
def mxIx : Ix := ixIn mxDemo
theorem mx_here : ixOf mxDemo mxIx.ref = some mxIx := rfl
def e4 : MmaMod := ⟨.e4m3, .e4m3, false, false⟩
def mxA (y : BitVec 4) : Args := ard (.tile 1) (.v 1) .zero (.yoke y)
def tl : Args := ar (.tile 1) (.v 1) .unused
def tl2 : Args := ar (.tile 1) (.tile 2) .unused

theorem witness_MatrixComplete :
    let y (n : BitVec 4) : Yoke := mxIx.tr.yoke mxIx.rank (yokeNo (.yoke n))
    let z (i : Instr) (n : BitVec 4) : Yoke := signYoke i (mxA n) mxIx [0] (released mxIx .cl mxDemo) (y n)
    (∀ n ∈ [(1 : BitVec 4), 2], ∀ i ∈ [Instr.mma e4 (mxA n), .mmag e4 (mxA n), .mmaw e4 false (mxA n), .mmaw e4 true (mxA n)],
      Issues i (mxA n) mxDemo mxIx ∧ signWaits mxIx [0] (y n) = false ∧
      signCheck mxDemo mxIx (mxA n) e4 (mmaForm i) (y n) [0] = none ∧
      ((z i n).signed.length = (y n).count ↔ n = 1)) ∧
    canRelease mxIx .cl mxDemo = true ∧
    (∀ p ∈ [(Instr.aclr tl, tl), (.amov tl2, tl2), (.aadd true tl2, tl2), (.adrop tl, tl), (.mscl tl, tl), (.await tl, tl),
      (.await { tl with a := .zero }, { tl with a := .zero }), (.ald tl, tl), (.ast tl, tl), (.acvt .fp32 false .rn false tl, tl)],
      Issues p.1 p.2 mxDemo mxIx) ∧
    (∀ n ∈ List.range mxIx.tr.acc, tileSigned mxIx n (fun _ => true) = false ∧ tilePending mxIx n = false) ∧
    (∀ n ∈ List.range mxIx.tr.acc, tileSigned mxIx n (fun f => (fidsOf mxIx [0]).contains f) = false) ∧
    acqMay true .cl mxIx mxDemo (acqStart true .cl mxIx mxDemo) ∧ offVa mxDemo mxIx tl .disp 0 = 16 ∧
    16 + 3072 ≤ mxIx.tr.scratch ∧ 32 * acvtBits .fp32 false = 1024 ∧
    rangeBusy mxDemo mxIx.core mxIx.ref.train 16 3072 = false ∧ rangeBusy mxDemo mxIx.core mxIx.ref.train 16 1024 = false := by
  intro y z
  refine ⟨?_, by rfl, all_at mx_here _ (by decide), by decide, by decide, fun _ => ⟨by decide, by rfl⟩, by rfl, by decide, by rfl, by rfl,
    by rfl⟩
  intro n hn i hi
  refine ⟨issues_of mx_here ?_, ?_, ?_, ?_⟩ <;> revert i n <;> decide

/-! ### Queues and levels: queue 0 is open, 1 has a reserved place with a good card, 2 one with a fill card, 3 is closed -/

def openQ : Queue := { Queue.init 0 with en := true, owner := 0, size := 2, ringl := 0, ringh := 0 }
def rsvQ (a : Word32) : Queue := { openQ with ringl := a, ring := [(0, ⟨cardOf [], 0, .reserved 0, 0, 0, 0⟩)], tail := 1 }
/-- A launch of one coach and one record on level 1 at address 0, a fill at 128; level 2 counts 3. -/
def qDemo : State :=
  { stateOf (demoTrain { demoCoach with lanes := [(0, { demoLane with v := [(1, 16), (2, 3), (3, 2), (5, 1), (10, 128)] })] }) with
    mem := [(28, 1), (38, 1), (40, 8), (48, 1), (156, 1), (163, 0x40), (176, 1)]
    queues := [(0, openQ), (1, rsvQ 0), (2, rsvQ 128)]
    levels := [(0x1040, ⟨3, 0, false, 0, none⟩)]
    ctxs := [(0, { Ctx.root with lvbase := 0x1000, lvlen := 4 })] }
def qIx : Ix := ixIn qDemo
theorem q_here : ixOf qDemo qIx.ref = some qIx := rfl
def qA (q c : Operand) : Args := ard (.v 4) q c (.v 0)

/-- Each form with a card that it takes, into queue 0, and with queue 3, which refuses every card. -/
theorem witness_QueueComplete :
    let good (va q : Nat) (o : Offer) : Prop := ∃ bs u, cardRead qIx va qDemo = some (bs, u) ∧
      (cardStatus u qIx.ctx q o (cardOf bs) = 0 && (turnPlace u q o.depth (waitNo u qIx (.queue q o.depth))).isSome &&
        canRelease qIx (levelScope qIx.ctx) u) = true
    let bad (va q : Nat) (o : Offer) : Prop := ∃ bs u, cardRead qIx va qDemo = some (bs, u) ∧
      decide (cardStatus u qIx.ctx q o (cardOf bs) ≠ 0) = true
    (∀ q ∈ [Operand.v 0, .v 2], ∀ c ∈ [Operand.v 6, .v 10], ∀ i ∈ [Instr.enq (qA q c), .enqt (qA q c), .spawn (qA q c),
      .cfill (qA q c), .qpubRsv (qA q c), .qclaim (qA q c), .qstat (qA q c)], Issues i (qA q c) qDemo qIx) ∧
    srcI qDemo qIx (qA (.v 2) (.v 10)) 32 (.v 2) 0 = 3 ∧ srcI qDemo qIx (qA (.v 2) (.v 10)) 64 (.v 10) 0 = 128 ∧
    good 0 0 .launch ∧ bad 0 3 .launch ∧ good 0 0 (.spawn qIx.tr.nest) ∧ bad 0 3 (.spawn qIx.tr.nest) ∧ good 128 0 .fill ∧
    bad 128 3 .fill := by
  refine ⟨fun q hq c hc i hi => issues_of q_here ?_, by rfl, by rfl, some_of (by decide +kernel), some_of (by decide +kernel),
    some_of (by decide +kernel), some_of (by decide +kernel), some_of (by decide +kernel), some_of (by decide +kernel)⟩
  revert q c i
  decide

/-- ENQT into a queue whose places are taken, its time over at once. -/
def fullQ : State := { qDemo with queues := [(0, { openQ with
  ring := [(0, ⟨cardOf [], 0, .ready, 1, 0, 0⟩), (1, ⟨cardOf [], 0, .ready, 1, 0, 0⟩), (2, ⟨cardOf [], 0, .ready, 1, 0, 0⟩),
    (3, ⟨cardOf [], 0, .ready, 1, 0, 0⟩)], tail := 4, rsv := [(0, ⟨cardOf [], 0, .ready, 1, 0, 0⟩)] })] }

theorem witness_QueueComplete_full :
    let x := ixIn fullQ
    let a := qA (.v 0) (.v 6)
    Issues (.enqt a) a fullQ x ∧ ∃ bs u, cardRead x 0 fullQ = some (bs, u) ∧
      (cardStatus u x.ctx 0 .launch (cardOf bs) = 0 && (turnPlace u 0 0 (waitNo u x (.queue 0 0))).isNone &&
        decide (x.fr.deadline.getD (u.rtime + rtCap (srcI u x a 32 a.d 0)) ≤ u.rtime)) = true :=
  ⟨issues_of (by rfl) (by decide), some_of (by decide +kernel)⟩

theorem witness_QueueComplete_publish :
    let a (q : Operand) : Args := ar (.v 4) q (.v 0)
    let u := released qIx (levelScope qIx.ctx) qDemo
    (∀ q ∈ [Operand.v 0, .v 3, .v 5], Issues (.qpub (a q)) (a q) qDemo qIx) ∧
    slotOf qDemo qIx 1 0 = some 0 ∧ slotOf qDemo qIx 2 0 = some 0 ∧ slotOf qDemo qIx 0 0 = none ∧
    canRelease qIx (levelScope qIx.ctx) qDemo = true ∧
    ((ringCard u 1 0).any fun bs => cardStatus u qIx.ctx 1 .launch (cardOf bs) = 0) = true ∧
    ((ringCard u 2 0).any fun bs => cardStatus u qIx.ctx 2 .launch (cardOf bs) ≠ 0) = true := by
  refine ⟨fun q hq => issues_of q_here ?_, by rfl, by rfl, by rfl, by rfl, by decide +kernel, by decide +kernel⟩
  revert q
  decide

/-- Level 0 is invalid, level 1 counts 0, level 2 counts 3. -/
theorem witness_LevelComplete :
    let a (b c : Operand) : Args := ar (.v 4) b c
    let one (i : Args → Instr) (b c : Operand) : Prop := Issues (i (a b c)) (a b c) qDemo qIx
    let t := countClamp qDemo qIx.ctx .pt
    let u := released qIx (levelScope qIx.ctx) qDemo
    one .sjoin (.v 0) .unused ∧ one .sjoin (.v 5) .unused ∧ one (.lvwait false) (.v 5) .unused ∧ one (.lvwait true) (.v 5) (.v 0) ∧
    one (.lvwait true) (.v 3) (.v 0) ∧ one (.lvrd true) (.v 3) .unused ∧ one .lvinc (.v 3) (.v 5) ∧ one .lvinc (.v 3) (.v 0) ∧
    one .cancel (.v 3) .unused ∧ one .cancelClr (.v 3) .unused ∧
    levelValid qDemo qIx.ctx 0 = false ∧ levelValid qDemo qIx.ctx 1 = true ∧ (levelGet qDemo qIx.ctx 1).count = 0 ∧
    (levelGet qDemo qIx.ctx 2).count ≠ 0 ∧
    acqMay true .pt qIx qDemo (acqStart true .pt qIx qDemo) ∧
    acqMay true .pt qIx qDemo (gave qIx (a (.v 5) .unused) 1 (acqStart true .pt qIx qDemo)) ∧
    acqMay true .pt qIx t (gave qIx (a (.v 5) (.v 0)) 1 (acqStart true .pt qIx t)) ∧
    qIx.fr.deadline.getD (qDemo.rtime + rtCap 0) ≤ qDemo.rtime ∧ (w32 1).toInt ≠ 0 ∧
    (levelAdd qIx.ctx levelFuel qDemo 2 1 none).isSome = true ∧ (levelAdd qIx.ctx levelFuel u 2 1 none).isSome = true ∧
    canRelease qIx (levelScope qIx.ctx) qDemo = true :=
  ⟨issues_of q_here (by decide), issues_of q_here (by decide), issues_of q_here (by decide), issues_of q_here (by decide),
    issues_of q_here (by decide), issues_of q_here (by decide), issues_of q_here (by decide), issues_of q_here (by decide),
    issues_of q_here (by decide), issues_of q_here (by decide), by rfl, by rfl, by rfl, by decide, fun _ => ⟨by decide, by rfl⟩,
    fun _ => ⟨by decide, by rfl⟩, fun _ => ⟨by decide, by rfl⟩, by decide, by decide, by rfl, by rfl, by rfl⟩

end Sys2Proof.Tests
end

