-- ==== Sys2Proof/Tests/WitnessEvents.lean ====
section
/-! SUPPORT. Witnesses for the statements about events: waits that end, accesses on their way, copies and ports, cards, contexts, mailboxes, steps and traps. -/

namespace Sys2Proof.Tests

open Sys2Proof Sys2Proof.Machine

/-- The demo state with another fragment in place of its own, while an event on it is in turn. -/
def fragState (f : Frag → Frag) : State :=
  { stateOf (demoTrain { demoCoach with frags := demoCoach.frags.map fun e => (e.1, f e.2) }) with
    ev := { Ev.none with frag := demoRef } }
/-- A pending load of v4 from global address 0. -/
def pend1 (id : Nat) : Pend := ⟨id, 0, 0, .v 4, 4, false, 0, [(0, .glob 0 0 false 0)], none, false, 0⟩
def evState (co : Coach → Coach) (e : Ev) : State := { stateOf (demoTrain (co demoCoach)) with ev := e }

theorem witness_WaitEvents :
    (let f (f : Frag) : Frag := { f with nap := some 0 }
     ((fragState f).frag? demoRef).any (fun g => g.nap.any (· ≤ (fragState f).rtime)) = true) ∧
    (pendOf (evState (fun c => { c with pend := [pend1 5] }) { Ev.none with i := 5 }) 5).isSome = true ∧
    (let f (f : Frag) : Frag := { f with deadline := some 0 }
     ((fragState f).frag? demoRef).any (fun g => g.deadline.any (· ≤ (fragState f).rtime)) = true) ∧
    (let s := fragState fun f => { f with wait := some (3, .cask 0 [(0, .empty)]) }
     (caskWaiters s s.ev.i).filter (fun w => w.2.2.any (fun m => m.1 = s.ev.j) && needsMet s s.ev.i w.2.2) =
       [(3, .frag demoRef, [(0, .empty)])]) ∧
    (let s := { fragState fun f => { f with wait := some (3, .queue 0 0) } with
       queues := [(0, { Queue.init 0 with en := true, owner := 0, size := 2 })] }
     sortNat (((producers s s.ev.i).filter fun p => (freePlace (s.queue s.ev.i) p.2).isSome).map (·.1)) = [3] ∧
     ((s.trains.flatMap fun e => e.2.fragRefs e.1).find? fun r => ((s.frag? r).bind (·.wait)).map (·.1) = some 3) =
       some demoRef) :=
  ⟨by rfl, by rfl, by rfl, by rfl, by rfl, by rfl⟩

/-- The port of X-die 0 has a link, in mode `m`. A store of the fragment on its way to address 0, plain or as a registration; an atomic step queued there. -/
def store1 (reg : Bool) : PStore := ⟨7, .frag demoRef, 0, 0, [1, 0, 0, 0], 0, reg, none, false, 7, 0⟩
def step1 (op : AOp) : AStep := ⟨7, .frag demoRef, 0, 0, false, 0, op, none, 1, 0, 7, none, 0, 0⟩
def memState (w : L1Word) (op : AOp) (reg : Bool) (m : Nat) (e : Ev) : State :=
  { stateOf (demoTrain demoCoach) with
    ev := e, clusters := [(0, { Cluster.init with l1 := [(0, w)], tlb := [demoTlb] })], stores := [store1 reg], steps := [step1 op]
    host := { HostSide.init with
      hdm := [(0, (2 ^ 29, 0))], pcie := [(0, (16, true))], config := { BootRec.init with portModes := [(0, m)] } } }

theorem witness_MemoryEvents :
    let s (op : AOp) (reg : Bool) (e : Ev) : State := memState ⟨5, true, 15, 0, 0⟩ op reg 1 e
    ((s .exch false Ev.none).steps.filter fun a => overlap a.ma (if a.w64 then 8 else 4) 0 4) = [step1 .exch] ∧
    treeStep (step1 .exch).op (step1 .exch) = false ∧ treeStep (step1 .add).op (step1 .add) = true ∧
    ((s .add false Ev.none).steps.filter fun a => overlap a.ma (if a.w64 then 8 else 4) 0 4) = [step1 .add] ∧
    (∀ reg, ((s .add reg Ev.none).stores.find? fun q => q.id = 7) = some (store1 reg) ∧ (store1 reg).reg = reg ∧
      storeReady (s .add reg Ev.none) (store1 reg) = true) ∧
    allHdm (s .add false Ev.none) 0 64 16 = true ∧ allHdm (s .add false Ev.none) 1 64 16 = false ∧
    cxlPort (s .add false Ev.none) 0 = true ∧ cxlPort (memState ⟨5, true, 15, 0, 0⟩ .add false 0 Ev.none) 0 = false :=
  ⟨by rfl, by rfl, by rfl, by rfl, by decide, by rfl, by rfl, by rfl, by rfl⟩

/-- Core 0 with slot 0 at work for the demo train, whose scratchpad holds a descriptor at 16; endpoint 0 lies on port 3. -/
def slotOfWork (w : Work) (done acked : Nat) : Slot := ⟨w, 0, 0, 0, 0, done, [], 0, acked, none, false, false, false⟩
def slotState (sl : Slot) : State :=
  { cpDemo with
    ev := { Ev.none with k := 16 }
    cores := [(0, { Core.init with slots := [(0, sl)] })]
    ctxs := [(0, { Ctx.root with endpoints := [(0, ⟨3, 0, 0, 0, 0⟩)] })] }
def copyOf (kind : Nat) (kr : Bool) (mb : Nat) : Desc := Desc.simple kind false false kr 0 mb 16 0 0
def mmaRec : MmaRec :=
  { m := e4, tile := 1, rows := (List.range 16).map (64 * ·), aScales := none, bo := 2048, cellar := false, rowScale := []
    tileScale := 0, bad := false, counts := true, drop := false, early := false, keep := false, copies := 0 }

theorem witness_CopyEvents :
    (let desc (n : Nat) : Desc := descOf (scrGet cpDemo.trains.head!.2 0 (16 + 64 * n) 64).bytes
     let s := slotState (slotOfWork (.list 16 2 0 false) 0 0)
     mget (s.core 0).slots 0 = some (slotOfWork (.list 16 2 0 false) 0 0) ∧ (mget s.trains 0).isSome = true ∧
     (desc 0).check cpDemo.trains.head!.2 0 [0, 1, 2, 3, 4] = 0 ∧ (desc 1).check cpDemo.trains.head!.2 0 [0, 1, 2, 3, 4] ≠ 0 ∧
     freeEngineSlot (modSlot s 0 0 fun x => { x with work := .list 16 2 1 false }) 0 = some 1 ∧
     freeEngineSlot (freeSlotOf s 0 0) 0 = some 0) ∧
    (let d := copyOf 0 false 64
     let sl := slotOfWork (.copy d) 1 0
     d.hasMb = true ∧ min (min ((slotState sl).ev.k / 16 * 16) 1024) (16 * sl.performed d - sl.counted) ≠ 0) ∧
    (let d := copyOf 0 false 0xFFFFFFFF
     (slotOfWork (.copy d) 1 0).performed d = d.chunks ∧ d.hasMb = false) ∧
    (copyOf 5 false 64).isDma = true ∧ (copyOf 5 false 64).kr = false ∧
    (let sl := slotOfWork (.copy (copyOf 5 true 64)) 0 0
     peerPort (slotState sl) sl = some 3) ∧ mget ((slotState (slotOfWork (.copy (copyOf 0 false 64)) 0 0)).core 0).slots 1 = none := by
  exact ⟨⟨by rfl, by rfl, by decide +kernel, by decide +kernel, by rfl, by rfl⟩, ⟨by rfl, by decide⟩, ⟨by rfl, by rfl⟩, by rfl, by rfl,
    by rfl, by rfl⟩

theorem witness_CopyEvents_mma :
    let s := stateOf { demoTrain demoCoach with mmas := [(0, [mmaRec])] }
    (mget s.trains 0).any (fun t => (mgetD t.mmas 0 [])[0]? = some mmaRec && t.cores.getD 0 0 = 0) = true ∧
    mmaHeld s 0 0 mmaRec = false ∧ ∀ q ∈ [mmaRec].take 0, q.tile ≠ mmaRec.tile :=
  ⟨by rfl, by decide, by decide⟩

/-! ### Cards: queue 0 holds one, its core is bound to it -/

/-- A launch of one coach and one record on level 1, whose launch may be cancelled. -/
def card1 : Card := { cardOf [] with coaches := 1, window := 8, argcount := 1, launch := 1 }
def fill1 : Card := { cardOf [] with kind := 1, argcount := 1, argsize := 16, launch := 1 }
def qcard (c : Card) (st : CardSt) : QCard := ⟨c, 0, st, c.argcount.toNat, 0, 0⟩
def cardState (c : Card) (st : CardSt) (cancel : Bool) (l2 : Nat) : State :=
  { State.reset with
    queues := [(0, { openQ with ring := [(0, qcard c st)], tail := 1 })]
    cores := [(0, { Core.init with bind := ⟨true, 0, 0, 0, 0⟩ })]
    levels := [(0x1020, ⟨1, 0, cancel, 0, none⟩), (0x1040, ⟨BitVec.ofNat 32 l2, 0, false, 0, none⟩)]
    ctxs := [(0, { Ctx.root with lvbase := 0x1000, lvlen := 4 })] }

def standsB (s : State) (k : QCard) (st : CardSt) : Bool :=
  (s.queue 0).card? (.ring 0) = some k && isExamined (s.queue 0) (.ring 0) && k.st = st && s.ev.place = .ring 0

theorem witness_ScheduleEvents :
    let s (c : Card) (st : CardSt) : State := cardState c st false 3
    let ok (c : Card) (st : CardSt) (p : State → QCard → Bool) : Bool :=
      standsB (s c st) (qcard c st) st && !chainCancelled (s c st) (qcard c st) && p (s c st) (qcard c st)
    (∀ st ∈ [CardSt.admitting, .wait, .ready], standsB (cardState card1 st true 3) (qcard card1 st) st = true ∧
      chainCancelled (cardState card1 st true 3) (qcard card1 st) = true) ∧
    ok fill1 .admitting (fun _ k => k.card.isFill) = true ∧
    ok card1 .admitting (fun s k => !k.card.isFill && k.card.argcount ≠ 0 && admitCode s k = 0) = true ∧
    ok { card1 with argcount := 0 } .admitting (fun _ k => !k.card.isFill && k.card.argcount = 0) = true ∧
    ok { card1 with coaches := 2048, window := 512 } .admitting (fun s k => !k.card.isFill && k.card.argcount ≠ 0 && admitCode s k ≠ 0) = true ∧
    ok card1 .wait (fun s k => afterDone s k && !k.card.vchk) = true ∧
    ok { card1 with after0 := 2 } .wait (fun s k => !afterDone s k) = true ∧
    ok { card1 with vchk := true, expvint := 5 } .wait (fun s k => afterDone s k && k.card.vchk &&
      k.card.expvint.toNat ≠ vintageOf s k.ctx) = true ∧
    (mget (s fill1 .ready).fills 0 = none ∧ partIdle (s fill1 .ready) 0 = true ∧
      fillCandidate (s fill1 .ready) 0 = some (0, .ring 0, qcard fill1 .ready)) := by
  refine ⟨by decide, ?_, ?_, ?_, ?_, ?_, ?_, ?_, ?_⟩
  all_goals decide +kernel

theorem witness_ScheduleEvents_placement :
    let s : State := cardState card1 .ready false 3
    dispatches s 0 = true ∧ firstCandidate s 0 = some (0, .ring 0, qcard card1 .ready) ∧
    mayDispatch s 0 0 0 (qcard card1 .ready) = true ∧ (visits s 0 0 0 (qcard card1 .ready)).1 = some [(0, 1)] ∧
    (claimCard (keepPointer (keepSkips s (visits s 0 0 0 (qcard card1 .ready)).2) 0 0 0 0 0) 0 (.ring 0)).1.isSome = true ∧
    card1.gbar = false :=
  ⟨by decide +kernel, by decide +kernel, by decide +kernel, by decide +kernel, by decide +kernel, by rfl⟩

/-- A launch with the GBAR flag, whose one train fits. -/
theorem witness_ScheduleEvents_flagged :
    let c : Card := { card1 with gbar := true }
    let s : State := cardState c .ready false 3
    dispatches s 0 = true ∧ firstCandidate s 0 = some (0, .ring 0, qcard c .ready) ∧
    mayDispatch s 0 0 0 (qcard c .ready) = true ∧ gbarPlans s 0 0 (qcard c .ready) = some [[(0, 1)]] :=
  ⟨by decide +kernel, by decide +kernel, by decide +kernel, by decide +kernel⟩

/-- A train whose fibres have ended; one that waits in SJOIN on level 2; the same saved, its level at 0. -/
def sjoinTrain (res : Residence) : Train :=
  demoTrain { demoCoach with frags := demoCoach.frags.map fun e => (e.1, { e.2 with wait := some (0, .sjoin 2) }) } |> fun t => { t with res := res, ready := res = .suspended, saved := res ≠ .resident }
def trainState (t : Train) (l2 : Nat) : State := { cardState card1 .ready false l2 with trains := [(0, t)] }

theorem witness_ScheduleEvents_trains :
    canRetire (trainState { demoTrain { demoCoach with lanes := [], frags := [] } with drays := [] } 3) 0 = true ∧
    canSuspend (trainState (sjoinTrain .resident) 3) 0 = true ∧
    mayResume (trainState (sjoinTrain .suspended) 0) 0 (sjoinTrain .suspended) = true ∧
    restorePlan (trainState (sjoinTrain .suspended) 0) (sjoinTrain .suspended) = some [0] ∧
    (∀ n ∈ [0, 16], let f : Fill := ⟨0, .ring 0, 0, { fill1 with argsize := BitVec.ofNat 32 n }⟩
      let s := { cardState fill1 .filling false 3 with fills := [(0, f)] }
      mget s.fills 0 = some f ∧ outOf s f.ctx .mem = false ∧ (fillChunks 0 f (f.card.argsize.toNat / 16) 0 s).1 = decide (n = 0)) ∧
    (State.reset.rtime % 1024 = 0 ∧ State.reset.ev.i < 768 ∧ State.reset.ev.x.toNat &&& (7 * 2 ^ 60) = 0 ∧
      isRetired State.reset 1 (State.reset.ev.i / 4) = false ∧ State.reset.ev.i < 65536) :=
  ⟨by decide +kernel, by decide +kernel, by decide +kernel, by decide +kernel, by decide +kernel, by decide⟩

/-! ### Context 1, a child of the root, with an operation on it and the demo train in it -/

def opState (k : OpKind) (deadline : Option Nat) (trains : List (Nat × Train)) : State :=
  { State.reset with
    ev := { Ev.none with i := 1 }
    timers := [.refill, .policy 1 0 [], .series 1 []]
    cores := [(0, { Core.init with bind := ⟨true, 1, 0, 0, 0⟩, slice := some (1, some 0) })]
    trains := trains
    ctxs := [(0, Ctx.root), (1, { Ctx.root with parent := 0, depth := 1, time := ⟨1, 4, 0⟩, st := .stopping, op := some ⟨k, 0, 1, deadline, [0], .running⟩ })] }
def inCtx1 : List (Nat × Train) := [(0, { demoTrain demoCoach with ctx := 1 })]

theorem witness_ContextEvents :
    let op (k : OpKind) (d : Option Nat) : CtxOp := ⟨k, 0, 1, d, [0], .running⟩
    let late (k : OpKind) : Bool := ((opState k (some 0) inCtx1).ctx 1).op = some (op k (some 0)) &&
      (opState k (some 0) inCtx1).hasCtx 1 && (op k (some 0)).drains && (op k (some 0)).deadline.any (· ≤ (opState k (some 0) inCtx1).rtime) &&
      drainLeft (opState k (some 0) inCtx1) 1 (op k (some 0))
    let s := opState .stopNow none []
    revokeReady (opState (.revoke true false []) none []) 1 (op (.revoke true false []) none) = true ∧
    stopReady s 1 (op .stopNow none) = true ∧ late .stopDrain = true ∧ late (.revoke true true []) = true ∧
    (.refill ∈ s.timers ∧ s.timers = [.refill] ++ .policy 1 0 [] :: [.series 1 []] ∧
      s.timers = [.refill, .policy 1 0 []] ++ .series 1 [] :: [] ∧ policyOf 1 .refill = none ∧
      seriesOf 1 .refill = none ∧ seriesOf 1 (.policy 1 0 []) = none) ∧
    (s.hasCtx 1 = true ∧ (s.ctx 1).time.depth ≠ 0 ∧ (s.ctx 1).time.tok = 0) ∧ sliceDue s 0 = true ∧
    (sysRange 0x10 0 = true ∧ sysRange 0x17 0 = true) ∧ sysWriter s 1 1 0 false = true ∧ s.ev.p = false ∧ s.ev.x.toNat % 4 = 0 ∧ 1 ≤ s.ev.i :=
  ⟨by rfl, by rfl, by decide +kernel, by decide +kernel, by decide, by decide, by decide +kernel, by decide, by rfl, by rfl, by rfl, by decide⟩

/-- A revocation of page 0 of context 1 that has become ready, the map image of the child clean, or its frame under another key. -/
def mapState (tag : Byte) : State :=
  { opState (.revoke false false [0, 1, 0, 0]) none [] with
    tags := if tag = 0 then [] else [(0, tag)]
    ctxs := [(0, Ctx.root), (1, { Ctx.root with
      parent := 0, depth := 1, save := 0, savelen := 2 ^ 20, st := .running, gmap := [⟨0, 2 ^ 20, 16, true, false, false⟩]
      op := some ⟨.revoke false false [0, 1, 0, 0], 0, 1, none, [], .running⟩ })] }

/-- The migration of context 1 past its deadline; stores and atomics of context 1 that wait for its MEM bucket; the root's poll of
the low half of TVEC through physical function 0, and through a function that is bound to no context. -/
theorem witness_ContextEvents_more :
    let mo : CtxOp := ⟨.migrate, 0, 1, some 0, [0], .running⟩
    let m := opState .migrate (some 0) inCtx1
    let rv : CtxOp := ⟨.revoke false false [0, 1, 0, 0], 0, 1, none, [], .running⟩
    let low : State := { opState .stopNow none inCtx1 with
      ctxs := [(0, Ctx.root), (1, { Ctx.root with parent := 0, depth := 1, mem := ⟨1, 4, 0⟩ })], stores := [store1 false], steps := [step1 .exch] }
    let poll (fn k l : Nat) : State := { State.reset with
      ev := { Ev.none with j := fn, k := k, l := l }, host := { HostSide.init with pcie := [(0, (16, true))] } }
    let wr (n x : Nat) (hi : Bool) : State := { State.reset with ev := { Ev.none with j := n, x := w64 x, p := hi } }
    (revokeReady (mapState 0) 1 rv = true ∧ stuckMaps (mapState 0) 1 rv = [] ∧ revokeReady (mapState 1) 1 rv = true ∧
      stuckMaps (mapState 1) 1 rv ≠ []) ∧
    ((m.ctx 1).op = some mo ∧ mo.drains = true ∧ mo.deadline.any (· ≤ m.rtime) = true ∧ drainLeft m 1 mo = true) ∧
    ((low.stores.find? fun q => q.id = 7) = some (store1 false) ∧ paysFor (store1 false) = true ∧
      outOf low (agentCtx low (store1 false).who) .mem = true ∧
      (low.steps.filter fun b => overlap b.ma (if b.w64 then 8 else 4) 0 4) = [step1 .exch] ∧ (step1 .exch).id = (step1 .exch).grp) ∧
    (hostReach (poll 0 (2 ^ 34) 4) = true ∧ reqSizeOk (2 ^ 34) 4 = true ∧ (reachCtx (poll 0 (2 ^ 34) 4)).isSome = true) ∧
    (hostReach (poll 7 (2 ^ 34) 4) = true ∧ reachCtx (poll 7 (2 ^ 34) 4) = none) ∧
    (hostReach (poll 0 (2 ^ 34) 2) = true ∧ reqSizeOk (2 ^ 34) 2 = false) ∧
    ((wr 7 0 false).hasCtx 0 = true ∧ sysWriter (wr 7 0 false) 0 0 7 false = false ∧ sysExists 0x0F = false) ∧
    (∀ hi, sysExists 0x10 = true ∧ sysWriter (wr 0x10 1 hi) 0 0 0x10 false = true) := by
  refine ⟨⟨by decide +kernel, by decide +kernel, by decide +kernel, by decide +kernel⟩, ⟨by rfl, by rfl, by rfl, by decide +kernel⟩,
    ⟨by rfl, by rfl, by rfl, by rfl, by rfl⟩, ⟨by rfl, by rfl, by rfl⟩, ⟨by rfl, by rfl⟩, ⟨by rfl, by rfl⟩, ⟨by rfl, by rfl, by rfl⟩, by decide⟩

/-! ### Mailboxes -/

/-- Mailbox 0 holds a command that is due, after the boot; the root's tables map its first 512 MiB on themselves. -/
def mbState (op : Nat) (a0 a1 a2 : Nat) : State :=
  { qDemo with
    mem := [(28, 1), (38, 1), (40, 8), (48, 1), (284, 4), (65536, 1), (65538, 2), (131072, 0x1F)]
    trains := []
    ctxs := [(0, { Ctx.root with lvbase := 0x1000, lvlen := 4, s1root := some 65536 }), (1, { Ctx.root with depth := 1 })]
    host := { HostSide.init with
      boot := 4, mq := [0], pcie := [(0, (16, true))]
      mbox := [(0, { Mbox.init with op := BitVec.ofNat 8 op, busy := true, arg0 := w64 a0, arg1 := w64 a1, arg2 := w64 a2 })] } }

def upB (op a0 a1 a2 : Nat) (is : Mbox → Bool) : Bool :=
  let s := mbState op a0 a1 a2
  commandDue s 0 && is (s.mbox 0) && !s.host.heldVolt && s.host.boot = 4

theorem witness_MailboxComplete :
    (∀ p ∈ [(2, 4), (3, 1024), (4, 1), (5, 16), (6, 2 ^ 29), (10, 0), (8, 0), (13, 0)],
      upB p.1 0 p.2 0 (isOp p.1) = true) ∧ upB 14 0 0 0 (fun m => m.op.toNat = 0 || m.op.toNat > 13) = true ∧
    (let n := nbits 4 0 8
     4 ≤ n ∧ n ≤ 12 ∧ nbits 4 8 16 < 2048 ∧ isHbm 0 = true ∧ isHbm (64 * (1 + 2 ^ n) - 1) = true) ∧
    (1024 % 32 = 0 ∧ nbits 0 0 16 < 2048) ∧ (nbits 7 0 16 ≠ 0 ∧ nbits 1 0 12 ≠ 0xFFF ∧ (mbState 4 7 1 0).hasCtx 1 = true ∧
      ((mbState 4 7 1 0).ctx 1).op = none ∧ nbits 0xFFF 0 12 = 0xFFF) ∧
    (isHbm (2 ^ 29 - 1) = true ∧ covers (ownMemory (mbState 6 0 (2 ^ 29) 0) 0) 0 (2 ^ 29) = true) ∧
    1000 ≤ (mbState 10 1000 0 0).host.config.powerCeil ∧
    (∀ k ∈ [0, 1, 2], (retireUnit k 65536).isSome = decide (k ≠ 1)) ∧ retireUnit 1 191 = some 191 ∧
    unitGranted (mbState 8 0 65536 0) 0 1 = false ∧ isRetired (mbState 8 0 65536 0) 0 1 = false ∧
    rootBusy (mbState 13 256 0 0) = false ∧ (homeBytes (mbState 13 256 0 0) 256 64).any (fun bs => (blockOf bs).rootOk) = true ∧
    (let o : State := { mbState 2 0 4 0 with host := { (mbState 2 0 4 0).host with boot := 3 } }
     commandDue o 0 = true ∧ isOp 2 (o.mbox 0) = true ∧ o.host.boot ≠ 4) ∧
    (let e : State := { mbState 2 0 4 0 with host := { (mbState 2 0 4 0).host with mbox := [(0, { (mbState 2 0 4 0).mbox 0 with ended := true })] } }
     e.host.mq.head? = some 0 ∧ (e.mbox 0).ended = true ∧ (mbState 2 0 4 0 |>.mbox 0).busy = true) := by
  refine ⟨by decide +kernel, by decide +kernel, by decide, by decide, by decide +kernel, ⟨by rfl, by decide +kernel⟩, by decide, by decide,
    by rfl, by decide +kernel, by rfl, by rfl, by decide +kernel, by decide, by decide⟩

theorem witness_MailboxMoves :
    let en := mbState 11 0 0 0
    let st : State := { mbState 7 1 0 0 with ctxs := [(0, Ctx.root), (1, { Ctx.root with depth := 1, st := .stopping, op := some ⟨.stopDrain, 0, 1, none, [], .running⟩ })] }
    let mo : State := { mbState 7 1 0 0 with host := { (mbState 7 1 0 0).host with mbox := [(0, { (mbState 7 1 0 0).mbox 0 with done := 1 })] }
                                             ctxs := [(0, Ctx.root), (1, { Ctx.root with depth := 1, st := .migrating })] }
    (∀ p ∈ [(1, 0, 2 ^ 40), (12, 0, 0), (11, 0, 0)], upB p.1 p.2.1 p.2.2 16 (isOp p.1) = true) ∧
    (commandDue (mbState 9 0 0 0) 0 = true ∧ isOp 9 ((mbState 9 0 0 0).mbox 0) = true) ∧
    upB 7 1 0 0 (isMigrate false) = true ∧ upB 7 4096 0 0 (isMigrate true) = true ∧
    (summary (mbState 1 0 (2 ^ 40) 0)).length ≤ 2 ^ 40 ∧
    (isHbm 15 = true ∧ covers (ownMemory (mbState 12 0 0 16) 0) 0 16 = true ∧
      ∀ i < 16, keyConflict (mbState 12 0 0 16) i 0 = false) ∧
    ((en.ctx 0).s1root.isSome = true ∧ en.host.cxlIn = [] ∧
      (deviceRead en 0 0 128).any (fun bs => cardStatus en 0 0 .launch (cardOf bs) = 0) = true ∧
      (turnPlace en 0 0 en.waitSeq).isSome = true) ∧
    ((mbState 7 1 0 0).hasCtx 1 = true ∧ stopsNow (mbState 7 1 0 0) 1 = false ∧
      (∀ k ∈ subtree (mbState 7 1 0 0) 1, ((mbState 7 1 0 0).ctx k).op = none) ∧
      ctxPlaces (mbState 7 1 0 0) 1 = true) ∧
    (commandDue st 0 = true ∧ (st.mbox 0).done = 0 ∧ st.hasCtx 1 = true ∧ stopsNow st 1 = true) ∧ portUp mo 0 = true ∧
    (commandDue mo 0 = true ∧ (mo.mbox 0).done ≠ 0 ∧ (mo.ctx 1).st = .migrating ∧ subtreeTrains mo 1 = [] ∧
      mo.ev.p = false ∧ stuckLevels mo 1 = []) ∧
    (nbits 4096 0 12 = 0 ∧ (mbState 7 4096 0 0).hasCtx 0 = true ∧ ((mbState 7 4096 0 0).ctx 0).op = none) := by
  refine ⟨by decide +kernel, by decide, by decide +kernel, by decide +kernel, by decide +kernel, ⟨by rfl, by decide +kernel, by decide +kernel⟩,
    ⟨by rfl, by rfl, by decide +kernel, by decide +kernel⟩, ⟨by rfl, by rfl, by decide +kernel, by decide +kernel⟩, by decide, by rfl, by decide +kernel, by decide⟩

/-! ### The host -/

theorem witness_HostComplete :
    let s := mbState 0 0 0 0
    let f : State := { s with host := { s.host with vf := [(7, 1)] } }
    (reqSizeOk 0x1000 8 = true ∧ functionCtx s 0 0 = some 0 ∧ s.host.heldVolt = false ∧ portUp s 0 = true) ∧
    windowPlace (2 ^ 42 + 2 ^ 40 + 64) = some (0, 64) ∧ windowPlace (3 * 2 ^ 42) = none ∧
    (functionCtx f 0 7 = some 1 ∧ functionReaches f 1 (2 ^ 28 * 0x40 + 2048) = true) ∧
    (isRefused (3 * 2 ^ 42) = true ∧ isSltBlock (3 * 2 ^ 42) = false) ∧ (mget f.host.vf 7 = some 1 ∧ f.hasCtx 1 = true) ∧
    recordOk State.reset.host.config = true :=
  ⟨by decide, by decide +kernel, by decide, by decide, by decide⟩

/-! ### Steps, traps, round trips -/

/-- The turn of the demo fragment, whose instruction caches hold word `w` at 0: an ADD of R43, or 0 with a reserved PO. -/
def fetchDemo (w : Nat) : State :=
  { demo with
    cur := some (.frag demoRef)
    clusters := [(0, { Cluster.init with tlb := [demoTlb], icache := (List.range 12).map fun i => (i, BitVec.ofNat 8 (w / 256 ^ i)) })] }

theorem witness_StepRunsDecoded :
    let good := 0x006400E00780000300012345
    let bad := 0x005E00200400618000000000
    let t := fetchDemo good
    let fetched (w : Nat) : Bool := match fetchWord (fetchDemo w) (ixIn (fetchDemo w)) with
      | .ok r => r.1 = BitVec.ofNat 96 w
      | .error _ => false
    let x := ixIn t
    (ixOf t demoRef = some x ∧ mayIssue t x = true ∧ x.fr.bar = none ∧ x.fr.due = none ∧ x.fr.hcall = none) ∧ fetched good = true ∧
    (decodeVamer x.spine (BitVec.ofNat 96 good)).toOption.isSome = true ∧
    (xlate t x.cluster x.coreTlb x.ctx x.fr.pc.toNat .fetch x.fr.replay false = (.ok 0 0, t) ∧ x.fr.pc.toNat % 65536 + 11 < 65536 ∧
      isRefused 11 = false ∧ keyConflict t 0 0 = false ∧ isMmio 0 = false ∧
      (icacheBytes t x.cluster x.ctx x.fr.pc.toNat).map leVal = some good) ∧
    (ixOf (fetchDemo bad) demoRef = some (ixIn (fetchDemo bad)) ∧ mayIssue (fetchDemo bad) (ixIn (fetchDemo bad)) = true) ∧
    fetched bad = true ∧ decodeVamer false (BitVec.ofNat 96 bad) = .error .mod ∧
    (dxOf drDemo 0 0 0 = some drDx ∧ drDx.tr.res = .resident ∧ drDx.d.halted = false ∧ ctxRuns drDemo drDx.tr.ctx = true ∧
      drDx.d.fetch = .ok 0) :=
  ⟨⟨by rfl, by rfl, by rfl, by rfl, by rfl⟩, by decide +kernel, by decide +kernel, ⟨by rfl, by decide, by rfl, by rfl, by rfl, by decide +kernel⟩,
    ⟨by rfl, by rfl⟩, by decide +kernel, by rfl, ⟨by rfl, by rfl, by rfl, by rfl, by rfl⟩⟩

/-- A trap with no handler is reflected; with one, it enters it, and with no free frame slot or at a barrier it stays due. -/
def handled : State := { demo with ctxs := [(0, { Ctx.root with sys := { SysRegs.init with tvec := 4096 } })] }

def fullFrames : State :=
  { stateOf (demoTrain { demoCoach with frames := (countUp 8).map fun k => (k, { (default : Frame) with lanes := 2 }) }) with ctxs := handled.ctxs }
def atBar : State := fragState fun f => { f with bar := some (false, 0, 0, .cl) }

theorem witness_TrapEntry :
    (ixOf atBar demoRef = some (ixIn atBar) ∧ (ixIn atBar).fr.bar.isSome = true) ∧
    (ixOf fullFrames demoRef = some (ixIn fullFrames) ∧ ((ixIn fullFrames).co.frameOf (ixIn fullFrames).fr.mask).isSome = false ∧
      (fullFrames.ctx 0).sys.tvec ≠ 0 ∧ (fullFrames.ctx 0).reflect = 0 ∧ freeSlot fullFrames (ixIn fullFrames) = none) ∧
    (ixOf demo demoRef = some demoIx ∧ (demo.ctx demoIx.ctx).sys.tvec = 0 ∧ demo.hasCtx (parentOf demo demoIx.ctx) = true) ∧
    (ixOf handled demoRef = some (ixIn handled) ∧ ((ixIn handled).co.frameOf (ixIn handled).fr.mask).isSome = false ∧
      (handled.ctx (ixIn handled).ctx).reflect = 0 ∧ (handled.ctx (ixIn handled).ctx).sys.tvec ≠ 0 ∧
      freeSlot handled (ixIn handled) = some 0 ∧ (ixIn handled).fr.mask.getLsbD 0 = true ∧
      (mget (ixIn handled).co.lanes 0).isSome = true) := by
  refine ⟨⟨by rfl, by rfl⟩, ⟨by rfl, by rfl, by decide, by rfl, by rfl⟩, ⟨by rfl, by rfl, by rfl⟩, by rfl, by rfl, by rfl, by decide, by rfl,
    by rfl, by rfl⟩

theorem witness_VamerRoundTrip : (∀ sp, (Instr.add ⟨.w32, false, false, .none, 0⟩ vvv).wf sp = true) ∧ (Instr.ztrap 0).wf false = true ∧
    (Instr.onesWord (BitVec.allOnes 96)).wf false = true := by decide

theorem witness_DrayRoundTrip : (Instr.dwait 10 11).isDray = true ∧ (Instr.dwait 10 11).wf false = true := by decide

/-- Memory with a listed byte is canonical, and a step answers a next state there. -/
theorem witness_StepKeepsMemoryCanonical :
    MemoryCanonical { State.reset with agenda := [.tick], mem := [(5, 1)] } ∧
    ∃ t, step { State.reset with agenda := [.tick], mem := [(5, 1)] } = .next t := by
  exact ⟨by unfold MemoryCanonical; decide, ⟨_, rfl⟩⟩

end Sys2Proof.Tests
end

