-- ==== Sys2Proof/Tests/WitnessMem.lean ====
section
/-! SUPPORT. Witnesses for the statements about loads, stores, atomics, casks, barriers, copies, drays and the matrix unit. -/

namespace Sys2Proof.Tests

open Sys2Proof Sys2Proof.Machine

/-- Address 0 in v6 and v7, data in v2. -/
def am : Args := ar (.v 4) (.v 6) (.v 2)
def mm : MemMod := ⟨.b32, false, false, .cl, .dflt⟩
def mo : MemMod := ⟨.b32, false, true, .pt, .dflt⟩
/-- Lane 0 accesses address 0. -/
def as0 : List (Nat × Nat) := [(0, 0)]

def ldOf (i : Instr) (m : MemMod) (byp : Bool) : State × Option Trap :=
  let t := acqStart m.ord m.sc demoIx (clampIf m.ord m.sc demoIx (atOnce m.ord demo))
  loadLanes (reached demoIx .load 4 byp as0 t) demoIx ⟨encodeVamer i, am.a, 4, false⟩ byp (accesses demoIx .load as0 t) 0

/-- LD, LDU and LDB at address 0, LD acquiring at `.pt`; LDS and LDX at offset 16; LDW outside the bank that refreshes. -/
theorem witness_LoadComplete :
    (∀ p ∈ [(Instr.ld mm am, am), (.ldu mm am, am), (.ldb mm am, am), (.ld mo am, am), (.lds mm vvv, vvv), (.ldx mm vvv, vvv)],
      Issues p.1 p.2 demo demoIx) ∧
    (enabled demoIx am).map (fun l => (l, globVa demo demoIx am l)) = as0 ∧
    Reaches demoIx .load 4 false false (fun _ _ => false) as0 demo ∧
    (ldOf (.ld mm am) mm false).2 = none ∧ (ldOf (.ldu mm am) mm false).2 = none ∧ (ldOf (.ldb mm am) mm true).2 = none ∧
    (ldOf (.ld mo am) mo true).2 = none ∧
    InTurn demoIx .load 4 false as0 demo ∧ InTurn demoIx .load 4 true as0 demo ∧
    acqMay true .pt demoIx demo (ldOf (.ld mo am) mo true).1 ∧ ScrInTurn demoIx 0 4 [(0, 16)] demo ∧
    preCheck [(0, offVa demo demoIx vvv .disp 0)] 4 (fun o => o + 4 ≤ demoIx.tr.scratch) = none ∧
    rangeBusy demo demoIx.core demoIx.ref.train 16 4 = false ∧ 0 < demoIx.tr.cores.length ∧
    (loadPlaces (scrReached demoIx 0 4 [(0, 16)] demo) demoIx ⟨0, vvv.a, 4, false⟩ false [(0, .scr 0 0 16)]).2 = none :=
  ⟨demo_all _ (by decide), by rfl, reaches_of (by rfl) (by rfl) (by rfl), by rfl, by rfl, by rfl, by rfl, by rfl, by rfl,
    fun _ => ⟨by decide, by rfl⟩, by rfl, by rfl, by rfl, by decide, by rfl⟩

/-- LDW, whose bank is not the one that refreshes. -/
theorem witness_LoadComplete_ldw :
    let a : Args := { vvv with tail := 0x01000000 }
    Issues (.ldw mm a) a demo demoIx ∧ offVa demo demoIx a .disp 0 = 2 ^ 24 + 16 ∧
    preCheck [(0, 2 ^ 24 + 16)] 4 (fun o => o + 4 ≤ 2 ^ 30) = none ∧
    nbits (2 ^ 24 + 16) 24 6 ≠ (crefOf demo demoIx.die).1 ∧
    (loadPlaces demo demoIx ⟨encodeVamer (.ldw mm a), a.a, 4, false⟩ demo.defer [(0, .cellar 0 (2 ^ 24 + 16))]).2 = none :=
  ⟨demo_issues (by decide), by rfl, by rfl, by decide, by rfl⟩

/-! Nothing is drawn in what follows, so `drawn` leaves the state as it is. -/

/-- Address 0 in v6 and v7, data in v2; offset 16 in v1. -/
def ast : Args := ar .unused (.v 6) (.v 2)
def sst : Args := ar .unused (.v 1) (.v 2)
def asS : List (Nat × Nat) := [(0, 16)]

def stOf (t : State) (byp : Bool) (chan : LAcc → Option Nat) : State × Option Trap :=
  storeLanes (reached demoIx .store 4 byp as0 t) demoIx byp chan 4 (storeBytes t demoIx ast .b32) (accesses demoIx .store as0 t)

/-- ST and STB at address 0, ST releasing at `.pt` past the L1. -/
theorem witness_StoreComplete :
    (∀ p ∈ [(Instr.st mm ast, ast), (.stb mm ast, ast), (.st mo ast, ast), (.sts mm sst, sst), (.stx mm sst, sst)],
      Issues p.1 p.2 demo demoIx) ∧
    (enabled demoIx ast).map (fun l => (l, globVa demo demoIx ast l)) = as0 ∧
    Reaches demoIx .store 4 true false (fun _ _ => false) as0 demo ∧ (stOf demo false fun _ => none).2 = none ∧
    (stOf demo true fun _ => none).2 = none ∧
    InTurn demoIx .store 4 false as0 demo ∧ InTurn demoIx .store 4 true as0 demo ∧ ScrInTurn demoIx 0 4 asS demo ∧
    canRelease demoIx .pt (clampIf true .pt demoIx demo) = true ∧
    (let t := relStart true .pt demoIx (clampIf true .pt demoIx demo)
     Reaches demoIx .store 4 true false (fun _ _ => false) as0 t ∧ InTurn demoIx .store 4 true as0 t ∧ (stOf t true fun _ => none).2 = none) ∧
    preCheck asS 4 (fun o => o + 4 ≤ demoIx.tr.scratch) = none ∧
    rangeBusy demo demoIx.core demoIx.ref.train 16 4 = false ∧ 0 < demoIx.tr.cores.length :=
  ⟨demo_all _ (by decide), by rfl, reaches_of (by rfl) (by rfl) (by rfl), by rfl, by rfl, by rfl, by rfl, by rfl, by rfl,
    ⟨reaches_of (by rfl) (by rfl) (by rfl), by rfl, by rfl⟩, by rfl, by rfl, by decide⟩

/-- The demo train with channel 0 of M-die 0 open. -/
def och : State := stateOf { demoTrain demoCoach with och := [0] }
def ochIx : Ix := ixIn och
theorem och_here : ixOf och ochIx.ref = some ochIx := rfl

theorem witness_StoreComplete_channel :
    let chan (b : LAcc) : Nat := 8 * maDie b.ma
    Issues (.ochSt .b32 0 ast) ast och ochIx ∧
    Reaches ochIx .store 4 true true (fun _ b => !ochIx.tr.och.contains (chan b)) as0 och ∧
    InTurn ochIx .store 4 true as0 och ∧
    (storeLanes (reached ochIx .store 4 true as0 och) ochIx true (fun b => some (chan b)) 4 (storeBytes och ochIx ast .b32)
      (accesses ochIx .store as0 och)).2 = none :=
  ⟨issues_of och_here (by decide), reaches_of (by rfl) (by rfl) (by rfl), by rfl, by rfl⟩

theorem witness_CacheComplete :
    (∀ p ∈ [(Instr.pref ast, ast), (.prefc ast, ast), (.cinv ast, ast), (.cwb ast, ast), (.cdisc ast, ast),
      (.fence .full .pt vvv, vvv), (.fence .acq .cl vvv, vvv), (.fence .rel .pt vvv, vvv), (.ochOpen 1 sst, sst),
      (.ochClose 1 sst, sst), (.mdie am, am)], Issues p.1 p.2 demo demoIx) ∧
    canRelease demoIx .pt (countClamp demo demoIx.ctx .pt) = true ∧
    canAcquire demoIx .pt (relStart true .pt demoIx (countClamp demo demoIx.ctx .pt)) = true ∧
    canAcquire demoIx .cl (relStart false .cl demoIx (countClamp demo demoIx.ctx .cl)) = true ∧
    outOf (settleX demoIx demo) demoIx.ctx .mem = false ∧
    (((evictWords (settleX demoIx demo) 0 []).cluster 0).l1.any fun e => e.2.dirty ≠ 0 && [].contains e.1) = false ∧
    (((backWords (settleX demoIx demo) 0 []).cluster 0).l1.any fun e => e.2.dirty ≠ 0 && [].contains e.1) = false ∧
    (((discardWords (settleX demoIx demo) 0 []).cluster 0).l1.any fun e => e.2.dirty ≠ 0 && [].contains e.1) = false ∧
    chanEmpty (drainChan demo demoIx.ref.train 1) demoIx.ref.train 1 = true ∧
    Reaches demoIx .load 1 false false (fun _ _ => false) as0 demo :=
  ⟨demo_all _ (by decide), by rfl, by rfl, by rfl, by rfl, by rfl, by rfl, by rfl, by rfl, reaches_of (by rfl) (by rfl) (by rfl)⟩

/-- What is reached, as a computation: no lane reads or writes a register of a device. -/
theorem noMmio {bs : List LAcc} (h : (bs.all fun b => !isMmio b.ma) = true) : ∀ b ∈ bs, isMmio b.ma = false := fun b hb => by
  simpa using List.all_eq_true.mp h b hb

/-- ST, STB and OCH.ST at address 0, whose page is cached and whose line the L1 has room for; nothing goes before them. -/
theorem witness_StoreFrame :
    (∀ b ∈ accesses demoIx .store as0 demo, isMmio b.ma = false) ∧ (∀ b ∈ accesses ochIx .store as0 och, isMmio b.ma = false) ∧
    RoomFor (reached demoIx .store 4 false as0 demo) demoIx.cluster (linesAt 4 (accesses demoIx .store as0 demo)) ∧
    reached demoIx .store 4 false as0 demo = drawn (.st mm ast) ast demo demoIx ∧
    reached demoIx .store 4 true as0 demo = drawn (.stb mm ast) ast demo demoIx ∧
    reached ochIx .store 4 true as0 och = drawn (.ochSt .b32 0 ast) ast och ochIx :=
  ⟨noMmio (by rfl), noMmio (by rfl), by unfold RoomFor; decide, by rfl, by rfl, by rfl⟩

/-- The loads of `witness_LoadComplete`, likewise. -/
theorem witness_LoadFrame :
    (∀ k, am.a ≠ .sr k) ∧ (∀ k, vvv.a ≠ .sr k) ∧ (∀ b ∈ accesses demoIx .load as0 demo, isMmio b.ma = false) ∧
    RoomFor (reached demoIx .load 4 false as0 demo) demoIx.cluster (linesAt 4 (accesses demoIx .load as0 demo)) ∧
    reached demoIx .load 4 false as0 demo = drawn (.ld mm am) am demo demoIx ∧
    reached demoIx .load 4 true as0 demo = drawn (.ldb mm am) am demo demoIx ∧
    scrFollowed demoIx 0 4 [(0, 16)] demo = drawn (.lds mm vvv) vvv demo demoIx :=
  ⟨fun _ => nofun, fun _ => nofun, noMmio (by rfl), by unfold RoomFor; decide, by rfl, by rfl, by rfl⟩

/-- STS and STX, plain and releasing, one of them with nothing before it. -/
theorem witness_StoreFrame_scratch :
    (∀ p ∈ [(Instr.sts mm sst, sst), (.stx mm sst, sst), (.sts mo sst, sst), (.stx mo sst, sst)], Issues p.1 p.2 demo demoIx) ∧
    (enabled demoIx sst).map (fun l => (l, offVa demo demoIx sst .disp l)) = asS ∧
    (enabled demoIx sst).map (fun l => (l, offVa demo demoIx sst .d l)) = asS ∧
    preCheck asS 4 (fun o => o + 4 ≤ demoIx.tr.scratch) = none ∧
    (asS.any fun e => rangeBusy demo demoIx.core demoIx.ref.train e.2 4) = false ∧ 0 < demoIx.tr.cores.length ∧
    ScrInTurn demoIx 0 4 asS demo ∧ relMay true .cl demoIx demo ∧ ScrInTurn demoIx 0 4 asS (relStart true .cl demoIx demo) ∧
    mm.ord = false ∧ scrPending demo demoIx 0 4 asS = false :=
  ⟨demo_all _ (by decide), by rfl, by rfl, by rfl, by rfl, by decide, by rfl, fun _ => by rfl, by rfl, rfl, by rfl⟩

/-! ### Atomics -/

def ma : AtomMod := ⟨false, .add, .relaxed, .cl⟩
/-- Acquire and release at `.pt`. -/
def mar : AtomMod := ⟨false, .add, .ar, .pt⟩

def atOf (i : Instr) (m : AtomMod) (dst : Option Operand) (val : State → Nat → LStep) : State × Option Trap :=
  let t := acqStart (ordAcquires m.ord) m.sc demoIx (atOnce (ordAcquires m.ord)
    (relStart (ordReleases m.ord) m.sc demoIx (clampIf (m.ord ≠ .relaxed) m.sc demoIx demo)))
  atomLanes demoIx m (encodeVamer i) dst 0 (val t) (reached demoIx .atomic 4 true as0 t) (accesses demoIx .atomic as0 t)

theorem witness_AtomicComplete :
    (∀ p ∈ [(Instr.atom ma am, am), (.atomc ma am, am), (.red ma am, am), (.atomu ma am, am), (.redu ma am, am),
      (.atom mar am, am), (.atoms ma vvv, vvv), (.atomsc ma vvv, vvv), (.reds ma vvv, vvv)], Issues p.1 p.2 demo demoIx) ∧
    (enabled demoIx am).map (fun l => (l, atomVa demo demoIx am .disp l)) = as0 ∧
    Reaches demoIx .atomic 4 true true (fun _ _ => false) as0 demo ∧
    (atOf (.atom ma am) ma (some am.a) fun t l => laneStep t demoIx am 32 false l).2 = none ∧
    (atOf (.atomc ma am) ma (some am.a) fun t l => laneStep t demoIx am 32 true l).2 = none ∧
    (atOf (.red ma am) ma none fun t l => laneStep t demoIx am 32 false l).2 = none ∧
    (atOf (.atomu ma am) ma (some am.a) fun _ l => ⟨l, none, 3⟩).2 = none ∧
    (atOf (.redu ma am) ma none fun _ l => ⟨l, none, reduVal .add false [(0, 3)]⟩).2 = none ∧
    (atOf (.atom mar am) mar (some am.a) fun t l => laneStep t demoIx am 32 false l).2 = none ∧
    canRelease demoIx .pt (clampIf true .pt demoIx demo) = true ∧
    InTurn demoIx .atomic 4 true as0 demo ∧ InTurn demoIx .atomic 4 true as0 (relStart true .pt demoIx (clampIf true .pt demoIx demo)) ∧
    acqMay true .pt demoIx demo (atOf (.atom mar am) mar (some am.a) fun t l => laneStep t demoIx am 32 false l).1 ∧
    ScrInTurn demoIx 0 4 asS demo ∧
    preCheck asS 4 (fun o => o + 4 ≤ demoIx.tr.scratch) = none ∧
    (asS.any fun e => rangeBusy demo demoIx.core demoIx.ref.train e.2 4) = false ∧
    (scrAtomics (scrReached demoIx 0 4 asS demo) demoIx ma (asS.map fun e => (e.2, laneStep demo demoIx vvv 32 false e.1))).2.1 = [] ∧
    (scrAtomics (scrReached demoIx 0 4 asS demo) demoIx ma (asS.map fun e => (e.2, laneStep demo demoIx vvv 32 true e.1))).2.1 = [] :=
  ⟨demo_all _ (by decide), by rfl, reaches_of (by rfl) (by rfl) (by rfl), by rfl, by rfl, by rfl, by rfl, by rfl, by rfl,
    by rfl, by rfl, by rfl, fun _ => ⟨by decide, by rfl⟩, by rfl, by rfl, by rfl, by rfl, by rfl⟩

/-- The atomics of `witness_AtomicComplete`, performed at once or left in their queues; nothing goes before them. -/
theorem witness_AtomicFrame :
    (∀ k, some am.a ≠ some (.sr k)) ∧ (∀ k, some vvv.a ≠ some (.sr k)) ∧
    (let v := reached demoIx .atomic 4 true as0 demo
     let bs := accesses demoIx .atomic as0 demo
     v = drawn (.atom ma am) am demo demoIx ∧
     (v.defer = true ∨ stepsFree (if v.defer then v else (queuedAt v bs 4).foldl tryStep v) demoIx bs 4 = true)) ∧
    (let t := acqStart true .pt demoIx (atOnce true (relStart true .pt demoIx (clampIf true .pt demoIx demo)))
     let v := reached demoIx .atomic 4 true as0 t
     let bs := accesses demoIx .atomic as0 t
     stepsFree (if v.defer then v else (queuedAt v bs 4).foldl tryStep v) demoIx bs 4 = true) ∧
    scrFollowed demoIx demoIx.rank 4 asS demo = drawn (.atoms ma vvv) vvv demo demoIx :=
  ⟨fun _ => nofun, fun _ => nofun, ⟨by rfl, by decide⟩, by rfl, by rfl⟩

/-! ### Casks, barriers and barrier objects -/

/-- Cask 8 is full, cask 9 gathers sums, cask 10 is empty, and the root has casks 0 to 255. -/
def ckDemo : State :=
  { demo with clusters := [(0, { Cluster.init with tlb := [demoTlb], casks := [(8, ⟨7, true, false, .add, 0, 2, false⟩), (9, ⟨0, false, true, .add, 2, 1, false⟩)] })] }
def ckIx : Ix := ixIn ckDemo
theorem ck_here : ixOf ckDemo ckIx.ref = some ckIx := rfl
theorem ck_all (l : List (Instr × Args)) (b : l.all (fun p => issuesB p.1 p.2 ckDemo ckIx) = true) :
    ∀ p ∈ l, Issues p.1 p.2 ckDemo ckIx := fun p hp => issues_of ck_here (List.all_eq_true.mp b p hp)
def ck (n : BitVec 8) : Args := ar (.v 4) (.k n false) (.v 2)

theorem witness_CaskComplete :
    (∀ p ∈ [(Instr.ckfill false 2 (ck 10), ck 10), (.ckdraw false (ck 8), ck 8), (.ckpeek false (ck 8), ck 8),
      (.cktry false true 3 (ck 8), ck 8), (.cktry false false 3 (ck 9), ck 9), (.ckseed .add (ck 10), ck 10),
      (.ckred .add false (ck 9), ck 9), (.ckclr (ck 8), ck 8), (.ckstat (ck 9), ck 9)], Issues p.1 p.2 ckDemo ckIx) ∧
    targetOf ckDemo ckIx (ck 8) = some 8 ∧ targetOf ckDemo ckIx (ck 9) = some 9 ∧ targetOf ckDemo ckIx (ck 10) = some 10 ∧
    caskReady ckDemo ckIx [(10, .empty)] = true ∧ caskReady ckDemo ckIx [(8, .full)] = true ∧
    caskReady ckDemo ckIx [(9, .gathering)] = true ∧ canRelease ckIx .cl ckDemo = true ∧
    (caskGet ckDemo ckIx.cluster 8).f = true ∧ (caskGet ckDemo ckIx.cluster 9).f = false ∧
    srcI ckDemo ckIx (ck 10) 32 (.v 2) 0 ≤ 255 ∧ (caskGet ckDemo ckIx.cluster 9).gop = .add ∧
    (caskGet ckDemo ckIx.cluster 8).poison = false ∧ (caskGet ckDemo ckIx.cluster 9).poison = false :=
  ⟨ck_all _ (by decide), by rfl, by rfl, by rfl, by rfl, by rfl, by rfl, by rfl, by rfl, by rfl, by decide, by rfl, by rfl, by rfl⟩

/-- One fibre of a flagged launch with a phase that began at 5 on b1. -/
def barDemo : State := stateOf { demoTrain demoCoach with gbar := true, bars := [(1, ⟨5, 0, 0⟩)] }
def barIx : Ix := ixIn barDemo
theorem bar_here : ixOf barDemo barIx.ref = some barIx := rfl
theorem bar_all (l : List (Instr × Args)) (b : l.all (fun p => issuesB p.1 p.2 barDemo barIx) = true) :
    ∀ p ∈ l, Issues p.1 p.2 barDemo barIx := fun p hp => issues_of bar_here (List.all_eq_true.mp b p hp)
/-- Token 3, which the phase has left, and the present one, with an allowance of 0. -/
def tokOld : Args := ar (.v 4) (.v 2) (.v 0)
def tokNow : Args := ar (.v 4) (.imm 5) (.v 0)
def tokZero : Args := ar (.v 4) (.v 0) (.v 0)

theorem witness_BarrierComplete :
    let t := countClamp barDemo barIx.ctx .cl
    let p := countClamp barDemo barIx.ctx .pt
    let one := ar (.v 4) .unused (.v 5)
    (∀ p ∈ [(Instr.bar .cl 1 one, one), (.bara .cl 1 one, one), (.barw .cl 1 tokOld, tokOld), (.bart .cl 1 tokOld, tokOld),
      (.bart .cl 1 tokNow, tokNow), (.gbar false false tokOld, tokOld), (.gbar false true tokOld, tokOld),
      (.gbart false tokOld, tokOld), (.gbart false tokZero, tokZero)], Issues p.1 p.2 barDemo barIx) ∧
    barCheck barIx 1 (srcI barDemo barIx one 32 (.v 5) 0) (enabled barIx one) = true ∧ canRelease barIx .cl t = true ∧
    phaseLeft barDemo barIx tokOld (.v 2) 32 5 [0] = true ∧ phaseLeft barDemo barIx tokNow (.imm 5) 32 5 [0] = false ∧
    phaseLeft barDemo barIx tokOld (.v 2) 32 0 [0] = true ∧ phaseLeft barDemo barIx tokZero (.v 0) 32 0 [0] = false ∧
    (acqMay true .cl barIx t (acqStart true .cl barIx t)) ∧
    (acqMay true .cl barIx t (wr (acqStart true .cl barIx t) barIx (.v 4) 32 [(0, 1)])) ∧
    (acqMay true .pt barIx p (wr (acqStart true .pt barIx p) barIx (.v 4) 32 [(0, 1)])) ∧
    barIx.fr.deadline = none ∧ barDemo.rtime + rtCap (srcI barDemo barIx tokNow 32 (.v 0) 0) ≤ barDemo.rtime ∧
    barIx.tr.gbar = true ∧ ((mget barIx.co.lanes 0).map (·.arrived.getLsbD 16)).getD false = false ∧
    canRelease barIx .pt p = true :=
  ⟨bar_all _ (by decide), by rfl, by rfl, by rfl, by rfl, by rfl, by rfl, fun _ => ⟨by decide, by rfl⟩, fun _ => ⟨by decide, by rfl⟩,
    fun _ => ⟨by decide, by rfl⟩, by rfl, by decide, by rfl, by rfl, by rfl⟩

/-- A barrier object of one arrival at offset 16. -/
def mbDemo : State := stateOf (mbPut (demoTrain demoCoach) 0 16 ⟨0, 0, 1, 1, 0⟩)
def mbIx : Ix := ixIn mbDemo
theorem mb_here : ixOf mbDemo mbIx.ref = some mbIx := rfl
theorem mb_all (l : List (Instr × Args)) (b : l.all (fun p => issuesB p.1 p.2 mbDemo mbIx) = true) :
    ∀ p ∈ l, Issues p.1 p.2 mbDemo mbIx := fun p hp => issues_of mb_here (List.all_eq_true.mp b p hp)
def mbOld : Args := ard (.v 4) (.v 1) (.v 2) (.v 0)
def mbNow : Args := ard (.v 4) (.v 1) (.v 0) (.v 0)
def yk1 : Args := ar .unused (.yoke 1) (.v 2)

theorem witness_ObjectComplete :
    let t := countClamp mbDemo mbIx.ctx .cl
    (∀ p ∈ [(Instr.mbinit mbOld, mbOld), (.mbarr .cl false mbOld, mbOld), (.mbexp .cl false mbOld, mbOld),
      (.mbexp .cl true mbOld, mbOld), (.mbwait .cl mbOld, mbOld), (.mbtry .cl mbOld, mbOld), (.mbtw .cl mbOld, mbOld),
      (.mbtw .cl mbNow, mbNow), (.yokeDecl yk1, yk1), (.yokeRst yk1, yk1)], Issues p.1 p.2 mbDemo mbIx) ∧
    offVa mbDemo mbIx mbOld .disp 0 = 16 ∧ offVa mbDemo mbIx mbOld .d 0 = 16 ∧ 16 + 16 ≤ mbIx.tr.scratch ∧
    mbPoison mbIx.tr mbIx.rank 16 = false ∧ srcI mbDemo mbIx mbOld 32 (.v 2) 0 = 3 ∧ (mbGet mbIx.tr mbIx.rank 16).init = 1 ∧
    canRelease mbIx .cl t = true ∧ phaseLeft mbDemo mbIx mbOld (.v 2) 16 (mbGet mbIx.tr mbIx.rank 16).ph [0] = true ∧
    phaseLeft mbDemo mbIx mbNow (.v 0) 16 (mbGet mbIx.tr mbIx.rank 16).ph [0] = false ∧
    (acqMay true .cl mbIx t (acqStart true .cl mbIx t)) ∧
    (acqMay true .cl mbIx t (wr (acqStart true .cl mbIx t) mbIx (.v 4) 32 [(0, 1)])) ∧ mbIx.fr.deadline = none ∧
    mbDemo.rtime + rtCap (srcI mbDemo mbIx mbNow 32 (.v 0) 0) ≤ mbDemo.rtime ∧
    (mbIx.tr.yoke mbIx.rank (yokeNo yk1.b)).signed = [] :=
  ⟨mb_all _ (by decide), by rfl, by rfl, by decide, by rfl, by rfl, by rfl, by rfl, by rfl, by rfl, fun _ => ⟨by decide, by rfl⟩,
    fun _ => ⟨by decide, by rfl⟩, by rfl, by decide, by rfl⟩

/-- The cask and barrier instructions of the three witnesses above: no special register is a destination, and nothing goes before them. -/
theorem witness_SyncFrame :
    (∀ k, (ck 8).a ≠ .sr k) ∧ (∀ k, tokOld.a ≠ .sr k) ∧ (∀ k, mbOld.a ≠ .sr k) ∧
    relStart true .cl ckIx (drawn (.ckfill false 2 (ck 10)) (ck 10) ckDemo ckIx) = drawn (.ckfill false 2 (ck 10)) (ck 10) ckDemo ckIx ∧
    acqStart true .cl barIx (countClamp barDemo barIx.ctx .cl) = drawn (.barw .cl 1 tokOld) tokOld barDemo barIx ∧
    released barIx .cl (countClamp barDemo barIx.ctx .cl) = drawn (.bar .cl 1 tokOld) tokOld barDemo barIx ∧
    released mbIx .cl (countClamp mbDemo mbIx.ctx .cl) = drawn (.mbarr .cl false mbOld) mbOld mbDemo mbIx ∧
    settleX mbIx mbDemo = drawn (.mbinit mbOld) mbOld mbDemo mbIx :=
  ⟨fun _ => nofun, fun _ => nofun, fun _ => nofun, by rfl, by rfl, by rfl, by rfl, by rfl⟩

end Sys2Proof.Tests
end

