-- ==== Sys2Proof/Tests/WitnessRegs.lean ====
section
/-! SUPPORT. Witnesses: states and operands that meet the hypotheses of the statements about registers, transfers, fibres,
rejoins and lane exchanges. -/

namespace Sys2Proof.Tests

open Sys2Proof Sys2Proof.Machine

/-! ### Completion, frames and results of the classes 0x0 to 0x3: the instructions issue -/

theorem witness_AddSubComplete : ∀ p ∈ [(Instr.add im vvv, vvv), (.sub im vvv, vvv), (.addc true 3 vvv, vvv),
    (.subb false 15 vvv, vvv)], Issues p.1 p.2 demo demoIx := demo_all _ (by decide)

theorem witness_MulDivComplete : ∀ p ∈ [(Instr.mul im vvv, vvv), (.mulh im vvv, vvv), (.mad im vvv, vvv), (.div im vvv, vvv),
    (.rem im vvv, vvv)], Issues p.1 p.2 demo demoIx := demo_all _ (by decide)

theorem witness_LogicComplete : ∀ p ∈ [(Instr.min im vvv, vvv), (.max im vvv, vvv), (.abs im vvv, vvv), (.and im vvv, vvv),
    (.or im vvv, vvv), (.xor im vvv, vvv), (.not im vvv, vvv)], Issues p.1 p.2 demo demoIx := demo_all _ (by decide)

theorem witness_ShiftComplete : ∀ p ∈ [(Instr.shl im vvv, vvv), (.shr im vvv, vvv), (.sar im vvv, vvv), (.rot im vvv, vvv),
    (.bfx im vvv, vvv), (.bfi im vvv, vvv), (.lea im vvv, vvv)], Issues p.1 p.2 demo demoIx := demo_all _ (by decide)

theorem witness_MoveComplete : ∀ p ∈ [(Instr.popc im vvv, vvv), (.clz im vvv, vvv), (.ctz im vvv, vvv), (.brev im vvv, vvv),
    (.sel false true 3 vvv, vvv), (.cmp false true .lt vvv, vvv), (.plop im vvv, vvv), (.mov im vvv, vvv),
    (.srseedWrite im (ar (.sr 0x0D) (.v 1) .unused), ar (.sr 0x0D) (.v 1) .unused),
    (.predsWrite im (ar (.sr 0x0F) (.v 1) .unused), ar (.sr 0x0F) (.v 1) .unused)], Issues p.1 p.2 demo demoIx :=
  demo_all _ (by decide)

theorem witness_ConvertComplete : ∀ p ∈ [(Instr.cvt .fp16 .fp32 .sr true vvv, vvv), (.f2i .fp32 .i32 false .rz vvv, vvv),
    (.i2f .fp32 .i32 true .rn false vvv, vvv), (.i2i .i8 false .i32 false true vvv, vvv), (.pack .fp16 0 .rn false vvv, vvv),
    (.unpk .fp16 1 vvv, vvv), (.qnt .e4m3 3 .sr false vvv, vvv), (.dqnt .e4m3 0 .rn false vvv, vvv), (.bscale .e4m3 vvv, vvv),
    (.bmax 5 vvv, vvv), (.bytx vvv, vvv), (.srstep vvv, vvv)], Issues p.1 p.2 demo demoIx := demo_all _ (by decide)

theorem witness_FloatArithComplete : ∀ p ∈ [(Instr.fadd fm vvv, vvv), (.fsub fm vvv, vvv), (.fmul fm vvv, vvv),
    (.ffma fm vvv, vvv), (.ffms fm vvv, vvv), (.fnma fm vvv, vvv), (.fdiv fm vvv, vvv), (.frint fm vvv, vvv),
    (.fscale fm vvv, vvv), (.fdp2 fm vvv, vvv)], Issues p.1 p.2 demo demoIx := demo_all _ (by decide)

theorem witness_FloatMiscComplete : ∀ p ∈ [(Instr.fmin fm true vvv, vvv), (.fmax fm false vvv, vvv), (.fabs fm vvv, vvv),
    (.fneg fm vvv, vvv), (.fsgn fm .neg vvv, vvv), (.fcmp fm .lt vvv, vvv), (.fclass fm vvv, vvv), (.fgetx fm vvv, vvv),
    (.fgetm fm vvv, vvv), (.fsel false 3 true vvv, vvv)], Issues p.1 p.2 demo demoIx := demo_all _ (by decide)

theorem witness_SpecialComplete :
    let d := ard (.v 4) (.v 1) .unused (.v 7)
    ∀ p ∈ [(Instr.rcp .rn false vvv, vvv), (.rsq false vvv, vvv), (.sqrt .rz true vvv, vvv), (.exp2 false vvv, vvv),
    (.log2 false vvv, vvv), (.sin false vvv, vvv), (.cos false vvv, vvv), (.sincos false d, d), (.tanh false vvv, vvv),
    (.sigm true vvv, vvv)], Issues p.1 p.2 demo demoIx := demo_all _ (by decide)

theorem witness_TransferComplete :
    let i64 := ar .unused (.v 6) .unused
    let t := ar (.v 4) (.v 1) (.v 2)
    (∀ p ∈ [(Instr.nop t, t), (.bra t, t), (.brx i64, i64), (.call t, t), (.callx i64, i64), (.ret i64, i64), (.jtab t, t),
      (.loop t, t), (.brany t, t), (.brall t, t)], Issues p.1 p.2 demo demoIx) ∧
    targetOk (formO demoIx t) = true ∧
    (∀ l ∈ enabled demoIx i64, targetOk (w64 (srcI demo demoIx i64 64 i64.b l)) = true) ∧
    (∀ l ∈ (enabled demoIx t).filter fun l => srcI demo demoIx t 32 t.b l < srcI demo demoIx t 32 t.c l,
      targetOk (demoIx.fr.pc + 12 + t.tail.signExtend 64 + 12 * w64 (srcI demo demoIx t 32 t.b l)) = true) :=
  ⟨demo_all _ (by decide), by rfl, by decide, by decide⟩

theorem witness_FibreComplete :
    (∀ p ∈ [(Instr.fork true 3 vvv, vvv), (.end_ vvv, vvv), (.exit vvv, vvv), (.rcvMark vvv, vvv), (.yield vvv, vvv),
      (.nap vvv, vvv), (.icinv vvv, vvv)], Issues p.1 p.2 demo demoIx) ∧
    targetOk (formO demoIx vvv) = true ∧ canRelease demoIx .pt demo = true :=
  ⟨demo_all _ (by decide), by rfl, by rfl⟩

/-- The three forms: on a core, regrouping on a spine, regrouping on a core. -/
theorem witness_RejoinComplete :
    let a := ar .unused (.v 5) .unused
    let masks (_ : Nat) : Word32 := 1
    (Issues (.rcvWait false a) a demo demoIx ∧
      ∃ u y, rejoins (.rcvWait false a) demoIx a .plain masks [demoIx.ref.coach] demo = some (u, y) ∧ Goes y) ∧
    (Issues (.rcvWait true a) a spineDemo spineIx ∧
      ∃ u y, y.spine = true ∧ rejoins (.rcvWait true a) spineIx a (.regroup 5) masks [spineIx.ref.coach] spineDemo = some (u, y) ∧ Goes y) ∧
    (Issues (.rcvWait true a) a demo demoIx ∧
      ∃ u y, y.spine = false ∧ rejoins (.rcvWait true a) demoIx a (.regroup 5) masks (coachesAt demoIx.tr demoIx.rank) demo = some (u, y) ∧
        Goes y ∧ regroupWaits y ((coachesAt y.tr y.rank).foldl (fun s c => replyAll s y.ref.train c) u) = false) ∧
    (∀ l ∈ enabled demoIx a, w32 (srcI demo demoIx a 32 a.b l) = masks l) :=
  ⟨⟨demo_issues (by decide), _, _, rfl, by decide, by rfl, by rfl⟩,
    ⟨issues_of spine_here (by decide), _, _, rfl, rfl, by decide, by rfl, by rfl⟩,
    ⟨demo_issues (by decide), _, _, rfl, rfl, ⟨by decide, by rfl, by rfl⟩, by rfl⟩, by decide⟩

/-- Among the enabled lanes, and with a membership mask. -/
theorem witness_LaneComplete :
    let a := ard (.v 4) (.v 1) (.v 2) (.imm 1)
    (∀ p ∈ [(Instr.shfl false false .at 0 a, a), (.vote false .any a, a), (.redux false false .add a, a),
      (.scan false false .add true a, a), (.match_ false false true a, a), (.bcast false false a, a), (.cmpct false a, a),
      (.lperm false false a, a), (.shfl false true .at 0 a, a), (.lperm true true a, a)], Issues p.1 p.2 demo demoIx) ∧
    ∃ u y, rejoins (.shfl false true .at 0 a) demoIx a .exchange (fun l => w32 (srcI demo demoIx a 32 a.d l)) [demoIx.ref.coach] demo = some (u, y) ∧
      Goes y :=
  ⟨demo_all _ (by decide), _, _, rfl, by decide, by rfl, by rfl⟩

/-! ### Frames: the destination names no special register -/

theorem witness_IntegerFrame :
    (∀ n, vvv.a ≠ .sr n) ∧ (∀ p ∈ [(Instr.add im vvv, vvv), (.mulh im vvv, vvv), (.popc im vvv, vvv), (.addc true 3 vvv, vvv),
      (.subb false 15 vvv, vvv), (.sel false true 3 vvv, vvv), (.cmp false true .lt vvv, vvv),
      (.srseedWrite im (ar (.sr 0x0D) (.v 1) .unused), ar (.sr 0x0D) (.v 1) .unused),
      (.predsWrite im (ar (.sr 0x0F) (.v 1) .unused), ar (.sr 0x0F) (.v 1) .unused)], Issues p.1 p.2 demo demoIx) :=
  ⟨fun _ h => (nomatch h), demo_all _ (by decide)⟩

theorem witness_FloatFrame :
    let d := ard (.v 4) (.v 1) .unused (.v 7)
    (∀ n, d.a ≠ .sr n ∧ d.d ≠ .sr n) ∧ (∀ n, vvv.a ≠ .sr n) ∧
    ∀ p ∈ [(Instr.cvt .fp16 .fp32 .sr true vvv, vvv), (.srstep vvv, vvv), (.fadd fm vvv, vvv), (.fdp2 fm vvv, vvv),
      (.rcp .rn false vvv, vvv), (.sincos false d, d)], Issues p.1 p.2 demo demoIx :=
  ⟨fun _ => ⟨fun h => (nomatch h), fun h => (nomatch h)⟩, fun _ h => (nomatch h), demo_all _ (by decide)⟩

theorem witness_TransferFrame :
    let i64 := ar .unused (.v 6) .unused
    let t := ar (.v 4) (.v 1) (.v 2)
    (∀ n, t.a ≠ .sr n) ∧ (∀ p ∈ [(Instr.nop t, t), (.bra t, t), (.brx i64, i64), (.call t, t), (.callx i64, i64),
      (.ret i64, i64), (.jtab t, t), (.loop t, t), (.brany t, t), (.brall t, t)], Issues p.1 p.2 demo demoIx) ∧
    targetOk (formO demoIx t) = true ∧
    (∀ l ∈ enabled demoIx i64, targetOk (w64 (srcI demo demoIx i64 64 i64.b l)) = true) ∧
    ∀ l ∈ enabled demoIx t, srcI demo demoIx t 32 t.b l < srcI demo demoIx t 32 t.c l →
      targetOk (demoIx.fr.pc + 12 + t.tail.signExtend 64 + 12 * w64 (srcI demo demoIx t 32 t.b l)) = true :=
  ⟨fun _ h => (nomatch h), demo_all _ (by decide), by rfl, by decide, by decide⟩

theorem witness_ExchangeFrame :
    (∀ n, vvv.a ≠ .sr n) ∧ ∀ p ∈ [(Instr.shfl false false .at 0 vvv, vvv), (.vote false .any vvv, vvv),
      (.redux false false .add vvv, vvv), (.scan false false .add true vvv, vvv), (.match_ false false true vvv, vvv),
      (.bcast false false vvv, vvv), (.cmpct false vvv, vvv), (.lperm false false vvv, vvv)], Issues p.1 p.2 demo demoIx :=
  ⟨fun _ h => (nomatch h), demo_all _ (by decide)⟩

/-! ### Results: well-formed instructions issue -/

/-- Each instruction of a list is well formed and issues. -/
theorem demo_gives (l : List (Instr × Args)) (b : l.all (fun p => issuesB p.1 p.2 demo demoIx && p.1.wf demoIx.spine) = true) :
    ∀ p ∈ l, p.1.wf demoIx.spine = true ∧ Issues p.1 p.2 demo demoIx := fun p hp => by
  have h := List.all_eq_true.mp b p hp
  rw [Bool.and_eq_true] at h
  exact ⟨h.2, demo_issues h.1⟩

def rr : Args := ar (.v 4) (.v 2) (.imm 1)
def r1 : Args := ar (.v 4) (.v 2) .unused

/-- A carry out, saturation with p15, an S destination, a pair. -/
theorem witness_AddSubResult :
    let c := ar (.s 4) (.v 2) (.imm 1)
    ∀ p ∈ [(Instr.add ⟨.w32, false, false, .carry, 3⟩ vvv, vvv), (.sub ⟨.w64, true, true, .ov, 15⟩ rr, rr), (.addc false 3 c, c),
      (.subb true 15 rr, rr)], p.1.wf demoIx.spine = true ∧ Issues p.1 p.2 demo demoIx := demo_gives _ (by decide)

theorem witness_MinMaxAbsResult : ∀ p ∈ [(Instr.min ⟨.w32, true, false, .none, 0⟩ rr, rr), (.max im64 rr, rr)],
    p.1.wf demoIx.spine = true ∧ Issues p.1 p.2 demo demoIx := demo_gives _ (by decide)

theorem witness_MinMaxAbsResult_abs : ∀ p ∈ [(Instr.abs ⟨.w64, false, true, .ov, 3⟩ r1, r1), (.abs im r1, r1)],
    p.1.wf demoIx.spine = true ∧ Issues p.1 p.2 demo demoIx := demo_gives _ (by decide)

theorem witness_LogicShiftResult : ∀ p ∈ [(Instr.and im rr, rr), (.or im64 rr, rr), (.xor im vvv, vvv), (.not im64 r1, r1)],
    p.1.wf demoIx.spine = true ∧ Issues p.1 p.2 demo demoIx := demo_gives _ (by decide)

/-- Amounts below and at N: 1, 16 and 64 bits. -/
theorem witness_LogicShiftResult_shift :
    (∀ p ∈ [(Instr.shl im rr, rr), (.shr im64 rr, rr), (.sar im rr, rr), (.rot im64 rr, rr),
      (.sar im (ar (.v 4) (.v 2) (.imm 32)), ar (.v 4) (.v 2) (.imm 32))],
      p.1.wf demoIx.spine = true ∧ Issues p.1 p.2 demo demoIx) ∧
    srcI demo demoIx (ar (.v 4) (.v 2) (.imm 32)) 32 (.imm 32) 0 = 32 := ⟨demo_gives _ (by decide), by rfl⟩

theorem witness_CountSelectResult : ∀ p ∈ [(Instr.popc im r1, r1), (.clz im64 r1, r1), (.ctz im r1, r1), (.brev im64 r1, r1)],
    p.1.wf demoIx.spine = true ∧ Issues p.1 p.2 demo demoIx := demo_gives _ (by decide)

theorem witness_CountSelectResult_sel : ∀ p ∈ [(Instr.sel false false 0 rr, rr), (.sel true true 15 rr, rr)],
    p.1.wf demoIx.spine = true ∧ Issues p.1 p.2 demo demoIx := demo_gives _ (by decide)

end Sys2Proof.Tests
end

namespace Sys2Proof.Machine

open Sys2Proof

/-! ## O58: no step takes memory out of its canonical form

The model writes memory in three places only: a block put under another key (`rekey`), bytes put at their home
(`homePut`) and the reset at a voltage out of range (`heldReset`). Each function of the model that answers a state, alone
or inside a result, has one lemma here, in the model's order: from a state whose memory is canonical it answers states
whose memory is. A function that changes other parts of the state only keeps the very list, so the hypothesis itself is
its proof. -/

/-! ### What an answer carries -/

/-- Every state that an outcome carries has its memory in canonical form; the predicates below say it of other
results. -/
def NextCanonical : Host.Outcome State Fault Refusal → Prop
  | .next s => MemoryCanonical s
  | .fault _ | .refused _ => True

/-- Of an operation that may have no next state. -/
def OptCanonical : Option State → Prop
  | some s => MemoryCanonical s
  | none => True

/-- Of a read that may have to wait. -/
def OptSndCanonical {α : Type} : Option (α × State) → Prop
  | some r => MemoryCanonical r.2
  | none => True

/-- Of a fetch: the state that it leaves instead of a word, or with one. -/
def WordCanonical : Except State (Word96 × State) → Prop
  | .error s => MemoryCanonical s
  | .ok r => MemoryCanonical r.2

/-- Of the second page of a fetch: the state that it leaves instead of its address and key, or with them. -/
def PagesCanonical : Except State (Nat × Byte × State) → Prop
  | .error s => MemoryCanonical s
  | .ok r => MemoryCanonical r.2.2

/-- Of a chunk of a fill: the state that an abandoned fill leaves. -/
def FillCanonical : Except State (Nat × List Byte) → Prop
  | .error s => MemoryCanonical s
  | .ok _ => True

/-- Of the bytes of a structure. -/
def BytesCanonical : Option (List Byte × Bool × State) → Prop
  | some r => MemoryCanonical r.2.2
  | none => True

/-- Of what an instruction's meaning answers; what a wait records keeps the form too. -/
def ResCanonical : Res → Prop
  | .done s _ _ | .goOn s _ _ | .own s => MemoryCanonical s
  | .wait _ f => ∀ u, MemoryCanonical u → MemoryCanonical (f u)
  | .trap _ => True

/-- Of what a dray instruction's meaning answers. -/
def DResCanonical : DRes → Prop
  | .ok s _ => MemoryCanonical s
  | .wait _ | .exc .. => True

/-- Of a mailbox command. -/
def CmdCanonical : Cmd → Prop
  | .ends _ s | .later s => MemoryCanonical s

/-- Of a chunk of a copy: the state that it leaves, done or not. -/
def ChunkCanonical {α : Type} : Chunk α → Prop
  | .ok _ s | .fault s | .fail _ _ _ s => MemoryCanonical s
  | .hold => True

/-- Of an agent's fetch. -/
def FetchedCanonical : Fetched → Prop
  | .idle => True
  | .moved s | .ready _ s => MemoryCanonical s

/-! ### Branches, folds and results -/

theorem ite_holds {α : Type} {P : α → Prop} {c : Prop} [Decidable c] {a b : α} (ha : P a) (hb : P b) :
    P (if c then a else b) := by
  split
  · exact ha
  · exact hb

theorem ite_canonical {c : Prop} [Decidable c] {s t : State} (hs : MemoryCanonical s) (ht : MemoryCanonical t) :
    MemoryCanonical (if c then s else t) :=
  ite_holds hs ht

theorem foldl_holds {α β : Type} {P : β → Prop} {f : β → α → β} {l : List α} {b : β} (h : P b)
    (hf : ∀ u a, P u → P (f u a)) : P (l.foldl f b) := by
  induction l generalizing b with
  | nil => exact h
  | cons a l ih => exact ih (hf b a h)

theorem foldl_canonical {α : Type} {f : State → α → State} {l : List α} {s : State} (h : MemoryCanonical s)
    (hf : ∀ u a, MemoryCanonical u → MemoryCanonical (f u a)) : MemoryCanonical (l.foldl f s) :=
  foldl_holds h hf

theorem foldl_snd_canonical {α β : Type} {f : β × State → α → β × State} {l : List α} {r : β × State}
    (h : MemoryCanonical r.2) (hf : ∀ u a, MemoryCanonical u.2 → MemoryCanonical (f u a).2) :
    MemoryCanonical (l.foldl f r).2 :=
  foldl_holds (P := fun r : β × State => MemoryCanonical r.2) h hf

theorem getD_canonical {o : Option State} {s : State} (ho : OptCanonical o) (h : MemoryCanonical s) :
    MemoryCanonical (o.getD s) := by
  cases o with
  | none => exact h
  | some u => exact ho

theorem OptCanonical.some {o : Option State} {s : State} (h : OptCanonical o) (e : o = some s) : MemoryCanonical s := by
  subst e; exact h

theorem OptSndCanonical.some {α : Type} {o : Option (α × State)} {a : α} {s : State} (h : OptSndCanonical o)
    (e : o = some (a, s)) : MemoryCanonical s := by
  subst e; exact h

theorem canonical_snd {α : Type} {p : α × State} {a : α} {s : State} (h : MemoryCanonical p.2) (e : p = (a, s)) :
    MemoryCanonical s := by
  subst e; exact h

theorem WordCanonical.error {r : Except State (Word96 × State)} {s : State} (h : WordCanonical r) (e : r = .error s) :
    MemoryCanonical s := by
  subst e; exact h

theorem WordCanonical.ok {r : Except State (Word96 × State)} {w : Word96} {s : State} (h : WordCanonical r)
    (e : r = .ok (w, s)) : MemoryCanonical s := by
  subst e; exact h

theorem BytesCanonical.some {o : Option (List Byte × Bool × State)} {bs : List Byte} {p : Bool} {s : State}
    (h : BytesCanonical o) (e : o = some (bs, p, s)) : MemoryCanonical s := by
  subst e; exact h

theorem FillCanonical.error {r : Except State (Nat × List Byte)} {s : State} (h : FillCanonical r) (e : r = .error s) :
    MemoryCanonical s := by
  subst e; exact h

theorem ResCanonical.done {r : Res} {s : State} {ms : List (Nat × Move)} {t : Option Trap} (h : ResCanonical r)
    (e : r = .done s ms t) : MemoryCanonical s := by
  subst e; exact h

theorem ResCanonical.goOn {r : Res} {s : State} {y : Bool} {k : Frag → Frag} (h : ResCanonical r)
    (e : r = .goOn s y k) : MemoryCanonical s := by
  subst e; exact h

theorem ResCanonical.own {r : Res} {s : State} (h : ResCanonical r) (e : r = .own s) : MemoryCanonical s := by
  subst e; exact h

theorem ResCanonical.wait {r : Res} {w : WaitOn} {f : State → State} {s : State} (h : ResCanonical r)
    (e : r = .wait w f)
    (hs : MemoryCanonical s) : MemoryCanonical (f s) := by
  subst e; exact h s hs

theorem DResCanonical.ok {r : DRes} {s : State} {f : Dray → Dray} (h : DResCanonical r) (e : r = .ok s f) :
    MemoryCanonical s := by
  subst e; exact h

theorem CmdCanonical.ends {r : Cmd} {s : State} {n : Nat} (h : CmdCanonical r) (e : r = .ends n s)
    : MemoryCanonical s := by
  subst e; exact h

theorem CmdCanonical.later {r : Cmd} {s : State} (h : CmdCanonical r) (e : r = .later s) : MemoryCanonical s := by
  subst e; exact h

theorem ChunkCanonical.ok {α : Type} {r : Chunk α} {a : α} {s : State} (h : ChunkCanonical r) (e : r = .ok a s) :
    MemoryCanonical s := by
  subst e; exact h

theorem ChunkCanonical.fault {α : Type} {r : Chunk α} {s : State} (h : ChunkCanonical r) (e : r = .fault s) :
    MemoryCanonical s := by
  subst e; exact h

theorem ChunkCanonical.fail {α : Type} {r : Chunk α} {n va acc : Nat} {s : State} (h : ChunkCanonical r)
    (e : r = .fail n va acc s) : MemoryCanonical s := by
  subst e; exact h

theorem FetchedCanonical.moved {r : Fetched} {s : State} (h : FetchedCanonical r) (e : r = .moved s)
    : MemoryCanonical s := by
  subst e; exact h

theorem FetchedCanonical.ready {r : Fetched} {i : Instr} {s : State} (h : FetchedCanonical r) (e : r = .ready i s) :
    MemoryCanonical s := by
  subst e; exact h

theorem NextCanonical.next {o : Host.Outcome State Fault Refusal} {s : State} (h : NextCanonical o) (e : o = .next s) :
    MemoryCanonical s := by
  subst e; exact h

theorem optSnd_map_canonical {α β : Type} {o : Option (α × State)} {f : α × State → β × State} (h : OptSndCanonical o)
    (hf : ∀ r, MemoryCanonical r.2 → MemoryCanonical (f r).2) : OptSndCanonical (o.map f) := by
  cases o with
  | none => trivial
  | some r => exact hf r h

theorem optSnd_bind_canonical {α β : Type} {o : Option (α × State)} {f : α × State → Option (β × State)}
    (h : OptSndCanonical o) (hf : ∀ r, MemoryCanonical r.2 → OptSndCanonical (f r)) : OptSndCanonical (o.bind f) := by
  cases o with
  | none => trivial
  | some r => exact hf r h

section

variable {s : State}

/-- Bytes written in a list keep the canonical form. -/
theorem wf_foldl_write {α : Type} {addr : α → Nat} {byte : α → Byte} {l : List α} {m : Memory} (h : m.wf = true) :
    (l.foldl (fun m i => Memory.write m (addr i) (byte i)) m).wf = true := by
  induction l generalizing m with
  | nil => exact h
  | cons a l ih => exact ih (Memory.wf_write m (addr a) (byte a) h)

/-! ### Reset (Machine/State) -/

theorem reset_canonical : MemoryCanonical State.reset := Memory.wf_nil

/-! ### The parts of the package, budgets (Machine/Access) -/

theorem modCtx_canonical {c f} (h : MemoryCanonical s) : MemoryCanonical (modCtx s c f) := by
  unfold modCtx
  split
  · exact h
  · exact h

theorem modSys_canonical {c f} (h : MemoryCanonical s) : MemoryCanonical (modSys s c f) := modCtx_canonical h

theorem modCluster_canonical {n f} (h : MemoryCanonical s) : MemoryCanonical (modCluster s n f) := h

theorem modCore_canonical {n f} (h : MemoryCanonical s) : MemoryCanonical (modCore s n f) := h

theorem setQueue_canonical {q x} (h : MemoryCanonical s) : MemoryCanonical (setQueue s q x) := h

theorem setTrain_canonical {t x} (h : MemoryCanonical s) : MemoryCanonical (setTrain s t x) := h

theorem modTrain_canonical {t f} (h : MemoryCanonical s) : MemoryCanonical (modTrain s t f) := by
  unfold modTrain
  split
  · exact setTrain_canonical h
  · exact h

theorem modMbox_canonical {x f} (h : MemoryCanonical s) : MemoryCanonical (modMbox s x f) := h

theorem modHost_canonical {f} (h : MemoryCanonical s) : MemoryCanonical (modHost s f) := h

theorem modCoach_canonical {t c f} (h : MemoryCanonical s) : MemoryCanonical (modCoach s t c f) := modTrain_canonical h

theorem modFrag_canonical {r f} (h : MemoryCanonical s) : MemoryCanonical (modFrag s r f) := modCoach_canonical h

theorem charge_canonical {c k n} (h : MemoryCanonical s) : MemoryCanonical (charge s c k n) := by
  unfold charge
  split
  · exact modCtx_canonical h
  · exact h

theorem countEvent_canonical {c code phys unit n} (h : MemoryCanonical s) :
    MemoryCanonical (countEvent s c code phys unit n) :=
  foldl_canonical h fun _ _ hu => ite_canonical hu (foldl_canonical hu fun _ _ hv => ite_canonical
    (modSys_canonical hv) hv)

/-! ### The home, the L1s and accesses on their way (Machine/Memory) -/

theorem tagFrame_canonical {ma key} (h : MemoryCanonical s) : MemoryCanonical (tagFrame s ma key) := by
  unfold tagFrame
  split
  · exact h
  · exact h

theorem rekey_canonical {b key} (h : MemoryCanonical s) : MemoryCanonical (rekey s b key) := by
  unfold rekey
  split
  · exact h
  · exact wf_foldl_write h

theorem homePut_canonical {ma bs poison} (h : MemoryCanonical s) : MemoryCanonical (homePut s ma bs poison) :=
  have hk : MemoryCanonical ((blocksOf ma bs.length).foldl (fun s b => rekey s b (frameKey s (16 * b))) s) :=
    foldl_canonical h fun _ _ hu => rekey_canonical hu
  wf_foldl_write (m := State.mem _) hk

theorem noteBackInv_canonical {ma n} (h : MemoryCanonical s) : MemoryCanonical (noteBackInv s ma n) := by
  unfold noteBackInv
  split
  · exact h
  · exact h

theorem homeWrite_canonical {ma bs poison} (h : MemoryCanonical s) : MemoryCanonical (homeWrite s ma bs poison) :=
  noteBackInv_canonical (homePut_canonical h)

theorem homeAccess_canonical {ctx ma n} (h : MemoryCanonical s) : MemoryCanonical (homeAccess s ctx ma n) :=
  countEvent_canonical (countEvent_canonical (countEvent_canonical (charge_canonical h)))

theorem l1Set_canonical {cl wa w} (h : MemoryCanonical s) : MemoryCanonical (l1Set s cl wa w) := modCluster_canonical h

theorem l1Del_canonical {cl wa} (h : MemoryCanonical s) : MemoryCanonical (l1Del s cl wa) := modCluster_canonical h

theorem payBack_canonical {cl wa} (h : MemoryCanonical s) : MemoryCanonical (payBack s cl wa) := by
  unfold payBack
  split
  · split
    · exact h
    · exact homeAccess_canonical h
  · exact h

theorem mergeDirty_canonical {cl wa} (h : MemoryCanonical s) : MemoryCanonical (mergeDirty s cl wa) := by
  unfold mergeDirty
  split
  · exact h
  · split
    · exact h
    · exact l1Set_canonical (foldl_canonical h fun _ _ hu => ite_canonical (homeWrite_canonical hu) hu)

theorem dropOwner_canonical {wa} (h : MemoryCanonical s) : MemoryCanonical (dropOwner s wa) := by
  unfold dropOwner
  split
  · exact h
  · have hm := fun o => mergeDirty_canonical (cl := o) (wa := wa) (payBack_canonical (cl := o) (wa := wa) h)
    extract_lets s₁ s₂
    have h₂ : MemoryCanonical s₂ := by
      unfold s₂
      split
      · exact l1Set_canonical (hm _)
      · exact hm _
    exact h₂

theorem register_canonical {cl wa} (h : MemoryCanonical s) : MemoryCanonical (register s cl wa) := by
  unfold register
  extract_lets s₁ s₂ s₃
  have h₁ : MemoryCanonical s₁ := ite_canonical h h
  have h₃ : MemoryCanonical s₃ := dropOwner_canonical (s := s₁) h₁
  clear_value s₁ s₃
  refine ite_canonical h₁ ?_
  split
  · exact l1Set_canonical h₃
  · exact h₃

theorem writeBack'_canonical {cl wa} (h : MemoryCanonical s) : MemoryCanonical (writeBack' s cl wa) := by
  unfold writeBack'
  split
  · split
    · exact h
    · exact mergeDirty_canonical (register_canonical h)
  · exact h

theorem writeBack_canonical {cl wa} (h : MemoryCanonical s) : MemoryCanonical (writeBack s cl wa) := by
  unfold writeBack
  split
  · split
    · exact h
    · exact writeBack'_canonical (payBack_canonical h)
  · exact h

theorem evictWord_canonical {cl wa} (h : MemoryCanonical s) : MemoryCanonical (evictWord s cl wa) := by
  unfold evictWord
  split
  · exact h
  · exact l1Del_canonical (ite_canonical (writeBack_canonical h) (writeBack_canonical h))

theorem makeRoom_canonical {cl la} (h : MemoryCanonical s) : MemoryCanonical (makeRoom s cl la) := by
  unfold makeRoom
  dsimp only
  split
  · exact h
  · split
    · exact h
    · split
      · exact foldl_canonical h fun _ _ hu => evictWord_canonical hu
      · exact h

theorem fetchLine_canonical {cl la key} (h : MemoryCanonical s) : MemoryCanonical (fetchLine s cl la key) :=
  modCluster_canonical (makeRoom_canonical h)

theorem loadPlain_canonical {cl ma n key} (h : MemoryCanonical s) : MemoryCanonical (loadPlain s cl ma n key).2 :=
  foldl_canonical h fun _ _ hu => ite_canonical hu (fetchLine_canonical hu)

theorem storePlain_canonical {cl ctx ma bs key poison reg} (h : MemoryCanonical s) :
    MemoryCanonical (storePlain s cl ctx ma bs key poison reg) :=
  foldl_canonical (tagFrame_canonical h) fun u wa hu =>
    have hr := ite_canonical (c := (l1Get u cl wa).isSome) hu (makeRoom_canonical hu)
    l1Set_canonical (ite_canonical (register_canonical hr) hr)

theorem loadBypass_canonical {cl ma n key} (h : MemoryCanonical s) : MemoryCanonical (loadBypass s cl ma n key).2 :=
  foldl_canonical h fun _ _ hu => by
    dsimp only
    split
    · split
      · exact writeBack_canonical hu
      · exact l1Del_canonical (writeBack_canonical hu)
    · exact writeBack_canonical hu

theorem storeBypass_canonical {cl ma bs key poison} (h : MemoryCanonical s) :
    MemoryCanonical (storeBypass s cl ma bs key poison) := by
  unfold storeBypass
  extract_lets s₁ s₂ s₃
  have h₂ : MemoryCanonical s₂ :=
    foldl_canonical (tagFrame_canonical h) fun _ _ hu => dropOwner_canonical (writeBack_canonical hu)
  exact foldl_canonical (homeWrite_canonical h₂) fun _ _ hu => by
    split
    · exact l1Set_canonical hu
    · exact hu

theorem discardWord_canonical {cl wa} (h : MemoryCanonical s) : MemoryCanonical (discardWord s cl wa) := by
  unfold discardWord
  split
  · exact h
  · exact l1Del_canonical (ite_canonical h h)

theorem putStore_canonical {p} (h : MemoryCanonical s) : MemoryCanonical (putStore s p) := storeBypass_canonical h

theorem performStore_canonical {p} (h : MemoryCanonical s) : MemoryCanonical (performStore s p) := by
  unfold performStore
  split
  · exact register_canonical h
  · exact foldl_canonical (ite_canonical (homeAccess_canonical h) h) fun _ _ hu => putStore_canonical hu

theorem tryStore_canonical {p} (h : MemoryCanonical s) : MemoryCanonical (tryStore s p) := by
  unfold tryStore
  split
  · exact performStore_canonical h
  · exact h

theorem drainRegs_canonical {cl} (h : MemoryCanonical s) : MemoryCanonical (drainRegs s cl) :=
  foldl_canonical h fun _ _ hu => tryStore_canonical hu

theorem writeBackLine_canonical {cl ws k} (h : MemoryCanonical s) : MemoryCanonical (writeBackLine s cl ws k) := by
  unfold writeBackLine
  dsimp only
  split
  · exact h
  · exact foldl_canonical (homeAccess_canonical h) fun _ _ hu => writeBack'_canonical hu

theorem backWords_canonical {cl ws} (h : MemoryCanonical s) : MemoryCanonical (backWords s cl ws) :=
  foldl_canonical h fun _ _ hu => writeBackLine_canonical hu

theorem releaseEvent_canonical {cl} (h : MemoryCanonical s) : MemoryCanonical (releaseEvent s cl) :=
  backWords_canonical (drainRegs_canonical h)

theorem acquireEvent_canonical {cl} (h : MemoryCanonical s) : MemoryCanonical (acquireEvent s cl) :=
  modCluster_canonical h

theorem countBanks_canonical {ctx core base n offs} (h : MemoryCanonical s) :
    MemoryCanonical (countBanks s ctx core base n offs) := countEvent_canonical h

/-! ### Translation (Machine/Translate) -/

theorem fetchPte_canonical {cl c tab va level} (h : MemoryCanonical s) :
    MemoryCanonical (fetchPte s cl c tab va level).2 := by
  unfold fetchPte
  extract_lets x
  split
  · exact h
  · next ma _ =>
    have hs : MemoryCanonical (homeAccess (loadBypass s cl ma 8 0).2 c ma 1) :=
      homeAccess_canonical (loadBypass_canonical h)
    split
    · exact h
    · split
      · exact h
      · dsimp only
        split
        · exact hs
        · split
          · exact hs
          · split
            · exact hs
            · exact hs

theorem walkFrom_canonical {cl c va n level tab} (h : MemoryCanonical s) :
    MemoryCanonical (walkFrom cl c va n level tab s).2 := by
  induction n generalizing level tab s with
  | zero => exact h
  | succ n ih =>
    have hf := fetchPte_canonical (cl := cl) (c := c) (tab := tab) (va := va) (level := level) h
    unfold walkFrom
    split
    · exact canonical_snd hf ‹_›
    · split
      · exact canonical_snd hf ‹_›
      · exact ih (canonical_snd hf ‹_›)

theorem walk_canonical {cl c va} (h : MemoryCanonical s) : MemoryCanonical (walk s cl c va).2 := by
  unfold walk
  split
  · exact h
  · exact walkFrom_canonical h

theorem walkLookup_canonical {cl core c va acc host} (h : MemoryCanonical s) :
    MemoryCanonical (walkLookup s cl core c va acc host).2 := by
  unfold walkLookup
  split
  · exact h
  · have hw := fun f => walk_canonical (cl := cl) (c := c) (va := va)
      (countEvent_canonical (c := c) (code := 0x050) (phys := cl) (unit := f) (n := 1) h)
    extract_lets s₁
    split
    · exact canonical_snd (hw _) ‹_›
    · have hu := canonical_snd (hw _) ‹_›
      extract_lets key
      split
      · exact hu
      · split
        · exact hu
        · split
          · exact hu
          · dsimp only
            split
            · exact modCore_canonical (modCluster_canonical hu)
            · exact modCluster_canonical hu

theorem xlate_canonical {cl core c va0 acc replay host} (h : MemoryCanonical s) :
    MemoryCanonical (xlate s cl core c va0 acc replay host).2 := by
  unfold xlate
  dsimp only
  split
  · split
    · exact h
    · split
      · exact h
      · exact h
  · split
    · exact h
    · exact walkLookup_canonical h

/-! ### Reports, traps, regrouping, barrier arrivals, parked lanes (Machine/Ops) -/

theorem sendReport_canonical {owner r} (h : MemoryCanonical s) : MemoryCanonical (sendReport s owner r) :=
  modCtx_canonical h

theorem stall_canonical {r w} (h : MemoryCanonical s) : MemoryCanonical (stall s r w) := by
  unfold stall
  dsimp only
  split
  · split
    · exact h
    · exact modFrag_canonical h
  · exact h

theorem enterHandler_canonical {x slot t tpc rpc word tvec} (h : MemoryCanonical s) :
    MemoryCanonical (enterHandler s x slot t tpc rpc word tvec) := modCoach_canonical h

theorem reflectTrap_canonical {x t tpc rpc} (h : MemoryCanonical s) : MemoryCanonical (reflectTrap s x t tpc rpc) :=
  sendReport_canonical (modFrag_canonical h)

theorem takeTrap_canonical {r t b tpc word} (h : MemoryCanonical s) : MemoryCanonical (takeTrap s r t b tpc word) := by
  unfold takeTrap
  split
  · exact h
  · dsimp only
    split
    · exact modFrag_canonical h
    · split
      · exact reflectTrap_canonical h
      · split
        · exact enterHandler_canonical h
        · split
          · exact stall_canonical h
          · exact modFrag_canonical h

theorem trapB_canonical {x t word} (h : MemoryCanonical s) : MemoryCanonical (trapB s x t word) := takeTrap_canonical h

theorem trapReturn_canonical {x word} (h : MemoryCanonical s) : MemoryCanonical (trapReturn s x word) := by
  unfold trapReturn
  split
  · exact trapB_canonical h
  · split
    · exact trapB_canonical h
    · split
      · exact trapB_canonical h
      · exact modCoach_canonical h

theorem regroup_canonical {x pc gs keep} (h : MemoryCanonical s) : MemoryCanonical (regroup s x pc gs keep) :=
  modCoach_canonical h

theorem arriveLaunch_canonical {t} (h : MemoryCanonical s) : MemoryCanonical (arriveLaunch s t) := by
  unfold arriveLaunch
  split
  · exact h
  · dsimp only
    split
    · split
      · exact h
      · exact h
    · split
      · exact h
      · exact h

theorem testLaunch_canonical {k} (h : MemoryCanonical s) : MemoryCanonical (testLaunch s k) := by
  unfold testLaunch
  dsimp only
  split
  · exact h
  · exact h

theorem barsAfterEnd_canonical {t} (h : MemoryCanonical s) : MemoryCanonical (barsAfterEnd s t) := by
  unfold barsAfterEnd
  dsimp only
  split
  · split
    · exact testLaunch_canonical (arriveLaunch_canonical (modTrain_canonical h))
    · exact modTrain_canonical h
  · exact modTrain_canonical h

theorem finish_canonical {x word ms after keep} (h : MemoryCanonical s) :
    MemoryCanonical (finish s x word ms after keep) :=
  foldl_canonical (ite_canonical (barsAfterEnd_canonical (regroup_canonical h)) (regroup_canonical h)) fun _ _ hu => by
    dsimp only
    split
    · exact takeTrap_canonical hu
    · split
      · exact takeTrap_canonical hu
      · exact hu
    · exact hu

theorem bufferEntry_canonical {ctx die cluster r} (h : MemoryCanonical s) :
    MemoryCanonical (bufferEntry s ctx die cluster r) := by
  unfold bufferEntry
  dsimp only
  split
  · exact h
  · split
    · exact modCtx_canonical h
    · split
      · exact sendReport_canonical (ite_canonical (countEvent_canonical (modCtx_canonical h)) (modCtx_canonical h))
      · split
        · exact countEvent_canonical (modCtx_canonical h)
        · exact modCtx_canonical h

theorem addMark_canonical {cl ctx vpn} (h : MemoryCanonical s) : MemoryCanonical (addMark s cl ctx vpn) := by
  unfold addMark
  split
  · exact h
  · exact modCluster_canonical h

theorem parkLanes_canonical {x acc fs} (h : MemoryCanonical s) : MemoryCanonical (parkLanes s x acc fs).1 := by
  unfold parkLanes
  extract_lets pc behind live own re s₁ s₂
  have h₁ : MemoryCanonical s₁ := foldl_canonical h fun _ _ hu => ite_canonical hu (by
    dsimp only
    split
    · exact bufferEntry_canonical (addMark_canonical hu)
    · exact sendReport_canonical hu
    · exact countEvent_canonical hu
    · exact hu)
  have h₂ : MemoryCanonical s₂ := ite_canonical (modCoach_canonical h₁) h₁
  exact h₂

/-! ### Levels (Machine/Levels) -/

theorem structConflict_canonical {ctx addr engine} (h : MemoryCanonical s) :
    MemoryCanonical (structConflict s ctx addr engine) := by
  unfold structConflict
  split
  · exact h
  · exact sendReport_canonical (modCtx_canonical h)

theorem structClear_canonical {ctx addr} (h : MemoryCanonical s) : MemoryCanonical (structClear s ctx addr) := by
  unfold structClear
  split
  · exact modCtx_canonical h
  · exact h

theorem keepLevel_canonical {ma l} (h : MemoryCanonical s) : MemoryCanonical (keepLevel s ma l) := h

theorem levelWriteBack_canonical {ctx ma l} (h : MemoryCanonical s) : MemoryCanonical (levelWriteBack s ctx ma l) := by
  unfold levelWriteBack
  split
  · exact keepLevel_canonical (structConflict_canonical h)
  · exact keepLevel_canonical (homeWrite_canonical (tagFrame_canonical (foldl_canonical (structClear_canonical h)
      fun _ _ hu => dropOwner_canonical hu)))

theorem retryLevels_canonical (h : MemoryCanonical s) : MemoryCanonical (retryLevels s) :=
  foldl_canonical h fun _ _ hu => by
    split
    · exact levelWriteBack_canonical hu
    · exact hu

theorem wakeJoins_canonical {ma} (h : MemoryCanonical s) : MemoryCanonical (wakeJoins s ma) := h

theorem levelPut_canonical {ctx ma l wb} (h : MemoryCanonical s) : MemoryCanonical (levelPut s ctx ma l wb) := by
  unfold levelPut
  dsimp only
  split
  · exact levelWriteBack_canonical (keepLevel_canonical (ite_canonical (wakeJoins_canonical h) h))
  · exact keepLevel_canonical (ite_canonical (wakeJoins_canonical h) h)

theorem levelAdd_canonical {ctx n id d ups} (h : MemoryCanonical s) : OptCanonical (levelAdd ctx n s id d ups) := by
  induction n generalizing s id d ups with
  | zero => exact h
  | succ n ih =>
    unfold levelAdd
    split
    · exact h
    · have hp := fun ma l wb => levelPut_canonical (ctx := ctx) (ma := ma) (l := l) (wb := wb) h
      exact ite_holds trivial (ite_holds (ih (hp _ _ _)) (ite_holds (ih (hp _ _ _)) (hp _ _ _)))

theorem levelLess_canonical {ctx f id n} (h : MemoryCanonical s) : MemoryCanonical (levelLess ctx f s id n) := by
  induction f generalizing s id n with
  | zero => exact h
  | succ f ih =>
    unfold levelLess
    split
    · exact h
    · exact ite_canonical (ih (levelPut_canonical h)) (levelPut_canonical h)

theorem levelSub_canonical {ctx id n} (h : MemoryCanonical s) : MemoryCanonical (levelSub s ctx id n) := by
  unfold levelSub
  split
  · exact h
  · exact levelLess_canonical h

theorem levelCode_canonical {ctx id code} (h : MemoryCanonical s) : MemoryCanonical (levelCode s ctx id code) := by
  unfold levelCode
  split
  · exact levelPut_canonical h
  · exact h

/-! ### Pending loads and steps (Machine/Pending) -/

theorem homeStep_canonical {cl ma w64 key op cmp arg} (h : MemoryCanonical s) :
    MemoryCanonical (homeStep s cl ma w64 key op cmp arg).2 := by
  unfold homeStep
  extract_lets n s₁ old s₂ s₃ s₄
  have h₁ : MemoryCanonical s₁ := foldl_canonical h fun _ _ hu => dropOwner_canonical (writeBack_canonical hu)
  have h₃ : MemoryCanonical s₃ := homeWrite_canonical (tagFrame_canonical h₁)
  have h₄ : MemoryCanonical s₄ := foldl_canonical h₃ fun _ _ hu => by
    split
    · exact ite_canonical hu (l1Del_canonical hu)
    · exact hu
  split
  · exact h₁
  · exact h₄

theorem duePoison_canonical {r pc word bad} (h : MemoryCanonical s) : MemoryCanonical (duePoison s r pc word bad) := by
  unfold duePoison
  split
  · exact h
  · exact modCoach_canonical h

theorem loadGlob_canonical {ctx cl ma n bypass key paid} (h : MemoryCanonical s) :
    OptSndCanonical (loadGlob s ctx cl ma n bypass key paid) := by
  have hp : MemoryCanonical (loadPlain s cl ma n key).2 := loadPlain_canonical h
  have hb : MemoryCanonical (loadBypass s cl ma n key).2 := loadBypass_canonical h
  unfold loadGlob
  dsimp only
  split
  · trivial
  · split
    · exact ite_canonical hb (homeAccess_canonical hb)
    · exact ite_canonical hp (ite_canonical (countEvent_canonical hp) (homeAccess_canonical (countEvent_canonical hp)))

theorem readLoc_canonical {ctx n l seen} (h : MemoryCanonical s) : OptSndCanonical (readLoc s ctx n l seen) := by
  unfold readLoc
  split
  · exact loadGlob_canonical h
  · split
    · exact h
    · exact h
  · split
    · trivial
    · exact h
  · exact h
  · trivial
  · exact h

theorem replyLane_canonical {t c p e seen} (h : MemoryCanonical s) : OptCanonical (replyLane s t c p e seen) := by
  unfold replyLane
  split
  · trivial
  · split
    · trivial
    · exact modCoach_canonical ((readLoc_canonical h).some ‹_›)

theorem replyLanes_canonical {t c p rs seen} (h : MemoryCanonical s) :
    MemoryCanonical (replyLanes t c p rs seen s) := by
  induction rs generalizing seen s with
  | nil => exact h
  | cons e r ih =>
    unfold replyLanes
    split
    · exact ih h
    · exact ih ((replyLane_canonical h).some ‹_›)

theorem closePend_canonical {t c p} (h : MemoryCanonical s) : MemoryCanonical (closePend s t c p) := by
  unfold closePend
  split
  · exact h
  · dsimp only
    split
    · exact h
    · exact duePoison_canonical (modCoach_canonical h)

theorem replyPend_canonical {t c p} (h : MemoryCanonical s) : MemoryCanonical (replyPend s t c p) :=
  closePend_canonical (replyLanes_canonical h)

theorem replyAll_canonical {t c} (h : MemoryCanonical s) : MemoryCanonical (replyAll s t c) := by
  unfold replyAll
  split
  · exact foldl_canonical h fun _ _ hu => replyPend_canonical hu
  · exact h

theorem stepReply_canonical {a l} (h : MemoryCanonical s) : MemoryCanonical (stepReply s a l) := by
  unfold stepReply
  split
  · exact modCoach_canonical h
  · exact h

theorem performStep_canonical {a} (h : MemoryCanonical s) : MemoryCanonical (performStep s a) :=
  stepReply_canonical (homeStep_canonical h)

theorem tryStep_canonical {a} (h : MemoryCanonical s) : MemoryCanonical (tryStep s a) := by
  unfold tryStep
  split
  · exact performStep_canonical (ite_canonical (homeAccess_canonical h) h)
  · exact h

theorem performId_canonical {t c id} (h : MemoryCanonical s) : MemoryCanonical (performId t c s id) := by
  unfold performId
  split
  · exact tryStore_canonical h
  · split
    · exact tryStep_canonical h
    · split
      · exact replyPend_canonical h
      · exact h

theorem settle_canonical {t c} (h : MemoryCanonical s) : MemoryCanonical (settle s t c) :=
  replyAll_canonical (foldl_canonical h fun _ _ hu => performId_canonical hu)

/-! ### Operands, destinations and issue (Machine/Operands) -/

theorem caskPut_canonical {cl k c} (h : MemoryCanonical s) : MemoryCanonical (caskPut s cl k c) :=
  modCluster_canonical h

theorem wr_canonical {x o bits rs} (h : MemoryCanonical s) : MemoryCanonical (wr s x o bits rs) := modCoach_canonical h

theorem wrFirst_canonical {x o bits first rs} (h : MemoryCanonical s) :
    MemoryCanonical (wrFirst s x o bits first rs) := by
  unfold wrFirst
  dsimp only
  split
  · split
    · exact h
    · exact wr_canonical h
  · split
    · exact h
    · exact wr_canonical h

theorem wrPred_canonical {x p rs} (h : MemoryCanonical s) : MemoryCanonical (wrPred s x p rs) := modCoach_canonical h

theorem noteAnchors_canonical {x} (h : MemoryCanonical s) : MemoryCanonical (noteAnchors s x) := modTrain_canonical h

theorem noteIssue_canonical {x i a yld} (h : MemoryCanonical s) : MemoryCanonical (noteIssue s x i a yld) := by
  unfold noteIssue
  split
  · exact h
  · exact countEvent_canonical (noteAnchors_canonical h)

theorem commit_canonical {s₀ x a i yld ms after keep} (h₀ : MemoryCanonical s₀) (h : MemoryCanonical s) :
    MemoryCanonical (commit s₀ x a i yld s ms after keep) := by
  unfold commit
  dsimp only
  split
  · exact trapB_canonical h₀
  · split
    · exact stall_canonical h₀
    · exact noteIssue_canonical (finish_canonical h)

theorem issue_canonical {i a whole body x} (hbody : ∀ x ls u, MemoryCanonical u → ResCanonical (body x ls u))
    (h : MemoryCanonical s) : MemoryCanonical (issue i a whole body x s) := by
  unfold issue
  extract_lets word ls ks ns s₁
  have h₁ : MemoryCanonical s₁ := foldl_canonical h fun u k hu => by
    split
    · split
      · exact caskPut_canonical hu
      · exact hu
    · exact hu
  split
  · exact trapB_canonical h
  · refine ite_canonical (stall_canonical h) (ite_canonical (commit_canonical h h) ?_)
    split
    · exact trapB_canonical h
    · refine ite_canonical (stall_canonical h) (ite_canonical (commit_canonical h h₁) ?_)
      have hr := hbody x ls s₁ h₁
      split
      · exact commit_canonical h (hr.done ‹_›)
      · exact commit_canonical h (hr.goOn ‹_›)
      · exact stall_canonical (hr.wait ‹_› h)
      · exact trapB_canonical h
      · exact hr.own ‹_›

theorem vamer_canonical {i a whole body} (hbody : ∀ x ls u, MemoryCanonical u → ResCanonical (body x ls u))
    (h : MemoryCanonical s) : NextCanonical (vamer i a whole body s) := by
  unfold vamer
  split
  · split
    · exact issue_canonical hbody h
    · trivial
  · trivial

theorem issueIllegal_canonical {r word f} (h : MemoryCanonical s) : MemoryCanonical (issueIllegal s r word f) := by
  unfold issueIllegal
  split
  · exact trapB_canonical h
  · exact h

theorem lanewise_canonical {o bits f x ls} (h : MemoryCanonical s) : ResCanonical (lanewise o bits f x ls s) :=
  wr_canonical h

theorem lanewiseP_canonical {o bits pd f x ls} (h : MemoryCanonical s) :
    ResCanonical (lanewiseP o bits pd f x ls s) := by
  unfold lanewiseP
  split
  · exact wrPred_canonical (wr_canonical h)
  · exact wr_canonical h

/-! ### Drays (Machine/DrayOps) -/

theorem modDray_canonical {t k f} (h : MemoryCanonical s) : MemoryCanonical (modDray s t k f) := modTrain_canonical h

/-! ### Releases, acquires, rejoins (Machine/Order) -/

theorem countClamp_canonical {ctx sc} (h : MemoryCanonical s) : MemoryCanonical (countClamp s ctx sc) := by
  unfold countClamp
  split
  · exact modSys_canonical h
  · exact h

theorem settleX_canonical {x} (h : MemoryCanonical s) : MemoryCanonical (settleX x s) := settle_canonical h

theorem releaseAt_canonical {x sc} (h : MemoryCanonical s) : MemoryCanonical (releaseAt x sc s) := by
  unfold releaseAt
  split
  · exact h
  · exact releaseEvent_canonical h

theorem acquireAt_canonical {x sc} (h : MemoryCanonical s) : MemoryCanonical (acquireAt x sc s) := by
  unfold acquireAt
  split
  · exact h
  · exact acquireEvent_canonical h

theorem whenSettled_canonical {x k} (h : MemoryCanonical s) (hk : ∀ u, MemoryCanonical u → ResCanonical (k u)) :
    ResCanonical (whenSettled x s k) :=
  ite_holds (fun _ hu => settleX_canonical hu) (hk _ (settleX_canonical h))

theorem withRelease_canonical {x sc k} (h : MemoryCanonical s) (hk : ∀ u, MemoryCanonical u → ResCanonical (k u)) :
    ResCanonical (withRelease x sc s k) := by
  unfold withRelease
  exact whenSettled_canonical h fun _ hu =>
    ite_holds (fun _ hv => releaseAt_canonical (settleX_canonical hv)) (hk _ (releaseAt_canonical hu))

theorem withAcquire_canonical {x sc k} (h : MemoryCanonical s) (hk : ∀ u, MemoryCanonical u → ResCanonical (k u)) :
    ResCanonical (withAcquire x sc s k) := by
  unfold withAcquire
  exact whenSettled_canonical h fun _ hu =>
    ite_holds (fun _ hv => settleX_canonical hv) (hk _ (acquireAt_canonical hu))

theorem withAcquireLoad_canonical {x sc k} (h : MemoryCanonical s)
    (hk : ∀ u, MemoryCanonical u → ResCanonical (k u)) : ResCanonical (withAcquireLoad x sc s k) := by
  unfold withAcquireLoad
  dsimp only
  split
  · exact fun _ hu => hu
  · split
    · split
      · exact fun _ hu => hu
      · exact (hk _ (acquireAt_canonical h)).done ‹_›
    · exact hk _ (acquireAt_canonical h)

theorem notePassed_canonical {x m} (h : MemoryCanonical s) : MemoryCanonical (notePassed s x m) := by
  unfold notePassed
  split
  · exact h
  · exact modCoach_canonical h

theorem arrive_canonical {x word stay off j} (h : MemoryCanonical s) :
    MemoryCanonical (arrive x word stay off j s) := by
  unfold arrive
  dsimp only
  split
  · exact takeTrap_canonical (modCoach_canonical (notePassed_canonical h))
  · exact modCoach_canonical (notePassed_canonical h)

theorem tryRejoins_canonical {t cs p} (h : MemoryCanonical s) : MemoryCanonical (tryRejoins s t cs p) := by
  unfold tryRejoins
  split
  · exact h
  · exact foldl_canonical h fun _ _ hu => modCoach_canonical hu

theorem rejoinBody_canonical {i a kind masks group perform x ls}
    (hperform : ∀ y ls u, MemoryCanonical u → ResCanonical (perform y ls u)) (h : MemoryCanonical s) :
    ResCanonical (rejoinBody i a kind masks group perform x ls s) := by
  unfold rejoinBody
  extract_lets word p act ms m stay off go
  have hact : ∀ s₀ u l back, MemoryCanonical s₀ → MemoryCanonical u →
      (∀ v, MemoryCanonical v → MemoryCanonical (back v)) → ResCanonical (act s₀ u l back) := by
    intro s₀ u l back h₀ hu hb
    have hp := fun y : Ix => hperform y (lanesOf y.fr.mask) _ (tryRejoins_canonical (t := x.ref.train) (cs := group x)
      (p := p) hu)
    unfold act
    extract_lets v
    split
    · exact hb
    · split
      · exact commit_canonical h₀ ((hp _).done ‹_›)
      · exact hp _
  clear_value act
  split
  · exact hact _ _ _ _ h h fun _ hv => hv
  · split
    · trivial
    · exact ite_holds (notePassed_canonical h) (ite_holds trivial
        (hact _ _ _ _ h (arrive_canonical h) fun _ hv => arrive_canonical hv))

/-! ### Fetch (Machine/Fetch) -/

theorem fetchBytes_canonical {x ma n key} (h : MemoryCanonical s) : OptSndCanonical (fetchBytes s x ma n key) := by
  unfold fetchBytes
  split
  · exact h
  · exact optSnd_map_canonical (readLoc_canonical h) fun _ hr => hr

theorem parkFetch_canonical {x va xl} (h : MemoryCanonical s) : MemoryCanonical (parkFetch s x va xl) :=
  finish_canonical (parkLanes_canonical h)

theorem fetchWord_canonical {x} (h : MemoryCanonical s) : WordCanonical (fetchWord s x) := by
  have hx := fun u va (hu : MemoryCanonical u) => xlate_canonical (s := u) (cl := x.cluster) (core := x.coreTlb)
    (c := x.ctx) (va0 := va) (acc := .fetch) (replay := x.fr.replay) (host := false) hu
  unfold fetchWord
  extract_lets pc two va n₁
  split
  · next m₁ k₁ s₁ e₁ =>
    have h₁ : MemoryCanonical s₁ := canonical_snd (hx s pc h) e₁
    extract_lets second
    have h₂ : PagesCanonical second := ite_holds (by
      split
      · exact canonical_snd (hx _ _ h₁) ‹_›
      · exact stall_canonical (canonical_snd (hx _ _ h₁) ‹_›)
      · exact parkFetch_canonical (canonical_snd (hx _ _ h₁) ‹_›)) h₁
    clear_value second
    split
    · exact h₂
    · next m₂ k₂ s₂ =>
      have h₂ : MemoryCanonical s₂ := h₂
      refine ite_holds (trapB_canonical h₂) (ite_holds (trapB_canonical h₂) ?_)
      split
      · exact h₂
      · have hb : OptSndCanonical ((fetchBytes s₂ x m₁ n₁ k₁).bind fun r =>
            (fetchBytes r.2 x m₂ (12 - n₁) k₂).map fun q => (r.1 ++ q.1, q.2)) :=
          optSnd_bind_canonical (fetchBytes_canonical h₂) fun _ hr =>
            optSnd_map_canonical (fetchBytes_canonical hr) fun _ hq => hq
        split
        · exact stall_canonical h₂
        · exact modCluster_canonical (hb.some ‹_›)
  · exact stall_canonical (canonical_snd (hx s pc h) ‹_›)
  · exact parkFetch_canonical (canonical_snd (hx s pc h) ‹_›)

theorem barWait_canonical {x} (h : MemoryCanonical s) : OptCanonical (barWait s x) := by
  unfold barWait
  split
  · exact h
  · extract_lets sc ph
    exact ite_holds trivial (acquireAt_canonical (modFrag_canonical h))

theorem hcallWait_canonical {x w} (h : MemoryCanonical s) : OptCanonical (hcallWait s x w) := by
  unfold hcallWait
  split
  · trivial
  · exact finish_canonical (modCtx_canonical (wr_canonical h))

theorem fetchNext_canonical {x} (h : MemoryCanonical s) : FetchedCanonical (fetchNext s x) := by
  unfold fetchNext
  split
  · exact ite_holds (stall_canonical h) (takeTrap_canonical (modFrag_canonical h))
  · split
    · exact (fetchWord_canonical h).error ‹_›
    · split
      · exact (fetchWord_canonical h).ok ‹_›
      · exact issueIllegal_canonical ((fetchWord_canonical h).ok ‹_›)

theorem fetchFrag_canonical {r} (h : MemoryCanonical s) : FetchedCanonical (fetchFrag s r) := by
  unfold fetchFrag
  split
  · trivial
  · refine ite_holds trivial ?_
    split
    · trivial
    · have hu := (barWait_canonical h).some ‹_›
      split
      · trivial
      · split
        · exact fetchNext_canonical hu
        · split
          · trivial
          · exact (hcallWait_canonical hu).some ‹_›

theorem fetchDray_canonical {t rank hart} (h : MemoryCanonical s) : FetchedCanonical (fetchDray s t rank hart) := by
  unfold fetchDray
  split
  · trivial
  · split
    · trivial
    · split
      · exact modDray_canonical h
      · exact h

theorem fetchAgent_canonical {a} (h : MemoryCanonical s) : FetchedCanonical (fetchAgent s a) := by
  unfold fetchAgent
  split
  · exact fetchFrag_canonical h
  · exact fetchDray_canonical h

/-! ### Transfers, fibres, rejoins, hints (Machine/Control) -/

theorem transfer_canonical {ts} (h : MemoryCanonical s) : ResCanonical (transfer ts s) := by
  unfold transfer
  split
  · exact h
  · trivial

theorem execNop_canonical {x} (h : MemoryCanonical s) : NextCanonical (execNop x s) :=
  vamer_canonical (fun _ _ _ hu => hu) h

theorem execBra_canonical {x} (h : MemoryCanonical s) : NextCanonical (execBra x s) :=
  vamer_canonical (fun _ _ _ hu => transfer_canonical hu) h

theorem execBrx_canonical {x} (h : MemoryCanonical s) : NextCanonical (execBrx x s) :=
  vamer_canonical (fun _ _ _ hu => transfer_canonical hu) h

theorem rasPush_canonical {ix} (h : MemoryCanonical s) : MemoryCanonical (rasPush s ix) := by
  unfold rasPush
  split
  · exact modCoach_canonical h
  · exact h

theorem rasPop_canonical {ix} (h : MemoryCanonical s) : MemoryCanonical (rasPop s ix) := by
  unfold rasPop
  split
  · exact modCoach_canonical h
  · exact h

theorem execRet_canonical {x} (h : MemoryCanonical s) : NextCanonical (execRet x s) :=
  vamer_canonical (fun _ _ _ hu => transfer_canonical (rasPop_canonical hu)) h

theorem callTo_canonical {x ix ts} (h : MemoryCanonical s) : ResCanonical (callTo x ix ts s) :=
  transfer_canonical (rasPush_canonical (wr_canonical h))

theorem execCall_canonical {x} (h : MemoryCanonical s) : NextCanonical (execCall x s) :=
  vamer_canonical (fun _ _ _ hu => callTo_canonical hu) h

theorem execCallx_canonical {x} (h : MemoryCanonical s) : NextCanonical (execCallx x s) :=
  vamer_canonical (fun _ _ _ hu => callTo_canonical hu) h

theorem execJtab_canonical {x} (h : MemoryCanonical s) : NextCanonical (execJtab x s) :=
  vamer_canonical (fun _ _ _ hu => transfer_canonical hu) h

theorem execLoop_canonical {x} (h : MemoryCanonical s) : NextCanonical (execLoop x s) :=
  vamer_canonical (fun _ _ _ hu => transfer_canonical (wr_canonical hu)) h

theorem wholeBranch_canonical {take x ix} (h : MemoryCanonical s) : ResCanonical (wholeBranch take x ix s) := by
  unfold wholeBranch
  split
  · exact transfer_canonical h
  · exact h

theorem execBrany_canonical {x} (h : MemoryCanonical s) : NextCanonical (execBrany x s) :=
  vamer_canonical (fun _ _ _ hu => wholeBranch_canonical hu) h

theorem execBrall_canonical {x} (h : MemoryCanonical s) : NextCanonical (execBrall x s) :=
  vamer_canonical (fun _ _ _ hu => wholeBranch_canonical hu) h

theorem placeChildren_canonical {x a target ks} (h : MemoryCanonical s) :
    MemoryCanonical (placeChildren s x a target ks) := by
  unfold placeChildren
  extract_lets s₁ s₂
  have h₁ : MemoryCanonical s₁ := foldl_canonical h fun _ _ hu => modCoach_canonical hu
  have h₂ : MemoryCanonical s₂ := foldl_canonical h₁ fun _ _ hu => modCoach_canonical hu
  exact modTrain_canonical h₂

theorem execFork_canonical {pv pd x} (h : MemoryCanonical s) : NextCanonical (execFork pv pd x s) :=
  vamer_canonical (fun _ _ _ hu => ite_holds trivial (ite_canonical (wrPred_canonical (wr_canonical
    (placeChildren_canonical hu))) (wr_canonical (placeChildren_canonical hu)))) h

theorem execEnd_canonical {x} (h : MemoryCanonical s) : NextCanonical (execEnd_ x s) :=
  vamer_canonical (fun _ _ _ hu => hu) h

theorem execExit_canonical {x} (h : MemoryCanonical s) : NextCanonical (execExit x s) :=
  vamer_canonical (fun _ _ _ hu => withRelease_canonical hu (fun _ hv => hv)) h

theorem execRcvMark_canonical {x} (h : MemoryCanonical s) : NextCanonical (execRcvMark x s) :=
  vamer_canonical (fun _ _ _ hu => wr_canonical hu) h

theorem regrouped_canonical {x v} (h : MemoryCanonical s) : MemoryCanonical (regrouped x v s) := by
  unfold regrouped
  split
  · exact h
  · exact modTrain_canonical h

theorem regroupRelease_canonical {x v word} (h : MemoryCanonical s) : ResCanonical (regroupRelease x v word s) := by
  unfold regroupRelease
  extract_lets t replies s₁ u put
  have hr : ∀ w, MemoryCanonical w → MemoryCanonical (replies w) := fun _ hw =>
    foldl_canonical hw fun _ _ hv => replyAll_canonical hv
  have hu : MemoryCanonical u := regrouped_canonical (hr s h)
  exact ite_holds hr (ite_holds (foldl_canonical hu fun _ _ hv => takeTrap_canonical hv) hu)

theorem execRcvWait_canonical {rg x} (h : MemoryCanonical s) : NextCanonical (execRcvWait rg x s) :=
  vamer_canonical (fun _ _ _ hu => rejoinBody_canonical (fun _ _ _ hv => ite_holds hv (by
    split
    · exact noteIssue_canonical ((regroupRelease_canonical hv).own ‹_›)
    · exact regroupRelease_canonical hv)) hu) h

theorem execRejoinRelease_canonical (h : MemoryCanonical s) : NextCanonical (execRejoinRelease s) :=
  foldl_canonical h fun _ _ hu => modCoach_canonical hu

theorem execYield_canonical {x} (h : MemoryCanonical s) : NextCanonical (execYield x s) :=
  vamer_canonical (fun _ _ _ hu => hu) h

theorem execNap_canonical {x} (h : MemoryCanonical s) : NextCanonical (execNap x s) :=
  vamer_canonical (fun _ _ _ hu => hu) h

theorem execNapDeadline_canonical (h : MemoryCanonical s) : NextCanonical (execNapDeadline s) := modFrag_canonical h

theorem icInvalidate_canonical {cl ctx b n} (h : MemoryCanonical s) : MemoryCanonical (icInvalidate s cl ctx b n) :=
  modCluster_canonical h

theorem execIcinv_canonical {x} (h : MemoryCanonical s) : NextCanonical (execIcinv x s) :=
  vamer_canonical (fun _ _ _ hu => whenSettled_canonical hu (fun _ hv => icInvalidate_canonical hv)) h

/-! ### Lane exchanges (Machine/Lanes) -/

theorem exchange_canonical {i a msk bits f} (h : MemoryCanonical s) : NextCanonical (exchange i a msk bits f s) := by
  unfold exchange
  extract_lets pv perform
  have hp : ∀ x ls u, MemoryCanonical u → ResCanonical (perform x ls u) := fun _ _ _ hu =>
    ite_canonical (wrPred_canonical (wr_canonical hu)) (wr_canonical hu)
  exact ite_holds (vamer_canonical (fun _ _ _ hu => rejoinBody_canonical hp hu) h) (vamer_canonical hp h)

theorem execShfl_canonical {w64 msk mode seg x} (h : MemoryCanonical s) :
    NextCanonical (execShfl w64 msk mode seg x s) := exchange_canonical h

theorem execVote_canonical {msk op x} (h : MemoryCanonical s) : NextCanonical (execVote msk op x s) :=
  exchange_canonical h

theorem execRedux_canonical {w64 msk op x} (h : MemoryCanonical s) : NextCanonical (execRedux w64 msk op x s) :=
  exchange_canonical h

theorem execScan_canonical {w64 msk op excl x} (h : MemoryCanonical s) : NextCanonical (execScan w64 msk op excl x s) :=
  exchange_canonical h

theorem execMatch_canonical {w64 msk all x} (h : MemoryCanonical s) : NextCanonical (execMatch_ w64 msk all x s) :=
  exchange_canonical h

theorem execBcast_canonical {w64 msk x} (h : MemoryCanonical s) : NextCanonical (execBcast w64 msk x s) :=
  exchange_canonical h

theorem execCmpct_canonical {msk x} (h : MemoryCanonical s) : NextCanonical (execCmpct msk x s) := exchange_canonical h

theorem execLperm_canonical {w64 msk x} (h : MemoryCanonical s) : NextCanonical (execLperm w64 msk x s) :=
  exchange_canonical h

/-! ### Slots, copy faults, hand-over (Machine/CopyOps) -/

theorem modMb_canonical {t rank off f} (h : MemoryCanonical s) : MemoryCanonical (modMb s t rank off f) :=
  modTrain_canonical h

theorem acceptWork_canonical {core slot train ctx rank w entry xl} (h : MemoryCanonical s) :
    MemoryCanonical (acceptWork s core slot train ctx rank w entry xl) := by
  unfold acceptWork
  dsimp only
  split
  · split
    · exact modMb_canonical (modCore_canonical h)
    · exact modCore_canonical h
  · exact modCore_canonical h

theorem trapQ_canonical {t r} (h : MemoryCanonical s) : MemoryCanonical (trapQ s t r) := by
  unfold trapQ
  split
  · exact h
  · split
    · exact setTrain_canonical h
    · exact sendReport_canonical (setTrain_canonical h)

theorem noteEndpoint_canonical {ctx reason d} (h : MemoryCanonical s) :
    MemoryCanonical (noteEndpoint s ctx reason d) := by
  unfold noteEndpoint
  split
  · exact modCtx_canonical h
  · exact h

theorem endCopyFault_canonical {core slot reason va acc} (h : MemoryCanonical s) :
    MemoryCanonical (endCopyFault s core slot reason va acc) := by
  unfold endCopyFault
  split
  · exact h
  · extract_lets index drop s₁ s₂ dma
    have h₁ : MemoryCanonical s₁ := modCore_canonical h
    have h₂ : MemoryCanonical s₂ := by
      unfold s₂
      split
      · exact noteEndpoint_canonical h₁
      · exact h₁
    split
    · exact h₂
    · exact trapQ_canonical h₂

theorem acceptList_canonical {core slot train ctx rank off cnt xl} (h : MemoryCanonical s) :
    MemoryCanonical (acceptList s core slot train ctx rank off cnt xl) := acceptWork_canonical (modCore_canonical h)

/-! ### System registers (Machine/Sysreg) -/

theorem sysSet_canonical {c n v} (h : MemoryCanonical s) : MemoryCanonical (sysSet s c n v) :=
  modSys_canonical (ite_canonical h h)

theorem countRsvw_canonical (h : MemoryCanonical s) : MemoryCanonical (countRsvw s) := modHost_canonical h

theorem sysHalfRead_canonical {c n hi} (h : MemoryCanonical s) : MemoryCanonical (sysHalfRead s c n hi).2 := by
  unfold sysHalfRead
  split
  · exact h
  · dsimp only
    split
    · exact h
    · exact modSys_canonical h

theorem sysHalfWrite_canonical {by_ c n hi v} (h : MemoryCanonical s) :
    MemoryCanonical (sysHalfWrite s by_ c n hi v) := by
  unfold sysHalfWrite
  extract_lets w s₁ w₁
  have h₁ : MemoryCanonical s₁ := ite_canonical (countRsvw_canonical h) h
  exact ite_canonical (countRsvw_canonical h) (ite_canonical (sysSet_canonical h₁) (countRsvw_canonical h₁))

/-! ### MMIO: queue registers, mailboxes, words (Machine/Mmio) -/

theorem dropRsvd_canonical {mask v} (h : MemoryCanonical s) : MemoryCanonical (dropRsvd s mask v).2 :=
  ite_canonical (countRsvw_canonical h) h

theorem qcWrite_canonical {n off v} (h : MemoryCanonical s) : MemoryCanonical (qcWrite s n off v) := by
  unfold qcWrite
  dsimp only
  split
  · exact countRsvw_canonical h
  · split
    · exact setQueue_canonical (dropRsvd_canonical h)
    · exact setQueue_canonical (dropRsvd_canonical h)
    · split
      · exact countRsvw_canonical h
      · exact setQueue_canonical (dropRsvd_canonical h)
    · exact dropRsvd_canonical h
    · exact h

theorem mboxCmd_canonical {x v} (h : MemoryCanonical s) : MemoryCanonical (mboxCmd s x v) := by
  unfold mboxCmd
  dsimp only
  split
  · exact modMbox_canonical (dropRsvd_canonical h)
  · exact modHost_canonical (modMbox_canonical (dropRsvd_canonical h))

theorem mboxWrite_canonical {x off v} (h : MemoryCanonical s) : MemoryCanonical (mboxWrite s x off v) := by
  unfold mboxWrite
  split
  · exact mboxCmd_canonical h
  · exact modMbox_canonical h
  · exact modMbox_canonical h
  · exact modMbox_canonical h
  · exact modMbox_canonical h
  · exact modMbox_canonical h
  · exact modMbox_canonical h
  · exact modMbox_canonical h
  · exact modMbox_canonical h
  · dsimp only
    split
    · exact modMbox_canonical (dropRsvd_canonical h)
    · exact dropRsvd_canonical h
  · exact dropRsvd_canonical h
  · exact modHost_canonical h
  · exact h

theorem mmioWordRead_canonical {off} (h : MemoryCanonical s) : MemoryCanonical (mmioWordRead s off).2 := by
  unfold mmioWordRead
  dsimp only
  split
  · exact h
  · split
    · exact h
    · split
      · exact h
      · split
        · exact sysHalfRead_canonical h
        · exact h

theorem mmioWordWrite_canonical {by_ off v} (h : MemoryCanonical s) : MemoryCanonical (mmioWordWrite s by_ off v) := by
  unfold mmioWordWrite
  dsimp only
  split
  · exact mboxWrite_canonical h
  · split
    · exact qcWrite_canonical h
    · split
      · exact countRsvw_canonical h
      · split
        · exact sysHalfWrite_canonical h
        · exact h

theorem mmioRead_canonical {off n} (h : MemoryCanonical s) : MemoryCanonical (mmioRead s off n).2 := by
  unfold mmioRead
  split
  · split
    · exact mmioWordRead_canonical (canonical_snd (mmioWordRead_canonical h) ‹_›)
    · exact canonical_snd (mmioWordRead_canonical h) ‹_›

theorem mmioWrite_canonical {by_ off n v} (h : MemoryCanonical s) : MemoryCanonical (mmioWrite s by_ off n v) := by
  unfold mmioWrite
  dsimp only
  split
  · exact mmioWordWrite_canonical (mmioWordWrite_canonical h)
  · exact mmioWordWrite_canonical h

/-! ### Memory instructions (Machine/MemInstr) -/

theorem xlateLanes_canonical {x acc as seen} (h : MemoryCanonical s) :
    MemoryCanonical (xlateLanes x acc as seen s).2 := by
  induction as generalizing seen s with
  | nil => exact h
  | cons a t ih =>
    unfold xlateLanes
    dsimp only
    split
    · exact ih h
    · exact ih (xlate_canonical h)

theorem orderFirst_canonical {x as n bypass} (h : MemoryCanonical s) :
    MemoryCanonical (orderFirst s x as n bypass) := by
  unfold orderFirst
  split
  · exact settleX_canonical h
  · exact h

theorem globalAccess_canonical {x acc n writes hbmOnly bypass closed as perform}
    (hperform : ∀ u as, MemoryCanonical u → MemoryCanonical (perform u as).1) (h : MemoryCanonical s) :
    ResCanonical (globalAccess x acc n writes hbmOnly bypass closed as perform s) := by
  unfold globalAccess
  split
  · trivial
  · extract_lets r ok now u p fails q
    have hr : MemoryCanonical r.2 := xlateLanes_canonical h
    have hp : MemoryCanonical p.1 := hperform _ _ (orderFirst_canonical hr)
    refine ite_holds (fun _ hv => hv) ?_
    split
    · trivial
    · exact ite_holds (fun _ hv => settleX_canonical hv) (ite_holds hp (parkLanes_canonical hp))

theorem watchAfter_canonical {x load store n as} (h : MemoryCanonical s) :
    MemoryCanonical (watchAfter s x load store n as).1 := by
  unfold watchAfter
  dsimp only
  split
  · exact h
  · exact modSys_canonical h

theorem readLanes_canonical {ctx n sx defer ls seen} (h : MemoryCanonical s) :
    MemoryCanonical (readLanes ctx n sx defer ls seen s).2 := by
  induction ls generalizing seen s with
  | nil => exact h
  | cons a t ih =>
    have hr : OptSndCanonical (if defer then none else readLoc s ctx n a.2 seen) := ite_holds trivial
      (readLoc_canonical h)
    unfold readLanes
    split
    · exact ih h
    · exact ih (hr.some ‹_›)

theorem finishLoad_canonical {x k first o} (h : MemoryCanonical s) : MemoryCanonical (finishLoad s x k first o).1 := by
  unfold finishLoad
  dsimp only
  split
  · exact wrFirst_canonical h
  · exact modCoach_canonical (wrFirst_canonical h)

theorem loadPlaces_canonical {x k defer ls} (h : MemoryCanonical s) : MemoryCanonical (loadPlaces s x k defer ls).1 :=
  finishLoad_canonical (readLanes_canonical h)

theorem mmioLanes_canonical {as n} (h : MemoryCanonical s) : MemoryCanonical (mmioLanes as n s).2 := by
  induction as generalizing s with
  | nil => exact h
  | cons a t ih => exact ih (mmioRead_canonical h)

theorem loadLanes_canonical {x k bypass as first} (h : MemoryCanonical s) :
    MemoryCanonical (loadLanes s x k bypass as first).1 :=
  watchAfter_canonical (finishLoad_canonical (readLanes_canonical (mmioLanes_canonical h)))

theorem loadGlobal_canonical {i m a byp x ls} (h : MemoryCanonical s) : ResCanonical (loadGlobal i m a byp x ls s) := by
  unfold loadGlobal
  dsimp only
  split
  · exact withAcquireLoad_canonical (countClamp_canonical h) (fun _ hu => globalAccess_canonical (fun _ _ hv =>
      loadLanes_canonical hv) hu)
  · exact globalAccess_canonical (fun _ _ hu => loadLanes_canonical hu) h

theorem execLd_canonical {m x} (h : MemoryCanonical s) : NextCanonical (execLd m x s) :=
  vamer_canonical (fun _ _ _ hu => loadGlobal_canonical hu) h

theorem execLdb_canonical {m x} (h : MemoryCanonical s) : NextCanonical (execLdb m x s) :=
  vamer_canonical (fun _ _ _ hu => loadGlobal_canonical hu) h

theorem lduBody_canonical {m a x ls} (h : MemoryCanonical s) : ResCanonical (lduBody m a x ls s) := by
  unfold lduBody
  extract_lets sc bypass l k body
  have hb : ∀ u, MemoryCanonical u → ResCanonical (body u) := fun u hu => by
    have hg := fun acc => globalAccess_canonical (x := x) (acc := acc) (n := k.bytes) (writes := false)
      (hbmOnly := false)
      (bypass := bypass) (closed := fun _ _ => false) (as := [(l, globVa u x a l)])
      (perform := fun s as => loadLanes s x k bypass as l) (fun _ _ hv => loadLanes_canonical hv) hu
    unfold body
    split
    · have hs := (hg _).done ‹_›
      split
      · exact hs
      · exact hs
    · exact hg _
  exact ite_holds (withAcquireLoad_canonical (countClamp_canonical h) hb) (hb s h)

theorem execLdu_canonical {m x} (h : MemoryCanonical s) : NextCanonical (execLdu m x s) :=
  vamer_canonical (fun _ _ _ hu => lduBody_canonical hu) h

theorem afterScr_canonical {x rank n as k} (h : MemoryCanonical s)
    (hk : ∀ u, MemoryCanonical u → ResCanonical (k u)) : ResCanonical (afterScr x rank n as s k) := by
  unfold afterScr
  dsimp only
  split
  · split
    · exact fun _ hu => settleX_canonical hu
    · exact hk _ (settleX_canonical h)
  · exact hk _ h

theorem countRank_canonical {x rank n as} (h : MemoryCanonical s) : MemoryCanonical (countRank s x rank n as) :=
  countBanks_canonical h

theorem loadScratch_canonical {i m a rank score as x} (h : MemoryCanonical s) :
    ResCanonical (loadScratch i m a rank score as x s) := by
  unfold loadScratch
  dsimp only
  split
  · trivial
  · split
    · exact fun _ hu => hu
    · split
      · exact withAcquireLoad_canonical h (fun _ hu => afterScr_canonical hu (fun _ hv => loadPlaces_canonical
          (countRank_canonical hv)))
      · exact afterScr_canonical h (fun _ hu => loadPlaces_canonical (countRank_canonical hu))

theorem execLds_canonical {m x} (h : MemoryCanonical s) : NextCanonical (execLds m x s) :=
  vamer_canonical (fun _ _ _ hu => loadScratch_canonical hu) h

theorem execLdx_canonical {m x} (h : MemoryCanonical s) : NextCanonical (execLdx m x s) :=
  vamer_canonical (fun _ _ _ hu => by
    dsimp only
    split
    · trivial
    · exact loadScratch_canonical hu) h

theorem execLdw_canonical {m x} (h : MemoryCanonical s) : NextCanonical (execLdw m x s) :=
  vamer_canonical (fun _ _ _ hu => by
    dsimp only
    split
    · trivial
    · split
      · exact fun _ hv => hv
      · exact loadPlaces_canonical hu) h

theorem sendStores_canonical {ps} (h : MemoryCanonical s) : MemoryCanonical (sendStores s ps) := by
  unfold sendStores
  dsimp only
  split
  · exact h
  · exact foldl_canonical h fun _ _ hu => tryStore_canonical hu

theorem storeThrough_canonical {x k} (h : MemoryCanonical s) : MemoryCanonical (storeThrough x s k) := by
  unfold storeThrough
  dsimp only
  split
  · exact storePlain_canonical h
  · exact storePlain_canonical h

theorem storeLanes_canonical {x bypass chan n data as} (h : MemoryCanonical s) :
    MemoryCanonical (storeLanes s x bypass chan n data as).1 := by
  unfold storeLanes
  extract_lets ks mm mem s₁ s₂
  have h₁ : MemoryCanonical s₁ := foldl_canonical h fun _ _ hu => mmioWrite_canonical hu
  have h₂ : MemoryCanonical s₂ :=
    ite_canonical (sendStores_canonical h₁) (foldl_canonical h₁ fun _ _ hu => storeThrough_canonical hu)
  exact watchAfter_canonical h₂

theorem storeGlobal_canonical {m a byp x ls} (h : MemoryCanonical s) : ResCanonical (storeGlobal m a byp x ls s) := by
  unfold storeGlobal
  dsimp only
  split
  · exact withRelease_canonical (countClamp_canonical h) (fun _ hu => globalAccess_canonical (fun _ _ hv =>
      storeLanes_canonical hv) hu)
  · exact globalAccess_canonical (fun _ _ hu => storeLanes_canonical hu) h

theorem execSt_canonical {m x} (h : MemoryCanonical s) : NextCanonical (execSt m x s) :=
  vamer_canonical (fun _ _ _ hu => storeGlobal_canonical hu) h

theorem execStb_canonical {m x} (h : MemoryCanonical s) : NextCanonical (execStb m x s) :=
  vamer_canonical (fun _ _ _ hu => storeGlobal_canonical hu) h

theorem storeScratch_canonical {m a rank score as x} (h : MemoryCanonical s) :
    ResCanonical (storeScratch m a rank score as x s) := by
  unfold storeScratch
  dsimp only
  split
  · trivial
  · split
    · exact fun _ hu => hu
    · split
      · exact withRelease_canonical h (fun _ hu => afterScr_canonical hu (fun _ hv => modTrain_canonical
          (countRank_canonical hv)))
      · exact afterScr_canonical h (fun _ hu => modTrain_canonical (countRank_canonical hu))

theorem execSts_canonical {m x} (h : MemoryCanonical s) : NextCanonical (execSts m x s) :=
  vamer_canonical (fun _ _ _ hu => storeScratch_canonical hu) h

theorem execStx_canonical {m x} (h : MemoryCanonical s) : NextCanonical (execStx m x s) :=
  vamer_canonical (fun _ _ _ hu => by
    dsimp only
    split
    · trivial
    · exact storeScratch_canonical hu) h

theorem pageOf_canonical {x va stores} (h : MemoryCanonical s) : MemoryCanonical (pageOf s x va stores).2 := by
  unfold pageOf
  split
  · exact canonical_snd (walk_canonical h) ‹_›
  · split
    · exact canonical_snd (walk_canonical h) ‹_›
    · exact canonical_snd (walk_canonical h) ‹_›

theorem prefLine_canonical {x va} (h : MemoryCanonical s) : MemoryCanonical (prefLine x s va) := by
  unfold prefLine
  split
  · exact h
  · split
    · split
      · exact fetchLine_canonical (homeAccess_canonical (canonical_snd (pageOf_canonical h) ‹_›))
      · exact canonical_snd (pageOf_canonical h) ‹_›
    · exact canonical_snd (pageOf_canonical h) ‹_›

theorem execPref_canonical {x} (h : MemoryCanonical s) : NextCanonical (execPref x s) :=
  vamer_canonical (fun _ _ _ hu => ite_canonical hu (foldl_canonical hu fun _ _ hv => prefLine_canonical hv)) h

theorem execPrefc_canonical {x} (h : MemoryCanonical s) : NextCanonical (execPrefc x s) :=
  vamer_canonical (fun _ _ _ hu => foldl_canonical hu fun _ _ hv => ite_canonical hv (by
    split
    · split
      · exact homeAccess_canonical (canonical_snd (pageOf_canonical hv) ‹_›)
      · exact canonical_snd (pageOf_canonical hv) ‹_›
    · exact canonical_snd (pageOf_canonical hv) ‹_›)) h

theorem rangeWords_canonical {x b n stores ps} (h : MemoryCanonical s) :
    MemoryCanonical (rangeWords x b n stores ps s).2 := by
  induction ps generalizing s with
  | nil => exact h
  | cons p t ih =>
    have hr : MemoryCanonical (if canonical (65536 * p) then pageOf s x (65536 * p) stores else (none, s)).2 :=
      ite_holds (P := fun r : Option (Nat × Byte) × State => MemoryCanonical r.2) (pageOf_canonical h) h
    exact ih hr

theorem cacheOp_canonical {a all stores f x ls}
    (hf : ∀ u cl ws, MemoryCanonical u → MemoryCanonical (f u cl ws)) (h : MemoryCanonical s) :
    ResCanonical (cacheOp a all stores f x ls s) := by
  unfold cacheOp
  extract_lets s₁ b n r act u
  have h₁ : MemoryCanonical s₁ := settleX_canonical h
  have hr : MemoryCanonical r.2 := ite_holds (P := fun r : List Nat × State => MemoryCanonical r.2) h₁
    (rangeWords_canonical h₁)
  exact ite_holds (fun _ hu => hu) (ite_holds (fun _ hu => hf _ _ _ hu) (hf _ _ _ hr))

theorem evictWords_canonical {cl ws} (h : MemoryCanonical s) : MemoryCanonical (evictWords s cl ws) :=
  foldl_canonical (backWords_canonical h) fun _ _ hu => ite_canonical hu (evictWord_canonical hu)

theorem discardWords_canonical {cl ws} (h : MemoryCanonical s) : MemoryCanonical (discardWords s cl ws) :=
  foldl_canonical h fun _ _ hu => discardWord_canonical hu

theorem execCinv_canonical {x} (h : MemoryCanonical s) : NextCanonical (execCinv x s) :=
  vamer_canonical (fun _ _ _ hu => cacheOp_canonical (fun _ _ _ hv => evictWords_canonical hv) hu) h

theorem execCwb_canonical {x} (h : MemoryCanonical s) : NextCanonical (execCwb x s) :=
  vamer_canonical (fun _ _ _ hu => cacheOp_canonical (fun _ _ _ hv => backWords_canonical hv) hu) h

theorem execCdisc_canonical {x} (h : MemoryCanonical s) : NextCanonical (execCdisc x s) :=
  vamer_canonical (fun _ _ _ hu => cacheOp_canonical (fun _ _ _ hv => discardWords_canonical hv) hu) h

theorem execFence_canonical {o sc x} (h : MemoryCanonical s) : NextCanonical (execFence o sc x s) :=
  vamer_canonical (fun _ _ _ hu => by
    dsimp only
    split
    · exact withRelease_canonical (countClamp_canonical hu) (fun _ hv => withAcquire_canonical hv (fun _ hw => hw))
    · exact withRelease_canonical (countClamp_canonical hu) (fun _ hv => hv)
    · exact withAcquire_canonical (countClamp_canonical hu) (fun _ hv => hv)) h

theorem execOchOpen_canonical {n x} (h : MemoryCanonical s) : NextCanonical (execOchOpen n x s) :=
  vamer_canonical (fun _ _ _ hu => modTrain_canonical hu) h

theorem drainChan_canonical {t c} (h : MemoryCanonical s) : MemoryCanonical (drainChan s t c) :=
  foldl_canonical h fun _ _ hu => tryStore_canonical hu

theorem execOchClose_canonical {n x} (h : MemoryCanonical s) : NextCanonical (execOchClose n x s) :=
  vamer_canonical (fun _ _ _ hu => ite_holds (fun _ hv => drainChan_canonical hv) (modTrain_canonical
    (drainChan_canonical hu))) h

theorem execOchSt_canonical {sz n x} (h : MemoryCanonical s) : NextCanonical (execOchSt sz n x s) :=
  vamer_canonical (fun _ _ _ hu => globalAccess_canonical (fun _ _ hv => storeLanes_canonical hv) hu) h

theorem execMdie_canonical {x} (h : MemoryCanonical s) : NextCanonical (execMdie x s) :=
  vamer_canonical (fun _ _ _ hu => by
    dsimp only
    split
    · trivial
    · split
      · exact fun _ hv => hv
      · split
        · trivial
        · split
          · exact wrFirst_canonical (xlateLanes_canonical hu)
          · exact parkLanes_canonical (wrFirst_canonical (xlateLanes_canonical hu))) h

theorem execLoadReply_canonical (h : MemoryCanonical s) : NextCanonical (execLoadReply s) := by
  unfold execLoadReply
  split
  · exact h
  · exact replyPend_canonical h

theorem execStorePerformedAtHome_canonical (h : MemoryCanonical s) : NextCanonical (execStorePerformedAtHome s) := by
  unfold execStorePerformedAtHome
  split
  · exact h
  · exact tryStore_canonical h

theorem execL1WriteBack_canonical (h : MemoryCanonical s) : NextCanonical (execL1WriteBack s) := backWords_canonical h

theorem execL1Eviction_canonical (h : MemoryCanonical s) : NextCanonical (execL1Eviction s) := evictWords_canonical h

theorem execTranslationWalk_canonical (h : MemoryCanonical s) : NextCanonical (execTranslationWalk s) :=
  walkLookup_canonical h

/-! ### Atomics (Machine/Atomics) -/

theorem stepsNow_canonical {x m ks seen} (h : MemoryCanonical s) : MemoryCanonical (stepsNow x m ks seen s).2.2 := by
  induction ks generalizing seen s with
  | nil => exact h
  | cons k t ih =>
    unfold stepsNow
    extract_lets s₁ seen₁
    have h₁ : MemoryCanonical s₁ := ite_canonical h (homeAccess_canonical h)
    split
    · exact ih (canonical_snd (homeStep_canonical h₁) ‹_›)
    · exact ih (canonical_snd (homeStep_canonical h₁) ‹_›)

theorem stepsLater_canonical {x m word dst first ks} (h : MemoryCanonical s) :
    MemoryCanonical (stepsLater x m word dst first ks s) := by
  unfold stepsLater
  split
  · exact h
  · dsimp only
    split
    · exact modCoach_canonical h
    · exact performId_canonical (foldl_canonical (modCoach_canonical h) fun _ _ hu => tryStep_canonical hu)

theorem atomLanes_canonical {x m word dst first lane as} (h : MemoryCanonical s) :
    MemoryCanonical (atomLanes x m word dst first lane s as).1 := by
  unfold atomLanes
  extract_lets n s₁ ks p s₂ r w
  have h₁ : MemoryCanonical s₁ := ite_canonical h (foldl_canonical h fun _ _ hu => tryStep_canonical hu)
  have hp : MemoryCanonical p.2.2 := stepsNow_canonical h₁
  have h₂ : MemoryCanonical s₂ := by
    unfold s₂
    split
    · exact wrFirst_canonical hp
    · exact hp
  have hr : MemoryCanonical r.1 :=
    ite_holds (P := fun r : State × Option Trap => MemoryCanonical r.1) (stepsLater_canonical h₁) h₂
  exact watchAfter_canonical hr

theorem atomOrder_canonical {x m body} (h : MemoryCanonical s)
    (hbody : ∀ u, MemoryCanonical u → ResCanonical (body u)) : ResCanonical (atomOrder x m s body) := by
  unfold atomOrder
  extract_lets acq s₁
  have h₁ : MemoryCanonical s₁ := ite_canonical h (countClamp_canonical h)
  have ha : ∀ u, MemoryCanonical u → ResCanonical (acq u) := fun u hu =>
    ite_holds (withAcquireLoad_canonical hu hbody) (hbody u hu)
  exact ite_holds (withRelease_canonical h₁ ha) (ha s₁ h₁)

theorem atomBody_canonical {i m a cas dst x ls} (h : MemoryCanonical s) :
    ResCanonical (atomBody i m a cas dst x ls s) :=
  atomOrder_canonical h (fun _ hu => globalAccess_canonical (fun _ _ hv => atomLanes_canonical hv) hu)

theorem execAtom_canonical {m x} (h : MemoryCanonical s) : NextCanonical (execAtom m x s) :=
  vamer_canonical (fun _ _ _ hu => atomBody_canonical hu) h

theorem execAtomc_canonical {m x} (h : MemoryCanonical s) : NextCanonical (execAtomc m x s) :=
  vamer_canonical (fun _ _ _ hu => atomBody_canonical hu) h

theorem execRed_canonical {m x} (h : MemoryCanonical s) : NextCanonical (execRed m x s) :=
  vamer_canonical (fun _ _ _ hu => atomBody_canonical hu) h

theorem atomOne_canonical {i m a dst val x ls} (h : MemoryCanonical s) : ResCanonical (atomOne i m a dst val x ls s) :=
  atomOrder_canonical h fun u hu => by
    have hg := fun n as perform hp => globalAccess_canonical (x := x) (acc := .atomic) (n := n) (writes := true)
      (hbmOnly := true) (bypass := true) (closed := fun _ _ => false) (as := as) (perform := perform) hp hu
    split
    · have hs := (hg _ _ _ fun _ _ hv => atomLanes_canonical hv).done ‹_›
      split
      · exact hs
      · exact hs
    · exact hg _ _ _ fun _ _ hv => atomLanes_canonical hv

theorem execAtomu_canonical {m x} (h : MemoryCanonical s) : NextCanonical (execAtomu m x s) :=
  vamer_canonical (fun _ _ _ hu => atomOne_canonical hu) h

theorem execRedu_canonical {m x} (h : MemoryCanonical s) : NextCanonical (execRedu m x s) :=
  vamer_canonical (fun _ _ _ hu => atomOne_canonical hu) h

theorem scrAtomics_canonical {x m ks} (h : MemoryCanonical s) : MemoryCanonical (scrAtomics s x m ks).2.2 := by
  unfold scrAtomics
  split
  · exact h
  · exact setTrain_canonical h

theorem atomScratch_canonical {m a cas dst x ls} (h : MemoryCanonical s) :
    ResCanonical (atomScratch m a cas dst x ls s) := by
  unfold atomScratch
  extract_lets n as ks go
  have hgo : ∀ u, MemoryCanonical u → ResCanonical (go u) := fun u hu => afterScr_canonical hu fun v hv => by
    have hr := scrAtomics_canonical (x := x) (m := m) (ks := ks)
      (countRank_canonical (x := x) (rank := x.rank) (n := n) (as := as) hv)
    split
    · exact wrFirst_canonical hr
    · exact hr
  clear_value go
  split
  · trivial
  · exact ite_holds (fun _ hu => hu) (ite_holds (withRelease_canonical h hgo) (hgo s h))

theorem execAtoms_canonical {m x} (h : MemoryCanonical s) : NextCanonical (execAtoms m x s) :=
  vamer_canonical (fun _ _ _ hu => atomScratch_canonical hu) h

theorem execAtomsc_canonical {m x} (h : MemoryCanonical s) : NextCanonical (execAtomsc m x s) :=
  vamer_canonical (fun _ _ _ hu => atomScratch_canonical hu) h

theorem execReds_canonical {m x} (h : MemoryCanonical s) : NextCanonical (execReds m x s) :=
  vamer_canonical (fun _ _ _ hu => atomScratch_canonical hu) h

theorem execHomeAtomic_canonical (h : MemoryCanonical s) : NextCanonical (execHomeAtomic s) :=
  foldl_canonical h fun _ _ hu => tryStep_canonical hu

/-! ### Barriers, barrier objects, yokes (Machine/Barriers) -/

theorem timedWait_canonical {x n cond fin} (hfin : ∀ b, ResCanonical (fin b)) :
    ResCanonical (timedWait x n cond fin s) := by
  unfold timedWait
  split
  · exact hfin _
  · exact ite_holds (hfin _) fun _ hu => modFrag_canonical hu

theorem execTimedWaitDeadline_canonical (h : MemoryCanonical s) : NextCanonical (execTimedWaitDeadline s) := by
  unfold execTimedWaitDeadline
  split
  · split
    · exact h
    · exact h
  · exact h

theorem barArrive_canonical {x b c ls} (h : MemoryCanonical s) : MemoryCanonical (barArrive s x b c ls) :=
  modTrain_canonical (ite_canonical (modCoach_canonical h) h)

theorem barBody_canonical {a sc b stay x ls} (h : MemoryCanonical s) : ResCanonical (barBody a sc b stay x ls s) := by
  unfold barBody
  dsimp only
  split
  · trivial
  · exact withRelease_canonical (countClamp_canonical h) (fun _ hu => wr_canonical (barArrive_canonical hu))

theorem execBar_canonical {sc n x} (h : MemoryCanonical s) : NextCanonical (execBar sc n x s) :=
  vamer_canonical (fun _ _ _ hu => barBody_canonical hu) h

theorem execBara_canonical {sc n x} (h : MemoryCanonical s) : NextCanonical (execBara sc n x s) :=
  vamer_canonical (fun _ _ _ hu => barBody_canonical hu) h

theorem execBarw_canonical {sc n x} (h : MemoryCanonical s) : NextCanonical (execBarw sc n x s) :=
  vamer_canonical (fun _ _ _ hu => ite_holds (withAcquireLoad_canonical (countClamp_canonical hu) (fun _ hv => hv))
    (fun _ hv => hv)) h

theorem timedResult_canonical {a sc n cond x ls} (h : MemoryCanonical s) :
    ResCanonical (timedResult a sc n cond x ls s) :=
  timedWait_canonical fun _ => ite_holds (withAcquireLoad_canonical (countClamp_canonical h) fun _ hu =>
    wr_canonical hu)
    (wr_canonical (countClamp_canonical h))

theorem execBart_canonical {sc n x} (h : MemoryCanonical s) : NextCanonical (execBart sc n x s) :=
  vamer_canonical (fun _ _ _ hu => timedResult_canonical hu) h

theorem execGbar_canonical {sy nw x} (h : MemoryCanonical s) : NextCanonical (execGbar sy nw x s) :=
  vamer_canonical (fun _ _ _ hu => ite_holds trivial (ite_holds trivial (withRelease_canonical
    (countClamp_canonical hu) (fun _ hv => wr_canonical (testLaunch_canonical (arriveLaunch_canonical
    (modCoach_canonical hv))))))) h

theorem execGbart_canonical {sy x} (h : MemoryCanonical s) : NextCanonical (execGbart sy x s) :=
  vamer_canonical (fun _ _ _ hu => ite_holds trivial (timedResult_canonical hu)) h

theorem onObject_canonical {a form x ls f} (h : MemoryCanonical s) (hf : ∀ o m, ResCanonical (f o m)) :
    ResCanonical (onObject a form x ls s f) := by
  unfold onObject
  dsimp only
  split
  · trivial
  · split
    · exact h
    · exact hf _ _

theorem execMbinit_canonical {x} (h : MemoryCanonical s) : NextCanonical (execMbinit x s) :=
  vamer_canonical (fun _ _ _ hu => ite_holds trivial (ite_holds trivial (ite_holds trivial (modTrain_canonical
    (settleX_canonical hu))))) h

theorem giveToken_canonical {x o ph ls} (h : MemoryCanonical s) : MemoryCanonical (giveToken s x o ph ls) :=
  wr_canonical h

theorem execMbarr_canonical {sc u x} (h : MemoryCanonical s) : NextCanonical (execMbarr sc u x s) :=
  vamer_canonical (fun _ _ _ hu => onObject_canonical hu (fun _ _ => ite_holds trivial (withRelease_canonical
    (countClamp_canonical hu) (fun _ hv => giveToken_canonical (modMb_canonical hv))))) h

theorem execMbexp_canonical {sc arr x} (h : MemoryCanonical s) : NextCanonical (execMbexp sc arr x s) :=
  vamer_canonical (fun _ _ _ hu => onObject_canonical hu (fun _ _ => ite_holds (modMb_canonical (settleX_canonical hu))
    (ite_holds trivial (withRelease_canonical (countClamp_canonical hu) (fun _ hv => giveToken_canonical
    (modMb_canonical hv)))))) h

theorem execMbwait_canonical {sc x} (h : MemoryCanonical s) : NextCanonical (execMbwait sc x s) :=
  vamer_canonical (fun _ _ _ hu => onObject_canonical hu (fun _ _ => ite_holds (withAcquireLoad_canonical
    (countClamp_canonical hu) (fun _ hv => hv)) (fun _ hv => hv))) h

theorem execMbtry_canonical {sc x} (h : MemoryCanonical s) : NextCanonical (execMbtry sc x s) :=
  vamer_canonical (fun _ _ _ hu => onObject_canonical hu (fun _ _ => ite_holds (withAcquireLoad_canonical
    (countClamp_canonical hu) (fun _ hv => wr_canonical hv)) (wr_canonical (countClamp_canonical hu)))) h

theorem execMbtw_canonical {sc x} (h : MemoryCanonical s) : NextCanonical (execMbtw sc x s) :=
  vamer_canonical (fun _ _ _ hu => onObject_canonical hu (fun _ _ => timedResult_canonical hu)) h

theorem execYokeDecl_canonical {x} (h : MemoryCanonical s) : NextCanonical (execYokeDecl x s) :=
  vamer_canonical (fun _ _ _ hu => ite_holds trivial (ite_holds (fun _ hv => hv) (modTrain_canonical hu))) h

theorem execYokeRst_canonical {x} (h : MemoryCanonical s) : NextCanonical (execYokeRst x s) :=
  vamer_canonical (fun _ _ _ hu => modTrain_canonical hu) h

/-! ### Casks (Machine/Casks) -/

theorem onTarget_canonical {a need x f} (h : MemoryCanonical s)
    (hf : ∀ k c u, MemoryCanonical u → ResCanonical (f k c u)) : ResCanonical (onTarget a need x s f) := by
  unfold onTarget
  split
  · trivial
  · exact ite_holds (hf _ _ _ h) fun _ hu => hu

theorem caskRead_canonical {c ls s'} (h : MemoryCanonical s) (h' : MemoryCanonical s') :
    ResCanonical (caskRead c ls s s') := by
  unfold caskRead
  split
  · exact h
  · exact h'

theorem releasing_canonical {a x f} (h : MemoryCanonical s) : ResCanonical (releasing a x s f) :=
  onTarget_canonical h (fun _ _ _ hu => withRelease_canonical hu (fun _ hv => caskPut_canonical hv))

theorem execCkfill_canonical {w64 n x} (h : MemoryCanonical s) : NextCanonical (execCkfill w64 n x s) :=
  vamer_canonical (fun _ _ _ hu => releasing_canonical hu) h

theorem execCkdraw_canonical {w64 x} (h : MemoryCanonical s) : NextCanonical (execCkdraw w64 x s) :=
  vamer_canonical (fun _ _ _ hu => onTarget_canonical hu (fun _ _ _ hv => caskRead_canonical (caskPut_canonical hv)
    (wr_canonical (caskPut_canonical hv)))) h

theorem execCkpeek_canonical {w64 x} (h : MemoryCanonical s) : NextCanonical (execCkpeek w64 x s) :=
  vamer_canonical (fun _ _ _ hu => onTarget_canonical hu (fun _ _ _ hv => caskRead_canonical hv (wr_canonical hv))) h

theorem execCktry_canonical {w64 obs pd x} (h : MemoryCanonical s) : NextCanonical (execCktry w64 obs pd x s) :=
  vamer_canonical (fun _ _ _ hu => by
    split
    · trivial
    · dsimp only
      split
      · exact wrPred_canonical hu
      · split
        · exact fun _ hv => hv
        · exact caskRead_canonical (ite_canonical hu (caskPut_canonical hu)) (wrPred_canonical (wr_canonical
            (ite_canonical hu (caskPut_canonical hu))))) h

theorem execCkseed_canonical {op x} (h : MemoryCanonical s) : NextCanonical (execCkseed op x s) :=
  vamer_canonical (fun _ _ _ hu => ite_holds trivial (releasing_canonical hu)) h

theorem execCkred_canonical {op w64 x} (h : MemoryCanonical s) : NextCanonical (execCkred op w64 x s) :=
  vamer_canonical (fun _ _ _ hu => onTarget_canonical hu (fun _ _ _ hv => ite_holds trivial (withRelease_canonical hv
    (fun _ hw => caskRead_canonical hw (caskPut_canonical hw))))) h

theorem execCkclr_canonical {x} (h : MemoryCanonical s) : NextCanonical (execCkclr x s) :=
  vamer_canonical (fun _ _ _ hu => by
    split
    · trivial
    · exact caskPut_canonical hu) h

theorem execCkstat_canonical {x} (h : MemoryCanonical s) : NextCanonical (execCkstat x s) :=
  vamer_canonical (fun _ _ _ hu => by
    split
    · trivial
    · exact wr_canonical hu) h

theorem execCaskRetry_canonical (h : MemoryCanonical s) : NextCanonical (execCaskRetry s) := by
  unfold execCaskRetry
  dsimp only
  split
  · exact h
  · exact h

/-! ### Copies (Machine/Copy) -/

theorem hostWrite_canonical {bus bs} (h : MemoryCanonical s) : MemoryCanonical (hostWrite s bus bs) :=
  modHost_canonical h

theorem hostPoison_canonical {bus bad} (h : MemoryCanonical s) : MemoryCanonical (hostPoison s bus bad) := by
  unfold hostPoison
  split
  · exact h
  · exact modHost_canonical h

theorem withSlot_canonical {x f} (hf : ∀ k, ResCanonical (f k)) : ResCanonical (withSlot x s f) := by
  unfold withSlot
  split
  · exact fun _ hu => by
      split
      · exact hu
      · exact countEvent_canonical hu
  · exact hf _

theorem handCopy_canonical {d kinds x} (h : MemoryCanonical s) : ResCanonical (handCopy d kinds x s) := by
  unfold handCopy
  dsimp only
  split
  · trivial
  · exact withSlot_canonical fun _ => withRelease_canonical h fun _ hu => acceptWork_canonical hu

theorem execCpy_canonical {kind xe x} (h : MemoryCanonical s) : NextCanonical (execCpy kind xe x s) :=
  vamer_canonical (fun _ _ _ hu => handCopy_canonical hu) h

theorem execCpyf_canonical {xe x} (h : MemoryCanonical s) : NextCanonical (execCpyf xe x s) :=
  vamer_canonical (fun _ _ _ hu => handCopy_canonical hu) h

theorem execCpyp_canonical {x} (h : MemoryCanonical s) : NextCanonical (execCpyp x s) :=
  vamer_canonical (fun _ _ _ hu => ite_holds trivial (ite_holds trivial (ite_holds (fun _ hv => hv) (ite_holds hu
    (handCopy_canonical hu))))) h

theorem handList_canonical {a xl x ls} (h : MemoryCanonical s) : ResCanonical (handList a xl x ls s) := by
  unfold handList
  dsimp only
  split
  · trivial
  · exact withSlot_canonical fun _ => withRelease_canonical h fun _ hu => acceptList_canonical hu

theorem execCpyl_canonical {x} (h : MemoryCanonical s) : NextCanonical (execCpyl x s) :=
  vamer_canonical (fun _ _ _ hu => handList_canonical hu) h

theorem execXcpyl_canonical {x} (h : MemoryCanonical s) : NextCanonical (execXcpyl x s) :=
  vamer_canonical (fun _ _ _ hu => handList_canonical hu) h

theorem execCpyq_canonical {x} (h : MemoryCanonical s) : NextCanonical (execCpyq x s) :=
  vamer_canonical (fun _ _ _ hu => wr_canonical hu) h

theorem execCpwait_canonical {sc x} (h : MemoryCanonical s) : NextCanonical (execCpwait sc x s) :=
  vamer_canonical (fun _ _ _ hu => ite_holds (withAcquireLoad_canonical (countClamp_canonical hu) (fun _ hv => hv))
    (fun _ hv => hv)) h

theorem execXcpy_canonical {dirIn ls xe kr x} (h : MemoryCanonical s) : NextCanonical (execXcpy dirIn ls xe kr x s) :=
  vamer_canonical (fun _ _ _ hu => handCopy_canonical hu) h

theorem execXstat_canonical {x} (h : MemoryCanonical s) : NextCanonical (execXstat x s) :=
  vamer_canonical (fun _ _ _ hu => wr_canonical hu) h

theorem copyXlate_canonical {core sl d va acc host} (h : MemoryCanonical s) :
    ChunkCanonical (copyXlate s core sl d va acc host) := by
  have hx := xlate_canonical (cl := core / 4) (core := some core) (c := sl.ctx) (va0 := va) (acc := acc)
    (replay := sl.refault) (host := true) h
  unfold copyXlate
  extract_lets a
  refine ite_holds h ?_
  split
  · have hu := canonical_snd hx ‹_›
    exact ite_holds (ite_holds hu hu)
      (ite_holds (ite_holds hu (ite_holds hu hu)) (ite_holds hu (ite_holds hu hu)))
  · exact countEvent_canonical (canonical_snd hx ‹_›)
  · trivial
  · exact bufferEntry_canonical (addMark_canonical (canonical_snd hx ‹_›))
  · exact sendReport_canonical (canonical_snd hx ‹_›)

theorem peerCheck_canonical {sl a acc} (h : MemoryCanonical s) : ChunkCanonical (peerCheck s sl a acc) := by
  unfold peerCheck
  split
  · exact h
  · split
    · exact h
    · split
      · exact h
      · exact h

theorem hostCheck_canonical {sl va acc} (h : MemoryCanonical s) : ChunkCanonical (hostCheck s sl va acc) := by
  unfold hostCheck
  split
  · exact h
  · exact h

theorem homeUnit_canonical {sl ma} (h : MemoryCanonical s) : MemoryCanonical (homeUnit s sl ma) := by
  unfold homeUnit
  split
  · exact homeAccess_canonical h
  · exact h

theorem cellarChunk_canonical {die off} (h : MemoryCanonical s) : ChunkCanonical (cellarChunk s die off) := by
  unfold cellarChunk
  split
  · trivial
  · exact h

theorem readChunk_canonical {core sl d o} (h : MemoryCanonical s) : ChunkCanonical (readChunk s core sl d o) := by
  unfold readChunk
  split
  · exact h
  · split
    · exact h
    · trivial
  · split
    · exact h
    · trivial
  · exact cellarChunk_canonical h
  · have hx := copyXlate_canonical (core := core) (sl := sl) (d := d) (va := o) (acc := .copyRead) (host := false) h
    split
    · have hs := hx.ok ‹_›
      exact ite_holds (cellarChunk_canonical hs) (loadBypass_canonical (homeUnit_canonical hs))
    · trivial
    · exact hx.fault ‹_›
    · exact hx.fail ‹_›
  · split
    · have hp := peerCheck_canonical (sl := sl) (a := o) (acc := 4) h
      split
      · next e => exact (hp.ok e :)
      · trivial
      · exact hp.fault ‹_›
      · exact hp.fail ‹_›
    · have hx := copyXlate_canonical (core := core) (sl := sl) (d := d) (va := o) (acc := .copyRead) (host := true) h
      split
      · have hc := hostCheck_canonical (sl := sl) (va := o) (acc := 4) (hx.ok ‹_›)
        split
        · exact hc.ok ‹_›
        · trivial
        · exact hc.fault ‹_›
        · exact hc.fail ‹_›
      · trivial
      · exact hx.fault ‹_›
      · exact hx.fail ‹_›
  · trivial

theorem homeChunk_canonical {cl ma g key} (h : MemoryCanonical s) : MemoryCanonical (homeChunk s cl ma g key) :=
  foldl_canonical (storeBypass_canonical h) fun _ _ hu => storeBypass_canonical hu

theorem writeChunk_canonical {core sl d o g} (h : MemoryCanonical s) : ChunkCanonical (writeChunk s core sl d o g) := by
  unfold writeChunk
  split
  · exact modTrain_canonical h
  · exact modTrain_canonical h
  · have hx := copyXlate_canonical (core := core) (sl := sl) (d := d) (va := o) (acc := .copyWrite) (host := false) h
    split
    · exact homeChunk_canonical (homeUnit_canonical (hx.ok ‹_›))
    · trivial
    · exact hx.fault ‹_›
    · exact hx.fail ‹_›
  · split
    · exact peerCheck_canonical h
    · have hx := copyXlate_canonical (core := core) (sl := sl) (d := d) (va := o) (acc := .copyWrite) (host := true) h
      split
      · have hc := hostCheck_canonical (sl := sl) (va := o) (acc := 5) (hx.ok ‹_›)
        split
        · exact hostPoison_canonical (hostWrite_canonical (hc.ok ‹_›))
        · trivial
        · exact hc.fault ‹_›
        · exact hc.fail ‹_›
      · trivial
      · exact hx.fault ‹_›
      · exact hx.fail ‹_›
  · trivial

theorem moveChunk_canonical {core sl d k} (h : MemoryCanonical s) : ChunkCanonical (moveChunk s core sl d k) := by
  unfold moveChunk
  split
  · split
    · exact (readChunk_canonical h).ok ‹_›
    · exact writeChunk_canonical ((readChunk_canonical h).ok ‹_›)
  · trivial
  · exact (readChunk_canonical h).fault ‹_›
  · exact (readChunk_canonical h).fail ‹_›

theorem modSlot_canonical {core slot f} (h : MemoryCanonical s) : MemoryCanonical (modSlot s core slot f) :=
  modCore_canonical h

theorem countPeer_canonical {c n} (h : MemoryCanonical s) : MemoryCanonical (countPeer s c n) := countEvent_canonical h

theorem boundaryUnit_canonical {sl d} (h : MemoryCanonical s) : MemoryCanonical (boundaryUnit s sl d) := by
  unfold boundaryUnit
  split
  · exact h
  · dsimp only
    split
    · exact countPeer_canonical (charge_canonical h)
    · exact countEvent_canonical (charge_canonical h)

theorem moveChunks_canonical {core slot ks} (h : MemoryCanonical s) : MemoryCanonical (moveChunks core slot ks s) := by
  induction ks generalizing s with
  | nil => exact h
  | cons k ks ih =>
    unfold moveChunks
    split
    · exact h
    · split
      · exact h
      · refine ite_canonical h (ite_canonical (ih h) ?_)
        split
        · exact ih h
        · exact ih (boundaryUnit_canonical (modSlot_canonical ((moveChunk_canonical h).ok ‹_›)))
        · exact modSlot_canonical ((moveChunk_canonical h).fault ‹_›)
        · exact endCopyFault_canonical ((moveChunk_canonical h).fail ‹_›)

theorem execCopyChunkTransfer_canonical (h : MemoryCanonical s) : NextCanonical (execCopyChunkTransfer s) :=
  moveChunks_canonical h

theorem freeSlotOf_canonical {core slot} (h : MemoryCanonical s) : MemoryCanonical (freeSlotOf s core slot) :=
  modCore_canonical h

theorem execByteArrival_canonical (h : MemoryCanonical s) : NextCanonical (execByteArrival s) := by
  unfold execByteArrival
  extract_lets core k
  split
  · exact h
  · split
    · exact h
    · extract_lets n s₁ s₂
      have h₁ : MemoryCanonical s₁ := ite_canonical (releaseEvent_canonical h) h
      have h₂ : MemoryCanonical s₂ := modMb_canonical h₁
      exact ite_canonical h (ite_canonical (freeSlotOf_canonical h₂) (modSlot_canonical h₂))

theorem execCopyRetire_canonical (h : MemoryCanonical s) : NextCanonical (execCopyRetire s) := by
  unfold execCopyRetire
  split
  · exact h
  · split
    · exact h
    · exact ite_canonical (freeSlotOf_canonical h) h

theorem execRemoteAck_canonical (h : MemoryCanonical s) : NextCanonical (execRemoteAck s) := by
  unfold execRemoteAck
  split
  · exact h
  · split
    · exact h
    · exact ite_canonical h (ite_canonical (modSlot_canonical h) (endCopyFault_canonical h))

theorem execPriResponse_canonical (h : MemoryCanonical s) : NextCanonical (execPriResponse s) := by
  unfold execPriResponse
  split
  · exact h
  · split
    · exact h
    · exact ite_canonical h (endCopyFault_canonical h)

theorem failEntry_canonical {core slot sl reason index xl d} (h : MemoryCanonical s) :
    MemoryCanonical (failEntry s core slot sl reason index xl d) := by
  unfold failEntry
  dsimp only
  split
  · exact trapQ_canonical (noteEndpoint_canonical (freeSlotOf_canonical h))
  · exact noteEndpoint_canonical (freeSlotOf_canonical h)

theorem execListEntryAccept_canonical (h : MemoryCanonical s) : NextCanonical (execListEntryAccept s) := by
  unfold execListEntryAccept
  split
  · exact h
  · split
    · extract_lets d reason last s₁
      have h₁ : MemoryCanonical s₁ := ite_canonical (freeSlotOf_canonical h) (modSlot_canonical h)
      clear_value reason s₁
      refine ite_holds (failEntry_canonical h) ?_
      split
      · exact h
      · exact acceptWork_canonical h₁
    · exact h

/-! ### Conversions (Machine/Formats) -/

theorem rounded_canonical {o bits n rm f x ls} (h : MemoryCanonical s) : ResCanonical (rounded o bits n rm f x ls s) :=
  wr_canonical (modCoach_canonical h)

theorem execCvt_canonical {df sf rm sat x} (h : MemoryCanonical s) : NextCanonical (execCvt df sf rm sat x s) :=
  vamer_canonical (fun _ _ _ hu => rounded_canonical hu) h

theorem execF2i_canonical {sf iw u rm x} (h : MemoryCanonical s) : NextCanonical (execF2i sf iw u rm x s) :=
  vamer_canonical (fun _ _ _ hu => lanewise_canonical hu) h

theorem execI2f_canonical {df iw u rm sat x} (h : MemoryCanonical s) : NextCanonical (execI2f df iw u rm sat x s) :=
  vamer_canonical (fun _ _ _ hu => rounded_canonical hu) h

theorem execI2i_canonical {dw du sw su sat x} (h : MemoryCanonical s) : NextCanonical (execI2i dw du sw su sat x s) :=
  vamer_canonical (fun _ _ _ hu => lanewise_canonical hu) h

theorem execPack_canonical {df pos rm sat x} (h : MemoryCanonical s) : NextCanonical (execPack df pos rm sat x s) :=
  vamer_canonical (fun _ _ _ hu => rounded_canonical hu) h

theorem execUnpk_canonical {sf pos x} (h : MemoryCanonical s) : NextCanonical (execUnpk sf pos x s) :=
  vamer_canonical (fun _ _ _ hu => lanewise_canonical hu) h

theorem execQnt_canonical {df pos rm fs x} (h : MemoryCanonical s) : NextCanonical (execQnt df pos rm fs x s) :=
  vamer_canonical (fun _ _ _ hu => rounded_canonical hu) h

theorem execDqnt_canonical {sf pos rm fs x} (h : MemoryCanonical s) : NextCanonical (execDqnt sf pos rm fs x s) :=
  vamer_canonical (fun _ _ _ hu => rounded_canonical hu) h

theorem execBscale_canonical {df x} (h : MemoryCanonical s) : NextCanonical (execBscale df x s) :=
  vamer_canonical (fun _ _ _ hu => lanewise_canonical hu) h

theorem execBmax_canonical {g x} (h : MemoryCanonical s) : NextCanonical (execBmax g x s) :=
  vamer_canonical (fun _ _ _ hu => wr_canonical hu) h

theorem execBytx_canonical {x} (h : MemoryCanonical s) : NextCanonical (execBytx x s) :=
  vamer_canonical (fun _ _ _ hu => lanewise_canonical hu) h

theorem execSrstep_canonical {x} (h : MemoryCanonical s) : NextCanonical (execSrstep x s) :=
  vamer_canonical (fun _ _ _ hu => wr_canonical (modCoach_canonical hu)) h

/-! ### Floating-point arithmetic (Machine/FloatArith) -/

theorem farith_canonical {m x f x' ls} (h : MemoryCanonical s) : ResCanonical (farith m x f x' ls s) :=
  rounded_canonical h

theorem execFadd_canonical {m x} (h : MemoryCanonical s) : NextCanonical (execFadd m x s) :=
  vamer_canonical (fun _ _ _ hu => farith_canonical hu) h

theorem execFsub_canonical {m x} (h : MemoryCanonical s) : NextCanonical (execFsub m x s) :=
  vamer_canonical (fun _ _ _ hu => farith_canonical hu) h

theorem execFmul_canonical {m x} (h : MemoryCanonical s) : NextCanonical (execFmul m x s) :=
  vamer_canonical (fun _ _ _ hu => farith_canonical hu) h

theorem execFfma_canonical {m x} (h : MemoryCanonical s) : NextCanonical (execFfma m x s) :=
  vamer_canonical (fun _ _ _ hu => farith_canonical hu) h

theorem execFfms_canonical {m x} (h : MemoryCanonical s) : NextCanonical (execFfms m x s) :=
  vamer_canonical (fun _ _ _ hu => farith_canonical hu) h

theorem execFnma_canonical {m x} (h : MemoryCanonical s) : NextCanonical (execFnma m x s) :=
  vamer_canonical (fun _ _ _ hu => farith_canonical hu) h

theorem execFdp2_canonical {m x} (h : MemoryCanonical s) : NextCanonical (execFdp2 m x s) :=
  vamer_canonical (fun _ _ _ hu => rounded_canonical hu) h

theorem execFdiv_canonical {m x} (h : MemoryCanonical s) : NextCanonical (execFdiv m x s) :=
  vamer_canonical (fun _ _ _ hu => farith_canonical hu) h

theorem felems_canonical {t x f x' ls} (h : MemoryCanonical s) : ResCanonical (felems t x f x' ls s) :=
  lanewise_canonical h

theorem execFmin_canonical {m nan x} (h : MemoryCanonical s) : NextCanonical (execFmin m nan x s) :=
  vamer_canonical (fun _ _ _ hu => felems_canonical hu) h

theorem execFmax_canonical {m nan x} (h : MemoryCanonical s) : NextCanonical (execFmax m nan x s) :=
  vamer_canonical (fun _ _ _ hu => felems_canonical hu) h

theorem execFabs_canonical {m x} (h : MemoryCanonical s) : NextCanonical (execFabs m x s) :=
  vamer_canonical (fun _ _ _ hu => felems_canonical hu) h

theorem execFneg_canonical {m x} (h : MemoryCanonical s) : NextCanonical (execFneg m x s) :=
  vamer_canonical (fun _ _ _ hu => felems_canonical hu) h

theorem execFsgn_canonical {m sm x} (h : MemoryCanonical s) : NextCanonical (execFsgn m sm x s) :=
  vamer_canonical (fun _ _ _ hu => felems_canonical hu) h

theorem execFcmp_canonical {m cond x} (h : MemoryCanonical s) : NextCanonical (execFcmp m cond x s) :=
  vamer_canonical (fun _ _ _ hu => lanewise_canonical hu) h

theorem execFclass_canonical {m x} (h : MemoryCanonical s) : NextCanonical (execFclass m x s) :=
  vamer_canonical (fun _ _ _ hu => lanewise_canonical hu) h

theorem execFrint_canonical {m x} (h : MemoryCanonical s) : NextCanonical (execFrint m x s) :=
  vamer_canonical (fun _ _ _ hu => rounded_canonical hu) h

theorem execFscale_canonical {m x} (h : MemoryCanonical s) : NextCanonical (execFscale m x s) :=
  vamer_canonical (fun _ _ _ hu => rounded_canonical hu) h

theorem execFgetx_canonical {m x} (h : MemoryCanonical s) : NextCanonical (execFgetx m x s) :=
  vamer_canonical (fun _ _ _ hu => lanewise_canonical hu) h

theorem execFgetm_canonical {m x} (h : MemoryCanonical s) : NextCanonical (execFgetm m x s) :=
  vamer_canonical (fun _ _ _ hu => lanewise_canonical hu) h

theorem execFsel_canonical {w64 sp neg x} (h : MemoryCanonical s) : NextCanonical (execFsel w64 sp neg x s) :=
  vamer_canonical (fun _ _ _ hu => lanewise_canonical hu) h

/-! ### Matrix instructions (Machine/Matrix) -/

theorem mmaIssue_canonical {x i a m fm y} (h : MemoryCanonical s) : MemoryCanonical (mmaIssue s x i a m fm y) := by
  unfold mmaIssue
  split
  · exact h
  · exact h

theorem signBody_canonical {i m a x ls} (h : MemoryCanonical s) : ResCanonical (signBody i m a x ls s) := by
  unfold signBody
  dsimp only
  split
  · exact fun _ hu => hu
  · split
    · trivial
    · exact withRelease_canonical h (fun _ hu => ite_canonical (mmaIssue_canonical hu) (modTrain_canonical hu))

theorem execMma_canonical {m x} (h : MemoryCanonical s) : NextCanonical (execMma m x s) :=
  vamer_canonical (fun _ _ _ hu => signBody_canonical hu) h

theorem execMmag_canonical {m x} (h : MemoryCanonical s) : NextCanonical (execMmag m x s) :=
  vamer_canonical (fun _ _ _ hu => signBody_canonical hu) h

theorem execMmaw_canonical {m g x} (h : MemoryCanonical s) : NextCanonical (execMmaw m g x s) :=
  vamer_canonical (fun _ _ _ hu => signBody_canonical hu) h

theorem setLatch_canonical {train rank core r} (h : MemoryCanonical s) :
    MemoryCanonical (setLatch s train rank core r) := by
  unfold setLatch
  split
  · exact h
  · exact modTrain_canonical h

theorem performMma_canonical {train rank k} (h : MemoryCanonical s) : MemoryCanonical (performMma s train rank k) := by
  unfold performMma
  split
  · exact h
  · dsimp only
    split
    · exact h
    · split
      · exact h
      · exact modTrain_canonical (setLatch_canonical (ite_canonical (modSys_canonical h) h))

theorem execMmaPerform_canonical (h : MemoryCanonical s) : NextCanonical (execMmaPerform s) := performMma_canonical h

theorem onTiles_canonical {tiles received x f} (h : MemoryCanonical s)
    (hf : ∀ u, MemoryCanonical u → ResCanonical (f u)) : ResCanonical (onTiles tiles received x s f) :=
  ite_holds (fun _ hu => hu) (hf _ (settleX_canonical h))

theorem execAwait_canonical {x} (h : MemoryCanonical s) : NextCanonical (execAwait x s) :=
  vamer_canonical (fun _ _ _ hu => ite_holds (fun _ hv => hv) (withAcquireLoad_canonical hu (fun _ hv => hv))) h

theorem putTile_canonical {x tile f} (h : MemoryCanonical s) : MemoryCanonical (putTile s x tile f) :=
  modTrain_canonical h

theorem execAclr_canonical {x} (h : MemoryCanonical s) : NextCanonical (execAclr x s) :=
  vamer_canonical (fun _ _ _ hu => onTiles_canonical hu (fun _ hv => putTile_canonical hv)) h

theorem execAmov_canonical {x} (h : MemoryCanonical s) : NextCanonical (execAmov x s) :=
  vamer_canonical (fun _ _ _ hu => onTiles_canonical hu (fun _ hv => putTile_canonical hv)) h

theorem execAadd_canonical {int x} (h : MemoryCanonical s) : NextCanonical (execAadd int x s) :=
  vamer_canonical (fun _ _ _ hu => onTiles_canonical hu (fun _ hv => putTile_canonical hv)) h

theorem execAdrop_canonical {x} (h : MemoryCanonical s) : NextCanonical (execAdrop x s) :=
  vamer_canonical (fun _ _ _ hu => onTiles_canonical hu (fun _ hv => modTrain_canonical (putTile_canonical hv))) h

theorem execMscl_canonical {x} (h : MemoryCanonical s) : NextCanonical (execMscl x s) :=
  vamer_canonical (fun _ _ _ hu => onTiles_canonical hu (fun _ hv => putTile_canonical hv)) h

theorem tileAt_canonical {a bytes x ls f} (h : MemoryCanonical s)
    (hf : ∀ o u, MemoryCanonical u → ResCanonical (f o u)) : ResCanonical (tileAt a bytes x ls s f) := by
  unfold tileAt
  dsimp only
  split
  · trivial
  · split
    · trivial
    · split
      · exact fun _ hu => hu
      · exact onTiles_canonical h (hf _)

theorem execAld_canonical {x} (h : MemoryCanonical s) : NextCanonical (execAld x s) :=
  vamer_canonical (fun _ _ _ hu => tileAt_canonical hu (fun _ _ hv => putTile_canonical hv)) h

theorem tileStore_canonical {x ls es} (h : MemoryCanonical s) : MemoryCanonical (tileStore s x ls es) :=
  modTrain_canonical h

theorem execAst_canonical {x} (h : MemoryCanonical s) : NextCanonical (execAst x s) :=
  vamer_canonical (fun _ _ _ hu => tileAt_canonical hu (fun _ _ hv => tileStore_canonical hv)) h

theorem execAcvt_canonical {df int rm sat x} (h : MemoryCanonical s) : NextCanonical (execAcvt df int rm sat x s) :=
  vamer_canonical (fun _ _ _ hu => tileAt_canonical hu (fun _ _ hv => tileStore_canonical (modCoach_canonical hv))) h

/-! ### Cards (Machine/Cards) -/

theorem addRecords_canonical {ctx c} (h : MemoryCanonical s) : OptCanonical (addRecords s ctx c) := by
  unfold addRecords
  split
  · exact h
  · exact levelAdd_canonical h

theorem deviceWrite_canonical {ma bs} (h : MemoryCanonical s) : MemoryCanonical (deviceWrite s ma bs) :=
  homeWrite_canonical (tagFrame_canonical (foldl_canonical h fun _ _ hu => dropOwner_canonical hu))

theorem cardGone_canonical {n p} (h : MemoryCanonical s) : MemoryCanonical (cardGone s n p) := by
  unfold cardGone
  dsimp only
  split
  · exact setQueue_canonical h
  · split
    · exact setQueue_canonical h
    · exact h

theorem placeCard_canonical {n p ctx depth c raw} (h : MemoryCanonical s) :
    MemoryCanonical (placeCard s n p ctx depth c raw) := by
  unfold placeCard
  dsimp only
  split
  · exact setQueue_canonical (deviceWrite_canonical h)
  · exact setQueue_canonical h

theorem acceptCard_canonical {n p ctx o c raw} (h : MemoryCanonical s) :
    MemoryCanonical (acceptCard s n p ctx o c raw) := placeCard_canonical (getD_canonical (addRecords_canonical h) h)

theorem dropCard_canonical {n p} (h : MemoryCanonical s) : MemoryCanonical (dropCard s n p) := by
  unfold dropCard
  split
  · exact h
  · exact testLaunch_canonical (cardGone_canonical (levelSub_canonical h))

theorem refuseCard_canonical {n p code} (h : MemoryCanonical s) : MemoryCanonical (refuseCard s n p code) := by
  unfold refuseCard
  split
  · exact h
  · exact dropCard_canonical (levelCode_canonical h)

theorem claimCard_canonical {n p} (h : MemoryCanonical s) : MemoryCanonical (claimCard s n p).2 := by
  unfold claimCard
  split
  · exact h
  · extract_lets c s₁ s₂
    have h₁ : MemoryCanonical s₁ := setQueue_canonical h
    have h₂ : MemoryCanonical s₂ := ite_canonical (cardGone_canonical h₁) h₁
    split
    · exact dropCard_canonical h
    · exact countEvent_canonical h₂

theorem onCard_canonical {x va ls f} (h : MemoryCanonical s)
    (hf : ∀ bs u, MemoryCanonical u → ResCanonical (f bs u)) : ResCanonical (onCard x va ls s f) := by
  have hx := xlate_canonical (cl := x.cluster) (core := x.coreTlb) (c := x.ctx) (va0 := va) (acc := .load)
    (replay := x.fr.replay) (host := true) h
  unfold onCard
  extract_lets bad
  refine ite_holds trivial (ite_holds trivial ?_)
  split
  · refine ite_holds trivial (ite_holds trivial ?_)
    split
    · exact fun _ hu => hu
    · have hu := (loadGlob_canonical (canonical_snd hx ‹_›)).some ‹_›
      exact ite_holds hu (hf _ _ hu)
  · exact fun _ hu => hu
  · exact parkLanes_canonical (canonical_snd hx ‹_›)

/-! ### Enqueues, claims, levels (Machine/Tasks) -/

theorem give_canonical {x a ls n} (h : MemoryCanonical s) : ResCanonical (give x a ls n s) := wr_canonical h

theorem waitQueue_canonical {w r} (h : ResCanonical r) : ResCanonical (waitQueue w r) := by
  cases r with
  | done | goOn | wait | trap | own => exact h

theorem enqBody_canonical {a offer limit x ls} (h : MemoryCanonical s) :
    ResCanonical (enqBody a offer limit x ls s) := by
  unfold enqBody
  extract_lets l q o w
  refine onCard_canonical h fun bs u hu => ite_holds (give_canonical hu) ?_
  extract_lets d
  clear_value d
  split
  · exact waitQueue_canonical (withRelease_canonical hu fun _ hv => give_canonical (acceptCard_canonical hv))
  · exact ite_holds (give_canonical hu) fun v hv => modFrag_canonical (by
      split
      · exact ite_canonical (structConflict_canonical hv) hv
      · exact hv)

theorem execEnq_canonical {x} (h : MemoryCanonical s) : NextCanonical (execEnq x s) :=
  vamer_canonical (fun _ _ _ hu => enqBody_canonical hu) h

theorem execEnqt_canonical {x} (h : MemoryCanonical s) : NextCanonical (execEnqt x s) :=
  vamer_canonical (fun _ _ _ hu => enqBody_canonical hu) h

theorem execSpawn_canonical {x} (h : MemoryCanonical s) : NextCanonical (execSpawn x s) :=
  vamer_canonical (fun _ _ _ hu => enqBody_canonical hu) h

theorem execCfill_canonical {x} (h : MemoryCanonical s) : NextCanonical (execCfill x s) :=
  vamer_canonical (fun _ _ _ hu => enqBody_canonical hu) h

theorem execQpubRsv_canonical {x} (h : MemoryCanonical s) : NextCanonical (execQpubRsv x s) :=
  vamer_canonical (fun _ _ _ hu => ite_holds (give_canonical hu) (give_canonical (setQueue_canonical hu))) h

theorem publish_canonical {x a ls n i} (h : MemoryCanonical s) : ResCanonical (publish x a ls n i s) := by
  unfold publish
  split
  · exact give_canonical (cardGone_canonical h)
  · dsimp only
    split
    · exact give_canonical (cardGone_canonical h)
    · exact give_canonical (acceptCard_canonical h)

theorem qpubBody_canonical {x a ls n i} (h : MemoryCanonical s) : ResCanonical (qpubBody x a ls n i s) := by
  unfold qpubBody
  split
  · exact give_canonical h
  · exact withRelease_canonical h (fun _ hu => publish_canonical hu)

theorem execQpub_canonical {x} (h : MemoryCanonical s) : NextCanonical (execQpub x s) :=
  vamer_canonical (fun _ _ _ hu => qpubBody_canonical hu) h

theorem execQclaim_canonical {x} (h : MemoryCanonical s) : NextCanonical (execQclaim x s) :=
  vamer_canonical (fun _ _ _ hu => by
    dsimp only
    split
    · exact wr_canonical hu
    · split
      · exact wr_canonical (canonical_snd (claimCard_canonical hu) ‹_›)
      · exact wr_canonical (modTrain_canonical (canonical_snd (claimCard_canonical hu) ‹_›))) h

theorem execQstat_canonical {x} (h : MemoryCanonical s) : NextCanonical (execQstat x s) :=
  vamer_canonical (fun _ _ _ hu => wr_canonical hu) h

theorem execSjoin_canonical {x} (h : MemoryCanonical s) : NextCanonical (execSjoin x s) :=
  vamer_canonical (fun _ _ _ hu => ite_holds hu (ite_holds (withAcquireLoad_canonical hu (fun _ hv => hv)) (fun _ hv =>
    hv))) h

theorem execLvwait_canonical {t x} (h : MemoryCanonical s) : NextCanonical (execLvwait t x s) :=
  vamer_canonical (fun _ _ _ hu => ite_holds (timedResult_canonical hu) (ite_holds (withAcquireLoad_canonical hu
    (fun _ hv => give_canonical hv)) (fun _ hv => hv))) h

theorem execLvrd_canonical {st x} (h : MemoryCanonical s) : NextCanonical (execLvrd st x s) :=
  vamer_canonical (fun _ _ _ hu => give_canonical hu) h

theorem execLvinc_canonical {x} (h : MemoryCanonical s) : NextCanonical (execLvinc x s) :=
  vamer_canonical (fun _ _ _ hu => ite_holds trivial (withRelease_canonical hu (fun _ hv => give_canonical
    (getD_canonical (ite_holds hv (levelAdd_canonical hv)) hv)))) h

theorem putCancel_canonical {ctx id b} (h : MemoryCanonical s) : MemoryCanonical (putCancel s ctx id b).2 := by
  unfold putCancel
  split
  · exact h
  · dsimp only
    split
    · exact h
    · exact levelPut_canonical h

theorem execCancel_canonical {x} (h : MemoryCanonical s) : NextCanonical (execCancel x s) :=
  vamer_canonical (fun _ _ _ hu => give_canonical (putCancel_canonical hu)) h

theorem execCancelClr_canonical {x} (h : MemoryCanonical s) : NextCanonical (execCancelClr x s) :=
  vamer_canonical (fun _ _ _ hu => give_canonical (putCancel_canonical hu)) h

theorem execEnqueueAccept_canonical (h : MemoryCanonical s) : NextCanonical (execEnqueueAccept s) := by
  unfold execEnqueueAccept
  dsimp only
  split
  · exact h
  · split
    · exact h
    · exact h

/-! ### Save areas (Machine/Image) -/

theorem cellarPut_canonical {part off bs} (h : MemoryCanonical s) : MemoryCanonical (cellarPut s part off bs) := h

theorem saveWrite_canonical {c off bs} (h : MemoryCanonical s) : MemoryCanonical (saveWrite s c off bs) :=
  foldl_canonical h fun _ _ hu => ite_canonical (deviceWrite_canonical hu) (ite_canonical (cellarPut_canonical hu)
    (ite_canonical (hostWrite_canonical hu) hu))

theorem savePoison_canonical {c offs} (h : MemoryCanonical s) : MemoryCanonical (savePoison s c offs) := h

theorem saveClear_canonical {c} (h : MemoryCanonical s) : MemoryCanonical (saveClear s c) := by
  unfold saveClear
  split
  · exact h
  · exact modCtx_canonical h

theorem saveContext_canonical {c} (h : MemoryCanonical s) : MemoryCanonical (saveContext s c) := saveWrite_canonical h

theorem saveEntry_canonical {c i xs} (h : MemoryCanonical s) : MemoryCanonical (saveEntry s c i xs) :=
  saveWrite_canonical h

theorem writeImages_canonical {t} (h : MemoryCanonical s) : MemoryCanonical (writeImages s t) :=
  foldl_canonical (saveContext_canonical h) fun _ _ hu => savePoison_canonical (saveWrite_canonical
    (saveEntry_canonical hu))

/-! ### Trains (Machine/Trains) -/

theorem deviceStore_canonical {c va bs} (h : MemoryCanonical s) : OptCanonical (deviceStore s c va bs) :=
  foldl_holds h fun _ _ hu => by
    split
    · trivial
    · split
      · trivial
      · exact homeWrite_canonical (tagFrame_canonical (dropOwner_canonical hu))

theorem loadImage_canonical {ctx img} (h : MemoryCanonical s) : MemoryCanonical (loadImage s ctx img).2 := by
  unfold loadImage
  split
  · exact h
  · exact h

theorem startDrays_canonical {imgs ctx die ranks} (h : MemoryCanonical s) :
    MemoryCanonical (startDrays imgs ctx die ranks s).2 := by
  unfold startDrays
  dsimp only
  exact foldl_snd_canonical h fun _ _ hu => foldl_snd_canonical hu fun _ _ hv => by
    split
    · exact hv
    · exact loadImage_canonical hv

theorem clearPads_canonical {cores sbase n} (h : MemoryCanonical s) : MemoryCanonical (clearPads s cores sbase n) :=
  foldl_canonical h fun _ _ hu => ite_canonical hu (modCore_canonical hu)

theorem startTrain_canonical {q cl p} (h : MemoryCanonical s) : MemoryCanonical (startTrain s q cl p) :=
  foldl_canonical (clearPads_canonical (startDrays_canonical h)) fun _ _ hu => acquireEvent_canonical hu

theorem drainMmas_canonical {t rank n} (h : MemoryCanonical s) : MemoryCanonical (drainMmas t rank n s) := by
  induction n generalizing s with
  | zero => exact h
  | succ n ih => exact ite_canonical h (ih (foldl_canonical h fun _ _ hu => performMma_canonical hu))

theorem settleTrain_canonical {t} (h : MemoryCanonical s) : MemoryCanonical (settleTrain s t) := by
  unfold settleTrain
  split
  · exact h
  · exact foldl_canonical (foldl_canonical h fun _ _ hu => settle_canonical hu) fun _ _ hu => releaseEvent_canonical hu

theorem saveTrain_canonical {t} (h : MemoryCanonical s) : MemoryCanonical (saveTrain s t) := by
  unfold saveTrain
  split
  · exact h
  · refine ite_canonical (setTrain_canonical h) ?_
    split
    · exact h
    · extract_lets tr s₁
      have h₁ : MemoryCanonical s₁ := setTrain_canonical h
      clear_value s₁
      split
      · exact structConflict_canonical h₁
      · exact modTrain_canonical (saveClear_canonical (writeImages_canonical h₁))

theorem resave_canonical (h : MemoryCanonical s) : MemoryCanonical (resave s) :=
  foldl_canonical h fun _ _ hu => ite_canonical (saveTrain_canonical hu) hu

theorem dropImages_canonical {t} (h : MemoryCanonical s) : MemoryCanonical (dropImages s t) := by
  unfold dropImages
  split
  · exact h
  · exact setTrain_canonical (foldl_canonical h fun _ _ hu => saveEntry_canonical hu)

theorem stopTrain_canonical {t r} (h : MemoryCanonical s) : MemoryCanonical (stopTrain s t r) := by
  unfold stopTrain
  split
  · exact h
  · split
    · exact h
    · exact saveTrain_canonical (modTrain_canonical (foldl_canonical (settleTrain_canonical h) fun _ _ hu =>
        drainMmas_canonical hu))

theorem restoreTrain_canonical {t cores} (h : MemoryCanonical s) : MemoryCanonical (restoreTrain s t cores) := by
  unfold restoreTrain
  extract_lets s₁ newDie
  have h₁ : MemoryCanonical s₁ := dropImages_canonical h
  split
  · exact h₁
  · extract_lets sb cs oldDie cyc dr s₂ s₃ s₄ s₅
    have hd : MemoryCanonical dr.2 := foldl_snd_canonical (r := ([], s₁)) h₁ fun _ _ hu => loadImage_canonical hu
    have h₂ : MemoryCanonical s₂ := setTrain_canonical hd
    have h₃ : MemoryCanonical s₃ := clearPads_canonical h₂
    have h₄ : MemoryCanonical s₄ := h₃
    have h₅ : MemoryCanonical s₅ := foldl_canonical h₄ fun _ _ hu => acquireEvent_canonical hu
    exact foldl_canonical h₅ fun _ _ hu => trapQ_canonical hu

theorem freeReserved_canonical {t} (h : MemoryCanonical s) : MemoryCanonical (freeReserved s t) :=
  foldl_canonical h fun _ _ hu => foldl_canonical hu fun _ _ hv => cardGone_canonical hv

theorem leaveLaunch_canonical {tr t} (h : MemoryCanonical s) : MemoryCanonical (leaveLaunch s tr t) := by
  unfold leaveLaunch
  split
  · exact h
  · dsimp only
    split
    · exact testLaunch_canonical h
    · exact h

theorem removeTrain_canonical {t levels} (h : MemoryCanonical s) : MemoryCanonical (removeTrain s t levels) := by
  unfold removeTrain
  split
  · exact h
  · dsimp only
    split
    · exact levelSub_canonical (leaveLaunch_canonical (freeReserved_canonical (dropImages_canonical h)))
    · exact leaveLaunch_canonical (freeReserved_canonical (dropImages_canonical h))

theorem execTrainRetire_canonical (h : MemoryCanonical s) : NextCanonical (execTrainRetire s) :=
  ite_canonical (removeTrain_canonical h) h

theorem execTrainSuspend_canonical (h : MemoryCanonical s) : NextCanonical (execTrainSuspend s) :=
  ite_canonical (stopTrain_canonical h) h

theorem execTrainResume_canonical (h : MemoryCanonical s) : NextCanonical (execTrainResume s) := by
  unfold execTrainResume
  split
  · exact h
  · split
    · split
      · exact restoreTrain_canonical h
      · exact h
    · exact h

/-! ### Admission, placement, fills (Machine/Sched) -/

theorem countLost_canonical {ctx trace} (h : MemoryCanonical s) : MemoryCanonical (countLost s ctx trace) :=
  modSys_canonical h

theorem traceRecord_canonical {ctx ty engine rank t value pc} (h : MemoryCanonical s) :
    MemoryCanonical (traceRecord s ctx ty engine rank t value pc) := by
  unfold traceRecord
  dsimp only
  split
  · exact h
  · split
    · exact modSys_canonical ((deviceStore_canonical h).some ‹_›)
    · exact countLost_canonical h

theorem setCardSt_canonical {n p st} (h : MemoryCanonical s) : MemoryCanonical (setCardSt s n p st) := by
  unfold setCardSt
  split
  · exact setQueue_canonical h
  · exact h

theorem execCardAdmission_canonical (h : MemoryCanonical s) : NextCanonical (execCardAdmission s) := by
  unfold execCardAdmission
  dsimp only
  split
  · exact h
  · exact ite_canonical h (ite_canonical (dropCard_canonical h) (ite_canonical (setCardSt_canonical h) (ite_canonical
      (cardGone_canonical h) (ite_canonical (refuseCard_canonical h) (setCardSt_canonical h)))))

theorem execCardReady_canonical (h : MemoryCanonical s) : NextCanonical (execCardReady s) := by
  unfold execCardReady
  dsimp only
  split
  · exact h
  · exact ite_canonical h (ite_canonical (dropCard_canonical h) (ite_canonical h (ite_canonical
      (refuseCard_canonical h) (setCardSt_canonical h))))

theorem breakTrain_canonical {t} (h : MemoryCanonical s) : MemoryCanonical (breakTrain s t) := by
  unfold breakTrain
  split
  · exact h
  · dsimp only
    split
    · exact traceRecord_canonical (trapQ_canonical h)
    · exact h

theorem keepSkips_canonical {skips} (h : MemoryCanonical s) : MemoryCanonical (keepSkips s skips) :=
  foldl_canonical h fun _ _ hu => ite_canonical hu (modCore_canonical hu)

theorem keepPointer_canonical {die q c n first} (h : MemoryCanonical s) :
    MemoryCanonical (keepPointer s die q c n first) := modCore_canonical h

theorem placeClaim_canonical {n p plan} (h : MemoryCanonical s) : MemoryCanonical (placeClaim s n p plan) := by
  unfold placeClaim
  split
  · exact canonical_snd (claimCard_canonical h) ‹_›
  · exact breakTrain_canonical (startTrain_canonical (canonical_snd (claimCard_canonical h) ‹_›))

theorem placeFlagged_canonical {q c n p plan} (h : MemoryCanonical s) : MemoryCanonical (placeFlagged q c n p s plan) :=
  placeClaim_canonical (modCore_canonical (keepPointer_canonical h))

theorem placeVisit_canonical {die q c n p k} (h : MemoryCanonical s) :
    MemoryCanonical (placeVisit s die q c n p k) := by
  unfold placeVisit
  dsimp only
  split
  · exact keepSkips_canonical h
  · exact placeClaim_canonical (keepPointer_canonical (keepSkips_canonical h))

theorem execTrainPlacement_canonical (h : MemoryCanonical s) : NextCanonical (execTrainPlacement s) := by
  unfold execTrainPlacement
  dsimp only
  split
  · exact h
  · split
    · exact h
    · exact ite_canonical h (ite_canonical (by
        split
        · exact h
        · exact foldl_canonical h fun _ _ hu => placeFlagged_canonical hu) (placeVisit_canonical h))

theorem execFillStart_canonical (h : MemoryCanonical s) : NextCanonical (execFillStart s) := by
  unfold execFillStart
  dsimp only
  split
  · exact h
  · split
    · exact h
    · exact ite_canonical (dropCard_canonical h) (setCardSt_canonical h)

theorem fillChunk_canonical {f va} (h : MemoryCanonical s) : FillCanonical (fillChunk s f va) := by
  unfold fillChunk
  dsimp only
  split
  · exact sendReport_canonical h
  · split
    · split
      · exact sendReport_canonical h
      · split
        · exact sendReport_canonical h
        · split
          · exact sendReport_canonical h
          · trivial
    · exact bufferEntry_canonical h
    · exact sendReport_canonical h
    · exact h
    · exact h

theorem fillChunks_canonical {part f n k} (h : MemoryCanonical s) : MemoryCanonical (fillChunks part f n k s).2 := by
  induction n generalizing k s with
  | zero => exact h
  | succ n ih =>
    unfold fillChunks
    split
    · exact (fillChunk_canonical h).error ‹_›
    · exact ih (cellarPut_canonical (ite_canonical (homeAccess_canonical h) h))

theorem execFillComplete_canonical (h : MemoryCanonical s) : NextCanonical (execFillComplete s) := by
  unfold execFillComplete
  extract_lets part
  split
  · exact h
  · next f _ =>
    have hr := fun n => fillChunks_canonical (part := part) (f := f) (n := n) (k := 0) h
    exact ite_holds h (ite_canonical (dropCard_canonical (hr _)) (refuseCard_canonical (hr _)))

theorem execSensorClassUpdate_canonical (h : MemoryCanonical s) : NextCanonical (execSensorClassUpdate s) :=
  ite_canonical (modCore_canonical h) h

theorem bindCore_canonical {core b} (h : MemoryCanonical s) : MemoryCanonical (bindCore s core b) := by
  unfold bindCore
  dsimp only
  split
  · split
    · exact modCore_canonical h
    · exact modCore_canonical (modCore_canonical h)
  · exact modCore_canonical h

theorem execSltBindWrite_canonical (h : MemoryCanonical s) : NextCanonical (execSltBindWrite s) :=
  ite_canonical (bindCore_canonical (dropRsvd_canonical h)) (dropRsvd_canonical h)

theorem execQcRegisterWrite_canonical (h : MemoryCanonical s) : NextCanonical (execQcRegisterWrite s) :=
  ite_canonical (qcWrite_canonical h) h

/-! ### Contexts (Machine/Contexts) -/

theorem structXlate_canonical {x acc ps} (h : MemoryCanonical s) : MemoryCanonical (structXlate x acc ps s).2 := by
  induction ps generalizing s with
  | nil => exact h
  | cons p t ih => exact ih (xlate_canonical h)

theorem onStruct_canonical {x acc va n ls f} (h : MemoryCanonical s)
    (hf : ∀ ps u, MemoryCanonical u → ResCanonical (f ps u)) : ResCanonical (onStruct x acc va n ls s f) := by
  unfold onStruct
  extract_lets bad trap r fails q ps
  have hr : MemoryCanonical r.2 := structXlate_canonical h
  have hq : MemoryCanonical q.1 := parkLanes_canonical hr
  exact ite_holds trivial (ite_holds (fun _ hu => hu) (ite_holds hq
    (ite_holds trivial (ite_holds trivial (ite_holds trivial (hf _ _ hr))))))

theorem structBytes_canonical {x ps} (h : MemoryCanonical s) : BytesCanonical (structBytes x ps s) := by
  induction ps generalizing s with
  | nil => exact h
  | cons p t ih =>
    unfold structBytes
    split
    · trivial
    · next g u e =>
      have hu : MemoryCanonical u := (readLoc_canonical h).some e
      split
      · trivial
      · next e => exact (ih hu).some e

theorem readStruct_canonical {x va n ls f} (h : MemoryCanonical s)
    (hf : ∀ bs u, MemoryCanonical u → ResCanonical (f bs u)) : ResCanonical (readStruct x va n ls s f) :=
  onStruct_canonical h fun _ _ hu => by
    split
    · exact fun _ hv => hv
    · have hb := (structBytes_canonical hu).some ‹_›
      exact ite_holds hb (hf _ _ hb)

theorem writeStruct_canonical {x va bs ls f} (h : MemoryCanonical s)
    (hf : ∀ u, MemoryCanonical u → ResCanonical (f u)) : ResCanonical (writeStruct x va bs ls s f) :=
  onStruct_canonical h fun _ _ hu =>
    ite_holds (fun _ hv => hv) (hf _ (foldl_snd_canonical hu fun _ _ hv => storePlain_canonical hv))

theorem claimFrames_canonical {rs} (h : MemoryCanonical s) : MemoryCanonical (claimFrames s rs) := h

theorem evictRanges_canonical {rs} (h : MemoryCanonical s) : MemoryCanonical (evictRanges s rs) :=
  foldl_canonical h fun _ _ hu => foldl_canonical hu fun _ _ hv => evictWord_canonical hv

theorem shootDown_canonical {cs rs} (h : MemoryCanonical s) : MemoryCanonical (shootDown s cs rs) := h

theorem shootKey_canonical {cs k} (h : MemoryCanonical s) : MemoryCanonical (shootKey s cs k) := h

theorem writeMapImage_canonical {c} (h : MemoryCanonical s) : MemoryCanonical (writeMapImage s c) := by
  unfold writeMapImage
  dsimp only
  split
  · exact h
  · exact saveWrite_canonical (saveClear_canonical h)

theorem mapReport_canonical {c} (h : MemoryCanonical s) : MemoryCanonical (mapReport s c) := structConflict_canonical h

theorem imposedReport_canonical {c} (h : MemoryCanonical s) : MemoryCanonical (imposedReport s c) :=
  sendReport_canonical h

theorem trimMap_canonical {n c lo hi} (h : MemoryCanonical s) : MemoryCanonical (trimMap n c lo hi s) := by
  induction n generalizing c lo hi s with
  | zero => exact h
  | succ n ih =>
    have hs := fun cuts : List (Nat × List (Nat × Nat)) => foldl_canonical (l := cuts)
      (f := fun s e => e.2.foldl (fun s r => trimMap n e.1 r.1 r.2 s) s)
      (writeMapImage_canonical (c := c) (modCtx_canonical (c := c) (f := fun x =>
        { x with gmap := cutMap x.gmap lo hi }) h))
      fun _ _ hu => foldl_canonical hu fun _ _ hv => ih hv
    exact ite_canonical (imposedReport_canonical (hs _)) (hs _)

theorem ctxNew_canonical {iss bs} (h : MemoryCanonical s) : MemoryCanonical (ctxNew s iss bs).2 := by
  unfold ctxNew
  dsimp only
  split
  · exact h
  · split
    · exact h
    · split
      · exact h
      · split
        · exact h
        · exact h

theorem giveUnits_canonical {c x} (h : MemoryCanonical s) : MemoryCanonical (giveUnits s c x).2 := by
  unfold giveUnits
  dsimp only
  split
  · exact h
  · exact modCtx_canonical h

theorem grantMem_canonical {iss c d} (h : MemoryCanonical s) : MemoryCanonical (grantMem s iss c d).2 := by
  unfold grantMem
  extract_lets n x given mine ma s₁ s₂ s₃
  have h₁ : MemoryCanonical s₁ := modCtx_canonical h
  have h₂ : MemoryCanonical s₂ := evictRanges_canonical h₁
  have h₃ : MemoryCanonical s₃ := ite_canonical (claimFrames_canonical h₂) h₂
  clear_value s₁ s₃
  have hr := writeMapImage_canonical (c := c) (shootDown_canonical (cs := [iss, c]) (rs := ma) h₃)
  split
  · exact h
  · split
    · exact h
    · split
      · exact h
      · split
        · exact h
        · exact hr

theorem grantDies_canonical {c d} (h : MemoryCanonical s) : MemoryCanonical (grantDies s c d).2 := by
  unfold grantDies
  dsimp only
  split
  · exact h
  · split
    · exact modCtx_canonical (canonical_snd (giveUnits_canonical h) ‹_›)
    · exact giveUnits_canonical h

theorem grantClusters_canonical {iss c d} (h : MemoryCanonical s) : MemoryCanonical (grantClusters s iss c d).2 := by
  unfold grantClusters
  split
  · exact h
  · split
    · exact h
    · exact giveUnits_canonical h

theorem grantCores_canonical {iss c d} (h : MemoryCanonical s) : MemoryCanonical (grantCores s iss c d).2 := by
  unfold grantCores
  split
  · exact h
  · dsimp only
    split
    · exact h
    · exact giveUnits_canonical h

theorem setOwner_canonical {q c} (h : MemoryCanonical s) : MemoryCanonical (setOwner s q c) := setQueue_canonical h

theorem grantQueue_canonical {iss c d} (h : MemoryCanonical s) : MemoryCanonical (grantQueue s iss c d).2 := by
  unfold grantQueue
  split
  · exact h
  · exact setOwner_canonical h

theorem emptyCasks_canonical {cl base n} (h : MemoryCanonical s) : MemoryCanonical (emptyCasks s cl base n) :=
  modCluster_canonical h

theorem grantCasks_canonical {iss c d} (h : MemoryCanonical s) : MemoryCanonical (grantCasks s iss c d).2 := by
  unfold grantCasks
  split
  · exact h
  · extract_lets r base
    split
    · exact h
    · exact emptyCasks_canonical (modCtx_canonical h)

theorem grantKey_canonical {iss c d} (h : MemoryCanonical s) : MemoryCanonical (grantKey s iss c d).2 := by
  unfold grantKey
  split
  · exact h
  · exact modCtx_canonical h

theorem grantEndpoint_canonical {iss c d} (h : MemoryCanonical s) : MemoryCanonical (grantEndpoint s iss c d).2 := by
  unfold grantEndpoint
  split
  · exact h
  · split
    · exact h
    · exact modCtx_canonical h

theorem setEngines_canonical {c n} (h : MemoryCanonical s) : MemoryCanonical (setEngines s c n) :=
  foldl_canonical h fun _ _ hu => modCtx_canonical hu

theorem grantDma_canonical {iss c d} (h : MemoryCanonical s) : MemoryCanonical (grantDma s iss c d).2 := by
  unfold grantDma
  split
  · exact h
  · exact setEngines_canonical h

theorem ctxGrant_canonical {iss c bs} (h : MemoryCanonical s) : MemoryCanonical (ctxGrant s iss c bs).2 := by
  unfold ctxGrant
  dsimp only
  split
  · exact h
  · split
    · exact h
    · split
      · exact grantMem_canonical h
      · exact grantDies_canonical h
      · exact grantClusters_canonical h
      · exact grantCores_canonical h
      · exact grantQueue_canonical h
      · exact grantCasks_canonical h
      · exact grantKey_canonical h
      · exact grantEndpoint_canonical h
      · exact grantDma_canonical h

theorem discardTrain_canonical {t} (h : MemoryCanonical s) : MemoryCanonical (discardTrain s t) := by
  unfold discardTrain
  extract_lets s₁ mine s₂ s₃ s₄ s₅
  have h₁ : MemoryCanonical s₁ := settleTrain_canonical h
  have h₂ : MemoryCanonical s₂ := foldl_canonical h₁ fun _ _ hu => performStore_canonical hu
  have h₃ : MemoryCanonical s₃ := foldl_canonical h₂ fun _ _ hu => performStep_canonical hu
  have h₄ : MemoryCanonical s₄ := h₃
  have h₅ : MemoryCanonical s₅ := by
    unfold s₅
    split
    · exact modCtx_canonical h₄
    · exact h₄
  exact removeTrain_canonical h₅

theorem cancelHeld_canonical {c} (h : MemoryCanonical s) : MemoryCanonical (cancelHeld s c) :=
  foldl_canonical h fun _ _ hu => ite_canonical (levelPut_canonical hu) hu

theorem gatesGone_canonical {gone} (h : MemoryCanonical s) : MemoryCanonical (gatesGone s gone) := h

theorem dropGates_canonical {cs} (h : MemoryCanonical s) : MemoryCanonical (dropGates s cs) :=
  ite_canonical (gatesGone_canonical h) h

theorem resetDies_canonical {dies} (h : MemoryCanonical s) : MemoryCanonical (resetDies s dies) :=
  foldl_canonical h fun _ _ hu => foldl_canonical hu fun _ _ hv => evictWord_canonical hv

theorem forcedReset_canonical {c} (h : MemoryCanonical s) : MemoryCanonical (forcedReset s c) := by
  unfold forcedReset
  extract_lets cs s₁ s₂ s₃ s₄
  have h₁ : MemoryCanonical s₁ := foldl_canonical h fun _ _ hu => discardTrain_canonical hu
  have h₂ : MemoryCanonical s₂ := foldl_canonical h₁ fun _ _ hu => cancelHeld_canonical hu
  have h₃ : MemoryCanonical s₃ := foldl_canonical h₂ fun _ _ hu => ite_canonical (setQueue_canonical hu) hu
  have h₄ : MemoryCanonical s₄ := dropGates_canonical h₃
  exact ite_canonical (resetDies_canonical h₄) h₄

theorem doneReport_canonical {iss c ticket engine} (h : MemoryCanonical s) :
    MemoryCanonical (doneReport s iss c ticket engine) := sendReport_canonical (modCtx_canonical h)

theorem newTicket_canonical {iss} (h : MemoryCanonical s) : MemoryCanonical (newTicket s iss).2 := modCtx_canonical h

theorem stopSubtree_canonical {c} (h : MemoryCanonical s) : MemoryCanonical (stopSubtree s c) :=
  foldl_canonical h fun _ _ hu => modCtx_canonical hu

theorem finishStop_canonical {c o engine} (h : MemoryCanonical s) : MemoryCanonical (finishStop s c o engine) := by
  unfold finishStop
  extract_lets s₁ s₂
  have h₁ : MemoryCanonical s₁ := modCtx_canonical (stopSubtree_canonical h)
  have h₂ : MemoryCanonical s₂ := foldl_canonical h₁ fun _ _ hu => ite_canonical hu (saveContext_canonical hu)
  exact ite_canonical h₂ (doneReport_canonical h₂)

theorem stopTrains_canonical {ts} (h : MemoryCanonical s) : MemoryCanonical (stopTrains s ts) :=
  foldl_canonical h fun _ _ hu => stopTrain_canonical hu

theorem beginOp_canonical {c o} (h : MemoryCanonical s) : MemoryCanonical (beginOp s c o) := modCtx_canonical h

theorem ctxStop_canonical {iss c kind} (h : MemoryCanonical s) : MemoryCanonical (ctxStop s iss c kind).2 := by
  unfold ctxStop
  dsimp only
  split
  · exact finishStop_canonical (forcedReset_canonical (newTicket_canonical h))
  · split
    · exact finishStop_canonical (newTicket_canonical h)
    · split
      · exact beginOp_canonical (newTicket_canonical h)
      · exact stopTrains_canonical (beginOp_canonical (newTicket_canonical h))

theorem ctxRevoke_canonical {iss c drain desc} (h : MemoryCanonical s) :
    MemoryCanonical (ctxRevoke s iss c drain desc).2 := by
  have ho := fun o => beginOp_canonical (c := c) (o := o) (newTicket_canonical (iss := iss) h)
  unfold ctxRevoke
  extract_lets d all st
  clear_value st
  split
  · exact h
  · exact ite_canonical (ho _) (stopTrains_canonical (ho _))

theorem saveBufs_canonical {c} (h : MemoryCanonical s) : MemoryCanonical (saveBufs s c) := by
  unfold saveBufs
  split
  · exact h
  · exact foldl_canonical h fun _ _ hu => ite_canonical hu (saveWrite_canonical hu)

theorem loseUnits_canonical {c gone} (h : MemoryCanonical s) : MemoryCanonical (loseUnits s c gone) := by
  unfold loseUnits
  extract_lets cs s₁ hit dies s₂ s₃ s₄ s₅
  have h₁ : MemoryCanonical s₁ := foldl_canonical h fun _ _ hu => ite_canonical (bindCore_canonical hu) hu
  have h₂ : MemoryCanonical s₂ := foldl_canonical h₁ fun _ _ hu => modCtx_canonical hu
  have h₃ : MemoryCanonical s₃ := modCtx_canonical h₂
  have h₄ : MemoryCanonical s₄ := foldl_canonical h₃ fun _ _ hu => by
    split
    · exact ite_canonical (modCore_canonical hu) hu
    · exact hu
  have h₅ : MemoryCanonical s₅ := foldl_canonical h₄ fun _ _ hu => saveBufs_canonical hu
  exact foldl_canonical h₅ fun _ _ hu => imposedReport_canonical hu

theorem loseMem_canonical {iss c lo n} (h : MemoryCanonical s) : MemoryCanonical (loseMem s iss c lo n) :=
  claimFrames_canonical (trimMap_canonical (evictRanges_canonical (shootDown_canonical h)))

theorem loseKey_canonical {c k} (h : MemoryCanonical s) : MemoryCanonical (loseKey s c k) :=
  foldl_canonical (foldl_canonical (shootKey_canonical h) fun _ _ hu => modCtx_canonical hu) fun _ _ hu =>
    imposedReport_canonical hu

theorem loseCasks_canonical {c cl} (h : MemoryCanonical s) : MemoryCanonical (loseCasks s c cl) :=
  foldl_canonical (foldl_canonical h fun _ _ hu => modCtx_canonical hu) fun _ _ hu => imposedReport_canonical hu

theorem loseEndpoint_canonical {f c n} (h : MemoryCanonical s) : MemoryCanonical (loseEndpoint f c n s) := by
  induction f generalizing c n s with
  | zero => exact h
  | succ f ih => exact foldl_canonical (modCtx_canonical h) fun _ _ hu => ih hu

theorem loseResource_canonical {iss c d} (h : MemoryCanonical s) : MemoryCanonical (loseResource s iss c d) := by
  unfold loseResource
  split
  · exact loseMem_canonical h
  · exact loseUnits_canonical h
  · exact loseUnits_canonical h
  · exact loseUnits_canonical h
  · exact setOwner_canonical h
  · split
    · exact loseCasks_canonical h
    · exact h
  · exact loseKey_canonical h
  · exact loseEndpoint_canonical h
  · exact setEngines_canonical h

theorem loseAll_canonical {iss c} (h : MemoryCanonical s) : MemoryCanonical (loseAll s iss c) := by
  unfold loseAll
  extract_lets s₁ s₂ s₃ s₄
  have h₁ : MemoryCanonical s₁ := foldl_canonical h fun _ _ hu => discardTrain_canonical hu
  have h₂ : MemoryCanonical s₂ := foldl_canonical h₁ fun _ _ hu => loseMem_canonical hu
  have h₃ : MemoryCanonical s₃ := loseUnits_canonical h₂
  have h₄ : MemoryCanonical s₄ := foldl_canonical h₃ fun _ _ hu => ite_canonical (setOwner_canonical hu) hu
  clear_value s₄
  exact h₄

theorem finishRevoke_canonical {c o} (h : MemoryCanonical s) : MemoryCanonical (finishRevoke s c o) := by
  unfold finishRevoke
  split
  · have hr := fun e f => doneReport_canonical (iss := o.issuer) (c := c) (ticket := o.ticket) (engine := e)
      (modCtx_canonical (c := c) (f := f) h)
    exact ite_canonical (loseAll_canonical (hr _ _)) (loseResource_canonical (hr _ _))
  · exact h

theorem setBudget_canonical {c k rate depth} (h : MemoryCanonical s) : MemoryCanonical (setBudget s c k rate depth) :=
  modCtx_canonical h

theorem ctxBudget_canonical {iss c bs} (h : MemoryCanonical s) : MemoryCanonical (ctxBudget s iss c bs).2 := by
  unfold ctxBudget
  dsimp only
  split
  · exact h
  · split
    · exact h
    · exact foldl_canonical h fun _ _ hu => setBudget_canonical hu

theorem runCard_canonical {c va q} (h : MemoryCanonical s) : MemoryCanonical (runCard s c va q).2 := by
  unfold runCard
  split
  · exact h
  · dsimp only
    split
    · exact h
    · split
      · exact h
      · exact acceptCard_canonical h

theorem ctxRun_canonical {c va q} (h : MemoryCanonical s) : MemoryCanonical (ctxRun s c va q).2 := by
  unfold ctxRun
  dsimp only
  split
  · exact h
  · split
    · exact h
    · split
      · split
        · exact h
        · exact modCtx_canonical h
      · split
        · exact h
        · exact modCtx_canonical (runCard_canonical h)

/-! ### Context instructions (Machine/CtxInstr) -/

theorem onChild_canonical {a f x ls} (hf : ∀ y c ls u, MemoryCanonical u → ResCanonical (f y c ls u))
    (h : MemoryCanonical s) : ResCanonical (onChild a f x ls s) :=
  withRelease_canonical h fun _ hu => ite_holds (give_canonical hu) (ite_holds (give_canonical hu) (hf _ _ _ _ hu))

theorem giveCtx_canonical {x a ls r} (h : MemoryCanonical r.2) : ResCanonical (giveCtx x a ls r) := give_canonical h

theorem execCtxNew_canonical {x} (h : MemoryCanonical s) : NextCanonical (execCtxNew x s) :=
  vamer_canonical (fun _ _ _ hu => withRelease_canonical hu (fun _ hv => readStruct_canonical hv (fun _ _ hw =>
    giveCtx_canonical (ctxNew_canonical hw)))) h

theorem execCtxGrant_canonical {x} (h : MemoryCanonical s) : NextCanonical (execCtxGrant x s) :=
  vamer_canonical (fun _ _ _ hu => onChild_canonical (fun _ _ _ _ hv => readStruct_canonical hv (fun _ _ hw =>
    ite_holds (fun _ hz => mapReport_canonical hz) (giveCtx_canonical (ctxGrant_canonical hw)))) hu) h

theorem unlessMigrating_canonical {x a c ls k} (h : MemoryCanonical s) (hk : ResCanonical k) :
    ResCanonical (unlessMigrating x a c ls s k) :=
  ite_holds (give_canonical h) hk

theorem execCtxRevoke_canonical {drain x} (h : MemoryCanonical s) : NextCanonical (execCtxRevoke drain x s) :=
  vamer_canonical (fun _ _ _ hu => onChild_canonical (fun _ _ _ _ hv => unlessMigrating_canonical hv (ite_holds
    (giveCtx_canonical (ctxRevoke_canonical hv)) (readStruct_canonical hv (fun _ _ hw => giveCtx_canonical
    (ctxRevoke_canonical hw))))) hu) h

theorem execCtxRun_canonical {x} (h : MemoryCanonical s) : NextCanonical (execCtxRun x s) :=
  vamer_canonical (fun _ _ _ hu => onChild_canonical (fun _ _ _ _ hv => giveCtx_canonical (ctxRun_canonical hv)) hu) h

theorem stopBody_canonical {kind a x ls} (h : MemoryCanonical s) : ResCanonical (stopBody kind a x ls s) :=
  onChild_canonical (fun _ _ _ _ hu => unlessMigrating_canonical hu (giveCtx_canonical (ctxStop_canonical hu))) h

theorem execCtxStopNow_canonical {x} (h : MemoryCanonical s) : NextCanonical (execCtxStopNow x s) :=
  vamer_canonical (fun _ _ _ hu => stopBody_canonical hu) h

theorem execCtxStopDrain_canonical {x} (h : MemoryCanonical s) : NextCanonical (execCtxStopDrain x s) :=
  vamer_canonical (fun _ _ _ hu => stopBody_canonical hu) h

theorem execCtxStopReset_canonical {x} (h : MemoryCanonical s) : NextCanonical (execCtxStopReset x s) :=
  vamer_canonical (fun _ _ _ hu => stopBody_canonical hu) h

theorem execCtxBudget_canonical {x} (h : MemoryCanonical s) : NextCanonical (execCtxBudget x s) :=
  vamer_canonical (fun _ _ _ hu => onChild_canonical (fun _ _ _ _ hv => readStruct_canonical hv (fun _ _ hw =>
    giveCtx_canonical (ctxBudget_canonical hw))) hu) h

theorem execCtxBudgetRd_canonical {x} (h : MemoryCanonical s) : NextCanonical (execCtxBudgetRd x s) :=
  vamer_canonical (fun _ _ _ hu => onChild_canonical (fun _ _ _ _ hv => writeStruct_canonical hv (fun _ hw =>
    give_canonical hw)) hu) h

theorem execCtxReflectMask_canonical {x} (h : MemoryCanonical s) : NextCanonical (execCtxReflectMask x s) :=
  vamer_canonical (fun _ _ _ hu => onChild_canonical (fun _ _ _ _ hv => give_canonical (modCtx_canonical hv)) hu) h

theorem reflectTo_canonical {x a tgt ls} (h : MemoryCanonical s) : ResCanonical (reflectTo x a tgt ls s) :=
  readStruct_canonical h (fun _ _ hu => ite_holds (give_canonical hu) (give_canonical (sendReport_canonical hu)))

theorem execCtxReflectDown_canonical {x} (h : MemoryCanonical s) : NextCanonical (execCtxReflectDown x s) :=
  vamer_canonical (fun _ _ _ hu => onChild_canonical (fun _ _ _ _ hv => reflectTo_canonical hv) hu) h

theorem execCtxReflectUp_canonical {x} (h : MemoryCanonical s) : NextCanonical (execCtxReflectUp x s) :=
  vamer_canonical (fun _ _ _ hu => withRelease_canonical hu (fun _ hv => ite_holds (give_canonical hv)
    (reflectTo_canonical hv))) h

theorem answerCall_canonical {c seq v} (h : MemoryCanonical s) : MemoryCanonical (answerCall s c seq v).2 := by
  unfold answerCall
  split
  · exact h
  · split
    · exact h
    · exact modCtx_canonical h

theorem execCtxReflectRet_canonical {x} (h : MemoryCanonical s) : NextCanonical (execCtxReflectRet x s) :=
  vamer_canonical (fun _ _ _ hu => ite_holds (withRelease_canonical hu (fun _ hv => giveCtx_canonical
    (answerCall_canonical hv))) (onChild_canonical (fun _ _ _ _ hv => giveCtx_canonical (answerCall_canonical hv)) hu))
    h

theorem dropPages_canonical {c b n} (h : MemoryCanonical s) : MemoryCanonical (dropPages s c b n) := h

theorem settleCtx_canonical {c} (h : MemoryCanonical s) : MemoryCanonical (settleCtx s c) :=
  foldl_canonical h fun _ _ hu => by
    split
    · exact foldl_canonical hu fun _ _ hv => settle_canonical hv
    · exact hu

theorem execTlbi_canonical {x} (h : MemoryCanonical s) : NextCanonical (execTlbi x s) :=
  vamer_canonical (fun _ _ _ hu => ite_holds trivial (withRelease_canonical hu fun _ hv =>
    ite_holds (settleCtx_canonical (dropPages_canonical hv)) fun _ _ => settleCtx_canonical (dropPages_canonical hv))) h

theorem replayReport_canonical {r} (h : MemoryCanonical s) : MemoryCanonical (replayReport s r) := h

theorem execReplay_canonical {x} (h : MemoryCanonical s) : NextCanonical (execReplay x s) :=
  vamer_canonical (fun _ _ _ hu => readStruct_canonical hu (fun _ _ hv => ite_holds trivial
    (replayReport_canonical hv))) h

theorem replayAll_canonical {c} (h : MemoryCanonical s) : MemoryCanonical (replayAll s c) := h

theorem execReplayAll_canonical {x} (h : MemoryCanonical s) : NextCanonical (execReplayAll x s) :=
  vamer_canonical (fun _ _ _ hu => ite_holds trivial (replayAll_canonical hu)) h

theorem execHcall_canonical {x} (h : MemoryCanonical s) : NextCanonical (execHcall x s) :=
  vamer_canonical (fun _ _ _ hu => ite_holds trivial (noteIssue_canonical (sendReport_canonical (modFrag_canonical
    (modCtx_canonical hu))))) h

/-! ### Dray instructions (Machine/DrayInstr) -/

theorem drayStall_canonical {x w} (h : MemoryCanonical s) : MemoryCanonical (drayStall s x w) := by
  unfold drayStall
  dsimp only
  split
  · exact h
  · exact modDray_canonical h

theorem dray_canonical {body} (hbody : ∀ x u, MemoryCanonical u → DResCanonical (body x u)) (h : MemoryCanonical s) :
    NextCanonical (dray body s) := by
  unfold dray
  split
  · split
    · trivial
    · split
      · exact modDray_canonical ((hbody _ _ h).ok ‹_›)
      · exact drayStall_canonical h
      · exact modDray_canonical h
  · trivial

theorem rvLoad_canonical {k rd rs1 off len x} (h : MemoryCanonical s) :
    DResCanonical (rvLoad k rd rs1 off len x s) := by
  unfold rvLoad
  dsimp only
  split
  · trivial
  · split
    · exact h
    · exact h
    · split
      · trivial
      · split
        · exact h
        · exact h
    · trivial

theorem rvStore_canonical {k rs1 rs2 off len x} (h : MemoryCanonical s) :
    DResCanonical (rvStore k rs1 rs2 off len x s) := by
  unfold rvStore
  dsimp only
  split
  · trivial
  · split
    · exact h
    · split
      · trivial
      · exact modTrain_canonical h
    · trivial
    · trivial

theorem illegalBits_canonical {w} : DResCanonical (illegalBits w) := trivial

theorem rvCsr_canonical {k rd num imm field w x} (h : MemoryCanonical s) :
    DResCanonical (rvCsr k rd num imm field w x s) := by
  unfold rvCsr
  dsimp only
  split
  · exact illegalBits_canonical
  · split
    · split
      · exact h
      · exact illegalBits_canonical
    · exact h

theorem rvBody_canonical {i len x} (h : MemoryCanonical s) : DResCanonical (rvBody i len x s) := by
  unfold rvBody
  dsimp only
  split
  · exact h
  · exact h
  · exact h
  · exact h
  · exact h
  · exact rvLoad_canonical h
  · exact rvStore_canonical h
  · exact h
  · exact h
  · exact h
  · exact h
  · trivial
  · trivial
  · exact h
  · exact rvCsr_canonical h
  · exact illegalBits_canonical

theorem execRv32imcInstruction_canonical {i len} (h : MemoryCanonical s) :
    NextCanonical (execRv32imcInstruction i len s) := dray_canonical (fun _ _ hu => rvBody_canonical hu) h

theorem execDrayWfi_canonical (h : MemoryCanonical s) : NextCanonical (execDrayWfi s) :=
  dray_canonical (fun _ _ hu => hu) h

theorem execDfaultWrite_canonical {k rd imm field} (h : MemoryCanonical s) :
    NextCanonical (execDfaultWrite k rd imm field s) := by
  unfold execDfaultWrite
  dsimp only
  exact dray_canonical (fun _ _ hu => by
    split
    · split
      · split
        · exact hu
        · exact hu
      · exact trapQ_canonical (ite_canonical hu hu)
    · split
      · exact hu
      · exact hu) h

theorem drayObject_canonical {x off f} (hf : ∀ o, DResCanonical (f o)) : DResCanonical (drayObject x off f) := by
  unfold drayObject
  dsimp only
  split
  · trivial
  · split
    · trivial
    · exact hf _

theorem execDcpy_canonical {rd rs1} (h : MemoryCanonical s) : NextCanonical (execDcpy rd rs1 s) :=
  dray_canonical (fun _ _ hu => ite_holds hu (ite_holds hu (ite_holds trivial (ite_holds hu (by
    split
    · trivial
    · exact acceptWork_canonical hu))))) h

theorem execDkick_canonical {rd rs1 rs2} (h : MemoryCanonical s) : NextCanonical (execDkick rd rs1 rs2 s) :=
  dray_canonical (fun _ _ hu => ite_holds hu (by
    split
    · trivial
    · exact acceptList_canonical hu)) h

theorem execDstat_canonical {rd} (h : MemoryCanonical s) : NextCanonical (execDstat rd s) :=
  dray_canonical (fun _ _ hu => hu) h

theorem execDck_canonical {hi draw rd rs1} (h : MemoryCanonical s) : NextCanonical (execDck hi draw rd rs1 s) :=
  dray_canonical (fun _ _ hu => by
    split
    · exact illegalBits_canonical
    · dsimp only
      split
      · split
        · exact ite_canonical (caskPut_canonical hu) hu
        · exact ite_canonical (caskPut_canonical hu) hu
      · trivial) h

theorem execDarr_canonical {rd rs1} (h : MemoryCanonical s) : NextCanonical (execDarr rd rs1 s) :=
  dray_canonical (fun _ _ hu => drayObject_canonical (fun _ => ite_holds trivial (modMb_canonical hu))) h

theorem execDexp_canonical {arr rd rs1 rs2} (h : MemoryCanonical s) : NextCanonical (execDexp arr rd rs1 rs2 s) :=
  dray_canonical (fun _ _ hu => drayObject_canonical (fun _ => ite_holds (modMb_canonical hu) (ite_holds trivial
    (modMb_canonical hu)))) h

theorem execDwait_canonical {rs1 rs2} (h : MemoryCanonical s) : NextCanonical (execDwait rs1 rs2 s) :=
  dray_canonical (fun _ _ hu => drayObject_canonical (fun _ => ite_holds hu trivial)) h

theorem execDtry_canonical {rd rs1 rs2} (h : MemoryCanonical s) : NextCanonical (execDtry rd rs1 rs2 s) :=
  dray_canonical (fun _ _ hu => drayObject_canonical (fun _ => hu)) h

/-! ### Gates (Machine/Gates) -/

theorem gateNew_canonical {c b bs} (h : MemoryCanonical s) : MemoryCanonical (gateNew s c b bs).2 := by
  unfold gateNew
  dsimp only
  split
  · exact h
  · split
    · exact h
    · split
      · exact h
      · exact h

theorem execGateNew_canonical {x} (h : MemoryCanonical s) : NextCanonical (execGateNew x s) :=
  vamer_canonical (fun _ _ _ hu => withRelease_canonical hu (fun _ hv => readStruct_canonical hv (fun _ _ hw =>
    giveCtx_canonical (gateNew_canonical hw)))) h

theorem execGateNewDel_canonical {x} (h : MemoryCanonical s) : NextCanonical (execGateNewDel x s) :=
  vamer_canonical (fun _ _ _ hu => withRelease_canonical hu (fun _ hv => by
    dsimp only
    split
    · exact give_canonical hv
    · exact give_canonical (gatesGone_canonical hv))) h

theorem refreeze_canonical (h : MemoryCanonical s) : MemoryCanonical (refreeze s) := h

theorem gateAcl_canonical {iss g c post take} (h : MemoryCanonical s) :
    MemoryCanonical (gateAcl s iss g c post take).2 := by
  unfold gateAcl
  split
  · exact h
  · split
    · exact h
    · split
      · exact h
      · exact refreeze_canonical h

theorem execGateAcl_canonical {post take x} (h : MemoryCanonical s) : NextCanonical (execGateAcl post take x s) :=
  vamer_canonical (fun _ _ _ hu => withRelease_canonical hu (fun _ hv => giveCtx_canonical (gateAcl_canonical hv))) h

theorem denyGate_canonical {x g op ls} (h : MemoryCanonical s) : MemoryCanonical (denyGate s x g op ls) := by
  unfold denyGate
  dsimp only
  split
  · exact modSys_canonical h
  · exact sendReport_canonical (modSys_canonical h)

theorem releaseWindow_canonical {cl g} (h : MemoryCanonical s) : MemoryCanonical (releaseWindow s cl g) :=
  foldl_canonical h fun _ _ hu => writeBack_canonical hu

theorem acquireWindow_canonical {cl g} (h : MemoryCanonical s) : MemoryCanonical (acquireWindow s cl g) :=
  modCluster_canonical h

theorem postGate_canonical {x g v ls} (h : MemoryCanonical s) : MemoryCanonical (postGate s x g v ls).2 := by
  unfold postGate
  split
  · exact denyGate_canonical h
  · dsimp only
    split
    · exact denyGate_canonical h
    · split
      · exact h
      · split
        · exact h
        · exact h

theorem execGpost_canonical {pd x} (h : MemoryCanonical s) : NextCanonical (execGpost pd x s) :=
  vamer_canonical (fun _ _ _ hu => ite_holds (fun _ hv => settleX_canonical hv) (give_canonical (wrPred_canonical
    (postGate_canonical (by
    split
    · exact releaseWindow_canonical (settleX_canonical hu)
    · exact settleX_canonical hu))))) h

theorem takeResult_canonical {a pd x ls v} (h : MemoryCanonical s) : ResCanonical (takeResult a pd x ls v s) :=
  wrPred_canonical (wr_canonical h)

theorem execGtake_canonical {t pd x} (h : MemoryCanonical s) : NextCanonical (execGtake t pd x s) :=
  vamer_canonical (fun ix ls u hu => ite_holds (takeResult_canonical hu) (by
    split
    · exact takeResult_canonical (denyGate_canonical hu)
    · refine ite_holds (takeResult_canonical (denyGate_canonical hu)) ?_
      extract_lets d
      have hw : ∀ g, ResCanonical (if d.any fun n => n ≤ u.rtime then takeResult x pd ix ls none u
          else .wait (.gate g) fun s => modFrag s ix.ref fun f => { f with deadline := d }) := fun _ =>
        ite_holds (takeResult_canonical hu) fun _ hv => modFrag_canonical hv
      split
      · exact ite_holds (takeResult_canonical (acquireWindow_canonical hu)) (hw _)
      · exact hw _)) h

theorem execGpeek_canonical {x} (h : MemoryCanonical s) : NextCanonical (execGpeek x s) :=
  vamer_canonical (fun _ _ _ hu => by
    dsimp only
    split
    · split
      · exact give_canonical hu
      · exact give_canonical (denyGate_canonical hu)
    · exact give_canonical (denyGate_canonical hu)) h

/-! ### Budgets, slices, fault queues (Machine/Slices) -/

theorem execStopComplete_canonical (h : MemoryCanonical s) : NextCanonical (execStopComplete s) := by
  unfold execStopComplete
  dsimp only
  split
  · split
    · exact finishStop_canonical h
    · exact h
  · exact h

theorem execRevokeComplete_canonical (h : MemoryCanonical s) : NextCanonical (execRevokeComplete s) := by
  unfold execRevokeComplete
  dsimp only
  split
  · split
    · exact h
    · split
      · exact finishRevoke_canonical h
      · exact foldl_canonical h fun _ _ hu => mapReport_canonical hu
  · exact h

theorem endMigration_canonical {c} (h : MemoryCanonical s) : MemoryCanonical (endMigration s c) :=
  refreeze_canonical (foldl_canonical h fun _ _ hu => modCtx_canonical hu)

theorem execDrainDeadline_canonical (h : MemoryCanonical s) : NextCanonical (execDrainDeadline s) := by
  unfold execDrainDeadline
  dsimp only
  split
  · exact h
  · split
    · exact h
    · have hf := fun c => forcedReset_canonical (c := c) h
      split
      · exact stopTrains_canonical (modCtx_canonical (stopSubtree_canonical (hf _)))
      · exact endMigration_canonical (stopSubtree_canonical (hf _))
      · exact finishStop_canonical (hf _)

theorem execBudgetRefill_canonical (h : MemoryCanonical s) : NextCanonical (execBudgetRefill s) := ite_canonical h h

theorem endSlice_canonical {core} (h : MemoryCanonical s) : MemoryCanonical (endSlice s core) := by
  unfold endSlice
  split
  · exact h
  · split
    · exact modCore_canonical (stopTrains_canonical h)
    · exact modCore_canonical (stopTrains_canonical h)

theorem execSliceEnd_canonical (h : MemoryCanonical s) : NextCanonical (execSliceEnd s) := endSlice_canonical h

theorem execBucketEmpty_canonical (h : MemoryCanonical s) : NextCanonical (execBucketEmpty s) :=
  ite_canonical (foldl_canonical h fun _ _ hu => ite_canonical (endSlice_canonical hu) hu) h

theorem chargeTime_canonical (h : MemoryCanonical s) : MemoryCanonical (chargeTime s) :=
  foldl_canonical h fun _ _ hu => by
    split
    · split
      · exact charge_canonical hu
      · exact hu
    · exact hu

theorem sendMsix_canonical {fn vec} (h : MemoryCanonical s) : MemoryCanonical (sendMsix s fn vec) := by
  unfold sendMsix
  split
  · exact modHost_canonical h
  · exact h

theorem fqNotify_canonical {c} (h : MemoryCanonical s) : MemoryCanonical (fqNotify s c) := by
  unfold fqNotify
  dsimp only
  split
  · exact h
  · split
    · exact modCtx_canonical h
    · split
      · exact modCtx_canonical h
      · split
        · exact h
        · exact modCtx_canonical (acceptCard_canonical h)

theorem deliverReport_canonical {c} (h : MemoryCanonical s) : MemoryCanonical (deliverReport s c) := by
  unfold deliverReport
  extract_lets x s₁
  split
  · refine ite_canonical (structConflict_canonical h) (ite_canonical h ?_)
    extract_lets s₂ s₃ s₄ s₅
    have h₃ : MemoryCanonical s₃ := deviceWrite_canonical (deviceWrite_canonical (structClear_canonical h))
    have h₄ : MemoryCanonical s₄ := modCtx_canonical h₃
    have h₅ : MemoryCanonical s₅ := ite_canonical (modCtx_canonical h₄) h₄
    clear_value s₅
    refine ite_canonical ?_ h₅
    split
    · exact sendMsix_canonical h₅
    · exact h₅
  · exact h

theorem execFaultReportDeliver_canonical (h : MemoryCanonical s) : NextCanonical (execFaultReportDeliver s) :=
  ite_canonical (fqNotify_canonical (deliverReport_canonical (fqNotify_canonical h))) h

/-! ### Trap instructions (Machine/TrapInstr) -/

theorem execTrap_canonical {x} (h : MemoryCanonical s) : NextCanonical (execTrap x s) :=
  vamer_canonical (fun _ _ _ hu => hu) h

theorem execTret_canonical {x} (h : MemoryCanonical s) : NextCanonical (execTret x s) :=
  vamer_canonical (fun _ _ _ hu => ite_canonical (noteIssue_canonical (trapReturn_canonical hu))
    (trapReturn_canonical hu)) h

theorem assertStop_canonical {c r} (h : MemoryCanonical s) : MemoryCanonical (assertStop s c r) := by
  unfold assertStop
  split
  · exact h
  · exact stopTrains_canonical (by
      split
      · exact beginOp_canonical (sendReport_canonical h)
      · exact refreeze_canonical (modCtx_canonical (stopSubtree_canonical (sendReport_canonical h))))

theorem execAssert_canonical {x} (h : MemoryCanonical s) : NextCanonical (execAssert x s) :=
  vamer_canonical (fun _ _ _ hu => ite_holds hu (ite_canonical (commit_canonical hu hu) (assertStop_canonical
    (commit_canonical hu hu)))) h

theorem onFrame_canonical {a x ls f} (hf : ∀ k fr m, ResCanonical (f k fr m)) : ResCanonical (onFrame a x ls s f) := by
  unfold onFrame
  split
  · trivial
  · dsimp only
    split
    · trivial
    · exact hf _ _ _

theorem execTfrd_canonical {x} (h : MemoryCanonical s) : NextCanonical (execTfrd x s) :=
  vamer_canonical (fun _ _ _ hu => onFrame_canonical fun _ _ _ => wr_canonical hu) h

theorem execTfwr_canonical {x} (h : MemoryCanonical s) : NextCanonical (execTfwr x s) :=
  vamer_canonical (fun _ _ _ hu => onFrame_canonical fun _ _ _ => modCoach_canonical hu) h

theorem execFbpop_canonical {x} (h : MemoryCanonical s) : NextCanonical (execFbpop x s) :=
  vamer_canonical (fun _ _ _ hu => ite_holds trivial (ite_holds trivial (by
    split
    · exact give_canonical hu
    · split
      · exact give_canonical hu
      · exact writeStruct_canonical hu (fun _ hv => give_canonical (saveBufs_canonical (modCtx_canonical hv)))))) h

theorem execFbstat_canonical {clr x} (h : MemoryCanonical s) : NextCanonical (execFbstat clr x s) :=
  vamer_canonical (fun _ _ _ hu => ite_holds trivial (by
    split
    · exact give_canonical hu
    · exact give_canonical (ite_canonical (saveBufs_canonical (modCtx_canonical hu)) hu))) h

/-! ### Observation (Machine/Observe) -/

theorem execBkpt_canonical {x} (h : MemoryCanonical s) : NextCanonical (execBkpt x s) :=
  vamer_canonical (fun _ _ _ hu => hu) h

theorem execSrd_canonical {wide x} (h : MemoryCanonical s) : NextCanonical (execSrd wide x s) :=
  vamer_canonical (fun _ _ _ hu => by
    split
    · trivial
    · split
      · trivial
      · exact wr_canonical hu) h

theorem execSwr_canonical {wide x} (h : MemoryCanonical s) : NextCanonical (execSwr wide x s) :=
  vamer_canonical (fun _ _ _ hu => by
    split
    · trivial
    · exact ite_holds trivial (ite_holds trivial (ite_holds (modCoach_canonical hu) (sysSet_canonical hu)))) h

theorem execMark_canonical {x} (h : MemoryCanonical s) : NextCanonical (execMark x s) :=
  vamer_canonical (fun _ _ _ hu => traceRecord_canonical hu) h

theorem execWatch_canonical {r w n x} (h : MemoryCanonical s) : NextCanonical (execWatch r w n x s) :=
  vamer_canonical (fun _ _ _ hu => modCtx_canonical hu) h

theorem execCntSelWrite_canonical (h : MemoryCanonical s) : NextCanonical (execCntSelWrite s) :=
  ite_canonical (sysSet_canonical h) h

theorem execCounterPolicyTick_canonical (h : MemoryCanonical s) : NextCanonical (execCounterPolicyTick s) := by
  unfold execCounterPolicyTick
  split
  · exact h
  · exact modSys_canonical h

theorem ringStore_canonical {c base len off bs} (h : MemoryCanonical s) :
    OptCanonical (ringStore s c base len off bs) := by
  unfold ringStore
  dsimp only
  split
  · trivial
  · split
    · exact (deviceStore_canonical h).some ‹_›
    · exact deviceStore_canonical ((deviceStore_canonical h).some ‹_›)

theorem seriesTick_canonical {c bs} (h : MemoryCanonical s) : MemoryCanonical (seriesTick s c bs) := by
  unfold seriesTick
  dsimp only
  split
  · exact countLost_canonical h
  · split
    · exact countLost_canonical h
    · exact modSys_canonical ((ringStore_canonical h).some ‹_›)

theorem sampleCores_canonical {c} (h : MemoryCanonical s) : MemoryCanonical (sampleCores s c) :=
  foldl_canonical h fun _ _ hu => ite_canonical hu (by
    split
    · split
      · exact traceRecord_canonical hu
      · exact hu
    · exact hu)

theorem execTimeSeriesTick_canonical (h : MemoryCanonical s) : NextCanonical (execTimeSeriesTick s) := by
  unfold execTimeSeriesTick
  dsimp only
  split
  · exact h
  · split
    · exact sampleCores_canonical (seriesTick_canonical h)
    · exact seriesTick_canonical h

theorem execSysregHostWrite_canonical (h : MemoryCanonical s) : NextCanonical (execSysregHostWrite s) :=
  sysHalfWrite_canonical h

theorem errorRecord_canonical {dkind die st addr owner ue poison} (h : MemoryCanonical s) :
    MemoryCanonical (errorRecord s dkind die st addr owner ue poison) := by
  unfold errorRecord
  extract_lets key c s₁ period e merged
  have h₁ : MemoryCanonical s₁ := modHost_canonical h
  clear_value s₁ merged
  split
  · exact modHost_canonical (hostWrite_canonical h₁)
  · exact h₁
  · exact ite_canonical h₁ (sendMsix_canonical (modHost_canonical (hostWrite_canonical h₁)))

theorem errorEffect_canonical (h : MemoryCanonical s) : MemoryCanonical (errorEffect s) := by
  unfold errorEffect
  extract_lets k t poison
  split
  · exact ite_canonical h (modCluster_canonical h)
  · split
    · exact ite_canonical (discardWord_canonical h) h
    · exact h
  · refine ite_canonical h ?_
    split
    · exact ite_canonical h (l1Set_canonical h)
    · exact h
  · exact ite_canonical h (modTrain_canonical h)
  · exact ite_canonical h (modCoach_canonical h)
  · exact ite_canonical h (modCoach_canonical h)
  · exact ite_canonical h (modTrain_canonical h)
  · exact ite_canonical h h
  · exact ite_canonical h h

theorem execErrorDetected_canonical (h : MemoryCanonical s) : NextCanonical (execErrorDetected s) :=
  ite_canonical h (ite_canonical (errorEffect_canonical h) (errorRecord_canonical (errorEffect_canonical h)))

theorem execCellarRefreshWindowEnd_canonical (h : MemoryCanonical s) : NextCanonical (execCellarRefreshWindowEnd s) :=
  foldl_canonical h fun _ _ hu => foldl_canonical hu fun _ _ hv => foldl_canonical hv fun _ _ hw =>
    replyPend_canonical hw

/-! ### Mailbox commands (Machine/Mailbox) -/

theorem endCommand_canonical {x res} (h : MemoryCanonical s) : MemoryCanonical (endCommand s x res) :=
  modMbox_canonical h

theorem onCommand_canonical {x is attest f} (h : MemoryCanonical s)
    (hf : ∀ m u, MemoryCanonical u → CmdCanonical (f m u)) : NextCanonical (onCommand s x is attest f) :=
  ite_canonical h (ite_canonical (endCommand_canonical h) (by
    split
    · exact endCommand_canonical ((hf _ _ h).ends ‹_›)
    · exact (hf _ _ h).later ‹_›))

theorem execMailboxCommandComplete_canonical (h : MemoryCanonical s) : NextCanonical (execMailboxCommandComplete s) :=
  ite_canonical h (sendMsix_canonical (modHost_canonical (modMbox_canonical h)))

theorem execMailboxUnknownOp_canonical (h : MemoryCanonical s) : NextCanonical (execMailboxUnknownOp s) :=
  onCommand_canonical h (fun _ _ hu => hu)

theorem execMailboxOrun_canonical (h : MemoryCanonical s) : NextCanonical (execMailboxOrun s) :=
  ite_canonical (mboxCmd_canonical h) h

theorem execRootfq_canonical (h : MemoryCanonical s) : NextCanonical (execRootfq s) :=
  onCommand_canonical h (fun _ _ hu => ite_holds hu (modHost_canonical (modCtx_canonical hu)))

theorem execErrring_canonical (h : MemoryCanonical s) : NextCanonical (execErrring s) :=
  onCommand_canonical h (fun _ _ hu => ite_holds hu (modHost_canonical hu))

theorem execBindvf_canonical (h : MemoryCanonical s) : NextCanonical (execBindvf s) :=
  onCommand_canonical h (fun _ _ hu => ite_holds hu (ite_holds hu (modHost_canonical hu)))

theorem execEndpoint_canonical (h : MemoryCanonical s) : NextCanonical (execEndpoint s) :=
  onCommand_canonical h (fun _ _ hu => ite_holds hu (ite_canonical (modCtx_canonical hu) (loseEndpoint_canonical hu)))

theorem execHdm_canonical (h : MemoryCanonical s) : NextCanonical (execHdm s) :=
  onCommand_canonical h (fun _ _ hu => ite_holds hu (modHost_canonical hu))

theorem execPower_canonical (h : MemoryCanonical s) : NextCanonical (execPower s) :=
  onCommand_canonical h (fun _ _ hu => ite_holds hu (modHost_canonical hu))

theorem execRetire_canonical (h : MemoryCanonical s) : NextCanonical (execRetire s) :=
  onCommand_canonical h (fun _ _ hu => by
    dsimp only
    split
    · exact hu
    · split
      · exact hu
      · exact modHost_canonical (ite_canonical (foldl_canonical hu fun _ _ hv => bindCore_canonical hv) hu))

theorem execRootctx_canonical (h : MemoryCanonical s) : NextCanonical (execRootctx s) :=
  onCommand_canonical h (fun _ _ hu => ite_holds hu (by
    split
    · exact hu
    · dsimp only
      split
      · exact hu
      · exact modCtx_canonical hu))

theorem hcopyRequest_canonical {ma k} (h : MemoryCanonical s) : MemoryCanonical (hcopyRequest s ma k) := by
  unfold hcopyRequest
  split
  · exact countEvent_canonical (homeAccess_canonical h)
  · exact h

theorem markHome_canonical {ma bad} (h : MemoryCanonical s) : MemoryCanonical (markHome s ma bad) := by
  unfold markHome
  split
  · exact h
  · exact h

theorem hcopyUnits_canonical {toHost bus ma n k} (h : MemoryCanonical s) :
    MemoryCanonical (hcopyUnits toHost bus ma n k s) := by
  induction n generalizing k s with
  | zero => exact h
  | succ n ih =>
    have hr := hcopyRequest_canonical (ma := ma + 16 * k) (k := k) h
    exact ih (ite_canonical (hostPoison_canonical (hostWrite_canonical hr)) (markHome_canonical
      (deviceWrite_canonical hr)))

theorem execHcopy_canonical (h : MemoryCanonical s) : NextCanonical (execHcopy s) :=
  onCommand_canonical h fun m _ hu =>
    have hc := fun toHost bus ma n k => hcopyUnits_canonical (toHost := toHost) (bus := bus) (ma := ma) (n := n)
      (k := k)
      (structClear_canonical (ctx := 0) (addr := m.arg1.toNat) hu)
    ite_holds hu (ite_holds hu (ite_holds hu (ite_holds (structConflict_canonical hu)
      (ite_holds (hc _ _ _ _ _) (modMbox_canonical (hc _ _ _ _ _))))))

theorem enqueueDone_canonical {x st} (h : MemoryCanonical s) : CmdCanonical (enqueueDone s x st) := modMbox_canonical h

theorem execEnqueue_canonical (h : MemoryCanonical s) : NextCanonical (execEnqueue s) :=
  onCommand_canonical h fun m u hu => ite_holds hu <| ite_holds hu <| ite_holds hu <| by
    split
    · exact enqueueDone_canonical hu
    · refine ite_holds (enqueueDone_canonical hu) ?_
      extract_lets w v
      split
      · exact enqueueDone_canonical (acceptCard_canonical hu)
      · refine ite_holds (enqueueDone_canonical hu) (ite_holds hu ?_)
        have hv : MemoryCanonical v := by
          unfold v
          split
          · exact ite_canonical (structConflict_canonical hu) hu
          · exact hu
        clear_value v
        exact hv

/-! ### RESYNC and ATTEST (Machine/Reports) -/

theorem putBuffer_canonical {bus bs} (h : MemoryCanonical s) : CmdCanonical (putBuffer s bus bs) := by
  unfold putBuffer
  split
  · exact h
  · split
    · exact hostWrite_canonical h
    · exact hostWrite_canonical h

theorem execResync_canonical (h : MemoryCanonical s) : NextCanonical (execResync s) :=
  onCommand_canonical h (fun _ _ hu => ite_holds (modMbox_canonical hu) (putBuffer_canonical hu))

theorem execAttest_canonical (h : MemoryCanonical s) : NextCanonical (execAttest s) :=
  onCommand_canonical h (fun _ _ hu => putBuffer_canonical hu)

/-! ### Migration (Machine/Migrate) -/

theorem beginMigrate_canonical {c} (h : MemoryCanonical s) : MemoryCanonical (beginMigrate s c) :=
  refreeze_canonical (foldl_canonical h fun _ _ hu => modCtx_canonical hu)

theorem undoMigrate_canonical {c} (h : MemoryCanonical s) : MemoryCanonical (undoMigrate s c) :=
  refreeze_canonical (foldl_canonical h fun _ _ hu => modCtx_canonical hu)

theorem flushHeld_canonical {c} (h : MemoryCanonical s) : MemoryCanonical (flushHeld s c) :=
  foldl_canonical h fun _ _ hu => ite_canonical (levelWriteBack_canonical hu) hu

theorem leftReports_canonical {cs} (h : MemoryCanonical s) : MemoryCanonical (leftReports s cs) :=
  foldl_canonical h fun _ _ hu => ite_canonical hu (foldl_canonical hu fun _ _ hv => sendReport_canonical hv)

theorem leavePackage_canonical {c} (h : MemoryCanonical s) : MemoryCanonical (leavePackage s c) := by
  unfold leavePackage
  extract_lets cs s₁ s₂
  have h₁ : MemoryCanonical s₁ := dropGates_canonical (leftReports_canonical h)
  have h₂ : MemoryCanonical s₂ := foldl_canonical h₁ fun _ _ hu => ite_canonical (setQueue_canonical hu) hu
  exact foldl_canonical h₂ fun _ _ hu => loseAll_canonical hu

theorem finishMigrate_canonical {c m} (h : MemoryCanonical s) : CmdCanonical (finishMigrate s c m) := by
  unfold finishMigrate
  extract_lets img bs
  refine ite_holds (undoMigrate_canonical h) (ite_holds (undoMigrate_canonical h) ?_)
  split
  · exact refreeze_canonical (hostWrite_canonical (leavePackage_canonical
      (foldl_canonical (modHost_canonical h) fun _ _ hu => flushHeld_canonical hu)))
  · exact foldl_canonical h fun _ _ hu => structConflict_canonical hu

theorem execMigrateOut_canonical (h : MemoryCanonical s) : NextCanonical (execMigrateOut s) :=
  onCommand_canonical h (fun _ _ hu => ite_holds (ite_holds hu (ite_holds hu (ite_holds hu (ite_holds hu
    (modMbox_canonical (beginMigrate_canonical hu)))))) (ite_holds hu (ite_holds (finishMigrate_canonical hu) hu)))

theorem joinPackage_canonical {par m f} (h : MemoryCanonical s) : MemoryCanonical (joinPackage s par m f) := by
  unfold joinPackage
  extract_lets s₁ x s₂ ma s₃ s₄ s₅ s₆ s₇
  have h₁ : MemoryCanonical s₁ := foldl_canonical h fun _ _ hu => hu
  have h₂ : MemoryCanonical s₂ := ite_canonical (modCtx_canonical h₁) h₁
  have h₃ : MemoryCanonical s₃ := claimFrames_canonical (evictRanges_canonical (shootDown_canonical h₂))
  have h₄ : MemoryCanonical s₄ := foldl_canonical h₃ fun _ _ hu => foldl_canonical hu fun _ _ hv =>
    emptyCasks_canonical hv
  have h₅ : MemoryCanonical s₅ := foldl_canonical h₄ fun _ _ hu => setQueue_canonical hu
  have h₆ : MemoryCanonical s₆ := foldl_canonical h₅ fun _ _ hu => hu
  have h₇ : MemoryCanonical s₇ := foldl_canonical h₆ fun _ _ hu => by
    split
    · exact keepLevel_canonical hu
    · exact hu
  exact refreeze_canonical (foldl_canonical h₇ fun _ _ hu => writeMapImage_canonical hu)

theorem execMigrateIn_canonical (h : MemoryCanonical s) : NextCanonical (execMigrateIn s) :=
  onCommand_canonical h (fun _ _ hu => ite_holds hu (ite_holds hu (ite_holds hu (by
    split
    · exact hu
    · split
      · exact hu
      · split
        · exact hu
        · split
          · exact hu
          · dsimp only
            split
            · exact hu
            · exact joinPackage_canonical hu))))

/-! ### The host bus, links, boot, power (Machine/HostBus) -/

theorem errorCompletion_canonical {ma} (h : MemoryCanonical s) : MemoryCanonical (errorCompletion s ma) :=
  modHost_canonical h

theorem execMmioRegisterWrite_canonical (h : MemoryCanonical s) : NextCanonical (execMmioRegisterWrite s) :=
  ite_canonical h (ite_canonical (errorCompletion_canonical h) (by
    split
    · exact mmioWrite_canonical h
    · exact h))

theorem execSysregLoRead_canonical (h : MemoryCanonical s) : NextCanonical (execSysregLoRead s) :=
  ite_canonical h (ite_canonical (errorCompletion_canonical h) (by
    split
    · exact modHost_canonical (mmioRead_canonical h)
    · exact modHost_canonical h))

theorem padWrite_canonical {core off b} (h : MemoryCanonical s) : MemoryCanonical (padWrite s core off b) := by
  unfold padWrite
  split
  · exact modTrain_canonical h
  · exact modCore_canonical h

theorem serveWindow_canonical {a n} (h : MemoryCanonical s) : OptCanonical (serveWindow s a n) := by
  unfold serveWindow
  split
  · trivial
  · split
    · trivial
    · split
      · exact foldl_canonical h fun _ _ hu => padWrite_canonical hu
      · exact modHost_canonical h

theorem execHostMmioError_canonical (h : MemoryCanonical s) : NextCanonical (execHostMmioError s) := by
  unfold execHostMmioError
  dsimp only
  split
  · exact (serveWindow_canonical h).some ‹_›
  · split
    · exact errorCompletion_canonical h
    · exact h

theorem mergeHost_canonical {e} (h : MemoryCanonical s) : MemoryCanonical (mergeHost s e) :=
  homePut_canonical (tagFrame_canonical (dropOwner_canonical h))

theorem execCxlMemWrite_canonical (h : MemoryCanonical s) : NextCanonical (execCxlMemWrite s) :=
  ite_canonical (modHost_canonical (foldl_canonical h fun _ _ hu => mergeHost_canonical hu)) (ite_canonical
    (errorCompletion_canonical h) (ite_canonical h (modHost_canonical h)))

theorem execCxlMemRead_canonical (h : MemoryCanonical s) : NextCanonical (execCxlMemRead s) :=
  ite_canonical (errorCompletion_canonical h) (ite_canonical h (modHost_canonical (modHost_canonical
    (foldl_canonical h fun _ _ hu => mergeHost_canonical hu))))

theorem execBackInvalidateComplete_canonical (h : MemoryCanonical s) : NextCanonical (execBackInvalidateComplete s) :=
  modHost_canonical h

theorem execFunctionLevelReset_canonical (h : MemoryCanonical s) : NextCanonical (execFunctionLevelReset s) := by
  unfold execFunctionLevelReset
  split
  · split
    · exact endMigration_canonical (stopSubtree_canonical (forcedReset_canonical h))
    · exact h
  · exact h

theorem failSlots_canonical {f n} (h : MemoryCanonical s) : MemoryCanonical (failSlots f n s) := by
  induction n generalizing s with
  | zero => exact h
  | succ n ih =>
    unfold failSlots
    split
    · exact h
    · exact ih (endCopyFault_canonical h)

theorem execBolharLinkChange_canonical (h : MemoryCanonical s) : NextCanonical (execBolharLinkChange s) :=
  ite_canonical h (ite_canonical (modHost_canonical h) (failSlots_canonical (modHost_canonical h)))

theorem execPcieLinkChange_canonical (h : MemoryCanonical s) : NextCanonical (execPcieLinkChange s) :=
  ite_canonical h (ite_canonical (modHost_canonical h) (failSlots_canonical (modHost_canonical h)))

theorem execBolharFlitCrcError_canonical (h : MemoryCanonical s) : NextCanonical (execBolharFlitCrcError s) :=
  ite_canonical h (by
    dsimp only
    split
    · exact endCopyFault_canonical (errorRecord_canonical h)
    · exact errorRecord_canonical h)

theorem windowWrite_canonical {c va bs} (h : MemoryCanonical s) : OptCanonical (windowWrite s c va bs) := by
  unfold windowWrite
  split
  · exact deviceStore_canonical h
  · trivial

theorem execBolharPeerRequest_canonical (h : MemoryCanonical s) : NextCanonical (execBolharPeerRequest s) :=
  ite_canonical (by
    split
    · exact modHost_canonical ((windowWrite_canonical h).some ‹_›)
    · exact errorCompletion_canonical h) (by
    split
    · exact modHost_canonical h
    · exact errorCompletion_canonical h)

theorem setClock_canonical {die n} (h : MemoryCanonical s) : MemoryCanonical (setClock s die n) := h

theorem applyRecord_canonical (h : MemoryCanonical s) : MemoryCanonical (applyRecord s) := by
  unfold applyRecord
  dsimp only
  split
  · exact modHost_canonical h
  · exact foldl_canonical (modHost_canonical h) fun _ _ hu => setClock_canonical hu

theorem execPowerUp_canonical (h : MemoryCanonical s) : NextCanonical (execPowerUp s) :=
  ite_canonical h (by
    split
    · exact modHost_canonical h
    · split
      · exact modHost_canonical h
      · exact modHost_canonical h
    · exact modHost_canonical h
    · exact modHost_canonical (applyRecord_canonical h)
    · exact h)

theorem heldReset_canonical : MemoryCanonical (heldReset s) := reset_canonical

theorem execInputVoltageOutOfRange_canonical (h : MemoryCanonical s) :
    NextCanonical (execInputVoltageOutOfRange s) := ite_canonical heldReset_canonical (modHost_canonical h)

theorem execThrottleAdjust_canonical (h : MemoryCanonical s) : NextCanonical (execThrottleAdjust s) :=
  ite_canonical (setClock_canonical h) h

/-! ### Integer instructions (Machine/Integer) -/

theorem trapWord_canonical {t w} (h : MemoryCanonical s) : NextCanonical (trapWord t w s) := by
  unfold trapWord
  split
  · split
    · exact trapB_canonical h
    · trivial
  · trivial

theorem execZtrap_canonical {w} (h : MemoryCanonical s) : NextCanonical (execZtrap w s) := trapWord_canonical h

theorem execOnesWord_canonical {w} (h : MemoryCanonical s) : NextCanonical (execOnesWord w s) := trapWord_canonical h

theorem execUnassignedOpc_canonical {w} (h : MemoryCanonical s) : NextCanonical (execUnassignedOpc w s) :=
  trapWord_canonical h

theorem alu2_canonical {i a bits bw cw pd f} (h : MemoryCanonical s) : NextCanonical (alu2 i a bits bw cw pd f s) :=
  vamer_canonical (fun _ _ _ hu => lanewiseP_canonical hu) h

theorem alu3_canonical {i a bits bw cw dw pd f} (h : MemoryCanonical s) :
    NextCanonical (alu3 i a bits bw cw dw pd f s) := vamer_canonical (fun _ _ _ hu => lanewiseP_canonical hu) h

theorem alu1_canonical {i a bits bw pd f} (h : MemoryCanonical s) : NextCanonical (alu1 i a bits bw pd f s) :=
  vamer_canonical (fun _ _ _ hu => lanewiseP_canonical hu) h

theorem execAdd_canonical {m x} (h : MemoryCanonical s) : NextCanonical (execAdd m x s) := alu2_canonical h

theorem execSub_canonical {m x} (h : MemoryCanonical s) : NextCanonical (execSub m x s) := alu2_canonical h

theorem carryOp_canonical {i sub w64 cp a} (h : MemoryCanonical s) : NextCanonical (carryOp i sub w64 cp a s) :=
  vamer_canonical (fun _ _ _ hu => lanewiseP_canonical hu) h

theorem execAddc_canonical {w64 cp x} (h : MemoryCanonical s) : NextCanonical (execAddc w64 cp x s) :=
  carryOp_canonical h

theorem execSubb_canonical {w64 cp x} (h : MemoryCanonical s) : NextCanonical (execSubb w64 cp x s) :=
  carryOp_canonical h

theorem execMul_canonical {m x} (h : MemoryCanonical s) : NextCanonical (execMul m x s) := by
  unfold execMul
  exact alu2_canonical h

theorem execMulh_canonical {m x} (h : MemoryCanonical s) : NextCanonical (execMulh m x s) := alu2_canonical h

theorem execMad_canonical {m x} (h : MemoryCanonical s) : NextCanonical (execMad m x s) := by
  unfold execMad
  exact alu3_canonical h

theorem execDiv_canonical {m x} (h : MemoryCanonical s) : NextCanonical (execDiv m x s) := by
  unfold execDiv
  exact alu2_canonical h

theorem execRem_canonical {m x} (h : MemoryCanonical s) : NextCanonical (execRem m x s) := by
  unfold execRem
  exact alu2_canonical h

theorem execMin_canonical {m x} (h : MemoryCanonical s) : NextCanonical (execMin m x s) := alu2_canonical h

theorem execMax_canonical {m x} (h : MemoryCanonical s) : NextCanonical (execMax m x s) := alu2_canonical h

theorem execAbs_canonical {m x} (h : MemoryCanonical s) : NextCanonical (execAbs m x s) := by
  unfold execAbs
  exact alu1_canonical h

theorem execAnd_canonical {m x} (h : MemoryCanonical s) : NextCanonical (execAnd m x s) := alu2_canonical h

theorem execOr_canonical {m x} (h : MemoryCanonical s) : NextCanonical (execOr m x s) := alu2_canonical h

theorem execXor_canonical {m x} (h : MemoryCanonical s) : NextCanonical (execXor m x s) := alu2_canonical h

theorem execNot_canonical {m x} (h : MemoryCanonical s) : NextCanonical (execNot m x s) := alu1_canonical h

theorem execShl_canonical {m x} (h : MemoryCanonical s) : NextCanonical (execShl m x s) := alu2_canonical h

theorem execShr_canonical {m x} (h : MemoryCanonical s) : NextCanonical (execShr m x s) := alu2_canonical h

theorem execSar_canonical {m x} (h : MemoryCanonical s) : NextCanonical (execSar m x s) := alu2_canonical h

theorem execRot_canonical {m x} (h : MemoryCanonical s) : NextCanonical (execRot m x s) := alu2_canonical h

theorem execBfx_canonical {m x} (h : MemoryCanonical s) : NextCanonical (execBfx m x s) := alu2_canonical h

theorem execBfi_canonical {m x} (h : MemoryCanonical s) : NextCanonical (execBfi m x s) := by
  unfold execBfi
  exact alu3_canonical h

theorem execPopc_canonical {m x} (h : MemoryCanonical s) : NextCanonical (execPopc m x s) := alu1_canonical h

theorem execClz_canonical {m x} (h : MemoryCanonical s) : NextCanonical (execClz m x s) := alu1_canonical h

theorem execCtz_canonical {m x} (h : MemoryCanonical s) : NextCanonical (execCtz m x s) := alu1_canonical h

theorem execBrev_canonical {m x} (h : MemoryCanonical s) : NextCanonical (execBrev m x s) := alu1_canonical h

theorem execSel_canonical {w64 neg sp x} (h : MemoryCanonical s) : NextCanonical (execSel w64 neg sp x s) :=
  vamer_canonical (fun _ _ _ hu => lanewise_canonical hu) h

theorem execCmp_canonical {w64 u cond x} (h : MemoryCanonical s) : NextCanonical (execCmp w64 u cond x s) :=
  alu2_canonical h

theorem execPlop_canonical {m x} (h : MemoryCanonical s) : NextCanonical (execPlop m x s) := alu3_canonical h

theorem execMov_canonical {m x} (h : MemoryCanonical s) : NextCanonical (execMov m x s) := alu1_canonical h

theorem execSrseedWrite_canonical {m x} (h : MemoryCanonical s) : NextCanonical (execSrseedWrite m x s) :=
  alu1_canonical h

theorem execPredsWrite_canonical {m x} (h : MemoryCanonical s) : NextCanonical (execPredsWrite m x s) :=
  alu1_canonical h

theorem execLea_canonical {m x} (h : MemoryCanonical s) : NextCanonical (execLea m x s) := alu3_canonical h

/-! ### Special functions (Machine/Special) -/

theorem sfunBody_canonical {f rm ftz x x' ls} (h : MemoryCanonical s) : ResCanonical (sfunBody f rm ftz x x' ls s) :=
  rounded_canonical h

theorem execRcp_canonical {rm ftz x} (h : MemoryCanonical s) : NextCanonical (execRcp rm ftz x s) :=
  vamer_canonical (fun _ _ _ hu => sfunBody_canonical hu) h

theorem execRsq_canonical {ftz x} (h : MemoryCanonical s) : NextCanonical (execRsq ftz x s) :=
  vamer_canonical (fun _ _ _ hu => sfunBody_canonical hu) h

theorem execSqrt_canonical {rm ftz x} (h : MemoryCanonical s) : NextCanonical (execSqrt rm ftz x s) :=
  vamer_canonical (fun _ _ _ hu => sfunBody_canonical hu) h

theorem execExp2_canonical {ftz x} (h : MemoryCanonical s) : NextCanonical (execExp2 ftz x s) :=
  vamer_canonical (fun _ _ _ hu => sfunBody_canonical hu) h

theorem execLog2_canonical {ftz x} (h : MemoryCanonical s) : NextCanonical (execLog2 ftz x s) :=
  vamer_canonical (fun _ _ _ hu => sfunBody_canonical hu) h

theorem execSin_canonical {ftz x} (h : MemoryCanonical s) : NextCanonical (execSin ftz x s) :=
  vamer_canonical (fun _ _ _ hu => sfunBody_canonical hu) h

theorem execCos_canonical {ftz x} (h : MemoryCanonical s) : NextCanonical (execCos ftz x s) :=
  vamer_canonical (fun _ _ _ hu => sfunBody_canonical hu) h

theorem execTanh_canonical {ftz x} (h : MemoryCanonical s) : NextCanonical (execTanh ftz x s) :=
  vamer_canonical (fun _ _ _ hu => sfunBody_canonical hu) h

theorem execSigm_canonical {ftz x} (h : MemoryCanonical s) : NextCanonical (execSigm ftz x s) :=
  vamer_canonical (fun _ _ _ hu => sfunBody_canonical hu) h

theorem execSincos_canonical {ftz x} (h : MemoryCanonical s) : NextCanonical (execSincos ftz x s) :=
  vamer_canonical (fun _ _ _ hu => wr_canonical (wr_canonical hu)) h

/-! ### Every meaning (Machine/Dispatch) -/

theorem exec_canonical {i} (h : MemoryCanonical s) : NextCanonical (exec i s) := by
  cases i with
  | ztrap => exact execZtrap_canonical h
  | onesWord => exact execOnesWord_canonical h
  | add => exact execAdd_canonical h
  | sub => exact execSub_canonical h
  | addc => exact execAddc_canonical h
  | subb => exact execSubb_canonical h
  | mul => exact execMul_canonical h
  | mulh => exact execMulh_canonical h
  | mad => exact execMad_canonical h
  | div => exact execDiv_canonical h
  | rem => exact execRem_canonical h
  | min => exact execMin_canonical h
  | max => exact execMax_canonical h
  | abs => exact execAbs_canonical h
  | and => exact execAnd_canonical h
  | or => exact execOr_canonical h
  | xor => exact execXor_canonical h
  | not => exact execNot_canonical h
  | shl => exact execShl_canonical h
  | shr => exact execShr_canonical h
  | sar => exact execSar_canonical h
  | rot => exact execRot_canonical h
  | bfx => exact execBfx_canonical h
  | bfi => exact execBfi_canonical h
  | popc => exact execPopc_canonical h
  | clz => exact execClz_canonical h
  | ctz => exact execCtz_canonical h
  | brev => exact execBrev_canonical h
  | sel => exact execSel_canonical h
  | cmp => exact execCmp_canonical h
  | plop => exact execPlop_canonical h
  | mov => exact execMov_canonical h
  | lea => exact execLea_canonical h
  | srseedWrite => exact execSrseedWrite_canonical h
  | predsWrite => exact execPredsWrite_canonical h
  | cvt => exact execCvt_canonical h
  | f2i => exact execF2i_canonical h
  | i2f => exact execI2f_canonical h
  | i2i => exact execI2i_canonical h
  | pack => exact execPack_canonical h
  | unpk => exact execUnpk_canonical h
  | qnt => exact execQnt_canonical h
  | dqnt => exact execDqnt_canonical h
  | bscale => exact execBscale_canonical h
  | bmax => exact execBmax_canonical h
  | bytx => exact execBytx_canonical h
  | srstep => exact execSrstep_canonical h
  | fadd => exact execFadd_canonical h
  | fsub => exact execFsub_canonical h
  | fmul => exact execFmul_canonical h
  | ffma => exact execFfma_canonical h
  | ffms => exact execFfms_canonical h
  | fnma => exact execFnma_canonical h
  | fdp2 => exact execFdp2_canonical h
  | fdiv => exact execFdiv_canonical h
  | fmin => exact execFmin_canonical h
  | fmax => exact execFmax_canonical h
  | fabs => exact execFabs_canonical h
  | fneg => exact execFneg_canonical h
  | fsgn => exact execFsgn_canonical h
  | fcmp => exact execFcmp_canonical h
  | fclass => exact execFclass_canonical h
  | frint => exact execFrint_canonical h
  | fscale => exact execFscale_canonical h
  | fgetx => exact execFgetx_canonical h
  | fgetm => exact execFgetm_canonical h
  | fsel => exact execFsel_canonical h
  | rcp => exact execRcp_canonical h
  | rsq => exact execRsq_canonical h
  | sqrt => exact execSqrt_canonical h
  | exp2 => exact execExp2_canonical h
  | log2 => exact execLog2_canonical h
  | sin => exact execSin_canonical h
  | cos => exact execCos_canonical h
  | sincos => exact execSincos_canonical h
  | tanh => exact execTanh_canonical h
  | sigm => exact execSigm_canonical h
  | nop => exact execNop_canonical h
  | bra => exact execBra_canonical h
  | brx => exact execBrx_canonical h
  | call => exact execCall_canonical h
  | callx => exact execCallx_canonical h
  | ret => exact execRet_canonical h
  | jtab => exact execJtab_canonical h
  | loop => exact execLoop_canonical h
  | brany => exact execBrany_canonical h
  | brall => exact execBrall_canonical h
  | fork => exact execFork_canonical h
  | end_ => exact execEnd_canonical h
  | exit => exact execExit_canonical h
  | rcvMark => exact execRcvMark_canonical h
  | rcvWait => exact execRcvWait_canonical h
  | yield => exact execYield_canonical h
  | nap => exact execNap_canonical h
  | icinv => exact execIcinv_canonical h
  | shfl => exact execShfl_canonical h
  | vote => exact execVote_canonical h
  | redux => exact execRedux_canonical h
  | scan => exact execScan_canonical h
  | match_ => exact execMatch_canonical h
  | bcast => exact execBcast_canonical h
  | cmpct => exact execCmpct_canonical h
  | lperm => exact execLperm_canonical h
  | ld => exact execLd_canonical h
  | st => exact execSt_canonical h
  | ldu => exact execLdu_canonical h
  | lds => exact execLds_canonical h
  | sts => exact execSts_canonical h
  | ldx => exact execLdx_canonical h
  | stx => exact execStx_canonical h
  | ldw => exact execLdw_canonical h
  | ldb => exact execLdb_canonical h
  | stb => exact execStb_canonical h
  | pref => exact execPref_canonical h
  | prefc => exact execPrefc_canonical h
  | cinv => exact execCinv_canonical h
  | cwb => exact execCwb_canonical h
  | cdisc => exact execCdisc_canonical h
  | fence => exact execFence_canonical h
  | ochOpen => exact execOchOpen_canonical h
  | ochSt => exact execOchSt_canonical h
  | ochClose => exact execOchClose_canonical h
  | mdie => exact execMdie_canonical h
  | atom => exact execAtom_canonical h
  | atomc => exact execAtomc_canonical h
  | red => exact execRed_canonical h
  | atomu => exact execAtomu_canonical h
  | atoms => exact execAtoms_canonical h
  | atomsc => exact execAtomsc_canonical h
  | reds => exact execReds_canonical h
  | redu => exact execRedu_canonical h
  | ckfill => exact execCkfill_canonical h
  | ckdraw => exact execCkdraw_canonical h
  | ckpeek => exact execCkpeek_canonical h
  | cktry => exact execCktry_canonical h
  | ckseed => exact execCkseed_canonical h
  | ckred => exact execCkred_canonical h
  | ckclr => exact execCkclr_canonical h
  | ckstat => exact execCkstat_canonical h
  | bar => exact execBar_canonical h
  | bara => exact execBara_canonical h
  | barw => exact execBarw_canonical h
  | bart => exact execBart_canonical h
  | gbar => exact execGbar_canonical h
  | gbart => exact execGbart_canonical h
  | mbinit => exact execMbinit_canonical h
  | mbarr => exact execMbarr_canonical h
  | mbexp => exact execMbexp_canonical h
  | mbwait => exact execMbwait_canonical h
  | mbtry => exact execMbtry_canonical h
  | mbtw => exact execMbtw_canonical h
  | yokeDecl => exact execYokeDecl_canonical h
  | yokeRst => exact execYokeRst_canonical h
  | cpy => exact execCpy_canonical h
  | cpyl => exact execCpyl_canonical h
  | cpyf => exact execCpyf_canonical h
  | cpyp => exact execCpyp_canonical h
  | cpyq => exact execCpyq_canonical h
  | cpwait => exact execCpwait_canonical h
  | xcpy => exact execXcpy_canonical h
  | xcpyl => exact execXcpyl_canonical h
  | xstat => exact execXstat_canonical h
  | dcpy => exact execDcpy_canonical h
  | dkick => exact execDkick_canonical h
  | dstat => exact execDstat_canonical h
  | dck => exact execDck_canonical h
  | darr => exact execDarr_canonical h
  | dexp => exact execDexp_canonical h
  | dwait => exact execDwait_canonical h
  | dtry => exact execDtry_canonical h
  | dfaultWrite => exact execDfaultWrite_canonical h
  | mma => exact execMma_canonical h
  | mmag => exact execMmag_canonical h
  | mmaw => exact execMmaw_canonical h
  | mscl => exact execMscl_canonical h
  | aclr => exact execAclr_canonical h
  | ald => exact execAld_canonical h
  | ast => exact execAst_canonical h
  | amov => exact execAmov_canonical h
  | acvt => exact execAcvt_canonical h
  | aadd => exact execAadd_canonical h
  | await => exact execAwait_canonical h
  | adrop => exact execAdrop_canonical h
  | qclaim => exact execQclaim_canonical h
  | qpubRsv => exact execQpubRsv_canonical h
  | qpub => exact execQpub_canonical h
  | qstat => exact execQstat_canonical h
  | enq => exact execEnq_canonical h
  | enqt => exact execEnqt_canonical h
  | spawn => exact execSpawn_canonical h
  | sjoin => exact execSjoin_canonical h
  | lvwait => exact execLvwait_canonical h
  | lvrd => exact execLvrd_canonical h
  | lvinc => exact execLvinc_canonical h
  | cancel => exact execCancel_canonical h
  | cancelClr => exact execCancelClr_canonical h
  | cfill => exact execCfill_canonical h
  | ctxNew => exact execCtxNew_canonical h
  | ctxGrant => exact execCtxGrant_canonical h
  | ctxRevoke => exact execCtxRevoke_canonical h
  | ctxRun => exact execCtxRun_canonical h
  | ctxStopNow => exact execCtxStopNow_canonical h
  | ctxStopDrain => exact execCtxStopDrain_canonical h
  | ctxStopReset => exact execCtxStopReset_canonical h
  | ctxBudget => exact execCtxBudget_canonical h
  | ctxBudgetRd => exact execCtxBudgetRd_canonical h
  | ctxReflectMask => exact execCtxReflectMask_canonical h
  | ctxReflectDown => exact execCtxReflectDown_canonical h
  | ctxReflectUp => exact execCtxReflectUp_canonical h
  | ctxReflectRet => exact execCtxReflectRet_canonical h
  | gateNew => exact execGateNew_canonical h
  | gateNewDel => exact execGateNewDel_canonical h
  | gateAcl => exact execGateAcl_canonical h
  | gpost => exact execGpost_canonical h
  | gtake => exact execGtake_canonical h
  | gpeek => exact execGpeek_canonical h
  | tlbi => exact execTlbi_canonical h
  | replay => exact execReplay_canonical h
  | replayAll => exact execReplayAll_canonical h
  | hcall => exact execHcall_canonical h
  | trap => exact execTrap_canonical h
  | tret => exact execTret_canonical h
  | assert => exact execAssert_canonical h
  | bkpt => exact execBkpt_canonical h
  | srd => exact execSrd_canonical h
  | swr => exact execSwr_canonical h
  | tfrd => exact execTfrd_canonical h
  | tfwr => exact execTfwr_canonical h
  | fbpop => exact execFbpop_canonical h
  | fbstat => exact execFbstat_canonical h
  | mark => exact execMark_canonical h
  | watch => exact execWatch_canonical h
  | unassignedOpc => exact execUnassignedOpc_canonical h
  | rv32imcInstruction => exact execRv32imcInstruction_canonical h
  | rejoinRelease => exact execRejoinRelease_canonical h
  | napDeadline => exact execNapDeadline_canonical h
  | loadReply => exact execLoadReply_canonical h
  | l1WriteBack => exact execL1WriteBack_canonical h
  | l1Eviction => exact execL1Eviction_canonical h
  | translationWalk => exact execTranslationWalk_canonical h
  | homeAtomic => exact execHomeAtomic_canonical h
  | caskRetry => exact execCaskRetry_canonical h
  | timedWaitDeadline => exact execTimedWaitDeadline_canonical h
  | listEntryAccept => exact execListEntryAccept_canonical h
  | copyChunkTransfer => exact execCopyChunkTransfer_canonical h
  | byteArrival => exact execByteArrival_canonical h
  | copyRetire => exact execCopyRetire_canonical h
  | remoteAck => exact execRemoteAck_canonical h
  | drayWfi => exact execDrayWfi_canonical h
  | mmaPerform => exact execMmaPerform_canonical h
  | enqueueAccept => exact execEnqueueAccept_canonical h
  | cardAdmission => exact execCardAdmission_canonical h
  | cardReady => exact execCardReady_canonical h
  | trainPlacement => exact execTrainPlacement_canonical h
  | trainRetire => exact execTrainRetire_canonical h
  | trainSuspend => exact execTrainSuspend_canonical h
  | trainResume => exact execTrainResume_canonical h
  | fillStart => exact execFillStart_canonical h
  | fillComplete => exact execFillComplete_canonical h
  | sensorClassUpdate => exact execSensorClassUpdate_canonical h
  | sltBindWrite => exact execSltBindWrite_canonical h
  | qcRegisterWrite => exact execQcRegisterWrite_canonical h
  | revokeComplete => exact execRevokeComplete_canonical h
  | stopComplete => exact execStopComplete_canonical h
  | drainDeadline => exact execDrainDeadline_canonical h
  | budgetRefill => exact execBudgetRefill_canonical h
  | bucketEmpty => exact execBucketEmpty_canonical h
  | sliceEnd => exact execSliceEnd_canonical h
  | faultReportDeliver => exact execFaultReportDeliver_canonical h
  | cntSelWrite => exact execCntSelWrite_canonical h
  | cellarRefreshWindowEnd => exact execCellarRefreshWindowEnd_canonical h
  | timeSeriesTick => exact execTimeSeriesTick_canonical h
  | counterPolicyTick => exact execCounterPolicyTick_canonical h
  | sysregLoRead => exact execSysregLoRead_canonical h
  | sysregHostWrite => exact execSysregHostWrite_canonical h
  | errorDetected => exact execErrorDetected_canonical h
  | resync => exact execResync_canonical h
  | rootfq => exact execRootfq_canonical h
  | errring => exact execErrring_canonical h
  | bindvf => exact execBindvf_canonical h
  | endpoint => exact execEndpoint_canonical h
  | hdm => exact execHdm_canonical h
  | migrateOut => exact execMigrateOut_canonical h
  | migrateIn => exact execMigrateIn_canonical h
  | retire => exact execRetire_canonical h
  | attest => exact execAttest_canonical h
  | power => exact execPower_canonical h
  | enqueue => exact execEnqueue_canonical h
  | hcopy => exact execHcopy_canonical h
  | rootctx => exact execRootctx_canonical h
  | mailboxUnknownOp => exact execMailboxUnknownOp_canonical h
  | mailboxOrun => exact execMailboxOrun_canonical h
  | mailboxCommandComplete => exact execMailboxCommandComplete_canonical h
  | mmioRegisterWrite => exact execMmioRegisterWrite_canonical h
  | hostMmioError => exact execHostMmioError_canonical h
  | cxlMemWrite => exact execCxlMemWrite_canonical h
  | cxlMemRead => exact execCxlMemRead_canonical h
  | functionLevelReset => exact execFunctionLevelReset_canonical h
  | bolharFlitCrcError => exact execBolharFlitCrcError_canonical h
  | powerUp => exact execPowerUp_canonical h
  | inputVoltageOutOfRange => exact execInputVoltageOutOfRange_canonical h
  | throttleAdjust => exact execThrottleAdjust_canonical h
  | storePerformedAtHome => exact execStorePerformedAtHome_canonical h
  | backInvalidateComplete => exact execBackInvalidateComplete_canonical h
  | bolharPeerRequest => exact execBolharPeerRequest_canonical h
  | bolharLinkChange => exact execBolharLinkChange_canonical h
  | pcieLinkChange => exact execPcieLinkChange_canonical h
  | priResponse => exact execPriResponse_canonical h

/-! ### Time (Machine/Time) -/

theorem tick_canonical (h : MemoryCanonical s) : MemoryCanonical (tick s) := by
  unfold tick
  split
  · exact h
  · exact resave_canonical (retryLevels_canonical (chargeTime_canonical h))

/-! ### Turns (Machine/Turns) -/

theorem issueTurn_canonical {a defer} (h : MemoryCanonical s) : NextCanonical (issueTurn a defer s) := by
  have hf : FetchedCanonical (fetchAgent { s with cur := some a, defer := defer, stalled := false } a)
    := fetchAgent_canonical h
  unfold issueTurn
  split
  · exact h
  · exact hf.moved ‹_›
  · exact exec_canonical (hf.ready ‹_›)

theorem ageFrags_canonical (h : MemoryCanonical s) : MemoryCanonical (ageFrags s) := h

theorem passRt_canonical (h : MemoryCanonical s) : MemoryCanonical (passRt s) :=
  tick_canonical (ite_canonical h (ageFrags_canonical h))

theorem runTurn_canonical {t} (h : MemoryCanonical s) : NextCanonical (runTurn t s) := by
  unfold runTurn
  split
  · exact issueTurn_canonical h
  · split
    · exact h
    · exact exec_canonical h
  · exact passRt_canonical h

theorem issueFirst_canonical {as} (h : MemoryCanonical s) : NextCanonical (issueFirst as s) := by
  induction as generalizing s with
  | nil => exact passRt_canonical h
  | cons a t ih =>
    have ha := issueTurn_canonical (a := a) (defer := false) h
    unfold issueFirst
    split
    · have hs := ha.next ‹_›
      exact ite_holds (ih hs) hs
    · exact ha

/-- The first change answers an outcome of `exec`. -/
theorem firstChange_canonical {es o} (h : MemoryCanonical s) (e : firstChange es s = some o) : NextCanonical o := by
  induction es with
  | nil => exact nomatch e
  | cons d t ih =>
    have hd : NextCanonical (exec d.1 { s with ev := d.2 }) := exec_canonical h
    unfold firstChange at e
    split at e
    · split at e
      · exact ih e
      · cases e
        exact hd.next ‹_›
    · cases e
      exact hd

theorem ownTurn_canonical (h : MemoryCanonical s) : NextCanonical (ownTurn s) := by
  unfold ownTurn
  split
  · exact firstChange_canonical h ‹_›
  · exact ite_holds (passRt_canonical h) (issueFirst_canonical h)

/-! ### The step (Machine/Step) -/

theorem step_canonical (h : MemoryCanonical s) : NextCanonical (step s) := by
  unfold step
  split
  · exact runTurn_canonical h
  · exact ownTurn_canonical h

end

/-- Settles O58: every meaning keeps the canonical form of memory (`exec_canonical`), and so do the turns and the tick of
real time around it. -/
theorem stepKeepsMemoryCanonical : Obligations.StepKeepsMemoryCanonical := by
  unfold Obligations.StepKeepsMemoryCanonical
  intro s t h e
  exact (step_canonical h).next e

end Sys2Proof.Machine

namespace Sys2Proof.Machine

open Sys2Proof

/-- Settles O59: no byte is listed at reset (`reset_canonical`). -/
theorem resetMemoryCanonical : Obligations.ResetMemoryCanonical := by
  unfold Obligations.ResetMemoryCanonical
  exact ⟨reset_canonical, rfl⟩

/-! ## O34: the events of accesses on their way

One lemma for each event, or for each of its outcomes where it has several; the obligation collects them. -/

section

variable {s : State}

/-! ### The L1 and the walks (R192, R358) -/

theorem exec_l1WriteBack (s : State) : exec .l1WriteBack s = .next (backWords s s.ev.i [s.ev.j / 4]) := rfl

theorem exec_l1Eviction (s : State) :
    exec .l1Eviction s = .next (evictWords s s.ev.i ((List.range 32).map fun k => s.ev.j / 128 * 32 + k)) := rfl

theorem exec_translationWalk (s : State) : exec .translationWalk s = .next
    (walkLookup s s.ev.i (if s.ev.p then some s.ev.j else none) s.ev.k (va55 s.ev.x.toNat) s.ev.acc
      (s.ev.acc = .other)).2 := rfl

/-! ### The home's queue of atomic steps (R221) -/

/-- The steps queued at the word of machine address `ma`, in order. -/
def wordSteps (s : State) (ma : Nat) : List AStep :=
  s.steps.filter fun a => overlap a.ma (if a.w64 then 8 else 4) (ma / 4 * 4) 4

theorem exec_homeAtomic (s : State) :
    exec .homeAtomic s = .next (((retireRun (wordSteps s s.ev.i)).take s.ev.j).foldl tryStep s) := rfl

theorem retireRun_of_not_tree {a : AStep} {t : List AStep} (h : treeStep a.op a = false) : retireRun (a :: t) = [a] := by
  simp [retireRun, h]

theorem retireRun_of_tree {a : AStep} {t : List AStep} (h : treeStep a.op a = true) :
    retireRun (a :: t) = ((a :: t).takeWhile fun b => treeStep a.op b && b.w64 = a.w64).take 8 := by
  simp only [retireRun, h, if_true]

/-- A step that the adder tree does not take is retired alone. -/
theorem exec_homeAtomic_alone {a : AStep} {t : List AStep} (hq : wordSteps s s.ev.i = a :: t)
    (ha : treeStep a.op a = false) (hj : s.ev.j ≠ 0) : exec .homeAtomic s = .next (tryStep s a) := by
  have one : [a].take s.ev.j = [a] := List.take_of_length_le (Nat.one_le_iff_ne_zero.mpr hj)
  rw [exec_homeAtomic, hq, retireRun_of_not_tree ha, one]
  rfl

/-- A run of steps that the adder tree takes is retired together. -/
theorem exec_homeAtomic_tree {a : AStep} {t : List AStep} (hq : wordSteps s s.ev.i = a :: t)
    (ha : treeStep a.op a = true) :
    exec .homeAtomic s = .next
      ((((a :: t).takeWhile fun b => treeStep a.op b && b.w64 = a.w64).take (min s.ev.j 8)).foldl tryStep s) := by
  rw [exec_homeAtomic, hq, retireRun_of_tree ha, List.take_take]

/-! ### Stores, back-invalidates and the cellar (R200, R202, R196) -/

theorem tryStore_of_mem {p : PStore} (h : p ∈ s.stores) :
    tryStore s p = if storeReady s p then performStore s p else s := by
  have present : (s.stores.any fun q => q.id = p.id) = true := List.any_eq_true.mpr ⟨p, h, decide_eq_true rfl⟩
  simp only [tryStore, present, Bool.true_and]

theorem exec_storePerformedAtHome (s : State) : exec .storePerformedAtHome s = execStorePerformedAtHome s := rfl

theorem exec_storePerformedAtHome_found {p : PStore} (h : (s.stores.find? fun q => q.id = s.ev.i) = some p) :
    exec .storePerformedAtHome s = .next (if storeReady s p then performStore s p else s) := by
  rw [exec_storePerformedAtHome, ← tryStore_of_mem (List.mem_of_find?_eq_some h)]
  simp only [execStorePerformedAtHome, h]

theorem exec_backInvalidateComplete (s : State) :
    exec .backInvalidateComplete s = .next (modHost s fun h => { h with backInv := [] }) := rfl

theorem exec_cellarRefreshWindowEnd (s : State) : exec .cellarRefreshWindowEnd s = .next (s.trains.foldl (fun u e =>
    e.2.coachIds.foldl (fun u c => ((((e.2.coach? c).map (·.pend)).getD []).filter (readsCellar s.ev.i)).foldl
      (fun u p => replyPend u e.1 c p) u) u) s) := rfl

/-! ### CXL.mem (R442) -/

/-- Every CXL.mem write on its way is merged at home. -/
def mergeWrites (s : State) : State := modHost (s.host.cxlIn.foldl mergeHost s) fun h => { h with cxlIn := [] }

theorem exec_cxlMemWrite (s : State) : exec .cxlMemWrite s =
    .next (if s.ev.p then mergeWrites s
      else if !allHdm s s.ev.l s.ev.i s.ev.bytes.length then errorCompletion s s.ev.i
      else if !cxlPort s s.ev.l then s
      else modHost s fun h => { h with
        cxlIn := h.cxlIn ++ (List.range s.ev.bytes.length).map fun k => (s.ev.i + k, s.ev.bytes.getD k 0) }) := rfl

theorem exec_cxlMemWrite_merges (hp : s.ev.p = true) : exec .cxlMemWrite s = .next (mergeWrites s) := by
  rw [exec_cxlMemWrite, if_pos hp]

theorem exec_cxlMemWrite_refused (hp : s.ev.p = false) (hm : allHdm s s.ev.l s.ev.i s.ev.bytes.length = false) :
    exec .cxlMemWrite s = .next (errorCompletion s s.ev.i) := by
  simp [exec_cxlMemWrite, hp, hm]

theorem exec_cxlMemWrite_otherMode (hp : s.ev.p = false) (hm : allHdm s s.ev.l s.ev.i s.ev.bytes.length = true)
    (hx : cxlPort s s.ev.l = false) : exec .cxlMemWrite s = .next s := by
  simp [exec_cxlMemWrite, hp, hm, hx]

theorem exec_cxlMemWrite_onItsWay (hp : s.ev.p = false) (hm : allHdm s s.ev.l s.ev.i s.ev.bytes.length = true)
    (hx : cxlPort s s.ev.l = true) : exec .cxlMemWrite s = .next (modHost s fun h => { h with
      cxlIn := h.cxlIn ++ (List.range s.ev.bytes.length).map fun k => (s.ev.i + k, s.ev.bytes.getD k 0) }) := by
  simp [exec_cxlMemWrite, hp, hm, hx]

/-- The host's read of `n` bytes at machine address `a` is answered from the home. -/
def homeReply (s : State) (a n : Nat) : State := modHost s fun h => { h with
  reply := (List.range n).map fun k => homeByte s (a + k) 0
  replyBad := (List.range n).any fun k => isPoison s (a + k) }

theorem exec_cxlMemRead (s : State) : exec .cxlMemRead s =
    .next (if !allHdm s s.ev.l s.ev.i s.ev.j then errorCompletion s s.ev.i
      else if !cxlPort s s.ev.l then s
      else homeReply (mergeWrites s) s.ev.i s.ev.j) := rfl

theorem exec_cxlMemRead_refused (hm : allHdm s s.ev.l s.ev.i s.ev.j = false) :
    exec .cxlMemRead s = .next (errorCompletion s s.ev.i) := by
  simp [exec_cxlMemRead, hm]

theorem exec_cxlMemRead_otherMode (hm : allHdm s s.ev.l s.ev.i s.ev.j = true) (hx : cxlPort s s.ev.l = false) :
    exec .cxlMemRead s = .next s := by
  simp [exec_cxlMemRead, hm, hx]

theorem exec_cxlMemRead_answered (hm : allHdm s s.ev.l s.ev.i s.ev.j = true) (hx : cxlPort s s.ev.l = true) :
    exec .cxlMemRead s = .next (homeReply (mergeWrites s) s.ev.i s.ev.j) := by
  simp [exec_cxlMemRead, hm, hx]

end

/-- Settles O34: each clause is the lemma of its event's outcome. -/
theorem memoryEvents : Obligations.MemoryEvents := by
  unfold Obligations.MemoryEvents
  exact ⟨fun s _ => exec_l1WriteBack s, fun s _ => exec_l1Eviction s, fun s _ => exec_translationWalk s,
    fun _ _ _ ⟨hq, ha, hj⟩ => exec_homeAtomic_alone hq ha hj, fun _ _ _ ⟨hq, ha⟩ => exec_homeAtomic_tree hq ha,
    fun _ _ h => exec_storePerformedAtHome_found h, exec_backInvalidateComplete, fun s _ => exec_cellarRefreshWindowEnd s,
    fun _ hp hm => ⟨exec_cxlMemWrite_onItsWay hp hm, exec_cxlMemWrite_otherMode hp hm⟩,
    fun _ hp hm => exec_cxlMemWrite_refused hp hm, fun _ hp => exec_cxlMemWrite_merges hp,
    fun _ hm => exec_cxlMemRead_refused hm, fun _ ⟨hm, hx⟩ => exec_cxlMemRead_otherMode hm hx,
    fun _ ⟨hm, hx⟩ => exec_cxlMemRead_answered hm hx⟩

/-! ## O40: what the host and the module's supplies do

One lemma for each outcome of an event; the obligation collects them. -/

section

variable {s : State}

/-! ### Host requests to registers (R439) -/

theorem hostReach_of (hi : s.ev.i < 2) (hj : s.ev.j < 2056) (hk : s.ev.k < 2 ^ 36)
    (hup : portUp s s.ev.i = true) (hv : s.host.heldVolt = false) : hostReach s = true := by
  simp only [hostReach, functionCount, hi, hj, hk, hup, hv, decide_true, Bool.not_false, Bool.and_self]

theorem reachCtx_of {c : Nat} (hc : functionCtx s s.ev.i s.ev.j = some c)
    (hr : s.ev.j = 0 ∨ functionReaches s c s.ev.k = true) : reachCtx s = some c := by
  have reaches : (decide (s.ev.j = 0) || functionReaches s c s.ev.k) = true := by simpa using hr
  rw [reachCtx, hc, Option.bind_some, if_pos reaches]

theorem exec_mmioRegisterWrite (s : State) : exec .mmioRegisterWrite s = execMmioRegisterWrite s := rfl

theorem exec_mmioRegisterWrite_reaches {c : Nat} (hh : hostReach s = true) (hn : reqSizeOk s.ev.k s.ev.l = true)
    (hc : reachCtx s = some c) :
    exec .mmioRegisterWrite s = .next (mmioWrite s c s.ev.k s.ev.l s.ev.x.toNat) := by
  simp [exec_mmioRegisterWrite, execMmioRegisterWrite, hh, hn, hc]

/-! ### Scratchpad windows (R22, R190) -/

theorem serveWindow_write {a n core off : Nat} (hw : windowPlace a = some (core, off)) (hn : off + n ≤ 393216)
    (hp : s.ev.p = true) : serveWindow s a n =
      some ((List.range n).foldl (fun t i => padWrite t core (off + i) (s.ev.bytes.getD i 0)) s) := by
  simp only [serveWindow, hw, Nat.not_lt.mpr hn, if_false, hp, if_true]

theorem serveWindow_read {a n core off : Nat} (hw : windowPlace a = some (core, off)) (hn : off + n ≤ 393216)
    (hp : s.ev.p = false) : serveWindow s a n =
      some (modHost { s with fresh := s.fresh + 393216 } fun h => { h with
        reply := (List.range n).flatMap fun i => (padRead s core (off + i)).bytes
        replyBad := (List.range n).any fun i => (padRead s core (off + i)).poison }) := by
  simp [serveWindow, hw, Nat.not_lt.mpr hn, hp, List.flatMap_map, List.any_map, Function.comp_def]

theorem serveWindow_none {a n : Nat} (h : ∀ core off, windowPlace a = some (core, off) → 393216 < off + n) :
    serveWindow s a n = none := by
  unfold serveWindow
  split
  · rfl
  · next core off hw => rw [if_pos (h core off hw)]

theorem exec_hostMmioError (s : State) : exec .hostMmioError s = execHostMmioError s := rfl

theorem exec_hostMmioError_served {t : State} (h : serveWindow s s.ev.i s.ev.j = some t) :
    exec .hostMmioError s = .next t := by
  simp only [exec_hostMmioError, execHostMmioError, h]

theorem exec_hostMmioError_refused (h : serveWindow s s.ev.i s.ev.j = none) (hr : isRefused s.ev.i = true)
    (hb : isSltBlock s.ev.i = false) : exec .hostMmioError s = .next (errorCompletion s s.ev.i) := by
  simp [exec_hostMmioError, execHostMmioError, h, hr, hb]

/-! ### Function-level reset (R374, R440) -/

theorem exec_functionLevelReset (s : State) : exec .functionLevelReset s = execFunctionLevelReset s := rfl

theorem exec_functionLevelReset_bound {c : Nat} (hj : s.ev.j ≠ 0)
    (hf : mget s.host.vf (65536 * s.ev.i + s.ev.j) = some c) (hc : s.hasCtx c = true) :
    exec .functionLevelReset s = .next (endMigration (stopSubtree (forcedReset s c) c) c) := by
  simp [exec_functionLevelReset, execFunctionLevelReset, hj, hf, hc]

/-! ### Boot (R448) -/

/-- XMB_BOOT shows STATE `n`. -/
def bootState (n : Nat) (s : State) : State := modHost s fun h => { h with boot := n }

theorem exec_powerUp (s : State) : exec .powerUp s = execPowerUp s := rfl

theorem exec_powerUp_checks (hv : s.host.heldVolt = false) (hb : s.host.boot = 0) :
    exec .powerUp s = .next (bootState 1 s) := by
  simp [exec_powerUp, execPowerUp, hv, hb, bootState]

theorem exec_powerUp_measures (hv : s.host.heldVolt = false) (hb : s.host.boot = 1) :
    exec .powerUp s = .next (bootState (if recordOk s.host.config then 2 else 15) s) := by
  by_cases hr : recordOk s.host.config = true <;> simp [exec_powerUp, execPowerUp, hv, hb, hr, bootState]

theorem exec_powerUp_starts (hv : s.host.heldVolt = false) (hb : s.host.boot = 2) :
    exec .powerUp s = .next (bootState 3 s) := by
  simp [exec_powerUp, execPowerUp, hv, hb, bootState]

theorem exec_powerUp_ready (hv : s.host.heldVolt = false) (hb : s.host.boot = 3) :
    exec .powerUp s = .next (bootState 4 (applyRecord s)) := by
  simp [exec_powerUp, execPowerUp, hv, hb, bootState]

/-! ### Input voltage and clocks (R451) -/

theorem exec_inputVoltageOutOfRange (s : State) : exec .inputVoltageOutOfRange s =
    .next (if s.ev.i < 48000 || 54000 < s.ev.i then heldReset s else modHost s fun h => { h with heldVolt := false }) := rfl

theorem exec_inputVoltageOutOfRange_inRange (hlo : 48000 ≤ s.ev.i) (hhi : s.ev.i ≤ 54000) :
    exec .inputVoltageOutOfRange s = .next (modHost s fun h => { h with heldVolt := false }) := by
  simp [exec_inputVoltageOutOfRange, hlo, hhi]

theorem exec_inputVoltageOutOfRange_held (h : s.ev.i < 48000 ∨ 54000 < s.ev.i) :
    exec .inputVoltageOutOfRange s = .next (heldReset s) := by
  simp [exec_inputVoltageOutOfRange, h]

@[simp] theorem heldReset_heldVolt (s : State) : (heldReset s).host.heldVolt = true := rfl
@[simp] theorem heldReset_config (s : State) : (heldReset s).host.config = s.host.config := rfl
@[simp] theorem heldReset_hostMem (s : State) : (heldReset s).host.mem = s.host.mem := rfl
@[simp] theorem heldReset_boot (s : State) : (heldReset s).host.boot = 0 := rfl
@[simp] theorem heldReset_mem (s : State) : (heldReset s).mem = [] := rfl
@[simp] theorem heldReset_trains (s : State) : (heldReset s).trains = [] := rfl

theorem exec_throttleAdjust (s : State) : exec .throttleAdjust s = execThrottleAdjust s := rfl

theorem exec_throttleAdjust_die (h : s.ev.i < 16) :
    let now := (mgetD s.clocks s.ev.i DieClock.init).steps
    exec .throttleAdjust s = .next (setClock s s.ev.i (min 22 (max s.host.config.clockSteps
      (if overLimit s s.ev.k s.ev.l then max (now + 1) s.ev.j else min now s.ev.j)))) := by
  simp only [exec_throttleAdjust, execThrottleAdjust, h, if_true, maxSteps]

end

/-- Settles O40: each clause is the lemma of its event's outcome. -/
theorem hostComplete : Obligations.HostComplete := by
  unfold Obligations.HostComplete
  refine ⟨?mmio, ?window, ?refused, ?functionReset, ?boot, ?inRange, ?outOfRange, ?throttle⟩
  case mmio =>
    intro s c hi hj hk hup hv hn hc hr
    exact exec_mmioRegisterWrite_reaches (hostReach_of hi hj hk hup hv) hn (reachCtx_of hc hr)
  case window =>
    intro s core off hw hn
    exact ⟨fun hp => exec_hostMmioError_served (serveWindow_write hw hn hp),
      fun hp => exec_hostMmioError_served (serveWindow_read hw hn hp)⟩
  case refused =>
    intro s hw hr hb
    exact exec_hostMmioError_refused (serveWindow_none hw) hr hb
  case functionReset =>
    intro s c hj hf hc
    exact exec_functionLevelReset_bound hj hf hc
  case boot =>
    intro s hv
    exact ⟨exec_powerUp_checks hv, exec_powerUp_measures hv, exec_powerUp_starts hv, exec_powerUp_ready hv⟩
  case inRange =>
    intro s hlo hhi
    exact exec_inputVoltageOutOfRange_inRange hlo hhi
  case outOfRange =>
    intro s h
    exact ⟨heldReset s, exec_inputVoltageOutOfRange_held h, heldReset_heldVolt s, heldReset_config s, heldReset_hostMem s,
      heldReset_boot s, heldReset_mem s, heldReset_trains s⟩
  case throttle =>
    intro s now h
    exact exec_throttleAdjust_die h

end Sys2Proof.Machine

/-! ## O56: Vamer words decode to their instructions

First the codes of modifier fields, then MOD, the operand fields, the fields of a word, and the checks of R39 in order. -/

namespace Sys2Proof

/-! ### Codes of modifier fields -/

@[simp] theorem IntW.ofCode_code (w : IntW) : IntW.ofCode w.code = some w := by cases w <;> rfl
@[simp] theorem FlagOut.ofCode_code (p : FlagOut) : FlagOut.ofCode p.code = some p := by cases p <;> rfl
@[simp] theorem ICond.ofCode_code (c : ICond) : ICond.ofCode c.code = c := by cases c <;> rfl
@[simp] theorem RMode.ofCode_code (m : RMode) : RMode.ofCode m.code = some m := by cases m <;> rfl
@[simp] theorem IWidth.ofCode_code (w : IWidth) : IWidth.ofCode w.code = w := by cases w <;> rfl
@[simp] theorem FType.ofCode_code (t : FType) : FType.ofCode t.code = t := by cases t <;> rfl
@[simp] theorem SgnMode.ofCode_code (m : SgnMode) : SgnMode.ofCode m.code = some m := by cases m <;> rfl
@[simp] theorem FCond.ofCode_code (c : FCond) : FCond.ofCode c.code = c := by cases c <;> rfl
@[simp] theorem ShflMode.ofCode_code (m : ShflMode) : ShflMode.ofCode m.code = m := by cases m <;> rfl
@[simp] theorem VoteOp.ofCode_code (o : VoteOp) : VoteOp.ofCode o.code = o := by cases o <;> rfl
@[simp] theorem ROp.ofCode_code (o : ROp) : ROp.ofCode o.code = some o := by cases o <;> rfl
@[simp] theorem MSize.ofCode_code (z : MSize) : MSize.ofCode z.code = some z := by cases z <;> rfl
@[simp] theorem Scope.ofCode_code (c : Scope) : Scope.ofCode c.code = some c := by cases c <;> rfl
@[simp] theorem CacheHint.ofCode_code (c : CacheHint) : CacheHint.ofCode c.code = some c := by cases c <;> rfl
@[simp] theorem FenceOrd.ofCode_code (o : FenceOrd) : FenceOrd.ofCode o.code = some o := by cases o <;> rfl
@[simp] theorem AOrd.ofCode_code (o : AOrd) : AOrd.ofCode o.code = o := by cases o <;> rfl
@[simp] theorem AOp.ofCode_code (o : AOp) : AOp.ofCode o.code = some o := by cases o <;> rfl
@[simp] theorem GOp.ofCode_code (o : GOp) : GOp.ofCode o.code = some o := by cases o <;> rfl
@[simp] theorem CpyKind.ofCode_code (k : CpyKind) : CpyKind.ofCode k.code = some k := by cases k <;> rfl
@[simp] theorem MFmt.ofCode_code (f : MFmt) : MFmt.ofCode f.code = some f := by cases f <;> rfl

/-- AF96 has no code of its own (R104). -/
theorem Fmt.ofCode_code_iff {f : Fmt} : Fmt.ofCode f.code = f ↔ f ≠ .af96 := by cases f <;> decide

@[simp] theorem b1_false : b1 false = 0#1 := rfl
@[simp] theorem b1_getElem (b : Bool) : (b1 b)[0] = b := by cases b <;> rfl

theorem getLsbD_append_low {n m i : Nat} (x : BitVec n) (y : BitVec m) (h : i < m) : (x ++ y).getLsbD i = y.getLsbD i := by
  rw [BitVec.getLsbD_append, if_pos h]

theorem getLsbD_append_high {n m i : Nat} (x : BitVec n) (y : BitVec m) (h : m ≤ i) :
    (x ++ y).getLsbD i = x.getLsbD (i - m) := by
  rw [BitVec.getLsbD_append, if_neg (Nat.not_lt.mpr h)]

theorem IntMod.ofCode_code (m : IntMod) : IntMod.ofCode m.code = some m := by
  simp (disch := decide) only [IntMod.code, IntMod.ofCode, BitVec.extractLsb'_append_eq_of_le,
    BitVec.extractLsb'_append_eq_of_add_le, getLsbD_append_low, getLsbD_append_high]
  simp

theorem FMod.ofCode_code (m : FMod) (opx : BitVec 3) : FMod.ofCode (m.code opx) = some m := by
  simp (disch := decide) only [FMod.code, FMod.ofCode, BitVec.extractLsb'_append_eq_of_le,
    BitVec.extractLsb'_append_eq_of_add_le, getLsbD_append_low, getLsbD_append_high]
  simp

theorem FMod.opx_code (m : FMod) (opx : BitVec 3) : (m.code opx).extractLsb' 0 3 = opx := by
  simp (disch := decide) only [FMod.code, BitVec.extractLsb'_append_eq_of_add_le, BitVec.extractLsb'_eq_self]

theorem MemMod.ofCode_code (m : MemMod) : MemMod.ofCode m.code = some m := by
  simp (disch := decide) only [MemMod.code, MemMod.ofCode, BitVec.extractLsb'_append_eq_of_le,
    BitVec.extractLsb'_append_eq_of_add_le, getLsbD_append_low, getLsbD_append_high]
  simp

theorem AtomMod.ofCode_code (m : AtomMod) : AtomMod.ofCode m.code = some m := by
  simp (disch := decide) only [AtomMod.code, AtomMod.ofCode, BitVec.extractLsb'_append_eq_of_le,
    BitVec.extractLsb'_append_eq_of_add_le, getLsbD_append_low, getLsbD_append_high]
  simp

/-! ### OPC and MOD -/

theorem intI_code (m : IntMod) (f : IntMod → Instr) : intI m.code f = some (f m) := by rw [intI, IntMod.ofCode_code]; rfl
theorem fpI_code (m : FMod) (f : FMod → Instr) : fpI (m.code 0) f = some (f m) := by
  rw [fpI, mz, FMod.opx_code, FMod.ofCode_code]; rfl
theorem memI_code (m : MemMod) (f : MemMod → Instr) : memI m.code f = some (f m) := by rw [memI, MemMod.ofCode_code]; rfl
theorem atI_code (m : AtomMod) (f : AtomMod → Instr) : atI m.code f = some (f m) := by rw [atI, AtomMod.ofCode_code]; rfl

/-- A MOV to a special register has the OPC and the MOD of MOV (R89). -/
def Instr.asMov : Instr → Instr
  | .srseedWrite m x => .mov m x
  | .predsWrite m x => .mov m x
  | i => i

/-- The OPC and the MOD of an instruction give it back, whatever its operands. -/
theorem rawMod_asMov {i : Instr} {x : Args} (hx : i.args = some x) (ok : i.modOk = true) :
    rawMod i.opc i.modBits x = some i.asMov := by
  cases i with
  | add m | sub m | mul m | mulh m | mad m | div m | rem m | min m | max m | abs m | and m | or m | xor m | not m | shl m
  | shr m | sar m | rot m | bfx m | bfi m | popc m | clz m | ctz m | brev m | plop m | mov m | lea m | srseedWrite m
  | predsWrite m =>
    cases hx
    dsimp only [Instr.opc, Instr.modBits, Instr.asMov]
    exact intI_code m _
  | fadd m | fsub m | fmul m | ffma m | ffms m | fnma m | fdp2 m | fdiv m | fabs m | fneg m | fclass m | frint m | fscale m
  | fgetx m | fgetm m =>
    cases hx
    dsimp only [Instr.opc, Instr.modBits, Instr.asMov]
    exact fpI_code m _
  | ld m | st m | ldu m | lds m | sts m | ldx m | stx m | ldw m | ldb m | stb m =>
    cases hx
    dsimp only [Instr.opc, Instr.modBits, Instr.asMov]
    exact memI_code m _
  | atom m | atomc m | red m | atomu m | atoms m | atomsc m | reds m | redu m =>
    cases hx
    dsimp only [Instr.opc, Instr.modBits, Instr.asMov]
    exact atI_code m _
  | bytx | srstep | nop | bra | brx | call | callx | ret | jtab | loop | brany | brall | end_ | exit | rcvMark | yield | nap
  | icinv | pref | prefc | cinv | cwb | cdisc | mdie | ckclr | ckstat | mbinit | yokeDecl | yokeRst | cpyl | cpyp | cpyq
  | xcpyl | xstat | mscl | aclr | ald | ast | amov | await | adrop | qclaim | qpubRsv | qpub | qstat | enq | enqt | spawn
  | sjoin | lvinc | cancel | cancelClr | cfill | ctxNew | ctxGrant | ctxRun | ctxStopNow | ctxStopDrain | ctxStopReset
  | ctxBudget | ctxBudgetRd | ctxReflectMask | ctxReflectDown | ctxReflectUp | ctxReflectRet | gateNew | gateNewDel | gpeek
  | tlbi | replay | replayAll | hcall | trap | tret | assert | bkpt | tfrd | tfwr | fbpop | mark =>
    cases hx
    dsimp only [Instr.opc, Instr.modBits, Instr.asMov]
    rfl
  | rcvWait b | lvwait b | lvrd b | ctxRevoke b | fbstat b =>
    cases hx
    dsimp only [Instr.opc, Instr.modBits, Instr.asMov]
    cases b <;> rfl
  | addc | subb | sel | cmp | i2i | bmax | fmin | fmax | fsgn | fcmp | fsel | rcp | rsq | sqrt | exp2 | log2 | sin | cos
  | sincos | tanh | sigm | fork | shfl | vote | redux | scan | match_ | bcast | cmpct | lperm | fence | ochOpen | ochSt
  | ochClose | ckfill | ckdraw | ckpeek | cktry | ckseed | ckred | bar | bara | barw | bart | gbar | gbart | mbarr | mbwait
  | mbtry | mbtw | cpy | cpyf | cpwait | xcpy | mma | mmag | mmaw | aadd | gateAcl | gpost | gtake | srd | swr | watch =>
    cases hx
    dsimp only [Instr.opc, Instr.modBits, Instr.asMov]
    simp (disch := decide) only [rawMod, intInstr, fmtInstr, fpInstr, sfInstr, ctlInstr, laneInstr, memInstr, syncInstr,
      copyInstr, matInstr, ctxInstr, trapInstr, sfI, sfRmI, scI, FMod.code, FMod.ofCode, MmaMod.code, MmaMod.ofCode, when', mz,
      Nat.reduceDiv, Nat.reduceMod, BitVec.extractLsb'_append_eq_of_le, BitVec.extractLsb'_append_eq_of_add_le,
      getLsbD_append_low, getLsbD_append_high]
    simp
  | cvt =>
    cases hx
    dsimp only [Instr.opc, Instr.modBits, Instr.asMov]
    simp (disch := decide) only [rawMod, fmtInstr, Nat.reduceDiv, Nat.reduceMod, BitVec.extractLsb'_append_eq_of_le,
      BitVec.extractLsb'_append_eq_of_add_le, getLsbD_append_low]
    simp only [Instr.modOk, Bool.and_eq_true, decide_eq_true_eq] at ok
    simp [Fmt.ofCode_code_iff.mpr ok.1.2, Fmt.ofCode_code_iff.mpr ok.2]
  | f2i f | i2f f | pack f | unpk f | qnt f | dqnt f | bscale f | acvt f =>
    have named : f ≠ .af96 := by
      rintro rfl
      simp [Instr.modOk, packPosOk, Fmt.perReg, qntFmt, acvtOk] at ok
    cases hx
    dsimp only [Instr.opc, Instr.modBits, Instr.asMov]
    simp (disch := decide) only [rawMod, fmtInstr, matInstr, when', mz, Nat.reduceDiv, Nat.reduceMod,
      BitVec.extractLsb'_append_eq_of_le, BitVec.extractLsb'_append_eq_of_add_le, getLsbD_append_low, getLsbD_append_high]
    simp [Fmt.ofCode_code_iff.mpr named]
  | mbexp sc arr =>
    cases hx
    dsimp only [Instr.opc, Instr.modBits, Instr.asMov]
    cases arr with
    | false =>
      obtain rfl : sc = .cl := by simpa [Instr.modOk] using ok
      rfl
    | true =>
      simp (disch := decide) only [rawMod, syncInstr, scI, mz, Nat.reduceDiv, Nat.reduceMod,
        BitVec.extractLsb'_append_eq_of_le, BitVec.extractLsb'_append_eq_of_add_le, getLsbD_append_low, getLsbD_append_high]
      simp
  | _ => exact nomatch hx

/-- Field A of a word names the destination that MOV and its two forms to a special register have (R89). -/
def Instr.aims (w : Word96) : Instr → Prop
  | .mov .. => w.extractLsb' 69 12 ≠ 0x8CD ∧ w.extractLsb' 69 12 ≠ 0x8CF
  | .srseedWrite .. => w.extractLsb' 69 12 = 0x8CD
  | .predsWrite .. => w.extractLsb' 69 12 = 0x8CF
  | _ => True

/-- A MOV is its form to a special register again where field A names one. -/
theorem retarget_asMov {w : Word96} {i : Instr} (h : i.aims w) : retarget w i.asMov = i := by
  unfold Instr.asMov
  split
  · exact if_pos h
  · have ne : ¬ w.extractLsb' 69 12 = 0x8CD := by rw [show w.extractLsb' 69 12 = 0x8CF from h]; decide
    exact (if_neg ne).trans (if_pos h)
  · unfold retarget
    split
    · exact (if_neg h.1).trans (if_neg h.2)
    · rfl

theorem Instr.asMov_modOk (i : Instr) : i.asMov.modOk = i.modOk := by
  unfold Instr.asMov
  split <;> rfl

/-- `mk` rebuilds the Vamer instruction `i` around other operands: with its own operands `x` it is `i`, and OPC, MOD and the
checks of MOD stay as they are. The shape and the check of XMOD read no operand but XMOD, and the shape reads it in form D
alone. -/
structure Instr.Rebuilds (i : Instr) (x : Args) (mk : Args → Instr) : Prop where
  self : mk x = i
  args : ∀ y, (mk y).args = some y
  opc : ∀ y, (mk y).opc = i.opc
  modBits : ∀ y, (mk y).modBits = i.modBits
  modOk : ∀ y, (mk y).modOk = i.modOk
  aims : ∀ y w, (mk y).aims w = i.aims w
  shape : ∀ sh, i.shape = some sh → ∀ y : Args, (sh.form = .d → y.xmod = x.xmod) → (mk y).shape = some sh
  xmodOk : ∀ y : Args, (mk { y with xmod := x.xmod }).xmodOk = i.xmodOk

theorem Instr.exists_rebuilds {i : Instr} {x : Args} (h : i.args = some x) : ∃ mk, i.Rebuilds x mk := by
  cases i <;> cases h
  case bfi | bytx =>
    refine ⟨_, rfl, fun _ => rfl, fun _ => rfl, fun _ => rfl, fun _ => rfl, fun _ _ => rfl, fun sh e y hy => ?_, fun _ => rfl⟩
    cases e
    dsimp only [Instr.shape]
    rw [hy rfl]
  all_goals
    exact ⟨_, rfl, fun _ => rfl, fun _ => rfl, fun _ => rfl, fun _ => rfl, fun _ _ => rfl, fun _ e _ _ => e, fun _ => rfl⟩

theorem Instr.opc_assigned {i : Instr} {x : Args} (h : i.args = some x) :
    opcAssigned i.opc = true ∧ i.opc ≠ 0 ∧ i.opc < 0x3FF := by
  cases i <;> cases h
  all_goals
    dsimp only [Instr.opc]
    decide

theorem Instr.shape_isSome {i : Instr} {x : Args} (h : i.args = some x) : i.shape.isSome = true := by
  cases i <;> cases h
  all_goals rfl

/-! ### Operand fields -/

/-- A uniform register's index from its sub-space and the nine bits of its field (R43). -/
theorem ofBool_append_extractLsb' {i : BitVec 10} {b : Bool} (h : i.getLsbD 9 = b) :
    BitVec.ofBool b ++ i.extractLsb' 0 9 = i := by
  subst h
  refine BitVec.eq_of_getLsbD_eq fun j hj => ?_
  rcases Nat.lt_or_ge j 9 with hl | hl
  · rw [getLsbD_append_low _ _ hl, BitVec.getLsbD_extractLsb']
    simp [hl]
  · obtain rfl : j = 9 := by omega
    rw [getLsbD_append_high _ _ (Nat.le_refl 9)]
    simp

/-- An operand field gives its operand back (R43, R46). -/
theorem rawOperand_bits {o : Operand} (h : o ≠ .unused) : rawOperand o.bits = some o := by
  cases o with
  | unused => exact absurd rfl h
  | v i | imm i | k n d | tile n =>
    simp (disch := decide) only [rawOperand, Operand.bits, BitVec.extractLsb'_append_eq_of_le,
      BitVec.extractLsb'_append_eq_of_add_le, getLsbD_append_low, getLsbD_append_high]
    simp
  | s i =>
    cases hi : i.getLsbD 9
    all_goals
      have e := ofBool_append_extractLsb' hi
      simp (disch := decide) only [rawOperand, Operand.bits, hi, if_true, Bool.false_eq_true, if_false,
        BitVec.extractLsb'_append_eq_of_le, BitVec.extractLsb'_append_eq_of_add_le]
      simpa using e
  | yoke n | pred n | sr n =>
    revert n
    decide
  | tail | zero => rfl

theorem decodeField_bits {spine : Bool} {form : TailForm} {r : Option Role} {o : Operand} (h : roleOk spine form r o = true) :
    decodeField spine form r o.bits = some o := by
  cases r with
  | none =>
    obtain rfl : o = .unused := of_decide_eq_true h
    rfl
  | some r =>
    have named : o ≠ .unused := by rintro rfl; exact Bool.false_ne_true h
    simp only [decodeField, rawOperand_bits named, h, if_true]

/-- A field that its role accepts decodes, unless it is a second draw (R39, R48). -/
theorem fieldAt_bits {spine : Bool} {form : TailForm} {f : Field} {r : Option Role} {drew : Bool} {o : Operand}
    (h : roleOk spine form r o = true) (hd : (drew && o.isDraw) = false) : fieldAt spine form f r drew o.bits = .ok o := by
  simp only [fieldAt, decodeField_bits h, hd, Bool.false_eq_true, if_false]

/-! ### The fields of a word (R35) -/

/-- A word from its fields. -/
def packWord (opc m : BitVec 10) (x : Args) (tail : Word32) : Word96 :=
  opc ++ b1 x.gn ++ x.gp ++ x.a.bits ++ x.b.bits ++ x.c.bits ++ m ++ x.ret ++ b1 x.yld ++ tail

/-- TAIL of a word: field D and XMOD in form D, else TAIL itself (R37). -/
def tailBits (form : TailForm) (x : Args) : Word32 := if form = .d then x.d.bits ++ x.xmod else x.tail

theorem encodeVamer_eq_packWord {i : Instr} {sh : Shape} {x : Args} (hs : i.shape = some sh) (hx : i.args = some x) :
    encodeVamer i = packWord (BitVec.ofNat 10 i.opc) i.modBits x (tailBits sh.form x) := by
  unfold encodeVamer
  split
  · exact nomatch hx
  · exact nomatch hx
  · exact nomatch hx
  · rw [hs, hx]
    rfl

section

variable (opc m : BitVec 10) (x : Args) (tail : Word32)

theorem wordOpc_packWord : wordOpc (packWord opc m x tail) = opc.toNat := by
  simp (disch := decide) only [wordOpc, packWord, BitVec.extractLsb'_append_eq_of_le]
  simp

theorem wordMod_packWord : wordMod (packWord opc m x tail) = m := by
  simp (disch := decide) only [wordMod, packWord, BitVec.extractLsb'_append_eq_of_le, BitVec.extractLsb'_append_eq_of_add_le]
  simp

theorem aField_packWord : (packWord opc m x tail).extractLsb' 69 12 = x.a.bits := by
  simp (disch := decide) only [packWord, BitVec.extractLsb'_append_eq_of_le, BitVec.extractLsb'_append_eq_of_add_le]
  simp

theorem bField_packWord : (packWord opc m x tail).extractLsb' 57 12 = x.b.bits := by
  simp (disch := decide) only [packWord, BitVec.extractLsb'_append_eq_of_le, BitVec.extractLsb'_append_eq_of_add_le]
  simp

theorem cField_packWord : (packWord opc m x tail).extractLsb' 45 12 = x.c.bits := by
  simp (disch := decide) only [packWord, BitVec.extractLsb'_append_eq_of_le, BitVec.extractLsb'_append_eq_of_add_le]
  simp

theorem tail_packWord : (packWord opc m x tail).extractLsb' 0 32 = tail := by
  simp (disch := decide) only [packWord, BitVec.extractLsb'_append_eq_of_add_le]
  simp

theorem dField_packWord (y : Args) : (packWord opc m x (y.d.bits ++ y.xmod)).extractLsb' 20 12 = y.d.bits := by
  simp (disch := decide) only [packWord, BitVec.extractLsb'_append_eq_of_le, BitVec.extractLsb'_append_eq_of_add_le]
  simp

theorem xmod_append (d : Operand) (xmod : BitVec 20) : (d.bits ++ xmod : Word32).extractLsb' 0 20 = xmod := by
  simp (disch := decide) only [BitVec.extractLsb'_append_eq_of_add_le]
  simp

/-- What stands outside the operand fields. -/
theorem rawArgs_packWord : rawArgs (packWord opc m x tail) =
    { x with a := .unused, b := .unused, c := .unused, d := .unused, tail := 0, xmod := tail.extractLsb' 0 20 } := by
  simp (disch := decide) only [rawArgs, packWord, BitVec.extractLsb'_append_eq_of_le, BitVec.extractLsb'_append_eq_of_add_le,
    getLsbD_append_low, getLsbD_append_high]
  simp

end

/-! ### The checks of R39 -/

theorem ok_bind {ε α β : Type} (a : α) (f : α → Except ε β) : (Except.ok a >>= f) = f a := rfl

/-- No field of the word is a second draw (R48). -/
theorem Args.oneDraw_fields {x : Args} (h : x.oneDraw = true) : (x.a.isDraw && x.b.isDraw) = false ∧
    ((x.a.isDraw || x.b.isDraw) && x.c.isDraw) = false ∧
    ((x.a.isDraw || x.b.isDraw || x.c.isDraw) && x.d.isDraw) = false := by
  unfold Args.oneDraw at h
  revert h
  generalize x.a.isDraw = a
  generalize x.b.isDraw = b
  generalize x.c.isDraw = c
  generalize x.d.isDraw = d
  revert a b c d
  decide

/-- What `Args.fits` asks, part by part. -/
structure Args.Fits (spine : Bool) (sh : Shape) (x : Args) : Prop where
  guard : x.guardOk = true
  draws : x.oneDraw = true
  tail : tailOk sh.form x = true
  rest : sh.form ≠ .d → x.xmod = 0 ∧ x.d = .unused
  a : roleOk spine sh.form sh.a x.a = true
  b : roleOk spine sh.form sh.b x.b = true
  c : roleOk spine sh.form sh.c x.c = true
  d : sh.form = .d → roleOk spine sh.form sh.d x.d = true

theorem Args.Fits.of_fits {spine : Bool} {sh : Shape} {x : Args} (h : x.fits spine sh = true) : x.Fits spine sh := by
  simp only [Args.fits, Bool.and_eq_true, Bool.or_eq_true, decide_eq_true_eq] at h
  obtain ⟨⟨⟨⟨⟨⟨⟨guard, draws⟩, tail⟩, rest⟩, a⟩, b⟩, c⟩, d⟩ := h
  exact ⟨guard, draws, tail, rest.resolve_left, a, b, c, fun e => d.resolve_left fun n => n e⟩

section

variable {spine : Bool} {sh : Shape} {x : Args}

/-- The operand part of an instruction decodes from its word (step 6 of R39). -/
theorem decodeArgs_packWord (h : x.Fits spine sh) (opc m : BitVec 10) :
    decodeArgs spine sh (packWord opc m x (tailBits sh.form x)) = .ok x := by
  obtain ⟨ab, abc, abcd⟩ := Args.oneDraw_fields h.draws
  simp only [decodeArgs, aField_packWord, bField_packWord, cField_packWord, fieldAt_bits h.a (Bool.false_and _),
    fieldAt_bits h.b ab, fieldAt_bits h.c abc, rawArgs_packWord, tail_packWord, ok_bind]
  by_cases e : sh.form = .d
  · have tail : x.tail = 0 := by simpa [e, tailOk] using h.tail
    simp only [tailBits, e, if_true, dField_packWord, xmod_append, e ▸ fieldAt_bits (h.d e) abcd, ok_bind]
    rw [← tail]
  · obtain ⟨xmod, d⟩ := h.rest e
    simp only [tailBits, e, if_false]
    rw [← xmod, ← d]

theorem rawTail_bits_tail : rawTail Operand.tail.bits = true := rfl

/-- TAIL and XMOD pass their check (step 5 of R39). -/
theorem tailCheck_packWord (h : x.Fits spine sh) {i : Instr} (hi : sh.form = .d → i.xmodOk = true) (opc m : BitVec 10) :
    tailCheck i sh.form (packWord opc m x (tailBits sh.form x)) = .ok () := by
  have tail := h.tail
  cases e : sh.form with
  | n =>
    simp only [e, tailOk, decide_eq_true_eq] at tail
    simp [tailCheck, tail_packWord, tailBits, tail]
  | i =>
    have d : x.d ≠ .tail := by rw [(h.rest (by rw [e]; decide)).2]; decide
    simp only [e, tailOk, Args.namesTail, Bool.or_eq_true, decide_eq_true_eq, d, or_false] at tail
    simp only [tailCheck, tail_packWord, aField_packWord, bField_packWord, cField_packWord, tailBits, reduceCtorEq, if_false]
    refine if_pos ?_
    simp only [Bool.or_eq_true, decide_eq_true_eq]
    rcases tail with ((a | b) | c) | tail
    · simp [a, rawTail_bits_tail]
    · simp [b, rawTail_bits_tail]
    · simp [c, rawTail_bits_tail]
    · simp [tail]
  | disp | o => rfl
  | d => simp only [tailCheck, hi e, if_true]

end

/-- The field of a special register names no other operand. -/
theorem Operand.eq_sr_of_bits {o : Operand} {n : BitVec 5} (h : o.bits = (Operand.sr n).bits) : o = .sr n := by
  have used : o ≠ .unused := by
    rintro rfl
    revert n
    decide
  have e := rawOperand_bits used
  rw [h, rawOperand_bits (o := .sr n) nofun] at e
  exact (Option.some.inj e).symm

theorem Instr.aims_of_fits {spine : Bool} {i : Instr} {sh : Shape} {x : Args} (hs : i.shape = some sh) (hx : i.args = some x)
    (fit : x.Fits spine sh) (sr : i.srOk = true) {w : Word96} (hw : w.extractLsb' 69 12 = x.a.bits) : i.aims w := by
  unfold Instr.aims
  split
  · cases hx
    cases hs
    have a := fit.a
    have other (n : BitVec 5) : x.a.bits ≠ (Operand.sr n).bits := by
      intro e
      rw [Operand.eq_sr_of_bits e] at a
      exact Bool.false_ne_true a
    rw [hw]
    exact ⟨other 0x0D, other 0x0F⟩
  · cases hx
    rw [hw, of_decide_eq_true sr]
    rfl
  · cases hx
    rw [hw, of_decide_eq_true sr]
    rfl
  · trivial

/-- The OPC and the MOD of an instruction give it back, but for the special register that a MOV writes (R55, R89). -/
theorem decodeMod_asMov {i : Instr} {x : Args} (hx : i.args = some x) (ok : i.modOk = true) :
    decodeMod i.opc i.modBits x = some i.asMov := by
  simp only [decodeMod, rawMod_asMov hx ok, i.asMov_modOk, ok, if_true]

theorem toNat_opc {i : Instr} {x : Args} (hx : i.args = some x) : (BitVec.ofNat 10 i.opc).toNat = i.opc := by
  obtain ⟨_, _, lt⟩ := Instr.opc_assigned hx
  rw [BitVec.toNat_ofNat, Nat.mod_eq_of_lt (lt.trans (by decide))]

/-- The checks of `Instr.wf` on an instruction with operands. -/
theorem Instr.wf_of_args {spine : Bool} {i : Instr} {sh : Shape} {x : Args} (hs : i.shape = some sh) (hx : i.args = some x)
    (h : i.wf spine = true) : (spine && vectorOpc i.opc) = false ∧ i.modOk = true ∧ i.xmodOk = true ∧ x.Fits spine sh ∧
      i.dupDest = none ∧ i.srOk = true := by
  unfold Instr.wf at h
  split at h
  · exact nomatch hx
  · exact nomatch hx
  · exact nomatch hx
  · exact nomatch hx
  · simp only [hs, hx, Bool.and_eq_true, Bool.not_eq_true', decide_eq_true_eq] at h
    obtain ⟨⟨⟨⟨⟨lanes, mod⟩, xmod⟩, fits⟩, dup⟩, sr⟩ := h
    exact ⟨lanes, mod, xmod, .of_fits fits, dup, sr⟩

/-- A well-formed instruction with operands passes every step of R39. -/
theorem decodeVamer_of_args {spine : Bool} {i : Instr} {x : Args} (hx : i.args = some x) (h : i.wf spine = true) :
    decodeVamer spine (encodeVamer i) = .ok i := by
  obtain ⟨sh, hs⟩ := Option.isSome_iff_exists.mp (Instr.shape_isSome hx)
  obtain ⟨lanes, mod, xmod, fit, dup, sr⟩ := Instr.wf_of_args hs hx h
  obtain ⟨assigned, pos, lt⟩ := Instr.opc_assigned hx
  obtain ⟨mk, hmk⟩ := Instr.exists_rebuilds hx
  rw [encodeVamer_eq_packWord hs hx]
  have aims : i.aims (packWord (BitVec.ofNat 10 i.opc) i.modBits x (tailBits sh.form x)) :=
    Instr.aims_of_fits hs hx fit sr (aField_packWord ..)
  generalize hw : packWord (BitVec.ofNat 10 i.opc) i.modBits x (tailBits sh.form x) = w at aims ⊢
  have opc : wordOpc w = i.opc := by rw [← hw, wordOpc_packWord, toNat_opc hx]
  have wmod : wordMod w = i.modBits := by rw [← hw, wordMod_packWord]
  have guard : (rawArgs w).guardOk = true := by rw [← hw, rawArgs_packWord]; exact fit.guard
  have raw : sh.form = .d → (rawArgs w).xmod = x.xmod := by
    intro e
    rw [← hw, rawArgs_packWord, tailBits, if_pos e]
    exact xmod_append ..
  -- the instruction around operands not decoded yet
  have first : decodeMod i.opc i.modBits (rawArgs w) = some (mk (rawArgs w)).asMov := by
    have e := decodeMod_asMov (hmk.args (rawArgs w)) ((hmk.modOk _).trans mod)
    rwa [hmk.opc, hmk.modBits] at e
  have firstAims : retarget w (mk (rawArgs w)).asMov = mk (rawArgs w) :=
    retarget_asMov (hmk.aims _ w ▸ aims)
  have shape : (mk (rawArgs w)).shape = some sh := hmk.shape sh hs _ raw
  have tail : tailCheck (mk (rawArgs w)) sh.form w = .ok () := by
    rw [← hw]
    refine tailCheck_packWord fit (fun e => ?_) _ _
    rw [hw, show rawArgs w = { rawArgs w with xmod := x.xmod } by rw [← raw e], hmk.xmodOk, xmod]
  have args : decodeArgs spine sh w = .ok x := by rw [← hw]; exact decodeArgs_packWord fit _ _
  simp only [decodeVamer, opc, wmod, pos, lt.ne, assigned, lanes, guard, first, firstAims, shape, tail, args, ok_bind,
    decodeMod_asMov hx mod, retarget_asMov aims, dup, if_false, Bool.not_true, Bool.false_eq_true]

/-- Settles O56: the words that trap by name decode to themselves (R39, R55), every other instruction has operands
(`decodeVamer_of_args`). -/
theorem vamerRoundTrip : Obligations.VamerRoundTrip := by
  unfold Obligations.VamerRoundTrip
  rintro spine i - wf (hx | ⟨w, rfl⟩ | ⟨w, rfl⟩ | ⟨w, rfl⟩)
  · obtain ⟨x, hx⟩ := Option.isSome_iff_exists.mp hx
    exact decodeVamer_of_args hx wf
  · have opc : wordOpc w = 0 := congrArg BitVec.toNat (of_decide_eq_true wf)
    exact if_pos opc
  · have opc : wordOpc w = 0x3FF := congrArg BitVec.toNat (of_decide_eq_true wf)
    exact (if_neg (by rw [encodeVamer, opc]; decide)).trans (if_pos opc)
  · simp only [Instr.wf, Bool.and_eq_true, Bool.not_eq_true', decide_eq_true_eq] at wf
    obtain ⟨⟨unassigned, notZero⟩, notOnes⟩ := wf
    have notZero : wordOpc w ≠ 0 := fun e => notZero (BitVec.eq_of_toNat_eq e)
    have notOnes : wordOpc w ≠ 0x3FF := fun e => notOnes (BitVec.eq_of_toNat_eq e)
    have unassigned : opcAssigned (wordOpc w) = false := unassigned
    simp only [encodeVamer, decodeVamer, notZero, notOnes, unassigned, if_false, Bool.not_false, if_true]

end Sys2Proof

/-! ## O30: words that trap by name, TRAP, BKPT, TRET and ASSERT

A word that traps does so in its place; TRAP and BKPT complete first, as kind A. -/

namespace Sys2Proof.Machine

open Sys2Proof

/-! ### Words that trap by name (R39, R55) -/

theorem trapWord_of_turn {s : State} {r : FragRef} {x : Ix} (hc : s.cur = some (.frag r)) (hx : ixOf s r = some x)
    (t : Trap) (w : Word96) : trapWord t w s = .next (trapB s x t w) := by
  simp only [trapWord, hc, hx]

theorem exec_ztrap (w : Word96) (s : State) : exec (.ztrap w) s = trapWord (trapOf cZERO_WORD) w s := rfl

theorem exec_onesWord (w : Word96) (s : State) : exec (.onesWord w) s = trapWord (trapOf cONES_WORD) w s := rfl

theorem exec_unassignedOpc (w : Word96) (s : State) :
    exec (.unassignedOpc w) s = trapWord ((trapOf cILLEGAL).onField .opc) w s := rfl

/-! ### Kind-A traps of an instruction (R397, R400) -/

section

variable {i : Instr} {a : Args} {s : State} {x : Ix}

/-- Lanes that fall through with a kind-A trap form one fragment, which takes it. -/
theorem finish_trap (t : State) (w : Word96) (tr : Trap) (hm : x.fr.mask ≠ 0) :
    finish t x w [] (some tr) id =
      takeTrap (onwardAt t x (x.fr.pc + 12) id) { x.ref with frag := lowest x.fr.mask } tr false x.fr.pc w := by
  simp only [finish, groups_nil _ _ hm, List.foldl_cons, List.foldl_nil, List.any_cons, List.any_nil]
  simp only [regroup, onwardAt, clearRefaults]
  rfl

/-- A body that completes with a kind-A trap. -/
theorem vamer_trapA (h : Issues i a s x) (whole : Bool) (body : Ix → List Nat → State → Res) {t : State} {tr : Trap}
    (hb : body x (enabled x a) (drawn i a s x) = .done t [] (some tr)) (hl : lacksFrame t x (some tr) = false) :
    vamer i a whole body s = .next (noteIssue
      (takeTrap (onwardAt t x (x.fr.pc + 12) id) { x.ref with frag := lowest x.fr.mask } tr false x.fr.pc (encodeVamer i))
      x i a a.yld) := by
  rw [vamer_body h, issue_body h, hb]
  simp only [commit, h.space, hl, Bool.not_true, Bool.false_and, Bool.false_eq_true, if_false,
    finish_trap t _ tr (fresh_mask_ne_zero x a h.lanes)]

end

section

variable {a : Args} {s : State} {x : Ix}

theorem exec_trap (a : Args) (s : State) : exec (.trap a) s = execTrap a s := rfl

theorem exec_bkpt (a : Args) (s : State) : exec (.bkpt a) s = execBkpt a s := rfl

theorem exec_tret (a : Args) (s : State) : exec (.tret a) s = execTret a s := rfl

/-- TRET of a fragment made of its frame's lanes returns (R406). -/
theorem exec_tret_returns (h : Issues (.tret a) a s x) (hr : returns x = true) : exec (.tret a) s =
    .next (noteIssue (trapReturn (drawn (.tret a) a s x) x (encodeVamer (.tret a))) x (.tret a) a a.yld) :=
  (exec_tret a s).trans (vamer_own h false _ (by simp only [hr, if_true]))

/-! ### ASSERT (R411) -/

/-- The enabled lanes that fail the assertion. -/
def failing (t : State) (x : Ix) (a : Args) : List Nat := (enabled x a).filter fun l => srcI t x a 32 a.b l = 0

theorem exec_assert (a : Args) (s : State) : exec (.assert a) s = execAssert a s := rfl

theorem exec_assert_holds (h : Issues (.assert a) a s x) (pass : failing (drawn (.assert a) a s x) x a = []) :
    exec (.assert a) s = .next (through (.assert a) (drawn (.assert a) a s x) x a) := by
  unfold failing at pass
  exact (exec_assert a s).trans (vamer_done h false _ (by simp only [pass, List.isEmpty_nil, if_true]))

/-- The report of the lanes that fail. -/
def assertReport (t : State) (x : Ix) (a : Args) : Report :=
  { reportFrag t x x.fr.pc (maskOf (failing t x a)) x.ref.frag with
    code := BitVec.ofNat 16 cASSERT, aux := w64 (srcI t x a 64 a.c ((failing t x a).headD 0)) }

theorem exec_assert_fails (h : Issues (.assert a) a s x) (fail : failing (drawn (.assert a) a s x) x a ≠ [])
    (goes : (through (.assert a) (drawn (.assert a) a s x) x a).stalled = false) :
    exec (.assert a) s = .next (assertStop (through (.assert a) (drawn (.assert a) a s x) x a) x.ctx
      (assertReport (drawn (.assert a) a s x) x a)) := by
  have whole : commit (drawn (.assert a) a s x) x a (.assert a) a.yld (drawn (.assert a) a s x) [] none id =
      through (.assert a) (drawn (.assert a) a s x) x a :=
    commit_through _ x a _ _ _ id (fresh_mask_ne_zero x a h.lanes) h.noStep h.space
  have nonempty : (failing (drawn (.assert a) a s x) x a).isEmpty = false := List.isEmpty_eq_false_iff.mpr fail
  refine (exec_assert a s).trans (vamer_own h false _ ?_)
  unfold failing at nonempty
  simp only [nonempty, whole, goes, Bool.false_eq_true, if_false]
  rfl

end

/-- Settles O30: each clause is the lemma of its outcome. -/
theorem trapComplete : Obligations.TrapComplete := by
  unfold Obligations.TrapComplete
  refine ⟨?zero, ?ones, ?unassigned, ?trap, ?bkpt, ?tret, ?assert⟩
  case zero => exact fun w => ⟨rfl, fun s _ _ hc hx => (exec_ztrap w s).trans (trapWord_of_turn hc hx _ w)⟩
  case ones => exact fun w => ⟨rfl, fun s _ _ hc hx => (exec_onesWord w s).trans (trapWord_of_turn hc hx _ w)⟩
  case unassigned => exact fun w => ⟨rfl, fun s _ _ hc hx => (exec_unassignedOpc w s).trans (trapWord_of_turn hc hx _ w)⟩
  case trap => exact fun a s x h hl => (exec_trap a s).trans (vamer_trapA h false _ rfl hl)
  case bkpt => exact fun a s x h hl => (exec_bkpt a s).trans (vamer_trapA h false _ rfl hl)
  case tret => exact fun _ _ _ h hr => exec_tret_returns h hr
  case assert => exact fun _ _ _ h => ⟨exec_assert_holds h, exec_assert_fails h⟩

end Sys2Proof.Machine

/-! ## O33: the events that end a wait

One lemma for each event; the obligation collects them. -/

namespace Sys2Proof.Machine

open Sys2Proof

theorem exec_rejoinRelease (s : State) : exec .rejoinRelease s =
    .next (s.ev.cs.foldl (fun t c => modCoach t s.ev.i c fun co => releaseRejoins co s.ev.x) s) := rfl

section

variable {s : State}

theorem exec_napDeadline (s : State) : exec .napDeadline s = execNapDeadline s := rfl

/-- A nap whose time has come ends (R166). -/
theorem exec_napDeadline_ends {f : Frag} {d : Nat} (hf : s.frag? s.ev.frag = some f) (hn : f.nap = some d)
    (hd : d ≤ s.rtime) : ∃ t, exec .napDeadline s = .next t ∧ t.frag? s.ev.frag = some { f with nap := none } := by
  refine ⟨_, (exec_napDeadline s).trans rfl, ?_⟩
  rw [modFrag_get hf]
  simp only [hn, hd, if_true]

theorem exec_loadReply (s : State) : exec .loadReply s = execLoadReply s := rfl

theorem exec_loadReply_pending {t : Nat} {c : CoachId} {p : Pend} (h : pendOf s s.ev.i = some (t, c, p)) :
    exec .loadReply s = .next (replyPend s t c p) := by
  simp only [exec_loadReply, execLoadReply, h]

/-- An agent takes the next turn (log 3). -/
def nextTurn (s : State) (a : Agent) : State := { s with agenda := .issue a false :: s.agenda }

theorem exec_timedWaitDeadline (s : State) : exec .timedWaitDeadline s = execTimedWaitDeadline s := rfl

theorem exec_timedWaitDeadline_due {f : Frag} {d : Nat} (hf : s.frag? s.ev.frag = some f) (hn : f.deadline = some d)
    (hd : d ≤ s.rtime) : exec .timedWaitDeadline s = .next (nextTurn s (.frag s.ev.frag)) := by
  simp only [exec_timedWaitDeadline, execTimedWaitDeadline, hf, hn, hd, Option.bind_some, if_true, nextTurn]

/-! ### Casks (R233) -/

/-- A wait on casks: its number, the agent and its needs. -/
abbrev CaskWait := Nat × Agent × List (Nat × Need)

/-- The earlier of a wait seen before and one more, as CASK_RETRY keeps it. -/
def earlierWait (b : Option (Nat × Agent)) (w : CaskWait) : Option (Nat × Agent) :=
  match b with
  | some (n, _) => if w.1 < n then some (w.1, w.2.1) else b
  | none => some (w.1, w.2.1)

theorem earlierWait_of_later {b : Option (Nat × Agent)} {v : CaskWait} (h : ∀ n a, b = some (n, a) → v.1 < n) :
    earlierWait b v = some (v.1, v.2.1) := by
  cases b with
  | none => rfl
  | some p => exact if_pos (h p.1 p.2 rfl)

theorem earlierWait_later {b : Option (Nat × Agent)} {v : CaskWait} {k n : Nat} {a : Agent}
    (hb : ∀ n a, b = some (n, a) → k < n) (hv : k < v.1) (e : earlierWait b v = some (n, a)) : k < n := by
  cases b with
  | none => cases e; exact hv
  | some p =>
    simp only [earlierWait] at e
    split at e
    · cases e; exact hv
    · exact hb n a e

/-- The waits that CASK_RETRY chooses from: those on its cask that can be accepted. -/
def retryable (s : State) : List CaskWait :=
  (caskWaiters s s.ev.i).filter fun w => w.2.2.any (fun m => m.1 = s.ev.j) && needsMet s s.ev.i w.2.2

theorem exec_caskRetry (s : State) : exec .caskRetry s = .next (match (retryable s).foldl earlierWait none with
    | some (_, a) => nextTurn s a
    | none => s) := rfl

/-- The wait that began first wins the fold, however many agents share it. -/
theorem foldl_earlierWait {w : CaskWait} {ws : List CaskWait} (b : Option (Nat × Agent))
    (first : ∀ v ∈ ws, w.1 < v.1 ∨ (v.1 = w.1 ∧ v.2.1 = w.2.1))
    (hb : b = some (w.1, w.2.1) ∨ (w ∈ ws ∧ ∀ n a, b = some (n, a) → w.1 < n)) :
    ws.foldl earlierWait b = some (w.1, w.2.1) := by
  induction ws generalizing b with
  | nil => exact hb.resolve_right fun h => List.not_mem_nil h.1
  | cons v vs ih =>
    obtain ⟨fv, fvs⟩ := List.forall_mem_cons.mp first
    refine ih _ fvs ?_
    rcases hb with rfl | ⟨mem, later⟩
    · exact .inl (if_neg (by omega))
    · rcases fv with lt | ⟨same, agent⟩
      · refine .inr ⟨(List.mem_cons.mp mem).resolve_left fun e => ?_, fun n a e => ?_⟩
        · exact absurd lt (e ▸ lt_irrefl _)
        · exact earlierWait_later later lt e
      · left
        rw [← same, ← agent]
        exact earlierWait_of_later fun n a e => same ▸ later n a e

/-- CASK_RETRY gives the next turn to the wait that began first of those that can be accepted. -/
theorem exec_caskRetry_first {w : CaskWait} (hw : w ∈ retryable s)
    (first : ∀ v ∈ retryable s, w.1 < v.1 ∨ (v.1 = w.1 ∧ v.2.1 = w.2.1)) :
    exec .caskRetry s = .next (nextTurn s w.2.1) := by
  rw [exec_caskRetry, foldl_earlierWait none first (.inr ⟨hw, nofun⟩)]

/-! ### Queues (R326) -/

theorem exec_enqueueAccept (s : State) : exec .enqueueAccept s = execEnqueueAccept s := rfl

/-- ENQUEUE_ACCEPT gives the next turn to the fragment whose wait has the lowest number of those for which there is room. -/
theorem exec_enqueueAccept_first {k : Nat} {ks : List Nat} {r : FragRef}
    (hk : sortNat (((producers s s.ev.i).filter fun p => (freePlace (s.queue s.ev.i) p.2).isSome).map (·.1)) = k :: ks)
    (hr : ((s.trains.flatMap fun e => e.2.fragRefs e.1).find? fun r => ((s.frag? r).bind (·.wait)).map (·.1) = some k) =
      some r) : exec .enqueueAccept s = .next (nextTurn s (.frag r)) := by
  simp only [exec_enqueueAccept, execEnqueueAccept, hk, hr, nextTurn]

end

/-- Settles O33: each clause is the lemma of its event. -/
theorem waitEvents : Obligations.WaitEvents := by
  unfold Obligations.WaitEvents
  exact ⟨fun s _ => exec_rejoinRelease s, fun _ _ _ hf hn hd => exec_napDeadline_ends hf hn hd,
    fun _ _ _ _ h => exec_loadReply_pending h, fun _ _ _ ⟨hf, hn, hd⟩ => exec_timedWaitDeadline_due hf hn hd,
    fun _ _ hw first => exec_caskRetry_first hw first, fun _ _ _ _ hk hr => exec_enqueueAccept_first hk hr⟩

end Sys2Proof.Machine

/-! ## O49: the turn of an agent runs what it fetches

One lemma for each of fetch, decode and turn. -/

namespace Sys2Proof.Machine

open Sys2Proof

/-! ### The turn of a fragment (R36, R150, R183) -/

/-- The fragment of `x` may issue, no trap of it is due, and it waits at no barrier and for no HCALL. -/
structure ToIssue (s : State) (r : FragRef) (x : Ix) : Prop where
  here : ixOf s r = some x
  may : mayIssue s x = true
  bar : x.fr.bar = none
  due : x.fr.due = none
  hcall : x.fr.hcall = none

theorem ixOf_ref {s : State} {r : FragRef} {x : Ix} (h : ixOf s r = some x) : x.ref = r := by
  simp only [ixOf, Option.bind_eq_bind, Option.bind_eq_some_iff] at h
  obtain ⟨tr, -, co, -, fr, -, h⟩ := h
  split at h <;> cases h <;> rfl

theorem fetchFrag_toIssue {s : State} {r : FragRef} {x : Ix} (h : ToIssue s r x) : fetchFrag s r = fetchNext s x := by
  have wait : barWait s x = some s := by simp only [barWait, h.bar]
  simp only [fetchFrag, h.here, h.may, wait, h.hcall, Bool.not_true, Bool.false_eq_true, if_false]

theorem fetchNext_ready {s u : State} {x : Ix} {w : Word96} {i : Instr} (due : x.fr.due = none)
    (hw : fetchWord s x = .ok (w, u)) (hi : decodeVamer x.spine w = .ok i) : fetchNext s x = .ready i u := by
  simp only [fetchNext, due, hw, hi]

theorem fetchNext_refused {s u : State} {x : Ix} {w : Word96} {f : Field} (due : x.fr.due = none)
    (hw : fetchWord s x = .ok (w, u)) (hf : decodeVamer x.spine w = .error f) :
    fetchNext s x = .moved (issueIllegal u x.ref w f) := by
  simp only [fetchNext, due, hw, hf]

/-- Where the instruction caches hold all 12 bytes of one page that translates, the word is that of those bytes. -/
theorem fetchWord_cached {s u : State} {x : Ix} {ma : Nat} {key : Byte} {bs : List Byte}
    (page : xlate s x.cluster x.coreTlb x.ctx x.fr.pc.toNat .fetch x.fr.replay false = (.ok ma key, u))
    (one : x.fr.pc.toNat % 65536 + 11 < 65536) (whole : isRefused (ma + 11) = false) (free : keyConflict u ma key = false)
    (memory : isMmio ma = false) (cached : icacheBytes u x.cluster x.ctx x.fr.pc.toNat = some bs) :
    fetchWord s x = .ok (BitVec.ofNat 96 (leVal bs), u) := by
  have unsplit : x.fr.pc.toNat / 65536 = (x.fr.pc.toNat + 11) / 65536 := by omega
  simp [fetchWord, page, unsplit, whole, free, memory, cached]

/-! ### The step (log 3) -/

/-- The state in which an agent's turn begins. -/
def beginTurn (s : State) (a : Agent) (defer : Bool) (rest : List Turn) : State :=
  { s with agenda := rest, cur := some a, defer := defer, stalled := false }

theorem step_of_agenda {s : State} {t : Turn} {rest : List Turn} (h : s.agenda = t :: rest) :
    step s = runTurn t { s with agenda := rest } := by
  simp only [step, h]

section

variable {s : State} {a : Agent} {d : Bool} {rest : List Turn}

theorem step_of_ready {u : State} {i : Instr} (h : s.agenda = .issue a d :: rest)
    (f : fetchAgent (beginTurn s a d rest) a = .ready i u) : step s = exec i u := by
  unfold beginTurn at f
  rw [step_of_agenda h]
  simp only [runTurn, issueTurn, f]

theorem step_of_moved {u : State} (h : s.agenda = .issue a d :: rest)
    (f : fetchAgent (beginTurn s a d rest) a = .moved u) : step s = .next u := by
  unfold beginTurn at f
  rw [step_of_agenda h]
  simp only [runTurn, issueTurn, f]

end

theorem fetchDray_ready {s : State} {t rank hart : Nat} {x : Dx} {w : Word32} (here : dxOf s t rank hart = some x)
    (resident : x.tr.res = .resident) (awake : x.d.halted = false) (runs : ctxRuns s x.tr.ctx = true)
    (hw : x.d.fetch = .ok w) : fetchDray s t rank hart = .ready (decodeDray w) s := by
  simp [fetchDray, here, resident, awake, runs, hw]

section

variable {s u : State} {r : FragRef} {d : Bool} {rest : List Turn} {x : Ix} {w : Word96}

/-- A fragment's turn executes the instruction that its word decodes to. -/
theorem step_of_decoded {i : Instr} (ag : s.agenda = .issue (.frag r) d :: rest)
    (iss : ToIssue (beginTurn s (.frag r) d rest) r x) (hw : fetchWord (beginTurn s (.frag r) d rest) x = .ok (w, u))
    (hi : decodeVamer x.spine w = .ok i) : step s = exec i u :=
  step_of_ready ag ((fetchFrag_toIssue iss).trans (fetchNext_ready iss.due hw hi))

/-- A word that R39 refuses takes the ILLEGAL trap. -/
theorem step_of_refused {f : Field} (ag : s.agenda = .issue (.frag r) d :: rest)
    (iss : ToIssue (beginTurn s (.frag r) d rest) r x) (hw : fetchWord (beginTurn s (.frag r) d rest) x = .ok (w, u))
    (hf : decodeVamer x.spine w = .error f) : step s = .next (issueIllegal u r w f) := by
  rw [← ixOf_ref iss.here]
  exact step_of_moved ag ((fetchFrag_toIssue iss).trans (fetchNext_refused iss.due hw hf))

end

/-- Settles O49: each clause is the lemma of its turn. -/
theorem stepRunsDecoded : Obligations.StepRunsDecoded := by
  unfold Obligations.StepRunsDecoded
  refine ⟨?decoded, ?cached, ?refused, ?dray, ?event, ?held, ?tick⟩
  case decoded =>
    intro s r d rest x w u i ⟨ag, here, may, bar, due, hcall⟩ hw hi
    exact step_of_decoded ag ⟨here, may, bar, due, hcall⟩ hw hi
  case cached =>
    intro s r d rest x ma key u bs i ⟨ag, here, may, bar, due, hcall⟩ page one whole free memory cached hi
    exact step_of_decoded ag ⟨here, may, bar, due, hcall⟩ (fetchWord_cached page one whole free memory cached) hi
  case refused =>
    intro s r d rest x w u f ⟨ag, here, may, bar, due, hcall⟩ hw hf
    exact step_of_refused ag ⟨here, may, bar, due, hcall⟩ hw hf
  case dray =>
    intro s t rank hart d rest x w ag here resident awake ctx hw
    exact step_of_ready ag (fetchDray_ready here resident awake ctx hw)
  case event =>
    intro s i e rest ag free
    rw [step_of_agenda ag, runTurn]
    exact if_neg (by rcases free with h | h <;> simp [h])
  case held =>
    intro s i e rest ag held other
    rw [step_of_agenda ag, runTurn]
    exact if_pos (by simp [held, other])
  case tick =>
    intro s rest ag
    exact step_of_agenda ag

end Sys2Proof.Machine

/-! ## O55: words written out bit by bit -/

namespace Sys2Proof

/-- Settles O55: the decoder evaluates on each word. -/
theorem decodedWords : Obligations.DecodedWords := by
  unfold Obligations.DecodedWords
  decide

end Sys2Proof

namespace Sys2Proof.Machine

open Sys2Proof

/-! ## O1 to O5: class 0x0 completes

Every instruction of class 0x0 runs one of two bodies, which write a value, or a value and a flag, per enabled lane. -/

section

variable {i : Instr} {a : Args} {o : Operand} {bits : Nat}

/-- An instruction whose body writes one value per lane completes with those values. -/
theorem completes_of_lanewise {f : State → Ix → Nat → Nat}
    (body : ∀ s, exec i s = vamer i a false (lanewise o bits f) s) :
    Completes i a fun s x => sets i a s x o bits fun t l => f t x l :=
  fun s _ h => (body s).trans (vamer_lanewise h o bits f)

/-- An instruction whose body writes one value and one flag per lane completes with those. -/
theorem completes_of_lanewiseP {pd : Option (BitVec 4)} {f : State → Ix → Nat → Nat × Bool}
    (body : ∀ s, exec i s = vamer i a false (lanewiseP o bits pd f) s) :
    Completes i a fun s x => setsFlag i a s x o bits pd fun t l => f t x l :=
  fun s _ h => (body s).trans (vamer_lanewiseP h o bits pd f)

/-- An instruction whose body rounds completes with the rounded values. -/
theorem completes_of_rounded {n : Nat} {rm : RMode} {f : State → Ix → Nat → (Nat → Nat) → Nat}
    (body : ∀ s, exec i s = vamer i a false (rounded o bits n rm f) s) :
    Completes i a fun s x => setsRounded i a s x o bits n rm fun t => f t x :=
  fun s _ h => (body s).trans (vamer_rounded h o bits n rm f)

end

/-- Settles O1: each body writes the result and the flag of `addSub` or `addCarry`. -/
theorem addSubComplete : Obligations.AddSubComplete := by
  unfold Obligations.AddSubComplete
  exact ⟨fun _ _ => completes_of_lanewiseP fun _ => rfl, fun _ _ => completes_of_lanewiseP fun _ => rfl,
    fun _ _ _ => completes_of_lanewiseP fun _ => rfl, fun _ _ _ => completes_of_lanewiseP fun _ => rfl⟩

/-- Settles O2: each body writes the result of `mulAdd`, `mulHigh` or `divRem` with its flag. -/
theorem mulDivComplete : Obligations.MulDivComplete := by
  unfold Obligations.MulDivComplete
  refine ⟨?_, ?_, ?_, ?_, ?_⟩
  all_goals exact fun _ _ => completes_of_lanewiseP fun _ => rfl

/-- Settles O3: each body writes its function of the sources; only ABS has a flag. -/
theorem logicComplete : Obligations.LogicComplete := by
  unfold Obligations.LogicComplete
  refine ⟨?_, ?_, ?_, ?_, ?_, ?_, ?_⟩
  all_goals exact fun _ _ => completes_of_lanewiseP fun _ => rfl

/-- Settles O4: each body writes its function of the sources, C and D read at 32 bits where the rules say. -/
theorem shiftComplete : Obligations.ShiftComplete := by
  unfold Obligations.ShiftComplete
  refine ⟨?_, ?_, ?_, ?_, ?_, ?_, ?_⟩
  all_goals exact fun _ _ => completes_of_lanewiseP fun _ => rfl

/-- Settles O5: each body writes its function of the sources; SEL alone has the body without a flag. -/
theorem moveComplete : Obligations.MoveComplete := by
  unfold Obligations.MoveComplete
  refine ⟨?popc, ?clz, ?ctz, ?brev, ?sel, ?cmp, ?plop, ?mov, ?srseed, ?preds⟩
  case sel => exact fun _ _ _ _ => completes_of_lanewise fun _ => rfl
  case cmp => exact fun _ _ _ _ => completes_of_lanewiseP fun _ => rfl
  all_goals exact fun _ _ => completes_of_lanewiseP fun _ => rfl

end Sys2Proof.Machine

namespace Sys2Proof.Machine

open Sys2Proof

/-! ## O41 and O42: frames of classes 0x0 to 0x3

A frame follows from what the instruction completes with: `sets`, `setsFlag` and `setsRounded` keep the rest. -/

section

variable {i : Instr} {a : Args} {o : Operand} {bits : Nat}

/-- An instruction that writes one value per lane changes that destination only. -/
theorem registerOnly_of_sets {val : Ix → State → Nat → Nat} (done : Completes i a fun s x => sets i a s x o bits (val x)) :
    RegisterOnly i a o bits none false := by
  intro ho s x h
  obtain ⟨regs, machine, gens, casks⟩ := sets_frame i a s x o bits (val x) (enabled x a) (fun q => o = .pred q || none = some q)
    (fun _ hl => hl) ho (by simp)
  exact ⟨_, done s x h, regs, machine, fun _ => gens, gens.others x, casks⟩

/-- One that writes a flag too changes the flag predicate as well. -/
theorem registerOnly_of_setsFlag {pd : Option (BitVec 4)} {val : Ix → State → Nat → Nat × Bool}
    (done : Completes i a fun s x => setsFlag i a s x o bits pd (val x)) : RegisterOnly i a o bits pd false := by
  intro ho s x h
  obtain ⟨regs, machine, gens, casks⟩ := setsFlag_frame i a s x o bits pd (val x) (enabled x a)
    (fun q => o = .pred q || pd = some q) (fun _ hl => hl) ho (by simp)
  exact ⟨_, done s x h, regs, machine, fun _ => gens, gens.others x, casks⟩

/-- One that rounds changes the generator of its own coach, in the mode sr only (R100). -/
theorem registerOnly_of_setsRounded {n : Nat} {rm : RMode} {val : Ix → State → Nat → (Nat → Nat) → Nat}
    (done : Completes i a fun s x => setsRounded i a s x o bits n rm (val x)) :
    RegisterOnly i a o bits none (decide (rm = .sr)) := by
  intro ho s x h
  obtain ⟨regs, machine, gens, others, casks⟩ := setsRounded_frame h o bits n rm (val x) (fun q => o = .pred q || none = some q)
    ho (by simp)
  exact ⟨_, done s x h, regs, machine, fun e => gens (of_decide_eq_false e), others, casks⟩

end

/-! ### MOV to %srseed and %preds (R50, R89, R101) -/

/-- A write of %srseed changes the generator alone. -/
theorem putDst_srseed (co : Coach) (bits : Nat) (rs : List (Nat × Nat)) :
    ∃ g, putDst co (.sr 0x0D) bits rs = { co with gen := g } := by
  simp only [putDst]
  induction rs generalizing co with
  | nil => exact ⟨co.gen, rfl⟩
  | cons r rs ih => exact ih { co with gen := if r.2 % 2 ^ 32 = 0 then 1 else w32 r.2 }

/-- A write of %preds changes the predicates of the written lanes alone. -/
theorem putDst_preds (co : Coach) (bits : Nat) (rs : List (Nat × Nat)) {ls : List Nat} (hr : ∀ r ∈ rs, r.1 ∈ ls) :
    CoachRegs ls .zero 32 (fun _ => true) co (putDst co (.sr 0x0F) bits rs) ∧
      (putDst co (.sr 0x0F) bits rs).gen = co.gen ∧ (putDst co (.sr 0x0F) bits rs).frames = co.frames := by
  simp only [putDst]
  induction rs generalizing co with
  | nil => exact ⟨.refl .., rfl, rfl⟩
  | cons r rs ih =>
    let put (l : Lane) : Lane := { l with preds := BitVec.ofNat 15 r.2 }
    have regs : CoachRegs ls .zero 32 (fun _ => true) co (modLane co r.1 put) :=
      modLane_regs ls .zero 32 _ co r.1 put (hr r List.mem_cons_self) (fun _ _ _ => rfl) (fun _ _ h => absurd rfl h)
    obtain ⟨gen, frames⟩ := modLane_rest co r.1 put
    obtain ⟨regs', gen', frames'⟩ := ih (modLane co r.1 put) fun e he => hr e (List.mem_cons_of_mem _ he)
    exact ⟨regs.trans regs', gen'.trans gen, frames'.trans frames⟩

section

variable {s : State} {x : Ix} {bits : Nat} {rs : List (Nat × Nat)}

theorem wr_srseed_frame : SameRegs x [] .zero 32 (fun _ => false) s (wr s x (.sr 0x0D) bits rs) ∧
    SameMachine s (wr s x (.sr 0x0D) bits rs) ∧ GensElse x s (wr s x (.sr 0x0D) bits rs) := by
  refine ⟨modCoach_regs s x _ _ _ _ _ fun co => ?_, modCoach_machine s _ _ _ fun co => ?_, modCoach_gensElse s x _⟩
  · obtain ⟨g, e⟩ := putDst_srseed co bits rs
    rw [e]
    exact ⟨fun _ _ _ => rfl, fun _ _ => rfl, fun _ _ _ => rfl⟩
  · obtain ⟨g, e⟩ := putDst_srseed co bits rs
    rw [e]

theorem wr_preds_frame {ls : List Nat} (hr : ∀ r ∈ rs, r.1 ∈ ls) :
    SameRegs x ls .zero 32 (fun _ => true) s (wr s x (.sr 0x0F) bits rs) ∧
      SameMachine s (wr s x (.sr 0x0F) bits rs) ∧ SameGens s (wr s x (.sr 0x0F) bits rs) :=
  ⟨modCoach_regs s x ls _ _ _ _ fun co => (putDst_preds co bits rs hr).1,
    modCoach_machine s _ _ _ fun co => (putDst_preds co bits rs hr).2.2,
    modCoach_gens s _ _ _ fun co => (putDst_preds co bits rs hr).2.1⟩

end

section

variable {i : Instr} {a : Args} {s : State} {x : Ix} {o : Operand} {bits : Nat} {val : State → Nat → Nat × Bool}

theorem setsFlag_srseed_frame (ho : o = .sr 0x0D) : let t := setsFlag i a s x o bits none val
    SameRegs x [] .zero 32 (fun _ => false) s t ∧ SameMachine s t ∧ GensElse x s t := by
  subst ho
  obtain ⟨trains, drawM, -⟩ := drawn_frame i a s x
  obtain ⟨drawR, drawG⟩ := trains_regs trains x [] .zero 32 fun _ => false
  let rs := (enabled x a).map fun l => (l, val (drawn i a s x) l)
  obtain ⟨wrR, wrM, wrG⟩ := wr_srseed_frame (s := drawn i a s x) (x := x) (bits := bits) (rs := rs.map fun r => (r.1, r.2.1))
  obtain ⟨endR, endM, endG, -⟩ := through_frame i (wr (drawn i a s x) x (.sr 0x0D) bits (rs.map fun r => (r.1, r.2.1))) x a []
    .zero 32 fun _ => false
  exact ⟨drawR.trans (wrR.trans endR), drawM.trans (wrM.trans endM), (drawG.others x).trans (wrG.trans (endG.others x))⟩

theorem setsFlag_preds_frame (ho : o = .sr 0x0F) : let t := setsFlag i a s x o bits none val
    SameRegs x (enabled x a) .zero 32 (fun _ => true) s t ∧ SameMachine s t ∧ SameGens s t := by
  subst ho
  obtain ⟨trains, drawM, -⟩ := drawn_frame i a s x
  obtain ⟨drawR, drawG⟩ := trains_regs trains x (enabled x a) .zero 32 fun _ => true
  let rs := (enabled x a).map fun l => (l, val (drawn i a s x) l)
  obtain ⟨wrR, wrM, wrG⟩ := wr_preds_frame (s := drawn i a s x) (x := x) (bits := bits) (rs := rs.map fun r => (r.1, r.2.1))
    (ls := enabled x a) (by simp [rs])
  obtain ⟨endR, endM, endG, -⟩ := through_frame i (wr (drawn i a s x) x (.sr 0x0F) bits (rs.map fun r => (r.1, r.2.1))) x a
    (enabled x a) .zero 32 fun _ => true
  exact ⟨drawR.trans (wrR.trans endR), drawM.trans (wrM.trans endM), drawG.trans (wrG.trans endG)⟩

end

/-- Settles O41: each instruction runs a body that writes its destination and its flag alone (`registerOnly_of_setsFlag`). -/
theorem integerFrame : Obligations.IntegerFrame := by
  unfold Obligations.IntegerFrame
  dsimp only
  refine ⟨⟨?_, ?_, ?_, ?_, ?_, ?_, ?_⟩, ⟨?_, ?_, ?_, ?_, ?_, ?_, ?_, ?_, ?_, ?_, ?_, ?_, ?_, ?_, ?_, ?_⟩, ⟨?_, ?_, ?_, ?_⟩,
    ?addc, ?subb, ?sel, ?cmp, ?srseed, ?preds⟩
  case addc | subb => exact fun _ _ _ => registerOnly_of_setsFlag (completes_of_lanewiseP fun _ => rfl)
  case sel => exact fun _ _ _ _ => registerOnly_of_sets (completes_of_lanewise fun _ => rfl)
  case cmp => exact fun _ _ _ _ => registerOnly_of_setsFlag (completes_of_lanewiseP fun _ => rfl)
  case srseed =>
    intro m a s x ha h
    have done : Completes (.srseedWrite m a) a _ := completes_of_lanewiseP fun _ => rfl
    exact ⟨_, done s x h, setsFlag_srseed_frame ha⟩
  case preds =>
    intro m a s x ha h
    have done : Completes (.predsWrite m a) a _ := completes_of_lanewiseP fun _ => rfl
    exact ⟨_, done s x h, setsFlag_preds_frame ha⟩
  all_goals exact fun _ _ => registerOnly_of_setsFlag (completes_of_lanewiseP fun _ => rfl)

/-- A special function that does not choose its rounding mode leaves the generator (R134). -/
theorem registerOnly_of_sfunBody {i : Instr} {a : Args} {f : SFun} {z : Bool}
    (body : ∀ s, exec i s = vamer i a false (sfunBody f .rn z a) s) : RegisterOnly i a a.a 32 none false :=
  registerOnly_of_setsRounded (rm := .rn) (completes_of_rounded body)

/-! ### Bodies of their own: BMAX, SRSTEP and SINCOS -/

/-- BMAX writes one value per lane (R115). -/
theorem bmax_completes (g : BitVec 3) (a : Args) : Completes (.bmax g a) a fun s x => sets (.bmax g a) a s x a.a 32 fun t l =>
    (((enabled x a).map fun k => (k, maxMag (srcF t x a a.b k) (srcF t x a a.c k))).filter fun f =>
      f.1 / 2 ^ g.toNat = l / 2 ^ g.toNat).foldl (fun v f => maxMag v f.2) 0 := by
  intro s x h
  refine vamer_done h false _ ?_
  dsimp only
  rw [List.map_map]
  rfl

theorem genLanes_lanes (ls : List Nat) (g : Word32) : (genLanes ls g).1.map (·.1) = ls := by
  induction ls generalizing g with
  | nil => rfl
  | cons l ls ih => simp only [genLanes, List.map_cons, ih]

/-- SRSTEP writes its destination and its coach's generator (R118). -/
theorem srstep_registerOnly (a : Args) : RegisterOnly (.srstep a) a a.a 32 none true := by
  intro ho s x h
  let p (q : BitVec 4) : Bool := a.a = .pred q || none = some q
  let t := drawn (.srstep a) a s x
  let rs := (genLanes (enabled x a) x.co.gen).1
  let u := modCoach t x.ref.train x.ref.coach fun co => { co with gen := (genLanes (enabled x a) x.co.gen).2 }
  have lanes : ∀ r ∈ rs, r.1 ∈ enabled x a := fun r hr =>
    genLanes_lanes (enabled x a) x.co.gen ▸ List.mem_map_of_mem hr
  obtain ⟨trains, drawM, drawC⟩ := drawn_frame (.srstep a) a s x
  obtain ⟨drawR, drawG⟩ := trains_regs trains x (enabled x a) a.a 32 p
  have genR : SameRegs x (enabled x a) a.a 32 p t u :=
    modCoach_regs t x _ _ _ _ _ fun co => ⟨fun _ _ _ => rfl, fun _ _ => rfl, fun _ _ _ => rfl⟩
  have genM : SameMachine t u := modCoach_machine _ _ _ _ fun _ => rfl
  obtain ⟨wrR, wrM, wrG⟩ := wr_frame u x (enabled x a) a.a 32 p ho (by simp [p]) rs lanes
  obtain ⟨endR, endM, endG, endC⟩ := through_frame (.srstep a) (wr u x a.a 32 rs) x a (enabled x a) a.a 32 p
  exact ⟨through (.srstep a) (wr u x a.a 32 rs) x a, vamer_done h false _ rfl, drawR.trans (genR.trans (wrR.trans endR)),
    drawM.trans (genM.trans (wrM.trans endM)), nofun,
    (drawG.others x).trans ((modCoach_gensElse t x _).trans ((wrG.trans endG).others x)),
    fun hk => endC.trans ((modCoach_clusters ..).trans ((modCoach_clusters ..).trans (drawC hk)))⟩

/-- SINCOS writes one destination after the other (R134). -/
theorem sincos_frame (z : Bool) (a : Args) (s : State) (x : Ix) (ho : ∀ n, a.a ≠ .sr n ∧ a.d ≠ .sr n)
    (h : Issues (.sincos z a) a s x) : ∃ t u, exec (.sincos z a) s = .next t ∧
      SameRegs x (enabled x a) a.a 32 (fun q => a.a = .pred q) s u ∧
      SameRegs x (enabled x a) a.d 32 (fun q => a.d = .pred q) u t ∧ SameMachine s t ∧ SameGens s t := by
  let t := drawn (.sincos z a) a s x
  let v (f : SFun) := (enabled x a).map fun l => (l, sfunCode f .rn z 0 (srcF t x a a.b l))
  let u := wr t x a.a 32 (v .sin)
  have lanes (f : SFun) : ∀ r ∈ v f, r.1 ∈ enabled x a := by simp [v]
  have run : exec (.sincos z a) s = .next (through (.sincos z a) (wr u x a.d 32 (v .cos)) x a) := by
    refine vamer_done h false _ ?_
    dsimp only
    rw [List.map_map, List.map_map]
    rfl
  obtain ⟨trains, drawM, -⟩ := drawn_frame (.sincos z a) a s x
  obtain ⟨drawR, drawG⟩ := trains_regs trains x (enabled x a) a.a 32 fun q => a.a = .pred q
  obtain ⟨sinR, sinM, sinG⟩ := wr_frame t x (enabled x a) a.a 32 (fun q => a.a = .pred q) (fun n => (ho n).1) (by simp) _ (lanes .sin)
  obtain ⟨cosR, cosM, cosG⟩ := wr_frame u x (enabled x a) a.d 32 (fun q => a.d = .pred q) (fun n => (ho n).2) (by simp) _ (lanes .cos)
  obtain ⟨endR, endM, endG, -⟩ := through_frame (.sincos z a) (wr u x a.d 32 (v .cos)) x a (enabled x a) a.d 32 fun q => a.d = .pred q
  exact ⟨_, u, run, drawR.trans sinR, cosR.trans endR, drawM.trans (sinM.trans (cosM.trans endM)),
    drawG.trans (sinG.trans (cosG.trans endG))⟩

/-- Settles O42: the bodies write one value per lane or round; BMAX, SRSTEP and SINCOS have their own. -/
theorem floatFrame : Obligations.FloatFrame := by
  unfold Obligations.FloatFrame
  dsimp only
  refine ⟨?cvt, ?f2i, ?i2f, ?i2i, ?pack, ?unpk, ?qnt, ?dqnt, ?bscale,
    fun g a => registerOnly_of_sets (bmax_completes g a), ?bytx, srstep_registerOnly, ?arith, ?fmin, ?fmax, ?fabs, ?fneg, ?fsgn,
    ?fcmp, ?fclass, ?fgetx, ?fgetm, ?fsel, ?rcp, ?sqrt, ?special, sincos_frame⟩
  case arith =>
    refine ⟨?_, ?_, ?_, ?_, ?_, ?_, ?_, ?_, ?_, ?_⟩
    all_goals exact fun _ _ => registerOnly_of_setsRounded (completes_of_rounded fun _ => rfl)
  case special =>
    intro z a
    refine ⟨?_, ?_, ?_, ?_, ?_, ?_, ?_⟩
    all_goals exact registerOnly_of_sfunBody fun _ => rfl
  case cvt | i2f | pack | qnt | dqnt | rcp | sqrt =>
    intros
    exact registerOnly_of_setsRounded (completes_of_rounded fun _ => rfl)
  all_goals
    intros
    exact registerOnly_of_sets (completes_of_lanewise fun _ => rfl)

end Sys2Proof.Machine

/-! ## O50 to O53: the results of class 0x0

An instruction that completes with values and flags in relation `p` to its sources gives such results; what is left is arithmetic on
the functions of the model. -/

namespace Sys2Proof.Machine

open Sys2Proof

/-! ### Results of instructions that complete -/

/-- A destination in V, S or literal zero is no predicate. -/
theorem ne_pred_of_dst {spine : Bool} {form : TailForm} {bits : Nat} {o : Operand} (h : roleOk spine form (dst bits) o = true)
    (q : BitVec 4) : o ≠ .pred q := by
  rintro rfl
  exact Bool.false_ne_true h

section

variable {i : Instr} {a : Args} {o : Operand} {bits : Nat} {p : State → Ix → Nat → Nat → Bool → Prop}

theorem gives_of_sets {val : Ix → State → Nat → Nat} (done : Completes i a fun s x => sets i a s x o bits (val x))
    (spec : ∀ t x l, p t x l (val x t l) false) : Gives i a o bits none p :=
  fun s x _ h => ⟨_, done s x h, fun l hl => ⟨val x (drawn i a s x) l, false, spec _ x l,
    sets_holds h.here o bits (val x) hl, nofun⟩⟩

/-- An instruction without a flag. -/
theorem gives_of_setsFlag {val : Ix → State → Nat → Nat × Bool}
    (done : Completes i a fun s x => setsFlag i a s x o bits none (val x))
    (spec : ∀ t x l, p t x l (val x t l).1 (val x t l).2) : Gives i a o bits none p :=
  fun s x _ h => ⟨_, done s x h, fun l hl => ⟨_, _, spec _ x l, setsFlag_holds h.here o bits none (val x) hl nofun⟩⟩

/-- An instruction with a flag: its role keeps the destination apart from the flag predicate (R70). -/
theorem gives_of_setsFlag_dst {sh : Sys2Proof.Shape} {n : Nat} {pd : Option (BitVec 4)} {val : Ix → State → Nat → Nat × Bool}
    (hs : i.shape = some sh) (hx : i.args = some a) (role : sh.a = dst n)
    (done : Completes i a fun s x => setsFlag i a s x a.a bits pd (val x))
    (spec : ∀ t x l, p t x l (val x t l).1 (val x t l).2) : Gives i a a.a bits pd p := by
  intro s x wf h
  obtain ⟨-, -, -, fits, -, -⟩ := Instr.wf_of_args hs hx wf
  have apart (q) (_ : pd = some q) : a.a ≠ .pred q := ne_pred_of_dst (role ▸ fits.a) q
  exact ⟨_, done s x h, fun l hl => ⟨_, _, spec _ x l, setsFlag_holds h.here a.a bits pd (val x) hl apart⟩⟩

end

/-! ### Words as numbers (R72) -/

theorem intW_bits (w : IntW) : w.bits = 32 ∨ w.bits = 64 := by cases w <;> simp [IntW.bits]

theorem intW_bits_pos (w : IntW) : 0 < w.bits := by cases w <;> decide

theorem wbits_eq (w : Bool) : wbits w = 32 ∨ wbits w = 64 := by cases w <;> simp [wbits]

theorem natCast_pat (n : Nat) (i : Int) : (pat n i : Int) = i % 2 ^ n := by
  rw [pat, Int.toNat_of_nonneg (Int.emod_nonneg _ (by positivity)), Nat.cast_pow, Nat.cast_ofNat]

theorem pat_eq_toNat (n : Nat) (i : Int) : pat n i = (BitVec.ofInt n i).toNat := (BitVec.toNat_ofInt i).symm

theorem pat_lt (n : Nat) (i : Int) : pat n i < 2 ^ n := pat_eq_toNat n i ▸ BitVec.isLt _

/-- A number in the unsigned range is its own pattern. -/
theorem natCast_pat_of_range {n : Nat} {i : Int} (lo : 0 ≤ i) (hi : i < 2 ^ n) : (pat n i : Int) = i := by
  rw [natCast_pat, Int.emod_eq_of_lt lo hi]

theorem sval_eq_toInt {n : Nat} (hn : 0 < n) (x : Nat) : sval n x = (BitVec.ofNat n x).toInt := by
  have top : nbit x (n - 1) = (BitVec.ofNat n x).msb := by
    rw [BitVec.msb_eq_getLsbD_last, BitVec.getLsbD_ofNat, decide_eq_true (Nat.sub_lt hn Nat.one_pos), Bool.true_and, nbit]
  rw [sval, BitVec.toInt_eq_msb_cond, BitVec.toNat_ofNat, top]

theorem le_sval {n : Nat} (hn : 0 < n) (x : Nat) : -2 ^ (n - 1) ≤ sval n x := by
  rw [sval_eq_toInt hn]
  exact BitVec.le_toInt _

theorem sval_lt {n : Nat} (hn : 0 < n) (x : Nat) : sval n x < 2 ^ (n - 1) := by
  rw [sval_eq_toInt hn]
  exact BitVec.toInt_lt

/-- A number in the signed range reads back from its pattern. -/
theorem sval_pat {n : Nat} {i : Int} (hn : 0 < n) (lo : -2 ^ (n - 1) ≤ i) (hi : i < 2 ^ (n - 1)) : sval n (pat n i) = i := by
  rw [sval_eq_toInt hn, pat_eq_toNat, BitVec.ofNat_toNat, BitVec.setWidth_eq, BitVec.toInt_ofInt_eq_self hn lo hi]

theorem minS_eq (n : Nat) : minS n = -2 ^ (n - 1) := by rw [minS, Nat.cast_pow, Nat.cast_ofNat]

theorem foldr_words_lt (f : Nat → Word32) (js : List Nat) :
    js.foldr (fun j v => (f j).toNat + 2 ^ 32 * v) 0 < 2 ^ (32 * js.length) := by
  induction js with
  | nil => exact Nat.one_pos
  | cons j js ih =>
    have low := (f j).isLt
    rw [List.foldr_cons, List.length_cons, Nat.mul_succ, Nat.pow_add]
    omega

theorem regsVal_lt (rd : Nat → Word32) (i : Nat) {n : Nat} (hn : n = 32 ∨ n = 64) : regsVal rd i n < 2 ^ n := by
  have h := foldr_words_lt (fun j => rd (i + j)) (List.range (n / 32))
  rw [List.length_range] at h
  rcases hn with rfl | rfl
  · exact h
  · exact h

/-- An integer source fits its width (R71). -/
theorem srcI_lt (s : State) (x : Ix) (a : Args) {n : Nat} (hn : n = 32 ∨ n = 64) (o : Operand) (l : Nat) :
    srcI s x a n o l < 2 ^ n := by
  have pos : 0 < 2 ^ n := by positivity
  have one : 1 < 2 ^ n := Nat.one_lt_two_pow (by omega)
  cases o with
  | v i =>
    simp only [srcI, src]
    split
    · exact regsVal_lt _ _ hn
    · exact pos
  | s i => exact regsVal_lt _ _ hn
  | k c d =>
    simp only [srcI, src]
    split
    · exact Nat.mod_lt _ pos
    · exact pos
  | pred q =>
    simp only [srcI, src]
    split
    · split
      · exact one
      · exact pos
    · exact pos
  | sr r => exact Nat.mod_lt _ pos
  | imm i => exact pat_lt n _
  | tail => exact pat_lt n _
  | unused | tile | yoke | zero => exact pos

/-! ### ADD, SUB, ADDC and SUBB (R73, R74) -/

section

variable {sub : Bool} {m : IntMod} {n b c : Nat}

theorem addSub_wraps (h : m.sat = false) :
    ((addSub sub m n b c).1 : Int) = (if sub then (b : Int) - c else (b : Int) + c) % 2 ^ n := by
  simp only [addSub, h, Bool.false_eq_true, if_false, natCast_pat]

theorem addSub_clamps_unsigned (h : m.sat = true) (hu : m.u = true) :
    ((addSub sub m n b c).1 : Int) = min (max (if sub then (b : Int) - c else (b : Int) + c) 0) (2 ^ n - 1) := by
  have pos : (0 : Int) < 2 ^ n := by positivity
  simp only [addSub, h, hu, clampTo, maxU, if_true]
  exact natCast_pat_of_range (by omega) (by omega)

theorem addSub_clamps_signed (h : m.sat = true) (hu : m.u = false) : ((addSub sub m n b c).1 : Int) =
    min (max (if sub then sval n b - sval n c else sval n b + sval n c) (-2 ^ (n - 1))) (2 ^ (n - 1) - 1) % 2 ^ n := by
  simp only [addSub, h, hu, clampTo, maxS, minS_eq, if_true, Bool.false_eq_true, if_false, natCast_pat]

/-- The unsigned difference leaves the range below, the unsigned sum above. -/
theorem carryFlag_iff {e : Int} (lo : sub = false → 0 ≤ e) (hi : sub = true → e < 2 ^ n) :
    carryFlag n e = true ↔ if sub then e < 0 else e > 2 ^ n - 1 := by
  simp only [carryFlag, Bool.or_eq_true, decide_eq_true_eq]
  cases sub with
  | false =>
    have := lo rfl
    simp only [maxU, Bool.false_eq_true, if_false]
    omega
  | true =>
    have := hi rfl
    simp only [maxU, if_true]
    omega

theorem ovFlag_signed_iff {e : Int} : ovFlag false n e = true ↔ e < -2 ^ (n - 1) ∨ e > 2 ^ (n - 1) - 1 := by
  simp only [ovFlag, inRange, Bool.false_eq_true, if_false, Bool.not_eq_true', Bool.and_eq_false_iff, decide_eq_false_iff_not,
    not_le]
  rw [minS_eq, maxS, gt_iff_lt]

theorem addSub_carry_iff (h : m.po = .carry) (hb : b < 2 ^ n) : (addSub sub m n b c).2 = true ↔
    if sub then (if sub then (b : Int) - c else (b : Int) + c) < 0
      else (if sub then (b : Int) - c else (b : Int) + c) > 2 ^ n - 1 := by
  have hb : (b : Int) < 2 ^ n := by exact_mod_cast hb
  simp only [addSub, h, flagOf]
  refine carryFlag_iff ?_ ?_
  · rintro rfl
    simp only [Bool.false_eq_true, if_false]
    omega
  · rintro rfl
    simp only [if_true]
    omega

theorem addSub_overflow_iff (h : m.po = .ov) : (addSub sub m n b c).2 = true ↔
    (if sub then sval n b - sval n c else sval n b + sval n c) < -2 ^ (n - 1) ∨
      (if sub then sval n b - sval n c else sval n b + sval n c) > 2 ^ (n - 1) - 1 := by
  simp only [addSub, h, flagOf]
  exact ovFlag_signed_iff

theorem addCarry_carry_iff {k : Bool} (hb : b < 2 ^ n) : (addCarry sub n b c k).2 = true ↔
    if sub then (if sub then (b : Int) - c - (if k then 1 else 0) else (b : Int) + c + (if k then 1 else 0)) < 0
      else (if sub then (b : Int) - c - (if k then 1 else 0) else (b : Int) + c + (if k then 1 else 0)) > 2 ^ n - 1 := by
  have hb : (b : Int) < 2 ^ n := by exact_mod_cast hb
  have carry : (0 : Int) ≤ if k then 1 else 0 := by cases k <;> decide
  refine carryFlag_iff ?_ ?_
  · rintro rfl
    simp only [Bool.false_eq_true, if_false]
    omega
  · rintro rfl
    simp only [if_true]
    omega

end

/-- Settles O50: ADD and SUB give the parts of `addSub`, ADDC and SUBB those of `addCarry`. -/
theorem addSubResult : Obligations.AddSubResult := by
  unfold Obligations.AddSubResult
  obtain ⟨add, sub, addc, subb⟩ := addSubComplete
  intro N eu es addsub carry
  have addsub_spec (neg : Bool) (m : IntMod) (b c : Nat) (hb : b < 2 ^ N m) :
      addsub neg m b c (addSub neg m (N m) b c).1 (addSub neg m (N m) b c).2 :=
    ⟨addSub_wraps, addSub_clamps_unsigned, addSub_clamps_signed, fun h => addSub_carry_iff h hb, addSub_overflow_iff⟩
  have carry_spec (neg : Bool) (n b c : Nat) (k : Bool) (hb : b < 2 ^ n) :
      carry neg n b c k (addCarry neg n b c k).1 (addCarry neg n b c k).2 :=
    ⟨natCast_pat .., addCarry_carry_iff hb⟩
  refine ⟨fun m a => ?_, fun m a => ?_, fun w cp a => ?_, fun w cp a => ?_⟩
  · exact gives_of_setsFlag_dst rfl rfl rfl (add m a) fun t x l => addsub_spec _ _ _ _ (srcI_lt t x a (intW_bits m.w) a.b l)
  · exact gives_of_setsFlag_dst rfl rfl rfl (sub m a) fun t x l => addsub_spec _ _ _ _ (srcI_lt t x a (intW_bits m.w) a.b l)
  · exact gives_of_setsFlag_dst rfl rfl rfl (addc w cp a) fun t x l => carry_spec _ _ _ _ _ (srcI_lt t x a (wbits_eq w) a.b l)
  · exact gives_of_setsFlag_dst rfl rfl rfl (subb w cp a) fun t x l => carry_spec _ _ _ _ _ (srcI_lt t x a (wbits_eq w) a.b l)

end Sys2Proof.Machine

namespace Sys2Proof.Machine

open Sys2Proof

/-! ### MIN, MAX and ABS (R78, R79) -/

section

variable {u : Bool} {n b c : Nat}

theorem minMax_least : (minMax false u n b c = b ∧ opInt u n b ≤ opInt u n c) ∨
    (minMax false u n b c = c ∧ opInt u n c ≤ opInt u n b) := by
  by_cases le : opInt u n b ≤ opInt u n c
  · exact .inl ⟨by simp [minMax, le], le⟩
  · exact .inr ⟨by simp [minMax, le], (not_le.mp le).le⟩

theorem minMax_greatest : (minMax true u n b c = b ∧ opInt u n c ≤ opInt u n b) ∨
    (minMax true u n b c = c ∧ opInt u n b ≤ opInt u n c) := by
  by_cases le : opInt u n b ≤ opInt u n c
  · exact .inr ⟨by simp [minMax, le], le⟩
  · exact .inl ⟨by simp [minMax, le], (not_le.mp le).le⟩

theorem absVal_of_gt {sat : Bool} (h : sval n b > -2 ^ (n - 1)) :
    (absVal sat n b : Int) = if sval n b < 0 then -sval n b else sval n b := by
  rw [absVal, minS_eq, if_neg h.ne']
  split
  · omega
  · omega

theorem sval_absVal_least {sat : Bool} (hn : 0 < n) (h : sval n b = -2 ^ (n - 1)) :
    sval n (absVal sat n b) = if sat then 2 ^ (n - 1) - 1 else -2 ^ (n - 1) := by
  have pos : (0 : Int) < 2 ^ (n - 1) := by positivity
  rw [absVal, minS_eq, if_pos h]
  cases sat with
  | false => exact h
  | true => exact sval_pat hn (by rw [maxS]; omega) (by rw [maxS]; omega)

end

/-- Settles O51: MIN and MAX take one of two compared sources, ABS is `absVal`. -/
theorem minMaxAbsResult : Obligations.MinMaxAbsResult := by
  unfold Obligations.MinMaxAbsResult
  obtain ⟨min, max, abs, -⟩ := logicComplete
  refine ⟨fun m a => ?_, fun m a => ?_, fun m a => ?_⟩
  · exact gives_of_setsFlag (min m a) fun _ _ _ => minMax_least
  · exact gives_of_setsFlag (max m a) fun _ _ _ => minMax_greatest
  · refine gives_of_setsFlag_dst rfl rfl rfl (abs m a) fun t x l => ⟨absVal_of_gt, sval_absVal_least (intW_bits_pos m.w), ?_⟩
    intro ov
    simp only [ov, flagOf, decide_eq_true_eq, minS_eq]

/-! ### AND, OR, XOR and NOT, and the shifts (R80, R81) -/

section

variable {n b s j : Nat}

theorem testBit_notVal (hj : j < n) : (notVal n b).testBit j = !b.testBit j := by
  have lt : b % 2 ^ n < 2 ^ n := Nat.mod_lt _ (by positivity)
  rw [notVal, Nat.sub_sub, Nat.add_comm, Nat.testBit_two_pow_sub_succ lt, Nat.testBit_mod_two_pow, decide_eq_true hj,
    Bool.true_and, Bool.true_and]

theorem shlVal_of_lt (h : s < n) : shlVal n b s = b * 2 ^ s % 2 ^ n := if_pos h
theorem shlVal_of_ge (h : n ≤ s) : shlVal n b s = 0 := if_neg h.not_gt
theorem shrVal_of_lt (h : s < n) : shrVal n b s = b / 2 ^ s := if_pos h
theorem shrVal_of_ge (h : n ≤ s) : shrVal n b s = 0 := if_neg h.not_gt

theorem sarVal_of_lt (h : s < n) : (sarVal n b s : Int) = sval n b / 2 ^ s % 2 ^ n := by
  rw [sarVal, if_pos h, natCast_pat, Nat.cast_pow, Nat.cast_ofNat]

/-- An amount of the width or more leaves copies of the sign bit. -/
theorem testBit_sarVal_of_ge (h : n ≤ s) (hj : j < n) : (sarVal n b s).testBit j = b.testBit (n - 1) := by
  rw [sarVal, if_neg h.not_gt, nbit]
  split
  · next sign => rw [Nat.testBit_two_pow_sub_one, decide_eq_true hj, sign]
  · next sign => rw [Nat.zero_testBit, Bool.eq_false_iff.mpr sign]

/-- Bit `j` of a rotation comes from `s` places below, round the end of the word. -/
theorem testBit_rotVal (hb : b < 2 ^ n) (hj : j < n) : (rotVal n b s).testBit j = b.testBit ((j + n - s % n) % n) := by
  have hr : s % n < n := Nat.mod_lt _ (by omega)
  rw [rotVal]
  generalize s % n = r at hr
  have carried : b / 2 ^ (n - r) < 2 ^ r := by
    rw [Nat.div_lt_iff_lt_mul (by positivity), ← Nat.pow_add]
    rwa [Nat.add_sub_cancel' hr.le]
  rw [Nat.mul_comm, Nat.two_pow_add_eq_or_of_lt carried, Nat.testBit_mod_two_pow, decide_eq_true hj, Bool.true_and,
    Nat.testBit_or, Nat.testBit_two_pow_mul, Nat.testBit_div_two_pow]
  -- bits below the amount are those that leave at the top
  rcases Nat.lt_or_ge j r with low | high
  · rw [decide_eq_false (by omega), Bool.false_and, Bool.false_or, Nat.mod_eq_of_lt (by omega)]
    congr 1
    omega
  · have above : b.testBit (n - r + j) = false := Nat.testBit_lt_two_pow (hb.trans_le (Nat.pow_le_pow_right (by decide) (by omega)))
    rw [decide_eq_true high, Bool.true_and, Nat.add_comm j (n - r), above]
    rw [Bool.or_false, show j + n - r = j - r + n by omega, Nat.add_mod_right, Nat.mod_eq_of_lt (by omega)]

end

/-- Settles O52: each result bit by bit, or by the column of the table that the amount selects. -/
theorem logicShiftResult : Obligations.LogicShiftResult := by
  unfold Obligations.LogicShiftResult
  obtain ⟨-, -, -, and, or, xor, not⟩ := logicComplete
  obtain ⟨shl, shr, sar, rot, -⟩ := shiftComplete
  refine ⟨fun m a => ?_, fun m a => ?_, fun m a => ?_, fun m a => ?_, fun m a => ?_, fun m a => ?_, fun m a => ?_, fun m a => ?_⟩
  · exact gives_of_setsFlag (and m a) fun _ _ _ j _ => Nat.testBit_and _ _ j
  · exact gives_of_setsFlag (or m a) fun _ _ _ j _ => Nat.testBit_or _ _ j
  · exact gives_of_setsFlag (xor m a) fun _ _ _ j _ => Nat.testBit_xor _ _ j
  · exact gives_of_setsFlag (not m a) fun _ _ _ _ => testBit_notVal
  · exact gives_of_setsFlag (shl m a) fun _ _ _ => ⟨shlVal_of_lt, shlVal_of_ge⟩
  · exact gives_of_setsFlag (shr m a) fun _ _ _ => ⟨shrVal_of_lt, shrVal_of_ge⟩
  · exact gives_of_setsFlag (sar m a) fun _ _ _ => ⟨sarVal_of_lt, fun h _ => testBit_sarVal_of_ge h⟩
  · exact gives_of_setsFlag (rot m a) fun t x l _ => testBit_rotVal (srcI_lt t x a (intW_bits m.w) a.b l)

/-! ### POPC, CLZ, CTZ, BREV and SEL (R85, R87) -/

section

variable {n b : Nat}

theorem clz_zero : clz n 0 = n := rfl

theorem clz_of_ne_zero (hb : b < 2 ^ n) (h : b ≠ 0) : clz n b < n ∧ b.testBit (n - 1 - clz n b) = true ∧
    ∀ j, n - 1 - clz n b < j → j < n → b.testBit j = false := by
  have top : b.log2 < n := (Nat.log2_lt h).mpr hb
  have place : n - 1 - clz n b = b.log2 := by
    rw [clz, if_neg h]
    omega
  rw [place]
  refine ⟨by rw [clz, if_neg h]; omega, Nat.testBit_log2 h, fun j above _ => ?_⟩
  exact Nat.testBit_lt_two_pow ((Nat.log2_lt h).mp above)

theorem ctz_zero : ctz n 0 = n := by
  have none : (List.range n).find? (fun i => nbit 0 i) = .none := by simp [nbit]
  rw [ctz, none, Option.getD_none]

theorem ctz_of_ne_zero (hb : b < 2 ^ n) (h : b ≠ 0) : ctz n b < n ∧ b.testBit (ctz n b) = true ∧
    ∀ j, j < ctz n b → b.testBit j = false := by
  obtain ⟨i, hi⟩ := Nat.exists_testBit_of_ne_zero h
  have inside : i < n := by
    refine Nat.lt_of_not_le fun ge => ?_
    rw [Nat.testBit_lt_two_pow (hb.trans_le (Nat.pow_le_pow_right (by decide) ge))] at hi
    exact Bool.false_ne_true hi
  have found : ((List.range n).find? fun i => nbit b i).isSome = true :=
    List.find?_isSome.mpr ⟨i, List.mem_range.mpr inside, hi⟩
  obtain ⟨k, hk⟩ := Option.isSome_iff_exists.mp found
  have place : ctz n b = k := by rw [ctz, hk, Option.getD_some]
  obtain ⟨bit, mem, first⟩ := List.find?_range_eq_some.mp hk
  rw [place]
  exact ⟨List.mem_range.mp mem, bit, fun j lt => by simpa [nbit] using first j lt⟩

/-- The low `k` bits that BREV puts together. -/
def brevLow (n b k : Nat) : Nat := (List.range k).foldl (fun a i => if nbit b (n - 1 - i) then a + 2 ^ i else a) 0

theorem brev_eq_brevLow (n b : Nat) : brev n b = brevLow n b n := rfl

theorem brevLow_succ (n b k : Nat) :
    brevLow n b (k + 1) = if b.testBit (n - 1 - k) then brevLow n b k + 2 ^ k else brevLow n b k := by
  rw [brevLow, List.range_succ, List.foldl_append]
  rfl

theorem brevLow_lt (n b k : Nat) : brevLow n b k < 2 ^ k := by
  induction k with
  | zero => exact Nat.one_pos
  | succ k ih =>
    rw [brevLow_succ, Nat.pow_succ]
    split
    · omega
    · omega

theorem testBit_brevLow (n b k j : Nat) : (brevLow n b k).testBit j = (decide (j < k) && b.testBit (n - 1 - j)) := by
  induction k with
  | zero => simp [brevLow]
  | succ k ih =>
    rw [brevLow_succ]
    split
    · next bit =>
      have join := Nat.two_pow_add_eq_or_of_lt (brevLow_lt n b k) 1
      rw [Nat.mul_one] at join
      rw [Nat.add_comm, join, Nat.testBit_or, Nat.testBit_two_pow, ih]
      rcases Nat.lt_trichotomy j k with lt | rfl | gt
      · simp [lt, lt.ne', Nat.lt_succ_of_lt lt]
      · simp [bit]
      · simp [gt.ne, gt.not_gt, Nat.not_lt.mpr (Nat.succ_le_of_lt gt)]
    · next noBit =>
      rw [ih]
      rcases Nat.lt_trichotomy j k with lt | rfl | gt
      · simp [lt, Nat.lt_succ_of_lt lt]
      · simp [noBit]
      · simp [gt.not_gt, Nat.not_lt.mpr (Nat.succ_le_of_lt gt)]

theorem testBit_brev {j : Nat} (hj : j < n) : (brev n b).testBit j = b.testBit (n - 1 - j) := by
  rw [brev_eq_brevLow, testBit_brevLow, decide_eq_true hj, Bool.true_and]

end

/-- NEG and SP stand in OPX, the low bits of MOD (R87). -/
theorem opx_sel (w neg : Bool) (sp : BitVec 4) (a : Args) :
    (encodeVamer (.sel w neg sp a)).extractLsb' 35 6 = (0 : BitVec 1) ++ b1 neg ++ sp := by
  have low (v : Word96) : v.extractLsb' 35 6 = (wordMod v).extractLsb' 0 6 := by
    refine BitVec.eq_of_getLsbD_eq fun j hj => ?_
    simp [wordMod, hj, show j < 10 by omega]
  rw [low, encodeVamer_eq_packWord rfl rfl, wordMod_packWord]
  change ((0 : BitVec 1) ++ b1 w ++ (0 : BitVec 3) ++ b1 neg ++ sp).extractLsb' 0 6 = _
  clear low
  revert w neg sp
  decide

/-- Settles O53: POPC counts and SEL selects as the statement says; CLZ, CTZ and BREV have their lemmas. -/
theorem countSelectResult : Obligations.CountSelectResult := by
  unfold Obligations.CountSelectResult
  obtain ⟨popc, clz, ctz, brev, sel, -⟩ := moveComplete
  refine ⟨fun m a => ?_, fun m a => ?_, fun m a => ?_, fun m a => ?_, fun w neg sp a => ?_, opx_sel⟩
  · exact gives_of_setsFlag (popc m a) fun _ _ _ => rfl
  · exact gives_of_setsFlag (clz m a) fun t x l => ⟨fun h => h ▸ clz_zero, clz_of_ne_zero (srcI_lt t x a (intW_bits m.w) a.b l)⟩
  · exact gives_of_setsFlag (ctz m a) fun t x l => ⟨fun h => h ▸ ctz_zero, ctz_of_ne_zero (srcI_lt t x a (intW_bits m.w) a.b l)⟩
  · exact gives_of_setsFlag (brev m a) fun _ _ _ _ => testBit_brev
  · exact gives_of_sets (sel w neg sp a) fun _ _ _ => rfl

end Sys2Proof.Machine

namespace Sys2Proof.Machine

open Sys2Proof

/-! ## O6: the conversions of class 0x1 complete

Conversions that round run the body of `rounded`, the others `lanewise`; BMAX looks at the other lanes of its group (R115) and SRSTEP
writes the generator as well (R118). -/

/-- SRSTEP writes the words it draws and its coach's generator after them (R118). -/
theorem srstep_completes (a : Args) : Completes (.srstep a) a fun s x =>
    let r := genLanes (enabled x a) x.co.gen
    through (.srstep a) (wr (modCoach (drawn (.srstep a) a s x) x.ref.train x.ref.coach fun co => { co with gen := r.2 })
      x a.a 32 r.1) x a :=
  fun _ _ h => vamer_done h false _ rfl

/-- Settles O6: each body writes its function of the sources, rounded once per element where the conversion has a mode. -/
theorem convertComplete : Obligations.ConvertComplete := by
  unfold Obligations.ConvertComplete
  refine ⟨?cvt, ?f2i, ?i2f, ?i2i, ?pack, ?unpk, ?qnt, ?dqnt, ?bscale, bmax_completes, ?bytx, srstep_completes⟩
  case cvt | i2f | pack | qnt | dqnt =>
    intros
    exact completes_of_rounded fun _ => rfl
  case f2i | i2i | unpk | bscale | bytx =>
    intros
    exact completes_of_lanewise fun _ => rfl

end Sys2Proof.Machine

namespace Sys2Proof.Machine

open Sys2Proof

/-! ## O7 to O9: classes 0x2 and 0x3 complete

Arithmetic and the special functions run the body of `rounded` (`farith` and `sfunBody` are such bodies), the unrounded instructions that
of `lanewise` (`felems` is one). FCLASS reads a value of one element whole (R130), and SINCOS has two destinations (R134). -/

/-- Settles O7: each body computes its elements exactly and rounds each once. -/
theorem floatArithComplete : Obligations.FloatArithComplete := by
  unfold Obligations.FloatArithComplete
  refine ⟨?fadd, ?fsub, ?fmul, ?ffma, ?ffms, ?fnma, ?fdiv, ?fdp2, ?fscale, ?frint⟩
  all_goals exact fun _ _ => completes_of_rounded fun _ => rfl

/-- A value of one element is each of its parts (R120). -/
theorem partOf_of_single {t : FType} (single : elemCount t = 1) (v j : Nat) : partOf t v j = v :=
  if_pos single

/-- The class bits of a value are those of its parts, one part or two (R130). -/
theorem classBits_parts (fm : Fmt) (t : FType) (v : Nat) :
    (if elemCount t = 1 then 2 ^ fclassBit fm v
      else 2 ^ fclassBit fm (partOf t v 0) + 2 ^ (16 + fclassBit fm (partOf t v 1))) =
    if elemCount t = 1 then 2 ^ fclassBit fm (partOf t v 0)
      else 2 ^ fclassBit fm (partOf t v 0) + 2 ^ (16 + fclassBit fm (partOf t v 1)) :=
  ite_congr rfl (fun single => by rw [partOf_of_single single]) fun _ => rfl

/-- FCLASS writes the classes of its elements under the mask C; a predicate takes whether any is left (R130). -/
theorem fclass_completes (m : FMod) (a : Args) : Completes (.fclass m a) a fun s x => sets (.fclass m a) a s x a.a 32 fun t l =>
    let k (j : Nat) : Nat := fclassBit (elemFmt m.t) (elemC t x a m a.b l j)
    let r := (if elemCount m.t = 1 then 2 ^ k 0 else 2 ^ k 0 + 2 ^ (16 + k 1)) &&& srcI t x a 32 a.c l
    match a.a with
    | .pred _ => if r ≠ 0 then 1 else 0
    | _ => r := by
  refine completes_of_lanewise fun s => congrArg (fun f => vamer (.fclass m a) a false (lanewise a.a 32 f) s) ?_
  funext t x l
  dsimp only [elemC]
  exact classBits_parts (elemFmt m.t) m.t (srcT' t x a m.t a.b l) ▸ rfl

/-- Settles O8: each body writes its function of the elements, or of the whole sources where the instruction has no pair. -/
theorem floatMiscComplete : Obligations.FloatMiscComplete := by
  unfold Obligations.FloatMiscComplete
  refine ⟨?fmin, ?fmax, ?fabs, ?fneg, ?fsgn, ?fcmp, fclass_completes, ?fgetx, ?fgetm, ?fsel⟩
  all_goals
    intros
    exact completes_of_lanewise fun _ => rfl

/-- SINCOS writes the sine to A and then the cosine to D (R134). -/
theorem sincos_completes (z : Bool) (a : Args) : Completes (.sincos z a) a fun s x =>
    let t := drawn (.sincos z a) a s x
    let v (f : SFun) : List (Nat × Nat) := (enabled x a).map fun l => (l, sfunCode f .rn z 0 (srcF t x a a.b l))
    through (.sincos z a) (wr (wr t x a.a 32 (v .sin)) x a.d 32 (v .cos)) x a := by
  intro s x h
  refine vamer_done h false _ ?_
  dsimp only
  rw [List.map_map, List.map_map]
  rfl

/-- Settles O9: each body writes the code of its function; only RCP and SQRT choose their rounding mode. -/
theorem specialComplete : Obligations.SpecialComplete := by
  unfold Obligations.SpecialComplete
  refine ⟨?rcp, ?rsq, ?sqrt, ?exp2, ?log2, ?sin, ?cos, ?tanh, ?sigm, sincos_completes⟩
  all_goals
    intros
    exact completes_of_rounded fun _ => rfl

end Sys2Proof.Machine

namespace Sys2Proof.Machine

open Sys2Proof

/-! ## O10: NOP and the transfers of class 0x4 complete

The body of each transfer ends in `transfer`, which moves the lanes where every target is good (`transfer_of_targetOk`); what differs is
which lanes go where, and what the instruction writes first. -/

section

variable {ls : List Nat} {tgt : Nat → Word64}

/-- Lanes whose targets are all multiples of 4 and canonical go there (R155). -/
theorem transfer_of_targetOk (s : State) (ok : ∀ l ∈ ls, targetOk (tgt l) = true) :
    transfer (ls.map fun l => (l, tgt l)) s = .done s (ls.map fun l => (l, .go (tgt l))) none := by
  have noBad : ((ls.map fun l => (l, tgt l)).filter fun e => !targetOk e.2) = [] := by
    simpa [List.filter_eq_nil_iff] using ok
  rw [transfer, noBad, List.map_map]
  rfl

/-- CALL and CALLX write the address after them to the link of every lane that they move (R156). -/
theorem callTo_of_targetOk (a : Args) (x : Ix) (s : State) (ok : ∀ l ∈ ls, targetOk (tgt l) = true) :
    callTo a x (ls.map fun l => (l, tgt l)) s =
      .done (rasPush (wr s x a.a 64 (ls.map fun l => (l, (x.fr.pc + 12).toNat))) x) (ls.map fun l => (l, .go (tgt l))) none := by
  rw [callTo, transfer_of_targetOk _ ok, List.map_map]
  rfl

end

/-- BRANY and BRALL move all active lanes or none (R159). -/
theorem wholeBranch_of_targetOk (take : Bool) (a : Args) (x : Ix) (s : State) (ok : targetOk (formO x a) = true) :
    wholeBranch take a x s = .done s (if take then (lanesOf x.fr.mask).map fun l => (l, .go (formO x a)) else []) none := by
  cases take with
  | false => rfl
  | true => exact transfer_of_targetOk s fun _ _ => ok

/-- Choosing lanes and their targets in one pass is choosing them first. -/
theorem filterMap_ite_some {α β : Type} (p : α → Prop) [DecidablePred p] (f : α → β) (ls : List α) :
    (ls.filterMap fun l => if p l then some (f l) else none) = (ls.filter fun l => p l).map f := by
  induction ls with
  | nil => rfl
  | cons l ls ih => by_cases h : p l <;> simp [h, ih]

/-- The lanes that `p` chooses go to their targets, where those are good (R157). -/
theorem transfer_of_choice {p : Nat → Prop} [DecidablePred p] {ls : List Nat} {tgt : Nat → Word64} (s : State)
    (ok : ∀ l ∈ ls.filter fun l => p l, targetOk (tgt l) = true) :
    transfer (ls.filterMap fun l => if p l then some (l, tgt l) else none) s =
      .done s ((ls.filter fun l => p l).map fun l => (l, .go (tgt l))) none := by
  rw [filterMap_ite_some]
  exact transfer_of_targetOk s ok

/-- The lanes whose count is not 0 go to a good target (R158). -/
theorem transfer_of_count_ne_zero {ls : List Nat} {n : Nat → Nat} {target : Word64} (s : State) (ok : targetOk target = true) :
    transfer (((ls.map fun l => (l, n l)).filter fun e => e.2 ≠ 0).map fun e => (e.1, target)) s =
      .done s ((ls.filter fun l => n l ≠ 0).map fun l => (l, .go target)) none := by
  rw [List.filter_map, List.map_map]
  exact transfer_of_targetOk s fun _ _ => ok

/-- Settles O10: each body transfers its lanes to good targets. -/
theorem transferComplete : Obligations.TransferComplete := by
  unfold Obligations.TransferComplete
  refine ⟨?nop, ?bra, ?brx, ?call, ?callx, ?ret, ?jtab, ?loop, ?brany, ?brall⟩
  case nop => exact fun a s x h => vamer_done h false _ rfl
  case bra => exact fun a s x h ok => vamer_parts h false _ (transfer_of_targetOk _ fun _ _ => ok)
  case brx => exact fun a s x h ok => vamer_parts h false _ (transfer_of_targetOk _ ok)
  case call => exact fun a s x h ok => vamer_parts h false _ (callTo_of_targetOk a x _ fun _ _ => ok)
  case callx => exact fun a s x h ok => vamer_parts h false _ (callTo_of_targetOk a x _ ok)
  case ret => exact fun a s x h ok => vamer_parts h false _ (transfer_of_targetOk _ ok)
  case jtab => exact fun a s x h ok => vamer_parts h false _ (transfer_of_choice _ ok)
  case loop => exact fun a s x h ok => vamer_parts h false _ (transfer_of_count_ne_zero _ ok)
  case brany => exact fun a s x h ok => vamer_parts h false _ (wholeBranch_of_targetOk _ a x _ ok)
  case brall => exact fun a s x h ok => vamer_parts h false _ (wholeBranch_of_targetOk _ a x _ ok)

end Sys2Proof.Machine

namespace Sys2Proof.Machine

open Sys2Proof

/-! ## O11 and O12: fibres, hints and rejoins of class 0x4 complete -/

/-- What waits for the earlier accesses of its coach goes on once they are performed (R200). -/
theorem whenSettled_of_settled {x : Ix} {s : State} (k : State → Res)
    (h : settled (settleX x s) x.ref.train x.ref.coach = true) : whenSettled x s k = k (settleX x s) := by
  simp only [whenSettled, h, Bool.not_true, Bool.false_eq_true, if_false]

/-- FORK makes its children where its target is good (R160). -/
theorem fork_completes (pv : Bool) (pd : BitVec 4) (a : Args) (s : State) (x : Ix) : let t := drawn (.fork pv pd a) a s x
    let ks := if x.spine then [] else forkPairs (enabled x a) (freeSlots x.tr x.rank) x.tr.fidNext
    let made (l : Nat) : Option Nat := (ks.find? fun k => k.1 = l).map fun k => k.2.2
    let u := wr (placeChildren t x a (formO x a) ks) x a.a 32 ((enabled x a).map fun l => (l, (made l).getD 0xFFFFFFFF))
    Issues (.fork pv pd a) a s x → targetOk (formO x a) = true →
    exec (.fork pv pd a) s = .next (through (.fork pv pd a)
      (if pv then wrPred u x pd ((enabled x a).map fun l => (l, (made l).isSome)) else u) x a) := by
  intro t ks made u h ok
  refine vamer_done h false _ ?_
  simp only [ok, Bool.not_true, Bool.false_eq_true, if_false]
  rfl

/-- Settles O11: FORK past its check, EXIT and ICINV past their waits, the others at once. -/
theorem fibreComplete : Obligations.FibreComplete := by
  unfold Obligations.FibreComplete
  refine ⟨fork_completes, ?end_, ?exit, ?rcvMark, ?yield, ?nap, ?icinv⟩
  case end_ => exact fun a s x h => vamer_parts h false _ rfl
  case exit => exact fun a s x h may => vamer_parts h false _ (withRelease_ok x .pt _ _ may)
  case rcvMark => exact fun a s x h => vamer_done h false _ rfl
  case yield =>
    intro a s x h
    refine (vamer_goOn h false _ rfl).trans ?_
    rw [Bool.or_true]
  case nap => exact fun a s x h => vamer_goOn h false _ rfl
  case icinv => exact fun a s x h done => vamer_done h false _ (whenSettled_of_settled _ done)

section

variable {i : Instr} {a : Args} {s u w : State} {x y : Ix} {kind : JoinKind} {masks : State → Ix → Nat → Word32}
  {group : Ix → List CoachId} {perform : Ix → List Nat → State → Res}
  (h : Issues i a s x)
  (rel : rejoins i x a kind (masks (drawn i a s x) x) (group x) (drawn i a s x) = some (u, y))

include h rel

/-- An instruction at a rejoin that releases is performed by the merged fragment, which then falls through (R147). -/
theorem vamer_rejoin_done (goes : Goes y) (done : perform y (lanesOf y.fr.mask) u = .done w [] none) :
    vamer i a true (rejoinBody i a kind masks group perform) s = .next (through i w y a) := by
  obtain ⟨v, e⟩ := rejoinBody_ok i a kind masks group perform x y _ u rel h.space
  refine vamer_own h true _ (e.trans ?_)
  rw [done]
  exact congrArg Res.own (commit_goes v y a i w goes)

/-- The same for a meaning that moves the fragment itself. -/
theorem vamer_rejoin_own (own : perform y (lanesOf y.fr.mask) u = .own w) :
    vamer i a true (rejoinBody i a kind masks group perform) s = .next w := by
  obtain ⟨v, e⟩ := rejoinBody_ok i a kind masks group perform x y _ u rel h.space
  refine vamer_own h true _ (e.trans ?_)
  rw [own]

end

/-! ### RCV.WAIT.rg -/

/-- The coaches that release together with the fragment of `x` at RCV.WAIT.rg: those of its core; a spine never regroups (R164,
R178). -/
def regroupCoaches (x : Ix) : List CoachId := if x.spine then [x.ref.coach] else coachesAt x.tr x.rank

/-- What RCV.WAIT.rg does for the merged fragment: a core packs its fibres, each with its B in register `v` (R164). -/
def regroupPerform (a : Args) (v : BitVec 9) (y : Ix) (s : State) : Res :=
  if y.spine then .done s [] none
  else
    match regroupRelease y v.toNat (encodeVamer (.rcvWait true a)) s with
    | .own t => .own (noteIssue t y (.rcvWait true a) a a.yld)
    | r => r

theorem exec_rcvWait_regroup {a : Args} {v : BitVec 9} (hv : a.b = .v v) (s : State) :
    exec (.rcvWait true a) s = vamer (.rcvWait true a) a true (rejoinBody (.rcvWait true a) a (.regroup v)
      (fun s x l => w32 (srcI s x a 32 a.b l)) regroupCoaches fun y _ s => regroupPerform a v y s) s := by
  have group : (fun x : Ix => if true && !x.spine then coachesAt x.tr x.rank else [x.ref.coach]) = regroupCoaches := by
    funext x
    cases h : x.spine <;> simp [regroupCoaches, h]
  rw [← group]
  change execRcvWait true a s = _
  rw [execRcvWait, hv]
  rfl

/-- Where no reply is pending to a fibre that moves and STEP is not taken, the regrouping packs the core (R164, R430). -/
theorem regroupRelease_of_goes {y : Ix} {u : State} (n : Nat) (word : Word96) (goes : Goes y)
    (idle : regroupWaits y ((coachesAt y.tr y.rank).foldl (fun s c => replyAll s y.ref.train c) u) = false) :
    regroupRelease y n word u =
      .own (regrouped y n ((coachesAt y.tr y.rank).foldl (fun s c => replyAll s y.ref.train c) u)) := by
  simp only [regroupRelease, idle, goes.noStep, Bool.false_eq_true, if_false]

/-- Settles O12: the merged fragment performs the instruction; only `.rg` on a core does more than to go on. -/
theorem rejoinComplete : Obligations.RejoinComplete := by
  unfold Obligations.RejoinComplete
  refine ⟨?plain, ?spine, ?core⟩
  case plain => exact fun a s x u y h rel goes => vamer_rejoin_done h rel goes rfl
  case spine =>
    intro v a s x u y i hv hx hy h rel goes
    have group : regroupCoaches x = [x.ref.coach] := if_pos hx
    exact (exec_rcvWait_regroup hv s).trans (vamer_rejoin_done h (group ▸ rel) goes (if_pos hy))
  case core =>
    intro v a s x u y i w hv hx hy h rel goes idle
    have group : regroupCoaches x = coachesAt x.tr x.rank := by simp [regroupCoaches, hx]
    have packs : regroupPerform a v y u = .own (noteIssue (regrouped y v.toNat w) y i a a.yld) := by
      simp [regroupPerform, hy, regroupRelease_of_goes v.toNat _ goes idle, i, w]
    exact (exec_rcvWait_regroup hv s).trans (vamer_rejoin_own h (group ▸ rel) packs)

end Sys2Proof.Machine

namespace Sys2Proof.Machine

open Sys2Proof

/-! ## O13 and O44: the lane exchanges of class 0x5 complete, and their frame

Every exchange is the function `exchange` of what its participants receive; with a membership mask it is performed by the fragment that
its rejoin makes (R171). -/

section

variable {i : Instr} {a : Args} {bits : Nat}

/-- An exchange completes with what its participants receive, among the enabled lanes or those of its rejoin. -/
theorem exchanges_of_exchange {msk : Bool} {f : Exch} (body : ∀ s, exec i s = exchange i a msk bits f s) :
    Exchanges i a msk bits f := by
  refine ⟨?among, ?rejoined⟩
  case among =>
    rintro rfl s x h
    exact (body s).trans (vamer_done h false _ rfl)
  case rejoined =>
    rintro rfl s x u y h rel goes
    exact (body s).trans (vamer_rejoin_done h rel goes rfl)

end

/-- Settles O13: each instruction runs `exchange` with its own function of the participants. -/
theorem laneComplete : Obligations.LaneComplete := by
  unfold Obligations.LaneComplete
  refine ⟨?shfl, ?vote, ?redux, ?scan, ?match_, ?bcast, ?cmpct, ?lperm⟩
  all_goals
    intros
    exact exchanges_of_exchange fun _ => rfl

/-! ### The frame of an exchange without a membership mask -/

/-- The predicate that an exchange writes: PD where PV is set (R171). -/
def exchangePd (a : Args) : Option (BitVec 4) := if a.xmod.getLsbD 4 then some (a.xmod.extractLsb' 0 4) else none

/-- A destination and, with PV, predicate PD are all that an exchange writes (R171). -/
theorem exchanged_regsOnly (a : Args) (s : State) (x : Ix) (bits : Nat) {ls : List Nat} {rs : List (Nat × Nat × Bool)}
    (ho : ∀ n, a.a ≠ .sr n) (lanes : ∀ r ∈ rs, r.1 ∈ ls) : RegsOnly x ls a.a bits (exchangePd a) s (exchanged a s x bits rs) := by
  have writes (pd) : RegsOnly x ls a.a bits pd s (wr s x a.a bits (rs.map fun r => (r.1, r.2.1))) :=
    wr_regsOnly s ho _ (List.forall_mem_map.mpr lanes)
  cases pv : a.xmod.getLsbD 4 with
  | false =>
    simp only [exchanged, exchangePd, pv, Bool.false_eq_true, if_false]
    exact writes none
  | true =>
    simp only [exchanged, exchangePd, pv, if_true]
    exact (writes _).trans (wrPred_regsOnly _ _ _ (List.forall_mem_map.mpr lanes))

theorem exchanged_clusters (a : Args) (s : State) (x : Ix) (bits : Nat) (rs : List (Nat × Nat × Bool)) :
    (exchanged a s x bits rs).clusters = s.clusters := by
  unfold exchanged
  split <;> simp

/-- An exchange that gives results to its participants alone changes the destination and, with PV, predicate PD. -/
theorem registerOnly_of_exchanges {i : Instr} {a : Args} {bits : Nat} {f : State → Ix → List Nat → List (Nat × Nat × Bool)}
    (done : Exchanges i a false bits f) (lanes : ∀ s x ls, ∀ r ∈ f s x ls, r.1 ∈ ls) :
    RegisterOnly i a a.a bits (exchangePd a) false := by
  intro ho s x h
  obtain ⟨-, -, drawnClusters⟩ := drawn_frame i a s x
  let t := drawn i a s x
  let u := exchanged a t x bits (f t x (enabled x a))
  obtain ⟨-, -, -, endClusters⟩ := through_frame i u x a (enabled x a) a.a bits fun _ => true
  have only : RegsOnly x (enabled x a) a.a bits (exchangePd a) s (through i u x a) :=
    (drawn_regsOnly i a s x).trans ((exchanged_regsOnly a t x bits ho (lanes t x (enabled x a))).trans (through_regsOnly i u x a))
  exact ⟨_, done.1 rfl s x h, only.regs, only.machine, fun _ => only.gens, only.gens.others x,
    fun undrawn => endClusters.trans ((exchanged_clusters ..).trans (drawnClusters undrawn))⟩

/-- The results of an exchange go to its participants where each result keeps the lane of its source. -/
theorem lanes_of_map {α : Type} {ls : List Nat} {vs : List α} {lane : α → Nat} {g : α → Nat × Nat × Bool}
    (sources : ∀ e ∈ vs, lane e ∈ ls) (keeps : ∀ e, (g e).1 = lane e) : ∀ r ∈ vs.map g, r.1 ∈ ls :=
  List.forall_mem_map.mpr fun e he => keeps e ▸ sources e he

/-- SCAN has one result per participant, in their order (R174). -/
theorem scanGo_lanes (op : ROp) (n : Nat) (excl : Bool) (run : Option Nat) (bs : List (Nat × Nat)) :
    (scanGo op n excl run bs).map (·.1) = bs.map (·.1) := by
  induction bs generalizing run with
  | nil => rfl
  | cons b bs ih => simp only [scanGo, List.map_cons, ih]

theorem scanVals_lanes (op : ROp) (n : Nat) (excl : Bool) {bs : List (Nat × Nat)} {ls : List Nat} (sources : ∀ e ∈ bs, e.1 ∈ ls) :
    ∀ e ∈ scanVals op n excl bs, e.1 ∈ ls := by
  have same : (scanVals op n excl bs).map (·.1) = bs.map (·.1) := scanGo_lanes ..
  exact List.forall_mem_map.mp (same ▸ List.forall_mem_map.mpr sources : ∀ l ∈ (scanVals op n excl bs).map (·.1), l ∈ ls)

/-- Settles O44: every exchange completes (O13), and gives its results to its participants. -/
theorem exchangeFrame : Obligations.ExchangeFrame := by
  unfold Obligations.ExchangeFrame
  obtain ⟨shfl, vote, redux, scan, match_, bcast, cmpct, lperm⟩ := laneComplete
  refine ⟨?shfl, ?vote, ?redux, ?scan, ?match_, ?bcast, ?cmpct, ?lperm⟩
  case shfl =>
    exact fun w k seg a => registerOnly_of_exchanges (shfl w false k seg a) fun _ _ ls =>
      lanes_of_map (mem_lanes ls _) fun e => by dsimp only; split <;> rfl
  case vote => exact fun op a => registerOnly_of_exchanges (vote false op a) fun _ _ _ => lanes_of_map (fun _ h => h) fun _ => rfl
  case redux =>
    exact fun w op a => registerOnly_of_exchanges (redux w false op a) fun _ _ _ => lanes_of_map (fun _ h => h) fun _ => rfl
  case scan =>
    exact fun w op e a => registerOnly_of_exchanges (scan w false op e a) fun _ _ ls =>
      lanes_of_map (scanVals_lanes op _ e (mem_lanes ls _)) fun _ => rfl
  case match_ =>
    exact fun w all a => registerOnly_of_exchanges (match_ w false all a) fun _ _ ls =>
      lanes_of_map (mem_lanes ls _) fun e => by dsimp only; split <;> rfl
  case bcast => exact fun w a => registerOnly_of_exchanges (bcast w false a) fun _ _ _ => lanes_of_map (fun _ h => h) fun _ => rfl
  case cmpct => exact fun a => registerOnly_of_exchanges (cmpct false a) fun _ _ _ => lanes_of_map (fun _ h => h) fun _ => rfl
  case lperm =>
    exact fun w a => registerOnly_of_exchanges (lperm w false a) fun _ _ ls =>
      lanes_of_map (mem_lanes ls _) fun e => by dsimp only; split <;> rfl

end Sys2Proof.Machine

namespace Sys2Proof.Machine

open Sys2Proof

/-! ## O43: the frame of NOP, of the votes that move fragments and of the transfers

Where they complete (O10), all of them but NOP end in `parts` with lanes that all go on; before that they write at most their destination
and the spine's return-address predictor, which is no register (R179). -/

section

variable {x : Ix} {ls : List Nat} {o : Operand} {bits : Nat} {pd : Option (BitVec 4)} {s : State}

/-- The return-address predictor of a coach is no register. -/
theorem modCoach_ras_regsOnly (f : Coach → List Word64) :
    RegsOnly x ls o bits pd s (modCoach s x.ref.train x.ref.coach fun co => { co with ras := f co }) :=
  ⟨modCoach_regs s x ls o bits _ _ fun _ => ⟨fun _ _ _ => rfl, fun _ _ => rfl, fun _ _ _ => rfl⟩,
    modCoach_machine s _ _ _ fun _ => rfl, modCoach_gens s _ _ _ fun _ => rfl⟩

theorem rasPush_regsOnly : RegsOnly x ls o bits pd s (rasPush s x) := by
  unfold rasPush
  split
  · exact modCoach_ras_regsOnly _
  · exact .refl s

/-- CALL and CALLX write the link of their lanes (R156). -/
theorem link_regsOnly (ho : ∀ n, o ≠ .sr n) (next : Nat) :
    RegsOnly x ls o bits pd s (rasPush (wr s x o bits (ls.map fun l => (l, next))) x) :=
  (wr_regsOnly s ho _ (mem_lanes ls _)).trans rasPush_regsOnly

theorem rasPop_regsOnly : RegsOnly x ls o bits pd s (rasPop s x) := by
  unfold rasPop
  split
  · exact modCoach_ras_regsOnly _
  · exact .refl s

end

/-- An instruction that writes its destination and then moves its lanes changes no more than that destination. -/
theorem parts_regsOnly {i : Instr} {a : Args} {s u : State} {x : Ix} {o : Operand} {bits : Nat} {pd : Option (BitVec 4)}
    {ms : List (Nat × Move)} (h : Issues i a s x) (writes : RegsOnly x (enabled x a) o bits pd (drawn i a s x) u)
    (go : ∀ e ∈ ms, e.2.isGo = true) : RegsOnly x (enabled x a) o bits pd s (parts i u x a ms) := by
  obtain ⟨regs, machine, gens⟩ := parts_frame i u x a ms (enabled x a) o bits (fun q => o = .pred q || pd = some q) go h.noStep
  exact (drawn_regsOnly i a s x).trans (writes.trans ⟨regs, machine, gens⟩)

/-- Without a flag, the destination selects the predicates that may differ. -/
theorem RegsOnly.noFlag {x : Ix} {ls : List Nat} {o : Operand} {bits : Nat} {s t : State} (h : RegsOnly x ls o bits none s t) :
    SameRegs x ls o bits (fun q => o = .pred q) s t ∧ SameMachine s t ∧ SameGens s t :=
  ⟨⟨h.regs.v, h.regs.u, fun k c l q other => h.regs.p k c l q (by simpa using other)⟩, h.machine, h.gens⟩

/-- Lanes with targets go on. -/
theorem isGo_of_targets (ls : List Nat) (tgt : Nat → Word64) : ∀ e ∈ ls.map fun l => (l, Move.go (tgt l)), e.2.isGo = true :=
  List.forall_mem_map.mpr fun _ _ => rfl

/-- So do the lanes of BRANY and BRALL, which move all or none. -/
theorem isGo_of_vote {take : Prop} [Decidable take] (ls : List Nat) (target : Word64) :
    ∀ e ∈ if take then ls.map fun l => (l, Move.go target) else [], e.2.isGo = true := by
  split
  · exact isGo_of_targets ls _
  · exact nofun

/-- Settles O43: the states of O10 differ from the one before in the link of CALL and CALLX and the counter of LOOP alone. -/
theorem transferFrame : Obligations.TransferFrame := by
  unfold Obligations.TransferFrame
  obtain ⟨nop, bra, brx, call, callx, ret, jtab, loop, brany, brall⟩ := transferComplete
  refine ⟨?nop, ?bra, ?brany, ?brall, ?brx, ?ret, ?call, ?callx, ?loop, ?jtab⟩
  case nop =>
    exact fun a _ s x h _ => ⟨_, nop a s x h, ((drawn_regsOnly (.nop a) a s x).trans (through_regsOnly (.nop a) _ x a)).noFlag⟩
  case bra => exact fun a _ s x h ok => ⟨_, bra a s x h ok, (parts_regsOnly h (.refl _) (isGo_of_targets _ _)).noFlag⟩
  case brany => exact fun a _ s x h ok => ⟨_, brany a s x h ok, (parts_regsOnly h (.refl _) (isGo_of_vote _ _)).noFlag⟩
  case brall => exact fun a _ s x h ok => ⟨_, brall a s x h ok, (parts_regsOnly h (.refl _) (isGo_of_vote _ _)).noFlag⟩
  case brx => exact fun a _ s x h ok => ⟨_, brx a s x h ok, (parts_regsOnly h (.refl _) (isGo_of_targets _ _)).noFlag⟩
  case ret => exact fun a _ s x h ok => ⟨_, ret a s x h ok, (parts_regsOnly h rasPop_regsOnly (isGo_of_targets _ _)).noFlag⟩
  case call => exact fun a ho s x h ok => ⟨_, call a s x h ok, (parts_regsOnly h (link_regsOnly ho _) (isGo_of_targets _ _)).noFlag⟩
  case callx => exact fun a ho s x h ok => ⟨_, callx a s x h ok, (parts_regsOnly h (link_regsOnly ho _) (isGo_of_targets _ _)).noFlag⟩
  case loop =>
    exact fun a ho s x h ok =>
      ⟨_, loop a s x h ok, (parts_regsOnly h (wr_regsOnly _ ho _ (mem_lanes _ _)) (isGo_of_targets _ _)).noFlag⟩
  case jtab =>
    intro a _ s x h ok
    have inside : ∀ l ∈ (enabled x a).filter fun l => srcI (drawn (.jtab a) a s x) x a 32 a.b l <
        srcI (drawn (.jtab a) a s x) x a 32 a.c l, targetOk (x.fr.pc + 12 + a.tail.signExtend 64 +
          12 * w64 (srcI (drawn (.jtab a) a s x) x a 32 a.b l)) = true := fun l hl =>
      ok l (List.mem_of_mem_filter hl) (of_decide_eq_true (List.mem_filter.mp hl).2)
    exact ⟨_, jtab a s x h inside, (parts_regsOnly h (.refl _) (isGo_of_targets _ _)).noFlag⟩

end Sys2Proof.Machine

namespace Sys2Proof.Machine

open Sys2Proof

/-! ## O14: the loads of class 0x6 complete

LD, LDB and LDU run one body on their lanes (`loadBody`), LDS and LDX one on their offsets (`loadScratch`). An acquiring load runs it in
the state that its acquire leaves. -/

section

variable {ord : Bool} {sc : Scope} {x : Ix} {s u : State} {body : State → Res}

/-- A load that acquires where it is ordered does what its body does after the acquire (R202). -/
theorem orderedAcquire_done (done : body (acqStart ord sc x s) = .done u [] none) (may : acqMay ord sc x s u) :
    (if ord then withAcquireLoad x sc s body else body s) = .done u [] none := by
  cases ord with
  | false => exact done
  | true => exact withAcquireLoad_ok done (may rfl).1 (may rfl).2

/-- A global load counts a clamped scope before its acquire (R203). -/
theorem clampedAcquire_done (done : body (acqStart ord sc x (clampIf ord sc x (atOnce ord s))) = .done u [] none)
    (may : acqMay ord sc x (clampIf ord sc x (atOnce ord s)) u) :
    (if ord then withAcquireLoad x sc (countClamp { s with defer := false } x.ctx sc) body else body s) = .done u [] none := by
  cases ord with
  | false => exact done
  | true => exact withAcquireLoad_ok done (may rfl).1 (may rfl).2

/-- A store that releases where it is ordered does what its body does after the release (R201). -/
theorem orderedRelease_eq (body : State → Res) (may : relMay ord sc x s) :
    (if ord then withRelease x sc s body else body s) = body (relStart ord sc x s) := by
  cases ord with
  | false => rfl
  | true => exact withRelease_ok x sc s body (may rfl)

end

/-- Whether a global access goes past the L1: by its form, or ordered at a scope wider than the cluster (R212). -/
abbrev goesPast (m : MemMod) (byp : Bool) (x : Ix) : Bool := byp || (m.ord && clampScope x.ctx m.sc ≠ .cl)

/-- The addresses of some lanes of a global access. -/
abbrev globPlaces (a : Args) (x : Ix) (ls : List Nat) (s : State) : List (Nat × Nat) := ls.map fun l => (l, globVa s x a l)

/-- What a global load does in lanes `ls` once it is ordered (R209, R212). -/
def loadBody (i : Instr) (m : MemMod) (a : Args) (sx byp : Bool) (x : Ix) (ls : List Nat) (s : State) : Res :=
  globalAccess x .load m.sz.bytes false false (goesPast m byp x) (fun _ _ => false) (globPlaces a x ls s)
    (fun t as => loadLanes t x ⟨encodeVamer i, a.a, m.sz.bytes, sx⟩ (goesPast m byp x) as (ls.headD 0)) s

/-- LDU runs the body in its lowest lane; all its lanes follow where that one goes (R209). -/
def lduSpread (ls : List Nat) : Res → Res
  | .done s ms t =>
    match ms with
    | (_, m) :: _ => .done s (ls.map fun j => (j, m)) t
    | [] => .done s [] t
  | r => r

/-- What a load from a scratchpad does once it is ordered (R210). -/
def scrLoadBody (i : Instr) (m : MemMod) (a : Args) (rank : Nat) (as : List (Nat × Nat)) (x : Ix) (s : State) : Res :=
  afterScr x rank m.sz.bytes as s fun t =>
    let p := loadPlaces (countRank t x rank m.sz.bytes as) x ⟨encodeVamer i, a.a, m.sz.bytes, m.sx⟩ t.defer
      (as.map fun e => (e.1, .scr x.ref.train rank e.2))
    .done p.1 [] p.2

section

variable {i : Instr} {m : MemMod} {a : Args} {x : Ix} {s t : State}

theorem loadScratch_eq {rank : Nat} {score : Bool} {as : List (Nat × Nat)}
    (pre : preCheck as m.sz.bytes (fun o => o + m.sz.bytes ≤ x.tr.scratch) = none)
    (free : (score && as.any fun e => rangeBusy s x.core x.ref.train e.2 m.sz.bytes) = false) :
    loadScratch i m a rank score as x s =
      if m.ord then withAcquireLoad x .cl (atOnce m.ord s) (scrLoadBody i m a rank as x)
      else scrLoadBody i m a rank as x (atOnce m.ord s) := by
  simp only [loadScratch, pre, free, Bool.false_eq_true, if_false]
  cases m.ord <;> rfl

/-- Where the lanes of a global load translate and its turn has come, it is performed. -/
theorem loadBody_done {sx byp : Bool} {ls : List Nat}
    (reach : Reaches x .load m.sz.bytes false false (fun _ _ => false) (globPlaces a x ls t) t)
    (turn : InTurn x .load m.sz.bytes (goesPast m byp x) (globPlaces a x ls t) t)
    {u : State × Option Trap}
    (load : u = loadLanes (reached x .load m.sz.bytes (goesPast m byp x) (globPlaces a x ls t) t) x
      ⟨encodeVamer i, a.a, m.sz.bytes, sx⟩ (goesPast m byp x) (accesses x .load (globPlaces a x ls t) t) (ls.headD 0))
    (fine : u.2 = none) : loadBody i m a sx byp x ls t = .done u.1 [] none := by
  subst load
  exact (globalAccess_ok reach turn _).trans (by rw [fine])

/-- A load from a scratchpad whose offsets are good is what its body answers after the acquire (R189, R210). -/
theorem loadScratch_done {rank : Nat} {score : Bool} {as : List (Nat × Nat)}
    (pre : preCheck as m.sz.bytes (fun o => o + m.sz.bytes ≤ x.tr.scratch) = none)
    (free : score = true → (as.any fun e => rangeBusy s x.core x.ref.train e.2 m.sz.bytes) = false)
    {u : State × Option Trap}
    (load : scrLoadBody i m a rank as x (acqStart m.ord .cl x (atOnce m.ord s)) = .done u.1 [] u.2)
    (fine : u.2 = none) (may : acqMay m.ord .cl x (atOnce m.ord s) u.1) :
    loadScratch i m a rank score as x s = .done u.1 [] none := by
  have notBusy : (score && as.any fun e => rangeBusy s x.core x.ref.train e.2 m.sz.bytes) = false := by
    cases score with
    | false => rfl
    | true => exact free rfl
  rw [loadScratch_eq pre notBusy]
  exact orderedAcquire_done (load.trans (congrArg (Res.done _ []) fine)) may

end

/-- The rank of LDX and STX is good where it is one of the train's and the offsets are aligned (R208, R210). -/
theorem rankChecks_none {x : Ix} {k n : Nat} {as : List (Nat × Nat)} {p : Nat → Bool} (pre : preCheck as n p = none)
    (rank : k < x.tr.cores.length) : orTrap (memTrap cMEM_ALIGN (as.filter fun e => e.2 % n ≠ 0)) (rankTrap x k as) = none := by
  have aligned : memTrap cMEM_ALIGN (as.filter fun e => e.2 % n ≠ 0) = none := by
    unfold preCheck at pre
    cases e : memTrap cMEM_ALIGN (as.filter fun e => e.2 % n ≠ 0) with
    | none => rfl
    | some t => rw [e] at pre; exact nomatch pre
  rw [aligned]
  exact if_neg (Nat.not_le.mpr rank)

/-- Settles O14: each load runs its body after its acquire, where it has one. -/
theorem loadComplete : Obligations.LoadComplete := by
  unfold Obligations.LoadComplete
  refine ⟨?ld, ?ldu, ?ldb, ?lds, ?ldx, ?ldw⟩
  case ld | ldb =>
    intro m a s x t0 t as past u h reach turn fine may
    refine vamer_done h false _ ?_
    unfold loadGlobal
    exact clampedAcquire_done (loadBody_done reach turn rfl fine) may
  case ldu =>
    intro m a s x t0 t as past u h reach turn fine may
    refine vamer_done h false _ ?_
    unfold lduBody
    exact clampedAcquire_done (congrArg (lduSpread _) (loadBody_done reach turn rfl fine)) may
  case lds =>
    intro m a s x t0 t as k v u h pre free rank turn fine may
    exact vamer_done h false _ (loadScratch_done pre free (afterScr_ok turn _) fine may)
  case ldx =>
    intro m a s x t0 t as k v u h pre free rank turn fine may
    refine vamer_done h false _ ?_
    dsimp only
    rw [rankChecks_none pre (rank rfl)]
    exact loadScratch_done pre free (afterScr_ok turn _) fine may
  case ldw =>
    intro m a s x t as u h pre bank fine
    refine vamer_done h false _ ?_
    dsimp only
    rw [pre, if_neg bank]
    exact congrArg (Res.done _ []) fine

end Sys2Proof.Machine

namespace Sys2Proof.Machine

open Sys2Proof

/-! ## O15: the stores of class 0x6 complete -/

section

variable {m : MemMod} {a : Args} {x : Ix} {s : State}

/-- A global store counts a clamped scope before its release (R203). -/
theorem clampedRelease_eq {ord : Bool} {sc : Scope} (body : State → Res) (may : relMay ord sc x (clampIf ord sc x s)) :
    (if ord then withRelease x sc (countClamp s x.ctx sc) body else body s) = body (relStart ord sc x (clampIf ord sc x s)) := by
  cases ord with
  | false => rfl
  | true => exact withRelease_ok x sc _ body (may rfl)

/-- Where the lanes of a global store translate and its turn has come, it is performed after its release (R209, R212). -/
theorem storeGlobal_done {byp : Bool} {ls : List Nat} (may : relMay m.ord m.sc x (clampIf m.ord m.sc x s)) {t : State}
    (start : t = relStart m.ord m.sc x (clampIf m.ord m.sc x s))
    (reach : Reaches x .store m.sz.bytes true false (fun _ _ => false) (globPlaces a x ls t) t)
    (turn : InTurn x .store m.sz.bytes (goesPast m byp x) (globPlaces a x ls t) t) {u : State × Option Trap}
    (store : u = storeLanes (reached x .store m.sz.bytes (goesPast m byp x) (globPlaces a x ls t) t) x (goesPast m byp x)
      (fun _ => none) m.sz.bytes (storeBytes t x a m.sz) (accesses x .store (globPlaces a x ls t) t))
    (fine : u.2 = none) : storeGlobal m a byp x ls s = .done u.1 [] none := by
  subst store start
  unfold storeGlobal
  refine (clampedRelease_eq _ may).trans ((globalAccess_ok reach turn _).trans ?_)
  rw [fine]

/-- A store to a scratchpad whose offsets are good is performed once its turn has come (R189, R210). -/
theorem storeScratch_done {rank : Nat} {score : Bool} {as : List (Nat × Nat)}
    (pre : preCheck as m.sz.bytes (fun o => o + m.sz.bytes ≤ x.tr.scratch) = none)
    (free : score = true → (as.any fun e => rangeBusy s x.core x.ref.train e.2 m.sz.bytes) = false)
    (may : relMay m.ord .cl x s) {t : State} (start : t = relStart m.ord .cl x s) (turn : ScrInTurn x rank m.sz.bytes as t) :
    storeScratch m a rank score as x s = .done (scrStored (scrReached x rank m.sz.bytes as t) x rank
      (fun l => storeBytes (scrFollowed x rank m.sz.bytes as t) x a m.sz l) as) [] none := by
  have notBusy : (score && as.any fun e => rangeBusy s x.core x.ref.train e.2 m.sz.bytes) = false := by
    cases score with
    | false => rfl
    | true => exact free rfl
  subst start
  simp only [storeScratch, pre, notBusy, Bool.false_eq_true, if_false]
  refine (orderedRelease_eq _ may).trans ?_
  exact afterScr_ok turn _

end

/-- Settles O15: each store runs its body after its release, where it has one. -/
theorem storeComplete : Obligations.StoreComplete := by
  unfold Obligations.StoreComplete
  refine ⟨?st, ?stb, ?sts, ?stx, ?ochSt⟩
  case st | stb =>
    intro m a s x t0 t as past u h reach turn fine may
    exact vamer_done h false _ (storeGlobal_done may rfl reach turn rfl fine)
  case sts =>
    intro m a s x t0 t as k h pre free rank turn may
    exact vamer_done h false _ (storeScratch_done pre free may rfl turn)
  case stx =>
    intro m a s x t0 t as k h pre free rank turn may
    refine vamer_done h false _ ?_
    dsimp only
    rw [rankChecks_none pre (rank rfl)]
    exact storeScratch_done pre free may rfl turn
  case ochSt =>
    intro sz n a s x t as chan u h reach turn fine
    refine vamer_done h false _ ((globalAccess_ok reach turn _).trans ?_)
    exact congrArg (Res.done _ []) fine

end Sys2Proof.Machine

namespace Sys2Proof.Machine

open Sys2Proof

/-! ## O16: prefetch, cache control, FENCE, ordered channels and MDIE complete -/

section

variable {x : Ix} {a : Args} {s : State}

/-- The words of cache control: the whole L1 for a count of 0 where `all`, else those of the range (R214). -/
def cacheWords (a : Args) (all stores : Bool) (x : Ix) (ls : List Nat) (s : State) : List Nat × State :=
  let n := srcI s x a 32 a.c (ls.headD 0)
  if n = 0 then (if all then (s.cluster x.cluster).l1.map (·.1) else [], s)
  else rangeWords x (srcI s x a 64 a.b (ls.headD 0)) n stores (pagesOf (srcI s x a 64 a.b (ls.headD 0)) n) s

/-- Cache control that can pay and leaves none of its words dirty acts on them after the earlier accesses (R214, R370). -/
theorem cacheOp_done {all stores : Bool} {f : State → Nat → List Nat → State} {ls : List Nat} {t u : State} {r : List Nat × State}
    (settles : t = settleX x s) (words : r = cacheWords a all stores x ls t) (acts : u = f r.2 x.cluster r.1)
    (pays : srcI t x a 32 a.c (ls.headD 0) = 0 ∨ outOf t x.ctx .mem = false)
    (clean : ((u.cluster x.cluster).l1.any fun e => e.2.dirty ≠ 0 && r.1.contains e.1) = false) :
    cacheOp a all stores f x ls s = .done u [] none := by
  have notHeld : (decide (srcI t x a 32 a.c (ls.headD 0) ≠ 0) && outOf t x.ctx .mem) = false := by
    rcases pays with zero | free
    · rw [decide_eq_false (not_not_intro zero), Bool.false_and]
    · rw [free, Bool.and_false]
  subst settles acts words
  unfold cacheOp
  dsimp only
  rw [notHeld]
  exact if_neg (Bool.not_eq_true _ ▸ clean)

/-- FENCE releases where it is not `acq`, then acquires where it is not `rel` (R215). -/
theorem fence_completes (o : FenceOrd) (sc : Scope) (a : Args) (s : State) (x : Ix) :
    let t := countClamp (drawn (.fence o sc a) a s x) x.ctx sc
    let u := relStart (o ≠ .acq) sc x t
    Issues (.fence o sc a) a s x → relMay (o ≠ .acq) sc x t → (o ≠ .rel → canAcquire x sc u = true) →
    exec (.fence o sc a) s = .next (through (.fence o sc a) (if o = .rel then u else acquired x sc u) x a) := by
  intro t u h rel acq
  refine vamer_done h false _ ?_
  cases o with
  | full => exact (withRelease_ok x sc t _ (rel rfl)).trans (withAcquire_ok x sc _ _ (acq nofun))
  | rel => exact withRelease_ok x sc t _ (rel rfl)
  | acq => exact withAcquire_ok x sc t _ (acq nofun)

/-- A channel that has drained closes (R216). -/
theorem ochClose_completes (n : BitVec 3) (a : Args) (s : State) (x : Ix) :
    let t := drawn (.ochClose n a) a s x
    let c := 8 * (srcI t x a 32 a.b ((enabled x a).headD 0) % 4) + n.toNat
    Issues (.ochClose n a) a s x → chanEmpty (drainChan t x.ref.train c) x.ref.train c = true →
    exec (.ochClose n a) s = .next (through (.ochClose n a) (modTrain (drainChan t x.ref.train c) x.ref.train fun tr =>
      { tr with och := tr.och.filter (· ≠ c) }) x a) := by
  intro t c h empty
  have drained : ¬ (!chanEmpty (drainChan t x.ref.train c) x.ref.train c) = true := by rw [empty]; decide
  exact vamer_done h false _ (if_neg drained)

/-- MDIE writes the M-dies of lanes that all translate (R218). -/
theorem mdie_completes (a : Args) (s : State) (x : Ix) :
    let t := drawn (.mdie a) a s x
    let as := (enabled x a).map fun l => (l, globVa t x a l)
    Issues (.mdie a) a s x → Reaches x .load 1 false false (fun _ _ => false) as t →
    exec (.mdie a) s = .next (through (.mdie a) (wrFirst (walked x .load as t) x a.a 32 ((enabled x a).headD 0)
      ((accesses x .load as t).map fun b => (b.lane, if isHbm b.ma then maDie b.ma else 0xFFFFFFFF))) x a) := by
  intro t as h reach
  dsimp only [t, as] at reach
  refine vamer_done h false _ ?_
  simp only [reach.before, reach.after, walkHeld_ok _ reach.pages, failPages_ok _ reach.pages, List.isEmpty_nil, if_true,
    Bool.false_eq_true, if_false]
  rfl

end

/-- Settles O16: cache control, OCH.CLOSE and MDIE past their checks, FENCE after its release and its acquire, the others at once. -/
theorem cacheComplete : Obligations.CacheComplete := by
  unfold Obligations.CacheComplete
  refine ⟨?pref, ?prefc, ?cinv, ?cwb, ?cdisc, fence_completes, ?ochOpen, ochClose_completes, mdie_completes⟩
  case pref | prefc | ochOpen =>
    intros
    exact fun s x h => vamer_done h false _ rfl
  case cinv | cwb | cdisc =>
    intro a s x t r u h pays clean
    exact vamer_done h false _ (cacheOp_done rfl rfl rfl pays clean)

end Sys2Proof.Machine

namespace Sys2Proof.Machine

open Sys2Proof

/-! ## O45: the frame of the stores

O15 says which state each store leaves. It is the one in which the store is performed (`scrFollowed`, `reached`), changed by the store of
the lanes, which `storeLanes_move` and `scrStored_only` bound, and by going on. -/

/-- Where no earlier load of the bytes is pending, none is performed first. -/
theorem scrFollowed_of_idle {s : State} {x : Ix} {rank n : Nat} {as : List (Nat × Nat)} (idle : scrPending s x rank n as = false) :
    scrFollowed x rank n as s = s :=
  if_neg (by rw [idle]; decide)

/-- The bytes of `n` at each enabled lane's offset. -/
abbrev scrBytesAt (x : Ix) (a : Args) (off : Nat → Nat) (n j : Nat) : Prop := ∃ l ∈ enabled x a, off l ≤ j ∧ j < off l + n

/-- A store to a scratchpad changes the bytes at its lanes' offsets alone, from the state in which it is performed. -/
theorem scratchOnly_of_exec {i : Instr} {a : Args} {x : Ix} {s : State} {ord : Bool} {off : Nat → Nat} {rank n : Nat}
    {bytes : Nat → List Byte} (size : ∀ l, (bytes l).length = n) :
    let as := (enabled x a).map fun l => (l, off l)
    let v := scrFollowed x rank n as (relStart ord .cl x (drawn i a s x))
    exec i s = .next (through i (scrStored (countRank v x rank n as) x rank bytes as) x a) →
    ∃ t, exec i s = .next t ∧ ScratchOnly x [] .zero 32 rank (scrBytesAt x a off n) v t ∧
      (ord = false → scrPending (drawn i a s x) x rank n as = false → ScratchOnly x [] .zero 32 rank (scrBytesAt x a off n) s t) := by
  intro as v done
  have inside : ∀ e ∈ as, ∀ j, e.2 ≤ j → j < e.2 + n → scrBytesAt x a off n j := by
    intro e he j low high
    obtain ⟨l, hl, rfl⟩ := List.mem_map.mp he
    exact ⟨l, hl, low, high⟩
  have after : ScratchOnly x [] .zero 32 rank (scrBytesAt x a off n) v
      (through i (scrStored (countRank v x rank n as) x rank bytes as) x a) :=
    (countRank_scratchOnly ..).trans ((scrStored_only _ x rank n bytes size as _ inside).trans (through_scratchOnly ..))
  refine ⟨_, done, after, fun plain idle => ?_⟩
  subst plain
  exact (drawn_scratchOnly i a s x rank _).trans (scrFollowed_of_idle idle ▸ after)

/-- The bytes that a global store may write: those of its lanes and, past the L1, those of the other stores of their request. -/
def storedAt (n : Nat) (bs : List LAcc) (past : Bool) (v : State) (ma : Nat) : Prop :=
  (∃ b ∈ bs, b.ma ≤ ma ∧ ma < b.ma + n) ∨
    (past = true ∧ ∃ q ∈ v.stores, v.nextId ≤ q.grp ∧ q.reg = false ∧ q.ma ≤ ma ∧ ma < q.ma + q.bytes.length)

/-- Some words hold a byte that `p` selects. -/
abbrev wordsHolding (p : Nat → Prop) (wa : Nat) : Prop := ∃ ma, p ma ∧ ma / 4 = wa

theorem mem_linesAt {n wa : Nat} {bs : List LAcc} {b : LAcc} (hb : b ∈ bs) (hw : wa ∈ wordsOf b.ma n) : wa / 32 ∈ linesAt n bs :=
  List.mem_flatMap.mpr ⟨b, hb, List.mem_map.mpr ⟨wa, hw, rfl⟩⟩

/-- The words of bytes that `p` selects hold one. -/
theorem wordsOf_holding {p : Nat → Prop} {ma n : Nat} (bytes : ∀ j, ma ≤ j → j < ma + n → p j) : ∀ wa ∈ wordsOf ma n, wordsHolding p wa := by
  intro wa hw
  obtain ⟨j, low, high, word⟩ := mem_wordsOf.mp hw
  exact ⟨j, bytes j low high, word⟩

/-- The store of lanes that reach HBM4 moves only those bytes. -/
theorem storeLanes_storedAt {v : State} {x : Ix} {past : Bool} {chan : LAcc → Option Nat} {n : Nat} {data : Nat → List Byte} {bs : List LAcc}
    (size : ∀ l, (data l).length = n) (noMmio : ∀ b ∈ bs, isMmio b.ma = false) (room : past = false → RoomFor v x.cluster (linesAt n bs)) :
    MemMove x.cluster (storedAt n bs past v) (wordsHolding (storedAt n bs past v)) (fun _ => False) (linesAt n bs) v
      (storeLanes v x past chan n data bs).1 := by
  refine storeLanes_move v x past chan n data bs noMmio size (fun b hb => ?_) (fun byp q hq new plain => ?_) room
  · have bytes : ∀ j, b.ma ≤ j → j < b.ma + n → storedAt n bs past v j := fun j low high => .inl ⟨b, hb, low, high⟩
    exact ⟨bytes, wordsOf_holding bytes, fun wa hw => mem_linesAt hb hw⟩
  · have bytes : ∀ j, q.ma ≤ j → j < q.ma + q.bytes.length → storedAt n bs past v j :=
      fun j low high => .inr ⟨byp, q, hq, new, plain, low, high⟩
    exact ⟨bytes, wordsOf_holding bytes⟩

/-- No register differs, and of memory only the words that hold a byte that `p` selects; every copy in an L1 stays. -/
def StoresOnly (x : Ix) (p : Nat → Prop) (s z : State) : Prop :=
  WordsOnly x.cluster p (wordsHolding p) (fun _ => False) s z ∧ KeepsCopies p s z ∧
    SameRegs x [] .zero 32 (fun _ => false) s z ∧ SameGens s z

section

variable {x : Ix} {p : Nat → Prop} {s t z : State} {L : List Nat}

theorem StoresOnly.trans (h : StoresOnly x p s t) (k : StoresOnly x p t z) : StoresOnly x p s z := by
  obtain ⟨words, copies, regs, gens⟩ := h
  obtain ⟨words', copies', regs', gens'⟩ := k
  exact ⟨words.trans words', copies.trans copies', regs.trans regs', gens.trans gens'⟩

theorem StoresOnly.of_machine (h : SameMachine s t) (regs : SameRegs x [] .zero 32 (fun _ => false) s t) (gens : SameGens s t) :
    StoresOnly x p s t :=
  ⟨h.words, keepsCopies_of_l1 h.memory.l1, regs, gens⟩

theorem StoresOnly.of_move (h : MemMove x.cluster p (wordsHolding p) (fun _ => False) L s t) : StoresOnly x p s t := by
  obtain ⟨regs, gens⟩ := trains_regs h.trains x [] .zero 32 fun _ => false
  exact ⟨h.words, h.keeps, regs, gens⟩

theorem drawn_storesOnly (i : Instr) (a : Args) (s : State) (x : Ix) : StoresOnly x p s (drawn i a s x) := by
  obtain ⟨trains, machine, _⟩ := drawn_frame i a s x
  obtain ⟨regs, gens⟩ := trains_regs trains x [] .zero 32 fun _ => false
  exact .of_machine machine regs gens

theorem through_storesOnly (i : Instr) (s : State) (x : Ix) (a : Args) : StoresOnly x p s (through i s x a) := by
  obtain ⟨regs, machine, gens, _⟩ := through_frame i s x a [] .zero 32 fun _ => false
  exact .of_machine machine regs gens

/-- A store that moves bytes from the state in which it is performed changes those alone. -/
theorem storesOnly_of_exec {i : Instr} {a : Args} {v u : State} (done : exec i s = .next (through i u x a))
    (move : MemMove x.cluster p (wordsHolding p) (fun _ => False) L v u) :
    ∃ z, exec i s = .next z ∧ StoresOnly x p v z ∧ (v = drawn i a s x → StoresOnly x p s z) := by
  have after : StoresOnly x p v (through i u x a) := (StoresOnly.of_move move).trans (through_storesOnly i u x a)
  exact ⟨_, done, after, fun e => (e ▸ drawn_storesOnly i a s x).trans after⟩

end

theorem storeBytes_length (s : State) (x : Ix) (a : Args) (sz : MSize) (l : Nat) : (storeBytes s x a sz l).length = sz.bytes :=
  leBytes_length ..

/-- Settles O45: of the states that O15 gives. -/
theorem storeFrame : Obligations.StoreFrame := by
  unfold Obligations.StoreFrame
  obtain ⟨st, stb, sts, stx, ochSt⟩ := storeComplete
  refine ⟨?sts, ?stx, ?st, ?stb, ?ochSt⟩
  case sts =>
    intro m a s x t0 n as k v stored h pre free rank turn may
    exact scratchOnly_of_exec (storeBytes_length v x a m.sz) (sts m a s x h pre free rank turn may)
  case stx =>
    intro m a s x t0 n as k v stored h pre free rank turn may
    exact scratchOnly_of_exec (storeBytes_length v x a m.sz) (stx m a s x h pre free rank turn may)
  case st =>
    intro m a s x t0 n as v bs stored only h reach turn fine may noMmio room
    exact storesOnly_of_exec (st m a s x h reach turn fine may) (storeLanes_storedAt (storeBytes_length _ x a m.sz) noMmio room)
  case stb =>
    intro m a s x t0 n as v bs stored only h reach turn fine may noMmio room
    exact storesOnly_of_exec (stb m a s x h reach turn fine may) (storeLanes_storedAt (storeBytes_length _ x a m.sz) noMmio room)
  case ochSt =>
    intro sz k a s x n as v bs stored only h reach turn fine _ noMmio room
    exact storesOnly_of_exec (ochSt sz k a s x h reach turn fine) (storeLanes_storedAt (storeBytes_length _ x a sz) noMmio room)

end Sys2Proof.Machine

namespace Sys2Proof.Machine

open Sys2Proof

/-! ## O46: the frame of the loads -/

theorem countRank_changed (s : State) (x : Ix) (rank n : Nat) (as : List (Nat × Nat)) {p w f : Nat → Prop} {ls : List Nat} {o : Operand}
    {bits : Nat} : Changed x p w f ls o bits s (countRank s x rank n as) := by
  have counts : CountsOnly s (countRank s x rank n as) := countEvent_counts ..
  obtain ⟨machine, trains, _⟩ := counts.machine
  exact changed_of_trains machine.words trains

section

variable {i : Instr} {a : Args} {x : Ix} {s u v : State} {p w f : Nat → Prop} {o : Operand} {bits : Nat}

/-- A load that changes `Changed` from the state in which it is performed changes no more by going on; nor from the state before it,
where that is the one in which its sources are read. -/
theorem changed_of_exec (done : exec i s = .next (through i u x a)) (load : Changed x p w f (enabled x a) o bits v u) :
    let only (s z : State) : Prop := WordsOnly x.cluster p w f s z ∧ SameRegs x (enabled x a) o bits (fun q => o = .pred q) s z ∧ SameGens s z
    ∃ z, exec i s = .next z ∧ only v z ∧ (v = drawn i a s x → only s z) := by
  have after : Changed x p w f (enabled x a) o bits v (through i u x a) := load.trans (through_changed i u x a ..)
  refine ⟨_, done, ⟨after.words, after.regs, after.gens⟩, fun e => ?_⟩
  have whole : Changed x p w f (enabled x a) o bits s (through i u x a) := (drawn_changed i a s x ..).trans (e ▸ after)
  exact ⟨whole.words, whole.regs, whole.gens⟩

end

/-- A word that some lane reads, at home (R208). -/
abbrev readWord (n : Nat) (bs : List LAcc) (wa : Nat) : Prop := ∃ b ∈ bs, isCellar b.ma = false ∧ wa ∈ wordsOf b.ma n

/-- The load of lanes that reach HBM4 or the cellar: past the L1 it changes the words that it reads, through it their lines. -/
theorem loadLanes_changed_reads {v : State} {x : Ix} {k : LoadIn} {past : Bool} {bs : List LAcc} {first : Nat} {ls : List Nat}
    (noSr : ∀ j, k.dst ≠ .sr j) (lanes : ∀ b ∈ bs, b.lane ∈ ls) (noMmio : ∀ b ∈ bs, isMmio b.ma = false)
    (room : past = false → RoomFor v x.cluster (linesAt k.bytes bs)) :
    Changed x (fun _ => False) (fun wa => past = true ∧ readWord k.bytes bs wa)
      (fun wa => past = false ∧ ∃ wb, readWord k.bytes bs wb ∧ wa / 32 = wb / 32) ls k.dst (if k.bytes ≤ 4 then 32 else 8 * k.bytes) v
      (loadLanes v x k past bs first).1 := by
  refine loadLanes_changed (L := linesAt k.bytes bs) v x k past bs first noMmio noSr (fun b hb home => ?_) ls lanes
  cases past with
  | true => exact ⟨rfl, fun wa hw => ⟨rfl, b, hb, home, hw⟩⟩
  | false => exact ⟨rfl, room rfl, fun wa hw => mem_linesAt hb hw, fun wb hw wa line => ⟨rfl, wb, ⟨b, hb, home, hw⟩, line⟩⟩

/-- The load of lanes from a scratchpad or a cellar changes no word. -/
theorem loadPlaces_changed_none {v : State} {x : Ix} {k : LoadIn} {defer : Bool} {as : List (Nat × Nat)} {place : Nat → Loc}
    {ls : List Nat} (noSr : ∀ j, k.dst ≠ .sr j) (lanes : ∀ e ∈ as, e.1 ∈ ls)
    (away : ∀ (e : Nat × Nat), ∀ w f L, Loads x.cluster w f L k.bytes v (place e.2)) :
    Changed x (fun _ => False) (fun _ => False) (fun _ => False) ls k.dst (if k.bytes ≤ 4 then 32 else 8 * k.bytes) v
      (loadPlaces v x k defer (as.map fun e => (e.1, place e.2))).1 := by
  refine loadPlaces_changed (L := []) v x k defer _ noSr (fun e he => ?_) ls fun e he => ?_
  · obtain ⟨b, _, rfl⟩ := List.mem_map.mp he
    exact away b _ _ _
  · obtain ⟨b, hb, rfl⟩ := List.mem_map.mp he
    exact lanes b hb

/-- The lanes that translate are among those of the access. -/
theorem accesses_lane_mem {x : Ix} {acc : Access} {ls : List Nat} {va : Nat → Nat} {s : State} {b : LAcc}
    (h : b ∈ accesses x acc (ls.map fun l => (l, va l)) s) : b.lane ∈ ls :=
  mem_lanes ls va _ (mem_accesses h)

theorem lowest_enabled {i : Instr} {a : Args} {s : State} {x : Ix} (h : Issues i a s x) : (enabled x a).headD 0 ∈ enabled x a := by
  cases e : enabled x a with
  | nil => exact absurd e h.lanes
  | cons l ls => exact List.mem_cons_self

/-- Settles O46: of the states that O14 gives. -/
theorem loadFrame : Obligations.LoadFrame := by
  unfold Obligations.LoadFrame
  obtain ⟨ld, ldu, ldb, lds, ldx, ldw⟩ := loadComplete
  refine ⟨?ld, ?ldu, ?ldb, ?lds, ?ldx, ?ldw⟩
  case ld =>
    intro m a noSr s x t0 t n as past v bs u read frame h reach turn fine may noMmio room
    exact changed_of_exec (ld m a s x h reach turn fine may)
      (loadLanes_changed_reads (k := ⟨encodeVamer (.ld m a), a.a, n, m.sx⟩) noSr (fun b hb => accesses_lane_mem hb) noMmio room)
  case ldu =>
    intro m a noSr s x t0 t n as past v bs u read frame h reach turn fine may noMmio room
    have lanes : ∀ b ∈ bs, b.lane ∈ enabled x a := by
      intro b hb
      have lowest : b.lane ∈ [(enabled x a).headD 0] := accesses_lane_mem hb
      rw [List.mem_singleton.mp lowest]
      exact lowest_enabled h
    exact changed_of_exec (ldu m a s x h reach turn fine may)
      (loadLanes_changed_reads (k := ⟨encodeVamer (.ldu m a), a.a, n, false⟩) noSr lanes noMmio room)
  case ldb =>
    intro m a noSr s x t0 t n as past v bs u read frame h reach turn fine may noMmio room
    exact changed_of_exec (ldb m a s x h reach turn fine may)
      (loadLanes_changed_reads (k := ⟨encodeVamer (.ldb m a), a.a, n, m.sx⟩) noSr (fun b hb => accesses_lane_mem hb) noMmio room)
  case lds =>
    intro m a noSr s x t0 t n as k v u frame h pre free rank turn fine may
    exact changed_of_exec (lds m a s x h pre free rank turn fine may) ((countRank_changed ..).trans
      (loadPlaces_changed_none (k := ⟨encodeVamer (.lds m a), a.a, n, m.sx⟩) (place := .scr x.ref.train k) noSr (mem_lanes _ _)
        fun _ _ _ _ => trivial))
  case ldx =>
    intro m a noSr s x t0 t n as k v u frame h pre free rank turn fine may
    exact changed_of_exec (ldx m a s x h pre free rank turn fine may) ((countRank_changed ..).trans
      (loadPlaces_changed_none (k := ⟨encodeVamer (.ldx m a), a.a, n, m.sx⟩) (place := .scr x.ref.train k) noSr (mem_lanes _ _)
        fun _ _ _ _ => trivial))
  case ldw =>
    intro m a noSr s x t as u h pre bank fine
    obtain ⟨z, done, _, only⟩ := changed_of_exec (ldw m a s x h pre bank fine)
      (loadPlaces_changed_none (k := ⟨encodeVamer (.ldw m a), a.a, m.sz.bytes, false⟩) (place := .cellar x.die) noSr (mem_lanes _ _)
        fun _ _ _ _ => trivial)
    exact ⟨z, done, only rfl⟩

end Sys2Proof.Machine

namespace Sys2Proof.Machine

open Sys2Proof

/-! ## O48: the frame of casks and barriers

Each family has one lemma that turns the state which an instruction answers into its frame; a case then says which state that is. -/

/-! ### Casks (R234, R237 to R242) -/

section

variable {a : Args} {x : Ix} {s t u v : State} {k : Nat}

/-- A releasing instruction starts in the state that its release leaves. -/
theorem relStart_true (sc : Scope) (x : Ix) (s : State) : relStart true sc x s = released x sc s := rfl

theorem onTarget_ok {need : Need} (f : Nat → Cask → State → Res) (target : targetOf s x a = some k)
    (ready : caskReady s x [(k, need)] = true) : onTarget a need x s f = f k (caskGet s x.cluster k) s := by
  simp only [onTarget, target, ready, if_true]

/-- CKFILL and CKSEED change an empty target after their release (R236). -/
theorem releasing_done (f : Cask → Cask) (target : targetOf s x a = some k) (ready : caskReady s x [(k, .empty)] = true)
    (may : canRelease x .cl s = true) :
    releasing a x s f = .done (caskPut (released x .cl s) x.cluster k (f (caskGet s x.cluster k))) [] none :=
  (onTarget_ok _ target ready).trans (withRelease_ok x .cl s _ may)

theorem caskRead_clean {c : Cask} (clean : c.poison = false) (ls : List Nat) (s t : State) : caskRead c ls s t = .done t [] none := by
  rw [caskRead, clean]
  rfl

/-- CKRED contributes to its gathering target after its release (R239, R241). -/
theorem ckred_completes {op : GOp} {w : Bool} (h : Issues (.ckred op w a) a s x)
    (target : targetOf (drawn (.ckred op w a) a s x) x a = some k)
    (ready : caskReady (drawn (.ckred op w a) a s x) x [(k, .gathering)] = true)
    (may : canRelease x .cl (drawn (.ckred op w a) a s x) = true)
    (same : (caskGet (drawn (.ckred op w a) a s x) x.cluster k).gop = op)
    (clean : (caskGet (drawn (.ckred op w a) a s x) x.cluster k).poison = false) :
    let t := drawn (.ckred op w a) a s x
    exec (.ckred op w a) s = .next (through (.ckred op w a) (caskPut (released x .cl t) x.cluster k
      ((caskGet t x.cluster k).contribute (ckredVal op w ((enabled x a).map fun l => (l, srcI t x a (wbits w) a.c l))))) x a) := by
  refine vamer_done h false _ ?_
  rw [onTarget_ok _ target ready, if_neg (not_not_intro same), withRelease_ok x .cl _ _ may]
  exact caskRead_clean clean ..

/-- CKDRAW gives its lanes the value and takes one drawing off (R238). -/
theorem ckdraw_completes {w : Bool} (h : Issues (.ckdraw w a) a s x) (target : targetOf (drawn (.ckdraw w a) a s x) x a = some k)
    (ready : caskReady (drawn (.ckdraw w a) a s x) x [(k, .full)] = true)
    (clean : (caskGet (drawn (.ckdraw w a) a s x) x.cluster k).poison = false) :
    let t := drawn (.ckdraw w a) a s x
    exec (.ckdraw w a) s = .next (through (.ckdraw w a) (wr (caskPut t x.cluster k (caskGet t x.cluster k).draw) x a.a (wbits w)
      ((enabled x a).map fun l => (l, (caskGet t x.cluster k).value.toNat % 2 ^ wbits w))) x a) := by
  refine vamer_done h false _ ?_
  rw [onTarget_ok _ target ready]
  exact caskRead_clean clean ..

theorem ckpeek_completes {w : Bool} (h : Issues (.ckpeek w a) a s x) (target : targetOf (drawn (.ckpeek w a) a s x) x a = some k)
    (ready : caskReady (drawn (.ckpeek w a) a s x) x [(k, .full)] = true)
    (clean : (caskGet (drawn (.ckpeek w a) a s x) x.cluster k).poison = false) :
    let t := drawn (.ckpeek w a) a s x
    exec (.ckpeek w a) s = .next (through (.ckpeek w a) (wr t x a.a (wbits w)
      ((enabled x a).map fun l => (l, (caskGet t x.cluster k).value.toNat % 2 ^ wbits w))) x a) := by
  refine vamer_done h false _ ?_
  rw [onTarget_ok _ target ready]
  exact caskRead_clean clean ..

/-- CKTRY of a full cask takes or observes its value (R238). -/
theorem cktry_full {w obs : Bool} {pd : BitVec 4} (h : Issues (.cktry w obs pd a) a s x)
    (target : targetOf (drawn (.cktry w obs pd a) a s x) x a = some k)
    (full : (caskGet (drawn (.cktry w obs pd a) a s x) x.cluster k).f = true)
    (ready : caskReady (drawn (.cktry w obs pd a) a s x) x [(k, .full)] = true)
    (clean : (caskGet (drawn (.cktry w obs pd a) a s x) x.cluster k).poison = false) :
    let t := drawn (.cktry w obs pd a) a s x
    exec (.cktry w obs pd a) s = .next (through (.cktry w obs pd a)
      (wrPred (wr (if obs then t else caskPut t x.cluster k (caskGet t x.cluster k).draw) x a.a (wbits w)
        ((enabled x a).map fun l => (l, (caskGet t x.cluster k).value.toNat % 2 ^ wbits w))) x pd
        ((enabled x a).map fun l => (l, true))) x a) := by
  refine vamer_done h false _ ?_
  simp only [target, full, ready, Bool.not_true, Bool.false_eq_true, if_false]
  exact caskRead_clean clean ..

/-- CKTRY of a cask that is not full only says so (R238). -/
theorem cktry_empty {w obs : Bool} {pd : BitVec 4} (h : Issues (.cktry w obs pd a) a s x)
    (target : targetOf (drawn (.cktry w obs pd a) a s x) x a = some k)
    (empty : (caskGet (drawn (.cktry w obs pd a) a s x) x.cluster k).f = false) :
    exec (.cktry w obs pd a) s = .next (through (.cktry w obs pd a)
      (wrPred (drawn (.cktry w obs pd a) a s x) x pd ((enabled x a).map fun l => (l, false))) x a) := by
  refine vamer_done h false _ ?_
  simp only [target, empty, Bool.not_false, if_true]

theorem ckclr_completes (h : Issues (.ckclr a) a s x) (target : targetOf (drawn (.ckclr a) a s x) x a = some k) :
    let t := drawn (.ckclr a) a s x
    exec (.ckclr a) s = .next (through (.ckclr a) (caskPut t x.cluster k
      { caskGet t x.cluster k with f := false, g := false, pend := 0, rc := 0, value := 0, poison := false }) x a) := by
  refine vamer_done h false _ ?_
  simp only [target]

theorem ckstat_completes (h : Issues (.ckstat a) a s x) (target : targetOf (drawn (.ckstat a) a s x) x a = some k) :
    let t := drawn (.ckstat a) a s x
    exec (.ckstat a) s = .next (through (.ckstat a)
      (wr t x a.a 32 ((enabled x a).map fun l => (l, ckstatVal (caskGet t x.cluster k)))) x a) := by
  refine vamer_done h false _ ?_
  simp only [target]

/-- Only the registers of destination `o` and predicate `pd`, fragments, counts and cask `k` may differ. -/
def CaskChange (x : Ix) (ls : List Nat) (o : Operand) (bits : Nat) (pd : Option (BitVec 4)) (k : Nat) (s t : State) : Prop :=
  RegsOnly x ls o bits pd s t ∧ OtherCasks x k s t

variable {ls : List Nat} {o : Operand} {bits : Nat} {pd : Option (BitVec 4)}

theorem CaskChange.trans (h : CaskChange x ls o bits pd k s t) (g : CaskChange x ls o bits pd k t u) : CaskChange x ls o bits pd k s u :=
  ⟨RegsOnly.trans h.1 g.1, OtherCasks.trans h.2 g.2⟩

theorem caskPut_change (s : State) (c : Cask) : CaskChange x ls o bits pd k s (caskPut s x.cluster k c) :=
  ⟨caskPut_regsOnly s x.cluster k c, caskPut_others s k c⟩

theorem wr_change (s : State) (noSr : ∀ j, o ≠ .sr j) (f : Nat → Nat) :
    CaskChange x ls o bits pd k s (wr s x o bits (ls.map fun l => (l, f l))) :=
  ⟨wr_regsOnly s noSr _ (mem_lanes ls f), wr_others s k bits o _⟩

theorem wrPred_change (s : State) (p : BitVec 4) (f : Nat → Bool) :
    CaskChange x ls o bits (some p) k s (wrPred s x p (ls.map fun l => (l, f l))) :=
  ⟨wrPred_regsOnly s p _ (mem_lanes ls f), wrPred_others s k p _⟩

/-- A cask instruction that changes registers and its target alone has the frame of one. -/
theorem caskOnly_of_exec {i : Instr} (done : exec i s = .next (through i u x a)) (change : CaskChange x (enabled x a) o bits pd k v u) :
    ∃ z, exec i s = .next z ∧ CaskChange x (enabled x a) o bits pd k v z ∧
      (v = drawn i a s x → CaskChange x (enabled x a) o bits pd k (drawn i a s x) z ∧ RegsOnly x (enabled x a) o bits pd s z) := by
  have after : CaskChange x (enabled x a) o bits pd k v (through i u x a) :=
    change.trans ⟨through_regsOnly i u x a, through_others i u a k⟩
  refine ⟨_, done, after, fun e => ?_⟩
  subst e
  exact ⟨after, (drawn_regsOnly i a s x).trans after.1⟩

/-- The same for one that releases (R236). -/
theorem caskOnly_of_release {i : Instr} (done : exec i s = .next (through i u x a))
    (change : CaskChange x (enabled x a) o bits pd k (released x .cl (drawn i a s x)) u) :
    let v := relStart true .cl x (drawn i a s x)
    ∃ z, exec i s = .next z ∧ CaskChange x (enabled x a) o bits pd k v z ∧
      (v = drawn i a s x → CaskChange x (enabled x a) o bits pd k (drawn i a s x) z ∧ RegsOnly x (enabled x a) o bits pd s z) := by
  rw [relStart_true]
  exact caskOnly_of_exec done change

end

/-- The cask clauses of O48. -/
theorem cask_frames :
    (∀ w n a, CaskOnly (.ckfill w n a) a (some .empty) .zero 32 none true fun _ _ _ => true) ∧
    (∀ op a, CaskOnly (.ckseed op a) a (some .empty) .zero 32 none true
      fun t x _ => decide (srcI t x a 32 a.c ((enabled x a).headD 0) ≤ 255)) ∧
    (∀ op w a, CaskOnly (.ckred op w a) a (some .gathering) .zero 32 none true fun _ _ c => decide (c.gop = op) && !c.poison) ∧
    (∀ w a, CaskOnly (.ckdraw w a) a (some .full) a.a (wbits w) none false fun _ _ c => !c.poison) ∧
    (∀ w a, CaskOnly (.ckpeek w a) a (some .full) a.a (wbits w) none false fun _ _ c => !c.poison) ∧
    (∀ w obs pd a, CaskOnly (.cktry w obs pd a) a (some .full) a.a (wbits w) (some pd) false fun _ _ c => c.f && !c.poison) ∧
    (∀ w obs pd a, CaskOnly (.cktry w obs pd a) a none a.a (wbits w) (some pd) false fun _ _ c => !c.f) ∧
    (∀ a, CaskOnly (.ckclr a) a none .zero 32 none false fun _ _ _ => true) ∧
    (∀ a, CaskOnly (.ckstat a) a none a.a 32 none false fun _ _ _ => true) := by
  refine ⟨?ckfill, ?ckseed, ?ckred, ?ckdraw, ?ckpeek, ?cktry, ?cktryEmpty, ?ckclr, ?ckstat⟩
  case ckfill =>
    intro w n a noSr s x k t v only h target ready may _
    exact caskOnly_of_release (vamer_done h false _ (releasing_done _ target (ready _ rfl) (may rfl)))
      (caskPut_change _ _)
  case ckseed =>
    intro op a noSr s x k t v only h target ready may small
    have fits : ¬ srcI t x a 32 a.c ((enabled x a).headD 0) > 255 := Nat.not_lt.mpr (of_decide_eq_true small)
    exact caskOnly_of_release (vamer_done h false _ ((if_neg fits).trans (releasing_done _ target (ready _ rfl) (may rfl))))
      (caskPut_change _ _)
  case ckred =>
    intro op w a noSr s x k t v only h target ready may ok
    obtain ⟨same, clean⟩ : (caskGet t x.cluster k).gop = op ∧ (caskGet t x.cluster k).poison = false := by simpa using ok
    exact caskOnly_of_release (ckred_completes h target (ready _ rfl) (may rfl) same clean) (caskPut_change _ _)
  case ckdraw =>
    intro w a noSr s x k t v only h target ready _ ok
    have clean : (caskGet t x.cluster k).poison = false := by simpa using ok
    exact caskOnly_of_exec (ckdraw_completes h target (ready _ rfl) clean) ((caskPut_change t _).trans (wr_change _ noSr _))
  case ckpeek =>
    intro w a noSr s x k t v only h target ready _ ok
    have clean : (caskGet t x.cluster k).poison = false := by simpa using ok
    exact caskOnly_of_exec (ckpeek_completes h target (ready _ rfl) clean) (wr_change t noSr _)
  case cktry =>
    intro w obs pd a noSr s x k t v only h target ready _ ok
    obtain ⟨full, clean⟩ : (caskGet t x.cluster k).f = true ∧ (caskGet t x.cluster k).poison = false := by simpa using ok
    have drew : CaskChange x (enabled x a) a.a (wbits w) (some pd) k t
        (if obs then t else caskPut t x.cluster k (caskGet t x.cluster k).draw) := by
      cases obs with
      | false => exact caskPut_change _ _
      | true => exact ⟨RegsOnly.refl t, fun _ _ _ => rfl⟩
    exact caskOnly_of_exec (cktry_full h target full (ready _ rfl) clean)
      (drew.trans ((wr_change _ noSr _).trans (wrPred_change _ pd _)))
  case cktryEmpty =>
    intro w obs pd a noSr s x k t v only h target _ _ ok
    exact caskOnly_of_exec (cktry_empty h target (by simpa using ok)) (wrPred_change t pd _)
  case ckclr =>
    intro a noSr s x k t v only h target _ _ _
    exact caskOnly_of_exec (ckclr_completes h target) (caskPut_change t _)
  case ckstat =>
    intro a noSr s x k t v only h target _ _ _
    exact caskOnly_of_exec (ckstat_completes h target) (wr_change t noSr _)

end Sys2Proof.Machine

namespace Sys2Proof.Machine

open Sys2Proof

/-! ### Waits (R246 to R248, R251) -/

section

variable {a : Args} {x : Ix} {s t u v : State} {sc : Scope} {i : Instr} {o : Operand}

/-- An instruction that changes registers alone, from the state that its acquire leaves, has the frame of a wait. -/
theorem waitOnly_of_exec (done : exec i s = .next (through i u x a)) (regs : RegsOnly x (enabled x a) o 32 none v u) :
    ∃ z, exec i s = .next z ∧ RegsOnly x (enabled x a) o 32 none v z ∧ (v = drawn i a s x → RegsOnly x (enabled x a) o 32 none s z) := by
  have after : RegsOnly x (enabled x a) o 32 none v (through i u x a) := regs.trans (through_regsOnly i u x a)
  exact ⟨_, done, after, fun e => (drawn_regsOnly i a s x).trans (e ▸ after)⟩

/-- What acquires does what follows in the state that its acquire leaves (R202). -/
theorem acquiring_done {k : State → Res} (done : k (acqStart true sc x s) = .done u [] none) (may : acqMay true sc x s u) :
    withAcquireLoad x sc s k = .done u [] none := orderedAcquire_done (ord := true) done may

/-- A timed wait whose condition holds acquires and gives 1 (R247). -/
theorem timedResult_left {n : Nat} {ls : List Nat}
    (may : acqMay true sc x (countClamp s x.ctx sc) (wr (acqStart true sc x (countClamp s x.ctx sc)) x a.a 32 (ls.map fun l => (l, 1)))) :
    timedResult a sc n true x ls s =
      .done (wr (acqStart true sc x (countClamp s x.ctx sc)) x a.a 32 (ls.map fun l => (l, 1))) [] none :=
  acquiring_done (k := fun s => .done (wr s x a.a 32 (ls.map fun l => (l, 1))) [] none) rfl may

/-- One at its deadline gives 0 (R247). -/
theorem timedResult_late {n : Nat} {ls : List Nat} (late : x.fr.deadline.getD (s.rtime + rtCap n) ≤ s.rtime) :
    timedResult a sc n false x ls s = .done (wr (countClamp s x.ctx sc) x a.a 32 (ls.map fun l => (l, 0))) [] none :=
  if_pos late

/-- A wait that writes nothing, where its condition holds. -/
theorem waitOnly_of_acquire {cond : State → Ix → Prop} {body : Ix → List Nat → State → Res} (runs : ∀ s, exec i s = vamer i a false body s)
    (waits : ∀ s x, cond s x → body x (enabled x a) s = withAcquireLoad x sc (countClamp s x.ctx sc) fun s => .done s [] none) :
    WaitOnly i a sc .zero true cond fun _ _ => none := by
  intro _ s x t v u h holds may
  exact waitOnly_of_exec ((runs s).trans (vamer_done h false _ ((waits _ x holds).trans (acquiring_done rfl may)))) (RegsOnly.refl _)

/-- The deadline of a timed wait has come (R247). -/
abbrev isLate (t : State) (x : Ix) (a : Args) (o : Operand) : Prop :=
  x.fr.deadline.getD (t.rtime + rtCap (srcI t x a 32 o ((enabled x a).headD 0))) ≤ t.rtime

/-- A timed wait has the frame of a wait with either result. -/
theorem timed_frames {time : Operand} {cond : State → Ix → Prop} {left : State → Ix → Bool} {body : Ix → List Nat → State → Res}
    (runs : ∀ s, exec i s = vamer i a false body s)
    (waits : ∀ s x, cond s x → body x (enabled x a) s =
      timedResult a sc (srcI s x a 32 time ((enabled x a).headD 0)) (left s x) x (enabled x a) s) :
    WaitOnly i a sc a.a true (fun t x => cond t x ∧ left t x = true) (fun _ _ => some fun _ => 1) ∧
    WaitOnly i a sc a.a false (fun t x => cond t x ∧ left t x = false ∧ isLate t x a time) (fun _ _ => some fun _ => 0) := by
  constructor
  · intro noSr s x t v u h ⟨holds, gone⟩ may
    have timed := waits (drawn i a s x) x holds
    rw [gone] at timed
    exact waitOnly_of_exec ((runs s).trans (vamer_done h false _ (timed.trans (timedResult_left may)))) (wr_regsOnly _ noSr _ (mem_lanes _ _))
  · intro noSr s x t v u h ⟨holds, stays, late⟩ _
    have timed := waits (drawn i a s x) x holds
    rw [stays] at timed
    exact waitOnly_of_exec ((runs s).trans (vamer_done h false _ (timed.trans (timedResult_late late)))) (wr_regsOnly _ noSr _ (mem_lanes _ _))

/-- A barrier object that fits and is unpoisoned is read (R251). -/
theorem onObject_ok {form : TailForm} {ls : List Nat} (f : Nat → MbObj → Res) (aligned : offVa s x a form (ls.headD 0) % 16 = 0)
    (inside : offVa s x a form (ls.headD 0) + 16 ≤ x.tr.scratch) (whole : mbPoison x.tr x.rank (offVa s x a form (ls.headD 0)) = false) :
    onObject a form x ls s f = f (offVa s x a form (ls.headD 0)) (mbGet x.tr x.rank (offVa s x a form (ls.headD 0))) := by
  simp only [onObject, orTrap, ne_eq, aligned, not_true_eq_false, if_false, Nat.not_lt.mpr inside, whole, Bool.false_eq_true]

/-- The object of an instruction fits and is unpoisoned (R249, R251). -/
def ObjectSound (t : State) (x : Ix) (a : Args) (form : TailForm) : Prop :=
  let off := offVa t x a form ((enabled x a).headD 0)
  off % 16 = 0 ∧ off + 16 ≤ x.tr.scratch ∧ mbPoison x.tr x.rank off = false

theorem onObject_sound {form : TailForm} (f : Nat → MbObj → Res) (h : ObjectSound s x a form) :
    onObject a form x (enabled x a) s f =
      f (offVa s x a form ((enabled x a).headD 0)) (mbGet x.tr x.rank (offVa s x a form ((enabled x a).headD 0))) :=
  onObject_ok f h.1 h.2.1 h.2.2

/-- The phase of an object has left the tokens of some lanes. -/
abbrev objectLeft (t : State) (x : Ix) (a : Args) (form : TailForm) (ls : List Nat) : Bool :=
  phaseLeft t x a a.c 16 (mbGet x.tr x.rank (offVa t x a form ((enabled x a).headD 0))).ph ls

/-- MBTRY gives each lane whether the phase has left its token, and acquires where it has left one (R251). -/
theorem mbtry_frame (sc : Scope) (a : Args) (acq : Bool) : WaitOnly (.mbtry sc a) a sc a.a acq
    (fun t x => ObjectSound t x a .disp ∧ acq = (enabled x a).any fun l => objectLeft t x a .disp [l])
    fun t x => some fun l => if objectLeft t x a .disp [l] then 1 else 0 := by
  intro noSr s x t v u h ⟨sound, acquires⟩ may
  refine waitOnly_of_exec (u := u) (vamer_done h false _ ?_) (wr_regsOnly v noSr _ (mem_lanes _ _))
  rw [onObject_sound _ sound]
  have some_left : (((enabled x a).map fun l => (l, if objectLeft (drawn (.mbtry sc a) a s x) x a .disp [l] then 1 else 0)).any
      fun r => r.2 = 1) = acq := by
    rw [acquires, List.any_map]
    refine congrArg (List.any (enabled x a)) (funext fun l => ?_)
    cases e : objectLeft (drawn (.mbtry sc a) a s x) x a .disp [l] <;> simp [e]
  dsimp only
  rw [some_left]
  exact orderedAcquire_done (body := fun s => .done (wr s x a.a 32 _) [] none) rfl may

end

end Sys2Proof.Machine

namespace Sys2Proof.Machine

open Sys2Proof

/-! ### Arrivals (R244, R248) -/

section

variable {x : Ix} {s t z : State} {ls : List Nat} {o : Operand} {b : Nat}

theorem OneBarrier.trans (h : OneBarrier b x s t) (k : OneBarrier b x t z) : OneBarrier b x s z := by
  obtain ⟨lbars, rests, bars⟩ := h
  obtain ⟨lbars', rests', bars'⟩ := k
  exact ⟨lbars'.trans lbars, fun n e => (rests' n e).trans (rests n e), fun j e => (bars' j e).trans (bars j e)⟩

theorem OneBarrier.of_regs (h : RegsOnly x ls o 32 none s t) : OneBarrier b x s t :=
  ⟨h.lbars, fun n _ => h.rests n, fun j _ => h.bars x.ref.train j⟩

theorem lbarOf_congr (h : t.lbars = s.lbars) (j : Nat) : lbarOf t j = lbarOf s j := by
  unfold lbarOf
  rw [h]

/-- The launch of a train does not depend on its coaches. -/
theorem launch_of_rests (rests : ∀ k, (mget t.trains k).map Train.rest = (mget s.trains k).map Train.rest) (k : Nat) :
    (mget t.trains k).map lbarKey = (mget s.trains k).map lbarKey := by
  have := congrArg (Option.map lbarKey) (rests k)
  rwa [Option.map_map, Option.map_map] at this

theorem OneLaunch.trans (h : OneLaunch x s t) (k : OneLaunch x t z) : OneLaunch x s z := by
  obtain ⟨rests, lbars⟩ := h
  obtain ⟨rests', lbars'⟩ := k
  refine ⟨fun n => (rests' n).trans (rests n), fun tr htr j own home => ?_⟩
  have launch := launch_of_rests rests x.ref.train
  rw [htr] at launch
  obtain ⟨tr', htr', same⟩ := Option.map_eq_some_iff.mp launch
  exact (lbars' tr' htr' j (same ▸ own) home).trans (lbars tr htr j own home)

theorem OneLaunch.of_regs (h : RegsOnly x ls o 32 none s t) : OneLaunch x s t :=
  ⟨h.rests, fun _ _ j _ _ => lbarOf_congr h.lbars j⟩

/-- An arrival at a train barrier changes that one alone (R244). -/
theorem barArrive_oneBarrier (s : State) (x : Ix) (b c : Nat) (ls : List Nat) : OneBarrier b x s (barArrive s x b c ls) := by
  have arrives := barArrive_trains s x b c ls
  refine ⟨?_, fun k other => arrives.full k (if_neg other), fun j other => arrives.bars x.ref.train j ?_⟩
  · unfold barArrive
    split
    · exact (modTrain_lbars ..).trans (modCoach_lbars ..)
    · exact modTrain_lbars ..
  · rw [if_pos rfl]
    exact fun e => other (Option.some.inj e).symm

/-- What an arrival of some lanes at a launch's barrier does (R248). -/
def launchArrive (s : State) (x : Ix) (ls : List Nat) : State :=
  testLaunch (arriveLaunch (modCoach s x.ref.train x.ref.coach (setArrived 16 ls)) x.ref.train) (lbarKey x.tr)

theorem launchArrive_trains (s : State) (x : Ix) (ls : List Nat) : TrainsArrive (fun _ => none) s (launchArrive s x ls) :=
  (modCoach_trainsArrive _ s _ _ _ (setArrived_same 16 ls)).trans ((arriveLaunch_trains ..).trans (testLaunch_trains ..))

theorem launchArrive_oneLaunch (s : State) (x : Ix) (ls : List Nat) : OneLaunch x s (launchArrive s x ls) := by
  refine ⟨fun k => (launchArrive_trains s x ls).full k rfl, fun tr htr j own home => ?_⟩
  have marked := modCoach_trainsArrive (fun _ => none) s x.ref.train x.ref.coach _ (setArrived_same 16 ls)
  have launch := launch_of_rests (fun k => marked.full k rfl) x.ref.train
  refine (testLaunch_lbars _ _ j home).trans ((arriveLaunch_lbars _ _ j fun tr' htr' => ?_).trans ?_)
  · rw [htr, htr'] at launch
    exact Option.some.inj launch ▸ own
  · exact lbarOf_congr (modCoach_lbars ..) j

/-- An arrival that changes barriers as `more` says, and then its destination, has the frame of one. -/
theorem arriveOnly_of_exec {more : Ix → State → State → Prop} {i : Instr} {a : Args} {v w : State} {tok : Nat} {pc : Word64}
    {keep : Frag → Frag} {yld : Bool} (noSr : ∀ j, a.a ≠ .sr j)
    (of_regs : ∀ {s t}, RegsOnly x (enabled x a) a.a 32 none s t → more x s t) (trans : ∀ {s t z}, more x s t → more x t z → more x s z)
    (done : exec i s = .next (noteIssue (onwardAt (wr w x a.a 32 ((enabled x a).map fun l => (l, tok))) x pc keep) x i a yld))
    (arrives : ArrivalOnly x (enabled x a) a.a v w) (changes : more x v w) :
    ∃ z, exec i s = .next z ∧ ArrivalOnly x (enabled x a) a.a v z ∧ more x v z ∧
      (v = drawn i a s x → ArrivalOnly x (enabled x a) a.a s z ∧ more x s z) := by
  have rest : RegsOnly x (enabled x a) a.a 32 none w
      (noteIssue (onwardAt (wr w x a.a 32 ((enabled x a).map fun l => (l, tok))) x pc keep) x i a yld) :=
    (wr_regsOnly w noSr _ (mem_lanes _ _)).trans (onward_regsOnly ..)
  have after := arrives.trans rest.arrival
  have more_after := trans changes (of_regs rest)
  refine ⟨_, done, after, more_after, fun e => ?_⟩
  have drew : RegsOnly x (enabled x a) a.a 32 none s v := e ▸ drawn_regsOnly i a s x
  exact ⟨drew.arrival.trans after, trans (of_regs drew) more_after⟩

end

/-- BAR and BARA whose count agrees arrive after their release, and then wait or go on (R244, R246). -/
theorem barBody_goOn {a : Args} {sc : Scope} {n : Nat} {stay : Bool} {x : Ix} {ls : List Nat} {s : State}
    (counts : barCheck x n (srcI s x a 32 a.c (ls.headD 0)) ls = true) (may : canRelease x sc (countClamp s x.ctx sc) = true) :
    let token := (x.tr.barrier n).ph
    barBody a sc n stay x ls s = .goOn (wr (barArrive (released x sc (countClamp s x.ctx sc)) x n (srcI s x a 32 a.c (ls.headD 0)) ls)
      x a.a 32 (ls.map fun l => (l, token.toNat))) false fun f => if stay then { f with bar := some (false, n, token, sc) } else f := by
  unfold barBody
  dsimp only
  rw [counts]
  exact (if_neg Bool.false_ne_true).trans (withRelease_ok x sc _ _ may)

/-- GBAR of a flagged launch at which none of its lanes has arrived arrives there after its release (R248). -/
theorem gbar_completes {sy nw : Bool} {a : Args} {s : State} {x : Ix} (h : Issues (.gbar sy nw a) a s x) (flagged : x.tr.gbar = true)
    (absent : (enabled x a).any (fun l => ((mget x.co.lanes l).map (·.arrived.getLsbD 16)).getD false) = false) :
    let sc := gbarScope sy
    let v := released x sc (countClamp (drawn (.gbar sy nw a) a s x) x.ctx sc)
    let token := (lbarOf v (lbarKey x.tr)).ph
    canRelease x sc (countClamp (drawn (.gbar sy nw a) a s x) x.ctx sc) = true →
    exec (.gbar sy nw a) s = .next (noteIssue (onwardAt (wr (launchArrive v x (enabled x a)) x a.a 32
      ((enabled x a).map fun l => (l, token.toNat))) x (x.fr.pc + 12)
      fun f => if nw then f else { f with bar := some (true, 0, token, sc) }) x (.gbar sy nw a) a (a.yld || false)) := by
  intro sc v token may
  refine vamer_goOn h false _ ?_
  dsimp only
  rw [flagged, absent]
  exact (if_neg Bool.false_ne_true).trans ((if_neg Bool.false_ne_true).trans (withRelease_ok x sc _ _ may))

theorem barBody_frame {i : Instr} {sc : Scope} {n : Nat} {stay : Bool} {a : Args}
    (runs : ∀ s, exec i s = vamer i a false (barBody a sc n stay) s) :
    ArriveOnly i a sc (fun t x => barCheck x n (srcI t x a 32 a.c ((enabled x a).headD 0)) (enabled x a) = true) (OneBarrier n) := by
  intro noSr s x t v h counts may
  exact arriveOnly_of_exec noSr (fun h => .of_regs h) (fun h k => h.trans k)
    ((runs s).trans (vamer_goOn h false _ (barBody_goOn counts may))) (barArrive_trains ..).arrival (barArrive_oneBarrier ..)

theorem gbar_frame (sy nw : Bool) (a : Args) : ArriveOnly (.gbar sy nw a) a (gbarScope sy) (fun _ x => x.tr.gbar = true ∧
    (enabled x a).any (fun l => ((mget x.co.lanes l).map (·.arrived.getLsbD 16)).getD false) = false) OneLaunch := by
  intro noSr s x t v h ⟨flagged, absent⟩ may
  exact arriveOnly_of_exec noSr (fun h => .of_regs h) (fun h k => h.trans k) (gbar_completes h flagged absent may)
    (launchArrive_trains ..).arrival (launchArrive_oneLaunch ..)

/-! ### Barrier objects (R249, R251) -/

/-- An instruction that changes registers and bytes of its object alone has the frame of one. -/
theorem objectOnly_of_exec {i : Instr} {a : Args} {x : Ix} {s v u : State} {o : Operand} {p : Nat → Prop}
    (done : exec i s = .next (through i u x a)) (change : ScratchOnly x (enabled x a) o 32 x.rank p v u) :
    ∃ z, exec i s = .next z ∧ ScratchOnly x (enabled x a) o 32 x.rank p v z ∧
      (v = drawn i a s x → ScratchOnly x (enabled x a) o 32 x.rank p s z) := by
  have after : ScratchOnly x (enabled x a) o 32 x.rank p v (through i u x a) := change.trans (through_scratchOnly i u x a ..)
  exact ⟨_, done, after, fun e => (drawn_scratchOnly i a s x ..).trans (e ▸ after)⟩

theorem mbinit_frame (a : Args) : ObjectOnly (.mbinit a) a .zero none fun t x _ =>
    1 ≤ srcI t x a 32 a.c ((enabled x a).headD 0) ∧ srcI t x a 32 a.c ((enabled x a).headD 0) ≤ 65535 := by
  intro noSr s x t off v only h aligned inside ⟨low, high⟩ _
  refine objectOnly_of_exec (vamer_done h false _ ?_) (mbPut_only v x off fun _ =>
    ⟨0, 0, srcI t x a 32 a.c ((enabled x a).headD 0), srcI t x a 32 a.c ((enabled x a).headD 0), 0⟩)
  have counts : (decide (srcI t x a 32 a.c ((enabled x a).headD 0) = 0) || decide (srcI t x a 32 a.c ((enabled x a).headD 0) > 65535)) = false := by
    simp only [Bool.or_eq_false_iff, decide_eq_false_iff_not]
    omega
  exact (if_neg (not_not_intro aligned)).trans ((if_neg (Nat.not_lt.mpr inside)).trans (if_neg (Bool.not_eq_true _ ▸ counts)))

/-- An arrival at an object, after its release, gives the phase as a token (R251). -/
theorem objectArrive_frame {i : Instr} {a : Args} {sc : Scope} (g : State → Ix → MbObj → MbObj) {body : Ix → List Nat → State → Res}
    (runs : ∀ s, exec i s = vamer i a false body s)
    (arrives : ∀ s x, body x (enabled x a) s = onObject a .disp x (enabled x a) s fun o b =>
      if b.init = 0 then .trap (trapOf cMB_STATE)
      else withRelease x sc (countClamp s x.ctx sc) fun t =>
        .done (giveToken (modMb t x.ref.train x.rank o (g s x)) x a.a b.ph (enabled x a)) [] none) :
    ObjectOnly i a a.a (some sc) fun _ x off => mbPoison x.tr x.rank off = false ∧ (mbGet x.tr x.rank off).init ≠ 0 := by
  intro noSr s x t off v only h aligned inside ⟨whole, ready⟩ may
  refine objectOnly_of_exec ((runs s).trans (vamer_done h false _ ?_))
    ((modMb_only v x off (g t x)).trans (wr_scratchOnly _ x x.rank _ noSr _ (mem_lanes _ fun _ => (mbGet x.tr x.rank off).ph)))
  rw [arrives, onObject_ok _ aligned inside whole, if_neg ready]
  exact withRelease_ok x sc _ _ (may sc rfl)

theorem mbexp_frame (sc : Scope) (a : Args) : ObjectOnly (.mbexp sc false a) a .zero none fun _ x off => mbPoison x.tr x.rank off = false := by
  intro noSr s x t off v only h aligned inside whole _
  refine objectOnly_of_exec (vamer_done h false _ ?_)
    (modMb_only v x off fun b => b.expect (srcI t x a 32 a.c ((enabled x a).headD 0)))
  rw [onObject_ok _ aligned inside whole]
  rfl

/-- Settles O48: the frames of the four families. -/
theorem syncFrame : Obligations.SyncFrame := by
  unfold Obligations.SyncFrame
  obtain ⟨ckfill, ckseed, ckred, ckdraw, ckpeek, cktry, cktryEmpty, ckclr, ckstat⟩ := cask_frames
  refine ⟨ckfill, ckseed, ckred, ckdraw, ckpeek, cktry, cktryEmpty, ckclr, ckstat, ?barw, ?bart, ?gbart, ?mbwait, mbtry_frame, ?mbtw,
    ?bar, ?bara, gbar_frame, mbinit_frame, ?mbarr, mbexp_frame, ?mbexpArr⟩
  case barw => exact fun sc n a => waitOnly_of_acquire (fun _ => rfl) fun s x left => if_pos left
  case bart => exact fun sc n a => timed_frames (fun _ => rfl) fun s x _ => rfl
  case gbart =>
    refine fun sy a => timed_frames (fun _ => rfl) fun s x flagged => ?_
    rw [flagged]
    rfl
  case mbwait =>
    refine fun sc a => waitOnly_of_acquire (fun _ => rfl) fun s x ⟨sound, left⟩ => ?_
    exact (onObject_sound _ sound).trans (if_pos left)
  case mbtw => exact fun sc a => timed_frames (fun _ => rfl) fun s x sound => onObject_sound _ sound
  case bar | bara => exact fun sc n a => barBody_frame fun _ => rfl
  case mbarr =>
    exact fun sc u a => objectArrive_frame (fun _ x b => b.arrive (if u then 1 else (enabled x a).length)) (fun _ => rfl) fun _ _ => rfl
  case mbexpArr =>
    exact fun sc a => objectArrive_frame (fun s x b => (b.expect (srcI s x a 32 a.c ((enabled x a).headD 0))).arrive 1)
      (fun _ => rfl) fun _ _ => rfl

end Sys2Proof.Machine

namespace Sys2Proof.Machine

open Sys2Proof

/-! ## O17: the atomics of class 0x7 complete

The atomics at the home run one body on their lanes (`atomAccess`), ATOMU and REDU in their lowest lane, after the release and the acquire
of their order; those in a scratchpad run theirs (`scrAtomicBody`) after a release. -/

/-! ### The order of an atomic (R203, R222) -/

section

/-- An ordered atomic has counted a clamped scope. -/
abbrev atomCounted (m : AtomMod) (x : Ix) (s : State) : State := clampIf (m.ord ≠ .relaxed) m.sc x s

/-- It has released, and performs its accesses at once where it acquires. -/
abbrev atomReleased (m : AtomMod) (x : Ix) (s : State) : State :=
  atOnce (ordAcquires m.ord) (relStart (ordReleases m.ord) m.sc x (atomCounted m x s))

/-- It has acquired: the state in which its lanes translate. -/
abbrev atomStart (m : AtomMod) (x : Ix) (s : State) : State := acqStart (ordAcquires m.ord) m.sc x (atomReleased m x s)

/-- When its release and its acquire may be done, its accesses leaving `u`. -/
abbrev atomMay (m : AtomMod) (x : Ix) (s u : State) : Prop :=
  relMay (ordReleases m.ord) m.sc x (atomCounted m x s) ∧ acqMay (ordAcquires m.ord) m.sc x (atomReleased m x s) u

variable {m : AtomMod} {x : Ix} {s u : State}

theorem atomCounted_eq (m : AtomMod) (x : Ix) (s : State) :
    (if m.ord = .relaxed then s else countClamp s x.ctx m.sc) = atomCounted m x s := by
  by_cases relaxed : m.ord = .relaxed <;> simp [clampIf, relaxed]

theorem acquire_atOnce (ord : Bool) (sc : Scope) (x : Ix) (s : State) (body : State → Res) :
    (if ord then withAcquireLoad x sc { s with defer := false } body else body s) =
      if ord then withAcquireLoad x sc (atOnce ord s) body else body (atOnce ord s) := by
  cases ord <;> rfl

/-- An atomic does in the state that its order leaves what its body does. -/
theorem atomOrder_done (body : State → Res) (may : atomMay m x s u) (done : body (atomStart m x s) = .done u [] none) :
    atomOrder x m s body = .done u [] none := by
  unfold atomOrder
  dsimp only
  rw [atomCounted_eq, orderedRelease_eq _ may.1, acquire_atOnce]
  exact orderedAcquire_done done may.2

end

/-! ### At the home (R220, R221, R229, R230) -/

/-- The bytes of an atomic's location. -/
abbrev atomBytes (m : AtomMod) : Nat := if m.w64 then 8 else 4

/-- The addresses of some lanes of an atomic at the home. -/
abbrev atomPlaces (a : Args) (form : TailForm) (x : Ix) (ls : List Nat) (s : State) : List (Nat × Nat) :=
  ls.map fun l => (l, atomVa s x a form l)

/-- What an atomic at the home does at the places of some lanes once it is ordered, each lane with its step (R208, R221). -/
def atomAccess (i : Instr) (m : AtomMod) (dst : Option Operand) (first : Nat) (step : Nat → LStep) (x : Ix) (as : List (Nat × Nat))
    (s : State) : Res :=
  globalAccess x .atomic (atomBytes m) true true true (fun _ _ => false) as
    (fun t as => atomLanes x m (encodeVamer i) dst first step t as) s

/-- The steps of lanes that have been reached, and whether they trap. -/
abbrev atomSteps (i : Instr) (m : AtomMod) (dst : Option Operand) (first : Nat) (step : Nat → LStep) (x : Ix) (as : List (Nat × Nat))
    (s : State) : State × Option Trap :=
  atomLanes x m (encodeVamer i) dst first step (reached x .atomic (atomBytes m) true as s) (accesses x .atomic as s)

section

variable {i : Instr} {m : AtomMod} {a : Args} {dst : Option Operand} {x : Ix} {ls : List Nat} {s : State}

/-- Where the lanes of an atomic translate and its turn has come, their steps are performed. -/
theorem atomAccess_done {first : Nat} {step : Nat → LStep} {as : List (Nat × Nat)}
    (reach : Reaches x .atomic (atomBytes m) true true (fun _ _ => false) as s) (turn : InTurn x .atomic (atomBytes m) true as s)
    (fine : (atomSteps i m dst first step x as s).2 = none) :
    atomAccess i m dst first step x as s = .done (atomSteps i m dst first step x as s).1 [] none :=
  (globalAccess_ok reach turn _).trans (congrArg (Res.done _ []) fine)

/-- ATOM, ATOMC and RED perform the steps of all their lanes (R229). -/
theorem atomBody_done {cas : Bool} :
    let t := atomStart m x s
    let as := atomPlaces a (if cas then .d else .disp) x ls t
    let u := atomSteps i m dst (ls.headD 0) (laneStep t x a (8 * atomBytes m) cas) x as t
    Reaches x .atomic (atomBytes m) true true (fun _ _ => false) as t → InTurn x .atomic (atomBytes m) true as t → u.2 = none →
    atomMay m x s u.1 → atomBody i m a cas dst x ls s = .done u.1 [] none := by
  intro t as u reach turn fine may
  exact atomOrder_done (fun t => atomAccess i m dst (ls.headD 0) (laneStep t x a (8 * atomBytes m) cas) x
    (atomPlaces a (if cas then .d else .disp) x ls t) t) may (atomAccess_done reach turn fine)

/-- ATOMU and REDU perform one step, at the address of the lowest lane (R230). -/
theorem atomOne_done {val : State → Nat} :
    let t := atomStart m x s
    let as := atomPlaces a .disp x [ls.headD 0] t
    let u := atomSteps i m dst (ls.headD 0) (fun l => ⟨l, none, val s⟩) x as t
    Reaches x .atomic (atomBytes m) true true (fun _ _ => false) as t → InTurn x .atomic (atomBytes m) true as t → u.2 = none →
    atomMay m x s u.1 → atomOne i m a dst val x ls s = .done u.1 [] none := by
  intro t as u reach turn fine may
  exact atomOrder_done (fun t => lduSpread ls (atomAccess i m dst (ls.headD 0) (fun l => ⟨l, none, val s⟩) x
    (atomPlaces a .disp x [ls.headD 0] t) t)) may (congrArg (lduSpread ls) (atomAccess_done reach turn fine))

end

/-! ### In a scratchpad (R224) -/

/-- The old values that some steps have found go to the destination, if there is one (R229). -/
def giveOld (dst : Option Operand) (x : Ix) (bits first : Nat) (old : List (Nat × Nat)) (s : State) : State :=
  match dst with
  | some o => wrFirst s x o bits first old
  | none => s

/-- What an atomic in a scratchpad does once it has released. -/
def scrAtomicBody (m : AtomMod) (dst : Option Operand) (first : Nat) (as : List (Nat × Nat)) (ks : List (Nat × LStep)) (x : Ix)
    (s : State) : Res :=
  afterScr x x.rank (atomBytes m) as s fun s =>
    let r := scrAtomics (countRank s x x.rank (atomBytes m) as) x m ks
    .done (giveOld dst x (8 * atomBytes m) first r.1 r.2.2) [] (if r.2.1.isEmpty then none else some (trapAt cDATA_POISON (maskOf r.2.1) 0))

section

variable {m : AtomMod} {dst : Option Operand} {x : Ix} {s : State}

/-- The steps of a scratchpad atomic are performed once its turn has come, where they read no poison (R200, R224). -/
theorem scrAtomicBody_done {first : Nat} {as : List (Nat × Nat)} {ks : List (Nat × LStep)} (turn : ScrInTurn x x.rank (atomBytes m) as s) :
    let r := scrAtomics (scrReached x x.rank (atomBytes m) as s) x m ks
    r.2.1 = [] → scrAtomicBody m dst first as ks x s = .done (giveOld dst x (8 * atomBytes m) first r.1 r.2.2) [] none := by
  intro r clean
  exact (afterScr_ok turn _).trans (congrArg (Res.done _ []) (if_pos (List.isEmpty_iff.mpr clean)))

/-- An atomic in a scratchpad whose offsets are good runs its body after its release (R208, R222). -/
theorem atomScratch_eq {a : Args} {cas : Bool} {ls : List Nat} :
    let as := ls.map fun l => (l, offVa s x a (if cas then .d else .disp) l)
    let ks := as.map fun e => (e.2, laneStep s x a (8 * atomBytes m) cas e.1)
    preCheck as (atomBytes m) (fun o => o + atomBytes m ≤ x.tr.scratch) = none →
    (as.any fun e => rangeBusy s x.core x.ref.train e.2 (atomBytes m)) = false → relMay (ordReleases m.ord) .cl x s →
    atomScratch m a cas dst x ls s = scrAtomicBody m dst (ls.headD 0) as ks x (relStart (ordReleases m.ord) .cl x s) := by
  intro as ks pre free may
  unfold atomScratch
  dsimp only
  rw [pre, free]
  exact orderedRelease_eq (scrAtomicBody m dst (ls.headD 0) as ks x) may

end

/-- Settles O17: each atomic runs its body after its release and its acquire, where it has them. -/
theorem atomicComplete : Obligations.AtomicComplete := by
  unfold Obligations.AtomicComplete
  refine ⟨?atom, ?atomc, ?red, ?atomu, ?redu, ?atoms, ?atomsc, ?reds⟩
  case atom | atomc | red =>
    intro m a s x t0 t1 t as u h reach turn fine rel acq
    exact vamer_done h false _ (atomBody_done reach turn fine ⟨rel, acq⟩)
  case atomu | redu =>
    intro m a s x t0 t1 t as u h reach turn fine rel acq
    exact vamer_done h false _ (atomOne_done reach turn fine ⟨rel, acq⟩)
  case atoms | atomsc | reds =>
    intro m a s x t as ks u r h pre free rel turn clean
    exact vamer_done h false _ ((atomScratch_eq pre free rel).trans (scrAtomicBody_done turn clean))

end Sys2Proof.Machine

namespace Sys2Proof.Machine

open Sys2Proof

/-! ## O47: the frame of the atomics

Of the states that O17 gives: `atomLanes_changed` and `scrAtomics_only` bound what the steps change. -/

/-- A byte of some lane's location, or of a step queued at one of those before (R221). -/
abbrev atomStored (n : Nat) (bs : List LAcc) (v : State) (ma : Nat) : Prop :=
  (∃ b ∈ bs, b.ma ≤ ma ∧ ma < b.ma + n) ∨ ∃ q ∈ queuedAt v bs n, q.ma ≤ ma ∧ ma < q.ma + if q.w64 then 8 else 4

/-- The steps at a place change the bytes that `p` selects there, and the words that hold one. -/
theorem stepsIn_of_bytes {p : Nat → Prop} {ma n : Nat} (bytes : ∀ j, ma ≤ j → j < ma + n → p j) : StepsIn p (wordsHolding p) ma n :=
  ⟨bytes, wordsOf_holding bytes⟩

section

variable {i : Instr} {m : AtomMod} {a : Args} {dst : Option Operand} {x : Ix} {s : State} {first : Nat} {step : Nat → LStep}

/-- The steps of lanes at the home, performed at once or all left in their queues, change those bytes and the destination. -/
theorem atomLanes_changed_stored {word : Word96} {v : State} {bs : List LAcc} (noSr : ∀ k, dst ≠ some (.sr k))
    (lanes : ∀ b ∈ bs, b.lane ∈ enabled x a)
    (whole : v.defer = true ∨ stepsFree (if v.defer then v else (queuedAt v bs (atomBytes m)).foldl tryStep v) x bs (atomBytes m) = true) :
    Changed x (atomStored (atomBytes m) bs v) (wordsHolding (atomStored (atomBytes m) bs v)) (fun _ => False) (enabled x a)
      (dst.getD .zero) (8 * atomBytes m) v (atomLanes x m word dst first step v bs).1 := by
  refine atomLanes_changed x m word dst first step v bs _ noSr lanes (fun b hb => ?_) (fun q hq => ?_) whole
  · exact stepsIn_of_bytes fun j low high => .inl ⟨b, hb, low, high⟩
  · exact stepsIn_of_bytes fun j low high => .inr ⟨q, hq, low, high⟩

/-- The lowest lane's access is an enabled lane's. -/
theorem accesses_lowest_mem (h : Issues i a s x) {acc : Access} {va : Nat → Nat} {t : State} {b : LAcc}
    (hb : b ∈ accesses x acc ([(enabled x a).headD 0].map fun l => (l, va l)) t) : b.lane ∈ enabled x a := by
  have lowest : b.lane ∈ [(enabled x a).headD 0] := accesses_lane_mem hb
  rw [List.mem_singleton.mp lowest]
  exact lowest_enabled h

theorem giveOld_scratchOnly {rank bits : Nat} {p : Nat → Prop} {ls : List Nat} {old : List (Nat × Nat)} (noSr : ∀ k, dst ≠ some (.sr k))
    (lanes : ∀ e ∈ old, e.1 ∈ ls) : ScratchOnly x ls (dst.getD .zero) bits rank p s (giveOld dst x bits first old s) := by
  cases dst with
  | none => exact ScratchOnly.refl ..
  | some o => exact wrFirst_scratchOnly s x rank p first (fun k e => noSr k (congrArg some e)) old lanes

/-- An atomic in a scratchpad changes its lanes' locations and its destination, from the state in which it is performed (R224). -/
theorem scratchOnly_of_atomic {off : Nat → Nat} {ks : Nat → LStep} (noSr : ∀ k, dst ≠ some (.sr k)) (own : ∀ l, (ks l).lane = l) :
    let as := (enabled x a).map fun l => (l, off l)
    let v := scrFollowed x x.rank (atomBytes m) as (relStart (ordReleases m.ord) .cl x (drawn i a s x))
    let r := scrAtomics (countRank v x x.rank (atomBytes m) as) x m (as.map fun e => (e.2, ks e.1))
    let only := ScratchOnly x (enabled x a) (dst.getD .zero) (8 * atomBytes m) x.rank fun j => ∃ e ∈ as, e.2 ≤ j ∧ j < e.2 + atomBytes m
    exec i s = .next (through i (giveOld dst x (8 * atomBytes m) ((enabled x a).headD 0) r.1 r.2.2) x a) →
    ∃ z, exec i s = .next z ∧ only v z ∧ (v = drawn i a s x → only s z) := by
  intro as v r only done
  obtain ⟨steps, found⟩ : only (countRank v x x.rank (atomBytes m) as) r.2.2 ∧
      ∀ e ∈ r.1, ∃ k ∈ as.map fun e => (e.2, ks e.1), k.2.lane = e.1 := by
    refine scrAtomics_only _ x m _ _ fun k hk j low high => ?_
    obtain ⟨e, he, rfl⟩ := List.mem_map.mp hk
    exact ⟨e, he, low, high⟩
  have lanes : ∀ e ∈ r.1, e.1 ∈ enabled x a := by
    intro e he
    obtain ⟨k, hk, lane⟩ := found e he
    obtain ⟨b, hb, rfl⟩ := List.mem_map.mp hk
    exact lane ▸ (own b.1).symm ▸ mem_lanes _ off b hb
  have after : only v (through i (giveOld dst x (8 * atomBytes m) ((enabled x a).headD 0) r.1 r.2.2) x a) :=
    (countRank_scratchOnly ..).trans (steps.trans ((giveOld_scratchOnly noSr lanes).trans (through_scratchOnly ..)))
  exact ⟨_, done, after, fun e => (drawn_scratchOnly i a s x ..).trans (e ▸ after)⟩

end

theorem laneStep_lane (s : State) (x : Ix) (a : Args) (bits : Nat) (cas : Bool) (l : Nat) : (laneStep s x a bits cas l).lane = l := by
  cases cas <;> rfl

/-- Settles O47: of the states that O17 gives. -/
theorem atomicFrame : Obligations.AtomicFrame := by
  unfold Obligations.AtomicFrame
  obtain ⟨atom, atomc, red, atomu, redu, atoms, atomsc, reds⟩ := atomicComplete
  refine ⟨?atom, ?atomc, ?red, ?atomu, ?redu, ?atoms, ?atomsc, ?reds⟩
  case atom =>
    intro m a noSr s x t0 t1 t as v bs u stored only h reach turn fine rel acq whole
    exact changed_of_exec (atom m a s x h reach turn fine rel acq) (atomLanes_changed_stored noSr (fun b hb => accesses_lane_mem hb) whole)
  case atomc =>
    intro m a noSr s x t0 t1 t as v bs u stored only h reach turn fine rel acq whole
    exact changed_of_exec (atomc m a s x h reach turn fine rel acq) (atomLanes_changed_stored noSr (fun b hb => accesses_lane_mem hb) whole)
  case red =>
    intro m a noSr s x t0 t1 t as v bs u stored only h reach turn fine rel acq whole
    exact changed_of_exec (red m a s x h reach turn fine rel acq) (atomLanes_changed_stored noSr (fun b hb => accesses_lane_mem hb) whole)
  case atomu =>
    intro m a noSr s x t0 t1 t as v bs u stored only h reach turn fine rel acq whole
    exact changed_of_exec (atomu m a s x h reach turn fine rel acq)
      (atomLanes_changed_stored noSr (fun b hb => accesses_lowest_mem h hb) whole)
  case redu =>
    intro m a noSr s x t0 t1 t as v bs u stored only h reach turn fine rel acq whole
    exact changed_of_exec (redu m a s x h reach turn fine rel acq)
      (atomLanes_changed_stored noSr (fun b hb => accesses_lowest_mem h hb) whole)
  case atoms =>
    intro m a noSr s x t as ks u v stored only h pre free rel turn clean
    exact scratchOnly_of_atomic noSr (laneStep_lane t x a _ false) (atoms m a s x h pre free rel turn clean)
  case atomsc =>
    intro m a noSr s x t as ks u v stored only h pre free rel turn clean
    exact scratchOnly_of_atomic noSr (laneStep_lane t x a _ true) (atomsc m a s x h pre free rel turn clean)
  case reds =>
    intro m a noSr s x t as ks u v stored only h pre free rel turn clean
    exact scratchOnly_of_atomic noSr (laneStep_lane t x a _ false) (reds m a s x h pre free rel turn clean)

end Sys2Proof.Machine

namespace Sys2Proof.Machine

open Sys2Proof

/-! ## O18, O19 and O20: casks, barriers, barrier objects and yoke declarations complete

What O48 needs of them says already what most of these instructions do (`releasing_done`, `ckdraw_completes`, `barBody_goOn`,
`timedResult_left`, `onObject_ok`). -/

/-- Settles O18: CKFILL and CKSEED change an empty target after their release; each of the others has a lemma of its own. -/
theorem caskComplete : Obligations.CaskComplete := by
  unfold Obligations.CaskComplete
  refine ⟨?ckfill, ?ckdraw, ?ckpeek, ?cktry, ?cktryEmpty, ?ckseed, ?ckred, ?ckclr, ?ckstat⟩
  case ckfill =>
    intro w n a s x k t h target ready may
    exact vamer_done h false _ (releasing_done _ target ready may)
  case ckdraw =>
    intro w a s x k t h target ready clean
    exact ckdraw_completes h target ready (by simpa using clean)
  case ckpeek =>
    intro w a s x k t h target ready clean
    exact ckpeek_completes h target ready (by simpa using clean)
  case cktry =>
    intro w obs pd a s x k t h target ready ok
    obtain ⟨full, clean⟩ : (caskGet t x.cluster k).f = true ∧ (caskGet t x.cluster k).poison = false := by simpa using ok
    exact cktry_full h target full ready clean
  case cktryEmpty =>
    intro w obs pd a s x k t h target empty
    exact cktry_empty h target empty
  case ckseed =>
    intro op a s x k t h target ready ok
    obtain ⟨may, small⟩ := (Bool.and_eq_true _ _).mp ok
    have fits : ¬ srcI t x a 32 a.c ((enabled x a).headD 0) > 255 := Nat.not_lt.mpr (of_decide_eq_true small)
    exact vamer_done h false _ ((if_neg fits).trans (releasing_done _ target ready may))
  case ckred =>
    intro op w a s x k t h target ready ok
    obtain ⟨⟨may, same⟩, clean⟩ : (canRelease x .cl t = true ∧ (caskGet t x.cluster k).gop = op) ∧
      (caskGet t x.cluster k).poison = false := by simpa using ok
    exact ckred_completes h target ready may same clean
  case ckclr =>
    intro a s x k t h target
    exact ckclr_completes h target
  case ckstat =>
    intro a s x k t h target
    exact ckstat_completes h target

section

variable {i : Instr} {a : Args} {sc : Scope} {s : State} {x : Ix}

/-- A timed wait that issues completes where its condition holds and its acquire may be done, or at its deadline (R247). -/
theorem timed_completes {left : Bool} {time : Operand} {body : Ix → List Nat → State → Res} (h : Issues i a s x)
    (runs : exec i s = vamer i a false body s)
    (waits : body x (enabled x a) (drawn i a s x) = timedResult a sc (srcI (drawn i a s x) x a 32 time ((enabled x a).headD 0)) left x
      (enabled x a) (drawn i a s x)) :
    let t := countClamp (drawn i a s x) x.ctx sc
    let res (v : State) (r : Nat) : State := wr v x a.a 32 ((enabled x a).map fun l => (l, r))
    (left = true → acqMay true sc x t (res (acqStart true sc x t) 1) → exec i s = .next (through i (res (acqStart true sc x t) 1) x a)) ∧
    (left = false → isLate (drawn i a s x) x a time → exec i s = .next (through i (res t 0) x a)) := by
  refine ⟨fun gone may => ?_, fun stays late => ?_⟩
  · subst gone
    exact runs.trans (vamer_done h false _ (waits.trans (timedResult_left may)))
  · subst stays
    exact runs.trans (vamer_done h false _ (waits.trans (timedResult_late late)))

/-- BAR and BARA arrive after their release, and then wait or go on (R244, R246). -/
theorem bar_completes {n : Nat} {stay : Bool} (h : Issues i a s x) (runs : exec i s = vamer i a false (barBody a sc n stay) s) :
    let t0 := drawn i a s x
    let t := countClamp t0 x.ctx sc
    let c := srcI t0 x a 32 a.c ((enabled x a).headD 0)
    let token := (x.tr.barrier n).ph
    barCheck x n c (enabled x a) = true → canRelease x sc t = true →
    exec i s = .next (noteIssue (onwardAt
      (wr (barArrive (released x sc t) x n c (enabled x a)) x a.a 32 ((enabled x a).map fun l => (l, token.toNat))) x
      (x.fr.pc + 12) fun f => if stay then { f with bar := some (false, n, token, sc) } else f) x i a a.yld) := by
  intro t0 t c token counts may
  have goes := vamer_goOn h false (barBody a sc n stay) (barBody_goOn counts may)
  rw [Bool.or_false] at goes
  exact runs.trans goes

end

/-- Settles O19: the arrivals, the wait, and the timed waits. -/
theorem barrierComplete : Obligations.BarrierComplete := by
  unfold Obligations.BarrierComplete
  refine ⟨?bar, ?bara, ?barw, ?bart, ?gbar, ?gbart⟩
  case bar | bara =>
    intro sc n a s x t0 t c token h
    exact bar_completes h rfl
  case barw =>
    intro sc n a s x t h left may
    exact vamer_done h false _ ((if_pos left).trans (acquiring_done rfl may))
  case bart =>
    intro sc n a s x t0 t u left due res h _
    exact timed_completes h rfl rfl
  case gbar =>
    intro sy nw a s x sc t v k token h flagged absent may
    have goes := gbar_completes h flagged absent may
    rw [Bool.or_false] at goes
    exact goes
  case gbart =>
    intro sy a s x t0 t u left due res h flagged
    have noTrap : ¬ (!x.tr.gbar) = true := by simpa using flagged
    exact timed_completes h rfl (if_neg noTrap)

section

variable {a : Args} {s : State} {x : Ix} {sc : Scope}

/-- MBINIT writes an object of a count that fits (R251). -/
theorem mbinit_completes (h : Issues (.mbinit a) a s x) :
    let t := drawn (.mbinit a) a s x
    let o := offVa t x a .disp ((enabled x a).headD 0)
    let c := srcI t x a 32 a.c ((enabled x a).headD 0)
    o % 16 = 0 ∧ o + 16 ≤ x.tr.scratch → 1 ≤ c → c ≤ 65535 →
    exec (.mbinit a) s = .next (through (.mbinit a) (modTrain (settleX x t) x.ref.train fun tr => mbPut tr x.rank o ⟨0, 0, c, c, 0⟩) x a) := by
  intro t o c ⟨aligned, inside⟩ low high
  have counts : ¬ (decide (c = 0) || decide (c > 65535)) = true := by
    simp only [Bool.or_eq_true, decide_eq_true_eq]
    omega
  exact vamer_done h false _ ((if_neg (not_not_intro aligned)).trans ((if_neg (Nat.not_lt.mpr inside)).trans (if_neg counts)))

/-- A yoke that nothing has signed is declared with a count that fits (R253). -/
theorem yokeDecl_completes (h : Issues (.yokeDecl a) a s x) :
    let t := drawn (.yokeDecl a) a s x
    let n := yokeNo a.b
    let c := srcI t x a 32 a.c ((enabled x a).headD 0)
    1 ≤ c → c ≤ 4096 → (x.tr.yoke x.rank n).signed = [] →
    exec (.yokeDecl a) s = .next (through (.yokeDecl a) (modTrain t x.ref.train fun tr =>
      tr.setYoke x.rank n { tr.yoke x.rank n with count := c }) x a) := by
  intro t n c low high unsigned
  have counts : ¬ (decide (c = 0) || decide (c > 4096)) = true := by
    simp only [Bool.or_eq_true, decide_eq_true_eq]
    omega
  have free : ¬ (!(x.tr.yoke x.rank n).signed.isEmpty) = true := by
    rw [unsigned]
    decide
  exact vamer_done h false _ ((if_neg counts).trans (if_neg free))

/-- MBTRY gives each lane whether the phase has left its token, and acquires where it has left one (R251). -/
theorem mbtry_completes (h : Issues (.mbtry sc a) a s x) (sound : ObjectSound (drawn (.mbtry sc a) a s x) x a .disp) :
    let t := countClamp (drawn (.mbtry sc a) a s x) x.ctx sc
    let left (l : Nat) : Bool := objectLeft (drawn (.mbtry sc a) a s x) x a .disp [l]
    let acq := (enabled x a).any left
    let u := wr (acqStart acq sc x t) x a.a 32 ((enabled x a).map fun l => (l, if left l then 1 else 0))
    acqMay acq sc x t u → exec (.mbtry sc a) s = .next (through (.mbtry sc a) u x a) := by
  intro t left acq u may
  refine vamer_done h false _ ((onObject_sound _ sound).trans ?_)
  have some_left : (((enabled x a).map fun l => (l, if left l then 1 else 0)).any fun r => r.2 = 1) = acq := by
    rw [List.any_map]
    refine congrArg (List.any (enabled x a)) (funext fun l => ?_)
    cases e : left l <;> simp [e]
  dsimp only
  rw [some_left]
  exact orderedAcquire_done (body := fun s => .done (wr s x a.a 32 _) [] none) rfl may

end

/-- Settles O20: the object is sound, and its instruction does what its checks leave. -/
theorem objectComplete : Obligations.ObjectComplete := by
  unfold Obligations.ObjectComplete
  refine ⟨?mbinit, ?mbarr, ?mbexp, ?mbexpArr, ?mbwait, ?mbtry, ?mbtw, ?decl, ?rst⟩
  case mbinit =>
    intro a s x t o c h
    exact mbinit_completes h
  case mbarr =>
    intro sc u a s x t0 t o b h ⟨⟨aligned, inside⟩, whole⟩ ready may
    exact vamer_done h false _ ((onObject_ok _ aligned inside whole).trans ((if_neg ready).trans (withRelease_ok x sc _ _ may)))
  case mbexp =>
    intro sc a s x t o h ⟨⟨aligned, inside⟩, whole⟩
    exact vamer_done h false _ (onObject_ok _ aligned inside whole)
  case mbexpArr =>
    intro sc a s x t0 t o b h ⟨⟨aligned, inside⟩, whole⟩ ready may
    exact vamer_done h false _ ((onObject_ok _ aligned inside whole).trans ((if_neg ready).trans (withRelease_ok x sc _ _ may)))
  case mbwait =>
    intro sc a s x t0 t o h ⟨⟨aligned, inside⟩, whole⟩ left may
    exact vamer_done h false _ ((onObject_ok _ aligned inside whole).trans ((if_pos left).trans (acquiring_done rfl may)))
  case mbtry =>
    intro sc a s x t0 t o left res acq u h ⟨⟨aligned, inside⟩, whole⟩ may
    exact mbtry_completes h ⟨aligned, inside, whole⟩ may
  case mbtw =>
    intro sc a s x t0 t o left due h ⟨⟨aligned, inside⟩, whole⟩
    exact timed_completes h rfl (onObject_ok _ aligned inside whole)
  case decl =>
    intro a s x t n c h
    exact yokeDecl_completes h
  case rst => exact fun a s x h => vamer_done h false _ rfl

end Sys2Proof.Machine

/-! ## O57: dray words decode to their instructions

First the offsets that a format scatters over its word, then the fields of a word; with those the decoder's tables give the instruction
back. -/

namespace Sys2Proof

/-! ### Immediates (R283) -/

theorem sx_of_sfits {o : Word32} {n : Nat} (h : sfits o n = true) : sx n (o.extractLsb' 0 n) = o := of_decide_eq_true h

/-- The lowest bit of an even offset, which no format keeps. -/
theorem lowBit_of_even {o : Word32} (even : o.getLsbD 0 = false) : (0 : BitVec 1) = o.extractLsb' 0 1 := by
  refine BitVec.eq_of_getLsbD_eq fun j hj => ?_
  obtain rfl : j = 0 := by omega
  simpa using even.symm

/-- The offset of a jump from the parts in its word. -/
theorem jumpOffset_eq {o : Word32} (fits : sfits o 21 = true) (even : o.getLsbD 0 = false) :
    sx 21 (o.extractLsb' 20 1 ++ o.extractLsb' 12 8 ++ o.extractLsb' 11 1 ++ o.extractLsb' 1 10 ++ (0 : BitVec 1)) = o := by
  rw [lowBit_of_even even]
  simp (disch := decide) only [BitVec.extractLsb'_append_extractLsb'_eq_extractLsb']
  exact sx_of_sfits fits

/-- The offset of a branch from the parts in its word. -/
theorem branchOffset_eq {o : Word32} (fits : sfits o 13 = true) (even : o.getLsbD 0 = false) :
    sx 13 (o.extractLsb' 12 1 ++ o.extractLsb' 11 1 ++ o.extractLsb' 5 6 ++ o.extractLsb' 1 4 ++ (0 : BitVec 1)) = o := by
  rw [lowBit_of_even even]
  simp (disch := decide) only [BitVec.extractLsb'_append_extractLsb'_eq_extractLsb']
  exact sx_of_sfits fits

theorem append_parts (x : BitVec 12) : x.extractLsb' 5 7 ++ x.extractLsb' 0 5 = x := by
  simp (disch := decide) only [BitVec.extractLsb'_append_extractLsb'_eq_extractLsb']
  exact BitVec.extractLsb'_eq_self

/-- A 12-bit immediate from the two parts that a word holds side by side or apart. -/
theorem sx_parts {o : Word32} (fits : sfits o 12 = true) : sx 12 (o.extractLsb' 5 7 ++ o.extractLsb' 0 5) = o := by
  simp (disch := decide) only [BitVec.extractLsb'_append_extractLsb'_eq_extractLsb']
  exact sx_of_sfits fits

/-- A shift amount fits in its field. -/
theorem shiftAmount_eq {i : Word32} (h : i < 32) : (i.extractLsb' 0 5).setWidth 32 = i := by
  refine BitVec.eq_of_toNat_eq ?_
  have small : i.toNat < 32 := h
  simp only [BitVec.toNat_setWidth, BitVec.extractLsb'_toNat, Nat.shiftRight_zero]
  omega

/-! ### The fields of a word -/

section

variable (f7 : BitVec 7) (rs2 rs1 : BitVec 5) (f3 : BitVec 3) (rd : BitVec 5) (op : BitVec 7)

@[simp] theorem op_rType : (rType f7 rs2 rs1 f3 rd op).extractLsb' 0 7 = op := by
  simp (disch := decide) only [rType, BitVec.extractLsb'_append_eq_of_add_le, BitVec.extractLsb'_eq_self]

@[simp] theorem rd_rType : (rType f7 rs2 rs1 f3 rd op).extractLsb' 7 5 = rd := by
  simp (disch := decide) only [rType, BitVec.extractLsb'_append_eq_of_le, BitVec.extractLsb'_append_eq_of_add_le]
  exact BitVec.extractLsb'_eq_self

@[simp] theorem f3_rType : (rType f7 rs2 rs1 f3 rd op).extractLsb' 12 3 = f3 := by
  simp (disch := decide) only [rType, BitVec.extractLsb'_append_eq_of_le, BitVec.extractLsb'_append_eq_of_add_le]
  exact BitVec.extractLsb'_eq_self

@[simp] theorem rs1_rType : (rType f7 rs2 rs1 f3 rd op).extractLsb' 15 5 = rs1 := by
  simp (disch := decide) only [rType, BitVec.extractLsb'_append_eq_of_le, BitVec.extractLsb'_append_eq_of_add_le]
  exact BitVec.extractLsb'_eq_self

@[simp] theorem rs2_rType : (rType f7 rs2 rs1 f3 rd op).extractLsb' 20 5 = rs2 := by
  simp (disch := decide) only [rType, BitVec.extractLsb'_append_eq_of_le, BitVec.extractLsb'_append_eq_of_add_le]
  exact BitVec.extractLsb'_eq_self

@[simp] theorem f7_rType : (rType f7 rs2 rs1 f3 rd op).extractLsb' 25 7 = f7 := by
  simp (disch := decide) only [rType, BitVec.extractLsb'_append_eq_of_le]
  exact BitVec.extractLsb'_eq_self

@[simp] theorem imm_rType : (rType f7 rs2 rs1 f3 rd op).extractLsb' 20 12 = f7 ++ rs2 := by
  simp (disch := decide) only [rType, BitVec.extractLsb'_append_eq_of_le]
  exact BitVec.extractLsb'_eq_self

@[simp] theorem bit25_rType : (rType f7 rs2 rs1 f3 rd op)[25] = f7.getLsbD 0 := by
  simp (disch := decide) only [rType, ← BitVec.getLsbD_eq_getElem, getLsbD_append_high]

@[simp] theorem bit26_rType : (rType f7 rs2 rs1 f3 rd op)[26] = f7.getLsbD 1 := by
  simp (disch := decide) only [rType, ← BitVec.getLsbD_eq_getElem, getLsbD_append_high]

/-- A word with a 12-bit immediate. -/
theorem imm_append_eq_rType (imm : BitVec 12) :
    imm ++ rs1 ++ f3 ++ rd ++ op = rType (imm.extractLsb' 5 7) (imm.extractLsb' 0 5) rs1 f3 rd op := by
  rw [rType, append_parts]

end

/-- The table of a 32-bit instruction decodes a word whose opcode ends in 11. -/
theorem decodeDray_of_op {w : Word32} {op : BitVec 7} (h : w.extractLsb' 0 7 = op) (wide : op.extractLsb' 0 2 = 3) :
    decodeDray w = decodeDray32 w := by
  refine if_pos ?_
  rw [← wide, ← h]
  simp (disch := decide) only [BitVec.extractLsb'_extractLsb'_of_le]

theorem decodeDray_system {w : Word32} (h : w.extractLsb' 0 7 = 0x73) : decodeDray w = decodeSystem w := by
  rw [decodeDray_of_op h rfl, decodeDray32, h]
  rfl

theorem decodeDray_custom0 {w : Word32} (h : w.extractLsb' 0 7 = 0x0B) : decodeDray w = decodeXdray w := by
  rw [decodeDray_of_op h rfl, decodeDray32, h]
  rfl

theorem decodeDray_custom1 {w : Word32} (h : w.extractLsb' 0 7 = 0x2B) : decodeDray w = decodeXdray w := by
  rw [decodeDray_of_op h rfl, decodeDray32, h]
  rfl

/-- An RV32IM or Zicsr instruction decodes from its word (R283). -/
theorem decodeDray_rvEncode {i : Rv} (h : i.wf = true) : decodeDray i.encode = .rv32imcInstruction i 4 := by
  cases i with
  | lui | auipc =>
    simp (disch := decide) only [Rv.encode, decodeDray, decodeDray32, BitVec.extractLsb'_append_eq_of_le,
      BitVec.extractLsb'_append_eq_of_add_le]
    simp
  | jal rd o =>
    obtain ⟨fits, even⟩ : sfits o 21 = true ∧ o.getLsbD 0 = false := by simpa [Rv.wf] using h
    simp (disch := decide) only [Rv.encode, decodeDray, decodeDray32, BitVec.extractLsb'_append_eq_of_le,
      BitVec.extractLsb'_append_eq_of_add_le]
    simpa using jumpOffset_eq fits even
  | branch c rs1 rs2 o =>
    obtain ⟨fits, even⟩ : sfits o 13 = true ∧ o.getLsbD 0 = false := by simpa [Rv.wf] using h
    simp (disch := decide) only [Rv.encode, decodeDray, decodeDray32, BitVec.extractLsb'_append_eq_of_le,
      BitVec.extractLsb'_append_eq_of_add_le]
    have off := branchOffset_eq fits even
    cases c
    all_goals simpa [RvCond.f3] using off
  | jalr rd rs1 o =>
    rw [Rv.encode, imm_append_eq_rType, decodeDray_of_op (op_rType ..) rfl]
    simpa [decodeDray32] using sx_parts h
  | load k rd rs1 o =>
    rw [Rv.encode, imm_append_eq_rType, decodeDray_of_op (op_rType ..) rfl]
    cases k
    all_goals simpa [decodeDray32, RvLoad.f3] using sx_parts h
  | store k rs1 rs2 o =>
    rw [show Rv.encode _ = rType (o.extractLsb' 5 7) rs2 rs1 k.f3 (o.extractLsb' 0 5) 0x23 from rfl, decodeDray_of_op (op_rType ..) rfl]
    cases k
    all_goals simpa [decodeDray32, RvStore.f3] using sx_parts h
  | opImm k rd rs1 i =>
    cases k with
    | sub => exact nomatch h
    | sll | srl | sra =>
      rw [show Rv.encode _ = rType (RvAlu.f7 _) (i.extractLsb' 0 5) rs1 (RvAlu.f3 _) rd 0x13 from rfl, decodeDray_of_op (op_rType ..) rfl]
      simpa [decodeDray32, RvAlu.f3, RvAlu.f7] using shiftAmount_eq (of_decide_eq_true h)
    | add | slt | sltu | xor | or | and =>
      dsimp only [Rv.encode]
      rw [imm_append_eq_rType, decodeDray_of_op (op_rType ..) rfl]
      simpa [decodeDray32, RvAlu.f3, rvAluOf] using sx_parts h
  | op k rd rs1 rs2 =>
    rw [show Rv.encode _ = rType k.f7 rs2 rs1 k.f3 rd 0x33 from rfl, decodeDray_of_op (op_rType ..) rfl]
    cases k
    all_goals simp [decodeDray32, RvAlu.f3, RvAlu.f7, rvAluOf]
  | mul k rd rs1 rs2 =>
    rw [show Rv.encode _ = rType 1 rs2 rs1 k.f3 rd 0x33 from rfl, decodeDray_of_op (op_rType ..) rfl]
    cases k
    all_goals simp [decodeDray32, RvMul.f3, rvMulOf]
  | fence | ecall | ebreak | mret => decide
  | csr k rd n imm src =>
    have other : ¬ n = 1984#12 := of_decide_eq_true h
    rw [Rv.encode, imm_append_eq_rType, decodeDray_system (op_rType ..)]
    cases k <;> cases imm
    all_goals simp [decodeSystem, append_parts, RvCsr.f3, b1, other]
  | illegal => exact nomatch h

/-- Settles O57: Xdray and the two instructions of their own word by word, the rest by `decodeDray_rvEncode`. -/
theorem drayRoundTrip : Obligations.DrayRoundTrip := by
  unfold Obligations.DrayRoundTrip
  intro i dray wf
  cases i with
  | rv32imcInstruction i len =>
    obtain ⟨wf, length⟩ := (Bool.and_eq_true _ _).mp wf
    rw [of_decide_eq_true length]
    exact decodeDray_rvEncode wf
  | drayWfi => rfl
  | dcpy | dkick | dstat =>
    dsimp only [encodeDray]
    rw [decodeDray_custom0 (op_rType ..)]
    simp [decodeXdray]
  | dck hi draw =>
    dsimp only [encodeDray]
    rw [decodeDray_custom0 (op_rType ..)]
    cases hi <;> cases draw
    all_goals simp [decodeXdray, b1]
  | darr | dwait | dtry =>
    dsimp only [encodeDray]
    rw [decodeDray_custom1 (op_rType ..)]
    simp [decodeXdray]
  | dexp arr =>
    dsimp only [encodeDray]
    rw [decodeDray_custom1 (op_rType ..)]
    cases arr
    all_goals simp [decodeXdray, b1]
  | dfaultWrite k rd imm src =>
    dsimp only [encodeDray]
    rw [imm_append_eq_rType, decodeDray_system (op_rType ..)]
    cases k <;> cases imm
    all_goals simp [decodeSystem, RvCsr.f3, b1]
  | _ => exact nomatch dray

end Sys2Proof

/-! ## O21: the copy and DMA instructions complete

One copy or one list is checked and accepted into a free slot after its release (`handCopy_done`, `handList_done`). -/

namespace Sys2Proof.Machine

open Sys2Proof

section

variable {x : Ix} {s : State} {k : Nat}

/-- Work with a free slot of its core takes it (R261). -/
theorem withSlot_free (free : freeEngineSlot s x.core = some k) (f : Nat → Res) : withSlot x s f = f k := by
  simp only [withSlot, free]

/-- A descriptor that passes its checks is accepted after its release (R259, R261). -/
theorem handCopy_done {d : Desc} {kinds : List Nat} (sound : d.check x.tr x.rank kinds = 0)
    (free : freeEngineSlot s x.core = some k) (may : canRelease x (if d.globalLocal then .pt else .cl) s = true) :
    handCopy d kinds x s = .done (acceptWork (released x (if d.globalLocal then .pt else .cl) s) x.core k x.ref.train x.ctx x.rank
      (.copy d) none false) [] none := by
  have noTrap : ¬ d.check x.tr x.rank kinds ≠ 0 := not_not_intro sound
  exact (if_neg noTrap).trans ((withSlot_free free _).trans (withRelease_ok x _ s _ may))

/-- A request list that passes its checks is accepted after its release (R270, R277). -/
theorem handList_done {a : Args} {xl : Bool} {ls : List Nat} :
    let off := srcI s x a 32 a.b (ls.headD 0)
    let cnt := srcI s x a 32 a.c (ls.headD 0)
    let sc : Scope := if xl then .pt else .cl
    listCheck x.tr off cnt = 0 → freeEngineSlot s x.core = some k → canRelease x sc s = true →
    handList a xl x ls s = .done (acceptList (released x sc s) x.core k x.ref.train x.ctx x.rank off cnt xl) [] none := by
  intro off cnt sc sound free may
  have noTrap : ¬ listCheck x.tr off cnt ≠ 0 := not_not_intro sound
  exact (if_neg noTrap).trans ((withSlot_free free _).trans (withRelease_ok x sc s _ may))

end

/-- CPYP reads its descriptor where a scratchpad load could, and hands it over (R276). -/
theorem cpyp_completes {a : Args} {s : State} {x : Ix} {k : Nat} (h : Issues (.cpyp a) a s x) :
    let t := drawn (.cpyp a) a s x
    let o := offVa t x a .disp ((enabled x a).headD 0)
    let d := descOf (scrGet x.tr x.rank o 64).bytes
    let sc : Scope := if d.globalLocal then .pt else .cl
    o % 16 = 0 → o + 64 ≤ x.tr.scratch → rangeBusy t x.core x.ref.train o 64 = false → (scrGet x.tr x.rank o 64).poison = false →
    d.check x.tr x.rank [0, 1, 2, 3, 4] = 0 → freeEngineSlot t x.core = some k → canRelease x sc t = true →
    exec (.cpyp a) s = .next (through (.cpyp a)
      (acceptWork (released x sc t) x.core k x.ref.train x.ctx x.rank (.copy d) none false) x a) := by
  intro t o d sc aligned inside quiet clean sound free may
  refine vamer_done h false _ ?_
  calc
    _ = handCopy d [0, 1, 2, 3, 4] x t := by
      have within : ¬ o + 64 > x.tr.scratch := Nat.not_lt.mpr inside
      refine (if_neg (not_not_intro aligned)).trans ((if_neg within).trans ((if_neg ?_).trans (if_neg ?_)))
      · rw [quiet]; decide
      · rw [clean]; decide
    _ = _ := handCopy_done sound free may

/-- Settles O21: what is handed over is accepted, CPWAIT acquires, and the engine's state goes to the lanes. -/
theorem copyComplete : Obligations.CopyComplete := by
  unfold Obligations.CopyComplete
  refine ⟨?cpy, ?cpyf, ?cpyp, ?cpyl, ?xcpyl, ?cpyq, ?cpwait, ?xcpy, ?xstat⟩
  case cpy =>
    intro kind xe a s x k t d sc h _ sound free may
    exact vamer_done h false _ (handCopy_done sound free may)
  case cpyf =>
    intro xe a s x k t d sc h _ sound free may
    exact vamer_done h false _ (handCopy_done sound free may)
  case cpyp =>
    intro a s x k t d sc h ⟨aligned, inside, quiet, clean⟩ sound free may
    exact cpyp_completes h aligned inside quiet clean sound free may
  case cpyl | xcpyl =>
    intro a s x k t off cnt sc h sound free may
    exact vamer_done h false _ (handList_done sound free may)
  case cpyq => exact fun a => completes_of_lanewise fun _ => rfl
  case cpwait =>
    intro sc a s x t0 t h few may
    exact vamer_done h false _ ((if_pos few).trans (acquiring_done rfl may))
  case xcpy =>
    intro dirIn ls xe kr a s x k t d sc h _ sound free may
    refine vamer_done h false _ ?_
    cases ls
    all_goals exact handCopy_done sound free may
  case xstat => exact fun a s x h => vamer_done h false _ rfl

end Sys2Proof.Machine

/-! ## O22 and O23: the instructions of a dray complete

Each instruction of a dray in turn runs its body (`dray_ok`, `dray_exc`); what a body with checks answers past them is a lemma of its own. -/

namespace Sys2Proof.Machine

open Sys2Proof

section

variable {i : Instr} {body : Dx → State → DRes}

/-- An instruction whose body is performed whenever `p` holds completes. -/
theorem drayCompletes_of_ok {p : State → Dx → Prop} {t : State → Dx → State} {f : State → Dx → Dray → Dray}
    (runs : ∀ s, exec i s = dray body s) (ok : ∀ s x, p s x → body x s = .ok (t s x) (f s x)) :
    DrayCompletes i p fun s x => drayDone (t s x) x (f s x) :=
  fun s x h hp => (runs s).trans (dray_ok h (ok s x hp))

/-- One that always takes an exception completes with it. -/
theorem drayCompletes_of_exc {c : Nat} {v : Dx → Word32} (runs : ∀ s, exec i s = dray body s) (exc : ∀ s x, body x s = .exc c (v x)) :
    DrayCompletes i (fun _ _ => True) fun s x => modDray s x.t x.key fun d => d.raise c (v x) :=
  fun s x h _ => (runs s).trans (dray_exc h (exc s x))

end

/-! ### Loads, stores and CSRs (R283, R284) -/

section

variable {x : Dx} {s : State} {rs1 : BitVec 5} {off : Word32} {len o : Nat}

/-- An aligned load of a readable place gives what stands there. -/
theorem rvLoad_store {k : RvLoad} {rd : BitVec 5} (aligned : (x.d.reg rs1 + off).toNat % rvLoadBytes k = 0)
    (place : drayPlace (x.d.reg rs1 + off).toNat x.tr.scratch = .store o) :
    rvLoad k rd rs1 off len x s = .ok s (goRd len rd (w32 (loadValue (memBytes x.d.store o (rvLoadBytes k)) (rvLoadSx k)))) := by
  simp only [rvLoad, aligned, place, ne_eq, not_true_eq_false, if_false]

theorem rvLoad_priv {k : RvLoad} {rd : BitVec 5} (aligned : (x.d.reg rs1 + off).toNat % rvLoadBytes k = 0)
    (place : drayPlace (x.d.reg rs1 + off).toNat x.tr.scratch = .priv o) :
    rvLoad k rd rs1 off len x s = .ok s (goRd len rd (w32 (loadValue (memBytes x.d.priv o (rvLoadBytes k)) (rvLoadSx k)))) := by
  simp only [rvLoad, aligned, place, ne_eq, not_true_eq_false, if_false]

theorem rvLoad_scr {k : RvLoad} {rd : BitVec 5} (aligned : (x.d.reg rs1 + off).toNat % rvLoadBytes k = 0)
    (place : drayPlace (x.d.reg rs1 + off).toNat x.tr.scratch = .scr o) (quiet : rangeBusy s x.core x.t o (rvLoadBytes k) = false)
    (clean : (scrGet x.tr x.rank o (rvLoadBytes k)).poison = false) : rvLoad k rd rs1 off len x s =
      .ok s (goRd len rd (w32 (loadValue (scrGet x.tr x.rank o (rvLoadBytes k)).bytes (rvLoadSx k)))) := by
  simp only [rvLoad, aligned, place, quiet, clean, ne_eq, not_true_eq_false, Bool.false_eq_true, if_false]

/-- An aligned store to a writable place is performed there. -/
theorem rvStore_priv {k : RvStore} {rs2 : BitVec 5} (aligned : (x.d.reg rs1 + off).toNat % rvStoreBytes k = 0)
    (place : drayPlace (x.d.reg rs1 + off).toNat x.tr.scratch = .priv o) : rvStore k rs1 rs2 off len x s =
      .ok s fun d => { d with pc := d.pc + w32 len, priv := memPut d.priv o (leBytes (rvStoreBytes k) (x.d.reg rs2).toNat) } := by
  simp only [rvStore, aligned, place, ne_eq, not_true_eq_false, if_false]

theorem rvStore_scr {k : RvStore} {rs2 : BitVec 5} (aligned : (x.d.reg rs1 + off).toNat % rvStoreBytes k = 0)
    (place : drayPlace (x.d.reg rs1 + off).toNat x.tr.scratch = .scr o) (quiet : rangeBusy s x.core x.t o (rvStoreBytes k) = false) :
    rvStore k rs1 rs2 off len x s =
      .ok (modTrain s x.t fun t => scrStore t x.rank o (leBytes (rvStoreBytes k) (x.d.reg rs2).toNat) false [])
        fun d => { d with pc := d.pc + w32 len } := by
  simp only [rvStore, aligned, place, quiet, ne_eq, not_true_eq_false, Bool.false_eq_true, if_false]

end

section

variable {x : Dx} {s : State} {k : RvCsr} {rd : BitVec 5} {num : BitVec 12} {imm : Bool} {f : BitVec 5} {w : Word32} {old : Nat}

/-- The operand of a CSR instruction. -/
abbrev csrOperand (x : Dx) (imm : Bool) (f : BitVec 5) : Word32 := if imm then f.setWidth 32 else x.d.reg f

theorem rvCsr_writes {n : Word32} (read : csrRead s x num.toNat = some old) (writes : csrNew k (w32 old) (csrOperand x imm f) f = some n)
    (writable : csrWritable num.toNat = true) :
    rvCsr k rd num imm f w x s = .ok s fun d => csrWrite num.toNat n (goRd 4 rd (w32 old) d) := by
  simp only [rvCsr, read, writes, writable, if_true]

/-- A CSR instruction that does not write gives the value, and that of RTIMEL latches the high half (R283, R286). -/
theorem rvCsr_reads (read : csrRead s x num.toNat = some old) (keeps : csrNew k (w32 old) (csrOperand x imm f) f = none) :
    rvCsr k rd num imm f w x s = .ok s fun d =>
      goRd 4 rd (w32 old) (if num.toNat = 0xFC2 then { d with drth := w32 (s.rtime / 2 ^ 32) } else d) := by
  have latch : (num = 0xFC2) = (num.toNat = 0xFC2) := propext BitVec.toNat_inj.symm
  simp only [rvCsr, read, keeps, latch]

end

theorem exec_rv32imcInstruction (i : Rv) (len : Nat) (s : State) : exec (.rv32imcInstruction i len) s = dray (rvBody i len) s := rfl

/-- Settles O23: loads, stores and CSR instructions past their checks, the others at once. -/
theorem rvComplete : Obligations.RvComplete := by
  unfold Obligations.RvComplete
  refine ⟨?lui, ?auipc, ?jal, ?jalr, ?branch, ?opImm, ?op, ?mul, ?fence, ?mret, ?load, ?store, ?csr, ?ecall, ?ebreak, ?illegal⟩
  case load =>
    intro len k rd rs1 off s x va give h aligned
    exact ⟨fun _ place => dray_ok h (rvLoad_store aligned place), fun _ place => dray_ok h (rvLoad_priv aligned place),
      fun _ place quiet clean => dray_ok h (rvLoad_scr aligned place quiet clean)⟩
  case store =>
    intro len k rs1 rs2 off s x va bs h aligned
    exact ⟨fun _ place => dray_ok h (rvStore_priv aligned place), fun _ place quiet => dray_ok h (rvStore_scr aligned place quiet)⟩
  case csr =>
    intro len k rd num imm f s x old v h read
    exact ⟨fun _ writes writable => dray_ok h (rvCsr_writes read writes writable), fun keeps => dray_ok h (rvCsr_reads read keeps)⟩
  case ecall | ebreak | illegal =>
    intros
    exact drayCompletes_of_exc (exec_rv32imcInstruction _ _) fun _ _ => rfl
  all_goals
    intros
    exact drayCompletes_of_ok (exec_rv32imcInstruction _ _) fun _ _ _ => rfl

/-! ### Xdray (R286) -/

theorem exec_dcpy (rd rs1 : BitVec 5) (s : State) : exec (.dcpy rd rs1) s = execDcpy rd rs1 s := rfl
theorem exec_dkick (rd rs1 rs2 : BitVec 5) (s : State) : exec (.dkick rd rs1 rs2) s = execDkick rd rs1 rs2 s := rfl
theorem exec_dstat (rd : BitVec 5) (s : State) : exec (.dstat rd) s = execDstat rd s := rfl
theorem exec_dck (hi draw : Bool) (rd rs1 : BitVec 5) (s : State) : exec (.dck hi draw rd rs1) s = execDck hi draw rd rs1 s := rfl
theorem exec_darr (rd rs1 : BitVec 5) (s : State) : exec (.darr rd rs1) s = execDarr rd rs1 s := rfl
theorem exec_dexp (arr : Bool) (rd rs1 rs2 : BitVec 5) (s : State) : exec (.dexp arr rd rs1 rs2) s = execDexp arr rd rs1 rs2 s := rfl
theorem exec_dwait (rs1 rs2 : BitVec 5) (s : State) : exec (.dwait rs1 rs2) s = execDwait rs1 rs2 s := rfl
theorem exec_dtry (rd rs1 rs2 : BitVec 5) (s : State) : exec (.dtry rd rs1 rs2) s = execDtry rd rs1 rs2 s := rfl
theorem exec_drayWfi (s : State) : exec .drayWfi s = execDrayWfi s := rfl
theorem exec_dfaultWrite (k : RvCsr) (rd : BitVec 5) (imm : Bool) (f : BitVec 5) (s : State) :
    exec (.dfaultWrite k rd imm f) s = execDfaultWrite k rd imm f s := rfl

section

variable {s : State} {x : Dx} {rd rs1 rs2 : BitVec 5}

/-- The descriptor at an offset of the dray's scratchpad. -/
abbrev drayDesc (x : Dx) (o : Nat) : Desc := descOf (scrGet x.tr x.rank o 64).bytes

section

variable (h : DrayTurn s x) (fits : DrayFits x (x.d.reg rs1) 64) (quiet : rangeBusy s x.core x.t (x.d.reg rs1).toNat 64 = false)
include h fits quiet

/-- DCPY accepts the copy of a descriptor that stands in the allocation, that no copy holds, and that passes its checks (R259). -/
theorem exec_dcpy_accepts {k : Nat} (sound : (drayDesc x (x.d.reg rs1).toNat).check x.tr x.rank [0, 1, 2, 3, 4] = 0)
    (free : freeEngineSlot s x.core = some k) : exec (.dcpy rd rs1) s = .next (drayDone
      (acceptWork s x.core k x.t x.tr.ctx x.rank (.copy (drayDesc x (x.d.reg rs1).toNat)) none false) x (goRd 4 rd 0)) := by
  obtain ⟨aligned, inside⟩ := fits
  refine (exec_dcpy ..).trans (dray_ok h ?_)
  simp [aligned, Nat.not_lt.mpr inside, quiet, sound, free]

/-- One that fails its checks has its reason in rd. -/
theorem exec_dcpy_fails (fails : (drayDesc x (x.d.reg rs1).toNat).check x.tr x.rank [0, 1, 2, 3, 4] ≠ 0) :
    exec (.dcpy rd rs1) s = .next (drayDone s x
      (goRd 4 rd (w32 ((drayDesc x (x.d.reg rs1).toNat).check x.tr x.rank [0, 1, 2, 3, 4])))) := by
  obtain ⟨aligned, inside⟩ := fits
  refine (exec_dcpy ..).trans (dray_ok h ?_)
  simp [aligned, Nat.not_lt.mpr inside, quiet, fails]

end

/-- DKICK accepts a list that passes its checks (R270). -/
theorem exec_dkick_accepts {k : Nat} (h : DrayTurn s x) (sound : listCheck x.tr (x.d.reg rs1).toNat (x.d.reg rs2).toNat = 0)
    (free : freeEngineSlot s x.core = some k) : exec (.dkick rd rs1 rs2) s = .next (drayDone
      (acceptList s x.core k x.t x.tr.ctx x.rank (x.d.reg rs1).toNat (x.d.reg rs2).toNat false) x (goRd 4 rd 0)) := by
  refine (exec_dkick ..).trans (dray_ok h ?_)
  simp [sound, free]

theorem exec_dkick_fails (h : DrayTurn s x) (fails : listCheck x.tr (x.d.reg rs1).toNat (x.d.reg rs2).toNat ≠ 0) :
    exec (.dkick rd rs1 rs2) s = .next (drayDone s x (goRd 4 rd (w32 (listCheck x.tr (x.d.reg rs1).toNat (x.d.reg rs2).toNat)))) := by
  refine (exec_dkick ..).trans (dray_ok h ?_)
  exact if_pos fails

/-- DCK reads a full cask that no earlier wait is for (R233, R286). -/
theorem exec_dck_full {hi draw : Bool} {k : Nat} (h : DrayTurn s x)
    (target : caskIndex s x.tr.ctx x.cluster ((x.d.reg rs1).toNat % 256) = some k) (met : needsMet s x.cluster [(k, .full)] = true)
    (first : earlierCask s x.cluster (drayWaitNo s x (.cask x.cluster [(k, .full)])) [(k, .full)] = false) :
    let c := caskGet s x.cluster k
    let u := if draw then caskPut s x.cluster k c.draw else s
    (c.poison = false → exec (.dck hi draw rd rs1) s = .next (drayDone u x
      (goRd 4 rd (w32 (if hi then c.value.toNat / 2 ^ 32 else c.value.toNat))))) ∧
    (c.poison = true → exec (.dck hi draw rd rs1) s = .next (drayDone { u with fresh := u.fresh + 1 } x
      (goRd 4 rd (Config.freeReg u.fresh)))) := by
  intro c u
  have mine : (needsMet s x.cluster [(k, .full)] &&
      !earlierCask s x.cluster (drayWaitNo s x (.cask x.cluster [(k, .full)])) [(k, .full)]) = true := by simp [met, first]
  refine ⟨fun clean => ?_, fun poison => ?_⟩
  · refine (exec_dck ..).trans (dray_ok h ?_)
    simp only [target, mine, if_true]
    exact if_neg (Bool.not_eq_true _ ▸ clean)
  · refine (exec_dck ..).trans (dray_ok h ?_)
    simp only [target, mine, if_true]
    exact if_pos poison

end

/-- Settles O22: the copy engine's instructions and DCK past their checks, the barrier-object forms on an object that fits, the others
at once. -/
theorem xdrayComplete : Obligations.XdrayComplete := by
  unfold Obligations.XdrayComplete
  refine ⟨?dcpy, ?dcpyFails, ?dkick, ?dkickFails, ?dstat, ?dck, ?darr, ?dexp, ?dexpArr, ?dwait, ?dtry, ?dfault, ?wfi⟩
  case dcpy =>
    intro rd rs1 s x k o h fits quiet sound free
    exact exec_dcpy_accepts h fits quiet sound free
  case dcpyFails =>
    intro rd rs1 s x o reason h fits quiet fails
    exact exec_dcpy_fails h fits quiet fails
  case dkick =>
    intro rd rs1 rs2 s x k off cnt h sound free
    exact exec_dkick_accepts h sound free
  case dkickFails =>
    intro rd rs1 rs2 s x reason h fails
    exact exec_dkick_fails h fails
  case dck =>
    intro hi draw rd rs1 s x k c no h target met first
    exact exec_dck_full h target met first
  case dstat => exact fun rd => drayCompletes_of_ok (exec_dstat rd) fun _ _ _ => rfl
  case darr =>
    exact fun rd rs1 => drayCompletes_of_ok (exec_darr rd rs1) fun _ _ ⟨fits, ready⟩ => (drayObject_ok fits _).trans (if_neg ready)
  case dexp => exact fun rd rs1 rs2 => drayCompletes_of_ok (exec_dexp false rd rs1 rs2) fun _ _ fits => drayObject_ok fits _
  case dexpArr =>
    exact fun rd rs1 rs2 => drayCompletes_of_ok (exec_dexp true rd rs1 rs2) fun _ _ ⟨fits, ready⟩ =>
      (drayObject_ok fits _).trans (if_neg ready)
  case dwait =>
    exact fun rs1 rs2 => drayCompletes_of_ok (exec_dwait rs1 rs2) fun _ _ ⟨fits, left⟩ => (drayObject_ok fits _).trans (if_pos left)
  case dtry => exact fun rd rs1 rs2 => drayCompletes_of_ok (exec_dtry rd rs1 rs2) fun _ _ fits => drayObject_ok fits _
  case dfault => exact fun k rd imm f => drayCompletes_of_ok (exec_dfaultWrite k rd imm f) fun _ _ _ => rfl
  case wfi => exact drayCompletes_of_ok exec_drayWfi fun _ _ _ => rfl

end Sys2Proof.Machine

/-! ## O35: the events of the copy engines, the ports and the matrix units

One lemma for each outcome of an event; the obligation collects them. -/

namespace Sys2Proof.Machine

open Sys2Proof

section

variable {s : State} {sl : Slot} {d : Desc}

/-- A slot of the event's core holds a copy. -/
structure CopyIn (s : State) (core slot : Nat) (sl : Slot) (d : Desc) : Prop where
  here : mget (s.core core).slots slot = some sl
  work : sl.work = .copy d

/-- The access of a report of a copy that fails at its remote side (R267, R399). -/
abbrev remoteAcc (d : Desc) : Nat := if d.kind = 6 then 4 else 5

/-! ### Request lists (R264, R270) -/

theorem exec_listEntryAccept (s : State) : exec .listEntryAccept s = execListEntryAccept s := rfl

/-- The slots after the entry `n` of `cnt` of the list in a slot has been taken: the last entry frees the list's own. -/
def entryTaken (s : State) (core slot off cnt n : Nat) (xl : Bool) : State :=
  if n + 1 = cnt then freeSlotOf s core slot else modSlot s core slot fun x => { x with work := .list off cnt (n + 1) xl }

section

variable {t : Train} {off cnt n : Nat} {xl : Bool} (here : mget (s.core s.ev.i).slots s.ev.j = some sl)
  (work : sl.work = .list off cnt n xl) (train : mget s.trains sl.train = some t)
include here work train

/-- An entry that fails its checks ends the list. -/
theorem exec_listEntryAccept_ends :
    let d := descOf (scrGet t sl.rank (off + 64 * n) 64).bytes
    let reason := d.check t sl.rank (if xl then [5, 6] else [0, 1, 2, 3, 4])
    reason ≠ 0 → exec .listEntryAccept s = .next (failEntry s s.ev.i s.ev.j sl reason n xl d) := by
  intro d reason fails
  simp only [exec_listEntryAccept, execListEntryAccept, here, work, train]
  exact if_pos fails

/-- An entry that passes them takes a free slot. -/
theorem exec_listEntryAccept_taken {k : Nat} :
    let d := descOf (scrGet t sl.rank (off + 64 * n) 64).bytes
    let u := entryTaken s s.ev.i s.ev.j off cnt n xl
    d.check t sl.rank (if xl then [5, 6] else [0, 1, 2, 3, 4]) = 0 → freeEngineSlot u s.ev.i = some k →
    exec .listEntryAccept s = .next (acceptWork u s.ev.i k sl.train sl.ctx sl.rank (.copy d) (some (sl.seq, n)) xl) := by
  intro d u sound free
  simp only [exec_listEntryAccept, execListEntryAccept, here, work, train]
  refine (if_neg (not_not_intro sound)).trans ?_
  simp only [u, entryTaken] at free
  simp only [free]
  rfl

end

/-! ### Copies in flight (R260, R262, R273, R440) -/

theorem exec_copyChunkTransfer (s : State) :
    exec .copyChunkTransfer s = .next (moveChunks s.ev.i s.ev.j ((List.range s.ev.k).map (s.ev.l + ·)) s) := rfl

theorem exec_byteArrival (s : State) : exec .byteArrival s = execByteArrival s := rfl

/-- Bytes that arrive are counted on the barrier object, and the last ones retire the copy (R262). -/
theorem exec_byteArrival_counts (h : CopyIn s s.ev.i s.ev.j sl d) :
    let n := min (min (s.ev.k / 16 * 16) 1024) (16 * sl.performed d - sl.counted)
    let u := if d.sides.2 = .glob then releaseEvent s (s.ev.i / 4) else s
    let v := modMb u sl.train (d.mbRank sl.rank) d.mb.toNat fun o => o.bytesIn n
    d.hasMb = true → n ≠ 0 → exec .byteArrival s = .next
      (if sl.counted + n = d.total then freeSlotOf v s.ev.i s.ev.j
       else modSlot v s.ev.i s.ev.j fun x => { x with counted := x.counted + n }) := by
  intro n u v object arrives
  have counts : ¬ (!d.hasMb || decide (n = 0)) = true := by simp [object, arrives]
  simp only [exec_byteArrival, execByteArrival, h.here, h.work]
  exact congrArg _ (if_neg counts)

theorem exec_copyRetire (s : State) : exec .copyRetire s = execCopyRetire s := rfl

theorem exec_copyRetire_done (h : CopyIn s s.ev.i s.ev.j sl d) (whole : sl.performed d = d.chunks)
    (counted : d.hasMb = false ∨ sl.counted = d.total) : exec .copyRetire s = .next (freeSlotOf s s.ev.i s.ev.j) := by
  have done : (decide (sl.performed d = d.chunks) && (!d.hasMb || decide (sl.counted = d.total))) = true := by simpa [whole] using counted
  simp only [exec_copyRetire, execCopyRetire, h.here, h.work, done, if_true]

theorem exec_remoteAck (s : State) : exec .remoteAck s = execRemoteAck s := rfl

theorem exec_remoteAck_acknowledged (h : CopyIn s s.ev.i s.ev.j sl d) (remote : d.isDma = true) (hp : s.ev.p = true) :
    exec .remoteAck s = .next (modSlot s s.ev.i s.ev.j fun x => { x with acked := min (x.acked + s.ev.k) x.moved }) := by
  simp [exec_remoteAck, execRemoteAck, h.here, h.work, remote, hp]

theorem exec_remoteAck_refused (h : CopyIn s s.ev.i s.ev.j sl d) (remote : d.isDma = true) (hp : s.ev.p = false) :
    exec .remoteAck s = .next (endCopyFault s s.ev.i s.ev.j 12 0 (remoteAcc d)) := by
  simp [exec_remoteAck, execRemoteAck, h.here, h.work, remote, hp, remoteAcc]

theorem exec_priResponse (s : State) : exec .priResponse s = execPriResponse s := rfl

theorem exec_priResponse_fails (h : CopyIn s s.ev.i s.ev.j sl d) (remote : d.isDma = true) (host : d.kr = false) (hp : s.ev.p = false) :
    exec .priResponse s = .next (endCopyFault s s.ev.i s.ev.j 12 0 (remoteAcc d)) := by
  simp [exec_priResponse, execPriResponse, h.here, h.work, remote, host, hp, remoteAcc]

/-! ### Links (R281, R438, R443) -/

theorem exec_bolharFlitCrcError (s : State) : exec .bolharFlitCrcError s = execBolharFlitCrcError s := rfl

/-- The request that a bad flit belongs to ends. -/
theorem exec_bolharFlitCrcError_ends (port : s.ev.i < 16) (h : CopyIn s s.ev.j s.ev.k sl d) (peer : peerPort s sl = some s.ev.i) :
    exec .bolharFlitCrcError s = .next
      (endCopyFault (errorRecord s 2 (s.ev.i / 8) 0x0B (s.ev.i % 8) sl.ctx true false) s.ev.j s.ev.k 12 0 (remoteAcc d)) := by
  simp [exec_bolharFlitCrcError, execBolharFlitCrcError, Nat.not_le.mpr port, h.here, peer, h.work, remoteAcc]

theorem exec_bolharFlitCrcError_alone (port : s.ev.i < 16) (empty : mget (s.core s.ev.j).slots s.ev.k = none) :
    exec .bolharFlitCrcError s = .next (errorRecord s 2 (s.ev.i / 8) 0x0B (s.ev.i % 8) 0xFFF true false) := by
  simp [exec_bolharFlitCrcError, execBolharFlitCrcError, Nat.not_le.mpr port, empty]

theorem exec_bolharLinkChange (s : State) : exec .bolharLinkChange s = execBolharLinkChange s := rfl

/-- The link of Bolhar port `k` is up or down. -/
def setLink (s : State) (k : Nat) (up : Bool) : State := modHost s fun h => { h with links := mset h.links k up }

theorem exec_bolharLinkChange_up (port : s.ev.i < 16) (hp : s.ev.p = true) :
    exec .bolharLinkChange s = .next (setLink s s.ev.i true) := by
  simp [exec_bolharLinkChange, execBolharLinkChange, Nat.not_le.mpr port, hp, setLink]

theorem exec_bolharLinkChange_down (port : s.ev.i < 16) (hp : s.ev.p = false) :
    let u := setLink s s.ev.i false
    exec .bolharLinkChange s = .next (failSlots (fun u sl => peerPort u sl = some s.ev.i) (slotCount u) u) := by
  simp [exec_bolharLinkChange, execBolharLinkChange, Nat.not_le.mpr port, hp, setLink]

theorem exec_pcieLinkChange (s : State) : exec .pcieLinkChange s = execPcieLinkChange s := rfl

theorem exec_pcieLinkChange_trains (port : s.ev.i < 2) (hp : s.ev.p = true) (lanes : s.ev.j = 4 ∨ s.ev.j = 8 ∨ s.ev.j = 16) :
    exec .pcieLinkChange s = .next (modHost s fun h => { h with pcie := mset h.pcie s.ev.i (s.ev.j, true) }) := by
  simp [exec_pcieLinkChange, execPcieLinkChange, Nat.not_le.mpr port, hp, or_assoc, lanes]

theorem exec_pcieLinkChange_fails (port : s.ev.i < 2) (other : s.ev.p = false ∨ (s.ev.j ≠ 4 ∧ s.ev.j ≠ 8 ∧ s.ev.j ≠ 16)) :
    exec .pcieLinkChange s = .next
      (failSlots (fun u sl => onHostPort u s.ev.i sl) (slotCount s) (modHost s fun h => { h with pcie := mdel h.pcie s.ev.i })) := by
  have noLink : ¬ (s.ev.p && (decide (s.ev.j = 4) || decide (s.ev.j = 8) || decide (s.ev.j = 16))) = true := by
    rcases other with down | ⟨four, eight, sixteen⟩
    · simp [down]
    · simp [four, eight, sixteen]
  rw [exec_pcieLinkChange, execPcieLinkChange]
  exact congrArg _ ((if_neg (Nat.not_le.mpr port)).trans (if_neg noLink))

/-! ### The exported window (R273) -/

/-- What a peer is answered. -/
def peerReply (s : State) (bs : List Byte) : State := modHost s fun h => { h with reply := bs }

theorem exec_bolharPeerRequest (s : State) : exec .bolharPeerRequest s = execBolharPeerRequest s := rfl

theorem exec_bolharPeerRequest_write (hp : s.ev.p = true) :
    let w := Config.exportWindow s.ev.i
    exec .bolharPeerRequest s = .next
      (((windowWrite s w.1 ((w.2 + s.ev.j) % 2 ^ 64) s.ev.bytes).map fun u => peerReply u []).getD (errorCompletion s 0)) := by
  intro w
  simp only [exec_bolharPeerRequest, execBolharPeerRequest, hp, if_true]
  cases windowWrite s w.1 ((w.2 + s.ev.j) % 2 ^ 64) s.ev.bytes
  all_goals rfl

theorem exec_bolharPeerRequest_read (hp : s.ev.p = false) :
    let w := Config.exportWindow s.ev.i
    exec .bolharPeerRequest s = .next
      (((windowRead s w.1 ((w.2 + s.ev.j) % 2 ^ 64) 16).map (peerReply s)).getD (errorCompletion s 0)) := by
  intro w
  simp only [exec_bolharPeerRequest, execBolharPeerRequest, hp, Bool.false_eq_true, if_false]
  cases windowRead s w.1 ((w.2 + s.ev.j) % 2 ^ 64) 16
  all_goals rfl

/-! ### Received MMAs (R299) -/

theorem exec_mmaPerform (s : State) : exec .mmaPerform s = .next (performMma s s.ev.i s.ev.j s.ev.k) := rfl

/-- An MMA that nothing holds, with none before it on its tile, is performed. -/
theorem performMma_free {train rank k : Nat} {t : Train} {r : MmaRec} :
    let rs := mgetD t.mmas rank []
    let core := t.cores.getD rank 0
    let es := mmaTile s t rank (core / 48) r
    let u := if r.counts then modSys s t.ctx fun y => { y with mmabad := y.mmabad + 1 } else s
    mget s.trains train = some t → rs[k]? = some r → mmaHeld s core train r = false → (∀ q ∈ rs.take k, q.tile ≠ r.tile) →
    performMma s train rank k = modTrain (setLatch { u with fresh := u.fresh + 256 } train rank core r) train fun t =>
      let t := { t with mmas := mput [] t.mmas rank (rs.eraseIdx k) }
      if r.drop then t else tileFill t rank r.tile fun i => es.getD i (0, false) := by
  intro rs core es u here received free first
  have none_before : ((rs.take k).any fun q => q.tile = r.tile) = false := by simpa [List.any_eq_false] using first
  have goes : ¬ (mmaHeld s core train r || (rs.take k).any fun q => q.tile = r.tile) = true := by simp [free, none_before]
  simp only [performMma, here]
  rw [show (mgetD t.mmas rank [])[k]? = some r from received]
  exact if_neg goes

end

/-- Settles O35: each clause is the lemma of its event's outcome. -/
theorem copyEvents : Obligations.CopyEvents := by
  unfold Obligations.CopyEvents
  refine ⟨?entry, ?transfer, ?arrival, ?retire, ?acknowledged, ?refused, ?pri, ?crcEnds, ?crcAlone, ?linkUp, ?linkDown, ?pcieUp, ?pcieDown,
    ?peer, ?mma⟩
  case entry =>
    intro s sl t off cnt n xl d reason u here work train
    exact ⟨exec_listEntryAccept_ends here work train, fun k sound free => exec_listEntryAccept_taken here work train sound free⟩
  case transfer => exact fun s _ => exec_copyChunkTransfer s
  case arrival =>
    intro s sl d n u v ⟨here, work⟩ object arrives
    exact exec_byteArrival_counts ⟨here, work⟩ object arrives
  case retire => exact fun sl d s ⟨⟨here, work⟩, whole, counted⟩ => exec_copyRetire_done ⟨here, work⟩ whole counted
  case acknowledged => exact fun sl d s ⟨⟨here, work⟩, remote, hp⟩ => exec_remoteAck_acknowledged ⟨here, work⟩ remote hp
  case refused => exact fun sl d s ⟨⟨here, work⟩, remote, hp⟩ => exec_remoteAck_refused ⟨here, work⟩ remote hp
  case pri => exact fun sl d s ⟨⟨here, work⟩, remote, host, hp⟩ => exec_priResponse_fails ⟨here, work⟩ remote host hp
  case crcEnds => exact fun sl d s ⟨port, here, peer, work⟩ => exec_bolharFlitCrcError_ends port ⟨here, work⟩ peer
  case crcAlone => exact fun s ⟨port, empty⟩ => exec_bolharFlitCrcError_alone port empty
  case linkUp => exact fun s ⟨port, hp⟩ => exec_bolharLinkChange_up port hp
  case linkDown => exact fun s ⟨port, hp⟩ => exec_bolharLinkChange_down port hp
  case pcieUp => exact fun s ⟨port, hp, lanes⟩ => exec_pcieLinkChange_trains port hp lanes
  case pcieDown => exact fun s ⟨port, other⟩ => exec_pcieLinkChange_fails port other
  case peer => exact fun s => ⟨exec_bolharPeerRequest_write, exec_bolharPeerRequest_read⟩
  case mma =>
    intro s t r rs core es u here received free first
    exact (exec_mmaPerform s).trans (congrArg _ (performMma_free here received free first))

end Sys2Proof.Machine

/-! ## O24: the matrix and tile instructions complete

MMA, MMAG and MMAW run one body (`signBody`); the tile instructions wait for their tiles (`onTiles`), those with a place in the scratchpad
after its checks (`tileAt`). -/

namespace Sys2Proof.Machine

open Sys2Proof

section

variable {i : Instr} {m : MmaMod} {a : Args} {x : Ix} {ls tiles : List Nat} {received : Bool} {s : State}

/-- Once a signature's release has been performed, the one that reaches the declared count issues the MMA, any other is held by the
yoke (R296, R298). -/
theorem signBody_done (turn : signWaits x ls (x.tr.yoke x.rank (yokeNo a.d)) = false)
    (sound : signCheck s x a m (mmaForm i) (x.tr.yoke x.rank (yokeNo a.d)) ls = none) (may : canRelease x .cl s = true) :
    let u := released x .cl s
    let z := signYoke i a x ls u (x.tr.yoke x.rank (yokeNo a.d))
    signBody i m a x ls s = .done (if z.signed.length = z.count then mmaIssue u x i a m (mmaForm i) z
      else modTrain u x.ref.train fun t => t.setYoke x.rank (yokeNo a.d) z) [] none := by
  intro u z
  simp only [signBody, turn, sound, Bool.false_eq_true, if_false]
  exact withRelease_ok x .cl s _ may

/-- MMA, MMAG and MMAW complete where they sign (R296 to R298). -/
theorem sign_completes (h : Issues i a s x) (runs : exec i s = vamer i a false (signBody i m a) s) :
    let t := drawn i a s x
    let y := x.tr.yoke x.rank (yokeNo a.d)
    let u := released x .cl t
    let z := signYoke i a x (enabled x a) u y
    signWaits x (enabled x a) y = false → signCheck t x a m (mmaForm i) y (enabled x a) = none → canRelease x .cl t = true →
    (z.signed.length = y.count → exec i s = .next (through i (mmaIssue u x i a m (mmaForm i) z) x a)) ∧
    (z.signed.length ≠ y.count → exec i s = .next (through i
      (modTrain u x.ref.train fun tr => tr.setYoke x.rank (yokeNo a.d) z) x a)) := by
  intro t y u z turn sound may
  have body := signBody_done turn sound may
  have count : z.count = y.count := rfl
  refine ⟨fun full => ?_, fun short => ?_⟩
  · exact runs.trans (vamer_done h false _ (body.trans (by rw [if_pos (full.trans count.symm)])))
  · exact runs.trans (vamer_done h false _ (body.trans (by rw [if_neg (count ▸ short)])))

/-- No signature is held for an MMA into the tiles and, where received ones are waited for, none is pending (R301). -/
abbrev TilesFree (x : Ix) (received : Bool) (tiles : List Nat) : Prop :=
  ∀ n ∈ tiles, tileSigned x n (fun _ => true) = false ∧ (received = true → tilePending x n = false)

/-- A tile instruction on free tiles goes on once the coach's earlier accesses are performed. -/
theorem onTiles_free (free : TilesFree x received tiles) (f : State → Res) : onTiles tiles received x s f = f (settleX x s) := by
  refine if_neg ?_
  rw [Bool.not_eq_true, List.any_eq_false]
  intro n hn
  obtain ⟨unsigned, performed⟩ := free n hn
  cases received with
  | false => simp [unsigned]
  | true => simp [unsigned, performed rfl]

/-- ALD, AST and ACVT go on at an aligned place in the scratchpad that no copy holds, with their tile free (R301, R309). -/
theorem tileAt_free {bytes : Nat} (f : Nat → State → Res) :
    let o := offVa s x a .disp (ls.headD 0)
    o % 16 = 0 → o + bytes ≤ x.tr.scratch → rangeBusy s x.core x.ref.train o bytes = false → TilesFree x true [tileNo a.a] →
    tileAt a bytes x ls s f = f o (settleX x s) := by
  intro o aligned inside quiet free
  refine (if_neg (not_not_intro aligned)).trans ((if_neg (Nat.not_lt.mpr inside)).trans ((if_neg ?_).trans (onTiles_free free _)))
  rw [quiet]
  decide

/-- The tiles that AWAIT names: all of them where it names none (R306). -/
def awaited (x : Ix) (a : Args) : List Nat :=
  match a.a with
  | .tile n => [n.toNat]
  | _ => List.range x.tr.acc

/-- AWAIT acquires where its own fibres' signatures and every received MMA into its tiles have been worked off (R306). -/
theorem await_completes (h : Issues (.await a) a s x) :
    let t := drawn (.await a) a s x
    (∀ n ∈ awaited x a, tileSigned x n (fun f => (fidsOf x (enabled x a)).contains f) = false ∧ tilePending x n = false) →
    acqMay true .cl x t (acqStart true .cl x t) → exec (.await a) s = .next (through (.await a) (acqStart true .cl x t) x a) := by
  intro t free may
  have none_left : ¬ ((awaited x a).any fun n =>
      tileSigned x n (fun f => (fidsOf x (enabled x a)).contains f) || tilePending x n) = true := by
    rw [Bool.not_eq_true, List.any_eq_false]
    intro n hn
    obtain ⟨unsigned, performed⟩ := free n hn
    rw [unsigned, performed]
    decide
  exact vamer_done h false _ ((if_neg none_left).trans (orderedAcquire_done (body := fun s => .done s [] none) rfl may))

end

/-- Settles O24: a signature, a tile instruction, one with a place in the scratchpad, and AWAIT each have their lemma. -/
theorem matrixComplete : Obligations.MatrixComplete := by
  unfold Obligations.MatrixComplete
  refine ⟨?mma, ?mmag, ?mmaw, ?aclr, ?amov, ?aadd, ?adrop, ?mscl, ?await, ?ald, ?ast, ?acvt⟩
  case mma | mmag =>
    intro m a s x t y u z h
    exact sign_completes h rfl
  case mmaw =>
    intro m g a s x t y u z h
    exact sign_completes h rfl
  case aclr | amov | adrop =>
    intro a s x h free
    exact vamer_done h false _ (onTiles_free free _)
  case aadd =>
    intro int a s x h free
    exact vamer_done h false _ (onTiles_free free _)
  case mscl =>
    intro a s x h free
    exact vamer_done h false _ (onTiles_free free _)
  case await =>
    intro a s x t tiles h
    exact await_completes h
  case ald | ast =>
    intro a s x o h aligned inside quiet free
    exact vamer_done h false _ (tileAt_free _ aligned inside quiet free)
  case acvt =>
    intro df int rm sat a s x o h aligned inside quiet free
    exact vamer_done h false _ (tileAt_free _ aligned inside quiet free)

end Sys2Proof.Machine

/-! ## O60: the values of reset -/

namespace Sys2Proof.Machine

open Sys2Proof

/-- At reset no core has an entry of its own, so that each reads as the initial one. -/
theorem reset_core (k : Nat) : State.reset.core k = Core.init := rfl

/-- Settles O60: the registers are evaluated, and everything else stands in `State.reset`. -/
theorem resetValues : Obligations.ResetValues := by
  unfold Obligations.ResetValues
  refine ⟨by decide, rfl, rfl, by decide, fun k => ?_, rfl, rfl, rfl, rfl, rfl, rfl, rfl⟩
  rw [reset_core]
  exact ⟨rfl, rfl⟩

end Sys2Proof.Machine

/-! ## O25 and O26: queues, cards and levels of class 0xB -/

namespace Sys2Proof.Machine

open Sys2Proof

/-! ### Enqueues (R326, R343, R344, R350) -/

section

variable {a : Args} {offer : Ix → Offer} {limit : Ix → State → Option Nat} {x : Ix} {ls : List Nat} {s u : State} {bs : List Byte}

/-- The queue that an enqueue names, and its wait for room there. -/
abbrev queueOf (s : State) (x : Ix) (a : Args) (ls : List Nat) : Nat := srcI s x a 32 a.b (ls.headD 0)
abbrev roomWait (o : Offer) (q : Nat) : WaitOn := .queue q o.depth

/-- A card that fails a check answers its code (R323, R343). -/
theorem enqBody_refused (card : cardRead x (srcI s x a 64 a.c (ls.headD 0)) s = some (bs, u))
    (fails : cardStatus u x.ctx (queueOf s x a ls) (offer x) (cardOf bs) ≠ 0) :
    enqBody a offer limit x ls s = give x a ls (cardStatus u x.ctx (queueOf s x a ls) (offer x) (cardOf bs)) u := by
  rw [enqBody, onCard_ok card]
  exact if_pos fails

/-- A card whose turn has come at a place is put there after the release (R326). -/
theorem enqBody_accepted {p : Place} :
    let q := queueOf s x a ls
    cardRead x (srcI s x a 64 a.c (ls.headD 0)) s = some (bs, u) → cardStatus u x.ctx q (offer x) (cardOf bs) = 0 →
    turnPlace u q (offer x).depth (waitNo u x (roomWait (offer x) q)) = some p → canRelease x (levelScope x.ctx) u = true →
    enqBody a offer limit x ls s =
      give x a ls 0 (acceptCard (released x (levelScope x.ctx) u) q p x.ctx (offer x) (cardOf bs) bs) := by
  intro q card sound turn may
  rw [enqBody, onCard_ok card]
  refine (if_neg (not_not_intro sound)).trans ?_
  simp only [q, queueOf, srcI, roomWait] at turn
  simp only [turn, withRelease_ok x _ _ _ may]
  rfl

/-- One that has waited for room as long as its limit answers 1 (R343). -/
theorem enqBody_late {n : Nat} :
    let q := queueOf s x a ls
    cardRead x (srcI s x a 64 a.c (ls.headD 0)) s = some (bs, u) → cardStatus u x.ctx q (offer x) (cardOf bs) = 0 →
    turnPlace u q (offer x).depth (waitNo u x (roomWait (offer x) q)) = none → limit x u = some n →
    x.fr.deadline.getD (u.rtime + rtCap n) ≤ u.rtime → enqBody a offer limit x ls s = give x a ls 1 u := by
  intro q card sound full limited late
  rw [enqBody, onCard_ok card]
  refine (if_neg (not_not_intro sound)).trans ?_
  simp only [q, queueOf, srcI, roomWait] at full
  simp only [full, limited, Option.map_some, late, decide_true, if_true]

/-- Each enqueue answers the status of its card, or accepts it. -/
theorem enq_completes {i : Instr} {body : Ix → List Nat → State → Res} (h : Issues i a s x) (runs : exec i s = vamer i a false body s)
    (enqueues : body x (enabled x a) (drawn i a s x) = enqBody a offer limit x (enabled x a) (drawn i a s x)) :
    let t := drawn i a s x
    let q := queueOf t x a (enabled x a)
    let st := cardStatus u x.ctx q (offer x) (cardOf bs)
    cardRead x (srcI t x a 64 a.c ((enabled x a).headD 0)) t = some (bs, u) →
    (st ≠ 0 → exec i s = .next (through i (gave x a st u) x a)) ∧
    (∀ p, st = 0 → turnPlace u q (offer x).depth (waitNo u x (roomWait (offer x) q)) = some p →
      canRelease x (levelScope x.ctx) u = true → exec i s = .next (through i (gave x a 0
        (acceptCard (released x (levelScope x.ctx) u) q p x.ctx (offer x) (cardOf bs) bs)) x a)) := by
  intro t q st card
  refine ⟨fun fails => ?_, fun p sound turn may => ?_⟩
  · exact runs.trans (vamer_done h false _ (enqueues.trans (enqBody_refused card fails)))
  · exact runs.trans (vamer_done h false _ (enqueues.trans (enqBody_accepted card sound turn may)))

end

/-! ### Publication and claims (R345, R346) -/

section

variable {a : Args} {x : Ix} {ls : List Nat} {s : State}

theorem qpubRsv_completes (h : Issues (.qpubRsv a) a s x) :
    let t := drawn (.qpubRsv a) a s x
    let n := queueOf t x a (enabled x a)
    let q := t.queue n
    exec (.qpubRsv a) s = .next (through (.qpubRsv a) (if noSlot t x.ctx n then gave x a 0xFFFFFFFF t
      else gave x a (q.tail.toNat % q.cap) (setQueue t n { q with
        ring := mset q.ring q.tail.toNat ⟨cardOf [], x.ctx, .reserved x.ref.train, 0, 0, 0⟩, tail := q.tail + 1 })) x a) := by
  intro t n q
  refine vamer_done h false _ ?_
  dsimp only
  split
  · rfl
  · rfl

/-- A reserved card that passes the checks is published, one that fails leaves the ring (R345). -/
theorem publish_checked {n i : Nat} {bs : List Byte} (card : ringCard s n i = some bs) :
    let st := cardStatus s x.ctx n .launch (cardOf bs)
    (st = 0 → publish x a ls n i s = give x a ls 0 (acceptCard s n (.ring i) x.ctx .launch (cardOf bs) bs)) ∧
    (st ≠ 0 → publish x a ls n i s = give x a ls st (cardGone s n (.ring i))) := by
  intro st
  refine ⟨fun sound => ?_, fun fails => ?_⟩
  · simp only [publish, card]
    exact if_neg (not_not_intro sound)
  · simp only [publish, card]
    exact if_pos fails

/-- QPUB of a position that its train has reserved checks and publishes the card after its release (R345). -/
theorem qpub_completes {i : Nat} {bs : List Byte} (h : Issues (.qpub a) a s x) :
    let t := drawn (.qpub a) a s x
    let n := queueOf t x a (enabled x a)
    let u := released x (levelScope x.ctx) t
    let st := cardStatus u x.ctx n .launch (cardOf bs)
    slotOf t x n (srcI t x a 32 a.c ((enabled x a).headD 0)) = some i → canRelease x (levelScope x.ctx) t = true →
    ringCard u n i = some bs →
    (st = 0 → exec (.qpub a) s = .next (through (.qpub a) (gave x a 0 (acceptCard u n (.ring i) x.ctx .launch (cardOf bs) bs)) x a)) ∧
    (st ≠ 0 → exec (.qpub a) s = .next (through (.qpub a) (gave x a st (cardGone u n (.ring i))) x a)) := by
  intro t n u st slot may card
  have runs : qpubBody x a (enabled x a) n (slotOf t x n (srcI t x a 32 a.c ((enabled x a).headD 0))) t =
      publish x a (enabled x a) n i u := by
    rw [slot]
    exact withRelease_ok x _ _ _ may
  obtain ⟨publishes, leaves⟩ := publish_checked (x := x) (a := a) (ls := enabled x a) card
  exact ⟨fun sound => vamer_done h false _ (runs.trans (publishes sound)),
    fun fails => vamer_done h false _ (runs.trans (leaves fails))⟩

/-- QPUB of any other position answers 2 (R345). -/
theorem qpub_unreserved (h : Issues (.qpub a) a s x) :
    let t := drawn (.qpub a) a s x
    slotOf t x (queueOf t x a (enabled x a)) (srcI t x a 32 a.c ((enabled x a).headD 0)) = none →
    exec (.qpub a) s = .next (through (.qpub a) (gave x a 2 t) x a) := by
  intro t noSlot
  refine vamer_done h false _ ?_
  dsimp only
  rw [show slotOf (drawn (.qpub a) a s x) x _ _ = none from noSlot]
  rfl

/-- QCLAIM answers a chunk of the train's own card where that is a candidate, otherwise 0 (R346). -/
theorem qclaim_completes (h : Issues (.qclaim a) a s x) :
    let t := drawn (.qclaim a) a s x
    let r := match ownCard t x.tr with
      | some p => claimCard t x.tr.queue.toNat p
      | none => (none, t)
    exec (.qclaim a) s = .next (through (.qclaim a) (match r.1 with
      | some c => wr (modTrain r.2 x.ref.train fun tr => { tr with claimed := tr.claimed + c.count }) x a.a 64
          ((enabled x a).map fun l => (l, (if c.count = 0 then 0 else c.first) + 2 ^ 32 * c.count))
      | none => wr r.2 x a.a 64 ((enabled x a).map fun l => (l, 0))) x a) := by
  refine vamer_done h false _ ?_
  dsimp only
  cases ownCard (drawn (.qclaim a) a s x) x.tr with
  | none => rfl
  | some p =>
    dsimp only
    cases claimCard (drawn (.qclaim a) a s x) x.tr.queue.toNat p with
    | mk c u =>
      cases c with
      | none => rfl
      | some c => rfl

end

/-- Settles O25: each enqueue runs `enqBody`, and the others have lemmas of their own. -/
theorem queueComplete : Obligations.QueueComplete := by
  unfold Obligations.QueueComplete
  refine ⟨?enq, ?enqt, ?spawn, ?cfill, ?late, ?rsv, ?qpub, ?unreserved, ?qclaim, ?qstat⟩
  case enq | enqt | spawn | cfill =>
    intro a s x bs u t q st h card
    exact enq_completes h rfl rfl card
  case late =>
    intro a s x bs u t q h card sound full late
    exact vamer_done h false _ (enqBody_late card sound full rfl late)
  case rsv => exact fun a s x h => qpubRsv_completes h
  case qpub =>
    intro a s x i bs t n u st h slot may card
    exact qpub_completes h slot may card
  case unreserved => exact fun a s x h none => qpub_unreserved h none
  case qclaim => exact fun a s x h => qclaim_completes h
  case qstat => exact fun a s x h => vamer_done h false _ rfl

/-! ### Levels (R347 to R349) -/

section

variable {a : Args} {s : State} {x : Ix}

/-- The level that an instruction names, and whether it counts nothing. -/
abbrev levelNamed (s : State) (x : Ix) (a : Args) : Nat := srcI s x a 32 a.b ((enabled x a).headD 0)
abbrev LevelZero (s : State) (x : Ix) (a : Args) : Prop := (levelGet s x.ctx (levelNamed s x a)).count = 0

/-- SJOIN of an invalid level goes on at once, of a valid one at COUNT 0 after its acquire (R347). -/
theorem sjoin_completes (h : Issues (.sjoin a) a s x) :
    let t := drawn (.sjoin a) a s x
    (levelValid t x.ctx (levelNamed t x a) = false → exec (.sjoin a) s = .next (through (.sjoin a) t x a)) ∧
    (levelValid t x.ctx (levelNamed t x a) = true → LevelZero t x a → acqMay true .pt x t (acqStart true .pt x t) →
      exec (.sjoin a) s = .next (through (.sjoin a) (acqStart true .pt x t) x a)) := by
  intro t
  refine ⟨fun invalid => ?_, fun valid zero may => ?_⟩
  · have skips : (!levelValid t x.ctx (levelNamed t x a)) = true := by rw [invalid]; rfl
    exact vamer_done h false _ (if_pos skips)
  · have stays : ¬ (!levelValid t x.ctx (levelNamed t x a)) = true := by rw [valid]; decide
    exact vamer_done h false _ ((if_neg stays).trans ((if_pos zero).trans (acquiring_done (k := fun s => .done s [] none) rfl may)))

/-- What LVINC of `d` makes of the state: the change of COUNT, where there is one (R348). -/
def incremented (ctx id : Nat) (d : Int) (s : State) : Option State :=
  if d = 0 then some s else levelAdd ctx levelFuel s id d none

/-- LVINC that stays in range releases, then changes COUNT and answers what it was (R348). -/
theorem lvinc_completes (h : Issues (.lvinc a) a s x) {v : State} :
    let t := drawn (.lvinc a) a s x
    let d := (w32 (srcI t x a 32 a.c ((enabled x a).headD 0))).toInt
    let u := released x (levelScope x.ctx) t
    (incremented x.ctx (levelNamed t x a) d t).isSome = true → canRelease x (levelScope x.ctx) t = true →
    incremented x.ctx (levelNamed t x a) d u = some v →
    exec (.lvinc a) s = .next (through (.lvinc a) (gave x a (levelGet u x.ctx (levelNamed t x a)).count.toNat v) x a) := by
  intro t d u inRange may added
  have stays : ¬ (incremented x.ctx (levelNamed t x a) d t).isNone = true := by
    rwa [Option.isNone_iff_eq_none, ← ne_eq, ← Option.isSome_iff_ne_none]
  exact vamer_done h false _ ((if_neg stays).trans ((withRelease_ok x _ t _ may).trans
    (congrArg (fun (o : Option State) => give x a (enabled x a) (levelGet u x.ctx (levelNamed t x a)).count.toNat (o.getD u)) added)))

end

/-- Settles O26: the waits acquire, LVINC releases, the others answer at once. -/
theorem levelComplete : Obligations.LevelComplete := by
  unfold Obligations.LevelComplete
  refine ⟨?sjoin, ?lvwait, ?lvwaitT, ?lvrd, ?lvinc, ?lvinc0, ?cancel, ?clear⟩
  case sjoin => exact fun a s x h => sjoin_completes h
  case lvwait =>
    intro a s x t u h zero may
    exact vamer_done h false _ ((if_neg Bool.false_ne_true).trans ((if_pos zero).trans (acquiring_done rfl may)))
  case lvwaitT =>
    intro a s x t0 t u due h
    obtain ⟨left, late⟩ := timed_completes (left := decide (LevelZero t0 x a)) (sc := .pt) (time := a.c) h rfl rfl
    exact ⟨fun zero => left (decide_eq_true zero), fun counts => late (decide_eq_false counts)⟩
  case lvrd => exact fun st a s x h => vamer_done h false _ rfl
  case lvinc =>
    intro a s x v t id d u h changes inRange may added
    have adds (s : State) : incremented x.ctx id d s = levelAdd x.ctx levelFuel s id d none := if_neg changes
    exact lvinc_completes h ((adds t).symm ▸ inRange) may ((adds u).trans added)
  case lvinc0 =>
    intro a s x t u h zero may
    have same (s : State) : incremented x.ctx (levelNamed t x a) _ s = some s := if_pos (congrArg BitVec.toInt zero)
    exact lvinc_completes h (congrArg Option.isSome (same t)) may (same u)
  case cancel | clear => exact fun a s x h => vamer_done h false _ rfl

end Sys2Proof.Machine

/-! ## O36: the events of cards, trains, fills and sensors

One lemma for each outcome of an event; the obligation collects them. -/

namespace Sys2Proof.Machine

open Sys2Proof

section

variable {s : State} {k : QCard} {st : CardSt}

/-! ### Cards (R319, R328, R329) -/

/-- The card in the event's place stands in state `st` where cards are examined (R328). -/
structure CardStands (s : State) (k : QCard) (st : CardSt) : Prop where
  here : (s.queue s.ev.i).card? s.ev.place = some k
  examined : isExamined (s.queue s.ev.i) s.ev.place = true
  state : k.st = st

theorem exec_cardAdmission (s : State) : exec .cardAdmission s = execCardAdmission s := rfl

/-- What an admission does with a card that it examines. -/
theorem exec_cardAdmission_stands (h : CardStands s k .admitting) : exec .cardAdmission s = .next
    (if chainCancelled s k then dropCard s s.ev.i s.ev.place
     else if k.card.isFill then setCardSt s s.ev.i s.ev.place .wait
     else if k.card.argcount = 0 then cardGone s s.ev.i s.ev.place
     else if admitCode s k ≠ 0 then refuseCard s s.ev.i s.ev.place (admitCode s k) else setCardSt s s.ev.i s.ev.place .wait) := by
  have examines : ¬ (decide (k.st ≠ .admitting) || !isExamined (s.queue s.ev.i) s.ev.place) = true := by simp [h.state, h.examined]
  simp only [exec_cardAdmission, execCardAdmission, h.here]
  exact congrArg _ (if_neg examines)

theorem exec_cardAdmission_cancelled (h : CardStands s k .admitting) (cancelled : chainCancelled s k = true) :
    exec .cardAdmission s = .next (dropCard s s.ev.i s.ev.place) := by
  rw [exec_cardAdmission_stands h, if_pos cancelled]

section

variable (h : CardStands s k .admitting) (live : chainCancelled s k = false)
include h live

theorem exec_cardAdmission_admitted (sound : k.card.isFill = true ∨ (k.card.argcount ≠ 0 ∧ admitCode s k = 0)) :
    exec .cardAdmission s = .next (setCardSt s s.ev.i s.ev.place .wait) := by
  rw [exec_cardAdmission_stands h]
  rcases sound with fill | ⟨records, fits⟩
  · simp [live, fill]
  · rw [if_neg (by simp [live]), if_neg records, if_neg (not_not_intro fits), ite_self]

theorem exec_cardAdmission_empty (launch : k.card.isFill = false) (none_left : k.card.argcount = 0) :
    exec .cardAdmission s = .next (cardGone s s.ev.i s.ev.place) := by
  simp [exec_cardAdmission_stands h, live, launch, none_left]

theorem exec_cardAdmission_refused (launch : k.card.isFill = false) (records : k.card.argcount ≠ 0) (fails : admitCode s k ≠ 0) :
    exec .cardAdmission s = .next (refuseCard s s.ev.i s.ev.place (admitCode s k)) := by
  rw [exec_cardAdmission_stands h, if_neg (by simp [live]), if_neg (by simp [launch]), if_neg records, if_pos fails]

end

theorem exec_cardReady (s : State) : exec .cardReady s = execCardReady s := rfl

/-- What becomes of a card that waits or is ready, where it is examined. -/
theorem exec_cardReady_stands (waits : st = .wait ∨ st = .ready) (h : CardStands s k st) : exec .cardReady s = .next
    (if chainCancelled s k then dropCard s s.ev.i s.ev.place
     else if k.st ≠ .wait || !afterDone s k then s
     else if k.card.vchk && k.card.expvint.toNat ≠ vintageOf s k.ctx then refuseCard s s.ev.i s.ev.place 0x12
     else setCardSt s s.ev.i s.ev.place .ready) := by
  have examines : ¬ ((decide (k.st ≠ .wait) && decide (k.st ≠ .ready)) || !isExamined (s.queue s.ev.i) s.ev.place) = true := by
    rcases waits with e | e
    all_goals simp [h.state, h.examined, e]
  simp only [exec_cardReady, execCardReady, h.here]
  exact congrArg _ (if_neg examines)

theorem exec_cardReady_cancelled (waits : st = .wait ∨ st = .ready) (h : CardStands s k st) (cancelled : chainCancelled s k = true) :
    exec .cardReady s = .next (dropCard s s.ev.i s.ev.place) := by
  rw [exec_cardReady_stands waits h, if_pos cancelled]

section

variable (h : CardStands s k .wait) (live : chainCancelled s k = false) (after : afterDone s k = true)
include h live after

/-- A card whose AFTER levels read 0 becomes ready if the vintage that it expects, if any, is the partition's. -/
theorem exec_cardReady_ready (vintage : k.card.vchk = true → k.card.expvint.toNat = vintageOf s k.ctx) :
    exec .cardReady s = .next (setCardSt s s.ev.i s.ev.place .ready) := by
  have agrees : ¬ (k.card.vchk && decide (k.card.expvint.toNat ≠ vintageOf s k.ctx)) = true := by simpa using vintage
  rw [exec_cardReady_stands (.inl rfl) h, if_neg (by simp [live]), if_neg (by simp [h.state, after]), if_neg agrees]

theorem exec_cardReady_refused (checks : k.card.vchk = true) (other : k.card.expvint.toNat ≠ vintageOf s k.ctx) :
    exec .cardReady s = .next (refuseCard s s.ev.i s.ev.place 0x12) := by
  simp [exec_cardReady_stands (.inl rfl) h, live, h.state, after, checks, other]

end

/-! ### Placement (R335 to R337, R453) -/

theorem exec_trainPlacement (s : State) : exec .trainPlacement s = execTrainPlacement s := rfl

section

variable {n : Nat} {p : Place} (places : dispatches s s.ev.k = true) (first : firstCandidate s s.ev.j = some (n, p, k))
  (may : mayDispatch s s.ev.i s.ev.j s.ev.k k = true)
include places first may

/-- A card that may be dispatched is placed whole, or by one visit. -/
theorem exec_trainPlacement_candidate : exec .trainPlacement s = .next
    (if k.card.gbar then
       match gbarPlans s s.ev.j s.ev.k k with
       | none => s
       | some ps => ps.foldl (placeFlagged s.ev.j s.ev.k n p) s
     else placeVisit s s.ev.i s.ev.j s.ev.k n p k) := by
  have goes : ¬ (!mayDispatch s s.ev.i s.ev.j s.ev.k k) = true := by simp [may]
  simp only [exec_trainPlacement, execTrainPlacement, places, first, Bool.not_true, Bool.false_eq_true, if_false]
  exact congrArg _ (if_neg goes)

theorem exec_trainPlacement_visit {plan : List (Nat × Nat)} {cl : Claim} {u : State} (one : k.card.gbar = false) :
    let v := visits s s.ev.i s.ev.j s.ev.k k
    v.1 = some plan →
    claimCard (keepPointer (keepSkips s v.2) s.ev.i s.ev.j s.ev.k n (plan.headD (0, 0)).1) n p = (some cl, u) →
    exec .trainPlacement s = .next (breakTrain (startTrain u n cl plan) u.trainNext) := by
  intro v planned claimed
  rw [exec_trainPlacement_candidate places first may, one, if_neg Bool.false_ne_true]
  simp only [placeVisit, v] at planned claimed ⊢
  simp only [planned, placeClaim, claimed]

theorem exec_trainPlacement_flagged {ps : List (List (Nat × Nat))} (all : k.card.gbar = true)
    (plans : gbarPlans s s.ev.j s.ev.k k = some ps) :
    exec .trainPlacement s = .next (ps.foldl (placeFlagged s.ev.j s.ev.k n p) s) := by
  rw [exec_trainPlacement_candidate places first may, all, if_pos rfl, plans]

end

/-! ### Trains (R338, R413) -/

theorem exec_trainRetire (s : State) : exec .trainRetire s = .next (if canRetire s s.ev.i then removeTrain s s.ev.i true else s) := rfl

theorem exec_trainSuspend (s : State) : exec .trainSuspend s = .next (if canSuspend s s.ev.i then stopTrain s s.ev.i .suspended else s) :=
  rfl

theorem exec_trainResume (s : State) : exec .trainResume s = execTrainResume s := rfl

theorem exec_trainResume_restored {t : Train} {cores : List Nat} (here : mget s.trains s.ev.i = some t)
    (may : mayResume s s.ev.i t = true) (plan : restorePlan s t = some cores) :
    exec .trainResume s = .next (restoreTrain s s.ev.i cores) := by
  simp only [exec_trainResume, execTrainResume, here, may, if_true, plan]

/-! ### Fills (R339, R340) -/

theorem exec_fillStart (s : State) : exec .fillStart s = execFillStart s := rfl

theorem exec_fillStart_starts {n : Nat} {p : Place} (none_on : mget s.fills s.ev.i = none) (idle : partIdle s s.ev.i = true)
    (candidate : fillCandidate s s.ev.i = some (n, p, k)) (live : chainCancelled s k = false) :
    exec .fillStart s = .next { setCardSt s n p .filling with fills := mset s.fills s.ev.i ⟨n, p, k.ctx, k.card⟩ } := by
  simp [exec_fillStart, execFillStart, none_on, idle, candidate, live]

theorem exec_fillComplete (s : State) : exec .fillComplete s = execFillComplete s := rfl

/-- A fill that ends raises the vintage, whole or abandoned (R340). -/
theorem exec_fillComplete_ends {f : Fill} {ok : Bool} {u : State} (here : mget s.fills s.ev.i = some f)
    (paid : outOf s f.ctx .mem = false) (copied : fillChunks s.ev.i f (f.card.argsize.toNat / 16) 0 s = (ok, u)) :
    let v := { u with
      vintage := mput 0 u.vintage s.ev.i ((mgetD u.vintage s.ev.i 0 + 1) % (2 ^ 32 - 1)), fills := mdel u.fills s.ev.i }
    exec .fillComplete s = .next (if ok then dropCard v f.queue f.place else refuseCard v f.queue f.place 0x13) := by
  intro v
  simp only [exec_fillComplete, execFillComplete, here, paid, copied, Bool.false_eq_true, if_false, v]

/-! ### Sensors, slot tables and queue registers (R324, R333, R334) -/

theorem exec_sensorClassUpdate (s : State) : exec .sensorClassUpdate s = execSensorClassUpdate s := rfl

theorem exec_sensorClassUpdate_due (due : s.rtime % 1024 = 0) (core : s.ev.i < 768) : exec .sensorClassUpdate s =
    .next (modCore s s.ev.i fun c => { c with cls := sensorClass s.host.config.thr s.ev.j s.ev.k }) := by
  simp [exec_sensorClassUpdate, execSensorClassUpdate, due, core]

/-- A value without reserved bits is written whole, and nothing is counted (R5). -/
theorem dropRsvd_state_of_clean {mask v : Nat} (clean : v &&& mask = 0) : (dropRsvd s mask v).2 = s := if_neg (not_not_intro clean)

theorem exec_sltBindWrite (s : State) : exec .sltBindWrite s = execSltBindWrite s := rfl

theorem exec_sltBindWrite_binds (core : s.ev.i < 768) (clean : s.ev.x.toNat &&& (7 * 2 ^ 60) = 0)
    (whole : isRetired s 1 (s.ev.i / 4) = false) : exec .sltBindWrite s = .next (bindCore s s.ev.i (bindOf s.ev.x.toNat)) := by
  simp only [exec_sltBindWrite, execSltBindWrite, dropRsvd_state_of_clean clean, core, whole]
  rfl

theorem exec_qcRegisterWrite (s : State) : exec .qcRegisterWrite s =
    .next (if s.ev.i < 65536 then qcWrite s s.ev.i (qregOffset s.ev.qreg) (s.ev.x.toNat % 2 ^ 32) else s) := rfl

end

/-- Settles O36: each clause is the lemma of its event's outcome. -/
theorem scheduleEvents : Obligations.ScheduleEvents := by
  unfold Obligations.ScheduleEvents
  refine ⟨?dropped, ?admitted, ?empty, ?refused, ?droppedLate, ?ready, ?stale, ?visit, ?flagged, ?retire, ?suspend, ?resume, ?fillStart,
    ?fillComplete, ?sensor, ?bind, ?register⟩
  case dropped => exact fun k s ⟨⟨here, ex, st⟩, cancelled⟩ => exec_cardAdmission_cancelled ⟨here, ex, st⟩ cancelled
  case admitted => exact fun k s ⟨⟨here, ex, st⟩, live, sound⟩ => exec_cardAdmission_admitted ⟨here, ex, st⟩ live sound
  case empty => exact fun k s ⟨⟨here, ex, st⟩, live, launch, none_left⟩ => exec_cardAdmission_empty ⟨here, ex, st⟩ live launch none_left
  case refused =>
    exact fun k s ⟨⟨here, ex, st⟩, live, launch, records, fails⟩ => exec_cardAdmission_refused ⟨here, ex, st⟩ live launch records fails
  case droppedLate => exact fun k st waits s ⟨⟨here, ex, e⟩, cancelled⟩ => exec_cardReady_cancelled waits ⟨here, ex, e⟩ cancelled
  case ready => exact fun k s ⟨⟨here, ex, st⟩, live, after, vintage⟩ => exec_cardReady_ready ⟨here, ex, st⟩ live after vintage
  case stale =>
    exact fun k s ⟨⟨here, ex, st⟩, live, after, checks, other⟩ => exec_cardReady_refused ⟨here, ex, st⟩ live after checks other
  case visit =>
    intro s n p k plan cl u v places first may one planned claimed
    exact exec_trainPlacement_visit places first may one planned claimed
  case flagged => exact fun s n p k ps places first may all plans => exec_trainPlacement_flagged places first may all plans
  case retire => exact fun s can => (exec_trainRetire s).trans (congrArg _ (if_pos can))
  case suspend => exact fun s can => (exec_trainSuspend s).trans (congrArg _ (if_pos can))
  case resume => exact fun t cores s ⟨here, may, plan⟩ => exec_trainResume_restored here may plan
  case fillStart => exact fun n p k s ⟨none_on, idle, candidate, live⟩ => exec_fillStart_starts none_on idle candidate live
  case fillComplete => exact fun s f ok u here paid copied => exec_fillComplete_ends here paid copied
  case sensor => exact fun s ⟨due, core⟩ => exec_sensorClassUpdate_due due core
  case bind => exact fun s ⟨core, clean, whole⟩ => exec_sltBindWrite_binds core clean whole
  case register => exact fun s queue => (exec_qcRegisterWrite s).trans (congrArg _ (if_pos queue))

end Sys2Proof.Machine

/-! ## O27: the context instructions of class 0xC complete

Those that act on a child run one body (`onChild`) after their release; with what it does for the three kinds of operand stated once
(`child_completes`), each instruction has only its own operation to show. -/

namespace Sys2Proof.Machine

open Sys2Proof

section

variable {i : Instr} {a : Args} {s : State} {x : Ix}

/-! ### The child operand (R387, R388) -/

/-- What `i` does with its operand once it has released: NOCTX, BUSY, or its operation on the child (R388). -/
abbrev ActsOnChild (i : Instr) (a : Args) (f : State → Ix → Nat → Option State) : Prop := ∀ s x,
  let t := drawn i a s x
  let u := released x (levelScope x.ctx) t
  let c := ctxOperand u x a a.b (enabled x a)
  Issues i a s x → canRelease x (levelScope x.ctx) t = true →
  (isChild u x.ctx c = false → exec i s = .next (through i (gave x a eNOCTX u) x a)) ∧
  (isChild u x.ctx c = true → ctxBusy u c = true → exec i s = .next (through i (gave x a eBUSY u) x a)) ∧
  (isChild u x.ctx c = true → ctxBusy u c = false → ∀ v, f u x c = some v → exec i s = .next (through i v x a))

section

variable {f : Ix → Nat → List Nat → State → Res} {ls : List Nat} (may : canRelease x (levelScope x.ctx) s = true)
include may

theorem onChild_noctx :
    let u := released x (levelScope x.ctx) s
    isChild u x.ctx (ctxOperand u x a a.b ls) = false → onChild a f x ls s = give x a ls eNOCTX u := by
  intro u stranger
  exact (withRelease_ok x _ s _ may).trans (if_pos (by simpa using stranger))

theorem onChild_busy :
    let u := released x (levelScope x.ctx) s
    let c := ctxOperand u x a a.b ls
    isChild u x.ctx c = true → ctxBusy u c = true → onChild a f x ls s = give x a ls eBUSY u := by
  intro u c child busy
  exact (withRelease_ok x _ s _ may).trans ((if_neg (by simpa using child)).trans (if_pos busy))

theorem onChild_free :
    let u := released x (levelScope x.ctx) s
    let c := ctxOperand u x a a.b ls
    isChild u x.ctx c = true → ctxBusy u c = false → onChild a f x ls s = f x c ls u := by
  intro u c child free
  exact (withRelease_ok x _ s _ may).trans ((if_neg (by simpa using child)).trans (if_neg (by simpa using free)))

end

/-- An instruction whose body is `onChild` of an operation acts on a child. -/
theorem child_completes {f : State → Ix → Nat → Option State} {op : Ix → Nat → List Nat → State → Res}
    (runs : ∀ s, exec i s = vamer i a false (onChild a op) s)
    (performs : ∀ u x c v, f u x c = some v → op x c (enabled x a) u = .done v [] none) : ActsOnChild i a f := by
  intro s x t u c h may
  refine ⟨fun stranger => ?_, fun child busy => ?_, fun child free v done => ?_⟩
  · exact (runs s).trans (vamer_done h false _ (onChild_noctx may stranger))
  · exact (runs s).trans (vamer_done h false _ (onChild_busy may child busy))
  · exact (runs s).trans (vamer_done h false _ ((onChild_free may child free).trans (performs u x c v done)))

/-- A child that does not migrate takes a stop or a revocation (R352). -/
theorem unlessMigrating_of_staying {u v : State} {c : Nat} {ls : List Nat} {o : Option State} {k : Res}
    (stays : (if (u.ctx c).st = .migrating then none else o) = some v) (performs : o = some v → k = .done v [] none) :
    unlessMigrating x a c ls u k = .done v [] none := by
  split at stays
  · exact nomatch stays
  · next other => exact (if_neg other).trans (performs stays)

/-- What a stop answers in each lane (R372). -/
theorem stop_completes {kind : OpKind} (runs : ∀ s, exec i s = vamer i a false (stopBody kind a) s) :
    ActsOnChild i a fun u x c => if (u.ctx c).st = .migrating then none
      else some (gave x a (ctxStop u x.ctx c kind).1 (ctxStop u x.ctx c kind).2) := by
  refine child_completes runs fun u x c v stays => unlessMigrating_of_staying stays fun done => ?_
  cases done
  rfl

/-- An operation that reads a structure is performed once its bytes are there. -/
theorem readStruct_map_done {u v : State} {va n : Nat} {ls : List Nat} {g : List Byte × State → State} {f : List Byte → State → Res}
    (done : (structRead x va n u).map g = some v) (performs : ∀ bs w, f bs w = .done (g (bs, w)) [] none) :
    readStruct x va n ls u f = .done v [] none := by
  obtain ⟨⟨bs, w⟩, read, rfl⟩ := Option.map_eq_some_iff.mp done
  exact (readStruct_ok read f).trans (performs bs w)

/-- CTX.GRANT answers once no other key holds the map image of the child that it changes (R362). -/
theorem ctxGrant_performs {u v : State} {c : Nat}
    (done : ((structRead x (addrOp u x a a.c (enabled x a)) 32 u).bind fun r =>
      let q := ctxGrant r.2 x.ctx c r.1
      if (q.2.ctx c).gmap ≠ (r.2.ctx c).gmap && mapStuck r.2 c then none else some (gave x a q.1 q.2)) = some v) :
    (readStruct x (addrOp u x a a.c (enabled x a)) 32 (enabled x a) u fun bs s =>
      let r := ctxGrant s x.ctx c bs
      if (r.2.ctx c).gmap ≠ (s.ctx c).gmap && mapStuck s c then .wait .other fun s => mapReport s c
      else giveCtx x a (enabled x a) r) = .done v [] none := by
  obtain ⟨⟨bs, w⟩, read, answered⟩ := Option.bind_eq_some_iff.mp done
  refine (readStruct_ok read _).trans ?_
  dsimp only at answered ⊢
  split at answered
  · exact nomatch answered
  · next free =>
    cases answered
    exact if_neg free

/-- A report is passed on where the issuer's is in order (R390). -/
theorem reflectTo_performs {u v : State} {c : Nat}
    (done : ((structRead x (addrOp u x a a.c (enabled x a)) 64 u).map fun r =>
      if reportRsvd r.1 then gave x a eFORMAT r.2
      else gave x a 0 (sendReport r.2 c { reportOf r.1 with reflected := true })) = some v) :
    reflectTo x a c (enabled x a) u = .done v [] none := by
  refine readStruct_map_done done fun bs w => ?_
  dsimp only
  split
  all_goals rfl

/-! ### The operations on a child (R386, R389, R390) -/

section

variable {a : Args}

theorem ctxGrant_acts : ActsOnChild (.ctxGrant a) a fun u x c => (structRead x (addrOp u x a a.c (enabled x a)) 32 u).bind fun r =>
    let q := ctxGrant r.2 x.ctx c r.1
    if (q.2.ctx c).gmap ≠ (r.2.ctx c).gmap && mapStuck r.2 c then none else some (gave x a q.1 q.2) :=
  child_completes (fun _ => rfl) fun _ _ _ _ done => ctxGrant_performs done

theorem ctxRevoke_acts_whole {drain : Bool} (whole : a.c = .zero) : ActsOnChild (.ctxRevoke drain a) a fun u x c =>
    if (u.ctx c).st = .migrating then none
    else some (gave x a (ctxRevoke u x.ctx c drain none).1 (ctxRevoke u x.ctx c drain none).2) := by
  refine child_completes (fun _ => rfl) fun u x c v stays => unlessMigrating_of_staying stays fun done => ?_
  cases done
  exact if_pos whole

theorem ctxRevoke_acts_one {drain : Bool} (one : a.c ≠ .zero) : ActsOnChild (.ctxRevoke drain a) a fun u x c =>
    if (u.ctx c).st = .migrating then none
    else (structRead x (addrOp u x a a.c (enabled x a)) 32 u).map fun r =>
      gave x a (ctxRevoke r.2 x.ctx c drain (some r.1)).1 (ctxRevoke r.2 x.ctx c drain (some r.1)).2 := by
  refine child_completes (fun _ => rfl) fun u x c v stays => unlessMigrating_of_staying stays fun done => ?_
  exact (if_neg one).trans (readStruct_map_done done fun _ _ => rfl)

theorem ctxRun_acts : ActsOnChild (.ctxRun a) a fun u x c =>
    let r := ctxRun u c (addrOp u x a a.c (enabled x a)) (srcI u x a 32 a.d ((enabled x a).headD 0) % 65536)
    some (gave x a r.1 r.2) :=
  child_completes (fun _ => rfl) fun _ _ _ _ done => congrArg (Res.done · [] none) (Option.some.inj done)

theorem ctxBudget_acts : ActsOnChild (.ctxBudget a) a fun u x c => (structRead x (addrOp u x a a.c (enabled x a)) 48 u).map fun r =>
    gave x a (ctxBudget r.2 x.ctx c r.1).1 (ctxBudget r.2 x.ctx c r.1).2 :=
  child_completes (fun _ => rfl) fun _ _ _ _ done => readStruct_map_done done fun _ _ => rfl

theorem ctxBudgetRd_acts : ActsOnChild (.ctxBudgetRd a) a fun u x c =>
    (structWrite x ((addrOp u x a a.c (enabled x a) + 4) % 2 ^ 64) (budgetBytes (u.ctx c)) u).map fun v => gave x a 0 v := by
  refine child_completes (fun _ => rfl) fun u x c v done => ?_
  obtain ⟨w, written, rfl⟩ := Option.map_eq_some_iff.mp done
  exact writeStruct_ok written _

theorem ctxReflectMask_acts : ActsOnChild (.ctxReflectMask a) a fun u x c =>
    some (gave x a 0 (modCtx u c fun y => { y with reflect := w32 (srcI u x a 32 a.c ((enabled x a).headD 0)) })) :=
  child_completes (fun _ => rfl) fun _ _ _ _ done => congrArg (Res.done · [] none) (Option.some.inj done)

theorem ctxReflectDown_acts : ActsOnChild (.ctxReflectDown a) a fun u x c =>
    (structRead x (addrOp u x a a.c (enabled x a)) 64 u).map fun r =>
      if reportRsvd r.1 then gave x a eFORMAT r.2
      else gave x a 0 (sendReport r.2 c { reportOf r.1 with reflected := true }) :=
  child_completes (fun _ => rfl) fun _ _ _ _ done => reflectTo_performs done

end

/-! ### CTX.NEW, CTX.REFLECT.up and CTX.REFLECT.ret (R353, R390, R395) -/

theorem ctxNew_completes {bs : List Byte} {v : State} (h : Issues (.ctxNew a) a s x) :
    let t := drawn (.ctxNew a) a s x
    let u := released x (levelScope x.ctx) t
    canRelease x (levelScope x.ctx) t = true → structRead x (addrOp u x a a.b (enabled x a)) 64 u = some (bs, v) →
    exec (.ctxNew a) s = .next (through (.ctxNew a) (gave x a (ctxNew v x.ctx bs).1 (ctxNew v x.ctx bs).2) x a) := by
  intro t u may read
  exact vamer_done h false _ ((withRelease_ok x _ t _ may).trans (readStruct_ok read _))

theorem ctxReflectUp_completes (h : Issues (.ctxReflectUp a) a s x) :
    let t := drawn (.ctxReflectUp a) a s x
    let u := released x (levelScope x.ctx) t
    canRelease x (levelScope x.ctx) t = true →
    (x.ctx = 0 → exec (.ctxReflectUp a) s = .next (through (.ctxReflectUp a) (gave x a eNOCTX u) x a)) ∧
    (x.ctx ≠ 0 → ∀ v, ((structRead x (addrOp u x a a.c (enabled x a)) 64 u).map fun r =>
        if reportRsvd r.1 then gave x a eFORMAT r.2
        else gave x a 0 (sendReport r.2 (u.ctx x.ctx).parent { reportOf r.1 with reflected := true })) = some v →
      exec (.ctxReflectUp a) s = .next (through (.ctxReflectUp a) v x a)) := by
  intro t u may
  refine ⟨fun root => ?_, fun below v done => ?_⟩
  · exact vamer_done h false _ ((withRelease_ok x _ t _ may).trans (if_pos root))
  · exact vamer_done h false _ ((withRelease_ok x _ t _ may).trans ((if_neg below).trans (reflectTo_performs done)))

/-- The answer to an HCALL, and its status, in the state that CTX.REFLECT.ret's release leaves (R395). -/
def returned (x : Ix) (a : Args) (u : State) (c : Nat) : State :=
  let r := answerCall u c (srcI u x a 32 a.c ((enabled x a).headD 0)) (w64 (addrOp u x a a.d (enabled x a)))
  gave x a r.1 r.2

theorem ctxReflectRet_completes (h : Issues (.ctxReflectRet a) a s x) :
    let t := drawn (.ctxReflectRet a) a s x
    let u := released x (levelScope x.ctx) t
    let c := ctxOperand u x a a.b (enabled x a)
    let own := srcI t x a 32 a.b ((enabled x a).headD 0) % 4096 = 0xFFF
    (x.ctx = 0 → own → canRelease x .sy t = true →
      exec (.ctxReflectRet a) s = .next (through (.ctxReflectRet a) (returned x a (released x .sy t) 0) x a)) ∧
    ((x.ctx ≠ 0 ∨ ¬ own) → canRelease x (levelScope x.ctx) t = true → isChild u x.ctx c = true → ctxBusy u c = false →
      exec (.ctxReflectRet a) s = .next (through (.ctxReflectRet a) (returned x a u c) x a)) := by
  intro t u c own
  refine ⟨fun root self may => ?_, fun other may child free => ?_⟩
  · have itself : (decide (x.ctx = 0) && decide own) = true := by simpa using ⟨root, self⟩
    exact vamer_done h false _ ((if_pos itself).trans (withRelease_ok x _ t _ may))
  · have below : ¬ (decide (x.ctx = 0) && decide own) = true := by
      rw [Bool.and_eq_true, decide_eq_true_eq, decide_eq_true_eq]
      exact fun both => other.elim (fun n => n both.1) fun n => n both.2
    exact vamer_done h false _ ((if_neg below).trans (onChild_free may child free))

end

/-- Settles O27: each instruction on a child has its operation to perform after `onChild`'s checks. -/
theorem contextComplete : Obligations.ContextComplete := by
  unfold Obligations.ContextComplete
  refine ⟨?new, ?grant, ?revokeAll, ?revoke, ?run, ?stopNow, ?stopDrain, ?stopReset, ?budget, ?budgetRd, ?mask, ?down, ?up, ?ret⟩
  case new => exact fun a s x bs v h may read => ctxNew_completes h may read
  case grant => exact fun a => ctxGrant_acts
  case revokeAll => exact fun drain a whole => ctxRevoke_acts_whole whole
  case revoke => exact fun drain a one => ctxRevoke_acts_one one
  case run => exact fun a => ctxRun_acts
  case stopNow => exact fun a => stop_completes (i := .ctxStopNow a) (kind := .stopNow) fun _ => rfl
  case stopDrain => exact fun a => stop_completes (i := .ctxStopDrain a) (kind := .stopDrain) fun _ => rfl
  case stopReset => exact fun a => stop_completes (i := .ctxStopReset a) (kind := .stopReset) fun _ => rfl
  case budget => exact fun a => ctxBudget_acts
  case budgetRd => exact fun a => ctxBudgetRd_acts
  case mask => exact fun a => ctxReflectMask_acts
  case down => exact fun a => ctxReflectDown_acts
  case up => exact fun a s x h may => ctxReflectUp_completes h may
  case ret => exact fun a s x h => ctxReflectRet_completes h

end Sys2Proof.Machine

/-! ## O28: the gate instructions complete -/

namespace Sys2Proof.Machine

open Sys2Proof

section

variable {a : Args} {s : State} {x : Ix}

/-- The gate that an instruction names. -/
abbrev gateNamed (s : State) (x : Ix) (a : Args) : Nat := gateOp s x a (enabled x a)

/-! ### Making and deleting gates (R378, R388) -/

theorem gateNew_completes {bs : List Byte} {v : State} (h : Issues (.gateNew a) a s x) :
    let t := drawn (.gateNew a) a s x
    let u := released x (levelScope x.ctx) t
    let r := gateNew v x.ctx (gateNamed v x a) bs
    canRelease x (levelScope x.ctx) t = true → structRead x (addrOp u x a a.c (enabled x a)) 32 u = some (bs, v) →
    exec (.gateNew a) s = .next (through (.gateNew a) (gave x a r.1 r.2) x a) := by
  intro t u r may read
  exact vamer_done h false _ ((withRelease_ok x _ t _ may).trans (readStruct_ok read _))

/-- GATE.NEW.del deletes a gate of the issuer and wakes its takers, or answers GATE (R385; log 65). -/
theorem gateNewDel_completes (h : Issues (.gateNewDel a) a s x) :
    let t := drawn (.gateNewDel a) a s x
    let u := released x (levelScope x.ctx) t
    canRelease x (levelScope x.ctx) t = true →
    exec (.gateNewDel a) s = .next (through (.gateNewDel a) (if (ownGate u x.ctx (gateNamed u x a)).isNone then gave x a eGATE u
      else gave x a (gateNamed u x a) (gatesGone { u with gates := mdel u.gates (gateNamed u x a) } (· = gateNamed u x a))) x a) := by
  intro t u may
  refine vamer_done h false _ ((withRelease_ok x _ t _ may).trans ?_)
  dsimp only
  split
  · next stranger => rw [show ownGate u _ _ = none from stranger]; rfl
  · next k own => rw [show ownGate u _ _ = some k from own]; rfl

/-! ### GPOST (R380) -/

/-- GPOST, once the accesses before it are performed, releases the gate's window and posts. -/
theorem gpost_completes {pd : BitVec 4} (h : Issues (.gpost pd a) a s x) :
    let d := drawn (.gpost pd a) a s x
    let t := settleX x d
    let g := gateNamed d x a
    let u := match mget t.gates g with
      | some k => releaseWindow t x.cluster k
      | none => t
    let r := postGate u x g (w64 (addrOp d x a a.c (enabled x a))) (enabled x a)
    settled t x.ref.train x.ref.coach = true → exec (.gpost pd a) s = .next (through (.gpost pd a)
      (gave x a r.1 (wrPred r.2 x pd ((enabled x a).map fun l => (l, decide (r.1 = 0))))) x a) := by
  intro d t g u r done
  have performed : ¬ (!settled t x.ref.train x.ref.coach) = true := by rw [done]; decide
  exact vamer_done h false _ (if_neg performed)

/-! ### GTAKE (R381, R383, R385) -/

/-- The deadline of a take, where it has a limit. -/
abbrev takeDue (lim : Bool) (s : State) (x : Ix) (a : Args) (ls : List Nat) : Option Nat :=
  if lim then some (x.fr.deadline.getD (s.rtime + rtCap (srcI s x a 32 a.c (ls.headD 0)))) else none

/-- What a take that may not be served yet does: it answers none when its time is over, and waits until then. -/
def takeLater (lim : Bool) (pd : BitVec 4) (a : Args) (x : Ix) (ls : List Nat) (s : State) : Res :=
  if (takeDue lim s x a ls).any fun n => n ≤ s.rtime then takeResult a pd x ls none s
  else .wait (.gate (gateOp s x a ls)) fun u => modFrag u x.ref fun f => { f with deadline := takeDue lim s x a ls }

/-- The body of GTAKE. -/
def takeBody (lim : Bool) (pd : BitVec 4) (a : Args) (x : Ix) (ls : List Nat) (s : State) : Res :=
  if tookGone x then takeResult a pd x ls none s
  else match mget s.gates (gateOp s x a ls) with
    | none => takeResult a pd x ls none (denyGate s x (gateOp s x a ls) 1 ls)
    | some k =>
      if !k.mayTake x.ctx then takeResult a pd x ls none (denyGate s x (gateOp s x a ls) 1 ls)
      else match k.values with
        | v :: rest =>
          if !k.frozen && !earlierTaker s (gateOp s x a ls) (waitNo s x (.gate (gateOp s x a ls))) then
            takeResult a pd x ls (some v)
              (acquireWindow { s with gates := mset s.gates (gateOp s x a ls) { k with values := rest } } x.cluster k)
          else takeLater lim pd a x ls s
        | [] => takeLater lim pd a x ls s

theorem exec_gtake (lim : Bool) (pd : BitVec 4) (a : Args) (s : State) :
    exec (.gtake lim pd a) s = vamer (.gtake lim pd a) a false (takeBody lim pd a) s := rfl

section

variable {lim : Bool} {pd : BitVec 4} {ls : List Nat} {k : Gate}

theorem takeBody_gone (gone : tookGone x = true) : takeBody lim pd a x ls s = takeResult a pd x ls none s := if_pos gone

variable (here : tookGone x = false)
include here

theorem takeBody_absent (absent : mget s.gates (gateOp s x a ls) = none) :
    takeBody lim pd a x ls s = takeResult a pd x ls none (denyGate s x (gateOp s x a ls) 1 ls) := by
  simp only [takeBody, here, absent, Bool.false_eq_true, if_false]

variable (gate : mget s.gates (gateOp s x a ls) = some k)
include gate

theorem takeBody_denied (noRight : k.mayTake x.ctx = false) :
    takeBody lim pd a x ls s = takeResult a pd x ls none (denyGate s x (gateOp s x a ls) 1 ls) := by
  simp only [takeBody, here, gate, noRight, Bool.false_eq_true, if_false, Bool.not_false, if_true]

variable (right : k.mayTake x.ctx = true)
include right

/-- The oldest value of a gate goes to the taker that has waited longest. -/
theorem takeBody_takes {v : Word64} {rest : List Word64} (held : k.values = v :: rest) (moves : k.frozen = false)
    (first : earlierTaker s (gateOp s x a ls) (waitNo s x (.gate (gateOp s x a ls))) = false) :
    takeBody lim pd a x ls s = takeResult a pd x ls (some v)
      (acquireWindow { s with gates := mset s.gates (gateOp s x a ls) { k with values := rest } } x.cluster k) := by
  simp only [takeBody, here, gate, right, held, moves, first, Bool.false_eq_true, Bool.not_true, Bool.not_false, Bool.and_self, if_false,
    if_true]

/-- A take with a limit that cannot be served answers none when its time is over. -/
theorem takeBody_late (late : x.fr.deadline.getD (s.rtime + rtCap (srcI s x a 32 a.c (ls.headD 0))) ≤ s.rtime)
    (unserved : k.values = [] ∨ k.frozen = true ∨
      earlierTaker s (gateOp s x a ls) (waitNo s x (.gate (gateOp s x a ls))) = true) :
    takeBody true pd a x ls s = takeResult a pd x ls none s := by
  have later : takeLater true pd a x ls s = takeResult a pd x ls none s := if_pos (by simpa [takeDue] using late)
  simp only [takeBody, here, gate, right, Bool.false_eq_true, Bool.not_true, if_false]
  split
  · next v rest held =>
    refine (if_neg ?_).trans later
    rcases unserved with empty | frozen | earlier
    · exact nomatch held.symm.trans empty
    · simp [frozen]
    · simp [earlier]
  · exact later

end

/-! ### GPEEK (R392) -/

theorem gpeek_completes (h : Issues (.gpeek a) a s x) :
    let t := drawn (.gpeek a) a s x
    let g := gateNamed t x a
    (∀ k, mget t.gates g = some k → (k.mayPost x.ctx || k.mayTake x.ctx) = true →
      exec (.gpeek a) s = .next (through (.gpeek a) (gave x a (gateWord t k x.ctx) t) x a)) ∧
    ((∀ k, mget t.gates g = some k → (k.mayPost x.ctx || k.mayTake x.ctx) = false) →
      exec (.gpeek a) s = .next (through (.gpeek a) (gave x a 0 (denyGate t x g 2 (enabled x a))) x a)) := by
  intro t g
  refine ⟨fun k gate right => ?_, fun noRight => ?_⟩
  · refine vamer_done h false _ ?_
    dsimp only
    split
    · next k' same =>
      cases same.symm.trans gate
      exact if_pos right
    · next absent => exact nomatch absent.symm.trans gate
  · refine vamer_done h false _ ?_
    dsimp only
    split
    · next k gate => exact if_neg (by rw [noRight k gate]; decide)
    · rfl

end

/-- Settles O28: GATE.NEW and its kin release, GPOST settles, and a take is served, denied or late. -/
theorem gateComplete : Obligations.GateComplete := by
  unfold Obligations.GateComplete
  refine ⟨?new, ?del, ?acl, ?gpost, ?gtake, ?gpeek⟩
  case new => exact fun a s x bs v h may read => gateNew_completes h may read
  case del => exact fun a s x h may => gateNewDel_completes h may
  case acl => exact fun post take a s x h may => vamer_done h false _ (withRelease_ok x _ _ _ may)
  case gpost => exact fun pd a s x h done => gpost_completes h done
  case gtake =>
    intro lim pd a s x t g h
    have takes {u : State} (body : takeBody lim pd a x (enabled x a) t = .done u [] none) :
        exec (.gtake lim pd a) s = .next (through (.gtake lim pd a) u x a) := (exec_gtake lim pd a s).trans (vamer_done h false _ body)
    refine ⟨fun gone => takes (takeBody_gone gone), fun here absent => takes (takeBody_absent here absent),
      fun k here gate noRight => takes (takeBody_denied here gate noRight),
      fun k v rest here gate right held moves first => takes (takeBody_takes here gate right held moves first), ?_⟩
    intro k limited here gate right late unserved
    subst limited
    exact takes (takeBody_late here gate right late unserved)
  case gpeek => exact fun a s x h => gpeek_completes h

end Sys2Proof.Machine

/-! ## O29: TLBI, REPLAY, REPLAY.all and HCALL complete -/

namespace Sys2Proof.Machine

open Sys2Proof

/-- A body that traps in its place. -/
theorem vamer_trap {i : Instr} {a : Args} {s : State} {x : Ix} (h : Issues i a s x) (whole : Bool) (body : Ix → List Nat → State → Res)
    {t : Trap} (hb : body x (enabled x a) (drawn i a s x) = .trap t) : vamer i a whole body s = .next (trapB s x t (encodeVamer i)) := by
  rw [vamer_body h, issue_body h, hb]

section

variable {a : Args} {s : State} {x : Ix}

/-- A context of the issuer's subtree. -/
abbrev ownContext (s : State) (x : Ix) (c : Nat) : Bool := inSubtree s x.ctx c && s.hasCtx c

theorem notOwn_iff (s : State) (x : Ix) (c : Nat) : (!inSubtree s x.ctx c || !s.hasCtx c) = true ↔ ownContext s x c = false := by
  simp only [ownContext, Bool.or_eq_true, Bool.not_eq_true', Bool.and_eq_false_iff]

/-! ### TLBI (R393) -/

/-- TLBI of a context of the subtree drops the pages once the accesses of its trains are performed; of any other it traps. -/
theorem tlbi_completes (h : Issues (.tlbi a) a s x) :
    let t := drawn (.tlbi a) a s x
    let c := ctxOperand t x a a.d (enabled x a)
    let n := srcI t x a 32 a.c ((enabled x a).headD 0)
    let u := settleCtx (dropPages (released x .pt t) c (addrOp t x a a.b (enabled x a)) n) c
    (ownContext t x c = false → exec (.tlbi a) s = .next (trapB s x (trapOf cCTX_DENIED) (encodeVamer (.tlbi a)))) ∧
    (ownContext t x c = true → canRelease x .pt t = true → ctxSettled u c = true →
      exec (.tlbi a) s = .next (through (.tlbi a) u x a)) := by
  intro t c n u
  refine ⟨fun other => ?_, fun own may performed => ?_⟩
  · exact vamer_trap h false _ (if_pos ((notOwn_iff t x c).mpr other))
  · have mine : ¬ (!inSubtree t x.ctx c || !t.hasCtx c) = true := by simp [(notOwn_iff t x c), own]
    exact vamer_done h false _ ((if_neg mine).trans ((withRelease_ok x _ t _ may).trans (if_pos performed)))

/-! ### REPLAY (R394) -/

/-- REPLAY of a report of the subtree releases what it names; of any other it traps. -/
theorem replay_completes {bs : List Byte} {u : State} (h : Issues (.replay a) a s x) :
    let t := drawn (.replay a) a s x
    let r := reportOf bs
    structRead x (addrOp t x a a.b (enabled x a)) 64 t = some (bs, u) →
    (ownContext u x r.origin.toNat = false →
      exec (.replay a) s = .next (trapB s x (trapOf cCTX_DENIED) (encodeVamer (.replay a)))) ∧
    (ownContext u x r.origin.toNat = true → exec (.replay a) s = .next (through (.replay a) (replayReport u r) x a)) := by
  intro t r read
  refine ⟨fun other => ?_, fun own => ?_⟩
  · exact vamer_trap h false _ ((readStruct_ok read _).trans (if_pos ((notOwn_iff u x _).mpr other)))
  · have mine : ¬ (!inSubtree u x.ctx r.origin.toNat || !u.hasCtx r.origin.toNat) = true := by simp [(notOwn_iff u x _), own]
    exact vamer_done h false _ ((readStruct_ok read _).trans (if_neg mine))

theorem replayAll_completes (h : Issues (.replayAll a) a s x) :
    let t := drawn (.replayAll a) a s x
    let c := ctxOperand t x a a.b (enabled x a)
    (ownContext t x c = false → exec (.replayAll a) s = .next (trapB s x (trapOf cCTX_DENIED) (encodeVamer (.replayAll a)))) ∧
    (ownContext t x c = true → exec (.replayAll a) s = .next (through (.replayAll a) (replayAll t c) x a)) := by
  intro t c
  refine ⟨fun other => ?_, fun own => ?_⟩
  · exact vamer_trap h false _ (if_pos ((notOwn_iff t x c).mpr other))
  · have mine : ¬ (!inSubtree t x.ctx c || !t.hasCtx c) = true := by simp [(notOwn_iff t x c), own]
    exact vamer_done h false _ (if_neg mine)

/-! ### HCALL (R395) -/

/-- The call is under way: it has its number, and its lanes wait for the answer. -/
def calling (t : State) (x : Ix) (a : Args) : State :=
  let n := (t.ctx x.ctx).hcallSeq
  modFrag (modCtx t x.ctx fun y => { y with hcallSeq := n + 1 }) x.ref fun f =>
    { f with hcall := some ⟨n, a.a, maskOf (enabled x a), encodeVamer (.hcall a)⟩, wait := none, age := 0 }

/-- The report of a call. -/
def callReport (u : State) (x : Ix) (a : Args) (n : Nat) : Report :=
  { reportFrag u x x.fr.pc (maskOf (enabled x a)) x.ref.frag with
    ty := 4, code := BitVec.ofNat 16 (srcI u x a 32 a.b ((enabled x a).headD 0))
    aux := w64 (addrOp u x a a.c (enabled x a)), seq := w32 n }

theorem hcall_calls (h : Issues (.hcall a) a s x) :
    let t := drawn (.hcall a) a s x
    let u := calling t x a
    exec (.hcall a) s = .next (noteIssue (sendReport u (parentOf u x.ctx) (callReport u x a (t.ctx x.ctx).hcallSeq)) x (.hcall a) a a.yld) := by
  intro t u
  have inside : ¬ (!canonical (x.fr.pc + 12).toNat) = true := by rw [h.space]; decide
  exact vamer_own h false _ (if_neg inside)

/-- The first turn after the answer has come delivers it, and the lanes go on. -/
theorem fetchFrag_answered {hc : HWait} {v : Word64} (here : ixOf s x.ref = some x) (may : mayIssue s x = true)
    (free : x.fr.bar = none) (waits : x.fr.hcall = some hc) (answer : mget (s.ctx x.ctx).answers hc.seq = some v) :
    fetchFrag s x.ref = .moved (finish (modCtx (wr s x hc.dst 64 ((lanesOf hc.lanes).map fun l => (l, v.toNat))) x.ctx
      fun y => { y with answers := mdel y.answers hc.seq }) x hc.word [] none id) := by
  have goes : barWait s x = some s := by simp only [barWait, free]
  simp only [fetchFrag, here, may, goes, waits, hcallWait, answer, Bool.not_true, Bool.false_eq_true, if_false]

end

/-- Settles O29: a context outside the subtree traps; HCALL's turn and its answer's have their lemmas. -/
theorem replayComplete : Obligations.ReplayComplete := by
  unfold Obligations.ReplayComplete
  refine ⟨?tlbi, ?replay, ?replayAll, ?call, ?answer⟩
  case tlbi => exact fun a s x h => tlbi_completes h
  case replay => exact fun a s x bs u h read => replay_completes h read
  case replayAll => exact fun a s x h => replayAll_completes h
  case call => exact fun a s x h => hcall_calls h
  case answer => exact fun s x h v here may free waits answer => fetchFrag_answered here may free waits answer

end Sys2Proof.Machine

/-! ## O31: TFRD, TFWR, FBPOP and FBSTAT complete -/

namespace Sys2Proof.Machine

open Sys2Proof

section

variable {a : Args} {s : State} {x : Ix}

/-! ### Frames (R403) -/

/-- Lanes none of which is bad do not trap. -/
theorem lanesTrap_filter_none {code : Nat} {p : Nat × Nat → Bool} {as : List (Nat × Nat)} (fine : ∀ e ∈ as, p e = false) :
    lanesTrap code (as.filter p) = none := by
  rw [List.filter_eq_nil_iff.mpr fun e he => by simp [fine e he]]
  rfl

/-- A frame access at aligned offsets inside the fragment's frame is performed. -/
theorem onFrame_ok {ls : List Nat} {slot : Nat} {fr : Frame} (frame : x.co.frameOf x.fr.mask = some (slot, fr))
    (inside : ∀ l ∈ ls, srcI s x a 32 a.b l % 4 = 0 ∧ srcI s x a 32 a.b l < 1024) (f : Nat → Frame → List (Nat × Nat) → Res) :
    onFrame a x ls s f = f slot fr (ls.map fun l => (l, srcI s x a 32 a.b l)) := by
  have aligned : lanesTrap cMEM_ALIGN ((ls.map fun l => (l, srcI s x a 32 a.b l)).filter fun e => e.2 % 4 ≠ 0) = none := by
    refine lanesTrap_filter_none fun e he => ?_
    obtain ⟨l, hl, rfl⟩ := List.mem_map.mp he
    simp [(inside l hl).1]
  have within : lanesTrap cMEM_RANGE ((ls.map fun l => (l, srcI s x a 32 a.b l)).filter fun e => e.2 ≥ 1024) = none := by
    refine lanesTrap_filter_none fun e he => ?_
    obtain ⟨l, hl, rfl⟩ := List.mem_map.mp he
    simp [(inside l hl).2]
  simp only [onFrame, frame, aligned, within, orTrap]

/-! ### Fault buffers (R412) -/

/-- FBPOP takes the oldest entry of a buffer, or answers all ones. -/
theorem fbpop_completes (h : Issues (.fbpop a) a s x) :
    let t := drawn (.fbpop a) a s x
    let c := ctxOperand t x a a.b (enabled x a)
    let n := srcI t x a 32 a.c ((enabled x a).headD 0)
    let d := addrOp t x a a.d (enabled x a)
    ownContext t x c = true → d % 64 = 0 →
    (∀ b e rest u, (t.ctx c).bufs[n]? = some b → b.entries = e :: rest →
      structWrite x d (poppedEntry t c n e).bytes t = some u → exec (.fbpop a) s = .next (through (.fbpop a) (gave x a rest.length
        (saveBufs (modCtx u c fun y => { y with bufs := y.bufs.set n { b with entries := rest } }) c)) x a)) ∧
    ((∀ b, (t.ctx c).bufs[n]? = some b → b.entries = []) →
      exec (.fbpop a) s = .next (through (.fbpop a) (gave x a 0xFFFFFFFF t) x a)) := by
  intro t c n d own aligned
  have mine : ¬ (!inSubtree t x.ctx c || !t.hasCtx c) = true := by simp [(notOwn_iff t x c), own]
  refine ⟨fun b e rest u buffer entries written => ?_, fun empty => ?_⟩
  · refine vamer_done h false _ ((if_neg mine).trans ((if_neg (not_not_intro aligned)).trans ?_))
    rw [show (t.ctx c).bufs[_]? = some b from buffer]
    simp only [entries]
    exact writeStruct_ok written _
  · refine vamer_done h false _ ((if_neg mine).trans ((if_neg (not_not_intro aligned)).trans ?_))
    split
    · rfl
    · next b buffer =>
      rw [empty b buffer]
      rfl

/-- FBSTAT answers the state of a buffer, 0 where there is none; `.clr` forgets what was dropped. -/
theorem fbstat_completes {clr : Bool} (h : Issues (.fbstat clr a) a s x) :
    let t := drawn (.fbstat clr a) a s x
    let c := ctxOperand t x a a.b (enabled x a)
    let n := srcI t x a 32 a.c ((enabled x a).headD 0)
    ownContext t x c = true →
    (∀ b, (t.ctx c).bufs[n]? = some b → exec (.fbstat clr a) s = .next (through (.fbstat clr a) (gave x a (bufWord b)
      (if clr then saveBufs (modCtx t c fun y => { y with bufs := y.bufs.set n { b with dropped := false, drops := 0 } }) c
        else t)) x a)) ∧
    ((t.ctx c).bufs[n]? = none → exec (.fbstat clr a) s = .next (through (.fbstat clr a) (gave x a 0 t) x a)) := by
  intro t c n own
  have mine : ¬ (!inSubtree t x.ctx c || !t.hasCtx c) = true := by simp [(notOwn_iff t x c), own]
  refine ⟨fun b buffer => ?_, fun absent => ?_⟩
  · refine vamer_done h false _ ((if_neg mine).trans ?_)
    rw [show (t.ctx c).bufs[_]? = some b from buffer]
    rfl
  · refine vamer_done h false _ ((if_neg mine).trans ?_)
    rw [show (t.ctx c).bufs[_]? = none from absent]
    rfl

end

/-- Settles O31: frame accesses pass their checks (`onFrame_ok`), fault buffers have their lemmas. -/
theorem frameComplete : Obligations.FrameComplete := by
  unfold Obligations.FrameComplete
  refine ⟨?tfrd, ?tfwr, ?fbpop, ?fbstat⟩
  case tfrd =>
    intro a s x slot f t h frame inside
    refine vamer_done h false _ ((onFrame_ok frame inside _).trans ?_)
    rw [List.map_map]
    rfl
  case tfwr =>
    intro a s x slot f t g h frame inside
    refine vamer_done h false _ ((onFrame_ok frame inside _).trans ?_)
    dsimp only
    rw [List.foldl_map]
  case fbpop => exact fun a s x h own aligned => fbpop_completes h own aligned
  case fbstat => exact fun clr a s x h own => fbstat_completes h own

end Sys2Proof.Machine

/-! ## O32: SRD, SWR, MARK and WATCH complete -/

namespace Sys2Proof.Machine

open Sys2Proof

section

variable {wide : Bool} {a : Args} {s : State} {x : Ix}

/-- What the selector operand names (R419). -/
abbrev selected (s : State) (x : Ix) (a : Args) : Option (Nat × Nat × Bool) := selector s x (srcI s x a 32 a.b ((enabled x a).headD 0))

/-- The trap of a register that the issuer may not access (R419). -/
abbrev Denied (i : Instr) (s : State) (x : Ix) : Prop := exec i s = .next (trapB s x (trapOf cCTX_DENIED) (encodeVamer i))

/-! ### SRD (R419 to R421) -/

/-- What SRD does once its selector names a register. -/
def srdBody (wide : Bool) (a : Args) (x : Ix) (ls : List Nat) (s : State) (c n : Nat) : Res :=
  if n = 0x2B && x.ctx ≠ 0 then .trap (trapOf cCTX_DENIED)
  else .done (wr s x a.a (if wide then 64 else 32) (ls.map fun l =>
    (l, (if n = 0x02 then (if c = x.ctx && x.co.step then 1 else 0) else sysGet s c n) % 2 ^ if wide then 64 else 32))) [] none

theorem exec_srd (wide : Bool) (a : Args) (s : State) : exec (.srd wide a) s = vamer (.srd wide a) a false (fun x ls s =>
    match selector s x (srcI s x a 32 a.b (ls.headD 0)) with
    | none => .trap (trapOf cCTX_DENIED)
    | some (c, n, _) => srdBody wide a x ls s c n) s := rfl

theorem srd_unselected (h : Issues (.srd wide a) a s x) (unnamed : selected (drawn (.srd wide a) a s x) x a = none) :
    Denied (.srd wide a) s x := by
  refine (exec_srd wide a s).trans (vamer_trap h false _ ?_)
  rw [show selector (drawn (.srd wide a) a s x) x _ = none from unnamed]

section

variable {c n : Nat} {o : Bool} (h : Issues (.srd wide a) a s x) (named : selected (drawn (.srd wide a) a s x) x a = some (c, n, o))
include h named

/-- CNT_RSVW is the root's. -/
theorem srd_denied (rsvw : n = 0x2B) (below : x.ctx ≠ 0) : Denied (.srd wide a) s x := by
  refine (exec_srd wide a s).trans (vamer_trap h false _ ?_)
  rw [show selector (drawn (.srd wide a) a s x) x _ = _ from named]
  exact if_pos (by simp [rsvw, below])

theorem srd_reads (may : n ≠ 0x2B ∨ x.ctx = 0) :
    let t := drawn (.srd wide a) a s x
    let bits := if wide then 64 else 32
    exec (.srd wide a) s = .next (through (.srd wide a) (wr t x a.a bits ((enabled x a).map fun l =>
      (l, (if n = 0x02 then (if c = x.ctx && x.co.step then 1 else 0) else sysGet t c n) % 2 ^ bits))) x a) := by
  intro t bits
  refine (exec_srd wide a s).trans (vamer_done h false _ ?_)
  rw [show selector (drawn (.srd wide a) a s x) x _ = _ from named]
  exact if_neg (by rcases may with e | e <;> simp [e])

end

/-! ### SWR (R422) -/

/-- The value of SWR's source. -/
abbrev swrSource (wide : Bool) (s : State) (x : Ix) (a : Args) : Nat := srcI s x a (if wide then 64 else 32) a.c ((enabled x a).headD 0)

theorem swr_unselected (h : Issues (.swr wide a) a s x) (unnamed : selected (drawn (.swr wide a) a s x) x a = none) :
    Denied (.swr wide a) s x := by
  refine vamer_trap h false _ ?_
  dsimp only
  rw [show selector (drawn (.swr wide a) a s x) x _ = none from unnamed]

section

variable {c n : Nat} {o : Bool} (h : Issues (.swr wide a) a s x) (named : selected (drawn (.swr wide a) a s x) x a = some (c, n, o))
include h named

theorem swr_denied (stranger : sysWriter (drawn (.swr wide a) a s x) x.ctx c n o = false) : Denied (.swr wide a) s x := by
  refine vamer_trap h false _ ?_
  dsimp only
  rw [show selector (drawn (.swr wide a) a s x) x _ = _ from named]
  exact if_pos (by rw [stranger]; rfl)

/-- A writer's value that is out of range traps, and any other is written; STEP stands in the coach (R422). -/
theorem swr_writes (writer : sysWriter (drawn (.swr wide a) a s x) x.ctx c n o = true) :
    let t := drawn (.swr wide a) a s x
    let v := swrSource wide t x a
    let w := swrValue t c n wide v
    (sysRange n w = false → exec (.swr wide a) s = .next
      (trapB s x (trapAt cMEM_RANGE (maskOf (enabled x a)) (w64 v)) (encodeVamer (.swr wide a)))) ∧
    (sysRange n w = true → n ≠ 0x02 → exec (.swr wide a) s = .next (through (.swr wide a) (sysSet t c n w) x a)) ∧
    (sysRange n w = true → n = 0x02 → exec (.swr wide a) s = .next (through (.swr wide a)
      (modCoach t x.ref.train x.ref.coach fun co => { co with step := w = 1 }) x a)) := by
  intro t v w
  have own : ¬ (!sysWriter t x.ctx c n o) = true := by rw [writer]; decide
  refine ⟨fun outside => ?_, fun inside other => ?_, fun inside step => ?_⟩
  · refine vamer_trap h false _ ?_
    dsimp only
    rw [show selector (drawn (.swr wide a) a s x) x _ = _ from named]
    exact (if_neg own).trans (if_pos (by rw [show sysRange n _ = false from outside]; rfl))
  · refine vamer_done h false _ ?_
    dsimp only
    rw [show selector (drawn (.swr wide a) a s x) x _ = _ from named]
    exact (if_neg own).trans ((if_neg (by rw [show sysRange n _ = true from inside]; decide)).trans (if_neg other))
  · refine vamer_done h false _ ?_
    dsimp only
    rw [show selector (drawn (.swr wide a) a s x) x _ = _ from named]
    exact (if_neg own).trans ((if_neg (by rw [show sysRange n _ = true from inside]; decide)).trans (if_pos step))

end

end

/-- Settles O32: SRD and SWR by what the selector names and what the issuer may do; MARK and WATCH at once. -/
theorem sysregComplete : Obligations.SysregComplete := by
  unfold Obligations.SysregComplete
  refine ⟨?srd, ?swr, ?mark, ?watch⟩
  case srd =>
    intro wide a s x t bits h
    exact ⟨fun unnamed => srd_unselected h unnamed, fun c n o named rsvw below => srd_denied h named rsvw below,
      fun c n o named may => srd_reads h named may⟩
  case swr =>
    intro wide a s x t v h
    exact ⟨fun unnamed => swr_unselected h unnamed, fun c n o named stranger => swr_denied h named stranger,
      fun c n o named writer => swr_writes h named writer⟩
  case mark => exact fun a s x h => vamer_done h false _ rfl
  case watch => exact fun r w n a s x h => vamer_done h false _ rfl

end Sys2Proof.Machine

/-! ## O38: the mailbox commands that set up the root and its resources

Every command is performed by `onCommand`, which the first lemmas describe once; what remains of a command is what it does to the state.
-/

namespace Sys2Proof.Machine

open Sys2Proof

/-! ### Performing a command (R444) -/

/-- The event's mailbox has the command that is performed now, one that `is` selects. -/
abbrev CommandDue (s : State) (is : Mbox → Bool) : Prop :=
  commandDue s s.ev.i = true ∧ is (s.mbox s.ev.i) = true ∧ s.host.heldVolt = false

section

variable {s t : State} {is : Mbox → Bool} {attest : Bool} {f : Mbox → State → Cmd} {r : Nat}

theorem onCommand_performs (due : CommandDue s is) (ready : s.host.boot = 4 ∨ attest = true) : onCommand s s.ev.i is attest f =
    .next (match f (s.mbox s.ev.i) s with
      | .ends res s' => endCommand s' s.ev.i res
      | .later s' => s') := by
  obtain ⟨now, selects, power⟩ := due
  have performs : ¬ (!commandDue s s.ev.i || !is (s.mbox s.ev.i) || s.host.heldVolt) = true := by simp [now, selects, power]
  have started : ¬ (decide (s.host.boot ≠ 4) && !attest) = true := by rcases ready with e | e <;> simp [e]
  exact congrArg _ ((if_neg performs).trans (if_neg started))

theorem onCommand_ends (due : CommandDue s is) (ready : s.host.boot = 4 ∨ attest = true) (ends : f (s.mbox s.ev.i) s = .ends r t) :
    onCommand s s.ev.i is attest f = .next (endCommand t s.ev.i r) := by
  rw [onCommand_performs due ready, ends]

theorem onCommand_later (due : CommandDue s is) (ready : s.host.boot = 4 ∨ attest = true) (goesOn : f (s.mbox s.ev.i) s = .later t) :
    onCommand s s.ev.i is attest f = .next t := by
  rw [onCommand_performs due ready, goesOn]

/-- Before the firmware is ready a command other than ATTEST ends with STATE. -/
theorem onCommand_early (due : CommandDue s is) (early : s.host.boot ≠ 4) :
    onCommand s s.ev.i is false f = .next (endCommand s s.ev.i rSTATE) := by
  obtain ⟨now, selects, power⟩ := due
  have performs : ¬ (!commandDue s s.ev.i || !is (s.mbox s.ev.i) || s.host.heldVolt) = true := by simp [now, selects, power]
  exact congrArg _ ((if_neg performs).trans (if_pos (by simp [early])))

end

/-! ### The commands (R445, R447, R451) -/

/-! Each command is `onCommand` of what it does. -/

theorem exec_rootfq (s : State) : exec .rootfq s = execRootfq s := rfl
theorem exec_errring (s : State) : exec .errring s = execErrring s := rfl
theorem exec_bindvf (s : State) : exec .bindvf s = execBindvf s := rfl
theorem exec_endpoint (s : State) : exec .endpoint s = execEndpoint s := rfl
theorem exec_hdm (s : State) : exec .hdm s = execHdm s := rfl
theorem exec_power (s : State) : exec .power s = execPower s := rfl
theorem exec_retire (s : State) : exec .retire s = execRetire s := rfl
theorem exec_rootctx (s : State) : exec .rootctx s = execRootctx s := rfl
theorem exec_mailboxUnknownOp (s : State) : exec .mailboxUnknownOp s = execMailboxUnknownOp s := rfl

section

variable {s : State}

theorem exec_rootfq_sets (due : CommandDue s (isOp 2)) (ready : s.host.boot = 4) :
    let m := s.mbox s.ev.i
    let n := nbits m.arg1.toNat 0 8
    4 ≤ n ∧ n ≤ 12 ∧ nbits m.arg1.toNat 8 16 < 2048 ∧ m.arg0.toNat % 64 = 0 ∧ isHbm m.arg0.toNat = true ∧
      isHbm (m.arg0.toNat + 64 * (1 + 2 ^ n) - 1) = true →
    exec .rootfq s = .next (endCommand (modHost (modCtx s 0 fun r => { r with fqbase := some m.arg0.toNat, fqsize := n }) fun h =>
      { h with rootVec := some (65536 * s.ev.i + nbits m.arg1.toNat 8 16) }) s.ev.i rOK) := by
  rintro m n ⟨low, high, vector, aligned, first, last⟩
  rw [exec_rootfq, execRootfq]
  refine onCommand_ends due (.inl ready) (if_neg ?_)
  simp only [Bool.or_eq_true, decide_eq_true_eq, Bool.not_eq_true', not_or, Bool.not_eq_false, ne_eq, Decidable.not_not,
    ge_iff_le, gt_iff_lt, not_le, not_lt]
  exact ⟨⟨⟨⟨⟨low, high⟩, vector⟩, aligned⟩, first⟩, last⟩

theorem exec_errring_sets (due : CommandDue s (isOp 3)) (ready : s.host.boot = 4) :
    let m := s.mbox s.ev.i
    m.arg0.toNat % 32 = 0 ∧ m.arg1.toNat % 32 = 0 ∧ 1024 ≤ m.arg1.toNat ∧ m.arg1.toNat ≤ 2 ^ 24 ∧ nbits m.arg2.toNat 0 16 < 2048 →
    exec .errring s = .next (endCommand (modHost s fun h => { h with err :=
      { h.err with base := some m.arg0.toNat, bytes := m.arg1.toNat, vector := 65536 * s.ev.i + nbits m.arg2.toNat 0 16 } })
      s.ev.i rOK) := by
  rintro m ⟨aligned, whole, low, high, vector⟩
  rw [exec_errring, execErrring]
  refine onCommand_ends due (.inl ready) (if_neg ?_)
  simp only [Bool.or_eq_true, decide_eq_true_eq, not_or, ne_eq, Decidable.not_not, ge_iff_le, gt_iff_lt, not_le, not_lt]
  exact ⟨⟨⟨⟨aligned, whole⟩, low⟩, high⟩, vector⟩

theorem exec_bindvf_binds (due : CommandDue s (isOp 4)) (ready : s.host.boot = 4) :
    let m := s.mbox s.ev.i
    let fn := nbits m.arg0.toNat 0 16
    let c := nbits m.arg1.toNat 0 12
    fn ≠ 0 ∧ fn < 2056 ∧ (c = 0xFFF ∨ s.hasCtx c = true ∧ (s.ctx c).op = none) →
    exec .bindvf s = .next (endCommand (modHost s fun h =>
      { h with vf := if c = 0xFFF then mdel h.vf (65536 * nbits m.arg0.toNat 16 1 + fn)
        else mset h.vf (65536 * nbits m.arg0.toNat 16 1 + fn) c }) s.ev.i rOK) := by
  rintro m fn c ⟨virtual, inRange, free⟩
  have sound : ¬ (decide (fn = 0) || decide (fn ≥ functionCount) || (decide (c ≠ 0xFFF) && !s.hasCtx c)) = true := by
    rcases free with none | ⟨held, -⟩
    · simp [virtual, functionCount, inRange, none]
    · simp [virtual, functionCount, inRange, held]
  have idle : ¬ (decide (c ≠ 0xFFF) && (s.ctx c).op.isSome) = true := by
    rcases free with none | ⟨-, idle⟩
    · simp [none]
    · simp [idle]
  rw [exec_bindvf, execBindvf]
  exact onCommand_ends due (.inl ready) ((if_neg sound).trans (if_neg idle))

theorem exec_endpoint_sets (due : CommandDue s (isOp 5)) (ready : s.host.boot = 4) :
    let m := s.mbox s.ev.i
    let n := m.arg0.toNat
    n < 4096 → exec .endpoint s = .next (endCommand (if nbit m.arg1.toNat 4 then
        modCtx s 0 fun r => { r with endpoints := mset r.endpoints n ⟨nbits m.arg1.toNat 0 4, m.arg2, m.arg3, n, 0⟩ }
      else loseEndpoint 8 0 n s) s.ev.i rOK) := by
  intro m n inRange
  rw [exec_endpoint, execEndpoint]
  exact onCommand_ends due (.inl ready) (if_neg (Nat.not_le.mpr inRange))

theorem exec_hdm_sets (due : CommandDue s (isOp 6)) (ready : s.host.boot = 4) :
    let m := s.mbox s.ev.i
    m.arg0.toNat % 2 ^ 29 = 0 ∧ m.arg1.toNat % 2 ^ 29 = 0 ∧ m.arg1.toNat ≠ 0 ∧ isHbm (m.arg0.toNat + m.arg1.toNat - 1) = true ∧
      covers (ownMemory s 0) m.arg0.toNat m.arg1.toNat = true →
    exec .hdm s = .next (endCommand (modHost s fun h =>
      { h with hdm := mset h.hdm m.arg0.toNat (m.arg1.toNat, nbits m.arg2.toNat 0 1) }) s.ev.i rOK) := by
  rintro m ⟨aligned, whole, some_bytes, backed, own⟩
  rw [exec_hdm, execHdm]
  refine onCommand_ends due (.inl ready) (if_neg ?_)
  simp only [Bool.or_eq_true, decide_eq_true_eq, Bool.not_eq_true', not_or, Bool.not_eq_false, ne_eq, Decidable.not_not]
  exact ⟨⟨⟨⟨aligned, whole⟩, some_bytes⟩, backed⟩, own⟩

theorem exec_power_sets (due : CommandDue s (isOp 10)) (ready : s.host.boot = 4) :
    let m := s.mbox s.ev.i
    1000 ≤ m.arg0.toNat ∧ m.arg0.toNat ≤ s.host.config.powerCeil →
    exec .power s = .next (endCommand (modHost s fun h => { h with powerLimit := m.arg0.toNat }) s.ev.i rOK) := by
  rintro m ⟨low, high⟩
  rw [exec_power, execPower]
  refine onCommand_ends due (.inl ready) (if_neg ?_)
  simpa using ⟨low, high⟩

theorem bindCore_retired (core : Nat) (b : Bind) : (bindCore s core b).host.retired = s.host.retired := by
  unfold bindCore
  dsimp only
  split
  · split
    all_goals rfl
  · rfl

/-- Clearing bind records retires nothing. -/
theorem foldl_bindCore_retired (u : Nat) (is : List Nat) :
    (is.foldl (fun s i => bindCore s (4 * u + i) Bind.init) s).host.retired = s.host.retired := by
  induction is generalizing s with
  | nil => rfl
  | cons i is ih => exact ih.trans (bindCore_retired _ _)

/-- RETIRE of a unit that no context below the root holds: the bind records of a cluster's cores become invalid (log 72). -/
theorem exec_retire_retires {kind u : Nat} (due : CommandDue s (isOp 8)) (ready : s.host.boot = 4) :
    let m := s.mbox s.ev.i
    m.arg0.toNat = kind ∧ retireUnit kind m.arg1.toNat = some u ∧ unitGranted s kind u = false ∧ isRetired s kind u = false →
    exec .retire s = .next (endCommand (modHost
      (if kind = 1 then (List.range 4).foldl (fun s i => bindCore s (4 * u + i) Bind.init) s else s) fun h =>
        { h with retired := (2 ^ 48 * kind + u) :: h.retired }) s.ev.i rOK) := by
  rintro m ⟨rfl, unit, free, whole⟩
  rw [exec_retire, execRetire]
  refine onCommand_ends due (.inl ready) ?_
  dsimp only
  rw [unit]
  have held : ¬ unitGranted s m.arg0.toNat u = true := by rw [free]; decide
  refine (if_neg held).trans ?_
  have same : isRetired (if m.arg0.toNat = 1 then (List.range 4).foldl (fun s i => bindCore s (4 * u + i) Bind.init) s else s)
      m.arg0.toNat u = false := by
    unfold isRetired at whole ⊢
    split
    · rw [foldl_bindCore_retired, whole]
    · exact whole
  simp only [m] at same
  simp only [same, Bool.false_eq_true, if_false]
  rfl

theorem exec_rootctx_sets {bs : List Byte} (due : CommandDue s (isOp 13)) (ready : s.host.boot = 4) :
    let m := s.mbox s.ev.i
    rootBusy s = false ∧ homeBytes s m.arg0.toNat 64 = some bs ∧ (blockOf bs).rootOk = true →
    exec .rootctx s = .next (endCommand (modCtx s 0 fun r => { r with
      s1root := some (blockOf bs).s1root, lvbase := (blockOf bs).lvbase, lvlen := (blockOf bs).lvlen
      reflect := w32 (blockOf bs).reflect }) s.ev.i rOK) := by
  rintro m ⟨idle, read, sound⟩
  have free : ¬ rootBusy s = true := by rw [idle]; decide
  rw [exec_rootctx, execRootctx]
  refine onCommand_ends due (.inl ready) ((if_neg free).trans ?_)
  rw [read]
  exact if_neg (by rw [sound]; decide)

theorem exec_mailboxOrun_busy (mailbox : s.ev.i < 2) (busy : (s.mbox s.ev.i).busy = true) :
    exec .mailboxOrun s = .next (mboxCmd s s.ev.i (s.ev.x.toNat % 2 ^ 32)) :=
  congrArg _ (if_pos (by simp [mailbox, busy]))

theorem exec_mailboxCommandComplete_signals (first : s.host.mq.head? = some s.ev.i) (ended : (s.mbox s.ev.i).ended = true) :
    exec .mailboxCommandComplete s = .next (sendMsix (modHost (modMbox s s.ev.i fun m =>
      { m with res := m.next, rtag := m.tag, busy := false, ended := false }) fun h => { h with mq := h.mq.tail })
      (65536 * s.ev.i) 0) :=
  congrArg _ (if_neg (by simp [first, ended]))

end

/-- Settles O38: each command ends with what its arguments ask for, and MAILBOX_COMMAND_COMPLETE signals it. -/
theorem mailboxComplete : Obligations.MailboxComplete := by
  unfold Obligations.MailboxComplete
  refine ⟨?rootfq, ?errring, ?bindvf, ?endpoint, ?hdm, ?power, ?retire, ?rootctx, ?unknown, ?early, ?orun, ?complete⟩
  case rootfq => exact fun s ⟨due, ready⟩ args => exec_rootfq_sets due ready args
  case errring => exact fun s ⟨due, ready⟩ args => exec_errring_sets due ready args
  case bindvf => exact fun s ⟨due, ready⟩ args => exec_bindvf_binds due ready args
  case endpoint => exact fun s ⟨due, ready⟩ arg => exec_endpoint_sets due ready arg
  case hdm => exact fun s ⟨due, ready⟩ args => exec_hdm_sets due ready args
  case power => exact fun s ⟨due, ready⟩ args => exec_power_sets due ready args
  case retire => exact fun kind u s ⟨due, ready⟩ args => exec_retire_retires due ready args
  case rootctx => exact fun bs s ⟨due, ready⟩ args => exec_rootctx_sets due ready args
  case unknown =>
    rintro s ⟨due, ready⟩ -
    rw [exec_mailboxUnknownOp, execMailboxUnknownOp]
    exact onCommand_ends due (.inl ready) rfl
  case early =>
    intro s due early
    rw [exec_rootfq, execRootfq]
    exact onCommand_early due early
  case orun => exact fun s mailbox busy => exec_mailboxOrun_busy mailbox busy
  case complete => exact fun s first ended => exec_mailboxCommandComplete_signals first ended

end Sys2Proof.Machine

/-! ## O39: the mailbox commands that move bytes, start work or move a context -/

namespace Sys2Proof.Machine

open Sys2Proof

section

variable {s : State}

theorem exec_resync (s : State) : exec .resync s = execResync s := rfl
theorem exec_attest (s : State) : exec .attest s = execAttest s := rfl
theorem exec_hcopy (s : State) : exec .hcopy s = execHcopy s := rfl
theorem exec_enqueue (s : State) : exec .enqueue s = execEnqueue s := rfl
theorem exec_migrateOut (s : State) : exec .migrateOut s = execMigrateOut s := rfl
theorem exec_migrateIn (s : State) : exec .migrateIn s = execMigrateIn s := rfl

/-! ### Buffers of the host (R436, R447, R450) -/

/-- A buffer that the host takes is written whole. -/
theorem putBuffer_taken (takes : s.ev.p = false) (link : portUp s s.ev.i = true) (bus : Nat) (bs : List Byte) :
    putBuffer s bus bs = .ends rOK (hostWrite s bus bs) := by
  simp only [putBuffer, takes, link, Bool.not_true, Bool.false_eq_true, if_false]

theorem exec_resync_writes (due : CommandDue s (isOp 1)) (ready : s.host.boot = 4) (takes : s.ev.p = false)
    (link : portUp s s.ev.i = true) (fits : (summary s).length ≤ (s.mbox s.ev.i).arg1.toNat) :
    exec .resync s = .next (endCommand (hostWrite s (s.mbox s.ev.i).arg0.toNat (summary s)) s.ev.i rOK) := by
  rw [exec_resync, execResync]
  exact onCommand_ends due (.inl ready) ((if_neg (Nat.not_lt.mpr fits)).trans (putBuffer_taken takes link _ _))

theorem exec_attest_writes (due : CommandDue s (isOp 9)) (takes : s.ev.p = false) (link : portUp s s.ev.i = true) :
    let a := (s.mbox s.ev.i).arg0.toNat
    exec .attest s = .next (endCommand (hostWrite s a (attestReport s (hostRead s (a + 8) 32))) s.ev.i rOK) := by
  rw [exec_attest, execAttest]
  exact onCommand_ends due (.inr rfl) (putBuffer_taken takes link _ _)

/-- HCOPY whose remaining units the event covers moves them all and ends (R447). -/
theorem exec_hcopy_moves (due : CommandDue s (isOp 12)) (ready : s.host.boot = 4) (takes : s.ev.p = false)
    (link : portUp s s.ev.i = true) :
    let m := s.mbox s.ev.i
    let n := m.arg2.toNat
    let a := m.arg1.toNat
    n % 16 = 0 → n ≤ 2 ^ 30 → isHbm (a + n - 1) = true → covers (ownMemory s 0) a n = true → m.done < n / 16 → n / 16 - m.done ≤ s.ev.k →
    (∀ i < 16 * (n / 16 - m.done), keyConflict s (a + 16 * m.done + i) 0 = false) →
    exec .hcopy s = .next (endCommand (hcopyUnits (nbit m.arg3.toNat 0) m.arg0.toNat a (n / 16 - m.done) m.done (structClear s 0 a))
      s.ev.i rOK) := by
  intro m n a whole bounded backed own left enough free
  have sound : ¬ (decide (n % 16 ≠ 0) || decide (n > 2 ^ 30) ||
      (decide (n ≠ 0) && (!isHbm (a + n - 1) || !covers (ownMemory s 0) a n))) = true := by
    simpa [whole, backed, own] using bounded
  have goesOn : ¬ (s.ev.p || !portUp s s.ev.i) = true := by simp [takes, link]
  have unconflicted : ¬ ((List.range (16 * (n / 16 - m.done))).any fun i => keyConflict s (a + 16 * m.done + i) 0) = true := by
    simp only [List.any_eq_true, List.mem_range, not_exists, not_and, Bool.not_eq_true]
    exact free
  rw [exec_hcopy, execHcopy]
  refine onCommand_ends due (.inl ready) ((if_neg sound).trans ((if_neg (Nat.not_le.mpr left)).trans ((if_neg goesOn).trans ?_)))
  dsimp only
  rw [Nat.min_eq_right enough]
  exact (if_neg unconflicted).trans (if_pos (Nat.add_sub_of_le left.le))

/-! ### ENQUEUE (R447) -/

/-- ENQUEUE of an accepted card whose turn has come puts it into its place and answers status 0. -/
theorem exec_enqueue_accepts {bs : List Byte} {w : Nat × Nat} {p : Place} (due : CommandDue s (isOp 11)) (ready : s.host.boot = 4) :
    let m := s.mbox s.ev.i
    let q := nbits m.arg1.toNat 0 16
    (s.ctx 0).s1root ≠ none → m.arg0.toNat % 128 = 0 → m.arg2.toNat ≤ 1000000 → s.host.cxlIn = [] →
    deviceRead s 0 m.arg0.toNat 128 = some bs → cardStatus s 0 q .launch (cardOf bs) = 0 →
    m.wait.getD (s.waitSeq, s.rtime + m.arg2.toNat) = w → turnPlace s q 0 w.1 = some p →
    exec .enqueue s = .next (endCommand (modMbox (acceptCard s q p 0 .launch (cardOf bs) bs) s.ev.i fun m =>
      { m with arg0 := w64 (256 * (m.arg0.toNat / 256)) }) s.ev.i rOK) := by
  rintro m q root aligned limit merged card sound rfl turn
  have configured : ¬ (s.ctx 0).s1root.isNone = true := by rwa [Option.isNone_iff_eq_none]
  have args : ¬ (decide (m.arg0.toNat % 128 ≠ 0) || decide (m.arg2.toNat > 1000000)) = true := by
    simp [aligned, Nat.not_lt.mpr limit]
  have settled : ¬ (!s.host.cxlIn.isEmpty) = true := by simp [merged]
  rw [exec_enqueue, execEnqueue]
  refine onCommand_ends due (.inl ready) ((if_neg configured).trans ((if_neg args).trans ((if_neg settled).trans ?_)))
  simp only [m, q] at card sound turn
  simp only [card, sound, turn, ne_eq, not_true_eq_false, if_false]
  rfl

/-! ### MIGRATE (R377) -/

section

variable (due : CommandDue s (isMigrate false)) (ready : s.host.boot = 4)
include due ready

/-- The first performance of a MIGRATE out begins it where nothing else is outstanding. -/
theorem exec_migrateOut_begins (first : (s.mbox s.ev.i).done = 0) :
    let c := nbits (s.mbox s.ev.i).arg0.toNat 0 12
    c ≠ 0 → s.hasCtx c = true → stopsNow s c = false → (∀ k ∈ subtree s c, (s.ctx k).op = none) → ctxPlaces s c = true →
    exec .migrateOut s = .next (modMbox (beginMigrate s c) s.ev.i fun m => { m with done := 1 }) := by
  intro c below held runs idle fits
  have named : ¬ (decide (c = 0) || !s.hasCtx c) = true := by simp [below, held]
  have going : ¬ stopsNow s c = true := by rw [runs]; decide
  have quiet : ¬ ((subtree s c).any fun k => (s.ctx k).op.isSome) = true := by
    simp only [List.any_eq_true, not_exists, not_and]
    intro k hk
    simp [idle k hk]
  have places : ¬ (!ctxPlaces s c) = true := by rw [fits]; decide
  rw [exec_migrateOut, execMigrateOut]
  exact onCommand_later due (.inl ready) ((if_pos first).trans ((if_neg named).trans ((if_neg going).trans
    ((if_neg quiet).trans (if_neg places)))))

/-- A context that is being stopped is waited for (R375). -/
theorem exec_migrateOut_awaits (first : (s.mbox s.ev.i).done = 0) :
    let c := nbits (s.mbox s.ev.i).arg0.toNat 0 12
    c ≠ 0 → s.hasCtx c = true → stopsNow s c = true → exec .migrateOut s = .next s := by
  intro c below held stops
  have named : ¬ (decide (c = 0) || !s.hasCtx c) = true := by simp [below, held]
  rw [exec_migrateOut, execMigrateOut]
  exact onCommand_later due (.inl ready) ((if_pos first).trans ((if_neg named).trans (if_pos stops)))

/-- At the kernel boundary an image that fits is written and its subtree leaves; one that does not leaves every context as it was. -/
theorem exec_migrateOut_ends (begun : (s.mbox s.ev.i).done ≠ 0) (takes : s.ev.p = false) (link : portUp s s.ev.i = true) :
    let c := nbits (s.mbox s.ev.i).arg0.toNat 0 12
    let img := movedImage s c
    let u := (subtree s c).foldl flushHeld (modHost s fun h => { h with images := img :: h.images })
    (s.ctx c).st = .migrating → subtreeTrains s c = [] → stuckLevels s c = [] →
    exec .migrateOut s = .next (if (migEncode img).length ≤ (s.mbox s.ev.i).arg2.toNat then
        endCommand (refreeze (hostWrite (leavePackage u c) (s.mbox s.ev.i).arg1.toNat (migEncode img))) s.ev.i rOK
      else endCommand (undoMigrate s c) s.ev.i rARG) := by
  intro c img u moves still free
  have finishes {r : Nat} {t : State} (done : finishMigrate s c (s.mbox s.ev.i) = .ends r t) :
      exec .migrateOut s = .next (endCommand t s.ev.i r) := by
    rw [exec_migrateOut, execMigrateOut]
    exact onCommand_ends due (.inl ready) ((if_neg begun).trans ((if_neg (not_not_intro moves)).trans
      ((if_pos (List.isEmpty_iff.mpr still)).trans done)))
  have goesOn : ¬ (s.ev.p || !portUp s s.ev.i) = true := by simp [takes, link]
  split
  · next fits =>
    refine finishes ((if_neg (Nat.not_lt.mpr fits)).trans ((if_neg goesOn).trans ?_))
    rw [free]
  · next large => exact finishes (if_pos (Nat.lt_of_not_le large))

end

/-- MIGRATE in takes the image that the buffer holds, if it is one and its parent can host and name it; it waits while a register save area
of the image is under another key. -/
theorem exec_migrateIn_ends (due : CommandDue s (isMigrate true)) (ready : s.host.boot = 4) (takes : s.ev.p = false)
    (link : portUp s s.ev.i = true) :
    let m := s.mbox s.ev.i
    let par := nbits m.arg0.toNat 0 12
    s.hasCtx par = true → (s.ctx par).op = none →
    exec .migrateIn s = .next (match imageIn s (hostRead s m.arg1.toNat m.arg2.toNat) with
      | none => endCommand s s.ev.i rARG
      | some img => match mget img.ctxs img.top with
        | none => endCommand s s.ev.i rARG
        | some top => match dieMap s top with
          | none => endCommand s s.ev.i rSTATE
          | some f => if canHost s par (placeCtx f top) && canName s par img then
              (if img.ctxs.any fun e => saveConflict (joinPackage s par img f) e.1 0 1024 then s
               else endCommand (joinPackage s par img f) s.ev.i rOK)
            else endCommand s s.ev.i rSTATE) := by
  dsimp only
  intro held idle
  have named : ¬ (!s.hasCtx (nbits (s.mbox s.ev.i).arg0.toNat 0 12)) = true := by rw [held]; decide
  have quiet : ¬ (s.ctx (nbits (s.mbox s.ev.i).arg0.toNat 0 12)).op.isSome = true := by rw [idle]; decide
  have goesOn : ¬ (s.ev.p || !portUp s s.ev.i) = true := by simp [takes, link]
  rw [exec_migrateIn, execMigrateIn, onCommand_performs due (.inl ready)]
  dsimp only
  rw [if_neg named, if_neg quiet, if_neg goesOn]
  cases imageIn s (hostRead s (s.mbox s.ev.i).arg1.toNat (s.mbox s.ev.i).arg2.toNat) with
  | none => rfl
  | some img =>
    dsimp only
    cases mget img.ctxs img.top with
    | none => rfl
    | some top =>
      dsimp only
      cases dieMap s top with
      | none => rfl
      | some f =>
        dsimp only
        cases canHost s (nbits (s.mbox s.ev.i).arg0.toNat 0 12) (placeCtx f top) &&
            canName s (nbits (s.mbox s.ev.i).arg0.toNat 0 12) img with
        | false => rfl
        | true =>
          simp only [Bool.not_true, Bool.false_eq_true, if_false, if_true]
          cases img.ctxs.any fun e =>
              saveConflict (joinPackage s (nbits (s.mbox s.ev.i).arg0.toNat 0 12) img f) e.1 0 1024 with
          | false => rfl
          | true => rfl

end

/-- Settles O39: a command writes its buffer, moves its bytes, accepts its card or moves its subtree. -/
theorem mailboxMoves : Obligations.MailboxMoves := by
  unfold Obligations.MailboxMoves
  refine ⟨?resync, ?attest, ?hcopy, ?enqueue, ?begins, ?awaits, ?ends, ?arrives⟩
  case resync => exact fun s ⟨due, ready⟩ takes link fits => exec_resync_writes due ready takes link fits
  case attest => exact fun s due takes link => exec_attest_writes due takes link
  case hcopy => exact fun s ⟨due, ready⟩ takes link => exec_hcopy_moves due ready takes link
  case enqueue => exact fun s bs w p ⟨due, ready⟩ => exec_enqueue_accepts due ready
  case begins => exact fun s ⟨due, ready⟩ first => exec_migrateOut_begins due ready first
  case awaits => exact fun s ⟨due, ready⟩ first => exec_migrateOut_awaits due ready first
  case ends =>
    exact fun s ⟨due, ready⟩ begun moves still takes link free => exec_migrateOut_ends due ready begun takes link moves still free
  case arrives => exact fun s ⟨due, ready⟩ held idle takes link => exec_migrateIn_ends due ready takes link held idle

end Sys2Proof.Machine

/-! ## O37: the events of contexts, counters and errors

One lemma for each outcome of an event; the obligation collects them. -/

namespace Sys2Proof.Machine

open Sys2Proof

section

variable {s : State}

/-! ### Stops, drains and revocations (R372, R373, R418) -/

theorem exec_revokeComplete (s : State) : exec .revokeComplete s = execRevokeComplete s := rfl
theorem exec_stopComplete (s : State) : exec .stopComplete s = execStopComplete s := rfl
theorem exec_drainDeadline (s : State) : exec .drainDeadline s = execDrainDeadline s := rfl

section

variable {o : CtxOp} (under : (s.ctx s.ev.i).op = some o ∧ s.hasCtx s.ev.i = true)
include under

/-- A revocation that is ready ends, unless grant-map images cannot be written yet (R362). -/
theorem exec_revokeComplete_ready (ready : revokeReady s s.ev.i o = true) :
    (stuckMaps s s.ev.i o = [] → exec .revokeComplete s = .next (finishRevoke s s.ev.i o)) ∧
    (stuckMaps s s.ev.i o ≠ [] → exec .revokeComplete s = .next ((stuckMaps s s.ev.i o).foldl mapReport s)) := by
  obtain ⟨op, held⟩ := under
  simp only [exec_revokeComplete, execRevokeComplete, op, held, ready, Bool.and_self, Bool.not_true, Bool.false_eq_true, if_false]
  refine ⟨fun free => by rw [free], fun stuck => ?_⟩
  split
  · next free => exact absurd free stuck
  · rfl

theorem exec_stopComplete_ends (ready : stopReady s s.ev.i o = true) :
    exec .stopComplete s = .next (finishStop s s.ev.i o (if o.kind = .stopDrain then 5 else 6)) := by
  obtain ⟨op, held⟩ := under
  simp only [exec_stopComplete, execStopComplete, op, held, ready, Bool.and_self, if_true]

variable (late : o.drains = true ∧ o.deadline.any (· ≤ s.rtime) = true ∧ drainLeft s s.ev.i o = true)
include late

/-- A drain whose deadline has come while trains are left escalates, each kind of operation in its way. -/
theorem exec_drainDeadline_escalates : exec .drainDeadline s = .next (
    let u := forcedReset s s.ev.i
    match o.kind with
    | .revoke all _ ws =>
      let ts := o.trains.filter fun t => (mget u.trains t).isSome
      stopTrains (modCtx (stopSubtree u s.ev.i) s.ev.i fun x => { x with
        st := .stopping
        op := some { o with kind := .revoke all false ws, deadline := none, trains := ts, was := .stopped } }) ts
    | .migrate => endMigration (stopSubtree u s.ev.i) s.ev.i
    | _ => finishStop u s.ev.i o 6) := by
  obtain ⟨op, held⟩ := under
  obtain ⟨drains, due, left⟩ := late
  have escalates : ¬ (!(o.drains && s.hasCtx s.ev.i && o.deadline.any (· ≤ s.rtime) && drainLeft s s.ev.i o)) = true := by
    simp only [drains, held, due, left, Bool.and_self, Bool.not_true, Bool.false_eq_true, not_false_eq_true]
  simp only [exec_drainDeadline, execDrainDeadline, op]
  exact congrArg _ (if_neg escalates)

end

/-! ### Budgets (R368, R370) -/

theorem exec_budgetRefill (s : State) : exec .budgetRefill s = execBudgetRefill s := rfl
theorem exec_bucketEmpty (s : State) : exec .bucketEmpty s = execBucketEmpty s := rfl

theorem bucket_setBucket (x : Ctx) (k j : Bucket) (b : BucketSt) : (x.setBucket k b).bucket j = if j = k then b else x.bucket j := by
  cases k <;> cases j <;> rfl

/-- One bucket of context `c` takes what its provider's rate leaves it, up to its depth. -/
def fillBucket (s : State) (c : Nat) (x : Ctx) (k : Bucket) : Ctx :=
  let b := x.bucket k
  if b.depth = 0 then x else x.setBucket k { b with tok := min b.depth (b.tok + (freeRate s c k).toNat) }

/-- All buckets of a context other than the root. -/
def fillBuckets (s : State) (c : Nat) (x : Ctx) : Ctx :=
  if c = 0 then x else [Bucket.time, .mem, .ext].foldl (fillBucket s c) x

theorem fillBucket_other {c : Nat} {x : Ctx} {k j : Bucket} (h : j ≠ k) : (fillBucket s c x k).bucket j = x.bucket j := by
  unfold fillBucket
  dsimp only
  split
  · rfl
  · rw [bucket_setBucket, if_neg h]

theorem fillBucket_tok (c : Nat) (x : Ctx) (k : Bucket) : ((fillBucket s c x k).bucket k).tok =
    if (x.bucket k).depth = 0 then (x.bucket k).tok else min (x.bucket k).depth ((x.bucket k).tok + (freeRate s c k).toNat) := by
  unfold fillBucket
  dsimp only
  split
  · rfl
  · rw [bucket_setBucket, if_pos rfl]

/-- Each bucket is filled by its own step alone. -/
theorem fillBuckets_tok {c : Nat} (below : c ≠ 0) (x : Ctx) (k : Bucket) : ((fillBuckets s c x).bucket k).tok =
    if (x.bucket k).depth = 0 then (x.bucket k).tok else min (x.bucket k).depth ((x.bucket k).tok + (freeRate s c k).toNat) := by
  simp only [fillBuckets, below, if_false, List.foldl_cons, List.foldl_nil]
  cases k with
  | time =>
    rw [fillBucket_other (j := .time) (k := .ext) (by decide), fillBucket_other (j := .time) (k := .mem) (by decide), fillBucket_tok]
  | mem =>
    rw [fillBucket_other (j := .mem) (k := .ext) (by decide), fillBucket_tok, fillBucket_other (j := .mem) (k := .time) (by decide)]
  | ext =>
    rw [fillBucket_tok, fillBucket_other (j := .ext) (k := .mem) (by decide), fillBucket_other (j := .ext) (k := .time) (by decide)]

/-- The state after a refill. -/
def refilled (s : State) : State :=
  { s with timers := s.timers.filter (· ≠ .refill), ctxs := s.ctxs.map fun e => (e.1, fillBuckets s e.1 e.2) }

theorem exec_budgetRefill_due (due : .refill ∈ s.timers) : exec .budgetRefill s = .next (refilled s) := by
  have each (e : Nat × Ctx) : (if e.1 = 0 then e else (e.1, [Bucket.time, .mem, .ext].foldl (fillBucket s e.1) e.2)) =
      (e.1, fillBuckets s e.1 e.2) := by
    unfold fillBuckets
    split
    · rfl
    · rfl
  rw [exec_budgetRefill, execBudgetRefill, if_neg (by simp [due]), refilled]
  simp only [← each]
  rfl

theorem refilled_ctx {c : Nat} (held : s.hasCtx c = true) : (refilled s).ctx c = fillBuckets s c (s.ctx c) := by
  obtain ⟨x, hx⟩ := Option.isSome_iff_exists.mp held
  simp only [State.ctx, refilled, mgetD, mget_map, hx, Option.map_some, Option.getD_some]

theorem exec_bucketEmpty_time (time : s.ev.bucket = .time) (below : s.ev.i ≠ 0) (held : s.hasCtx s.ev.i = true)
    (metered : (s.ctx s.ev.i).time.depth ≠ 0) (empty : (s.ctx s.ev.i).time.tok = 0) :
    exec .bucketEmpty s = .next ((liveCores s).foldl (fun t k =>
      if (holderOf t k).any fun h => payer t h .time = some s.ev.i then endSlice t k else t) s) := by
  simp only [exec_bucketEmpty, execBucketEmpty, time, Ctx.bucket]
  exact congrArg _ (if_pos (by simp [below, held, metered, empty]))

/-- An empty MEM or EXT bucket ends no slice: requests wait by themselves. -/
theorem exec_bucketEmpty_other (other : s.ev.bucket ≠ .time) : exec .bucketEmpty s = .next s := by
  simp only [exec_bucketEmpty, execBucketEmpty]
  exact congrArg _ (if_neg (by simp [other]))

theorem exec_storePerformedAtHome_unpaid {p : PStore} (found : (s.stores.find? fun q => q.id = s.ev.i) = some p) (bytes : p.reg = false)
    (pays : paysFor p = true) (empty : outOf s (agentCtx s p.who) .mem = true) : exec .storePerformedAtHome s = .next s := by
  have waits : storeReady s p = false := by
    simp only [storeReady, bytes, pays, empty, Bool.false_eq_true, if_false, Bool.and_self, Bool.not_true, Bool.false_and]
  rw [exec_storePerformedAtHome_found found, waits]
  rfl

/-- A step whose context cannot pay for its request stays in its queue. -/
theorem tryStep_unpaid {a : AStep} (first : a.id = a.grp) (empty : outOf s (agentCtx s a.who) .mem = true) : tryStep s a = s := by
  have waits : stepReady s a = false := by
    simp only [stepReady, first, empty, if_true, Bool.not_true, Bool.and_false]
  simp only [tryStep, waits, Bool.and_false, Bool.false_eq_true, if_false]

/-- A queue of one step is retired whole, whether or not the adder tree takes the step. -/
theorem retireRun_singleton (a : AStep) : retireRun [a] = [a] := by
  cases tree : treeStep a.op a with
  | false => exact retireRun_of_not_tree tree
  | true => rw [retireRun_of_tree tree, List.takeWhile_cons_of_pos (by simp [tree])]; rfl

theorem exec_homeAtomic_unpaid {a : AStep} (queue : wordSteps s s.ev.i = [a]) (first : a.id = a.grp)
    (empty : outOf s (agentCtx s a.who) .mem = true) : exec .homeAtomic s = .next s := by
  rw [exec_homeAtomic, queue, retireRun_singleton]
  cases s.ev.j with
  | zero => rfl
  | succ n => simp only [List.take_succ_cons, List.take_nil, List.foldl_cons, List.foldl_nil, tryStep_unpaid first empty]

/-! ### Reports and timers (R365, R425, R428) -/

theorem exec_counterPolicyTick (s : State) : exec .counterPolicyTick s = execCounterPolicyTick s := rfl
theorem exec_timeSeriesTick (s : State) : exec .timeSeriesTick s = execTimeSeriesTick s := rfl
theorem exec_faultReportDeliver (s : State) : exec .faultReportDeliver s =
    .next (if s.hasCtx s.ev.i then fqNotify (deliverReport (fqNotify s s.ev.i) s.ev.i) s.ev.i else s) := rfl

theorem exec_cntSelWrite_writes (held : s.hasCtx s.ev.i = true) (counter : s.ev.j < 8)
    (inside : sysRange (0x10 + s.ev.j) s.ev.x.toNat = true) :
    exec .cntSelWrite s = .next (sysSet s s.ev.i (0x10 + s.ev.j) s.ev.x.toNat) :=
  congrArg _ (if_pos (by simp only [held, counter, inside, decide_true, Bool.and_self]))

/-- The first timer that a test selects is taken out of those around it. -/
theorem takeTimer_append {α : Type} {f : Timer → Option α} {x : Timer} {a : α} (taken : f x = some a) (post : List Timer) :
    ∀ pre : List Timer, (∀ y ∈ pre, f y = none) → takeTimer f (pre ++ x :: post) = some (a, pre ++ post)
  | [], _ => by simp only [List.nil_append, takeTimer, taken]
  | y :: pre, others => by
    have rest := takeTimer_append taken post pre fun z hz => others z (List.mem_cons_of_mem y hz)
    simp only [List.cons_append, takeTimer, others y List.mem_cons_self, rest, Option.map_some]

theorem exec_counterPolicyTick_latches {pre post : List Timer} {t : Nat} {v : SMap (BitVec 48)}
    (timers : s.timers = pre ++ .policy s.ev.i t v :: post) (others : ∀ x ∈ pre, policyOf s.ev.i x = none) :
    exec .counterPolicyTick s = .next (modSys { s with timers := pre ++ post } s.ev.i fun y => y.latch t v) := by
  have taken := takeTimer_append (f := policyOf s.ev.i) (x := .policy s.ev.i t v) (if_pos rfl) post pre others
  rw [exec_counterPolicyTick, execCounterPolicyTick, timers, taken]

theorem exec_timeSeriesTick_writes {pre post : List Timer} {bs : List Byte} (timers : s.timers = pre ++ .series s.ev.i bs :: post)
    (others : ∀ x ∈ pre, seriesOf s.ev.i x = none) :
    let t := seriesTick { s with timers := pre ++ post } s.ev.i bs
    exec .timeSeriesTick s = .next (if nbit (t.ctx s.ev.i).sys.tsctl.toNat 30 then sampleCores t s.ev.i else t) := by
  have taken := takeTimer_append (f := seriesOf s.ev.i) (x := .series s.ev.i bs) (if_pos rfl) post pre others
  rw [exec_timeSeriesTick, execTimeSeriesTick, timers, taken]

/-! ### Reads of the host (R427, R441) -/

theorem exec_sysregLoRead (s : State) : exec .sysregLoRead s = execSysregLoRead s := rfl

section

variable (reach : hostReach s = true)
include reach

theorem exec_sysregLoRead_missized (size : reqSizeOk s.ev.k s.ev.l = false) :
    exec .sysregLoRead s = .next (errorCompletion s (barAddr s.ev.k)) := by
  simp only [exec_sysregLoRead, execSysregLoRead, reach, size, Bool.not_true, Bool.not_false, Bool.false_eq_true, if_false, if_true]

variable (size : reqSizeOk s.ev.k s.ev.l = true)
include size

theorem exec_sysregLoRead_reads (reaches : (reachCtx s).isSome = true) : exec .sysregLoRead s =
    .next (modHost (mmioRead s s.ev.k s.ev.l).2 fun h => { h with reply := leBytes s.ev.l (mmioRead s s.ev.k s.ev.l).1, replyBad := false }) := by
  obtain ⟨c, hc⟩ := Option.isSome_iff_exists.mp reaches
  simp only [exec_sysregLoRead, execSysregLoRead, reach, size, hc, Bool.not_true, Bool.false_eq_true, if_false]

theorem exec_sysregLoRead_unreached (none_reached : reachCtx s = none) : exec .sysregLoRead s =
    .next (modHost s fun h => { h with reply := List.replicate s.ev.l 0xFF, replyBad := false }) := by
  simp only [exec_sysregLoRead, execSysregLoRead, reach, size, none_reached, Bool.not_true, Bool.false_eq_true, if_false]

end

/-- Offset in BAR0 of a half of register `n` of context `c` (R441). -/
abbrev halfOffset (c n : Nat) (hi : Bool) : Nat := 2 ^ 34 + 2048 * c + 8 * n + if hi then 4 else 0

theorem mmioRead_half {c n : Nat} (hi : Bool) (hc : c < 4096) (hn : n < 256) :
    mmioRead s (halfOffset c n hi) 4 = sysHalfRead s c n hi := by
  obtain ⟨d, hd, small, isHi⟩ : ∃ d, halfOffset c n hi = 2 ^ 34 + 2048 * c + 8 * n + d ∧ d < 8 ∧ decide (d = 4) = hi := by
    cases hi
    · exact ⟨0, rfl, by decide, rfl⟩
    · exact ⟨4, rfl, by decide, rfl⟩
  have block : mmioBlock (halfOffset c n hi) = 0x40 := by
    rw [hd]
    simp only [mmioBlock, nbits]
    omega
  have inner : mmioIn (halfOffset c n hi) = 2048 * c + 8 * n + d := by
    rw [hd]
    simp only [mmioIn]
    omega
  have context : (2048 * c + 8 * n + d) / 2048 = c := by omega
  have register : (2048 * c + 8 * n + d) % 2048 / 8 = n := by omega
  have half : (2048 * c + 8 * n + d) % 8 = d := by omega
  have inBlock : 2048 * c + 8 * n + d < 2048 * 4096 := by omega
  have word : mmioWordRead s (halfOffset c n hi) = sysHalfRead s c n hi := by
    simp only [mmioWordRead, block, inner, context, register, half, isHi, inBlock]
    rfl
  simp only [mmioRead, word]
  rfl

/-- A read of one half by physical function 0, the root's. -/
theorem exec_sysregLoRead_half {c n : Nat} {hi : Bool} (reach : hostReach s = true) (root : s.ev.j = 0) (four : s.ev.l = 4)
    (hc : c < 4096) (hn : n < 256) (offset : s.ev.k = halfOffset c n hi) : exec .sysregLoRead s =
    .next (modHost (sysHalfRead s c n hi).2 fun h => { h with reply := leBytes 4 (sysHalfRead s c n hi).1, replyBad := false }) := by
  have size : reqSizeOk s.ev.k s.ev.l = true := by
    have aligned : halfOffset c n hi % 4 = 0 := by
      cases hi
      · simp only [halfOffset, Bool.false_eq_true, if_false]
        omega
      · simp only [halfOffset, if_true]
        omega
    simp [reqSizeOk, offset, four, aligned]
  have reaches : reachCtx s = some 0 := reachCtx_of (by simp [functionCtx, root]) (.inl root)
  rw [exec_sysregLoRead_reads reach size (by rw [reaches]; rfl), offset, four, mmioRead_half hi hc hn]

/-! ### Writes of the host (R427) -/

theorem exec_sysregHostWrite (s : State) :
    exec .sysregHostWrite s = .next (sysHalfWrite s s.ev.k s.ev.i s.ev.j s.ev.p (s.ev.x.toNat % 2 ^ 32)) := rfl

/-- A write that no right allows is discarded and counted. -/
theorem sysHalfWrite_discarded {b c n v : Nat} {hi : Bool}
    (no : s.hasCtx c = false ∨ sysExists n = false ∨ n = 2 ∨ sysWriter s b c n (b ≠ c) = false) :
    sysHalfWrite s b c n hi v = countRsvw s := by
  refine if_pos ?_
  rcases no with e | e | e | e
  all_goals simp only [e, Bool.not_false, decide_true, Bool.or_true, Bool.true_or]

/-- What a write of one half makes of a register: a bit that is written 1 to clear, and a register that takes only 0, have no other half. -/
def halfValue (s : State) (c n : Nat) (hi : Bool) (v : Nat) : Nat :=
  if zeroOnly n || (0x20 ≤ n && n ≤ 0x27) then (if hi then 2 ^ 32 * v else v)
  else if hi then 2 ^ 32 * v + sysGet s c n % 2 ^ 32
  else 2 ^ 32 * (sysGet s c n / 2 ^ 32) + v

/-- A writer's half is written without the register's reserved bits (log 45, 87). -/
theorem sysHalfWrite_writes {b c n v : Nat} {hi : Bool} (held : s.hasCtx c = true) (register : sysExists n = true) (other : n ≠ 2)
    (writer : sysWriter s b c n (b ≠ c) = true) :
    let w := halfValue s c n hi v
    let kept := w &&& (2 ^ 64 - 1 - sysRsvd n)
    let t := if w &&& sysRsvd n ≠ 0 then countRsvw s else s
    sysHalfWrite s b c n hi v = if sysRange n kept then sysSet t c n kept else countRsvw t := by
  have accepted : ¬ (!sysExists n || !s.hasCtx c || decide (n = 0x02) || !sysWriter s b c n (b ≠ c)) = true := by
    simp only [held, register, other, writer, Bool.not_true, decide_false, Bool.or_self, Bool.false_eq_true, not_false_eq_true]
  intro w kept t
  refine (if_neg accepted).trans ?_
  rw [Nat.add_comm (sysGet s c n % 2 ^ 32)]
  rfl

/-- TVEC has no reserved bits: an aligned low half is written as it is. -/
theorem sysHalfWrite_tvec {b c v : Nat} (held : s.hasCtx c = true) (writer : sysWriter s b c 0 (b ≠ c) = true) (aligned : v % 4 = 0)
    (half : v < 2 ^ 32) :
    sysHalfWrite s b c 0 false v = sysSet s c 0 (2 ^ 32 * ((s.ctx c).sys.tvec.toNat / 2 ^ 32) + v) := by
  have value : halfValue s c 0 false v = 2 ^ 32 * ((s.ctx c).sys.tvec.toNat / 2 ^ 32) + v := rfl
  have word : 2 ^ 32 * ((s.ctx c).sys.tvec.toNat / 2 ^ 32) + v < 2 ^ 64 := by
    have := (s.ctx c).sys.tvec.isLt
    omega
  have kept : halfValue s c 0 false v &&& (2 ^ 64 - 1 - sysRsvd 0) = halfValue s c 0 false v := by
    rw [show 2 ^ 64 - 1 - sysRsvd 0 = 2 ^ 64 - 1 from rfl, Nat.and_two_pow_sub_one_eq_mod, value, Nat.mod_eq_of_lt word]
  have inside : sysRange 0 (halfValue s c 0 false v) = true := by
    rw [value]
    simp only [sysRange, sysBits, Bool.and_eq_true, decide_eq_true_eq]
    exact ⟨word, by omega⟩
  rw [sysHalfWrite_writes held rfl (by decide) writer, kept, if_pos inside, value]
  exact congrArg (sysSet · c 0 _) (if_neg (by simp [sysRsvd]))

/-! ### Errors (R435) -/

theorem exec_errorDetected (s : State) : exec .errorDetected s = execErrorDetected s := rfl

/-- An error of a structure that has a code is recorded (log 92: a cask has none). -/
theorem exec_errorDetected_records (first : 1 ≤ s.ev.i) (last : s.ev.i ≤ 10) :
    let d := errDie s.ev.i s.ev.j s.ev.k
    exec .errorDetected s =
      .next (errorRecord (errorEffect s) d.1 d.2 s.ev.i s.ev.k (errOwner s) (s.ev.p && s.ev.i ≠ 1) (s.ev.p && s.ev.i ≠ 1)) :=
  congrArg _ ((if_neg (Nat.not_lt.mpr last)).trans (if_neg (Nat.one_le_iff_ne_zero.mp first)))

theorem exec_errorDetected_cask (cask : s.ev.i = 0) : exec .errorDetected s = .next (errorEffect s) :=
  congrArg _ ((if_neg (by rw [cask]; decide)).trans (if_pos cask))

end

/-- Settles O37: each clause is the lemma of its event's outcome. -/
theorem contextEvents : Obligations.ContextEvents := by
  unfold Obligations.ContextEvents
  refine ⟨?revoked, ?stuck, ?stopped, ?drainStop, ?drainRevoke, ?drainMigrate, ?refill, ?time, ?other, ?store, ?atomic, ?slice, ?report,
    ?select, ?policy, ?series, ?read, ?half, ?unreached, ?missized, ?tvec, ?discarded, ?write, ?cask, ?error⟩
  case revoked => exact fun o s ⟨under, ready, free⟩ => (exec_revokeComplete_ready under ready).1 free
  case stuck => exact fun o s ⟨under, ready, stuck⟩ => (exec_revokeComplete_ready under ready).2 stuck
  case stopped => exact fun o s ⟨under, ready⟩ => exec_stopComplete_ends under ready
  case drainStop =>
    rintro o kind s ⟨under, late⟩
    rw [exec_drainDeadline_escalates under late, kind]
  case drainRevoke =>
    rintro o all drain ws kind s ⟨under, late⟩
    rw [exec_drainDeadline_escalates under late, kind]
  case drainMigrate =>
    rintro o kind s ⟨under, late⟩
    rw [exec_drainDeadline_escalates under late, kind]
  case refill =>
    intro s due
    refine ⟨refilled s, exec_budgetRefill_due due, by simp [refilled], fun c k below held => ?_⟩
    rw [refilled_ctx held]
    exact fillBuckets_tok below _ k
  case time => exact fun s ⟨time, below, held, metered, empty⟩ => exec_bucketEmpty_time time below held metered empty
  case other =>
    rintro s (mem | ext)
    · exact exec_bucketEmpty_other (by rw [mem]; decide)
    · exact exec_bucketEmpty_other (by rw [ext]; decide)
  case store => exact fun p s ⟨found, bytes, pays, empty⟩ => exec_storePerformedAtHome_unpaid found bytes pays empty
  case atomic => exact fun a s ⟨queue, first, empty⟩ => exec_homeAtomic_unpaid queue first empty
  case slice => exact fun s _ => rfl
  case report => exact fun s held => (exec_faultReportDeliver s).trans (congrArg _ (if_pos held))
  case select => exact fun s ⟨held, counter, inside⟩ => exec_cntSelWrite_writes held counter inside
  case policy => exact fun s pre t v post timers others => exec_counterPolicyTick_latches timers others
  case series => exact fun s pre bs post timers others => exec_timeSeriesTick_writes timers others
  case read => exact fun s ⟨reach, size, reaches⟩ => exec_sysregLoRead_reads reach size reaches
  case half => exact fun s c n hi reach root four hc hn offset => exec_sysregLoRead_half reach root four hc hn offset
  case unreached => exact fun s ⟨reach, size, none_reached⟩ => exec_sysregLoRead_unreached reach size none_reached
  case missized => exact fun s ⟨reach, size⟩ => exec_sysregLoRead_missized reach size
  case tvec =>
    rintro s ⟨held, writer, register, low, aligned⟩
    have half : s.ev.x.toNat % 2 ^ 32 < 2 ^ 32 := Nat.mod_lt _ (by decide)
    rw [exec_sysregHostWrite, register, low, sysHalfWrite_tvec held writer (by omega) half]
  case discarded => exact fun s no => (exec_sysregHostWrite s).trans (congrArg _ (sysHalfWrite_discarded no))
  case write =>
    intro s n v w kept t held register other writer
    exact (exec_sysregHostWrite s).trans (congrArg _ (sysHalfWrite_writes held register other writer))
  case cask => exact fun s cask => exec_errorDetected_cask cask
  case error => exact fun s ⟨first, last⟩ => exec_errorDetected_records first last

end Sys2Proof.Machine

/-! ## O54: taking a trap

What the frame holds and what the handler's entry does to the coach are facts about maps; `takeTrap` only chooses between the outcomes. -/

namespace Sys2Proof.Machine

open Sys2Proof

/-! ### Lists as maps -/

theorem mget_append {α : Type} (a b : SMap α) (k : Nat) : mget (a ++ b) k = (mget a k).or (mget b k) := by
  induction a with
  | nil => rfl
  | cons e a ih =>
    simp only [List.cons_append, mget]
    split
    · rfl
    · exact ih

/-- A map listed key by key. -/
theorem mget_filterMap {α : Type} (g : Nat → Option α) (is : List Nat) (k : Nat) :
    mget (is.filterMap fun i => (g i).map fun v => (i, v)) k = if k ∈ is then g k else none := by
  induction is with
  | nil => rfl
  | cons i is ih =>
    by_cases same : i = k
    · subst same
      cases value : g i with
      | none => simp [value, ih]
      | some v => simp [value, mget]
    · have other : k ≠ i := fun e => same e.symm
      cases value : g i with
      | none => simp [value, ih, other]
      | some v => simp [value, mget, same, ih, other]

/-- A map listed in parts, of which one alone can hold the key. -/
theorem mget_flatMap {α : Type} {f : Nat → SMap α} {k l : Nat} (own : ∀ i, i ≠ l → mget (f i) k = none) (is : List Nat) :
    mget (is.flatMap f) k = if l ∈ is then mget (f l) k else none := by
  induction is with
  | nil => rfl
  | cons i is ih =>
    rw [List.flatMap_cons, mget_append, ih]
    by_cases same : i = l
    · subst same
      cases mget (f i) k with
      | none => simp
      | some v => simp
    · have other : l ≠ i := fun e => same e.symm
      simp [own i same, other]

/-- Four entries from `4 * i` on. -/
theorem mget_four {α : Type} (g : Nat → α) (i l : Nat) {j : Nat} (hj : j < 4) :
    mget ((List.range 4).map fun j => (4 * i + j, g j)) (4 * l + j) = if i = l then some (g j) else none := by
  have hit (n : Nat) (hn : n < 4) : 4 * i + n = 4 * l + j ↔ i = l ∧ n = j := by omega
  simp only [List.range_succ, List.range_zero, List.nil_append, List.cons_append, List.map_cons, List.map_nil, mget, hit 0 (by decide),
    hit 1 (by decide), hit 2 (by decide), hit 3 (by decide)]
  by_cases same : i = l
  · have : j = 0 ∨ j = 1 ∨ j = 2 ∨ j = 3 := by omega
    rcases this with rfl | rfl | rfl | rfl
    all_goals simp [same]
  · simp [same]

/-! ### The frame (R403) -/

section

variable {x : Ix} {l : Nat} {k : Lane} (covered : x.fr.mask.getLsbD l = true) (lane : mget x.co.lanes l = some k) (t : Trap)
  (tpc rpc : Word64) (word : Word96)
include covered lane

theorem frameFor_preds : mgetD (frameFor x t tpc rpc word).preds l 0 = k.predWord := by
  have preds : (frameFor x t tpc rpc word).preds =
      (lanesOf x.fr.mask).filterMap fun i => ((mget x.co.lanes i).map Lane.predWord).map fun w => (i, w) := by
    simp only [frameFor, Option.map_map]
    rfl
  rw [mgetD, preds, mget_filterMap, if_pos ((mem_lanesOf _ _).mpr covered), lane]
  rfl

/-- v0 to v3 of one lane, as the frame lists them. -/
def savedRegs (lanes : SMap Lane) (i : Nat) : SMap Word32 :=
  match mget lanes i with
  | some l => (List.range 4).map fun j => (4 * i + j, l.reg j)
  | none => []

omit covered lane in
theorem savedRegs_other (lanes : SMap Lane) {i l j : Nat} (hj : j < 4) (h : i ≠ l) : mget (savedRegs lanes i) (4 * l + j) = none := by
  unfold savedRegs
  split
  · rw [mget_four _ _ _ hj, if_neg h]
  · rfl

theorem frameFor_savedv {j : Nat} (hj : j < 4) : mgetD (frameFor x t tpc rpc word).savedv (4 * l + j) 0 = k.reg j := by
  have saved : (frameFor x t tpc rpc word).savedv = (lanesOf x.fr.mask).flatMap (savedRegs x.co.lanes) := rfl
  rw [mgetD, saved, mget_flatMap (fun i => savedRegs_other _ hj), if_pos ((mem_lanesOf _ _).mpr covered)]
  simp only [savedRegs, lane, mget_four _ _ _ hj, if_true, Option.getD_some]

end

/-! ### The coach that a handler's entry leaves (R400) -/

/-- The predicates of lanes become 0. -/
def clearPreds (m : SMap Lane) (is : List Nat) : SMap Lane :=
  is.foldl (fun m i => match mget m i with
    | some l => mset m i { l with preds := 0 }
    | none => m) m

theorem mget_clearPreds (m : SMap Lane) (is : List Nat) (l : Nat) : mget (clearPreds m is) l =
    if l ∈ is then (mget m l).map fun k => { k with preds := 0 } else mget m l := by
  induction is generalizing m with
  | nil => rfl
  | cons i is ih =>
    have first : mget (clearPreds m [i]) l = if l = i then (mget m l).map fun k => { k with preds := 0 } else mget m l := by
      simp only [clearPreds, List.foldl_cons, List.foldl_nil]
      split
      · next k hk =>
        rw [mget_mset]
        split
        · next e => rw [e, hk]; rfl
        · rfl
      · next hk =>
        split
        · next e => rw [e, hk]; rfl
        · rfl
    rw [show clearPreds m (i :: is) = clearPreds (clearPreds m [i]) is from rfl, ih, first]
    by_cases here : l = i
    · cases mget m l with
      | none => simp [here]
      | some k => simp [here]
    · simp [here]

/-- What the entry into the handler makes of the coach. -/
def entered (x : Ix) (slot : Nat) (f : Frame) (tvec : Word64) (co : Coach) : Coach :=
  { co with
    frames := mset co.frames slot f
    pend := redirect co.pend x.fr.mask slot
    lanes := clearPreds co.lanes (lanesOf x.fr.mask)
    frags := mset co.frags x.ref.frag { Frag.fresh x.fr.mask tvec x.fr.pfrag with bar := x.fr.bar, nap := x.fr.nap } }

theorem entered_regs (x : Ix) (slot : Nat) (f : Frame) (tvec : Word64) (co : Coach) :
    CoachRegs (lanesOf x.fr.mask) .unused 32 (fun _ => true) co (entered x slot f tvec co) := by
  refine ⟨fun l n _ => ?_, fun _ _ => rfl, fun l q h => ?_⟩
  · simp only [entered, mget_clearPreds]
    split
    · rw [Option.map_map]
      rfl
    · rfl
  · simp only [entered, mget_clearPreds]
    rw [if_neg fun inside => h ⟨inside, rfl⟩]

/-- Two changes that agree on the coach in place are the same. -/
theorem modCoach_congr {s : State} {t : Nat} {c : CoachId} {co : Coach} {f g : Coach → Coach} (h : coachAt s t c = some co)
    (same : f co = g co) : modCoach s t c f = modCoach s t c g := by
  rw [coachAt_eq, Option.bind_eq_some_iff] at h
  obtain ⟨tr, ht, hc⟩ := h
  simp only [modCoach, modTrain, ht, hc, same]

/-- A change of a coach leaves every byte of memory. -/
theorem modCoach_memory (s : State) (t : Nat) (c : CoachId) (f : Coach → Coach) : SameMemory s (modCoach s t c f) := by
  have rest := modCoach_rest s t c f
  obtain ⟨ts, eq⟩ := modCoach_eq s t c f
  rw [eq] at rest ⊢
  refine ⟨fun _ _ => rfl, rfl, fun _ _ => rfl, ⟨rfl, rfl⟩, fun k => ?_, ⟨rfl, rfl⟩⟩
  have scratch := congrArg (Option.map fun tr : Train => (tr.scr, tr.scrPoison)) (rest k)
  rw [Option.map_map, Option.map_map] at scratch
  exact scratch

/-! ### The outcomes of a trap (R398 to R402) -/

/-- The issuing fragment is in its place. -/
theorem ixOf_frag {s : State} {r : FragRef} {x : Ix} (h : ixOf s r = some x) : s.frag? r = some x.fr := by
  simp only [ixOf, Option.bind_eq_bind, Option.bind_eq_some_iff] at h
  obtain ⟨tr, train, co, coach, fr, frag, h⟩ := h
  have here : s.frag? r = some fr := by
    rw [frag?_eq, coachAt_eq, train, Option.bind_some, coach, Option.bind_some, frag]
  rw [here]
  split at h <;> cases h <;> rfl

theorem isReflected_iff (s : State) (x : Ix) (t : Trap) : isReflected s x t = true ↔ (x.co.frameOf x.fr.mask).isSome = true ∨
    (1 ≤ t.cls ∧ t.cls ≤ 13 ∧ (s.ctx x.ctx).reflect.getLsbD t.cls = true) ∨ (s.ctx x.ctx).sys.tvec = 0 := by
  simp only [isReflected, reflects, Bool.or_eq_true, Bool.and_eq_true, decide_eq_true_eq, or_assoc, and_assoc]

section

variable {s : State} {r : FragRef} {x : Ix} {t : Trap} {b : Bool} {tpc : Word64} {word : Word96} (here : ixOf s r = some x)
include here

theorem takeTrap_waits (waits : b = false ∧ x.fr.bar.isSome = true) :
    takeTrap s r t b tpc word = modFrag s r fun f => { f with due := some ⟨t, tpc, word⟩ } := by
  obtain ⟨kindA, barrier⟩ := waits
  simp only [takeTrap, here, kindA, barrier, Bool.not_false, Bool.and_self, if_true]

variable (goes : ¬ (b = false ∧ x.fr.bar.isSome = true))
include goes

theorem takeTrap_goes : takeTrap s r t b tpc word =
    if isReflected s x t then reflectTrap s x t tpc (if b then tpc else x.fr.pc)
    else match freeSlot s x with
      | some slot => enterHandler s x slot t tpc (if b then tpc else x.fr.pc) word (s.ctx x.ctx).sys.tvec
      | none => if b then stall s r .frames else modFrag s r fun f => { f with due := some ⟨t, tpc, word⟩ } := by
  have stays : ¬ (!b && x.fr.bar.isSome) = true := by
    rwa [Bool.and_eq_true, Bool.not_eq_true']
  simp only [takeTrap, here]
  exact if_neg stays

theorem takeTrap_full (taken : isReflected s x t = false) (full : freeSlot s x = none) : takeTrap s r t b tpc word =
    if b then stall s r .frames else modFrag s r fun f => { f with due := some ⟨t, tpc, word⟩ } := by
  simp only [takeTrap_goes here goes, taken, full, Bool.false_eq_true, if_false]

theorem takeTrap_enters {slot : Nat} (taken : isReflected s x t = false) (free : freeSlot s x = some slot) :
    takeTrap s r t b tpc word = modCoach s x.ref.train x.ref.coach
      (entered x slot (frameFor x t tpc (if b then tpc else x.fr.pc) word) (s.ctx x.ctx).sys.tvec) := by
  obtain ⟨rfl, -, coach⟩ := ixOf_coach here
  simp only [takeTrap_goes here goes, taken, free, Bool.false_eq_true, if_false, enterHandler]
  exact modCoach_congr coach rfl

theorem takeTrap_reflects (reflected : isReflected s x t = true) :
    takeTrap s r t b tpc word = reflectTrap s x t tpc (if b then tpc else x.fr.pc) := by
  rw [takeTrap_goes here goes, if_pos reflected]

end

/-! ### Reflection (R398, R402) -/

section

variable {s : State} {x : Ix} (here : ixOf s x.ref = some x) (t : Trap) (tpc rpc : Word64)

include here in
/-- The fragment of a reflected trap parks at its resume PC. -/
theorem reflectTrap_parks : ∃ co f, coachAt (reflectTrap s x t tpc rpc) x.ref.train x.ref.coach = some co ∧
    mget co.frags x.ref.frag = some f ∧ f.park.isSome = true ∧ f.pc = rpc ∧ f.mask = x.fr.mask := by
  have parked := modFrag_get (ixOf_frag here) fun _ =>
    { Frag.fresh x.fr.mask rpc x.fr.pfrag with park := some ⟨.reflected, tpc, []⟩, bar := x.fr.bar, nap := x.fr.nap }
  rw [frag?_eq, Option.bind_eq_some_iff] at parked
  obtain ⟨co, coach, frag⟩ := parked
  refine ⟨co, _, ?_, frag, rfl, rfl, rfl⟩
  simp only [coachAt_eq, reflectTrap, sendReport, modCtx_trains]
  exact coach

/-- A change of a fragment changes no context. -/
theorem modFrag_ctx (s : State) (r : FragRef) (f : Frag → Frag) (c : Nat) : (modFrag s r f).ctx c = s.ctx c := by
  simp only [State.ctx, modFrag_ctxs]

/-- The parent's queue gets a report with the trap's code and details. -/
theorem reflectTrap_reports (held : s.hasCtx (parentOf s x.ctx) = true) :
    let u := reflectTrap s x t tpc rpc
    ∃ rep, (u.ctx (parentOf s x.ctx)).fqWait = (s.ctx (parentOf s x.ctx)).fqWait ++ [rep] ∧ rep.pc = tpc ∧ rep.ty = 0 ∧
      rep.lanes = x.fr.mask ∧ rep.aux = t.d0 ∧ rep.va = t.d1 ∧
      rep.code = if (x.co.frameOf x.fr.mask).isSome then t.code ||| 0x8000 else t.code := by
  have parent (f : Frag → Frag) : parentOf (modFrag s x.ref f) x.ctx = parentOf s x.ctx := by simp only [parentOf, modFrag_ctx]
  have there (f : Frag → Frag) : (modFrag s x.ref f).hasCtx (parentOf s x.ctx) = true := by
    simp only [State.hasCtx, modFrag_ctxs]
    exact held
  simp only [reflectTrap, sendReport, parent, modCtx_get (there _), modFrag_ctx]
  exact ⟨_, rfl, rfl, rfl, rfl, rfl, rfl, rfl⟩

end

/-! ### Entry into the handler (R400, R403) -/

section

variable {s : State} {x : Ix} (coach : coachAt s x.ref.train x.ref.coach = some x.co) (slot : Nat) (f : Frame) (tvec : Word64)
include coach

theorem entered_coach : coachAt (modCoach s x.ref.train x.ref.coach (entered x slot f tvec)) x.ref.train x.ref.coach =
    some (entered x slot f tvec x.co) := modCoach_get coach _

/-- The predicates of the trap's lanes read 0, and p15 reads 1. -/
theorem entered_pReg {l : Nat} (q : BitVec 4) (covered : x.fr.mask.getLsbD l = true) (lane : (mget x.co.lanes l).isSome = true) :
    pReg (modCoach s x.ref.train x.ref.coach (entered x slot f tvec)) x.ref.train x.ref.coach l q = some (decide (q = 15)) := by
  obtain ⟨k, hk⟩ := Option.isSome_iff_exists.mp lane
  rw [pReg, laneAt_eq, entered_coach coach, Option.bind_some]
  simp only [entered, mget_clearPreds, if_pos ((mem_lanesOf _ _).mpr covered), hk, Option.map_some, Lane.pred]
  simp

end

/-- Settles O54: the choice of `takeTrap`, then what each outcome leaves. -/
theorem trapEntry : Obligations.TrapEntry := by
  unfold Obligations.TrapEntry
  intro s r x t b tpc word here rpc reflected u waits
  obtain ⟨rfl, -, coach⟩ := ixOf_coach here
  have taken (h : ¬ reflected) : isReflected s x t = false := by
    rw [← Bool.not_eq_true, isReflected_iff]
    exact h
  refine ⟨fun w => takeTrap_waits here w, fun goes own full => takeTrap_full here goes (taken own) full, ?reflects, ?enters⟩
  case reflects =>
    intro goes away held
    have eq : u = reflectTrap s x t tpc rpc := takeTrap_reflects here goes ((isReflected_iff s x t).mpr away)
    rw [eq]
    exact ⟨reflectTrap_parks here t tpc rpc, reflectTrap_reports t tpc rpc held⟩
  case enters =>
    intro goes own slot free
    have eq : u = modCoach s x.ref.train x.ref.coach (entered x slot (frameFor x t tpc rpc word) (s.ctx x.ctx).sys.tvec) :=
      takeTrap_enters here goes (taken own) free
    rw [eq]
    refine ⟨⟨_, _, _, entered_coach coach slot _ _, mget_mset_self _ _ _, mget_mset_self _ _ _, rfl, rfl,
        fun n other => mget_mset_of_ne _ _ other, rfl, rfl, rfl, rfl, rfl, rfl, rfl, rfl, rfl, fun l k covered lane =>
        ⟨frameFor_preds covered lane t tpc rpc word, fun j hj => frameFor_savedv covered lane t tpc rpc word hj⟩⟩,
      fun l q covered lane => entered_pReg coach slot _ _ q covered lane, modCoach_regs s x _ _ _ _ _ (entered_regs x slot _ _),
      modCoach_memory s _ _ _, fun k c other => ?_⟩
    rw [modCoach_at, if_neg other]

end Sys2Proof.Machine
